-- ==== Sys2Proof/Word.lean ====
section
/-! DEFINITION. The words of the machine and their plainest arithmetic (R4, R5, R7). -/

namespace Sys2Proof

/-- A byte of memory (R4). -/
abbrev Byte := BitVec 8

/-- A 32-bit register or instruction word (R41, R44). -/
abbrev Word := BitVec 32

/-- A 64-bit value; in registers an even-odd pair (R4). -/
abbrev DWord := BitVec 64

/-- One bit per lane of a wave, lane l in bit l (R5). -/
abbrev LaneMask := BitVec 64

/-- `sext(x, n)` of R7, widened to `m` bits. -/
abbrev sext {n : Nat} (m : Nat) (x : BitVec n) : BitVec m := x.signExtend m

/-- `zext(x, n)` of R7, widened to `m` bits. -/
abbrev zext {n : Nat} (m : Nat) (x : BitVec n) : BitVec m := x.setWidth m

/-- A pair of registers as one 64-bit value, the even register low (R4). -/
abbrev pairOf (lo hi : Word) : DWord := hi ++ lo

/-- Bits [31:0] of a 64-bit value. -/
abbrev loWord (x : DWord) : Word := x.extractLsb' 0 32

/-- Bits [63:32] of a 64-bit value. -/
abbrev hiWord (x : DWord) : Word := x.extractLsb' 32 32

/-- Bits [lo+w-1:lo] of a value (the slices of R5). -/
abbrev field {n : Nat} (x : BitVec n) (lo w : Nat) : BitVec w := x.extractLsb' lo w

end Sys2Proof
end

