-- ==== Sys2Proof/Machine/Float.lean ====
section
/-! DEFINITION. The floating-point formats and their arithmetic (R91 to R107): exact values as sign, natural mantissa and
power of two, and one rounding into any format. -/

namespace Sys2Proof.Machine

/-- A binary format: `prec` bits of significance with the hidden one, the least normal exponent, and the number of
exponent codes that are finite (R91, R104). -/
structure Fmt where
  prec : Nat
  emin : Int
  codes : Nat
  deriving DecidableEq, Repr

def fmtF16 : Fmt := ⟨11, -14, 31⟩
def fmtBf16 : Fmt := ⟨8, -126, 255⟩
def fmtF32 : Fmt := ⟨24, -126, 255⟩
def fmtF64 : Fmt := ⟨53, -1022, 2047⟩
/-- R104: exponent codes 0 to 1023 are finite. -/
def fmtF32e : Fmt := ⟨24, -510, 1024⟩

/-- A value: NaN, an infinity, or (−1)^neg × m × 2^e, a zero when m = 0. -/
inductive FVal where
  | nan
  | inf (neg : Bool)
  | fin (neg : Bool) (m : Nat) (e : Int)
  deriving DecidableEq, Repr, Inhabited

/-- The four rounding directions of RND (R96). -/
inductive Rnd where
  | rne
  | rtz
  | rup
  | rdn
  deriving DecidableEq, Repr, Inhabited

def rndOf (x : BitVec 2) : Rnd :=
  match x.toNat with
  | 0 => .rne
  | 1 => .rtz
  | 2 => .rup
  | _ => .rdn

/-- Whether a magnitude cut to an odd or even `m`, with remainder `rem` out of `unit`, rounds up in a direction. -/
def roundsUp (r : Rnd) (neg : Bool) (m rem unit : Nat) : Bool :=
  match r with
  | .rne => unit < 2 * rem || (2 * rem = unit && m % 2 = 1)
  | .rtz => false
  | .rup => rem ≠ 0 && !neg
  | .rdn => rem ≠ 0 && neg

/-- The magnitude m × 2^e cut at 2^q: quotient, remainder and unit. A shift past every bit leaves a remainder below half. -/
def cutAt (m : Nat) (e q : Int) : Nat × Nat × Nat :=
  if q ≤ e then (m * 2 ^ (e - q).toNat, 0, 1)
  else
    let sh := (q - e).toNat
    if Nat.log2 m + 2 < sh then (0, if m = 0 then 0 else 1, 4) else (m / 2 ^ sh, m % 2 ^ sh, 2 ^ sh)

/-- The magnitude bits of m × 2^e rounded once into a format (R97), as exponent code and fraction joined; `codes` or more
in the exponent means beyond the largest finite value. Guarded so that a huge exponent is not expanded. -/
def roundMag (f : Fmt) (r : Rnd) (neg : Bool) (m : Nat) (e : Int) : Nat :=
  if m = 0 then 0
  else
    let top := (Nat.log2 m : Int) + e
    let low := f.emin - (f.prec - 1 : Nat)
    if (f.codes : Int) + f.emin ≤ top then f.codes * 2 ^ (f.prec - 1)
    else
      let q := max (top - (f.prec - 1 : Nat)) low
      let (k, rem, unit) := cutAt m e q
      let k := if roundsUp r neg k rem unit then k + 1 else k
      (q - low).toNat * 2 ^ (f.prec - 1) + k

/-- The infinity's magnitude bits. -/
def infMag (f : Fmt) : Nat := f.codes * 2 ^ (f.prec - 1)

/-- What an overflow becomes (R97). -/
def overflowMag (f : Fmt) (r : Rnd) (neg : Bool) : Nat :=
  match r with
  | .rne => infMag f
  | .rtz => infMag f - 1
  | .rup => if neg then infMag f - 1 else infMag f
  | .rdn => if neg then infMag f else infMag f - 1

/-- Magnitude bits after rounding, overflow and, where `flush`, the output flush of R98. -/
def finishMag (f : Fmt) (r : Rnd) (flush neg : Bool) (m : Nat) (e : Int) : Nat :=
  let k := roundMag f r neg m e
  if infMag f ≤ k then overflowMag f r neg
  else if flush && k < 2 ^ (f.prec - 1) then 0 else k

/-- Width of a format with its sign. -/
def fmtWidth (f : Fmt) : Nat := f.prec + Nat.log2 (f.codes + 1)

/-- Sign bit and magnitude joined. -/
def joinSign (f : Fmt) (neg : Bool) (k : Nat) : Nat := (if neg then 2 ^ (fmtWidth f - 1) else 0) + k

/-- The canonical NaN (R92). -/
def nanBits (f : Fmt) : Nat := infMag f + 2 ^ (f.prec - 2)

/-- Rounding a value into an IEEE format (R94, R97, R98). -/
def encodeF (f : Fmt) (r : Rnd) (flush : Bool) : FVal → Nat
  | .nan => nanBits f
  | .inf neg => joinSign f neg (infMag f)
  | .fin neg m e => joinSign f neg (finishMag f r flush neg m e)

/-- Reading an encoding (R91). -/
def decodeF (f : Fmt) (x : Nat) : FVal :=
  let neg := x / 2 ^ (fmtWidth f - 1) % 2 = 1
  let mag := x % 2 ^ (fmtWidth f - 1)
  let code := mag / 2 ^ (f.prec - 1)
  let frac := mag % 2 ^ (f.prec - 1)
  let low := f.emin - (f.prec - 1 : Nat)
  if code = f.codes then (if frac = 0 then .inf neg else .nan)
  else if code = 0 then .fin neg frac low
  else .fin neg (2 ^ (f.prec - 1) + frac) (low + (code - 1 : Nat))

/-- A subnormal operand as a zero of its sign, under the input flush (R98). -/
def flushIn (f : Fmt) (on : Bool) : FVal → FVal
  | .fin neg m e => if on && m < 2 ^ (f.prec - 1) then .fin neg 0 e else .fin neg m e
  | v => v

/-- The exact product (R95). -/
def mulF : FVal → FVal → FVal
  | .nan, _ => .nan
  | _, .nan => .nan
  | .inf a, .inf b => .inf (a != b)
  | .inf a, .fin b m _ => if m = 0 then .nan else .inf (a != b)
  | .fin a m _, .inf b => if m = 0 then .nan else .inf (a != b)
  | .fin a m e, .fin b n k => .fin (a != b) (m * n) (e + k)

/-- The exact sum; an exact zero sum of opposite signs is −0 only under RDN (R97). -/
def addF (r : Rnd) : FVal → FVal → FVal
  | .nan, _ => .nan
  | _, .nan => .nan
  | .inf a, .inf b => if a = b then .inf a else .nan
  | .inf a, .fin .. => .inf a
  | .fin .., .inf b => .inf b
  | .fin a m e, .fin b n k =>
    let q := min e k
    let x : Int := (if a then -1 else 1) * (m * 2 ^ (e - q).toNat : Nat)
    let y : Int := (if b then -1 else 1) * (n * 2 ^ (k - q).toNat : Nat)
    let z := x + y
    if z = 0 then .fin (if a = b then a else r == .rdn) 0 q else .fin (z < 0) z.natAbs q

def negF : FVal → FVal
  | .nan => .nan
  | .inf a => .inf (!a)
  | .fin a m e => .fin (!a) m e

/-- Multiplying by a power of two. -/
def scaleF (k : Int) : FVal → FVal
  | .fin a m e => .fin a m (e + k)
  | v => v

/-- Comparing values (R136, R137): none when unordered. -/
def cmpF : FVal → FVal → Option Ordering
  | .nan, _ => none
  | _, .nan => none
  | .inf a, .inf b => some (if a = b then .eq else if a then .lt else .gt)
  | .inf a, .fin .. => some (if a then .lt else .gt)
  | .fin .., .inf b => some (if b then .gt else .lt)
  | .fin a m e, .fin b n k =>
    let q := min e k
    let x : Int := (if a then -1 else 1) * (m * 2 ^ (e - q).toNat : Nat)
    let y : Int := (if b then -1 else 1) * (n * 2 ^ (k - q).toNat : Nat)
    some (compare x y)

/-- The exact quotient cut to `bits` bits with a sticky bit below (for any rounding of fewer bits). -/
def divF (bits : Nat) : FVal → FVal → FVal
  | .nan, _ => .nan
  | _, .nan => .nan
  | .inf _, .inf _ => .nan
  | .inf a, .fin b _ _ => .inf (a != b)
  | .fin a _ _, .inf b => .fin (a != b) 0 0
  | .fin a m e, .fin b n k =>
    if n = 0 then (if m = 0 then .nan else .inf (a != b))
    else
      let sh := bits + Nat.log2 n + 2
      let t := m * 2 ^ sh
      .fin (a != b) (2 * (t / n) + if t % n = 0 then 0 else 1) (e - k - sh - 1)

/-- Integer square root by bits: the largest `r` with r² ≤ n, built from bit `k − 1` down. -/
def isqrtBits (n : Nat) : Nat → Nat → Nat
  | 0, r => r
  | k + 1, r => isqrtBits n k (if (r + 2 ^ k) * (r + 2 ^ k) ≤ n then r + 2 ^ k else r)

def isqrt (n : Nat) : Nat := isqrtBits n (Nat.log2 n / 2 + 1) 0

/-- The exact square root cut to at least `bits` bits with a sticky bit; of a negative it is NaN (R203). -/
def sqrtF (bits : Nat) : FVal → FVal
  | .nan => .nan
  | .inf a => if a then .nan else .inf false
  | .fin a m e =>
    if m = 0 then .fin a 0 e
    else if a then .nan
    else
      let sh := 2 * bits + (if e % 2 = 0 then 0 else 1)
      let t := m * 2 ^ sh
      let r := isqrt t
      .fin false (2 * r + if r * r = t then 0 else 1) ((e - sh) / 2 - 1)

/-- A magnitude m × 2^e as an integer in a direction, no larger than `cap` where it lies beyond. -/
def integerMag (r : Rnd) (neg : Bool) (m : Nat) (e : Int) (cap : Nat) : Nat :=
  if m = 0 then 0
  else if (Nat.log2 cap : Int) + 1 < Nat.log2 m + e then cap
  else
    let (k, rem, unit) := cutAt m e 0
    min cap (if roundsUp r neg k rem unit then k + 1 else k)

/-- A value as an integer between `lo` and `hi`, saturating (R100, R112); NaN gives `nan`. -/
def toInteger (r : Rnd) (lo hi nan : Int) : FVal → Int
  | .nan => nan
  | .inf neg => if neg then lo else hi
  | .fin neg m e =>
    let k : Int := integerMag r neg m e (2 ^ 33)
    max lo (min hi (if neg then -k else k))

/-- The f32e entry of a value (R103 to R105), P = 0. -/
def encodeE : FVal → Nat
  | .nan => 0x400400000
  | .inf neg => 2 ^ 34 + if neg then 2 ^ 33 else 0
  | .fin neg m e =>
    let k := roundMag fmtF32e .rne neg m e
    (if neg then 2 ^ 33 else 0) + if infMag fmtF32e ≤ k then 2 ^ 34 else k

/-- The value of an f32e entry (R104). -/
def decodeE (x : Nat) : FVal :=
  let neg := x / 2 ^ 33 % 2 = 1
  if x / 2 ^ 34 % 2 = 1 then (if x % 2 ^ 23 = 0 then .inf neg else .nan)
  else
    let mag := x % 2 ^ 33
    let code := mag / 2 ^ 23
    if code = 0 then .fin neg (mag % 2 ^ 23) (-533) else .fin neg (2 ^ 23 + mag % 2 ^ 23) (-533 + (code - 1 : Nat))

/-- `round_f32e` (R105, R106). -/
def roundE (v : FVal) : FVal := decodeE (encodeE v)

/-- The RNE sum of two f32 words, as atomics and reducing copies form it (R120). -/
def addF32Rne (a b : Word) : Word :=
  BitVec.ofNat 32 (encodeF fmtF32 .rne false (addF .rne (decodeF fmtF32 a.toNat) (decodeF fmtF32 b.toNat)))

end Sys2Proof.Machine
end

