-- ==== Sys2Proof/Config.lean ====
section
/-! DEFINITION. What the spec leaves to the implementation or leaves open: opaque constants with no body, so that no
proof can rest on a value (assumption log entries 4 to 9, 54, 82 and 88). -/

namespace Sys2Proof.Config

/-- Ticks of package time beyond the first that step number `n` takes (R146 fixes only that time advances). -/
opaque clockTicks : Nat → Nat

/-- The package power in W, averaged over 1 ms, at a clock (R456). -/
opaque packagePower : Nat → BitVec 12

/-- The n-th choice among outcomes the spec lists (R3). -/
opaque freeNat : Nat → Nat

/-- The n-th byte of the body of an exported image: its layout belongs to the stepping (R431). -/
opaque imageByte : Nat → BitVec 8

/-- Whether the firmware image staged in BAR2 verifies, as a function of the staged bytes' numbers (R453). -/
opaque firmwareVerifies : List (Nat × BitVec 8) → Bool

/-- The measurement that a verified firmware image leaves (R453). -/
opaque firmwareMeasure : List (Nat × BitVec 8) → BitVec 256

/-- Which value an instruction inside a lookahead window reads from register number `n` (64 × register + lane, and from
2^12 on the group registers) at a clock (R72), and which value a path reads of a local word that it is not ordered behind, by
a choice number and 2^20 + the word's key (R257). -/
opaque windowChoice : Nat → Nat → Nat

/-- The words that the staging block reads from BOOT 2 on, where the attestation report is read; the spec gives the report no
layout. From STEP, what was staged last, the measurement and the word's number (R453). -/
opaque attestation : BitVec 6 → List (Nat × BitVec 8) → BitVec 256 → Nat → BitVec 32

end Sys2Proof.Config
end

