-- ==== Sys2Proof/Machine/Table.lean ====
section
/-! DEFINITION. Finite tables as association lists, and byte memories in canonical form. -/

namespace Sys2Proof.Machine

/-- A finite table. -/
abbrev Kv (κ α : Type) := List (κ × α)

/-- The entry at a key. -/
def kvFind {κ α : Type} [DecidableEq κ] (t : Kv κ α) (k : κ) : Option α :=
  match t with
  | [] => none
  | (k', a) :: rest => if k' = k then some a else kvFind rest k

/-- Writing an entry, in place where the key is present, else at the end. -/
def kvPut {κ α : Type} [DecidableEq κ] (t : Kv κ α) (k : κ) (a : α) : Kv κ α :=
  match t with
  | [] => [(k, a)]
  | (k', a') :: rest => if k' = k then (k, a) :: rest else (k', a') :: kvPut rest k a

/-- Removing an entry. -/
def kvErase {κ α : Type} [DecidableEq κ] (t : Kv κ α) (k : κ) : Kv κ α :=
  t.filter fun e => e.1 ≠ k

/-- Changing an entry that is present. -/
def kvModify {κ α : Type} [DecidableEq κ] (t : Kv κ α) (k : κ) (f : α → α) : Kv κ α :=
  t.map fun e => if e.1 = k then (e.1, f e.2) else e

/-- The entry at a key, or a default. -/
def kvGet {κ α : Type} [DecidableEq κ] (t : Kv κ α) (k : κ) (d : α) : α := (kvFind t k).getD d

/-- A byte memory: the listed addresses strictly rising, no listed byte 0; an unlisted address reads as 0 (log entry 2). -/
abbrev Mem := List Host.Cell

/-- What an unlisted address reads as. -/
def memUnlisted : Byte := 0

/-- One byte of memory. -/
def memRead (m : Mem) (a : Nat) : Byte :=
  match m with
  | [] => memUnlisted
  | (a', b) :: rest => if a' = a then b else memRead rest a

/-- Listing a byte at its place; a byte equal to the unlisted one removes its entry. -/
def memWrite (m : Mem) (a : Nat) (b : Byte) : Mem :=
  match m with
  | [] => if b = memUnlisted then [] else [(a, b)]
  | (a', b') :: rest =>
    if a < a' then (if b = memUnlisted then (a', b') :: rest else (a, b) :: (a', b') :: rest)
    else if a = a' then (if b = memUnlisted then rest else (a, b) :: rest)
    else (a', b') :: memWrite rest a b

/-- The canonical form: addresses strictly rising, none listed with the unlisted value. -/
def memWf : Mem → Bool
  | [] => true
  | (_, b) :: [] => b ≠ memUnlisted
  | (a, b) :: (a', b') :: rest => a < a' && b ≠ memUnlisted && memWf ((a', b') :: rest)

/-- The `n` bytes from `a` as a little-endian number (R4). -/
def memReadN (m : Mem) (a : Nat) : Nat → Nat
  | 0 => 0
  | n + 1 => (memRead m a).toNat + 256 * memReadN m (a + 1) n

/-- Writing the low `n` bytes of a number from `a` on, little-endian. -/
def memWriteN (m : Mem) (a : Nat) : Nat → Nat → Mem
  | 0, _ => m
  | n + 1, v => memWriteN (memWrite m a (BitVec.ofNat 8 v)) (a + 1) n (v / 256)

/-- A 32-bit word of memory. -/
def memWord (m : Mem) (a : Nat) : Word := BitVec.ofNat 32 (memReadN m a 4)

/-- Storing a 32-bit word. -/
def memPutWord (m : Mem) (a : Nat) (v : Word) : Mem := memWriteN m a 4 v.toNat

/-- Clearing `n` bytes from `a` on. -/
def memClear (m : Mem) (a n : Nat) : Mem := m.filter fun c => !(a ≤ c.1 && c.1 < a + n)

/-- Writing a list of bytes from `a` on. -/
def memWriteList (m : Mem) (a : Nat) : List Byte → Mem
  | [] => m
  | b :: rest => memWriteList (memWrite m a b) (a + 1) rest

/-- The bytes from `a` on. -/
def memReadList (m : Mem) (a : Nat) : Nat → List Byte
  | 0 => []
  | n + 1 => memRead m a :: memReadList m (a + 1) n

end Sys2Proof.Machine
end

