-- ==== Sys2Proof/Syntax.lean ====
section
/-! DEFINITION. The syntax: one constructor of `Instr` for each row of spec/opcode_table.json. The first
175 constructors are the instructions of R75 with the fields their entries give them; `opcode7F` is R77; the
rest are the table's rows without an instruction word, the steps of the device and of its environment. -/

namespace Sys2Proof

/-- The guard fields K and KS (R63). -/
structure Guard where
  k : BitVec 4
  ks : Bool
  deriving DecidableEq, Repr, Inhabited

/-- L format with D, A and B (R57). -/
structure LOps where
  u : Bool
  g : Guard
  h : Bool
  d : BitVec 6
  a : BitVec 6
  b : BitVec 6
  deriving DecidableEq, Repr, Inhabited

/-- L format whose B field must be 0. -/
structure LOps2 where
  u : Bool
  g : Guard
  h : Bool
  d : BitVec 6
  a : BitVec 6
  deriving DecidableEq, Repr, Inhabited

/-- I format (R57). -/
structure IOps where
  u : Bool
  g : Guard
  d : BitVec 6
  a : BitVec 6
  i : BitVec 7
  deriving DecidableEq, Repr, Inhabited

/-- `kop` (R138): the function in B[5:4], the second predicate in B[3:0]. -/
structure KopOps where
  u : Bool
  g : Guard
  d : BitVec 6
  a : BitVec 6
  f : BitVec 2
  p : BitVec 4
  deriving DecidableEq, Repr, Inhabited

/-- `kmov` in one of its directions (R139). -/
structure KmovOps where
  u : Bool
  g : Guard
  d : BitVec 6
  a : BitVec 6
  deriving DecidableEq, Repr, Inhabited

/-- Guard, D and A, with no group form: `kset`, `vany`, `vall`, `ballot` (R140, R174). -/
structure DAOps where
  g : Guard
  d : BitVec 6
  a : BitVec 6
  deriving DecidableEq, Repr, Inhabited

/-- I format with no group form (R174). -/
structure XIOps where
  g : Guard
  d : BitVec 6
  a : BitVec 6
  i : BitVec 7
  deriving DecidableEq, Repr, Inhabited

/-- `shfl` (R180). -/
structure ShflOps where
  g : Guard
  h : Bool
  d : BitVec 6
  a : BitVec 6
  b : BitVec 6
  deriving DecidableEq, Repr, Inhabited

/-- J format (R57, R59). -/
structure JOps where
  g : Guard
  off : BitVec 19
  deriving DecidableEq, Repr, Inhabited

/-- Only a guard. -/
structure GOps where
  g : Guard
  deriving DecidableEq, Repr, Inhabited

/-- A guard and the A field. -/
structure AOps where
  g : Guard
  a : BitVec 6
  deriving DecidableEq, Repr, Inhabited

/-- A guard and the D field. -/
structure DOps where
  g : Guard
  d : BitVec 6
  deriving DecidableEq, Repr, Inhabited

/-- `tkwait`: bit i of the mask names token tk i (R168). -/
structure TkwaitOps where
  g : Guard
  mask : BitVec 8
  deriving DecidableEq, Repr, Inhabited

/-- `yield n` (R169). -/
structure YieldOps where
  g : Guard
  n : BitVec 7
  deriving DecidableEq, Repr, Inhabited

/-- `movi` (R141). -/
structure MoviOps where
  u : Bool
  g : Guard
  d : BitVec 6
  imm : Word
  deriving DecidableEq, Repr, Inhabited

/-- `alu64` (R142). -/
structure Alu64Ops where
  u : Bool
  g : Guard
  h : Bool
  d : BitVec 6
  a : BitVec 6
  b : BitVec 6
  sh : BitVec 5
  imm : BitVec 19
  deriving DecidableEq, Repr, Inhabited

/-- `ftr` (R200). -/
structure FtrOps where
  u : Bool
  g : Guard
  h : Bool
  d : BitVec 6
  a : BitVec 6
  b : BitVec 6
  la : BitVec 4
  deriving DecidableEq, Repr, Inhabited

/-- `ld` (R230). -/
structure LdOps where
  u : Bool
  g : Guard
  h : Bool
  d : BitVec 6
  a : BitVec 6
  la : BitVec 4
  sub : BitVec 4
  sc : BitVec 3
  cl : BitVec 3
  off : BitVec 16
  deriving DecidableEq, Repr, Inhabited

/-- `st` (R230). -/
structure StOps where
  u : Bool
  g : Guard
  a : BitVec 6
  b : BitVec 6
  sub : BitVec 4
  sc : BitVec 3
  cl : BitVec 3
  off : BitVec 16
  deriving DecidableEq, Repr, Inhabited

/-- `ldl` (R230). -/
structure LdlOps where
  u : Bool
  g : Guard
  h : Bool
  d : BitVec 6
  a : BitVec 6
  la : BitVec 4
  sub : BitVec 4
  sc : BitVec 3
  cl : BitVec 3
  fe : BitVec 2
  off : BitVec 16
  deriving DecidableEq, Repr, Inhabited

/-- `stl` (R230). -/
structure StlOps where
  u : Bool
  g : Guard
  a : BitVec 6
  b : BitVec 6
  sub : BitVec 4
  sc : BitVec 3
  cl : BitVec 3
  fe : BitVec 2
  off : BitVec 16
  deriving DecidableEq, Repr, Inhabited

/-- `atom` (R230, R236). -/
structure AtomOps where
  u : Bool
  g : Guard
  h : Bool
  d : BitVec 6
  a : BitVec 6
  b : BitVec 6
  la : BitVec 4
  sub : BitVec 4
  sc : BitVec 3
  cl : BitVec 3
  off : BitVec 16
  deriving DecidableEq, Repr, Inhabited

/-- `atoml` (R230, R238). -/
structure AtomlOps where
  g : Guard
  h : Bool
  d : BitVec 6
  a : BitVec 6
  b : BitVec 6
  la : BitVec 4
  sub : BitVec 4
  sc : BitVec 3
  cl : BitVec 3
  off : BitVec 16
  deriving DecidableEq, Repr, Inhabited

/-- `fence` (R259). -/
structure FenceOps where
  g : Guard
  sc : BitVec 3
  cl : BitVec 3
  deriving DecidableEq, Repr, Inhabited

/-- `xfence` with its from-mask and to-mask (R259). -/
structure XfenceOps where
  g : Guard
  sc : BitVec 3
  fr : BitVec 4
  dst : BitVec 4
  deriving DecidableEq, Repr, Inhabited

/-- `lsctl` (R239); B is used by `mode` and `pf`. -/
structure LsctlOps where
  g : Guard
  a : BitVec 6
  b : BitVec 6
  off : BitVec 16
  deriving DecidableEq, Repr, Inhabited

/-- `cp` (R281): reduction code, multicast select and per-kind field as R282 gives them. -/
structure CpOps where
  g : Guard
  a : BitVec 6
  b : BitVec 6
  tok : BitVec 3
  red : BitVec 3
  mc : BitVec 2
  kind : BitVec 16
  deriving DecidableEq, Repr, Inhabited

/-- `cpscale` (R297). -/
structure CpscaleOps where
  g : Guard
  a : BitVec 6
  b : BitVec 6
  tok : BitVec 3
  column : Bool
  col : BitVec 6
  loc : Bool
  deriving DecidableEq, Repr, Inhabited

/-- `tkq` and `mmstat`: D and a token (R294, R331). -/
structure TkOps where
  g : Guard
  d : BitVec 6
  tok : BitVec 3
  deriving DecidableEq, Repr, Inhabited

/-- `mma` (R306). -/
structure MmaOps where
  g : Guard
  d : BitVec 6
  a : BitVec 6
  b : BitVec 6
  la : BitVec 4
  tok : BitVec 3
  fol : Bool
  asrc : BitVec 2
  bsrc : BitVec 2
  tile : BitVec 6
  col : BitVec 6
  deriving DecidableEq, Repr, Inhabited

/-- `mmrd` (R329). -/
structure MmrdOps where
  g : Guard
  d : BitVec 6
  n : BitVec 6
  la : BitVec 4
  bf16 : Bool
  tile : BitVec 6
  row0 : BitVec 6
  deriving DecidableEq, Repr, Inhabited

/-- `mmwr` SUB 0 (R329). -/
structure MmwrOps where
  g : Guard
  a : BitVec 6
  n : BitVec 6
  tile : BitVec 6
  row0 : BitVec 6
  deriving DecidableEq, Repr, Inhabited

/-- `mmwr.zero` (R329). -/
structure TileOps where
  g : Guard
  tile : BitVec 6
  deriving DecidableEq, Repr, Inhabited

/-- `mmcvt` (R332). -/
structure MmcvtOps where
  g : Guard
  a : BitVec 6
  b : BitVec 6
  tok : BitVec 3
  tile : BitVec 6
  deriving DecidableEq, Repr, Inhabited

/-- `spawn` (R373). -/
structure SpawnOps where
  g : Guard
  a : BitVec 6
  b : BitVec 6
  entry : BitVec 8
  deriving DecidableEq, Repr, Inhabited

/-- `abar` (R361). -/
structure AbarOps where
  g : Guard
  d : BitVec 6
  idx : BitVec 8
  deriving DecidableEq, Repr, Inhabited

/-- `sreg` (R147). -/
structure SregOps where
  u : Bool
  g : Guard
  d : BitVec 6
  idx : BitVec 16
  deriving DecidableEq, Repr, Inhabited

/-- `sset` (R148). -/
structure SsetOps where
  u : Bool
  g : Guard
  a : BitVec 6
  idx : BitVec 16
  deriving DecidableEq, Repr, Inhabited

/-- `trap` and `trap.bkpt` (R390). -/
structure TrapOps where
  g : Guard
  n : BitVec 8
  deriving DecidableEq, Repr, Inhabited

/-- `sigchk` (R173). -/
structure SigchkOps where
  g : Guard
  imm : Word
  deriving DecidableEq, Repr, Inhabited

/-- `tlbop.map` (R407). -/
structure TlbMapOps where
  g : Guard
  d : BitVec 6
  a : BitVec 6
  b : BitVec 6
  size : BitVec 2
  repl : Bool
  deriving DecidableEq, Repr, Inhabited

/-- `tlbop.unmap` and `tlbop.inval` (R407); D is 0 for `inval`. -/
structure TlbPageOps where
  g : Guard
  d : BitVec 6
  a : BitVec 6
  size : BitVec 2
  deriving DecidableEq, Repr, Inhabited

/-- `fpmode.set` and `fpmode.upd` (R205); the mask is 0 for `set`. -/
structure FpmodeOps where
  g : Guard
  v : BitVec 7
  m : BitVec 7
  deriving DecidableEq, Repr, Inhabited

/-- A PC slot of a resident wave: the wave's flat wave slot (48 × flat cluster + 12 × core + slot) and which of
its two slots (R150). -/
structure SlotRef where
  wave : Nat
  b : Bool
  deriving DecidableEq, Repr, Inhabited

/-- An access a walk is asked for (R399, R400). -/
inductive Acc where
  | load
  | store
  | atomic
  | fetch
  deriving DecidableEq, Repr, Inhabited

/-- Where a flit travels: with a coherence message in flight or its answer, by its number, with an engine's write, or on a
peer port (R420, R448). -/
inductive LinkRef where
  | message (n : Nat)
  | answer (n : Nat)
  | engine (n : Nat)
  | port (p : Nat)
  deriving DecidableEq, Repr, Inhabited

/-- What arrives from a peer (R450): a read of words, or a write of words with their poison. -/
inductive PeerReq where
  | read (va : Nat) (words : Nat)
  | write (va : Nat) (data : List Word) (poison : Bool)
  deriving DecidableEq, Repr

/-- A die that reaches its critical temperature (R458). -/
inductive DieKind where
  | compute
  | base
  | home
  deriving DecidableEq, Repr

/-- The rows of spec/opcode_table.json. -/
inductive Instr where
  | addI32 (f : LOps)
  | subI32 (f : LOps)
  | addi (f : IOps)
  | mulI32 (f : LOps)
  | mulhiI32 (f : LOps)
  | mulhiN32 (f : LOps)
  | madI32 (f : LOps)
  | addsI32 (f : LOps)
  | subsI32 (f : LOps)
  | addsN32 (f : LOps)
  | minI32 (f : LOps)
  | maxI32 (f : LOps)
  | minN32 (f : LOps)
  | maxN32 (f : LOps)
  | absI32 (f : LOps2)
  | sel (f : LOps)
  | andL (f : LOps)
  | orL (f : LOps)
  | xorL (f : LOps)
  | andn (f : LOps)
  | shl (f : LOps)
  | shrN (f : LOps)
  | shrI (f : LOps)
  | rotl (f : LOps)
  | shli (f : IOps)
  | shriN (f : IOps)
  | shriI (f : IOps)
  | popc (f : LOps2)
  | clz (f : LOps2)
  | brev (f : LOps2)
  | bfxN (f : LOps)
  | bfxI (f : LOps)
  | cmpEqI32 (f : LOps)
  | cmpNeI32 (f : LOps)
  | cmpLtI32 (f : LOps)
  | cmpLeI32 (f : LOps)
  | cmpLtN32 (f : LOps)
  | cmpLeN32 (f : LOps)
  | cmpiEq (f : IOps)
  | cmpiLtI32 (f : IOps)
  | cmpiLtN32 (f : IOps)
  | fcmpEqF32 (f : LOps)
  | fcmpLtF32 (f : LOps)
  | fcmpLeF32 (f : LOps)
  | fcmpUnF32 (f : LOps)
  | kop (f : KopOps)
  | kmovKV (f : KmovOps)
  | kmovVK (f : KmovOps)
  | kset (f : DAOps)
  | faddF32 (f : LOps)
  | fsubF32 (f : LOps)
  | fmulF32 (f : LOps)
  | ffmaF32 (f : LOps)
  | fminF32 (f : LOps)
  | fmaxF32 (f : LOps)
  | fnegF32 (f : LOps2)
  | fabsF32 (f : LOps2)
  | faddF16x2 (f : LOps)
  | fmulF16x2 (f : LOps)
  | ffmaF16x2 (f : LOps)
  | ffmaBf16x2 (f : LOps)
  | faddF64 (f : LOps)
  | fmulF64 (f : LOps)
  | ffmaF64 (f : LOps)
  | fscaleF32 (f : LOps)
  | cvtF32I32 (f : LOps2)
  | cvtI32F32 (f : LOps2)
  | cvtF32N32 (f : LOps2)
  | cvtN32F32 (f : LOps2)
  | packF16x2 (f : LOps)
  | packBf16x2 (f : LOps)
  | unpkF16 (f : IOps)
  | unpkBf16 (f : IOps)
  | cvtF64F32 (f : LOps2)
  | cvtF32F64 (f : LOps2)
  | npq (f : LOps)
  | npdq (f : LOps)
  | plane (f : XIOps)
  | unplane (f : XIOps)
  | froundF32 (f : LOps)
  | fclassF32 (f : LOps2)
  | shfl (f : ShflOps)
  | shflx (f : XIOps)
  | shfld (f : XIOps)
  | vany (f : DAOps)
  | vall (f : DAOps)
  | ballot (f : DAOps)
  | rdlane (f : XIOps)
  | rdx (f : XIOps)
  | bra (f : JOps)
  | gbra (f : JOps)
  | setj (f : JOps)
  | join (f : GOps)
  | call (f : JOps)
  | ret (f : GOps)
  | jmpi (f : AOps)
  | tkwait (f : TkwaitOps)
  | nop (f : GOps)
  | yieldN (f : YieldOps)
  | movi (f : MoviOps)
  | add64 (f : Alu64Ops)
  | sub64 (f : Alu64Ops)
  | lea (f : Alu64Ops)
  | mulwI (f : Alu64Ops)
  | mulwN (f : Alu64Ops)
  | shl64 (f : Alu64Ops)
  | shr64N (f : Alu64Ops)
  | shr64I (f : Alu64Ops)
  | min64N (f : Alu64Ops)
  | max64N (f : Alu64Ops)
  | frcp (f : FtrOps)
  | frsq (f : FtrOps)
  | fsqrt (f : FtrOps)
  | fdiv (f : FtrOps)
  | fexp2 (f : FtrOps)
  | flog2 (f : FtrOps)
  | fsinpi (f : FtrOps)
  | fcospi (f : FtrOps)
  | ftanh (f : FtrOps)
  | ld (f : LdOps)
  | st (f : StOps)
  | ldl (f : LdlOps)
  | stl (f : StlOps)
  | atom (f : AtomOps)
  | atoml (f : AtomlOps)
  | fence (f : FenceOps)
  | xfence (f : XfenceOps)
  | lsctlFeSet (f : LsctlOps)
  | lsctlFeClr (f : LsctlOps)
  | lsctlMode (f : LsctlOps)
  | lsctlInv (f : LsctlOps)
  | lsctlWb (f : LsctlOps)
  | lsctlPf (f : LsctlOps)
  | cpG2l (f : CpOps)
  | cpL2g (f : CpOps)
  | cpL2gRed (f : CpOps)
  | cpL2l (f : CpOps)
  | cpG2g (f : CpOps)
  | cpPeerPut (f : CpOps)
  | cpPeerGet (f : CpOps)
  | cpG2lMc (f : CpOps)
  | cpscale (f : CpscaleOps)
  | tkq (f : TkOps)
  | tkqClr (f : TkOps)
  | tkqAddr (f : TkOps)
  | mma (f : MmaOps)
  | mmaJ (f : MmaOps)
  | mmrd (f : MmrdOps)
  | mmwr (f : MmwrOps)
  | mmwrZero (f : TileOps)
  | mmstat (f : TkOps)
  | mmcvtBf16 (f : MmcvtOps)
  | mmcvtNp8 (f : MmcvtOps)
  | spawn (f : SpawnOps)
  | tdone (f : AOps)
  | launch (f : AOps)
  | tbar (f : DOps)
  | abar (f : AbarOps)
  | cbar (f : DOps)
  | exit (f : GOps)
  | sreg (f : SregOps)
  | sset (f : SsetOps)
  | trap (f : TrapOps)
  | trapBkpt (f : TrapOps)
  | eret (f : GOps)
  | eretSkip (f : GOps)
  | eretKill (f : GOps)
  | sigchk (f : SigchkOps)
  | tlbopMap (f : TlbMapOps)
  | tlbopUnmap (f : TlbPageOps)
  | tlbopInval (f : TlbPageOps)
  | tlbopRetire (f : AOps)
  | fpmodeSet (f : FpmodeOps)
  | fpmodeLd (f : AOps)
  | fpmodeUpd (f : FpmodeOps)
  /-- Opcode 0x7F: bits [24:0] of word 0, and word 1 (R77). -/
  | opcode7F (lo : BitVec 25) (w1 : Word)
  /-- The slot fetches the clause at its PC (R55). -/
  | clauseFetch (r : SlotRef)
  /-- Entry n of the wave's results under lookahead lands (R70). -/
  | loadCompletion (w n : Nat)
  /-- Entry n of the wave's waiting local accesses is performed (R221). -/
  | localAccessPerformed (w n : Nat)
  /-- The wave's emptied on-chip fork stack is refilled (R165). -/
  | forkStackRefill (w : Nat)
  /-- Entry n of the core's operand latch has seen its slot idle for 64 cycles (R127). -/
  | latchHoldTimeout (core n : Nat)
  /-- The slot's `yield` has run out (R169). -/
  | yieldExpiry (r : SlotRef)
  /-- The slot's YH ranking has run out (R50). -/
  | yieldHintExpiry (r : SlotRef)
  /-- The slot has been eligible and unchosen for 64 cycles (R368). -/
  | issueAgeLimit (r : SlotRef)
  /-- The wave enters the trap it has pending (R380). -/
  | trapEntry (w : Nat)
  /-- Copy operation `op` has every slice (R277). -/
  | copyGathered (op : Nat)
  /-- The engine goes on with operation `op`: move `pick` to global memory, or, with none left, completion (R288). -/
  | copyCompletion (op pick : Nat)
  /-- Inbound write `n` arrives at its cluster (R216). -/
  | inboundWrite (n : Nat)
  /-- The members' words of the joint operation that matrix operation `op` is part of are compared (R318). -/
  | jointComparison (op : Nat)
  | matrixOpStart (op : Nat)
  | matrixOpCompletion (op : Nat)
  /-- Barrier `n` of the barriers with arrivals completes a generation (R362). -/
  | barrierComplete (n : Nat)
  /-- Waiting mode change `n` is made (R214). -/
  | bankModeChange (n : Nat)
  | bankRetire (cl bank : Nat)
  | tagQuarantineExpiry (cl tag : Nat)
  /-- The coherence messages: message `n` in flight of that kind is handled (R266, R268). -/
  | getS (n : Nat)
  | getW (n : Nat)
  | getM (n : Nat)
  | upg (n : Nat)
  | fwdS (n : Nat)
  | fwdM (n : Nat)
  | drop (n : Nat)
  | backInv (n : Nat)
  | invAck (n : Nat)
  | dataC (n : Nat)
  | dataD (n : Nat)
  | wbW (n : Nat)
  | wbL (n : Nat)
  | nack (n : Nat)
  | writeAck (n : Nat)
  /-- Refused request `n` is sent again (R25). -/
  | nackReplay (n : Nat)
  /-- A walk for (ASID, VA) completes at its home (R398). -/
  | pageWalk (asid va : Nat) (acc : Acc) (sup : Bool)
  /-- A flit of a link fails its CRC and is replayed, `fails` of its replays failing too (R420). -/
  | flitReplay (l : LinkRef) (fails : Nat)
  /-- The next ready team or cohort of launch `n` that fits is placed (R350, R358). -/
  | teamPlacement (n : Nat)
  /-- Team `t`, asked to leave, is saved (R356). -/
  | teamPreemption (t : Nat)
  /-- The image of slot `n` is restored (R357). -/
  | teamResume (n : Nat)
  | teamRetirement (t : Nat)
  | launchEnd (n : Nat)
  | depBitmapReread (n : Nat)
  | taskStart (core : Nat)
  | dieFence (d : Nat)
  | vernalRebuildDone (stk : Nat)
  | baseDieFence (stk : Nat)
  | stackWalkDone (stk : Nat)
  | homeDieFence (h : Nat)
  | criticalTemperature (k : DieKind) (n : Nat)
  | powerThrottle (d mhz : Nat) (shed : Bool)
  | portLinkUp (p : Nat)
  | portLinkDown (p : Nat)
  | peerRequest (p : Nat) (r : PeerReq)
  /-- The peer acknowledges outbound write `n` of port `p`, or refuses its translation (R287). -/
  | peerAck (p n : Nat) (refused : Bool)
  | bar2Read (off len : Nat)
  | bar2Write (off : Nat) (data : List (Option Byte))
  /-- A BAR0 write of `size` bytes (R441). -/
  | registerWrite (off size : Nat) (v : DWord)
  | qtail (q : Nat) (v : Word)
  | en (q : Nat) (v : Bool)
  | restart (q : Nat)
  | head (h : Nat) (v : BitVec 12)
  | lfence (v : BitVec 24)
  | vrctlGo (stk : Nat)
  | verticalBondRetired (col lower : Nat) (half : Bool)
  | throttleEnd (d : Nat)
  | spareBankCopyDone (cl bank : Nat)
  /-- The peer answers read `n` of port `p` with a word, or refuses it (R287). -/
  | peerReadData (p n : Nat) (data : Option Word) (poison : Bool)
  | vectorUnmask (v : Nat)
  | trainingComplete (fail : BitVec 12)
  | launchAccept
  | tlbCmdMap
  | tlbCmdUnmap
  | tlbCmdInval
  | tlbCmdRetire
  | preemptLaunch
  | checkpoint
  | releaseHeld
  | exportImage
  | importImage
  | discard
  | codeRegister
  | codeUnload
  | forcedUnload
  | patch
  | fwgo
  | trgo
  | run
  | d3hotEntry
  | d0Return
  | functionLevelReset
  | powerOn
  deriving DecidableEq, Repr

end Sys2Proof
end

