-- ==== Sys2Proof/Machine/State.lean ====
section
/-! DEFINITION. The state of the machine as plain data, and the machine right after reset. Every record cites the rule
that names what it holds; INVENTORY.md lists the same state with its reset values. -/

namespace Sys2Proof.Machine

/-- An address space and its generation, which tags cached data and resident work (R398, R411). -/
structure AsidTag where
  asid : BitVec 16
  gen : BitVec 8
  deriving DecidableEq, Repr, Inhabited

/-! Waves. -/

/-- The state of a PC slot (R150). -/
inductive SlotState where
  | idle
  | run
  | wait
  deriving DecidableEq, Repr, Inhabited

/-- A pending join (R150). -/
structure Join where
  h : BitVec 56
  e : LaneMask
  sv : Bool
  jv : Bool
  deriving DecidableEq, Repr, Inhabited

/-- A barrier of a team (R361). -/
inductive BarId where
  | team
  | asm (e : Nat)
  | cohort
  deriving DecidableEq, Repr, Inhabited

/-- A count of cycles from a time on (R50, R169). -/
structure Timer where
  since : DWord
  cycles : Nat
  deriving DecidableEq, Repr, Inhabited

/-- A slot's wait at a barrier (R362): which, and the absent mark once the generation has completed. -/
structure BarWait where
  id : BarId
  passed : Option Bool
  deriving DecidableEq, Repr, Inhabited

/-- A PC slot (R150) with its clause (R55, R56) and the waits of its next instruction. `woff` is the word offset of `pc`
from the clause header (R383), 0 at a header; `clause` holds the fetched words, header first, none fetched when empty. -/
structure Slot where
  st : SlotState
  m : LaneMask
  pc : BitVec 56
  j : Join
  sig : Word
  woff : Nat
  clause : List Word
  /-- The header checked when the clause first issued, kept across a trap (R56). -/
  header : Option Word
  /-- The `act` of the next issue where `eret` has fixed it (R388). -/
  act : Option LaneMask
  /-- The slot has gone past a completed `join` whose clause it does not hold: the word is folded when that clause is
  fetched (R158, R172). -/
  joined : Bool
  /-- The tokens that an executed `tkwait` still waits for (R168). -/
  tokWait : BitVec 8
  /-- The barrier at which the slot has arrived; it stands at its `bar`, which issues again once the generation has completed
  (R356, R362). -/
  bar : Option BarWait
  /-- The operations that clause headers named in TWAIT and that interlocked mode has gone past (R73). -/
  owed : List Nat
  /-- `yield` has not run out (R169). -/
  yielding : Option Timer
  /-- The YH ranking has not run out (R50). -/
  ranked : Option Timer
  /-- Eligible and unchosen for 64 cycles (R368). -/
  aged : Bool
  /-- When the slot last issued, by the count of issues (R368), and by the clock (R127). -/
  last : Nat
  issuedAt : DWord
  /-- From when on the slot has been eligible and not chosen, while it is (R368). -/
  since : Option DWord
  /-- The number of the slot's last copy, to which an `mma` with FOL attaches (R295). -/
  copy : Nat
  /-- The joint operation whose comparison the slot's `mma.j` waits for (R318). -/
  joint : Option Nat
  deriving DecidableEq, Repr, Inhabited

/-- A register write that a result under lookahead will make (R70): lane register `n` of lane `l`, or group register `n`;
`sup` where the instruction issued in supervisor mode (R62). -/
inductive RegWrite where
  | lane (n l : Nat) (v : Word)
  | group (n : Nat) (v : Word)
  deriving DecidableEq, Repr, Inhabited

/-- A result that has not landed (R70, R72): `left` further instructions of slot `b` may issue before it. -/
structure Landing where
  b : Bool
  left : Nat
  isLoad : Bool
  sup : Bool
  writes : List RegWrite
  deriving DecidableEq, Repr, Inhabited

/-- What a local access does at its bank (R219, R222, R238, R240). -/
inductive LocalKind where
  | load
  | store
  | atomic
  | feSet
  | feClr
  deriving DecidableEq, Repr, Inhabited

/-- One lane's part of a local access; the group form has the one lane 0. `x` and `y` are its data (R236). -/
structure LocalLane where
  lane : Nat
  addr : Nat
  x : Nat
  y : Nat
  deriving DecidableEq, Repr, Inhabited

/-- A local access that retired while waiting (R221), with the lanes not yet performed. -/
structure LocalAcc where
  b : Bool
  kind : LocalKind
  group : Bool
  sub : Nat
  fe : Nat
  d : Nat
  left : Nat
  sup : Bool
  /-- `act` at issue, and the scope of an acquire, which takes place when the access is performed (R246). -/
  act : LaneMask
  acq : Option Nat
  lanes : List LocalLane
  /-- Destination registers that a later instruction has written since (R72). -/
  superseded : List (Bool × Nat × Nat)
  deriving DecidableEq, Repr, Inhabited

/-- What one lane of a memory instruction has read: its byte address, and its data or operands (R125, R236). -/
structure AtomLane where
  lane : Nat
  va : Nat
  x : Nat
  y : Nat
  deriving DecidableEq, Repr, Inhabited

/-- The progress of an instruction that acts beyond its cluster before it can retire: the results of an atomic as they
arrive (lane, old value, poisoned), those of its lanes whose request the home refused (R410), the records a `spawn` or
`tdone` has pushed (R237, R373), the addresses that it has had translated and not yet accessed, the page (ASID, VA, level)
whose shootdown it waits to run (R409), and what it read at issue: the addresses and data of its lanes, and the lanes that
consumed poison then (R125). -/
structure Progress where
  b : Bool
  asked : Nat
  results : List (Nat × Nat × Bool)
  refused : List Nat
  pushed : Nat
  vas : List Nat
  shoot : Option (BitVec 16 × Nat × Nat)
  ops : Option (List AtomLane)
  eaten : LaneMask
  deriving DecidableEq, Repr, Inhabited

/-- A trap that is known and not yet entered (R380): its slot, cause, faulting lanes with their addresses and kinds. -/
structure TrapInfo where
  b : Bool
  cause : Nat
  /-- An instruction issued and trapped; not a fetch or clause trap. -/
  issued : Bool
  pc : BitVec 56
  woff : Nat
  w0 : Word
  w1 : Word
  act0 : LaneMask
  f : LaneMask
  acc : Nat
  spl : Bool
  code : Nat
  /-- (lane, address, v50 value) of faulting lanes; the others have 0. -/
  lanes : List (Nat × DWord × Word)
  deriving DecidableEq, Repr, Inhabited

/-- What trap entry saves out of program view (R380); `progress` is that of an instruction of which the home refused some
lanes after it had performed others (R410). -/
structure Saved where
  a : Slot
  b : Slot
  act0 : LaneMask
  f : LaneMask
  s : Bool
  cause : Nat
  issued : Bool
  pc : BitVec 56
  progress : Option Progress
  deriving DecidableEq, Repr, Inhabited

/-- The kinds of fork-stack entry (R162). -/
inductive EntryKind where
  | fork
  | parked
  | saved
  deriving DecidableEq, Repr, Inhabited

/-- A fork-stack entry (R162). -/
structure Entry where
  kind : EntryKind
  m : LaneMask
  pc : BitVec 56
  j : Join
  deriving DecidableEq, Repr, Inhabited

/-- A resident wave, in a wave slot of a core (R39, R122, R150). Lane registers and on-chip fork-stack entries lie in the
local store from `regbase` on (R42, R163). -/
structure Wave where
  width : Nat
  regs : Nat
  gregs : Nat
  team : Nat
  num : Nat
  regbase : Nat
  age : Nat
  alive : LaneMask
  g : List Word
  k : List LaneMask
  gk : List Bool
  /-- Supervisor banks g56-g63 and v48-v55, the latter 64 lanes each (R382, R384). -/
  svG : List Word
  svV : List Word
  fpmode : BitVec 7
  deadrd : Bool
  arg : Word
  frame : DWord
  a : Slot
  b : Slot
  /-- Fork-stack entries on chip, and blocks spilled (R163, R165). -/
  depth : Nat
  spilled : Nat
  spillBase : Nat
  spillL : Nat
  super : Bool
  /-- Pending joins whose merged pieces have shared a lane (R172), the handler's under `true`. -/
  broken : List (Bool × Join)
  saved : Option Saved
  svStack : List Entry
  landings : List Landing
  locals : List LocalAcc
  progress : Option Progress
  pending : Option TrapInfo
  deriving DecidableEq, Repr, Inhabited

/-- A latch entry of a core (R127): bound to a slot, the field code, the value of each lane (`high`: of the second register
of a pair, empty for a single one), instructions left. -/
structure Latch where
  core : Nat
  slot : SlotRef
  code : Nat
  vals : List Word
  high : List Word
  left : Nat
  deriving DecidableEq, Repr

/-- A target of local writes: the cluster, the allocation tag (none for a task's own window), the base that destination
addresses count from (R216, R285). -/
structure Target where
  cl : Nat
  tag : Option (BitVec 12)
  base : Nat
  deriving DecidableEq, Repr, Inhabited

/-! Teams and launches. -/

/-- A team token (R290, R294, R331): pending for an operation, the status without PEND, the faulting VA, the report. -/
structure Token where
  op : Option Nat
  status : Word
  addr : DWord
  report : Word
  deriving DecidableEq, Repr, Inhabited

/-- How a team ends (R376): it retires, is aborted, or is lost with its die. -/
inductive Fate where
  | normal
  | aborted
  | lost
  deriving DecidableEq, Repr, Inhabited

/-- A resident team; a task is a team of one wave (R372). -/
structure Team where
  launch : Nat
  idx : Nat
  task : Bool
  cl : Nat
  tag : AsidTag
  regBank : Nat
  nReg : Nat
  dataBank : Nat
  nData : Nat
  allocTag : BitVec 12
  tiles : List Nat
  toks : List Token
  mmrep : Word
  waves : List Nat
  /-- The copy instructions each wave has issued (R276), and the joint operations formed (R317). -/
  copies : Kv Nat Nat
  /-- How completed copies ended, by number, while an `mma` may attach to them (R295, R296). -/
  copyDone : Kv Nat Nat
  joints : Nat
  /-- Barrier generations, and the waves that have arrived (R362). -/
  gens : Kv BarId Nat
  arrived : List (BarId × Nat)
  spill : Option Nat
  cohort : Option (Nat × Nat)
  placed : Nat
  /-- A pre-emption has been asked for (R355, R356). -/
  leaving : Bool
  /-- How the team ends (R376). -/
  fate : Fate
  /-- The caches of its path that its release at retirement or pre-emption has pushed (R38, R351). -/
  release : Nat
  deriving DecidableEq, Repr, Inhabited

/-- The launch record (R339). -/
structure LaunchRec where
  kdesc : DWord
  asid : BitVec 16
  prio : Nat
  kabort : Bool
  notify : Bool
  vec : Nat
  dep : Bool
  arg : Word
  ntx : Nat
  nty : Nat
  ntz : Nat
  affin : BitVec 24
  crec : DWord
  cbmp : DWord
  dbmp : DWord
  da : Word
  db : Word
  dw : Nat
  dn : Nat
  fsp : DWord
  fspl : Nat
  fspt : Nat
  tring : DWord
  tringn : Nat
  deriving DecidableEq, Repr, Inhabited

/-- The kernel descriptor as read at acceptance (R342), its entry table and its assembly table. -/
structure Kernel where
  entry : BitVec 56
  width : Nat
  ilk : Bool
  sig : Bool
  regs : Nat
  gregs : Nat
  scr : Nat
  fifo : Nat
  tiles : Nat
  tslot : Nat
  cohlv : Nat
  waves : Nat
  cohn : Nat
  entries : List (BitVec 56)
  /-- For each assembly entry the `%cteam` values of its members (R360). -/
  asms : List (List Nat)
  deriving DecidableEq, Repr, Inhabited

/-- The units (teams, or cohorts) of a launch left to a die: (first, count) runs in order (R348, R349). -/
structure DieRange where
  die : Nat
  runs : List (Nat × Nat)
  deriving DecidableEq, Repr, Inhabited

/-- Task slots reserved on a cluster (R352): the first bank of their windows, and their wave slots in ascending order. -/
structure TaskRes where
  bank : Nat
  slots : List Nat
  deriving DecidableEq, Repr, Inhabited

/-- An accepted launch (R346 to R367). -/
structure Launch where
  rcd : LaunchRec
  ker : Kernel
  tag : AsidTag
  seq : Nat
  total : Nat
  /-- Units left on each die, and cohorts that Germinal itself places (R348, R358). -/
  ranges : List DieRange
  global : List (Nat × Nat)
  ended : Nat
  teams : Nat
  aborted : Nat
  lost : Nat
  lanes : Nat
  taskerr : Nat
  tstart : DWord
  /-- Spill indices held (R353). -/
  spills : List Nat
  /-- Generations of cohort barriers, by cohort; members killed, by cohort (R362, R319). -/
  killed : List (Nat × Nat)
  /-- Where each member of a cohort was placed last, by cohort and member (R285, R292). -/
  places : Kv (Nat × Nat) Target
  /-- Members that retired and stay counted as arrived, by cohort (R362). -/
  gone : List (Nat × Nat)
  /-- The task slots that the launch holds, by cluster (R352). -/
  taskCl : Kv Nat TaskRes
  /-- The launch serves imported images only (R433). -/
  imported : Bool
  deriving DecidableEq, Repr, Inhabited

/-- A continuation record (R369). -/
structure TaskRec where
  frame : DWord
  arg : Word
  entry : Word
  deriving DecidableEq, Repr, Inhabited

/-- The task queue of a core (R371): records on chip, oldest first, and the ring's head and count. -/
structure TaskQueue where
  launch : Nat
  chip : List TaskRec
  ringHead : Nat
  ringCount : Nat
  deriving DecidableEq, Repr, Inhabited

/-! Copies and matrix operations. -/

/-- The kinds of copy operation (R282, R297). -/
inductive CopyKind where
  | g2l
  | l2g
  | l2gRed
  | l2l
  | g2g
  | peerPut
  | peerGet
  | g2lMc
  | scale
  deriving DecidableEq, Repr, Inhabited

/-- A wave's slice (R283, R297): word 1 of its instruction, the registers of its quads. -/
structure Slice where
  wave : Nat
  kind : CopyKind
  w1 : Word
  tok : Nat
  empty : Bool
  a : List Word
  b : List Word
  deriving DecidableEq, Repr, Inhabited

/-- What an engine has of a word that it moves: nothing yet; a request for it at a peer; its value and poison. -/
inductive Taken where
  | no
  | asked
  | got (v : Word) (poison : Bool)
  deriving DecidableEq, Repr, Inhabited

/-- What the engine writes at once: the words of one destination granule, as (source, destination) byte addresses, or the
entries of eight for `cpscale`; `fifo` where the destination is pushed (R288). `vals` are the words as far as they are read. -/
structure Move where
  slice : Nat
  words : List (Nat × Nat)
  targets : List Target
  fifo : Bool
  vals : List Taken
  deriving DecidableEq, Repr, Inhabited

/-- A copy operation (R276 to R296). `marks` are the granules dropped or carrying poison, by cluster and number; `faulting` the
granules that have faulted (R294); `pages` the pages whose refusal has been recorded (R401); `cover` which bytes of a granule
the operation has written so far, as bits 0 to 15, with bit 16 where poison was among them (R218). -/
structure CopyOp where
  team : Nat
  cl : Nat
  k : Nat
  tag : AsidTag
  slices : List Slice
  gathered : Bool
  moves : List Move
  fault : Option Nat
  gone : Bool
  pois : Bool
  marks : List (Nat × Nat)
  faulting : List Nat
  pages : List Nat
  cover : Kv (Nat × Nat) Nat
  deriving DecidableEq, Repr, Inhabited

/-- A write on its way to a cluster's local store (R216): the operation that sends it and the number of its slice, its words
with their local addresses and poison. `key` numbers its granule for counting; `multi` where only SCR banks take it (R285);
`begun`, once some of its words have landed, what the operation had written of the granule by then, as in `cover`. -/
structure Inbound where
  op : Nat
  slice : Nat
  target : Target
  multi : Bool
  words : List (Nat × Word × Bool)
  key : Nat
  begun : Option Nat
  deriving DecidableEq, Repr, Inhabited

/-- What a word of a local store held before a write on one path, while another path may still read it (R257): its key and
the writer's path (0 L, 1 C, 2 M), team and copy operation, by its number in the team; the value and poison before; the paths
that may read it. -/
structure Older where
  key : Nat
  path : Nat
  team : Nat
  op : Option Nat
  val : Word
  poison : Bool
  readers : BitVec 4
  deriving DecidableEq, Repr, Inhabited

/-- An operand of a matrix operation (R308, R310): register bytes as read at issue, or a scratch descriptor. -/
inductive MatOperand where
  | bytes (bs : List Byte)
  | scratch (lo hi : Word)
  deriving DecidableEq, Repr, Inhabited

/-- What a matrix operation does. -/
inductive MatKind where
  | solo
  | joint
  | cvtBf16
  | cvtNp8
  deriving DecidableEq, Repr, Inhabited

/-- An operand register block that the operation is still reading (R315): the slot whose next `left` instructions may
write into it, which operand, its first register, and the wave's width. -/
structure MatWindow where
  slot : SlotRef
  left : Nat
  second : Bool
  reg : Nat
  width : Nat
  deriving DecidableEq, Repr, Inhabited

/-- A wave's issue of an attached `mma` (R307): whether its `act` was empty, and its supply. -/
structure MatSupply where
  wave : Nat
  empty : Bool
  fmt : Word
  a : MatOperand
  b : MatOperand
  windows : List MatWindow
  tok : Nat
  tile : Nat
  col : Nat
  deriving DecidableEq, Repr, Inhabited

/-- A matrix operation of a team (R307 to R334). For `mmcvt`, `fmt` holds `%fpmode` and the descriptor is `a`. -/
structure MatOp where
  team : Nat
  cl : Nat
  kind : MatKind
  /-- The number of the team's copy operation that it is attached to (R295). -/
  attached : Option Nat
  supplies : List MatSupply
  formed : Bool
  /-- No wave supplies (R307). -/
  empty : Bool
  /-- Its number among the team's joint operations (R317). -/
  num : Nat
  compared : Bool
  /-- When it was formed, for the order on its tile (R325). -/
  seq : Nat
  fmt : Word
  a : MatOperand
  b : MatOperand
  windows : List MatWindow
  scaleAddr : Nat
  tok : Nat
  tile : Nat
  col : Nat
  /-- After the start: the entries to write (36 bits each), the report, poison (R324). -/
  started : Bool
  result : List Nat
  report : Word
  pois : Bool
  /-- The detail with which it will complete instead (R296, R314, R318, R319). -/
  fault : Option Nat
  deriving DecidableEq, Repr, Inhabited

/-! Local store and caches. -/

/-- Bank modes (R213), and free. -/
inductive BankMode where
  | free
  | reg
  | scr
  | cache
  | fifo
  deriving DecidableEq, Repr, Inhabited

/-- A bank of a cluster (R211 to R218). `full` and `pois` list granules whose bit is 1. -/
structure Bank where
  mode : BankMode
  owner : Option Nat
  full : List Nat
  pois : List Nat
  head : Nat
  count : Nat
  dead : Bool
  copying : Bool
  /-- To be fenced once its owners have left (R217). -/
  retiring : Bool
  deriving DecidableEq, Repr, Inhabited

/-- Whose local store or which cache or directory (R223, R264). -/
inductive Node where
  | l0 (core : Nat)
  | l1 (cl : Nat)
  | die (d : Nat)
  | stk (s : Nat)
  | bridge (i : Nat)
  | home (h : Nat)
  deriving DecidableEq, Repr, Inhabited

/-- A cached 4-byte word (R224, R265, R267). -/
structure CWord where
  val : Word
  poison : Bool
  dirty : Bool
  owned : Bool
  stale : Bool
  deriving DecidableEq, Repr, Inhabited

/-- Where a cached word is: node, tag, word address. -/
structure CKey where
  node : Node
  tag : AsidTag
  va : Nat
  deriving DecidableEq, Repr, Inhabited

/-- Directory states (R265). -/
inductive DState where
  | m
  | o
  | e
  | s
  | w
  | i
  deriving DecidableEq, Repr, Inhabited

/-- Where a directory record is: directory, tag, line number (VA div 128), child. -/
structure DKey where
  node : Node
  tag : AsidTag
  line : Nat
  child : Node
  deriving DecidableEq, Repr, Inhabited

/-- A directory's record of a child (R265): state, dirty-registered words, clean-owned words. -/
structure DRec where
  st : DState
  dr : BitVec 32
  co : BitVec 32
  deriving DecidableEq, Repr, Inhabited

/-- The kinds of coherence message (R266), and the acknowledgement of R269. -/
inductive MsgKind where
  | getS
  | getW
  | getM
  | upg
  | fwdS
  | fwdM
  | drop
  | backInv
  | invAck
  | dataC
  | dataD
  | wbW
  | wbL
  | nack
  | writeAck
  deriving DecidableEq, Repr, Inhabited

/-- An atomic request (R237): the wave that waits, SUB code, lanes on the line, the level of the site (R228), and whether a
link has lost its operands, or its answer (R420). -/
structure AtomReq where
  wave : Nat
  sub : Nat
  site : Node
  lanes : List AtomLane
  lost : Bool
  lostBack : Bool
  deriving DecidableEq, Repr, Inhabited

/-- A word in a message: index in the line, value, poison. -/
structure MWordData where
  idx : Nat
  val : Word
  poison : Bool
  deriving DecidableEq, Repr, Inhabited

/-- A coherence message (R266). For a `Nack`, `req` is the kind refused and `reason` says why (R271: 0 busy, 1 fault,
2 rebuild); a `WbL` with reason 1 keeps a clean copy, and one with reason 2 leaves the
child's record as it is. The mask of a `GetS` names the words that the reader needs, and its
words those that it has given up since; the mask of an `InvAck` those of the `Drop` that it answers, and its words those
that were dirty (log entry 106); a `GetW` with `atom` comes from an atomic's site. With `flush` a `GetW`, and the `Drop`s that
it causes, have the old registrants write back what they have dirty (log entry 101). -/
structure Msg where
  kind : MsgKind
  src : Node
  dst : Node
  tag : AsidTag
  line : Nat
  mask : BitVec 32
  words : List MWordData
  req : MsgKind
  atom : Option AtomReq
  reason : Nat
  flush : Bool
  deriving DecidableEq, Repr, Inhabited

/-- A message that a node has begun to handle and that waits for answers (R268, R269): from these children, once for each
answer, or, `up`, from the parent. `words` holds the dirty words answered so far, `acks` the writes taken in meanwhile that
are acknowledged at its end, `gone` the dirty words that a `Drop` has superseded here and below. -/
structure Txn where
  node : Node
  msg : Msg
  await : List Node
  up : Bool
  words : List MWordData
  acks : List Msg
  gone : BitVec 32
  deriving DecidableEq, Repr, Inhabited

/-- A word of DRAM under a word that a home cache has not written back: its physical address, value and poison. -/
structure DramWord where
  pa : Nat
  val : Word
  poison : Bool
  deriving DecidableEq, Repr

/-- A line of a home cache (R21, R223, R395): the physical line (address div 128), the address space and address through which
it was brought in, none for the device itself, and DRAM's words under its dirty ones, in the mirror of a scale page too
(R418). -/
structure HomeLine where
  line : Nat
  who : Option (AsidTag × Nat)
  under : List DramWord
  deriving DecidableEq, Repr

/-- A superblock in the L1 of a cluster: its way is a bank in CACHE mode (R213, R224). -/
structure L1Way where
  cl : Nat
  bank : Nat
  tag : AsidTag
  blk : Nat
  deriving DecidableEq, Repr, Inhabited

/-- A TLB entry (R398): tag, home field, page number at its size, size level 1-3, the PTE. -/
structure TlbEntry where
  tag : AsidTag
  field : Nat
  page : Nat
  level : Nat
  pte : DWord
  deriving DecidableEq, Repr, Inhabited

/-- A walk-cache entry (R398): the table pointer that a walk found at a level. -/
structure WalkEntry where
  tag : AsidTag
  field : Nat
  page : Nat
  level : Nat
  pte : DWord
  deriving DecidableEq, Repr, Inhabited

/-- An error state of DRAM (R417): a sector (home × 2^40 + offset, div 32), its flipped data bits (0-255), and for each
flipped check bit the number of the codeword or group it belongs to. -/
structure Flip where
  sector : Nat
  bits : List Nat
  checks : List Nat
  deriving DecidableEq, Repr, Inhabited

/-! Registers of the device. -/

/-- A fault record (R403); `waiter` is the wave slot whose trap entry delivers it (R405). -/
structure FaultRec where
  va : Nat
  tag : AsidTag
  kind : Nat
  acc : Nat
  src : Nat
  clu : Nat
  core : Nat
  slot : Nat
  time : DWord
  deliv : Bool
  waiter : Option Nat
  deriving DecidableEq, Repr, Inhabited

/-- A home's fault record buffer (R403, R404): what the ring holds by index, kept until overwritten, and its registers. -/
structure FaultBuf where
  recs : Kv Nat FaultRec
  head : BitVec 12
  tail : BitVec 12
  full : Bool
  ovf : Bool
  disp : BitVec 16
  busy : Word
  ven : Bool
  vec : BitVec 6
  deriving DecidableEq, Repr, Inhabited

/-- A host launch queue's registers (R443). -/
structure HostQueue where
  base : DWord
  log : BitVec 5
  asid : BitVec 16
  tail : Word
  head : Word
  en : Bool
  stop : Bool
  deriving DecidableEq, Repr, Inhabited

/-- A record in the device launch queue (R345, R347): its bytes, its issuer's ASID tag, issued in supervisor mode. -/
structure DevRec where
  bytes : List Byte
  tag : AsidTag
  super : Bool
  deriving DecidableEq, Repr, Inhabited

/-- A peer port's registers (R449) and its traffic (R287, R450). -/
structure Port where
  pen : Bool
  pvec : BitVec 6
  pven : Bool
  trained : Bool
  retry : BitVec 16
  outAsid : BitVec 16
  remAsid : BitVec 16
  inAsid : BitVec 16
  bound : Bool
  /-- Writes not acknowledged and reads not answered (R287): operation, peer VA, and a read's local destination. -/
  puts : List (Nat × Nat)
  gets : List (Nat × Nat × Nat)
  deriving DecidableEq, Repr, Inhabited

/-- The translation command block (R406). -/
structure TlbCmd where
  va : DWord
  pte : DWord
  op : BitVec 2
  size : BitVec 2
  repl : Bool
  asid : BitVec 16
  busy : Bool
  result : BitVec 2
  deriving DecidableEq, Repr, Inhabited

/-- The service and error block (R428). -/
structure Service where
  pfm : Bool
  rbm : Bool
  lkm : Bool
  lfm : Bool
  eptb : DWord
  elbase : DWord
  elsize : BitVec 5
  elhead : Word
  eltail : Word
  ellost : Word
  elven : Bool
  elvec : BitVec 6
  lfence : BitVec 24
  deriving DecidableEq, Repr, Inhabited

/-- A home's error counters (R428). -/
structure Counters where
  corr : Word
  s1 : Word
  s2 : Word
  s3up : Word
  deriving DecidableEq, Repr, Inhabited

/-- The context command registers (R432). -/
structure CtxCmd where
  cva : DWord
  slot : BitVec 16
  casid : BitVec 16
  op : BitVec 3
  busy : Bool
  result : BitVec 4
  count : Word
  ckgen : Word
  cigen : Word
  lsel : DWord
  /-- Operations whose GO waits for the command, or a patch, that runs. -/
  waiting : List (BitVec 3)
  deriving DecidableEq, Repr, Inhabited

/-- The code registration registers (R435). -/
structure CodeCmd where
  base : DWord
  size : Word
  asid : BitVec 16
  op : BitVec 2
  busy : Bool
  result : BitVec 3
  id : BitVec 12
  holders : Word
  deriving DecidableEq, Repr, Inhabited

/-- A registered text range (R435, R436). -/
structure CodeObj where
  id : Nat
  base : Nat
  size : Nat
  asid : BitVec 16
  removed : Bool
  deriving DecidableEq, Repr, Inhabited

/-- The patch engine (R437): its registers, and whether it holds its range and its waves now. -/
structure PatchCmd where
  dst : DWord
  src : DWord
  nw : BitVec 14
  asid : BitVec 16
  busy : Bool
  result : BitVec 3
  parked : BitVec 16
  deriving DecidableEq, Repr, Inhabited

/-- A stack's rebuild registers (R275) and the work still before it: records of (die or stack) lines (R272, R31). -/
structure Rebuild where
  batch : BitVec 16
  pend : Bool
  host : Bool
  die : BitVec 2
  busy : Bool
  next : Nat
  lines : Word
  dies : List Nat
  deriving DecidableEq, Repr, Inhabited

/-- A die's power registers (R456). -/
structure DiePower where
  dclk : BitVec 12
  thr : Bool
  shed : Bool
  deriving DecidableEq, Repr, Inhabited

/-- An MSI-X vector (R439, R447): address, data, masked, pending. -/
structure Vector where
  addr : DWord
  data : Word
  masked : Bool
  pend : Bool
  deriving DecidableEq, Repr, Inhabited

/-- A saved wave (R356): the bytes of its register window, from address 0 on, and its words that carry a poison mark. -/
structure SavedWave where
  wave : Wave
  window : Mem
  marks : List Nat
  deriving DecidableEq, Repr, Inhabited

/-- A saved team (R356, R431): the header's fields; the launch's record and kernel; the team, its waves, its data banks
with their bytes, its tiles, its operations, its mode changes not made by data bank. `slots` is how many slots of the
context store it takes. -/
structure Image where
  gen : Word
  crcOk : Bool
  size : Nat
  cg : Bool
  held : Bool
  step : BitVec 6
  crec : DWord
  rcd : LaunchRec
  ker : Kernel
  tid : Nat
  team : Team
  waves : List SavedWave
  banks : List (Bank × Mem)
  tiles : List (Kv Nat Nat)
  copies : Kv Nat CopyOp
  mats : Kv Nat MatOp
  modes : List (Nat × BankMode)
  seq : Nat
  slots : Nat
  /-- The members of its cohort that were killed, and that had retired. -/
  killed : List Nat
  gone : List Nat
  /-- Written by another package: what its body says is a free value. -/
  foreign : Bool
  deriving DecidableEq, Repr, Inhabited

/-- An uncorrectable error that the device has not met yet (R425): a cached word of an L0 or an
instruction cache, a TLB entry, a line of a cache, a directory record, a register word, a granule, a tile entry, a scale
entry, the matrix array of a layer; or in a home's reserved region (R416): an entry of the poison table, an image, firmware
state. -/
inductive ChipErr where
  | word (n : Node) (tag : AsidTag) (va : Nat)
  | text (cl : Nat) (tag : AsidTag) (va : Nat)
  | tlb (h : Nat)
  | line (n : Node) (tag : AsidTag) (line : Nat)
  | record (k : DKey)
  | register (cl addr : Nat)
  | granule (cl addr : Nat)
  | entry (cl phys e : Nat)
  | scale (cl e : Nat)
  | array (cl : Nat)
  | poisonEntry (sector : Nat)
  | stored (n : Nat)
  | firmware (h : Nat)
  deriving DecidableEq, Repr

/-- What the host sees (R441, R442, R447): answers to its reads, completions in error, messages. -/
inductive HostSees where
  | data (bs : List Byte) (poisoned : Bool)
  | unsupported
  | abort
  | msix (vec : Nat) (addr : DWord) (data : Word)
  /-- Writes and reads that go out to a peer, with REMASID, which they translate under there (R287, R449), and what a peer's
  request is answered with (R450). -/
  | peerWrite (port : Nat) (remAsid : BitVec 16) (va : Nat) (ws : List Word) (poison : Bool)
  | peerRead (port : Nat) (remAsid : BitVec 16) (va : Nat)
  | peerData (port : Nat) (ws : List Word) (poison : Bool)
  | peerAck (port : Nat)
  | peerRefused (port : Nat)
  deriving DecidableEq, Repr

/-- The states of a bond between two dies of a column (R322). -/
inductive BondState where
  | whole
  | half
  | retired
  deriving DecidableEq, Repr, Inhabited

/-- Whose turn it is in the model's schedule (log entry 1). -/
inductive Turn where
  | issue
  | device
  deriving DecidableEq, Repr, Inhabited

/-- The machine. -/
structure State where
  /-- The model's own: events put next, events of the host and of peers that wait, whose turn, the core and the kind of
  event looked at next, the slot an instruction acts for, counters of free values and of serial numbers (log entry 1). -/
  inputs : List Instr
  deferred : List Instr
  turn : Turn
  nextCore : Nat
  nextEvent : Nat
  cur : SlotRef
  freeCtr : Nat
  serial : Nat
  /-- R146. -/
  clock : DWord
  /-- Bring-up and identity (R452 to R454). -/
  boot : BitVec 4
  berr : BitVec 8
  trfail : BitVec 12
  /-- Memory training runs (R453). -/
  training : Bool
  stepId : BitVec 6
  measure : BitVec 256
  staging : Mem
  fused : BitVec 576
  clen : BitVec 576
  gbase : Nat
  gstby : Option Nat
  dfence : BitVec 24
  hfence : BitVec 12
  /-- The power state reads D3hot; the clocks have stopped; a D0 return waits for that (R440). -/
  d3hot : Bool
  stopped : Bool
  d0wait : Bool
  vectors : Kv Nat Vector
  plim : BitVec 12
  pnow : BitVec 12
  power : Kv Nat DiePower
  w2va : DWord
  w2asid : BitVec 16
  w2en : Bool
  queues : Kv Nat HostQueue
  devq : List DevRec
  gptr : Nat
  accepting : Bool
  gerLost : Bool
  cth : Kv Nat (BitVec 8)
  ports : Kv Nat Port
  tvec : Kv Nat DWord
  astb : DWord
  tlbCmd : TlbCmd
  faults : Kv Nat FaultBuf
  service : Service
  counters : Kv Nat Counters
  retired : List (Nat × Nat)
  layerErrs : Kv Nat Nat
  fencedLayers : List Nat
  ctx : CtxCmd
  images : Kv Nat Image
  /-- What the images that this package has exported say (R431 leaves their body to the stepping). -/
  exports : List (List Byte × Image)
  codeCmd : CodeCmd
  codes : List CodeObj
  patch : PatchCmd
  rebuilds : Kv Nat Rebuild
  /-- Stacks whose directory walks run, and stacks fenced (R31). -/
  stackWalks : List Nat
  fencedStacks : List Nat
  bonds : Kv (Nat × Nat) BondState
  baseCut : List Nat
  /-- Memory: DRAM at home × 2^40 + offset, local store at flat cluster × 2^21 + local address. -/
  dram : Mem
  lstore : Mem
  /-- Poisoned words of DRAM (address div 4), and the sectors (address div 32) whose poison the marker alone records (R422). -/
  dramPoison : List Nat
  markers : List Nat
  regPoison : List Nat
  flips : List Flip
  chipErrs : List ChipErr
  banks : Kv (Nat × Nat) Bank
  spares : Kv Nat Nat
  /-- Mode changes asked for and not made: cluster, bank, mode, wave (R214). -/
  modeReqs : List (Nat × Nat × BankMode × Nat)
  lsdrop : Kv Nat Word
  tagCtr : Kv Nat (BitVec 12)
  quarantine : List (Nat × BitVec 12)
  caches : Kv CKey CWord
  dirs : Kv DKey DRec
  net : List Msg
  txns : List Txn
  nacked : List Msg
  /-- Superblocks of each stack cache from the least recently used on (R459): (stack, tag, VA div 512). -/
  lru : List (Nat × AsidTag × Nat)
  /-- The ways of the L1s (R224), oldest first; lines that `.nt` accesses left as first candidates for eviction (R227); ways
  of directory sets fenced for errors (R425); the lines in the home cache of each owning home, oldest first (R21, R223). -/
  l1ways : List L1Way
  ntLines : List (Node × AsidTag × Nat)
  deadWays : Kv (Node × Nat) Nat
  homeLines : Kv Nat (List HomeLine)
  tlbs : Kv Nat (List TlbEntry)
  walkCache : Kv Nat (List WalkEntry)
  icache : Kv (Nat × AsidTag × Nat) Word
  latches : List Latch
  scale : Kv (Nat × Nat) (Word × Bool)
  tiles : Kv (Nat × Nat × Nat) Nat
  copies : Kv Nat CopyOp
  inbound : List Inbound
  older : List Older
  mats : Kv Nat MatOp
  launches : Kv Nat Launch
  teams : Kv Nat Team
  waves : Kv Nat Wave
  tasks : Kv Nat TaskQueue
  hostSees : List HostSees
  deriving DecidableEq, Repr

/-! Refusals and faults. -/

/-- Why the machine refuses an instruction. -/
inductive Refusal where
  /-- An arm of `exec` with no meaning yet; raised by the dispatcher alone. Safe: nothing is claimed of the instruction. -/
  | notModelled (mnemonic : String)
  deriving DecidableEq, Repr

/-- Why the machine stops. -/
inductive Fault where
  /-- An instruction was executed for a slot that holds no wave, or whose team or launch is gone. Raised by every
  instruction's meaning through `issueInstr` and by no step, which picks a slot that holds a wave. Safe. -/
  | noSlot
  deriving DecidableEq, Repr

/-! Reset. -/

def Join.clear : Join := ⟨0, 0, false, false⟩

def Slot.idle : Slot :=
  { st := .idle, m := 0, pc := 0, j := Join.clear, sig := 0, woff := 0, clause := [], header := none, act := none,
    joined := false, tokWait := 0, bar := none, owed := [], yielding := none, ranked := none, aged := false, last := 0,
    issuedAt := 0, since := none, copy := 0, joint := none }

def HostQueue.clear : HostQueue :=
  { base := 0, log := 0, asid := 0, tail := 0, head := 0, en := false, stop := false }

def Port.clear : Port :=
  { pen := false, pvec := 0, pven := false, trained := false, retry := 0, outAsid := 0, remAsid := 0, inAsid := 0,
    bound := false, puts := [], gets := [] }

def FaultBuf.clear : FaultBuf :=
  { recs := [], head := 0, tail := 0, full := false, ovf := false, disp := 0, busy := 0, ven := false, vec := 0 }

def Bank.clear : Bank :=
  { mode := .free, owner := none, full := [], pois := [], head := 0, count := 0, dead := false, copying := false,
    retiring := false }

def Rebuild.clear : Rebuild :=
  { batch := 0, pend := false, host := false, die := 0, busy := false, next := 0, lines := 0, dies := [] }

/-- Every cluster enabled: the harvest the model starts from (log entry 3). -/
def allClusters : BitVec 576 := BitVec.allOnes 576

/-- The machine right after device reset (R452 and the Reset columns; log entries 2 and 3 for what the spec leaves open). -/
def State.reset : State :=
  { inputs := [], deferred := [], turn := .issue, nextCore := 0, nextEvent := 0, cur := ⟨0, false⟩, freeCtr := 0, serial := 0,
    clock := 0, boot := 1, berr := 0, trfail := 0, training := false, stepId := 1, measure := 0, staging := [], fused := allClusters,
    clen := 0, gbase := 0, gstby := some 3, dfence := 0, hfence := 0, d3hot := false, stopped := false, d0wait := false, vectors := [],
    plim := 2800, pnow := 0, power := [], w2va := 0, w2asid := 0, w2en := false, queues := [], devq := [], gptr := 0,
    accepting := true, gerLost := false, cth := [], ports := [], tvec := [], astb := 0,
    tlbCmd := ⟨0, 0, 0, 0, false, 0, false, 0⟩, faults := [],
    service := ⟨false, false, false, false, 0, 0, 0, 0, 0, 0, false, 0, 0⟩, counters := [], retired := [],
    layerErrs := [], fencedLayers := [], ctx := ⟨0, 0, 0, 0, false, 0, 0, 0, 0, 0, []⟩, images := [], exports := [],
    codeCmd := ⟨0, 0, 0, 0, false, 0, 0, 0⟩, codes := [], patch := ⟨0, 0, 0, 0, false, 0, 0⟩, rebuilds := [],
    stackWalks := [], fencedStacks := [], bonds := [], baseCut := [], dram := [], lstore := [], dramPoison := [], markers := [], regPoison := [],
    flips := [], chipErrs := [], banks := [], spares := [], modeReqs := [], lsdrop := [], tagCtr := [], quarantine := [], caches := [],
    dirs := [], net := [], txns := [], nacked := [], lru := [], l1ways := [], ntLines := [], deadWays := [], homeLines := [],
    tlbs := [], walkCache := [], icache := [],
    latches := [], scale := [], tiles := [], copies := [], inbound := [], older := [], mats := [], launches := [], teams := [], waves := [],
    tasks := [], hostSees := [] }

end Sys2Proof.Machine
end

