-- ==== Sys2Proof/Machine/Access.lean ====
section
/-! DEFINITION. Where things are: the places of the package (R10, R35), the home of an address (R8), the entries of the
state's tables with their values where nothing is listed, and the registers of a wave in their one home (R42). -/

namespace Sys2Proof.Machine

/-! Places. Everything is numbered flat: wave slot = 48 × cluster + 12 × core + slot, core = 4 × cluster + core (R35). -/

def clusterOf (w : Nat) : Nat := w / 48
def coreOf (w : Nat) : Nat := w / 12
def dieOf (cl : Nat) : Nat := cl / 24
def stackOf (cl : Nat) : Nat := cl / 96
def ipoOf (cl : Nat) : Nat := cl / 288
/-- The column of a cluster (R35). -/
def columnOf (cl : Nat) : Nat := 24 * (cl / 96) + cl % 24
/-- The cluster of a column on die `d` of its stack (R16). -/
def columnCluster (col d : Nat) : Nat := 96 * (col / 24) + 24 * d + col % 24
/-- The interposer of a home (R10). -/
def homeIpo (h : Nat) : Nat := h / 6

/-- The address is canonical: [63:56] are 0 and the home field is not 15 (R208). -/
def canonical (va : Nat) : Bool := va < 2 ^ 56 && va / 2 ^ 52 ≠ 15

/-- R8, for a canonical address. -/
def homeOf (va : Nat) : Nat :=
  let f := va / 2 ^ 52 % 16
  let page := va / 2 ^ 12 % 2 ^ 40
  if f < 12 then f else if f = 12 then page % 12 else if f = 13 then page % 6 else 6 + page % 6

/-! Tables with defaults: what is not listed has its reset value. -/

def findWave (s : State) (w : Nat) : Option Wave := kvFind s.waves w
def putWave (s : State) (w : Nat) (x : Wave) : State := { s with waves := kvPut s.waves w x }
def onWave (s : State) (w : Nat) (f : Wave → Wave) : State := { s with waves := kvModify s.waves w f }
def findTeam (s : State) (t : Nat) : Option Team := kvFind s.teams t
def onTeam (s : State) (t : Nat) (f : Team → Team) : State := { s with teams := kvModify s.teams t f }
def findLaunch (s : State) (n : Nat) : Option Launch := kvFind s.launches n
def onLaunch (s : State) (n : Nat) (f : Launch → Launch) : State := { s with launches := kvModify s.launches n f }
def bankAt (s : State) (cl b : Nat) : Bank := kvGet s.banks (cl, b) Bank.clear
def putBank (s : State) (cl b : Nat) (x : Bank) : State := { s with banks := kvPut s.banks (cl, b) x }
def faultBufAt (s : State) (h : Nat) : FaultBuf := kvGet s.faults h FaultBuf.clear
def putFaultBuf (s : State) (h : Nat) (x : FaultBuf) : State := { s with faults := kvPut s.faults h x }
def queueAt (s : State) (q : Nat) : HostQueue := kvGet s.queues q HostQueue.clear
def putQueue (s : State) (q : Nat) (x : HostQueue) : State := { s with queues := kvPut s.queues q x }
def portAt (s : State) (p : Nat) : Port := kvGet s.ports p Port.clear

/-- UP (R449): the link is trained and bound. -/
def Port.up (k : Port) : Bool := k.trained && k.bound

/-- What the host sees next. -/
def tellHost (s : State) (h : HostSees) : State := { s with hostSees := s.hostSees ++ [h] }

/-- A write of BAR0 that is a command: in D3hot it completes with Unsupported Request and does nothing (R440). -/
def hostCommand (s : State) (f : State → State) : Host.Outcome State Fault Refusal :=
  .next (if s.d3hot then tellHost s .unsupported else f s)
def putPort (s : State) (p : Nat) (x : Port) : State := { s with ports := kvPut s.ports p x }
def powerAt (s : State) (d : Nat) : DiePower := kvGet s.power d ⟨2000, false, false⟩
def vectorAt (s : State) (v : Nat) : Vector := kvGet s.vectors v ⟨0, 0, true, false⟩
def countersAt (s : State) (h : Nat) : Counters := kvGet s.counters h ⟨0, 0, 0, 0⟩
def rebuildAt (s : State) (k : Nat) : Rebuild := kvGet s.rebuilds k Rebuild.clear
def cthAt (s : State) (col : Nat) : BitVec 8 := kvGet s.cth col 192
def tvecAt (s : State) (c : Nat) : DWord := kvGet s.tvec c 0
def sparesAt (s : State) (cl : Nat) : Nat := kvGet s.spares cl 2
def bondAt (s : State) (col lower : Nat) : BondState := kvGet s.bonds (col, lower) .whole
def dieFenced (s : State) (d : Nat) : Bool := s.dfence.getLsbD d
def homeFenced (s : State) (h : Nat) : Bool := s.hfence.getLsbD h
/-- The cluster takes work: not harvested, its die not fenced (R28, R30). -/
def clusterEnabled (s : State) (cl : Nat) : Bool := s.clen.getLsbD cl && !dieFenced s (dieOf cl)

/-- A saturating 32-bit counter. -/
def satAdd (x : Word) (n : Nat) : Word := BitVec.ofNat 32 (min (x.toNat + n) 0xFFFFFFFF)

/-! Slots. -/

def slotOf (x : Wave) (b : Bool) : Slot := if b then x.b else x.a
def withSlot (x : Wave) (b : Bool) (sl : Slot) : Wave := if b then { x with b := sl } else { x with a := sl }
def onSlot (s : State) (r : SlotRef) (f : Slot → Slot) : State :=
  onWave s r.wave fun x => withSlot x r.b (f (slotOf x r.b))

/-- Lanes 0 to width − 1 (R150). -/
def widthMask (width : Nat) : LaneMask := BitVec.ofNat 64 (2 ^ width - 1)

/-- The numbers of the set lanes, ascending. -/
def lanesOf (m : LaneMask) : List Nat := (List.range 64).filter fun l => m.getLsbD l

/-- The mask of a list of lanes. -/
def maskOf (ls : List Nat) : LaneMask := ls.foldl (fun m l => m ||| (1#64 <<< l)) 0

/-! The local store: local address `a` of cluster `cl`. -/

def lsKey (cl a : Nat) : Nat := cl * 2 ^ 21 + a
def localByte (s : State) (cl a : Nat) : Byte := memRead s.lstore (lsKey cl a)
def localWord (s : State) (cl a : Nat) : Word := memWord s.lstore (lsKey cl a)
def localNat (s : State) (cl a n : Nat) : Nat := memReadN s.lstore (lsKey cl a) n
/-- A 4-byte register word carries a poison mark in its check bits (R213). -/
def regWordPoison (s : State) (cl a : Nat) : Bool := s.regPoison.contains (lsKey cl (a / 4 * 4))

/-- Writing `n` bytes into the local store; a register word written whole loses its mark (R425). -/
def putLocalNat (s : State) (cl a n v : Nat) : State :=
  let k := lsKey cl a
  { s with
    lstore := memWriteN s.lstore k n v
    regPoison := s.regPoison.filter fun p => !(k ≤ p && p + 4 ≤ k + n) }

def putLocalWord (s : State) (cl a : Nat) (v : Word) : State := putLocalNat s cl a 4 v.toNat

/-! Registers. -/

/-- The local address of vN in lane l (R42). -/
def regAddr (x : Wave) (n l : Nat) : Nat := x.regbase + (n * x.width + l) * 4

/-- vN names the supervisor bank (R62, R384). -/
def svLane (x : Wave) (n : Nat) : Bool := x.super && 48 ≤ n && n < 56
def svGroup (x : Wave) (n : Nat) : Bool := x.super && 56 ≤ n && n < 64

/-- vN of lane l. -/
def laneReg (s : State) (w : Nat) (x : Wave) (n l : Nat) : Word :=
  if svLane x n then x.svV.getD ((n - 48) * 64 + l) 0 else localWord s (clusterOf w) (regAddr x n l)

/-- gN. -/
def groupReg (x : Wave) (n : Nat) : Word := if svGroup x n then x.svG.getD (n - 56) 0 else x.g.getD n 0

/-- A group register with the bank chosen by `sup`. -/
def setGroupIn (x : Wave) (sup : Bool) (n : Nat) (v : Word) : Wave :=
  if sup && 56 ≤ n && n < 64 then { x with svG := x.svG.set (n - 56) v } else { x with g := x.g.set n v }

/-- A byte list with a word in place. -/
def putWordAt (bs : List Byte) (i : Nat) (v : Word) : List Byte :=
  (((bs.set i (field v 0 8)).set (i + 1) (field v 8 8)).set (i + 2) (field v 16 8)).set (i + 3) (field v 24 8)

/-- A pair of operands after a register write that the windows let their operation read (R315). -/
def seeBlocks (choice w n l : Nat) (v : Word) (ws : List MatWindow) (p : MatOperand × MatOperand) : MatOperand × MatOperand :=
  ws.foldl (fun o win =>
    let i := 4 * ((n - win.reg) * win.width + l)
    let put (m : MatOperand) : MatOperand := match m with
      | .bytes bs => .bytes (putWordAt bs i v)
      | m => m
    if win.slot.wave ≠ w || n < win.reg || choice % 2 = 0 then o
    else if win.second then (o.1, put o.2) else (put o.1, o.2)) p

/-- A matrix operation, or the supply of one still to be formed, that is still reading a register block may read a write to
it, whole per register and lane (R315). -/
def seeWrite (choice w n l : Nat) (v : Word) (op : MatOp) : MatOp :=
  let own := seeBlocks choice w n l v op.windows (op.a, op.b)
  { op with
    a := own.1, b := own.2
    supplies := op.supplies.map fun p =>
      let q := seeBlocks choice w n l v p.windows (p.a, p.b)
      { p with a := q.1, b := q.2 } }

/-- Changing the windows of an operation and of its supplies. -/
def mapWindows (f : List MatWindow → List MatWindow) (op : MatOp) : MatOp :=
  { op with windows := f op.windows, supplies := op.supplies.map fun p => { p with windows := f p.windows } }

/-- No operand block is being read. -/
def noWindows (op : MatOp) : Bool := op.windows.isEmpty && op.supplies.all fun p => p.windows.isEmpty

/-- Showing a register write to the operations that are reading (R315). -/
def showWrite (s : State) (w n l : Nat) (v : Word) : State :=
  if s.mats.all fun m => noWindows m.2 then s
  else
    let c := Config.windowChoice s.clock.toNat (2 ^ 13 + 64 * n + l)
    { s with mats := s.mats.map fun m => (m.1, seeWrite c w n l v m.2) }

/-- Writing vN of lane l in the bank chosen by `sup`. -/
def setLaneIn (s : State) (w : Nat) (sup : Bool) (n l : Nat) (v : Word) : State :=
  match findWave s w with
  | none => s
  | some x =>
    if sup && 48 ≤ n && n < 56 then putWave s w { x with svV := x.svV.set ((n - 48) * 64 + l) v }
    else showWrite (putLocalWord s (clusterOf w) (regAddr x n l) v) w n l v

/-- A register write lands. -/
def applyWrite (s : State) (w : Nat) (sup : Bool) : RegWrite → State
  | .lane n l v => setLaneIn s w sup n l v
  | .group n v => onWave s w fun x => setGroupIn x sup n v

def applyWrites (s : State) (w : Nat) (sup : Bool) (ws : List RegWrite) : State :=
  ws.foldl (fun t r => applyWrite t w sup r) s

/-- The register a write goes to. -/
def RegWrite.target : RegWrite → Bool × Nat × Nat
  | .lane n l _ => (false, n, l)
  | .group n _ => (true, n, 0)

/-- Results under lookahead that a write made now supersedes never land: writes to one register land in program order
(R72). -/
def supersede (x : Wave) (sup : Bool) (ws : List RegWrite) : Wave :=
  let targets := ws.map RegWrite.target
  let drop (e : Landing) : Landing :=
    if e.sup = sup then { e with writes := e.writes.filter fun r => !targets.contains r.target } else e
  let mark (e : LocalAcc) : LocalAcc := if e.sup = sup then { e with superseded := e.superseded ++ targets } else e
  { x with landings := x.landings.map drop, locals := x.locals.map mark }

/-- Register results of an instruction, now. -/
def writeRegs (s : State) (w : Nat) (ws : List RegWrite) : State :=
  match findWave s w with
  | none => s
  | some x => applyWrites (onWave s w fun y => supersede y x.super ws) w x.super ws

/-- A register result of a lane as 32-bit words for consecutive registers. -/
def laneWrites (d l : Nat) (v : Nat) : Nat → List RegWrite
  | 0 => []
  | n + 1 => .lane d l (BitVec.ofNat 32 v) :: laneWrites (d + 1) l (v / 2 ^ 32) n

def groupWrites (d : Nat) (v : Nat) : Nat → List RegWrite
  | 0 => []
  | n + 1 => .group d (BitVec.ofNat 32 v) :: groupWrites (d + 1) (v / 2 ^ 32) n

/-- A free choice below a bound: the next of the stream in `Config` (log entries 5 and 6). -/
def drawNat (s : State) (bound : Nat) : Nat × State :=
  (Config.freeNat s.freeCtr % bound, { s with freeCtr := s.freeCtr + 1 })

/-- A free choice, where there is more than one. -/
def pickNat (s : State) (n : Nat) : Nat × State := if n < 2 then (0, s) else drawNat s n

/-- A serial number. -/
def fresh (s : State) : Nat × State := (s.serial, { s with serial := s.serial + 1 })

end Sys2Proof.Machine
end

