-- ==== Sys2Proof/Machine/Phys.lean ====
section
/-! DEFINITION. The DRAM of the homes by physical address (home × 2^40 + offset): the protection classes and severities
(R415 to R425), poison (R422), the error log (R429), interrupts (R447) and the fault record buffers (R403 to R405). -/

namespace Sys2Proof.Machine

/-- The first byte of a home's reserved region, PBASE (R455). -/
def reservedBase : Nat := 0xA2D05E000

/-- Frames of 4 KiB open to programs in each home (R455). -/
def frameLimit : Nat := 10670174

/-- Where a translated access lands (R393, R395): physical address, layout code, the mirror's address for layout 4, and the
owning home, whose cache it goes through. -/
structure Phys where
  pa : Nat
  layout : Nat
  mirror : Nat
  slice : Nat
  deriving DecidableEq, Repr, Inhabited

/-! Page-table entries (R392 to R394). -/

def pteV (p : DWord) : Bool := p.getLsbD 0
def pteR (p : DWord) : Bool := p.getLsbD 1
def pteW (p : DWord) : Bool := p.getLsbD 2
def pteX (p : DWord) : Bool := p.getLsbD 3
def pteS (p : DWord) : Bool := p.getLsbD 4
def pteA (p : DWord) : Bool := p.getLsbD 5
def pteD (p : DWord) : Bool := p.getLsbD 6
def pteLayout (p : DWord) : Nat := (field p 7 4).toNat
def pteLeaf (p : DWord) : Bool := p.getLsbD 11
def pteHome (p : DWord) : Nat := (field p 12 4).toNat
def pteFrame (p : DWord) : Nat := (field p 16 28).toNat

/-- The frame's physical address. -/
def ptePa (p : DWord) : Nat := pteHome p * 2 ^ 40 + pteFrame p * 4096

/-- The bytes that a leaf at a level maps (R392). -/
def pageBytes (level : Nat) : Nat := if level = 1 then 2 ^ 32 else if level = 2 then 2 ^ 22 else 2 ^ 12

/-- The lowest VA bit that a level indexes (R392). -/
def levelShift (level : Nat) : Nat := if level = 0 then 42 else if level = 1 then 32 else if level = 2 then 22 else 12

/-- A table pointer is malformed (R394): only FHOME, FRAME, LEAF and [63:44] count. -/
def pointerMalformed (p : DWord) : Bool :=
  field p 44 20 ≠ 0 || 12 ≤ pteHome p || pteLeaf p || pteFrame p % 2 = 1 || frameLimit < pteFrame p + 2

/-- A leaf at a level is malformed (R394, R418). -/
def leafMalformed (level : Nat) (p : DWord) : Bool :=
  let frames := pageBytes level / 4096
  field p 44 20 ≠ 0 || 12 ≤ pteHome p || !pteLeaf p || pteLayout p = 6 || pteLayout p = 7 || (pteW p && !pteR p) ||
  pteFrame p % frames ≠ 0 || frameLimit < pteFrame p + (if pteLayout p = 4 then 2 * frames else frames)

/-- A physical address without a leaf uses layout 5 (R415). -/
def metaAt (pa : Nat) : Phys := ⟨pa, 5, 0, pa / 2 ^ 40⟩

/-- `n` bytes on. -/
def Phys.plus (p : Phys) (n : Nat) : Phys := { p with pa := p.pa + n, mirror := p.mirror + n }

/-- The word that it lies in. -/
def Phys.word (p : Phys) : Phys := { p with pa := p.pa / 4 * 4, mirror := p.mirror / 4 * 4 }

/-! Interrupts. -/

/-- Raising an MSI-X vector: sent now, or left pending while masked or in D3hot (R440, R447). -/
def raiseVector (s : State) (v : Nat) : State :=
  let x := vectorAt s v
  if x.masked || s.d3hot then { s with vectors := kvPut s.vectors v { x with pend := true } }
  else { s with hostSees := s.hostSees ++ [.msix v x.addr x.data] }

def raiseIf (s : State) (en : Bool) (v : Nat) : State := if en then raiseVector s v else s

/-! The error log (R429). -/

/-- The little-endian bytes of a number. -/
def bytesLe : Nat → Nat → List Byte
  | 0, _ => []
  | n + 1, v => BitVec.ofNat 8 v :: bytesLe n (v / 256)

/-- A register of the form [39:0] offset, [43:40] home (R397, R428) as a physical address. -/
def regPa (r : DWord) : Nat := (field r 40 4).toNat * 2 ^ 40 + (field r 0 40).toNat

/-- What an error-log record says (R429); `aux` are the bytes from 0x18 on. -/
structure LogRec where
  type : Nat
  sev : Nat
  lk : Nat
  loc : Nat
  tag : Option AsidTag
  addr : Nat
  aux : List Byte
  deriving DecidableEq, Repr

def tagNat : Option AsidTag → Nat
  | none => 0
  | some t => t.asid.toNat + 2 ^ 16 * t.gen.toNat

def logBytes (r : LogRec) (time : DWord) : List Byte :=
  bytesLe 4 (r.type % 256 + r.sev * 2 ^ 8 + r.lk * 2 ^ 11 + r.loc * 2 ^ 13) ++ bytesLe 4 (tagNat r.tag)
    ++ bytesLe 8 r.addr ++ bytesLe 8 time.toNat ++ (r.aux ++ List.replicate 40 0).take 40

/-- Writing an error-log record with fresh check bits (R416), or counting it in ELLOST when the log is full or stopped. -/
def logError (s : State) (r : LogRec) : State :=
  let v := s.service
  let n := v.elsize.toNat
  if n < 8 || 20 < n || 2 ^ n ≤ (v.eltail - v.elhead).toNat then
    { s with service := { v with ellost := satAdd v.ellost 1 } }
  else
    let a := regPa v.elbase + 64 * (v.eltail.toNat % 2 ^ n)
    let s := { s with
      dram := memWriteList s.dram a (logBytes r s.clock)
      dramPoison := s.dramPoison.filter fun w => w / 16 ≠ a / 64
      markers := s.markers.filter fun k => k / 2 ≠ a / 64
      flips := s.flips.filter fun f => f.sector / 2 ≠ a / 64
      service := { v with eltail := v.eltail + 1 } }
    raiseIf s v.elven v.elvec.toNat

/-! Protection classes. -/

inductive EccClass where
  | strong
  | standard
  | parity
  deriving DecidableEq, Repr

/-- The class and the number of the codeword or parity group that protects data bit `b` of a sector (R415). -/
def eccGroup (layout b : Nat) : EccClass × Nat :=
  match layout with
  | 1 => if 23 ≤ b % 32 then (.strong, 0) else if 15 ≤ b % 32 then (.standard, 1) else (.parity, 2 + b / 32)
  | 2 => if 10 ≤ b % 16 then (.strong, 0) else if 6 ≤ b % 16 then (.standard, 1) else (.parity, 2 + b / 32)
  | 3 => if 7 ≤ b % 16 then (.strong, 0) else (.parity, 2 + b / 32)
  | 8 | 9 => (.strong, 0)
  | 13 | 14 | 15 => (.parity, b / 8)
  | _ => (.standard, b / 64)

/-- The class of a group, for flips in its check bits. -/
def eccClassOf (layout g : Nat) : EccClass :=
  match layout with
  | 1 | 2 => if g = 0 then .strong else if g = 1 then .standard else .parity
  | 3 => if g = 0 then .strong else .parity
  | 8 | 9 => .strong
  | 13 | 14 | 15 => .parity
  | _ => .standard

/-- The severity of an uncorrectable error (R421). -/
def eccSeverity (layout : Nat) (c : EccClass) : Nat :=
  match c with
  | .parity => 1
  | .strong => 3
  | .standard => if layout = 5 then 4 else if layout = 0 || layout = 4 then 3 else 2

/-- The groups of a sector under a layout (R415). -/
def eccGroups (layout : Nat) : List Nat :=
  match layout with
  | 1 | 2 => List.range 10
  | 3 => 0 :: (List.range 8).map (· + 2)
  | 8 | 9 => [0]
  | 13 | 14 | 15 => List.range 32
  | _ => List.range 4

/-- The words of the sector that an uncorrectable error of a group damages (R421), as numbers 0-7: the one that a parity
group's element, pair or byte lies in, or every word that the codeword covers. -/
def eccWords (layout g : Nat) : List Nat :=
  match layout with
  | 1 | 2 => if g < 2 then List.range 8 else [g - 2]
  | 3 => if g = 0 then List.range 8 else [g - 2]
  | 8 | 9 => List.range 8
  | 13 | 14 | 15 => [g / 4]
  | _ => [2 * g, 2 * g + 1]

/-- What becomes of a group with `n` flips (R417): corrected, detected, or undetected. Beyond the guarantee it is a free
choice. -/
inductive EccOutcome where
  | clean
  | corrected
  | detected
  | undetected
  deriving DecidableEq, Repr

def eccOutcome (c : EccClass) (n choice : Nat) : EccOutcome :=
  if n = 0 then .clean
  else match c with
    | .strong => if n ≤ 2 then .corrected else if n = 3 then .detected
                 else if choice % 2 = 0 then .detected else .undetected
    | .standard => if n = 1 then .corrected else if n = 2 then .detected
                   else if choice % 2 = 0 then .detected else .undetected
    | .parity => if n % 2 = 1 then .detected else .undetected

/-- Flips of a group. -/
def groupFlips (layout g : Nat) (f : Flip) : Nat :=
  (f.bits.filter fun b => (eccGroup layout b).2 = g).length + (f.checks.filter fun c => c = g).length

def flipAt (s : State) (sector : Nat) : Option Flip := s.flips.find? fun f => f.sector = sector
def dropFlip (s : State) (sector : Nat) : State := { s with flips := s.flips.filter fun f => f.sector ≠ sector }

/-- Writing the flipped value of data bits into the stored sector, which makes the wrong bits its data (R423). -/
def commitBits (s : State) (sector : Nat) (bits : List Nat) : State :=
  bits.foldl (fun t b =>
    let a := 32 * sector + b / 8
    { t with dram := memWrite t.dram a (memRead t.dram a ^^^ (1#8 <<< (b % 8))) }) s

/-- Poison marks: the physical word number (address div 4). -/
def wordPoisoned (s : State) (pa : Nat) : Bool := s.dramPoison.contains (pa / 4)

/-- The sectors of a home with an entry in its poison table (R422). -/
def poisonSectors (s : State) (h : Nat) : Nat :=
  (((s.dramPoison.filter fun p => p / 2 ^ 38 = h).map (· / 8)).eraseDups.filter fun k => !s.markers.contains k).length

/-- Poisoning a word; where the poison table is full a new sector takes the marker alone, and all eight of its words are
poisoned (R422). -/
def poisonWord (s : State) (pa : Nat) : State :=
  let w := pa / 4
  if s.dramPoison.contains w then s
  else
    let listed := s.dramPoison.any fun p => p / 8 = w / 8
    if !listed && 65536 ≤ poisonSectors s (pa / 2 ^ 40) then
      { s with
        dramPoison := s.dramPoison ++ (List.range 8).map fun i => w / 8 * 8 + i
        markers := s.markers ++ [w / 8] }
    else { s with dramPoison := s.dramPoison ++ [w] }

/-- A word is poisoned no more; a sector without poison has no marker. -/
def clearPoison (s : State) (pa : Nat) : State :=
  let left := s.dramPoison.filter fun p => p ≠ pa / 4
  { s with
    dramPoison := left
    markers := if left.any fun p => p / 8 = pa / 32 then s.markers else s.markers.filter (· ≠ pa / 32) }

def onCounters (s : State) (h : Nat) (f : Counters → Counters) : State :=
  { s with counters := kvPut s.counters h (f (countersAt s h)) }

/-- Counting an uncorrectable error by severity (R423, R428). -/
def countSeverity (s : State) (h sev : Nat) : State :=
  onCounters s h fun c =>
    if sev = 1 then { c with s1 := satAdd c.s1 1 } else if sev = 2 then { c with s2 := satAdd c.s2 1 }
    else { c with s3up := satAdd c.s3up 1 }

/-- Retiring the frame of an uncorrectable error in code or metadata (R425). -/
def retireFrame (s : State) (pa : Nat) : State :=
  let h := pa / 2 ^ 40
  let fr := pa % 2 ^ 40 / 4096
  if s.retired.contains (h, fr) then s
  else logError { s with retired := s.retired ++ [(h, fr)] } ⟨3, 4, 2, h, none, pa, []⟩

/-- The groups of a sector with flips. -/
def flippedGroups (layout : Nat) (f : Flip) : List Nat :=
  (f.bits.map (fun b => (eccGroup layout b).2) ++ f.checks).eraseDups

/-- A sector has an uncorrectable error under a layout. -/
def uncorrectable (layout choice : Nat) (f : Flip) : Bool :=
  (flippedGroups layout f).any fun g => eccOutcome (eccClassOf layout g) (groupFlips layout g f) choice = .detected

/-! The home caches (R21, R223, R395): at each home 64 MiB of 128-byte lines, 16 ways, of the addresses that it owns, wherever
their frames lie. DRAM holds what a home cache holds; what it held before stands in the line until the line is written back. -/

def homeSlice (s : State) (h : Nat) : List HomeLine := kvGet s.homeLines h []

/-- The owning home's cache holds the line. -/
def homeHolds (s : State) (p : Phys) : Bool := (homeSlice s p.slice).any fun e => e.line = p.pa / 128

/-- A line leaves a home cache. -/
def forgetHome (s : State) (h : Nat) (e : HomeLine) : State :=
  { s with
    homeLines := kvPut s.homeLines h ((homeSlice s h).filter fun x => x.line ≠ e.line)
    ntLines := s.ntLines.filter fun n => !(e.who.any fun w => n = (.home h, w.1, w.2 / 128)) }

/-- It is written back: DRAM takes its sectors with words not yet written there, in the mirror too, and fresh check bits. -/
def evictHome (s : State) (h : Nat) (e : HomeLine) : State :=
  let s := forgetHome s h e
  { s with flips := s.flips.filter fun f => !(e.under.any fun u => u.pa / 32 = f.sector) }

/-- A word of DRAM is as it was. -/
def restoreWord (s : State) (u : DramWord) : State :=
  let s := { s with dram := memWriteN s.dram u.pa 4 u.val.toNat }
  if u.poison then poisonWord s u.pa else clearPoison s u.pa

/-- It is discarded (R32): DRAM keeps what it had under the line's dirty words. -/
def discardHome (s : State) (h : Nat) (e : HomeLine) : State := e.under.foldl restoreWord (forgetHome s h e)

/-- The line is a first candidate for eviction from a home cache (R227). -/
def homeNt (s : State) (h : Nat) (e : HomeLine) : Bool := e.who.any fun w => s.ntLines.contains (.home h, w.1, w.2 / 128)

/-- A home cache takes a line, for which a first candidate, else the oldest, of a full set leaves. -/
def fillHome (s : State) (who : Option (AsidTag × Nat)) (p : Phys) : State :=
  let h := p.slice
  let mates := (homeSlice s h).filter fun e => e.line % 32768 = p.pa / 128 % 32768
  let s := match (mates.find? (homeNt s h)).or mates.head? with
    | some e => if 16 ≤ mates.length then evictHome s h e else s
    | none => s
  { s with homeLines := kvPut s.homeLines h (homeSlice s h ++ [⟨p.pa / 128, who, []⟩]) }

/-- DRAM's words at some places, but for those of which the line has them already. -/
def HomeLine.cover (s : State) (e : HomeLine) (pas : List Nat) : HomeLine :=
  { e with under := e.under ++ (pas.filter fun a => !(e.under.any fun u => u.pa = a)).map fun a =>
      ⟨a, memWord s.dram a, wordPoisoned s a⟩ }

/-- A word of a cached line is about to get a value that DRAM has not. -/
def dirtyHome (s : State) (p : Phys) : State :=
  let pas := p.pa / 4 * 4 :: if p.layout = 4 then [p.mirror / 4 * 4] else []
  { s with homeLines := kvModify s.homeLines p.slice fun ls => ls.map fun e =>
      if e.line = p.pa / 128 then e.cover s pas else e }

/-! Meeting errors. -/

/-- Delivering one sector's errors under a policy (S2P, S1LOG) (R421, R423, R424): after it the stored sector reads as the home
delivers it. `bad` are groups found uncorrectable whatever their flips; `rewrite` is the pass of a layout change, which
poisons at every severity (R419). Errors of a structure read by physical address are logged by it (R416). -/
def meetErrors (s : State) (who : Option (AsidTag × Nat)) (sector layout : Nat) (policy : Bool × Bool) (bad : List Nat)
    (rewrite : Bool) (f : Flip) : State :=
  let h := sector * 32 / 2 ^ 40
  let (choice, s) := drawNat s 2
  let outs := (flippedGroups layout f).map fun g =>
    (g, eccOutcome (eccClassOf layout g) (groupFlips layout g f) choice)
  let hit (o : EccOutcome) := (outs.filter fun e => e.2 = o).map (·.1)
  let detected := (hit .detected ++ bad).eraseDups
  let sev := detected.foldl (fun m g => max m (eccSeverity layout (eccClassOf layout g))) 0
  let poisons := rewrite || 3 ≤ sev || (sev = 2 && policy.1)
  let words := ((detected.filter fun g =>
    eccSeverity layout (eccClassOf layout g) = sev).flatMap (eccWords layout)).eraseDups
  let wrong := hit .undetected ++ if poisons then [] else detected
  let s := commitBits (dropFlip s sector) sector
    (f.bits.filter fun b => wrong.contains (eccGroup layout b).2)
  let s := (hit .corrected).foldl (fun t _ => onCounters t h fun c => { c with corr := satAdd c.corr 1 }) s
  if sev = 0 then s
  else
    let s := if poisons then words.foldl (fun t w => poisonWord t (32 * sector + 4 * w)) s else s
    let s := countSeverity s h sev
    let logged := 2 ≤ sev || policy.2
    let mask := words.foldl (fun m w => m + 2 ^ w) 0
    let addr := match who with
      | some x => x.2 / 32 * 32
      | none => 32 * sector
    let s := if logged then logError s ⟨1, sev, 2, h, who.map (·.1), addr, bytesLe 1 layout ++ bytesLe 1 mask⟩ else s
    if sev = 4 then retireFrame s (32 * sector) else s

/-- No flips. -/
def noFlip (sector : Nat) : Flip := ⟨sector, [], []⟩

/-- The policy byte of an ASID, (S2P, S1LOG) (R423); a damaged byte acts as both set (R416). On a
fenced home the byte, as the ASID table's generation and the error-log ring, is still read and written; the model's choice, log
entry 122. -/
def policyOf (s : State) (asid : BitVec 16) : (Bool × Bool) × State :=
  let a := regPa s.service.eptb + asid.toNat
  let s := match flipAt s (a / 32) with
    | some f => if homeHolds s (metaAt a) then s else meetErrors s none (a / 32) 5 (true, true) [] false f
    | none => s
  (if wordPoisoned s a then (true, true) else ((memRead s.dram a).getLsbD 0, (memRead s.dram a).getLsbD 1), s)

/-- The table pointers with a bit set in a range of physical addresses. -/
def pointersIn (s : State) (base bytes : Nat) : List DWord :=
  (((s.dram.filter fun c => base ≤ c.1 && c.1 < base + bytes).map fun c => c.1 / 8).eraseDups).map fun k =>
    BitVec.ofNat 64 (memReadN s.dram (8 * k) 8)

/-- The page tables below some table pointers, `fuel` levels of them (R392). -/
def tablesBelow (s : State) : Nat → List DWord → List Nat
  | 0, _ => []
  | fuel + 1, ps =>
    let bases := ((ps.filter fun p => pteV p && !pointerMalformed p).map ptePa).eraseDups
    bases ++ tablesBelow s fuel (bases.flatMap fun b => pointersIn s b 8192)

/-- The tables of every ASID in use (R397). -/
def pageTables (s : State) : List Nat :=
  let t := regPa s.astb
  let used := (((s.dram.filter fun c => t ≤ c.1 && c.1 < t + 2 ^ 23).map fun c => (c.1 - t) / 128).eraseDups).filter fun k =>
    (memRead s.dram (t + 128 * k + 0x78)).getLsbD 0
  tablesBelow s 4 (used.flatMap fun k => pointersIn s (t + 128 * k) 0x78)

/-- The address lies in a structure that the device reaches by physical address (R416): the ASID table, the policy array and
the error-log ring once their registers have given them a place, or a page table. -/
def structureAt (s : State) (pa : Nat) : Bool :=
  let within (r : DWord) (bytes : Nat) : Bool := r ≠ 0 && regPa r ≤ pa && pa < regPa r + bytes
  within s.astb (2 ^ 23) || within s.service.eptb (2 ^ 16) || within s.service.elbase (64 * 2 ^ s.service.elsize.toNat) ||
    (pageTables s).any fun b => b ≤ pa && pa < b + 8192

/-- Meeting the errors of one sector, which `who` (an address space and VA) reads through a mapping. One of R416's structures
is found uncorrectable through a mapping with another layout. -/
def settleSector (s : State) (who : Option (AsidTag × Nat)) (sector layout : Nat) : State :=
  let marked := s.dramPoison.any fun p => p / 8 = sector
  let bad := if who.isSome && layout ≠ 5 && !marked && structureAt s (32 * sector) then eccGroups layout else []
  match flipAt s sector, bad with
  | none, [] => s
  | f, bad =>
    let (policy, s) := match who with
      | none => ((true, true), s)
      | some x => policyOf s x.1.asid
    meetErrors s who sector layout policy bad false (f.getD (noFlip sector))

/-- A copy of a scale sector has an uncorrectable error. -/
def copyBad (s : State) (sector : Nat) : Bool := match flipAt s sector with
  | none => false
  | some f => uncorrectable 4 0 f

/-- A scale sector (R418): an error in one copy takes the other; only errors in both are the page's, met once. -/
def settleScale (s : State) (who : Option (AsidTag × Nat)) (sector mirror : Nat) : State :=
  let copy (src dst : Nat) (s : State) : State :=
    dropFlip { s with dram := memWriteList s.dram (32 * dst) (memReadList s.dram (32 * src) 32) } dst
  if copyBad s sector && !copyBad s mirror then copy mirror sector (settleSector s who mirror 4)
  else if copyBad s mirror then copy sector mirror (settleSector s who sector 4)
  else settleSector (settleSector s who sector 4) who mirror 4

/-- Bringing the line of a physical address into its home cache, which meets the errors of its four sectors. -/
def settle (s : State) (who : Option (AsidTag × Nat)) (p : Phys) : State :=
  if homeHolds s p then s
  else
    let part (t : State) (i : Nat) : State :=
      let k := 4 * (p.pa / 128) + i
      let who := who.map fun x => (x.1, x.2 / 128 * 128 + 32 * i)
      if p.layout = 4 then settleScale t who k (4 * (p.mirror / 128) + i) else settleSector t who k p.layout
    fillHome ((List.range 4).foldl part s) who p

/-- The address lies in the policy array (R423). -/
def inPolicy (s : State) (pa : Nat) : Bool := regPa s.service.eptb ≤ pa && pa < regPa s.service.eptb + 2 ^ 16

/-- A word of memory as it is read: bits [7:2] of the policy bytes are reserved (R2, R423). -/
def readBits (s : State) (pa : Nat) (w : Word) : Word := if inPolicy s pa then w &&& 0x03030303 else w

/-- The bits that stay of some bytes of one word written at a physical address (R2, R423). -/
def writtenBits (s : State) (pa v : Nat) : Nat := if inPolicy s pa then v &&& 0x03030303 else v

/-- The word at a physical address, once settled. -/
def physWord (s : State) (p : Phys) : Word × Bool := (readBits s p.pa (memWord s.dram (p.pa / 4 * 4)), wordPoisoned s p.pa)

/-- Writing `n` bytes at one place of DRAM, `n` at most 4 and within one word. A whole word takes the poison it brings; part
of a word leaves its poison (R422). -/
def dramWrite (s : State) (pa n v : Nat) (poison : Bool) : State :=
  let s := { s with dram := memWriteN s.dram pa n v }
  if poison then poisonWord s pa else if n = 4 then clearPoison s pa else s

/-- Writing at a settled physical address, and at its mirror: every write goes to both copies (R418). -/
def physWrite (s : State) (p : Phys) (n v : Nat) (poison : Bool) : State :=
  let v := writtenBits s p.pa v
  let s := dramWrite (dirtyHome s p) p.pa n v poison
  if p.layout = 4 then dramWrite s p.mirror n v poison else s

/-- A 64-bit entry of a structure read by physical address; none when its sector is uncorrectable or poisoned (R416). -/
def metaRead (s : State) (pa : Nat) : Option DWord × State :=
  let s := settle s none (metaAt pa)
  if wordPoisoned s pa || wordPoisoned s (pa + 4) then (none, s)
  else (some (BitVec.ofNat 64 (memReadN s.dram pa 8)), s)

/-- Writing a 64-bit entry of such a structure. -/
def metaWrite (s : State) (pa : Nat) (v : DWord) : State :=
  let s := settle s none (metaAt pa)
  dramWrite (dramWrite (dirtyHome (dirtyHome s (metaAt pa)) (metaAt (pa + 4))) pa 4 (v.toNat % 2 ^ 32) false) (pa + 4) 4
    (v.toNat / 2 ^ 32) false

/-! Fault records. -/

/-- HEAD passes delivered records in hardware mode (R405); the ring keeps what it holds until a record overwrites it. -/
def advanceHead (b : FaultBuf) : Nat → FaultBuf
  | 0 => b
  | n + 1 =>
    if b.head = b.tail && !b.full then b
    else match kvFind b.recs b.head.toNat with
      | some r => if r.deliv then
          advanceHead { b with head := b.head + 1, full := false } n else b
      | none => b

/-- Retention after a change (R405): in hardware mode delivered records are freed. -/
def retain (s : State) (b : FaultBuf) : FaultBuf := if s.service.pfm then b else advanceHead b 4096

/-- The records held now. -/
def faultCount (b : FaultBuf) : Nat := if b.full then 4096 else (b.tail - b.head).toNat

/-- The record at an index is one that the ring holds now. -/
def recHeld (b : FaultBuf) (i : Nat) : Bool := (BitVec.ofNat 12 i - b.head).toNat < faultCount b

/-- Writing a fault record into a home's ring; false when a full ring refused it (R401, R405). A record that
no trap entry will deliver (SRC 1, 3, 5, or `deliv`) finds it full and is counted in DISP; a lane's sets OVF and counts a
busy `Nack`. -/
def writeFault (s : State) (h : Nat) (r : FaultRec) : Bool × State :=
  let b := faultBufAt s h
  let engine := r.src = 1 || r.src = 3 || r.src = 5 || r.deliv
  if b.full then
    if engine then (true, putFaultBuf s h { b with disp := if b.disp = 0xFFFF then b.disp else b.disp + 1 })
    else (false, putFaultBuf s h { b with ovf := true, busy := satAdd b.busy 1 })
  else
    let r := { r with time := s.clock, deliv := r.deliv || engine }
    let tail := b.tail + 1
    let b := { b with recs := kvPut b.recs b.tail.toNat r, tail := tail, full := tail = b.head }
    let s := putFaultBuf s h (retain s b)
    (true, raiseIf s b.ven b.vec.toNat)

/-- Marking DELIV in the records that a wave's trap entry delivers (R405). -/
def deliverFaults (s : State) (w : Nat) : State :=
  { s with faults := s.faults.map fun e =>
      (e.1, retain s { e.2 with recs := e.2.recs.map fun q =>
        (q.1, if recHeld e.2 q.1 && q.2.waiter = some w then { q.2 with deliv := true } else q.2) }) }

end Sys2Proof.Machine
end

