-- ==== Sys2Proof/Machine/Translate.lean ====
section
/-! DEFINITION. Address translation at the homes: page-table entries (R392 to R394), the ASID table (R397), the memory-side
TLB and walk cache (R398), refusals (R399) and permissions (R400). -/

namespace Sys2Proof.Machine

/-- What a walk or a translation answers: where the access lands with the leaf that says so; a refusal kind (R399); or
that the owning home or the frame's home is fenced (R32). -/
inductive Xlate where
  | ok (p : Phys) (pte : DWord)
  | refused (kind : Nat)
  | lost
  deriving DecidableEq, Repr

/-- Address of an ASID's table entry, ROOTf at 8f and the VALID word at 0x78 (R397). -/
def asidEntry (s : State) (asid : BitVec 16) : Nat := regPa s.astb + 128 * asid.toNat

/-- The generation that the ASID table now names (R411), on a fenced home too (log entry 122). -/
def asidGen (s : State) (asid : BitVec 16) : BitVec 8 := memRead s.dram (asidEntry s asid + 0x79)

/-- A physical address no DRAM has. -/
def noDram (pa : Nat) : Bool := 12 ≤ pa / 2 ^ 40

/-- The permissions of R400 against a leaf. -/
def permitted (p : DWord) (acc : Acc) (sup : Bool) : Bool :=
  match acc with
  | .load => pteR p && (sup || !pteS p)
  | .store => pteW p && (sup || !pteS p)
  | .atomic => pteR p && pteW p && (sup || !pteS p)
  | .fetch => pteX p && pteS p == sup

/-- Where VA lies under a leaf. -/
def leafPhys (p : DWord) (level va : Nat) : Phys :=
  ⟨ptePa p + va % pageBytes level, pteLayout p, ptePa p + pageBytes level + va % pageBytes level, homeOf va⟩

/-- What a walk finds: the leaf, its level and its own address; or a refusal. -/
inductive WalkEnd where
  | leaf (pte : DWord) (level addr : Nat)
  | refused (kind : Nat)
  deriving DecidableEq, Repr

def walkPage (level va : Nat) : Nat := va % 2 ^ 52 / 2 ^ levelShift level

/-- Two addresses lie in one page of a level. -/
def samePage (level a b : Nat) : Bool := a / 2 ^ 52 = b / 2 ^ 52 && walkPage level a = walkPage level b

/-- The leaf level of a size code (R407). -/
def sizeLevel (size : Nat) : Nat := 3 - size

/-- The homes of a page have stopped translating new requests for a shootdown that waits (R409 step 1). -/
def shooting (s : State) (asid : BitVec 16) (va : Nat) : Bool :=
  (s.waves.any fun w => w.2.progress.any fun p => p.shoot.any fun q => q.1 = asid && samePage q.2.2 q.2.1 va) ||
    (s.tlbCmd.busy && s.tlbCmd.op ≠ 3 && s.tlbCmd.size ≠ 3 && s.tlbCmd.asid = asid &&
      samePage (sizeLevel s.tlbCmd.size.toNat) s.tlbCmd.va.toNat va)

/-- Keeping a table pointer in the home's walk cache, at most 4,096 (R398). -/
def keepPointer (s : State) (h : Nat) (e : WalkEntry) : State :=
  { s with walkCache := kvPut s.walkCache h ((e :: (kvGet s.walkCache h []).filter (· ≠ e)).take 4096) }

/-- One table after another from the pointer `p` found for level `level` on (R392): `fuel` levels remain. -/
def walkFrom (h : Nat) (tag : AsidTag) (va : Nat) (s : State) (p : DWord) (level : Nat) : Nat → WalkEnd × State
  | 0 => (.refused 3, s)
  | fuel + 1 =>
    if !pteV p then (.refused 0, s)
    else if pointerMalformed p || homeFenced s (pteHome p) then (.refused 3, s)
    else
      let addr := ptePa p + 8 * (va / 2 ^ levelShift level % 1024)
      match metaRead s addr with
      | (none, s) => (.refused 3, retireFrame s addr)
      | (some e, s) =>
        if !pteV e then (.refused 0, s)
        else if level = 3 || (pteLeaf e && level ≠ 0) then
          if leafMalformed level e then (.refused 3, s) else (.leaf e level addr, s)
        else
          let s := if pointerMalformed e then s
            else keepPointer s h ⟨tag, va / 2 ^ 52, walkPage level va, level, e⟩
          walkFrom h tag va s e (level + 1) fuel

/-- The deepest pointer that the walk cache holds for VA (R398): the level that it points to, and the pointer. -/
def cachedPointer (s : State) (h : Nat) (tag : AsidTag) (va : Nat) : Option (Nat × DWord) :=
  let hits := (kvGet s.walkCache h []).filter fun e =>
    e.tag = tag && e.field = va / 2 ^ 52 && e.page = walkPage e.level va
  hits.foldl (fun best e => match best with
    | none => some (e.level + 1, e.pte)
    | some (l, p) => if l < e.level + 1 then some (e.level + 1, e.pte) else some (l, p)) none

/-- A walk (R392, R397): the ASID entry, its root for the home field, and the levels. -/
def walk (s : State) (h : Nat) (tag : AsidTag) (va : Nat) : WalkEnd × State :=
  let ent := asidEntry s tag.asid
  if noDram ent || homeFenced s (ent / 2 ^ 40) then (.refused 3, s)
  else match metaRead s (ent + 0x78) with
    | (none, s) => (.refused 3, s)
    | (some v, s) =>
      if !v.getLsbD 0 then (.refused 0, s)
      else match cachedPointer s h tag va with
        | some (level, p) => walkFrom h tag va s p level 4
        | none =>
          match metaRead s (ent + 8 * (va / 2 ^ 52)) with
          | (none, s) => (.refused 3, s)
          | (some root, s) => walkFrom h tag va s root 0 4

/-- The home's TLB entry for VA (R398). -/
def tlbHit (s : State) (h : Nat) (tag : AsidTag) (va : Nat) : Option TlbEntry :=
  (kvGet s.tlbs h []).find? fun e =>
    e.tag = tag && e.field = va / 2 ^ 52 && e.page = va % 2 ^ 52 / pageBytes e.level

def keepTlb (s : State) (h : Nat) (e : TlbEntry) : State :=
  { s with tlbs := kvPut s.tlbs h ((e :: (kvGet s.tlbs h []).filter fun x =>
      !(x.tag = e.tag && x.field = e.field && x.page = e.page && x.level = e.level)).take 32768) }

/-- Setting A, and D for a store or an atomic, in the leaf by atomic OR (R393, R396). -/
def markLeaf (s : State) (addr : Nat) (pte : DWord) (acc : Acc) : DWord × State :=
  let bits : DWord := if acc = .store || acc = .atomic then 0x60 else 0x20
  let new := pte ||| bits
  (new, if new = pte then s else metaWrite s addr new)

/-- A walk for an access: on success the leaf is marked and the TLB holds it (R393, R398). -/
def walkFor (s : State) (h : Nat) (tag : AsidTag) (va : Nat) (acc : Acc) (sup : Bool) : Xlate × State :=
  match walk s h tag va with
  | (.refused k, s) => (.refused k, s)
  | (.leaf p level addr, s) =>
    if !permitted p acc sup then (.refused 1, s)
    else
      let (p, s) := markLeaf s addr p acc
      let s := keepTlb s h ⟨tag, va / 2 ^ 52, va % 2 ^ 52 / pageBytes level, level, p⟩
      if homeFenced s (pteHome p) then (.lost, s) else (.ok (leafPhys p level va) p, s)

/-- The ASID's entry has been found damaged: every access of the ASID is refused until it is rewritten (R416). -/
def entryDamaged (s : State) (asid : BitVec 16) : Bool :=
  s.dramPoison.any fun p => p / 32 = asidEntry s asid / 128

/-- Translating a canonical VA at its owning home (R392, R398 to R400). -/
def translate (s : State) (tag : AsidTag) (va : Nat) (acc : Acc) (sup : Bool) : Xlate × State :=
  let h := homeOf va
  if homeFenced s h then (.lost, s)
  else if entryDamaged s tag.asid then (.refused 3, s)
  else match tlbHit s h tag va with
    | some e =>
      if permitted e.pte acc sup && (pteD e.pte || !(acc = .store || acc = .atomic)) then
        if homeFenced s (pteHome e.pte) then (.lost, s) else (.ok (leafPhys e.pte e.level va) e.pte, s)
      else if !permitted e.pte acc sup then (.refused 1, s)
      else walkFor s h tag va acc sup
    | none => walkFor s h tag va acc sup

/-- Codes of R383's ACC. -/
def accCode : Acc → Nat
  | .load => 0
  | .store => 1
  | .atomic => 2
  | .fetch => 3

end Sys2Proof.Machine
end

