-- ==== Sys2Proof/Machine/Caches.lean ====
section
/-! DEFINITION. The caches (R223 to R225, R481): where they stand, their words and directory records, and which of their
lines leaves for want of room. -/

namespace Sys2Proof.Machine

/-- The node above, on the way to the home of a VA (R11, R264). -/
def parentNode (n : Node) (va : Nat) : Option Node :=
  match n with
  | .l0 c => some (.l1 (c / 4))
  | .l1 c => some (.die (dieOf c))
  | .die d => some (.stk (d / 4))
  | .stk k => if homeIpo (homeOf va) = k / 3 then some (.home (homeOf va)) else some (.bridge (k / 3))
  | .bridge _ => some (.home (homeOf va))
  | .home _ => none

/-- The node below, on the way to a cluster. -/
def childToward (n : Node) (cl : Nat) : Option Node :=
  match n with
  | .home h => some (if homeIpo h = ipoOf cl then .stk (stackOf cl) else .bridge (ipoOf cl))
  | .bridge _ => some (.stk (stackOf cl))
  | .stk _ => some (.die (dieOf cl))
  | .die _ => some (.l1 cl)
  | _ => none

/-- The coherence point and atomic site of a scope for a cluster (R228). -/
def siteOf (cl va sc : Nat) : Node :=
  if sc < 2 then .l1 cl else if sc = 2 then .die (dieOf cl) else if sc = 3 then .stk (stackOf cl)
  else .home (homeOf va)

/-- The caches of an issuer's path below level S (R260); an engine has no L0 (R289). -/
def pathBelow (core : Option Nat) (cl sc : Nat) : List Node :=
  (if sc = 0 then [] else match core with
    | some c => [.l0 c]
    | none => []) ++
  (if 2 ≤ sc then [.l1 cl] else []) ++ (if 3 ≤ sc then [.die (dieOf cl)] else []) ++
  (if 4 ≤ sc then [.stk (stackOf cl)] else [])

/-! Cached words. -/

def lineOf (va : Nat) : Nat := va / 128
def wordIdx (va : Nat) : Nat := va % 128 / 4
def wordVa (line i : Nat) : Nat := 128 * line + 4 * i
def cwAt (s : State) (n : Node) (tag : AsidTag) (va : Nat) : Option CWord := kvFind s.caches ⟨n, tag, va⟩
def putCw (s : State) (n : Node) (tag : AsidTag) (va : Nat) (c : CWord) : State :=
  { s with caches := kvPut s.caches ⟨n, tag, va⟩ c }
def dropCw (s : State) (n : Node) (tag : AsidTag) (va : Nat) : State :=
  { s with caches := kvErase s.caches ⟨n, tag, va⟩ }

/-- A usable copy: valid and not stale. -/
def usable (s : State) (n : Node) (tag : AsidTag) (va : Nat) : Bool :=
  match cwAt s n tag va with
  | some c => !c.stale
  | none => false

/-- A word that an acquire keeps. -/
def keepsOnAcquire (c : CWord) : Bool := c.owned || c.dirty

/-- The words a node has of a line, as (address, word). -/
def lineAt (s : State) (n : Node) (tag : AsidTag) (line : Nat) : List (Nat × CWord) :=
  (List.range 32).filterMap fun i => (cwAt s n tag (wordVa line i)).map fun c => (wordVa line i, c)

def msgWord (e : Nat × CWord) : MWordData := ⟨wordIdx e.1, e.2.val, e.2.poison⟩

/-- Its dirty words as message words. -/
def dirtyWords (s : State) (n : Node) (tag : AsidTag) (line : Nat) : List MWordData :=
  ((lineAt s n tag line).filter fun e => e.2.dirty && !e.2.stale).map msgWord

/-- Its usable words. -/
def usableWords (s : State) (n : Node) (tag : AsidTag) (line : Nat) : List MWordData :=
  ((lineAt s n tag line).filter fun e => !e.2.stale).map msgWord

/-- The numbers of a mask's words. -/
def maskWords (m : BitVec 32) : List Nat := (List.range 32).filter fun i => m.getLsbD i
def maskOfIdx (is : List Nat) : BitVec 32 := is.foldl (fun m i => m ||| (1#32 <<< i)) 0
def maskOfWords (ws : List MWordData) : BitVec 32 := maskOfIdx (ws.map (·.idx))

/-- Every word of a line. -/
def wholeLine : BitVec 32 := BitVec.allOnes 32

/-- The 8-byte words that words of a mask lie in (R249). -/
def wholePairs (m : BitVec 32) : BitVec 32 :=
  m ||| ((m &&& 0x55555555) <<< 1) ||| ((m &&& 0xAAAAAAAA) >>> 1)

/-- One list of words over another: the later one's entry for a word holds. -/
def overlay (under fresher : List MWordData) : List MWordData :=
  (under.filter fun u => !(fresher.any fun o => o.idx = u.idx)) ++ fresher

/-- The words of a list outside a mask. -/
def outside (m : BitVec 32) (ws : List MWordData) : List MWordData := ws.filter fun w => !m.getLsbD w.idx

/-- Dropping the words of a mask from a node. -/
def dropWords (s : State) (n : Node) (tag : AsidTag) (line : Nat) (m : BitVec 32) : State :=
  (maskWords m).foldl (fun t i => dropCw t n tag (wordVa line i)) s

/-! Directory records. -/

def dirAt (s : State) (n : Node) (tag : AsidTag) (line : Nat) (child : Node) : DRec :=
  kvGet s.dirs ⟨n, tag, line, child⟩ ⟨.i, 0, 0⟩

def putDir (s : State) (n : Node) (tag : AsidTag) (line : Nat) (child : Node) (r : DRec) : State :=
  if r.st = .i then { s with dirs := kvErase s.dirs ⟨n, tag, line, child⟩ }
  else { s with dirs := kvPut s.dirs ⟨n, tag, line, child⟩ r }

/-- The children that a directory records for a line. -/
def holders (s : State) (n : Node) (tag : AsidTag) (line : Nat) : List (Node × DRec) :=
  s.dirs.filterMap fun e => if e.1.node = n && e.1.tag = tag && e.1.line = line then some (e.1.child, e.2) else none

/-- The words registered to a child. -/
def registered (r : DRec) : BitVec 32 := r.dr ||| r.co

/-- The words registered to children other than one. -/
def registeredElse (s : State) (n : Node) (tag : AsidTag) (line : Nat) (child : Node) : BitVec 32 :=
  ((holders s n tag line).filter fun h => h.1 ≠ child).foldl (fun m h => m ||| registered h.2) 0

/-- A record whose registration for some words ends (R265): it stays W while words are registered, else the child's copy is
clean. -/
def withoutWords (r : DRec) (m : BitVec 32) : DRec :=
  if registered r &&& m = 0 then r
  else if registered r &&& ~~~m = 0 then ⟨.s, 0, 0⟩
  else ⟨if r.st = .o then .o else .w, r.dr &&& ~~~m, r.co &&& ~~~m⟩

/-- Ending a child's registration for the words of a mask. -/
def unregister (s : State) (n : Node) (tag : AsidTag) (line : Nat) (child : Node) (mask : BitVec 32) : State :=
  let r := dirAt s n tag line child
  if r.st = .i then s else putDir s n tag line child (withoutWords r mask)

/-! Dropping a line. -/

/-- Dropping a line from a node; from an L1 also from the L0s that its directory records (R240, R264, R268). -/
def dropLine (s : State) (n : Node) (tag : AsidTag) (line : Nat) : State :=
  let at' (c : Node) : Bool := c = n || match n, c with
    | .l1 cl, .l0 d => d / 4 = cl
    | _, _ => false
  { s with
    caches := s.caches.filter fun e => !(e.1.tag = tag && lineOf e.1.va = line && at' e.1.node)
    dirs := s.dirs.filter fun e => !(e.1.node = n && e.1.tag = tag && e.1.line = line && match e.1.child with
      | .l0 _ => true
      | _ => false)
    ntLines := s.ntLines.filter fun e => !(e.1 = n && e.2.1 = tag && e.2.2 = line) }

/-! Room (R17, R223, R224, R227, R481). The set of a superblock or line and which of a set leaves are the implementation's
(log entry 24). -/

/-- A line that an `.nt` access left as the first candidate for eviction (R227). -/
def markNt (s : State) (ns : List Node) (tag : AsidTag) (line : Nat) : State :=
  { s with ntLines := s.ntLines ++ (ns.map fun n => (n, tag, line)).filter fun e => !s.ntLines.contains e }

def ntBlock (s : State) (n : Node) (tag : AsidTag) (blk : Nat) : Bool :=
  s.ntLines.any fun e => e.1 = n && e.2.1 = tag && e.2.2 / 4 = blk

/-- The superblocks of which a node holds a word, of those that a test picks, oldest first. -/
def blocksAt (s : State) (n : Node) (p : Nat → Bool) : List (AsidTag × Nat) :=
  (s.caches.filterMap fun e => if e.1.node = n && p (e.1.va / 512) then some (e.1.tag, e.1.va / 512) else none).eraseDups

/-- The one of a list that leaves for another: a candidate first, else the oldest. -/
def leaves {α : Type} (first other : α → Bool) (l : List α) : Option α :=
  match l.find? fun a => first a && other a with
  | some a => some a
  | none => l.find? other

/-- The lines that an L0 holds in a set of 8 (R223). -/
def l0Lines (s : State) (core set' : Nat) : List (AsidTag × Nat) :=
  (s.caches.filterMap fun e => if e.1.node = .l0 core && lineOf e.1.va % 32 = set' then some (e.1.tag, lineOf e.1.va)
    else none).eraseDups

def dropL0 (s : State) (core : Nat) (tag : AsidTag) (line : Nat) : State :=
  putDir (dropLine s (.l0 core) tag line) (.l1 (core / 4)) tag line (.l0 core) ⟨.i, 0, 0⟩

/-- An L0 takes the line as the L1 has it now, whole, and gives up the oldest of a full set (R223, R264). -/
def fillL0 (s : State) (core : Nat) (tag : AsidTag) (line : Nat) : State :=
  let ws := (lineAt s (.l1 (core / 4)) tag line).filter fun e => !e.2.stale
  let s := dropL0 s core tag line
  if ws.isEmpty then s
  else
    let s := ws.foldl (fun t e => putCw t (.l0 core) tag e.1 ⟨e.2.val, e.2.poison, false, false, false⟩) s
    let s := putDir s (.l1 (core / 4)) tag line (.l0 core) ⟨.s, 0, 0⟩
    let mates := l0Lines s core (line % 32)
    if mates.length ≤ 8 then s
    else match mates.find? fun e => e ≠ (tag, line) with
      | some (t, l) => dropL0 s core t l
      | none => s

/-- The banks in CACHE mode, each a way of the L1 (R213). -/
def cacheBanks (s : State) (cl : Nat) : List Nat :=
  (List.range 48).filter fun b => (bankAt s cl b).mode = .cache && !(bankAt s cl b).dead

def l1Ways (s : State) (cl : Nat) : Nat := (cacheBanks s cl).length

/-- The ways of an L1 set in use, oldest first. -/
def l1Set (s : State) (cl set' : Nat) : List L1Way := s.l1ways.filter fun e => e.cl = cl && e.blk % 64 = set'

/-- The set of a superblock in a stack cache (R459). -/
def stkSet (blk : Nat) : Nat := (blk % 2 ^ 14) ^^^ (blk / 2 ^ 14 % 2 ^ 14)

/-- The sets of 16 entries of a directory that has entries of its own (R264). -/
def dirSets : Node → Option Nat
  | .die _ => some 8192
  | .bridge _ => some 32768
  | .home _ => some 65536
  | _ => none

/-- The ways of a directory set that errors have left (R425). -/
def liveWays (s : State) (n : Node) (set' : Nat) : Nat := 16 - kvGet s.deadWays (n, set') 0

/-- The lines with entries in a directory's set, oldest first. -/
def dirLines (s : State) (n : Node) (sets set' : Nat) : List (AsidTag × Nat) :=
  (s.dirs.filterMap fun e => if e.1.node = n && e.1.line % sets = set' then some (e.1.tag, e.1.line) else none).eraseDups

end Sys2Proof.Machine
end

