-- ==== Sys2Proof/Machine/Coherence.lean ====
section
/-! DEFINITION. The coherence protocol (R264 to R271): messages, and what a node does with each. -/

namespace Sys2Proof.Machine

/-! Messages. -/

def mkMsg (kind : MsgKind) (src dst : Node) (tag : AsidTag) (line : Nat) : Msg :=
  { kind, src, dst, tag, line, mask := 0, words := [], req := kind, atom := none, reason := 0, flush := false }

def send (s : State) (m : Msg) : State := { s with net := s.net ++ [m] }

def sendAll (s : State) (ms : List Msg) : State := { s with net := s.net ++ ms }

/-- Requests that read, and messages that register or write back words; the rest that goes up are answers. -/
def isRead : MsgKind → Bool
  | .getS | .getM | .upg => true
  | _ => false

def isWrite : MsgKind → Bool
  | .getW | .wbW | .wbL => true
  | _ => false

def isAnswer : MsgKind → Bool
  | .invAck | .dataD => true
  | _ => false

def isDown : MsgKind → Bool
  | .fwdS | .fwdM | .drop | .backInv | .dataC | .nack => true
  | _ => false

/-- What a node handles on behalf of its parent, or to make room. -/
def fromAbove : MsgKind → Bool
  | .fwdS | .fwdM | .drop | .backInv => true
  | _ => false

/-- A claim whose words are wanted with their newest values. -/
def isFlush (m : Msg) : Bool := m.kind = .getW && m.flush

/-- Whether message `m`, with `before` sent earlier, may be handled now: writes and answers of one child for one line keep
their order, its reads come after them, and what comes down keeps its order. A claim that wants the newest values comes after
earlier writes as a read does, and before later reads. -/
def inOrder (before : List Msg) (m : Msg) : Bool :=
  !(before.any fun e => e.src = m.src && e.dst = m.dst && e.tag = m.tag && e.line = m.line &&
    ((((isWrite e.kind && !isFlush e) || isAnswer e.kind) && !isDown m.kind && m.kind ≠ .writeAck) ||
      (isFlush e && isRead m.kind) || (isDown e.kind && isDown m.kind)))

/-! Transactions. A node has at most one for a line on behalf of a child, and one for its parent. -/

def txnAt (s : State) (n : Node) (tag : AsidTag) (line : Nat) (above : Bool) : Option Txn :=
  s.txns.find? fun t => t.node = n && t.msg.tag = tag && t.msg.line = line && fromAbove t.msg.kind == above

def dropTxn (s : State) (t : Txn) : State :=
  { s with txns := s.txns.filter fun u =>
      !(u.node = t.node && u.msg.tag = t.msg.tag && u.msg.line = t.msg.line && fromAbove u.msg.kind == fromAbove t.msg.kind) }

def putTxn (s : State) (t : Txn) : State := { dropTxn s t with txns := (dropTxn s t).txns ++ [t] }

/-- A transaction that waits for children, and one that waits for the parent. -/
def awaiting (n : Node) (m : Msg) (os : List Node) : Txn := ⟨n, m, os, false, [], [], 0⟩
def asksUp (n : Node) (m : Msg) (words : List MWordData) : Txn := ⟨n, m, [], true, words, [], 0⟩

/-- The transaction of a line at a node that waits for an answer of a child. -/
def awaitedBy (s : State) (n : Node) (tag : AsidTag) (line : Nat) (child : Node) : Option Txn :=
  s.txns.find? fun t => t.node = n && t.msg.tag = tag && t.msg.line = line && t.await.contains child

/-- The transaction in the midst of which a child's write comes. -/
def nestedIn (s : State) (m : Msg) : Option Txn :=
  match txnAt s m.dst m.tag m.line true with
  | some t => some t
  | none => txnAt s m.dst m.tag m.line false

/-- A `GetW` of a node for a line has not been acknowledged. -/
def claimOut (s : State) (n : Node) (tag : AsidTag) (line : Nat) : Bool :=
  let mine (e : Msg) := e.tag = tag && e.line = line && e.kind = .getW && e.src = n
  ((s.net ++ s.nacked).any fun e => mine e || (e.kind = .writeAck && e.dst = n && e.tag = tag && e.line = line)) ||
    s.txns.any fun t => mine t.msg || t.acks.any mine

/-- A node is evicting a line to make room. -/
def evictsLine (s : State) (n : Node) (tag : AsidTag) (line : Nat) : Bool :=
  let mine (e : Msg) := e.src = n && e.dst = n && e.tag = tag && e.line = line
  s.net.any mine || s.txns.any fun t => mine t.msg

/-- A stack is evicting a superblock of a kind. -/
def evictsAny (s : State) (k : Nat) (p : Nat → Bool) : Bool :=
  let mine (e : Msg) := e.src = .stk k && e.dst = .stk k && p (e.line / 4)
  s.net.any mine || s.txns.any fun t => mine t.msg

/-- A stack is still evicting a superblock to make a way for a line (R459). -/
def evicting (s : State) (k line : Nat) : Bool :=
  evictsAny s k (fun b => stkSet b = stkSet (line / 4)) && !evictsAny s k fun b => b = line / 4

/-- Words of a line that a node lacks, of a mask. -/
def lacking (s : State) (n : Node) (tag : AsidTag) (line : Nat) (mask : BitVec 32) : BitVec 32 :=
  maskOfIdx ((maskWords mask).filter fun i => !usable s n tag (wordVa line i))

/-- The site's parent records it as the holder of the whole line (R265). -/
def siteHolds (s : State) (n : Node) (tag : AsidTag) (line : Nat) : Bool := match parentNode n (128 * line) with
  | some p => (dirAt s p tag line n).st = .m
  | none => true

/-- A site has what it performs atomics with: the line, claimed and whole. -/
def siteReady (s : State) (n : Node) (tag : AsidTag) (line : Nat) : Bool := match n with
  | .home _ => true
  | _ => siteHolds s n tag line && lacking s n tag line wholeLine = 0

/-- The marks of a store and of an atomic that wait until the cluster owns what they change. -/
def partMark : Nat := 1005
def nearMark : Nat := 1006

/-- A cluster's L1 has for a waiting store of part of a word, or for an atomic, what it has waited for: it is performed before
the line, or the word, is given away again, so that each claim comes to its use. -/
def keepsFor (s : State) (cl : Nat) (tag : AsidTag) (line : Nat) : Bool :=
  let word (l : AtomLane) : Nat := l.va / 4 * 4
  let owns (va : Nat) : Bool := (cwAt s (.l1 cl) tag va).any fun c => !c.stale && keepsOnAcquire c
  s.waves.any fun e => clusterOf e.1 = cl && e.2.pending.isNone && ((findTeam s e.2.team).any fun t => t.tag = tag) &&
    e.2.progress.any fun p => (p.ops.getD []).any fun l => lineOf l.va = line &&
      ((p.asked = partMark && (p.results.all fun r => r.1 ≠ word l) && owns (word l)) ||
        (p.asked = nearMark && (p.results.all fun r => r.1 ≠ l.lane) && siteReady s (.l1 cl) tag line))

/-- A line in the midst of a transaction holds back the requests for it; writes of a child that the transaction waits for,
and all writes while it waits for the parent, go ahead, and so does what comes down meanwhile. An acknowledgement comes back
along the path of its request, so a node's own claim is acknowledged first (R460); a stack takes a way before it passes a
line's data down, and takes a superblock in again only when it is out (R459). -/
def lineFree (s : State) (m : Msg) : Bool :=
  let own := txnAt s m.dst m.tag m.line false
  let above := txnAt s m.dst m.tag m.line true
  match m.kind with
  | .writeAck => !claimOut s m.src m.tag m.line
  | .dataC => above.isNone && (own.all fun t => t.await.isEmpty) && (match m.src with
      | .stk k => !evicting s k m.line
      | _ => true) && (match m.dst with
      | .stk k => !evictsAny s k fun b => b = m.line / 4
      | _ => true)
  | .getS | .getM | .upg => own.isNone && above.isNone
  | .getW | .wbW | .wbL => (own.isNone && above.isNone) || !isFlush m && ( (above.isNone && own.any (·.up)) ||
      (awaitedBy s m.dst m.tag m.line m.src).isSome)
  | .fwdS | .fwdM | .drop | .backInv => above.isNone && (own.all fun t => t.up && t.await.isEmpty) && (match m.dst with
      | .l1 cl => m.kind = .fwdS || !keepsFor s cl m.tag m.line
      | _ => true)
  | _ => true

/-- The position of the n-th message of a kind that may be handled; a refused request keeps its place before later ones. -/
def readyMsg (s : State) (kind : MsgKind) (n : Nat) : Option (Nat × Msg) :=
  let idx := (List.range s.net.length).filter fun i =>
    match s.net[i]? with
    | some m => m.kind = kind && inOrder (s.nacked ++ s.net.take i) m && lineFree s m
    | none => false
  match idx[n]? with
  | none => none
  | some i => (s.net[i]?).map fun m => (i, m)

/-! The home's own copy. -/

/-- Where a word lies, when the device may reach it for such an access. -/
def locate (s : State) (tag : AsidTag) (va : Nat) (acc : Acc) : Xlate × State := translate s tag va acc true

/-- A word at its home, settled: value, poison. A fenced home gives poison (R32); a refusal gives none. -/
def homeWord (s : State) (tag : AsidTag) (va : Nat) : Option (Word × Bool) × State :=
  match locate s tag va .load with
  | (.ok p _, s) =>
    let s := settle s (some (tag, va)) p
    (some (physWord s p), s)
  | (.lost, s) => (some (0, true), s)
  | (.refused _, s) => (none, s)

/-- Words written back at the home; a refused one is discarded with a type 12 record (R412). -/
def homeStore (s : State) (tag : AsidTag) (line : Nat) (ws : List MWordData) : State :=
  if ws.isEmpty then s
  else match locate s tag (128 * line) .store with
    | (.lost, s) => s
    | (.refused _, s) =>
      logError s ⟨12, 4, 2, homeOf (128 * line), some tag, 128 * line, bytesLe 4 (maskOfWords ws).toNat⟩
    | (.ok p _, s) =>
      ws.foldl (fun t w =>
        let q := p.plus (4 * w.idx)
        physWrite (settle t (some (tag, 128 * line)) q) q 4 w.val.toNat w.poison) s

/-- Poison sent to the home for a word (R272). -/
def poisonVa (s : State) (tag : AsidTag) (va : Nat) : State :=
  match locate s tag va .load with
  | (.ok p _, s) => poisonWord s p.pa
  | (_, s) => s

/-! The vernal rebuild, and the walks for a fenced stack (R31, R272, R273). -/

/-- The words that a record's child has dirtied. -/
def dirtied (r : DRec) : BitVec 32 := if r.st = .m then wholeLine else r.dr

/-- Words lost with a child are poisoned at the home with severity S5, or for a damaged record S4, which the home counts;
the older copies that directory `n` has of them go (R272, R425). -/
def loseWords (s : State) (n : Node) (sev : Nat) (tag : AsidTag) (line : Nat) (mask : BitVec 32) : State :=
  if mask = 0 then s
  else
    let s := (maskWords mask).foldl (fun t i => poisonVa t tag (wordVa line i)) s
    countSeverity (dropWords s n tag line mask) (homeOf (128 * line)) sev

/-- A directory's record of a fenced child is walked: the words that the child dirtied are poisoned at the home and end
their registrations; the number of lines poisoned, kept for stack `k`, grows by one for such a line. -/
def walkEntry (s : State) (n : Node) (k : Nat) (tag : AsidTag) (line : Nat) (child : Node) : State :=
  let r := dirAt s n tag line child
  if r.st = .i then s
  else
    let s := loseWords (putDir s n tag line child ⟨.i, 0, 0⟩) n 5 tag line (dirtied r)
    let s := match parentNode n (128 * line) with
      | some p => unregister s p tag line n (dirtied r)
      | none => s
    if dirtied r = 0 then s
    else
      let b := rebuildAt s k
      { s with rebuilds := kvPut s.rebuilds k { b with lines := satAdd b.lines 1 } }

/-- The fenced children that a directory still has to walk for, with the stack whose walk it is. -/
def fencedChildren (s : State) (n : Node) : List (Nat × Node) :=
  match n with
  | .stk k => if (rebuildAt s k).pend && !s.stackWalks.contains k then (rebuildAt s k).dies.map fun d => (k, .die d) else []
  | .home _ | .bridge _ => s.stackWalks.map fun k => (k, .stk k)
  | _ => []

/-- Those whose records for a line are not yet walked. -/
def unwalked (s : State) (n : Node) (tag : AsidTag) (line : Nat) : List (Nat × Node) :=
  (fencedChildren s n).filter fun c => (dirAt s n tag line c.2).st ≠ .i

/-- A request that meets an unwalked entry has it walked ahead of its turn (R273). -/
def walkAhead (s : State) (n : Node) (tag : AsidTag) (line : Nat) : State :=
  (unwalked s n tag line).foldl (fun t c => walkEntry t n c.1 tag line c.2) s

/-- A line whose rebuild is pending at some directory below the home, which the home answers with `Nack` (R271, R273). -/
def rebuildPending (s : State) (tag : AsidTag) (line : Nat) : Bool :=
  ((List.range 6).map Node.stk ++ [Node.bridge 0, Node.bridge 1]).any fun n => !(unwalked s n tag line).isEmpty

/-- The node is fenced (R30, R31); a fenced home answers for itself (R32). -/
def nodeFenced (s : State) : Node → Bool
  | .l0 c => dieFenced s (c / 96)
  | .l1 cl => dieFenced s (dieOf cl)
  | .die d => dieFenced s d
  | .stk k => s.fencedStacks.contains k
  | _ => false

/-- An atomic's new memory value from the old value `w` and operands `x` and `y` (R236). -/
def atomNew (sub w x y : Nat) : Nat :=
  let a := BitVec.ofNat 32 w
  let b := BitVec.ofNat 32 x
  match sub with
  | 0 => (a + b).toNat
  | 1 => (addF32Rne a b).toNat
  | 2 => if a.slt b then w else x
  | 3 => if a.slt b then x else w
  | 4 => min w x
  | 5 => max w x
  | 6 => (a &&& b).toNat
  | 7 => (a ||| b).toNat
  | 8 => (a ^^^ b).toNat
  | 9 => x
  | 10 => if w = x then y else w
  | 11 => (w + x) % 2 ^ 64
  | 12 => min w x
  | _ => if w = x then y else w

/-- The width in words of an atomic (R236). -/
def atomWords (sub : Nat) : Nat := if 11 ≤ sub && sub < 16 then 2 else 1

/-- The codes, beside those of R236, with which a `.vol` access reaches the home's atomic unit (R227): a store of the bits
of a word under a mask, and a load; and the one with which a reducing copy poisons a word (R286). -/
def volStore : Nat := 20
def volLoad : Nat := 21
def poisonCode : Nat := 22

/-- The code of `tdone`'s decrement of JOIN with its read of CONT (R374). -/
def doneCode : Nat := 23

/-! What a node does. -/

/-- Filling clean words into a cache: what it has dirty, or owned and usable, stays. -/
def fill (s : State) (n : Node) (tag : AsidTag) (line : Nat) (ws : List MWordData) : State :=
  ws.foldl (fun t w =>
    let va := wordVa line w.idx
    match cwAt t n tag va with
    | some c => if !c.stale && (c.dirty || c.owned) then t
                else putCw t n tag va { c with val := w.val, poison := w.poison, stale := false, dirty := false }
    | none => putCw t n tag va ⟨w.val, w.poison, false, false, false⟩) s

/-- A cache takes words of a mask as its own; where it lacks one, its child has it. -/
def ownWords (s : State) (n : Node) (tag : AsidTag) (line : Nat) (mask : BitVec 32) : State :=
  (maskWords mask).foldl (fun t i =>
    let va := wordVa line i
    match cwAt t n tag va with
    | some c => putCw t n tag va { c with owned := true }
    | none => putCw t n tag va ⟨0, false, false, true, true⟩) s

/-- The words of a mask that a cache does not own. -/
def unowned (s : State) (n : Node) (tag : AsidTag) (line : Nat) (mask : BitVec 32) : BitVec 32 :=
  maskOfIdx ((maskWords mask).filter fun i => match cwAt s n tag (wordVa line i) with
    | some c => !c.owned
    | none => true)

/-- The words that an atomic request touches. -/
def atomTouches (r : AtomReq) : List Nat :=
  r.lanes.flatMap fun l => if atomWords r.sub = 1 then [l.va] else [l.va, l.va + 4]

def touchMask (r : AtomReq) : BitVec 32 := maskOfIdx ((atomTouches r).map wordIdx)

/-- At the bridge nothing rests: it passes on what comes. -/
def passes : Node → Bool
  | .bridge _ => true
  | _ => false

/-- Claiming words at the parent (R267): those that the node does not own are asked for with `GetW`. -/
def claim (s : State) (n : Node) (tag : AsidTag) (line : Nat) (mask : BitVec 32) : State :=
  match parentNode n (128 * line) with
  | none => s
  | some p =>
    let want := if passes n then mask else unowned s n tag line mask
    if want = 0 then s
    else send (if passes n then s else ownWords s n tag line want) { mkMsg .getW n p tag line with mask := want }

/-- Words put into a cache as dirty words. -/
def putDirty (s : State) (n : Node) (tag : AsidTag) (line : Nat) (ws : List MWordData) : State :=
  ws.foldl (fun t w =>
    let va := wordVa line w.idx
    let own := match cwAt t n tag va with
      | some c => c.owned
      | none => false
    putCw t n tag va ⟨w.val, w.poison, true, own, false⟩) s

/-- What a node asked for before words went up from it of its own accord, or through a bridge, is not to bring it older values of
them (R250): answers on their way lose them, and its requests name them as not wanted. -/
def voidReads (s : State) (n : Node) (tag : AsidTag) (line : Nat) (gone : BitVec 32) : State :=
  let about (m : Msg) : Bool := m.tag = tag && m.line = line
  let unwanted : List MWordData := (maskWords gone).map fun i => ⟨i, 0, false⟩
  let less (m : Msg) : Msg :=
    if about m && m.kind = .dataC && m.dst = n then { m with mask := m.mask &&& ~~~gone, words := outside gone m.words }
    else if about m && (m.kind = .getS || isFlush m) && m.src = n then { m with words := overlay m.words unwanted }
    else m
  if gone = 0 then s
  else { s with
    net := s.net.map less, nacked := s.nacked.map less, txns := s.txns.map fun t => { t with msg := less t.msg } }

/-- Words that a cache takes as its own before it has their newest values: no copy of them is used. -/
def reserveWords (s : State) (n : Node) (tag : AsidTag) (line : Nat) (mask : BitVec 32) : State :=
  (maskWords mask).foldl (fun t i =>
    let va := wordVa line i
    putCw t n tag va { (cwAt t n tag va).getD ⟨0, false, false, true, true⟩ with dirty := false, owned := true, stale := true }) s

/-- The claim of such words has been refused: they are not the cache's own. -/
def dropReserved (s : State) (n : Node) (tag : AsidTag) (line : Nat) (mask : BitVec 32) : State :=
  dropWords s n tag line (maskOfIdx ((maskWords mask).filter fun i => (cwAt s n tag (wordVa line i)).any fun c => c.owned && c.stale))

/-- Claiming words whose newest values are wanted: for a store of part of a word (log entry 101), or the whole line for the
site of an atomic, `atom` (R265, R268; log entry 107). What is on its way from before brings no older values of them. -/
def flushClaim (s : State) (n : Node) (tag : AsidTag) (line : Nat) (mask : BitVec 32) (atom : Option AtomReq) : State :=
  match parentNode n (128 * line) with
  | none => s
  | some p =>
    let want := if passes n then mask else unowned s n tag line mask ||| lacking s n tag line mask
    let site : Bool := atom.any fun a => a.site = n
    if want = 0 && !site then s
    else send (voidReads (if passes n then s else reserveWords s n tag line want) n tag line want)
      { mkMsg .getW n p tag line with mask := if site then mask else want, atom, flush := true }

/-- Storing words pushed by a child, or by the node's own cluster, into a node: at the home into its memory, at the bridge
onwards, else as dirty words that the node claims. -/
def absorb (s : State) (n : Node) (tag : AsidTag) (line : Nat) (ws : List MWordData) : State :=
  if ws.isEmpty then s
  else match n with
    | .home _ => homeStore s tag line ws
    | .bridge _ =>
      match parentNode n (128 * line) with
      | some p => send (voidReads s n tag line (maskOfWords ws)) { mkMsg .wbW n p tag line with mask := maskOfWords ws, words := ws }
      | none => s
    | _ => claim (putDirty s n tag line ws) n tag line (maskOfWords ws)

def dropMsg (n o : Node) (tag : AsidTag) (line : Nat) (mask : BitVec 32) : Msg :=
  { mkMsg .drop n o tag line with mask }

/-- The `Drop` of a claim: one that wants the newest values has them written back. -/
def dropFor (m : Msg) (o : Node × BitVec 32) : Msg := { dropMsg m.dst o.1 m.tag m.line o.2 with flush := m.flush }

/-- The other children registered for words of a mask, with their overlap. -/
def rivals (s : State) (n : Node) (tag : AsidTag) (line : Nat) (child : Node) (mask : BitVec 32) : List (Node × BitVec 32) :=
  ((holders s n tag line).filter fun h => h.1 ≠ child && registered h.2 &&& mask ≠ 0).map fun h =>
    (h.1, registered h.2 &&& mask)

def ackMsg (n : Node) (m : Msg) : Msg := mkMsg .writeAck n m.src m.tag m.line

def ackWrite (n : Node) (m : Msg) (s : State) : State := send s (ackMsg n m)

/-! Writes of a child: `GetW`, `WbW`, `WbL`. -/

/-- Registering the requester of a `GetW`: W, or M for the atomic's site with the whole line. -/
def registerWriter (s : State) (m : Msg) : State :=
  let r := dirAt s m.dst m.tag m.line m.src
  let site : Bool := m.atom.any fun a => a.site = m.src
  let dr := if site then wholeLine else r.dr ||| m.mask
  putDir s m.dst m.tag m.line m.src ⟨if site then .m else .w, dr, r.co &&& ~~~dr⟩

/-- A `GetW` whose `Drop`s are answered: registered, and forwarded where this level is not registered (R268). -/
def takeClaim (s : State) (m : Msg) : State :=
  let s := registerWriter s m
  match m.dst with
  | .home _ => s
  | n => claim s n m.tag m.line m.mask

/-! Claims taken in the midst of a transaction are held until the `Drop`s that they cause are acknowledged. -/

/-- The words of the claims held for a child. -/
def heldFor (t : Txn) (n : Node) : BitVec 32 :=
  (t.acks.filter fun a => a.kind = .getW && a.src = n).foldl (fun m a => m ||| a.mask) 0

/-- The words of the claims held for other children. -/
def heldElse (t : Txn) (n : Node) : BitVec 32 :=
  (t.acks.filter fun a => a.kind = .getW && a.src ≠ n).foldl (fun m a => m ||| a.mask) 0

/-- Words of the claims held, of those that a test picks, are given to no one. -/
def unhold (p : Msg → Bool) (mask : BitVec 32) (t : Txn) : Txn :=
  { t with acks := t.acks.map fun a => if a.kind = .getW && p a then { a with mask := a.mask &&& ~~~mask } else a }

/-- The words that are another's, registered or held. -/
def othersWords (s : State) (t : Txn) (m : Msg) : BitVec 32 :=
  let mine := heldFor t m.src
  (heldElse t m.src &&& ~~~mine) |||
    (registeredElse s m.dst m.tag m.line m.src &&& ~~~(registered (dirAt s m.dst m.tag m.line m.src) ||| mine))

/-- The words of a child's write-back that a later registrant has superseded (R268, R269): those that a transaction in
progress takes from it, and those of others; the latter where none is in progress only for `WbL`. -/
def supersededIn (s : State) (m : Msg) : BitVec 32 :=
  let taken (t : Txn) : BitVec 32 :=
    if !t.msg.flush && t.await.contains m.src &&
      (t.msg.kind = .drop || ((t.msg.kind = .getW || t.msg.kind = .wbW) && t.msg.src ≠ m.src)) then t.msg.mask else 0
  match nestedIn s m with
  | some t => taken t ||| othersWords s t m
  | none => if m.kind = .wbL then registeredElse s m.dst m.tag m.line m.src &&&
      ~~~registered (dirAt s m.dst m.tag m.line m.src) else 0

/-- Copies that a node keeps of a child's superseded words are older still, and go, so that they are not read again (R250,
R270); not those that another child has pushed here. -/
def dropOlder (s : State) (m : Msg) (gone : BitVec 32) : State :=
  let pushed : BitVec 32 := ((holders s m.dst m.tag m.line).filter fun h => h.1 ≠ m.src).foldl (fun a h => a ||| h.2.co) 0
  dropWords s m.dst m.tag m.line (gone &&& ~~~pushed)

/-- Storing the words of a write-back that stand; the others are discarded (R268). -/
def takeWords (s : State) (m : Msg) : BitVec 32 × State :=
  let gone := supersededIn s m
  let ws := outside gone m.words
  let lost := maskOfWords m.words &&& gone
  (maskOfWords ws, absorb (if lost = 0 then s else dropOlder s m lost) m.dst m.tag m.line ws)

/-- Registering a child clean-owned for words that it has pushed. -/
def registerPushed (s : State) (m : Msg) (mask : BitVec 32) : State :=
  if mask = 0 then s
  else
    let r := dirAt s m.dst m.tag m.line m.src
    putDir s m.dst m.tag m.line m.src ⟨.w, r.dr &&& ~~~mask, r.co ||| mask⟩

/-- A transaction that ends a child's registrations: a claim or push of another child, or a `Drop` from above. -/
def revokes : MsgKind → Bool
  | .getW | .wbW | .drop => true
  | _ => false

/-- A transaction in the midst of having every child give the line up. -/
def recalling (t : Txn) : Bool := !t.up && match t.msg.kind with
  | .getM | .upg | .fwdM | .backInv => true
  | _ => false

/-- A child's claim in the midst of a transaction of its line: other registrants of its words, where they have not been told
already, are told at once, except in a recall, whose children give the line up anyway; words that the transaction itself gives to another
child are taken back from the writer (log entry 108). The claim is held until all are answered. -/
def nestClaim (s : State) (t : Txn) (m : Msg) : State :=
  let n := m.dst
  let back : BitVec 32 :=
    if !t.msg.flush && (t.msg.kind = .getW || t.msg.kind = .wbW) && t.msg.src ≠ m.src then m.mask &&& t.msg.mask else 0
  let fresh (o : Node × BitVec 32) : BitVec 32 :=
    if !t.up && revokes t.msg.kind && t.await.contains o.1 then o.2 &&& ~~~t.msg.mask else o.2
  let held := (t.acks.filter fun a => a.kind = .getW && a.src ≠ m.src).map fun a => (a.src, a.mask &&& m.mask)
  let os := ((((rivals s n m.tag m.line m.src (m.mask &&& ~~~back)).map fun o => (o.1, fresh o)) ++ held).filter fun o => o.2 ≠ 0)
  let told := (if recalling t then [] else os) ++ if back = 0 then [] else [(m.src, back)]
  let t := unhold (fun a => a.src ≠ m.src) m.mask t
  if told.isEmpty && t.await.isEmpty then ackWrite n m (takeClaim (putTxn s t) m)
  else sendAll (putTxn s { t with await := t.await ++ told.map (·.1), acks := t.acks ++ [m] })
    (told.map fun o => dropMsg n o.1 m.tag m.line o.2)

/-- A refused request (R271). -/
def sendNack (s : State) (n : Node) (m : Msg) (reason : Nat) : State :=
  send s { m with kind := .nack, src := n, dst := m.src, req := m.kind, reason := reason }

/-- The home refuses a request for a line whose rebuild is pending (R271, R273). -/
def refusesNow (s : State) (m : Msg) : Bool := match m.dst with
  | .home _ => rebuildPending s m.tag m.line
  | _ => false

/-- The words of a line that a level gives to a reader: its own copy under the dirty words collected. -/
def readLine (s : State) (n : Node) (tag : AsidTag) (line : Nat) (fresher : List MWordData) :
    Option (List MWordData) × State :=
  match n with
  | .home _ =>
    (List.range 32).foldl (fun acc i =>
      match acc.1, homeWord acc.2 tag (wordVa line i) with
      | some ws, (some (v, p), t) => (some (ws ++ [⟨i, v, p⟩]), t)
      | _, (_, t) => (none, t)) (some [], s) |> fun r => (r.1.map fun ws => overlay ws fresher, r.2)
  | _ => (some (overlay (usableWords s n tag line) fresher), s)

/-- A claim that wants the newest values is granted: its sender is registered, acknowledged, and sent the words. -/
def grantClaim (s : State) (m : Msg) (ws : List MWordData) : State :=
  send (ackWrite m.dst m (registerWriter s m)) { mkMsg .dataC m.dst m.src m.tag m.line with mask := maskOfWords ws, words := ws }

/-- A claim that wants the newest values (log entries 101, 107): other registrants of its words write them back first; the
level claims in its turn what it does not own, or lacks; then the claim is granted. `brought` is what a bridge has been sent. -/
def serveClaim (s : State) (m : Msg) (brought : List MWordData) : State :=
  let n := m.dst
  let mask := m.mask &&& ~~~maskOfWords m.words
  match rivals s n m.tag m.line m.src m.mask with
  | [] =>
    let short : BitVec 32 := match n with
      | .home _ => 0
      | .bridge _ => mask &&& ~~~maskOfWords brought
      | _ => unowned s n m.tag m.line m.mask ||| lacking s n m.tag m.line mask
    if short = 0 then
      match readLine s n m.tag m.line brought with
      | (none, s) => sendNack s n m 1
      | (some ws, s) => grantClaim s m (outside (maskOfWords m.words) ws)
    else flushClaim (putTxn s (asksUp n m [])) n m.tag m.line m.mask m.atom
  | os => sendAll (putTxn s (awaiting n m (os.map (·.1)))) (os.map (dropFor m))

/-- `GetW` (R268, R269). -/
def handleGetW (s : State) (m : Msg) : State :=
  let n := m.dst
  let s := walkAhead s n m.tag m.line
  if refusesNow s m then sendNack s n m 2
  else if m.flush then serveClaim s m []
  else match nestedIn s m with
    | some t => nestClaim s t m
    | none =>
      match rivals s n m.tag m.line m.src m.mask with
      | [] => ackWrite n m (takeClaim s m)
      | os => sendAll (putTxn s (awaiting n m (os.map (·.1)))) (os.map (dropFor m))

/-- `WbW`: a release push (R268, R269). -/
def handleWbW (s : State) (m : Msg) : State :=
  let n := m.dst
  let s := walkAhead s n m.tag m.line
  if refusesNow s m then sendNack s n m 2
  else
    let (mask, s) := takeWords s m
    let s := registerPushed s m mask
    match nestedIn s m with
    | some t => if t.await.isEmpty then ackWrite n m s else putTxn s { t with acks := t.acks ++ [m] }
    | none =>
      match rivals s n m.tag m.line m.src mask with
      | [] => ackWrite n m s
      | os => sendAll (putTxn s (awaiting n m (os.map (·.1)))) (os.map fun o => dropMsg n o.1 m.tag m.line o.2)

/-- A node has words or records of a line. -/
def holdsLine (s : State) (n : Node) (tag : AsidTag) (line : Nat) : Bool :=
  !(lineAt s n tag line).isEmpty || !(holders s n tag line).isEmpty

/-- The bridge keeps the words that its children write back in a recall or an eviction until it gives the line up. -/
def collectWords (s : State) (m : Msg) : Option State :=
  if passes m.dst then
    ((txnAt s m.dst m.tag m.line true).filter fun t => (recalling t || t.msg.flush) && t.await.contains m.src).map fun t =>
      let ws := outside (supersededIn s m) m.words
      putTxn (voidReads s m.dst m.tag m.line (maskOfWords ws)) { t with words := overlay t.words ws }
  else none

/-- `WbL`: an eviction write-back (R268). The child keeps a clean copy with reason 1, and where it has been sent one since;
with reason 2, before the answer to a `Drop`, its record stays. -/
def handleWbL (s : State) (m : Msg) : State :=
  let s := walkAhead s m.dst m.tag m.line
  let s := (collectWords s m).getD (takeWords s m).2
  let again := holdsLine s m.src m.tag m.line ||
    s.net.any fun e => e.kind = .dataC && e.src = m.dst && e.dst = m.src && e.tag = m.tag && e.line = m.line
  if m.reason = 2 then s
  else putDir s m.dst m.tag m.line m.src ⟨if m.reason = 1 || again then .s else .i, 0, 0⟩

/-! Reads: `GetS`. -/

/-- Answering `GetS` once no child's dirty words are missing (R268): `DataC` with the words that the level has, fetched
first from above where it lacks one that the reader needs. -/
def serveRead (s : State) (n : Node) (m : Msg) (fresher : List MWordData) : State :=
  let short : BitVec 32 := match n with
    | .home _ => 0
    | .bridge _ => m.mask &&& ~~~maskOfWords fresher
    | _ => lacking s n m.tag m.line m.mask &&& ~~~maskOfWords fresher
  match parentNode n (128 * m.line), decide (short = 0) with
  | some p, false => send (putTxn s (asksUp n m fresher)) { mkMsg .getS n p m.tag m.line with mask := wholePairs short &&& m.mask }
  | _, _ =>
    match readLine s n m.tag m.line fresher with
    | (none, s) => sendNack s n m 1
    | (some ws, s) =>
      let s := match n with
        | .home _ | .bridge _ => s
        | _ => fill s n m.tag m.line fresher
      let r := dirAt s n m.tag m.line m.src
      let alone := ((holders s n m.tag m.line).filter fun h => h.1 ≠ m.src).isEmpty
      let s := if r.st = .i || r.st = .e || r.st = .s then putDir s n m.tag m.line m.src ⟨if alone then .e else .s, 0, 0⟩ else s
      let ws := outside (maskOfWords m.words) ws
      send s { mkMsg .dataC n m.src m.tag m.line with mask := maskOfWords ws, words := ws }

/-- `GetS` (R268). -/
def handleGetS (s : State) (m : Msg) : State :=
  let n := m.dst
  let s := walkAhead s n m.tag m.line
  if refusesNow s m then sendNack s n m 2
  else
    let os := ((holders s n m.tag m.line).filter fun h => h.1 ≠ m.src && h.2.dr ≠ 0).map (·.1)
    if os.isEmpty then serveRead s n m []
    else sendAll (putTxn s (awaiting n m os)) (os.map fun o => mkMsg .fwdS n o m.tag m.line)

/-- A `GetS` of a node for a line is on its way, or its answer is. -/
def asking (s : State) (n : Node) (tag : AsidTag) (line : Nat) : Bool :=
  let about (m : Msg) := m.tag = tag && m.line = line
  (s.net ++ s.nacked).any (fun m => about m && ((m.kind = .getS && m.src = n) || ((m.kind = .dataC || m.kind = .nack) && m.dst = n))) ||
  s.txns.any fun t => t.msg.kind = .getS && t.msg.src = n && about t.msg

/-- A node asks for words of lines (R267). -/
def askNode (s : State) (n : Node) (tag : AsidTag) (vas : List Nat) : State :=
  ((vas.map lineOf).eraseDups).foldl (fun t line =>
    match parentNode n (128 * line) with
    | none => t
    | some p =>
      if asking t n tag line then t
      else send t { mkMsg .getS n p tag line with
        mask := maskOfIdx ((vas.filter fun a => lineOf a = line).map wordIdx) }) s

/-! Atomics: `GetM`, `Upg`. -/

/-- A word of a cache as it is read: the policy array's reserved bits read as 0 there too (R2, R423). -/
def cachedBits (s : State) (tag : AsidTag) (va : Nat) (w : Word) : Word := match (locate s tag va .load).1 with
  | .ok p _ => readBits s p.pa w
  | _ => w

/-- A word at a cache node or at the home: value, poison. A missing word reads as poisoned; callers fetch first. -/
def siteWord (s : State) (n : Node) (tag : AsidTag) (va : Nat) : (Word × Bool) × State :=
  match n with
  | .home _ =>
    match homeWord s tag va with
    | (some x, s) => (x, s)
    | (none, s) => ((0, true), s)
  | _ =>
    match cwAt s n tag va with
    | some c => ((cachedBits s tag va c.val, c.poison || c.stale), s)
    | none => ((0, true), s)

/-- Storing words at a site: at a cache node as dirty words. -/
def siteStore (s : State) (n : Node) (tag : AsidTag) (line : Nat) (ws : List MWordData) : State :=
  match n with
  | .home _ => homeStore s tag line ws
  | _ => putDirty s n tag line ws

/-- One lane's atomic in one indivisible step at a site (R237): the old value, and whether it read poison, which leaves
the word unchanged. -/
def atomStep (s : State) (n : Node) (tag : AsidTag) (sub va x y : Nat) : (Nat × Bool) × State :=
  let ((lo, p), s) := siteWord s n tag va
  let put (s : State) (w : Word) (poison : Bool) : State := siteStore s n tag (lineOf va) [⟨wordIdx va, w, poison⟩]
  if sub = volLoad then ((lo.toNat, p), s)
  else if sub = poisonCode then ((0, false), put s lo true)
  else if sub = volStore then
    let m := BitVec.ofNat 32 y
    ((0, false), put s ((lo &&& ~~~m) ||| (BitVec.ofNat 32 x &&& m)) (p && m ≠ BitVec.allOnes 32))
  else if atomWords sub = 1 then
    if p then ((0, true), s) else ((lo.toNat, false), put s (BitVec.ofNat 32 (atomNew sub lo.toNat x y)) false)
  else
    let ((hi, q), s) := siteWord s n tag (va + 4)
    if p || q then ((0, true), s)
    else
      let w := (pairOf lo hi).toNat
      let v := atomNew sub w x y
      ((w, false), siteStore s n tag (lineOf va)
        [⟨wordIdx va, BitVec.ofNat 32 v, false⟩, ⟨wordIdx va + 1, BitVec.ofNat 32 (v / 2 ^ 32), false⟩])

/-- The lanes of an atomic, in ascending lane order (R237). -/
def atomLanes (n : Node) (tag : AsidTag) (sub : Nat) : List AtomLane → State → List (Nat × Nat × Bool) × State
  | [], s => ([], s)
  | l :: rest, s =>
    let ((w, p), s) := atomStep s n tag sub l.va l.x l.y
    let (rs, s) := atomLanes n tag sub rest s
    ((l.lane, w, p) :: rs, s)

/-- The release of the last task of a frame (R374), in one step: JOIN (index 0) and the four words of CONT; JOIN is
decremented, but not where it, or a CONT that will be taken, is poisoned. -/
def doneStep (s : State) (n : Node) (tag : AsidTag) (fr : Nat) : List (Nat × Nat × Bool) × State :=
  let ((join, p), s) := siteWord s n tag fr
  let (cont, s) := (List.range 4).foldl (fun (acc : List (Word × Bool) × State) j =>
    let (x, t) := siteWord acc.2 n tag (fr + 0x10 + 4 * j)
    (acc.1 ++ [x], t)) ([], s)
  let bad := p || (join = 1 && cont.any (·.2))
  let s := if bad then s else siteStore s n tag (lineOf fr) [⟨wordIdx fr, join - 1, false⟩]
  ((0, join.toNat, bad) :: (List.range 4).map fun j => (j + 1, (cont.getD j (0, false)).1.toNat, false), s)

/-- Results that a site returns to a waiting wave. -/
def returnResults (s : State) (w : Nat) (rs : List (Nat × Nat × Bool)) : State :=
  onWave s w fun x => { x with progress := x.progress.map fun p => { p with results := p.results ++ rs } }

/-- Words at a site marked as poisoned. -/
def spoilWords (s : State) (n : Node) (tag : AsidTag) (vas : List Nat) : State :=
  vas.foldl (fun t va =>
    let ((w, _), t) := siteWord t n tag va
    siteStore t n tag (lineOf va) [⟨wordIdx va, w, true⟩]) s

/-- An atomic of a line performed at its site; what it writes with operands that a link has lost is poison, and so are the
results of an answer that it loses (R420); a cache's site then holds the whole line (R265). -/
def performAtomic (s : State) (n : Node) (tag : AsidTag) (line : Nat) (r : AtomReq) : List (Nat × Nat × Bool) × State :=
  let (rs, s) := if r.sub = doneCode then doneStep s n tag ((r.lanes.headD default).va) else atomLanes n tag r.sub r.lanes s
  let s := if r.lost && r.sub ≠ volLoad then spoilWords s n tag (atomTouches r) else s
  let rs := rs.map fun e => (e.1, e.2.1, e.2.2 || r.lostBack)
  match n with
  | .home _ => (rs, s)
  | _ => (rs, ownWords s n tag line wholeLine)

/-- The kind of access that an atomic request is, where its home translates it. -/
def atomAcc (r : AtomReq) : Acc := if r.sub = volLoad then .load else if r.sub = volStore then .store else .atomic

/-- The home refuses the translation of an atomic's line (R410). -/
def homeRefuses (s : State) (n : Node) (m : Msg) (r : AtomReq) : Bool :=
  match n, locate s m.tag (128 * m.line) (atomAcc r) with
  | .home _, (.refused _, _) => true
  | _, _ => false

/-- A claim of a node for newest values, or data, is on its way. -/
def flushOut (s : State) (n : Node) (tag : AsidTag) (line : Nat) : Bool :=
  let about (m : Msg) := m.tag = tag && m.line = line
  ((s.net ++ s.nacked).any fun m => about m && ((isFlush m && m.src = n) || ((m.kind = .dataC || m.kind = .nack) && m.dst = n))) ||
    s.txns.any fun t => about t.msg && isFlush t.msg && t.msg.src = n

/-- A site claims the whole line with its newest values, unless it has asked for them (R268; log entry 107). -/
def prepareSite (s : State) (n : Node) (tag : AsidTag) (line : Nat) (r : AtomReq) : State :=
  if flushOut s n tag line then s else flushClaim s n tag line wholeLine (some r)

/-- Performing an atomic whose line has been recalled, once the site has the line (R265, R268). -/
def serveAtomic (s : State) (n : Node) (m : Msg) : State :=
  match m.atom with
  | none => s
  | some r =>
    if !siteReady s n m.tag m.line then
      let waits : Bool := (txnAt s n m.tag m.line false).any (·.up)
      prepareSite (if waits then s else putTxn s (asksUp n m [])) n m.tag m.line r
    else if homeRefuses s n m r then sendNack s n m 1
    else
      let (rs, s) := performAtomic (dropTxn s (asksUp n m [])) n m.tag m.line r
      returnResults s r.wave rs

/-- `GetM` and `Upg` (R267, R268): passed on below the site; at the site the line is recalled from every child first. -/
def handleGetM (s : State) (m : Msg) : State :=
  let n := m.dst
  let s := walkAhead s n m.tag m.line
  match m.atom with
  | none => s
  | some r =>
    if n ≠ r.site then
      match parentNode n (128 * m.line) with
      | some p => send s { m with src := n, dst := p }
      | none => s
    else if refusesNow s m then sendNack s n m 2
    else
      match holders s n m.tag m.line with
      | [] => serveAtomic s n m
      | hs => sendAll (putTxn s (awaiting n m (hs.map (·.1))))
          (hs.map fun h => mkMsg (if h.2.dr ≠ 0 then .fwdM else .backInv) n h.1 m.tag m.line)

/-! What comes from the parent: `FwdM`, `BackInv`, `FwdS`, `Drop`. -/

/-- The dirty words that a node's own transaction has collected are given up with the line. -/
def forgetWords (s : State) (n : Node) (tag : AsidTag) (line : Nat) (mask : BitVec 32) : State :=
  match txnAt s n tag line false with
  | some t => if t.up then putTxn s { t with words := outside mask t.words } else s
  | none => s

/-- The words of a line that a node has dirty or owns. -/
def keptWords (s : State) (n : Node) (tag : AsidTag) (line : Nat) : BitVec 32 :=
  maskOfIdx (((lineAt s n tag line).filter fun e => keepsOnAcquire e.2).map fun e => wordIdx e.1)

/-- The words registered to the bridge at the home. -/
def bridgeWords (s : State) (n : Node) (tag : AsidTag) (line : Nat) : BitVec 32 :=
  match (parentNode n (128 * line)).filter fun _ => passes n with
  | some p => registered (dirAt s p tag line n)
  | none => 0

/-- A node gives a line up (R266, R268): its own dirty words under those its children answered go up, with `DataD` where the
parent recalls the line for an atomic, else with `WbL`; then it answers. Of its own accord it sends only what it has dirty
or owns. -/
def giveUp (s : State) (n : Node) (m : Msg) (fresher : List MWordData) : State :=
  let ws := overlay (dirtyWords s n m.tag m.line) fresher
  let kept := maskOfWords ws ||| keptWords s n m.tag m.line ||| bridgeWords s n m.tag m.line
  let s := forgetWords (dropLine s n m.tag m.line) n m.tag m.line wholeLine
  if m.src = n then
    match (parentNode n (128 * m.line)).filter fun _ => kept ≠ 0 with
    | some p => send (voidReads s n m.tag m.line kept) { mkMsg .wbL n p m.tag m.line with mask := maskOfWords ws, words := ws }
    | none => s
  else
    let kind : MsgKind := if m.kind = .fwdM then .dataD else .wbL
    let s := if ws.isEmpty then s else send s { mkMsg kind n m.src m.tag m.line with mask := maskOfWords ws, words := ws }
    send s (mkMsg .invAck n m.src m.tag m.line)

/-- The children below a node that are nodes of their own. -/
def kids (s : State) (n : Node) (tag : AsidTag) (line : Nat) : List (Node × DRec) :=
  (holders s n tag line).filter fun h => match h.1 with
    | .l0 _ => false
    | _ => true

/-- `FwdM` and `BackInv` at a child, or an eviction of the node's own: its own children first (R266, R268). -/
def handleRecall (s : State) (m : Msg) : State :=
  let n := m.dst
  match kids s n m.tag m.line with
  | [] => giveUp s n m []
  | hs => sendAll (putTxn s (awaiting n m (hs.map (·.1))))
      (hs.map fun h => mkMsg (if m.kind = .fwdM && h.2.dr ≠ 0 then .fwdM else .backInv) n h.1 m.tag m.line)

/-- `FwdS` answered (R266): the dirty words, which their holder keeps. -/
def answerRead (s : State) (n : Node) (m : Msg) (fresher : List MWordData) : State :=
  let ws := overlay (dirtyWords s n m.tag m.line) fresher
  send s { mkMsg .dataD n m.src m.tag m.line with mask := maskOfWords ws, words := ws }

/-- `FwdS` at a child. -/
def handleFwdS (s : State) (m : Msg) : State :=
  let n := m.dst
  match (kids s n m.tag m.line).filter fun h => h.2.dr ≠ 0 with
  | [] => answerRead s n m []
  | hs => sendAll (putTxn s (awaiting n m (hs.map (·.1)))) (hs.map fun h => mkMsg .fwdS n h.1 m.tag m.line)

/-- The words of a mask are superseded at a node: dirty copies go, the rest are no longer owned (R269). -/
def supersedeWords (s : State) (n : Node) (tag : AsidTag) (line : Nat) (mask : BitVec 32) : State :=
  (maskWords mask).foldl (fun t i =>
    let va := wordVa line i
    match cwAt t n tag va with
    | none => t
    | some c => if c.dirty || c.stale then dropCw t n tag va else putCw t n tag va { c with owned := false }) s

/-- A `Drop` is answered: its words, and which of them it superseded dirty. -/
def answerDrop (s : State) (n : Node) (m : Msg) (gone : BitVec 32) : State :=
  send s { mkMsg .invAck n m.src m.tag m.line with mask := m.mask, words := (maskWords gone).map fun i => ⟨i, 0, false⟩ }

/-- A `Drop` that has the dirty words written back is answered: they go up with `WbL`, and are superseded nowhere (log
entry 101). -/
def answerFlush (s : State) (n : Node) (m : Msg) (fresher : List MWordData) : State :=
  let ws := overlay ((dirtyWords s n m.tag m.line).filter fun w => m.mask.getLsbD w.idx) fresher
  let s := forgetWords (supersedeWords s n m.tag m.line m.mask) n m.tag m.line m.mask
  let s := if ws.isEmpty then s
    else send s { mkMsg .wbL n m.src m.tag m.line with mask := maskOfWords ws, words := ws, reason := 2 }
  answerDrop s n m 0

/-- `Drop` at a child (R269). -/
def handleDrop (s : State) (m : Msg) : State :=
  let n := m.dst
  let gone := maskOfWords (dirtyWords s n m.tag m.line) &&& m.mask
  let s := if m.flush then s else forgetWords (supersedeWords s n m.tag m.line m.mask) n m.tag m.line m.mask
  match (kids s n m.tag m.line).filter fun h => registered h.2 &&& m.mask ≠ 0 with
  | [] => if m.flush then answerFlush s n m [] else answerDrop s n m gone
  | hs => sendAll (putTxn s { awaiting n m (hs.map (·.1)) with gone })
      (hs.map fun h => dropFor m (h.1, registered h.2 &&& m.mask))

/-! Answers: `InvAck`, `DataD`, `DataC`. -/

/-- A claim held, or a push taken in meanwhile, is settled: the words that stand are registered and forwarded, and it is
acknowledged (R268, R269). A child that has given the line up is registered no more, and its words go on from here. -/
def settleHeld (recalled : Bool) (s : State) (a : Msg) : State :=
  let s := if a.kind ≠ .getW || a.mask = 0 then s
    else if !recalled then takeClaim s a
    else claim s a.dst a.tag a.line a.mask
  ackWrite a.dst a s

/-- A transaction whose answers are all in goes on. -/
def finishTxn (s : State) (t : Txn) : State :=
  let n := t.node
  let m := t.msg
  let s := t.acks.foldl (settleHeld (recalling t)) (dropTxn s t)
  if t.up then
    let s := putTxn s { t with acks := [] }
    if m.kind = .getM || m.kind = .upg then serveAtomic s n m else if m.flush then serveClaim (dropTxn s t) m [] else s
  else match m.kind with
    | .getS => serveRead s n m t.words
    | .getM | .upg => serveAtomic (absorb s n m.tag m.line t.words) n m
    | .getW => if m.flush then serveClaim s m [] else ackWrite n m (takeClaim s m)
    | .wbW => ackWrite n m s
    | .fwdS => answerRead s n m t.words
    | .fwdM | .backInv => giveUp s n m t.words
    | .drop => if m.flush then answerFlush s n m t.words else answerDrop s n m t.gone
    | _ => s

/-- What a child's answer changes at the directory (R265, R268): it has given up the line, or the words of a `Drop`, or is
recorded as O. -/
def noteAnswer (s : State) (t : Txn) (m : Msg) : State :=
  let n := m.dst
  let r := dirAt s n m.tag m.line m.src
  match t.msg.kind, m.kind with
  | _, .invAck =>
    if recalling t then putDir s n m.tag m.line m.src ⟨.i, 0, 0⟩
    else dropOlder (unregister s n m.tag m.line m.src m.mask) m (maskOfWords m.words)
  | .getS, .dataD | .fwdS, .dataD =>
    if !m.words.isEmpty && (r.st = .w || r.st = .m) then putDir s n m.tag m.line m.src { r with st := .o } else s
  | _, _ => s

/-- The words of an answer that stand: not those registered to another child, or held for one, meanwhile. -/
def answerWords (s : State) (t : Txn) (m : Msg) : List MWordData := outside (othersWords s t m) m.words

/-- A child's answer: `InvAck`, or `DataD` with its dirty words, after which a recalled child's `InvAck` is still to come. -/
def handleAnswer (s : State) (m : Msg) : State :=
  match awaitedBy s m.dst m.tag m.line m.src with
  | none => s
  | some t =>
    let last : Bool := m.kind = .invAck || t.msg.kind = .getS || t.msg.kind = .fwdS
    let t := { t with
      await := if last then t.await.erase m.src else t.await
      words := if m.kind = .dataD then overlay t.words (answerWords s t m) else t.words
      gone := if m.kind = .invAck then t.gone ||| maskOfWords m.words else t.gone }
    let s := noteAnswer s t m
    let t := if m.kind = .invAck && !recalling t then unhold (fun a => a.src = m.src) m.mask t else t
    if t.await.isEmpty then finishTxn s t else putTxn s t

/-- A line leaves an L1 (R268, R481): its dirty or owned words go to the die with `WbL`; a clean line goes silently. -/
def evictL1Line (s : State) (cl : Nat) (tag : AsidTag) (line : Nat) : State :=
  giveUp s (.l1 cl) (mkMsg .backInv (.l1 cl) (.l1 cl) tag line) []

def evictL1Block (s : State) (cl : Nat) (tag : AsidTag) (blk : Nat) : State :=
  let s := (List.range 4).foldl (fun t i => evictL1Line t cl tag (4 * blk + i)) s
  { s with l1ways := s.l1ways.filter fun e => !(e.cl = cl && e.tag = tag && e.blk = blk) }

/-- A superblock that the L1 now holds takes a way of its set (R224): a bank that the set does not use, else that of the one
that leaves. -/
def takeWay (s : State) (cl : Nat) (tag : AsidTag) (blk : Nat) : State :=
  let set' := l1Set s cl (blk % 64)
  if set'.any fun e => e.tag = tag && e.blk = blk then s
  else match (cacheBanks s cl).find? fun b =>
      set'.length + kvGet s.deadWays (.l1 cl, blk % 64) 0 < l1Ways s cl && !(set'.any fun e => e.bank = b) with
    | some b => { s with l1ways := s.l1ways ++ [⟨cl, b, tag, blk⟩] }
    | none => match leaves (fun e => ntBlock s (.l1 cl) e.tag e.blk) (fun _ => true) set' with
      | some e =>
        let s := evictL1Block s cl e.tag e.blk
        { s with l1ways := s.l1ways ++ [⟨cl, e.bank, tag, blk⟩] }
      | none => s

/-- The L1 holds words of a line in a way of its own; ways whose superblock has gone are free. -/
def trimL1 (s : State) (cl : Nat) (tag : AsidTag) (line : Nat) : State :=
  let live := blocksAt s (.l1 cl) fun b => b % 64 = line / 4 % 64
  let s := { s with l1ways := s.l1ways.filter fun e =>
    !(e.cl = cl && e.blk % 64 = line / 4 % 64) || live.contains (e.tag, e.blk) }
  if live.contains (tag, line / 4) then takeWay s cl tag (line / 4) else s

/-- With no CACHE bank the L1 keeps a line only for one access (R224). -/
def releaseL1 (s : State) (cl : Nat) (tag : AsidTag) (line : Nat) : State :=
  if l1Ways s cl = 0 then evictL1Line s cl tag line else s

/-- An access of the cluster is going on that may want a line at the L1: of a wave, of a fork stack that refills, or of the
engine. -/
def lineWanted (s : State) (cl line : Nat) : Bool :=
  (s.waves.any fun e => clusterOf e.1 = cl &&
    ((e.2.progress.any fun p => p.vas.any (lineOf · = line) || (p.ops.getD []).any fun l => lineOf l.va = line) ||
      (e.2.spilled ≠ 0 && e.2.spillBase ≤ 128 * line + 127 && 128 * line < e.2.spillBase + 256 * e.2.spilled))) ||
    s.copies.any fun e => e.2.cl = cl && e.2.moves.any fun m => m.words.any fun w => lineOf w.1 = line || lineOf w.2 = line

/-- With no CACHE bank, data that nobody waits for leaves the L1 (R224). -/
def releaseStray (s : State) (cl : Nat) : State :=
  if l1Ways s cl ≠ 0 then s
  else (((s.caches.filterMap fun e => if e.1.node = .l1 cl && !lineWanted s cl (lineOf e.1.va) then some (e.1.tag, lineOf e.1.va)
    else none)).eraseDups).foldl (fun t e => evictL1Line t cl e.1 e.2) s

/-- A node sends itself the eviction of a line. -/
def evictLine (s : State) (n : Node) (tag : AsidTag) (line : Nat) : State :=
  send s (mkMsg .backInv n n tag line)

/-- A node evicts a superblock: each of its lines that the node has (R224, R268). -/
def evictBlock (s : State) (n : Node) (tag : AsidTag) (blk : Nat) : State :=
  (List.range 4).foldl (fun t i =>
    if holdsLine t n tag (4 * blk + i) && !evictsLine t n tag (4 * blk + i) then evictLine t n tag (4 * blk + i) else t) s

/-- The set of a superblock in a die cache of 6,144 sets, by its frame's address (R14, R223); by the superblock's own address
where the home gives no frame. -/
def dieSet (s : State) (b : AsidTag × Nat) : Nat := match (locate s b.1 (512 * b.2) .load).1 with
  | .ok p _ => p.pa / 512 % 6144
  | _ => b.2 % 6144

/-- A die cache of 16 ways makes room in the set of a line (R14, R223). -/
def trimDie (s : State) (d : Nat) (tag : AsidTag) (line : Nat) : State :=
  let n : Node := .die d
  let leaving (b : AsidTag × Nat) : Bool := (List.range 4).any fun i => evictsLine s n b.1 (4 * b.2 + i)
  let all := blocksAt s n fun _ => true
  let here := if all.length ≤ 16 then [] else
    all.filter fun b => dieSet s b = dieSet s (tag, line / 4) && !leaving b
  if here.length ≤ 16 then s
  else match leaves (fun b => ntBlock s n b.1 b.2) (fun b => b ≠ (tag, line / 4)) here with
    | some (t, b) => evictBlock s n t b
    | none => s

/-- A directory makes room for the entry of a line (R264, R268). -/
def trimDir (s : State) (n : Node) (tag : AsidTag) (line : Nat) : State :=
  match dirSets n with
  | none => s
  | some sets =>
    let here := (dirLines s n sets (line % sets)).filter fun e => !evictsLine s n e.1 e.2
    if here.length ≤ liveWays s n (line % sets) then s
    else match here.find? fun e => e ≠ (tag, line) with
      | some (t, l) => evictLine s n t l
      | none => s

/-- Data fills a node; the other half of an 8-byte word of which it brings one half goes, where the node does not own it, so
that the halves are of one time (R210). -/
def fillClean (s : State) (n : Node) (tag : AsidTag) (line : Nat) (ws : List MWordData) : State :=
  let halves := (ws.map fun w => w.idx ^^^ 1).filter fun i => !ws.any fun w => w.idx = i
  halves.foldl (fun t i => match cwAt t n tag (wordVa line i) with
    | some c => if keepsOnAcquire c then t else dropCw t n tag (wordVa line i)
    | none => t) (fill s n tag line ws)

/-- `DataC` at a child. -/
def handleDataC (s : State) (m : Msg) : State :=
  let s := if passes m.dst then s else fillClean s m.dst m.tag m.line m.words
  match txnAt s m.dst m.tag m.line false with
  | none => s
  | some t =>
    if !t.up then s
    else match t.msg.kind with
      | .getS => serveRead (dropTxn s t) m.dst t.msg (if passes m.dst then overlay m.words t.words else t.words)
      | .getM | .upg => serveAtomic s m.dst t.msg
      | .getW => serveClaim (dropTxn s t) t.msg (if passes m.dst then m.words else [])
      | _ => dropTxn s t

/-! Refusals (R271, R410). -/

/-- The cluster that an atomic request comes from; none once nobody waits for it. -/
def atomCluster (s : State) (r : AtomReq) : Option Nat :=
  if r.wave < 2 ^ 20 then (findWave s r.wave).map fun _ => clusterOf r.wave
  else (kvFind s.copies (r.wave - 2 ^ 20)).map (·.cl)

/-- The home's refusal of an atomic's translation reaches who asked: lanes of an instruction, or an engine's elements. -/
def refuseAtom (s : State) (r : AtomReq) : State :=
  if r.wave < 2 ^ 20 then
    onWave s r.wave fun x => { x with progress := x.progress.map fun p => { p with refused := p.refused ++ r.lanes.map (·.lane) } }
  else
    { s with copies := kvModify s.copies (r.wave - 2 ^ 20) fun op =>
        { op with fault := some (min 1 (op.fault.getD 1)), faulting := op.faulting ++ [(r.lanes.headD default).va / 16 * 16] } }

/-- `Nack` at a requester: a fault goes on to whoever waits, down to the instruction; a busy or rebuild refusal is replayed
later (R25). -/
def handleNack (s : State) (m : Msg) : State :=
  if m.reason = 1 then
    match m.atom.filter fun _ => m.req ≠ .getW with
    | some r =>
      match m.dst, (atomCluster s r).bind (childToward m.dst) with
      | .l1 _, _ => refuseAtom s r
      | n, some c => send s { m with src := n, dst := c }
      | _, none => s
    | none =>
      let s := if m.req = .getW then dropReserved s m.dst m.tag m.line m.mask else s
      match txnAt s m.dst m.tag m.line false with
      | some t => if t.up then sendNack (dropTxn s t) m.dst t.msg 1 else s
      | none => s
  else
    match parentNode m.dst (128 * m.line) with
    | some p => { s with nacked := s.nacked ++ [{ m with kind := m.req, src := m.dst, dst := p, reason := 0 }] }
    | none => s

/-- Handling one message (R268). -/
def handleMsg (s : State) (m : Msg) : State :=
  match m.kind with
  | .getS => handleGetS s m
  | .getW => handleGetW s m
  | .getM | .upg => handleGetM s m
  | .fwdS => handleFwdS s m
  | .fwdM | .backInv => handleRecall s m
  | .drop => handleDrop s m
  | .invAck | .dataD => handleAnswer s m
  | .dataC => handleDataC s m
  | .wbW => handleWbW s m
  | .wbL => handleWbL s m
  | .nack => handleNack s m
  | .writeAck => s

/-! Room at a node (R223, R264, R459, R481). -/

/-- A use of a superblock by a stack: it becomes the most recently used of its set; of a set with more than its ways, the
first candidate or else the least recently used leaves (R227, R268, R459). -/
def touchStk (s : State) (k : Nat) (tag : AsidTag) (line : Nat) : State :=
  let blk := line / 4
  let rest := s.lru.filter fun e => e ≠ (k, tag, blk)
  let set' := rest.filter fun e => e.1 = k && stkSet e.2.2 = stkSet blk
  let s := { s with lru := rest ++ [(k, tag, blk)] }
  if set'.length < liveWays s (.stk k) (stkSet blk) then s
  else match leaves (fun v => ntBlock s (.stk k) v.2.1 v.2.2) (fun _ => true) set' with
    | none => s
    | some v => evictBlock { s with lru := s.lru.filter fun e => e ≠ v } (.stk k) v.2.1 v.2.2

/-- A message uses the superblock at a stack that has it; a request, or words that come in, allocates it where it is not
on its way out. -/
def touchNode (s : State) (m : Msg) : State :=
  match m.dst with
  | .stk k =>
    let has := s.lru.contains (k, m.tag, m.line / 4)
    let brings := m.kind = .wbW || m.kind = .wbL || m.kind = .dataC
    if has || isRead m.kind || m.kind = .getW || (brings && !evictsAny s k fun b => b = m.line / 4) then touchStk s k m.tag m.line
    else s
  | _ => s

/-- A way of a stack whose superblock is there no more, and on its way to nobody, is free (R459). -/
def releaseWay (s : State) (k : Nat) (tag : AsidTag) (blk : Nat) : State :=
  let n : Node := .stk k
  let busy : Bool := (List.range 4).any fun i => holdsLine s n tag (4 * blk + i) ||
    s.txns.any fun t => t.node = n && t.msg.tag = tag && t.msg.line = 4 * blk + i
  if busy then s else { s with lru := s.lru.filter fun e => e ≠ (k, tag, blk) }

/-- A node makes room for what a message has brought it. -/
def trimNode (s : State) (m : Msg) : State :=
  match m.dst with
  | .l1 cl => if m.kind = .dataC then releaseStray (trimL1 s cl m.tag m.line) cl else s
  | .stk k => releaseWay (trimDir s (.stk k) m.tag m.line) k m.tag (m.line / 4)
  | .die d => trimDir (trimDie s d m.tag m.line) (.die d) m.tag m.line
  | n => trimDir s n m.tag m.line

/-- What comes to a fenced node is answered for it by the directory that sent it (R31, R273): its record is walked, and
what asked for an acknowledgement gets one. -/
def answerFenced (s : State) (m : Msg) : State :=
  let k := match m.dst with
    | .stk k => k
    | .die d => d / 4
    | _ => 0
  let walked : State := if nodeFenced s m.src then s else walkEntry s m.src k m.tag m.line m.dst
  match m.kind with
  | .fwdS | .fwdM | .drop | .backInv =>
    if nodeFenced s m.src then s
    else send walked (mkMsg (if m.kind = .fwdS then .dataD else .invAck) m.dst m.src m.tag m.line)
  | .dataC => walked
  | _ => s

/-- The meaning of every message row: the n-th message of the kind that may be handled is taken off the network and
handled; with no such message the event does not occur. -/
def deliver (s : State) (kind : MsgKind) (n : Nat) : State :=
  match readyMsg s kind n with
  | none => s
  | some (i, m) =>
    let s := { s with net := s.net.eraseIdx i }
    if nodeFenced s m.dst then answerFenced s m else trimNode (handleMsg (touchNode s m) m) m

/-- The first message, of any kind, that may be handled. -/
def firstReady (s : State) : Option MsgKind :=
  ((List.range s.net.length).findSome? fun i =>
    match s.net[i]? with
    | some m => if inOrder (s.nacked ++ s.net.take i) m && lineFree s m then some m.kind else none
    | none => none)

end Sys2Proof.Machine
end

