-- ==== Sys2Proof/WellFormed.lean ====
section
/-! DEFINITION. When an instruction term is well-formed: none of the encoding traps of R78 that its own fields
decide, in the two kinds that R79 orders, `unimplBad` (unimplemented opcode) before `illegalBad` (illegal encoding).
The cases that depend on the wave (its shape, its mode) are in Machine/Operands.lean. -/

namespace Sys2Proof

/-- The three kinds of register a field names (R60, R61). -/
inductive RegFile where
  | lane
  | group
  | pred
  deriving DecidableEq, Repr

/-- The registers `num` to `num + cnt - 1` that a field names. `own` marks a lane field whose codes 56-63 are no
broadcast codes: a lane-form destination (R60) or a matrix register operand (R308, R329). -/
structure RegUse where
  file : RegFile
  own : Bool
  num : Nat
  cnt : Nat
  align : Nat
  deriving DecidableEq, Repr

/-- The alignment of a register group of `cnt` registers (R230). -/
def groupAlign (cnt : Nat) : Nat := if cnt = 4 then 4 else if cnt = 2 then 2 else 1

/-- A source field under R60: a group register in the group form, else a lane register or a broadcast code. -/
def srcUse (u : Bool) (c : BitVec 6) (cnt : Nat) : RegUse :=
  if u then ⟨.group, false, c.toNat, cnt, groupAlign cnt⟩
  else if c.toNat < 56 then ⟨.lane, false, c.toNat, cnt, groupAlign cnt⟩
  else ⟨.group, false, c.toNat - 56, cnt, groupAlign cnt⟩

/-- A destination field under R60. -/
def dstUse (u : Bool) (c : BitVec 6) (cnt : Nat) : RegUse :=
  if u then ⟨.group, false, c.toNat, cnt, groupAlign cnt⟩ else ⟨.lane, true, c.toNat, cnt, groupAlign cnt⟩

/-- A field that names a predicate (R61). -/
def predUse (c : BitVec 6) : RegUse := ⟨.pred, false, c.toNat, 1, 1⟩

/-- A field that holds a group register number in every form (R140, R175). -/
def groupUse (c : BitVec 6) (cnt : Nat) : RegUse := ⟨.group, false, c.toNat, cnt, groupAlign cnt⟩

/-- Lane registers without alignment and without broadcast: a matrix register operand or row range. -/
def blockUse (c : BitVec 6) (cnt : Nat) : RegUse := ⟨.lane, true, c.toNat, cnt, 1⟩

/-- The registers that a `ld` or `ldl` SUB code moves (R230). -/
def loadRegs (sub : BitVec 4) : Nat := if sub = 5 then 2 else if sub = 6 then 4 else 1

/-- The registers that a `st` or `stl` SUB code moves (R230). -/
def storeRegs (sub : BitVec 4) : Nat := if sub = 3 then 2 else if sub = 4 then 4 else 1

/-- The registers of an atomic's operand (R236). -/
def atomRegs (sub : BitVec 4) : Nat := if 11 ≤ sub.toNat then 2 else 1

/-- The special-register indices of R145. -/
def sregListed (i : Nat) : Bool :=
  [0x00, 0x01, 0x02, 0x08, 0x09, 0x0A, 0x0C, 0x0D, 0x0E, 0x10, 0x11, 0x18, 0x19, 0x1A, 0x1B, 0x1C, 0x20, 0x28, 0x2A,
    0x30, 0x31, 0x32, 0x33, 0x34, 0x35, 0x38, 0x3A, 0x40, 0x41].contains i

/-- The 64-bit special registers of R145. -/
def sregWide (i : Nat) : Bool := [0x20, 0x28, 0x2A, 0x3A].contains i

def lRegs (f : LOps) : List RegUse := [dstUse f.u f.d 1, srcUse f.u f.a 1, srcUse f.u f.b 1]
def lRegs64 (f : LOps) : List RegUse := [dstUse f.u f.d 2, srcUse f.u f.a 2, srcUse f.u f.b 2]
def l2Regs (f : LOps2) : List RegUse := [dstUse f.u f.d 1, srcUse f.u f.a 1]
def iRegs (f : IOps) : List RegUse := [dstUse f.u f.d 1, srcUse f.u f.a 1]
def cmpRegs (f : LOps) : List RegUse := [predUse f.d, srcUse f.u f.a 1, srcUse f.u f.b 1]
def cmpiRegs (f : IOps) : List RegUse := [predUse f.d, srcUse f.u f.a 1]
def xiRegs (f : XIOps) : List RegUse := [dstUse false f.d 1, srcUse false f.a 1]
def alu64Regs (f : Alu64Ops) (ca cb : Nat) : List RegUse := [dstUse f.u f.d 2, srcUse f.u f.a ca, srcUse f.u f.b cb]
def ftrRegs (f : FtrOps) : List RegUse := [dstUse f.u f.d 1, srcUse f.u f.a 1]

/-- Every register field of an instruction, for a wave of the given width. -/
def regsOf (width : Nat) : Instr → List RegUse
  | .addI32 f | .subI32 f | .mulI32 f | .mulhiI32 f | .mulhiN32 f | .madI32 f | .addsI32 f | .subsI32 f | .addsN32 f
  | .minI32 f | .maxI32 f | .minN32 f | .maxN32 f | .sel f | .andL f | .orL f | .xorL f | .andn f | .shl f | .shrN f
  | .shrI f | .rotl f | .bfxN f | .bfxI f => lRegs f
  | .addi f | .shli f | .shriN f | .shriI f | .unpkF16 f | .unpkBf16 f => iRegs f
  | .absI32 f | .popc f | .clz f | .brev f => l2Regs f
  | .cmpEqI32 f | .cmpNeI32 f | .cmpLtI32 f | .cmpLeI32 f | .cmpLtN32 f | .cmpLeN32 f
  | .fcmpEqF32 f | .fcmpLtF32 f | .fcmpLeF32 f | .fcmpUnF32 f => cmpRegs f
  | .cmpiEq f | .cmpiLtI32 f | .cmpiLtN32 f => cmpiRegs f
  | .kop f => [predUse f.d, predUse f.a, predUse (zext 6 f.p)]
  | .kmovKV f => [predUse f.d, srcUse f.u f.a 1]
  | .kmovVK f => [dstUse f.u f.d 1, predUse f.a]
  | .kset f => [predUse f.d, groupUse f.a 2]
  | .faddF32 f | .fsubF32 f | .fmulF32 f | .ffmaF32 f | .fminF32 f | .fmaxF32 f | .faddF16x2 f | .fmulF16x2 f
  | .ffmaF16x2 f | .ffmaBf16x2 f | .fscaleF32 f | .packF16x2 f | .packBf16x2 f | .npq f | .npdq f => lRegs f
  | .faddF64 f | .fmulF64 f | .ffmaF64 f => lRegs64 f
  | .fnegF32 f | .fabsF32 f | .cvtF32I32 f | .cvtI32F32 f | .cvtF32N32 f | .cvtN32F32 f | .fclassF32 f => l2Regs f
  | .cvtF64F32 f => [dstUse f.u f.d 2, srcUse f.u f.a 1]
  | .cvtF32F64 f => [dstUse f.u f.d 1, srcUse f.u f.a 2]
  | .froundF32 f => [dstUse f.u f.d 1, srcUse f.u f.a 1]
  | .plane f | .unplane f | .shflx f | .shfld f => xiRegs f
  | .shfl f => [dstUse false f.d 1, srcUse false f.a 1, srcUse false f.b 1]
  | .vany f | .vall f => [predUse f.d, predUse f.a]
  | .ballot f => [groupUse f.d 2, predUse f.a]
  | .rdlane f | .rdx f => [groupUse f.d 1, srcUse false f.a 1]
  | .movi f => [dstUse f.u f.d 1]
  | .add64 f | .sub64 f | .min64N f | .max64N f => alu64Regs f 2 2
  | .lea f | .shl64 f | .shr64N f | .shr64I f => alu64Regs f 2 1
  | .mulwI f | .mulwN f => alu64Regs f 1 1
  | .frcp f | .frsq f | .fsqrt f | .fexp2 f | .flog2 f | .fsinpi f | .fcospi f | .ftanh f => ftrRegs f
  | .fdiv f => ftrRegs f ++ [srcUse f.u f.b 1]
  | .ld f => [dstUse f.u f.d (loadRegs f.sub), srcUse f.u f.a 2]
  | .st f => [srcUse f.u f.a 2, srcUse f.u f.b (storeRegs f.sub)]
  | .ldl f => [dstUse f.u f.d (loadRegs f.sub), srcUse f.u f.a 1]
  | .stl f => [srcUse f.u f.a 1, srcUse f.u f.b (storeRegs f.sub)]
  | .atom f => [dstUse f.u f.d (atomRegs f.sub), srcUse f.u f.a 2, srcUse f.u f.b (atomRegs f.sub)]
  | .atoml f => [dstUse false f.d (atomRegs f.sub), srcUse false f.a 1, srcUse false f.b (atomRegs f.sub)]
  | .lsctlFeSet f | .lsctlFeClr f | .lsctlMode f => [srcUse false f.a 1]
  | .lsctlInv f | .lsctlWb f | .lsctlPf f => [srcUse false f.a 2]
  | .cpG2l f | .cpL2g f | .cpL2gRed f | .cpL2l f | .cpG2g f | .cpPeerPut f | .cpPeerGet f | .cpG2lMc f =>
    [groupUse f.a 4, groupUse f.b 4]
  | .cpscale f => [groupUse f.a 2, groupUse f.b 1]
  | .tkq f | .tkqClr f | .mmstat f => [groupUse f.d 1]
  | .tkqAddr f => [groupUse f.d 2]
  | .mma f | .mmaJ f =>
    [srcUse false f.d 1, if f.asrc = 0 then blockUse f.a 1 else groupUse f.a 2,
      if f.bsrc = 0 then blockUse f.b 1 else groupUse f.b 2]
  | .mmrd f => [blockUse f.d (f.n.toNat * 32 / (width * if f.bf16 then 2 else 1))]
  | .mmwr f => [blockUse f.a (f.n.toNat * 32 / width)]
  | .mmcvtBf16 f => [groupUse f.a 2]
  | .mmcvtNp8 f => [groupUse f.a 2, groupUse f.b 1]
  | .spawn f => [srcUse false f.a 2, srcUse false f.b 1]
  | .tdone f | .launch f => [groupUse f.a 2]
  | .tbar f | .cbar f => [groupUse f.d 1]
  | .abar f => [groupUse f.d 1]
  | .sreg f => [dstUse f.u f.d (if sregWide f.idx.toNat then 2 else 1)]
  | .sset f => [srcUse f.u f.a 1]
  | .tlbopMap f => [dstUse false f.d 1, srcUse false f.a 2, srcUse false f.b 2]
  | .tlbopUnmap f => [dstUse false f.d 1, srcUse false f.a 2]
  | .tlbopInval f => [srcUse false f.a 2]
  | .tlbopRetire f => [srcUse false f.a 1]
  | .fpmodeLd f => [groupUse f.a 1]
  | _ => []

/-- The guard of an instruction (R63). -/
def guardOf : Instr → Option Guard
  | .addI32 f | .subI32 f | .mulI32 f | .mulhiI32 f | .mulhiN32 f | .madI32 f | .addsI32 f | .subsI32 f | .addsN32 f
  | .minI32 f | .maxI32 f | .minN32 f | .maxN32 f | .sel f | .andL f | .orL f | .xorL f | .andn f | .shl f | .shrN f
  | .shrI f | .rotl f | .bfxN f | .bfxI f
  | .cmpEqI32 f | .cmpNeI32 f | .cmpLtI32 f | .cmpLeI32 f | .cmpLtN32 f | .cmpLeN32 f
  | .fcmpEqF32 f | .fcmpLtF32 f | .fcmpLeF32 f | .fcmpUnF32 f
  | .faddF32 f | .fsubF32 f | .fmulF32 f | .ffmaF32 f | .fminF32 f | .fmaxF32 f | .faddF16x2 f | .fmulF16x2 f
  | .ffmaF16x2 f | .ffmaBf16x2 f | .faddF64 f | .fmulF64 f | .ffmaF64 f | .fscaleF32 f | .packF16x2 f | .packBf16x2 f
  | .npq f | .npdq f | .froundF32 f => some f.g
  | .absI32 f | .popc f | .clz f | .brev f | .fnegF32 f | .fabsF32 f | .cvtF32I32 f | .cvtI32F32 f | .cvtF32N32 f
  | .cvtN32F32 f | .cvtF64F32 f | .cvtF32F64 f | .fclassF32 f => some f.g
  | .addi f | .shli f | .shriN f | .shriI f | .cmpiEq f | .cmpiLtI32 f | .cmpiLtN32 f | .unpkF16 f | .unpkBf16 f =>
    some f.g
  | .kop f => some f.g
  | .kmovKV f | .kmovVK f => some f.g
  | .kset f | .vany f | .vall f | .ballot f => some f.g
  | .plane f | .unplane f | .shflx f | .shfld f | .rdlane f | .rdx f => some f.g
  | .shfl f => some f.g
  | .bra f | .gbra f | .setj f | .call f => some f.g
  | .join f | .ret f | .nop f | .exit f | .eret f | .eretSkip f | .eretKill f => some f.g
  | .jmpi f | .tdone f | .launch f | .tlbopRetire f | .fpmodeLd f => some f.g
  | .tkwait f => some f.g
  | .yieldN f => some f.g
  | .movi f => some f.g
  | .add64 f | .sub64 f | .lea f | .mulwI f | .mulwN f | .shl64 f | .shr64N f | .shr64I f | .min64N f | .max64N f =>
    some f.g
  | .frcp f | .frsq f | .fsqrt f | .fdiv f | .fexp2 f | .flog2 f | .fsinpi f | .fcospi f | .ftanh f => some f.g
  | .ld f => some f.g
  | .st f => some f.g
  | .ldl f => some f.g
  | .stl f => some f.g
  | .atom f => some f.g
  | .atoml f => some f.g
  | .fence f => some f.g
  | .xfence f => some f.g
  | .lsctlFeSet f | .lsctlFeClr f | .lsctlMode f | .lsctlInv f | .lsctlWb f | .lsctlPf f => some f.g
  | .cpG2l f | .cpL2g f | .cpL2gRed f | .cpL2l f | .cpG2g f | .cpPeerPut f | .cpPeerGet f | .cpG2lMc f => some f.g
  | .cpscale f => some f.g
  | .tkq f | .tkqClr f | .tkqAddr f | .mmstat f => some f.g
  | .mma f | .mmaJ f => some f.g
  | .mmrd f => some f.g
  | .mmwr f => some f.g
  | .mmwrZero f => some f.g
  | .mmcvtBf16 f | .mmcvtNp8 f => some f.g
  | .spawn f => some f.g
  | .tbar f | .cbar f => some f.g
  | .abar f => some f.g
  | .sreg f => some f.g
  | .sset f => some f.g
  | .trap f | .trapBkpt f => some f.g
  | .sigchk f => some f.g
  | .tlbopMap f => some f.g
  | .tlbopUnmap f | .tlbopInval f => some f.g
  | .fpmodeSet f | .fpmodeUpd f => some f.g
  | _ => none

/-- K = 12-14, or K = 15 with KS = 1 (R63). -/
def guardBad (g : Guard) : Bool := 12 ≤ g.k.toNat && !(g.k = 15 && !g.ks)

/-- The reductions and immediate fields of a copy that R282 marks 0 or gives a range. -/
def cpZeros (f : CpOps) : Bool := f.red = 0 && f.mc = 0 && f.kind = 0
def cpMulticastBad (f : CpOps) : Bool := f.red ≠ 0 || (if f.mc = 3 then 256 ≤ f.kind.toNat else f.kind ≠ 0)
def cpPortBad (f : CpOps) : Bool := f.red ≠ 0 || f.mc ≠ 0 || 8 ≤ f.kind.toNat

/-- `alu64` from SUB 3 on: Shift and IMM19 are 0 (R143). -/
def alu64Zeros (f : Alu64Ops) : Bool := f.sh = 0 && f.imm = 0

/-- The unimplemented-opcode cases of R78 that the instruction's own fields decide. -/
def unimplBad : Instr → Bool
  | .addI32 f | .subI32 f | .mulI32 f | .mulhiI32 f | .mulhiN32 f | .madI32 f | .addsI32 f | .subsI32 f | .addsN32 f
  | .minI32 f | .maxI32 f | .minN32 f | .maxN32 f | .sel f | .andL f | .orL f | .xorL f | .andn f | .shl f | .shrN f
  | .shrI f | .rotl f | .bfxN f | .bfxI f
  | .cmpEqI32 f | .cmpNeI32 f | .cmpLtI32 f | .cmpLeI32 f | .cmpLtN32 f | .cmpLeN32 f
  | .fcmpEqF32 f | .fcmpLtF32 f | .fcmpLeF32 f | .fcmpUnF32 f
  | .faddF32 f | .fsubF32 f | .fmulF32 f | .ffmaF32 f | .fminF32 f | .fmaxF32 f | .faddF16x2 f | .fmulF16x2 f
  | .ffmaF16x2 f | .ffmaBf16x2 f | .faddF64 f | .fmulF64 f | .ffmaF64 f | .fscaleF32 f | .packF16x2 f | .packBf16x2 f
  | .npq f | .npdq f => f.u && f.h
  | .froundF32 f => (f.u && f.h) || 5 ≤ f.b.toNat
  | .absI32 f | .popc f | .clz f | .brev f | .fnegF32 f | .fabsF32 f | .cvtF32I32 f | .cvtI32F32 f | .cvtF32N32 f
  | .cvtN32F32 f | .cvtF64F32 f | .cvtF32F64 f | .fclassF32 f => f.u && f.h
  | .shli f | .shriN f | .shriI f => 32 ≤ f.i.toNat
  | .unpkF16 f | .unpkBf16 f => 2 ≤ f.i.toNat
  | .plane f | .unplane f => 32 ≤ f.i.toNat
  | .rdx f => 8 ≤ f.i.toNat
  | .shflx f | .rdlane f => 64 ≤ f.i.toNat
  | .yieldN f => 64 ≤ f.n.toNat || f.n = 0
  | .add64 f | .sub64 f => (f.u && f.h) || f.sh ≠ 0
  | .lea f => f.u && f.h
  | .mulwI f | .mulwN f | .shl64 f | .shr64N f | .shr64I f | .min64N f | .max64N f => (f.u && f.h) || !alu64Zeros f
  | .frcp f | .frsq f | .fsqrt f | .fexp2 f | .flog2 f | .fsinpi f | .fcospi f | .ftanh f => (f.u && f.h) || f.b ≠ 0
  | .fdiv f => f.u && f.h
  | .ld f => (f.u && f.h) || 6 < f.sub.toNat || f.cl = 2 || f.cl = 3
  | .st f => 4 < f.sub.toNat || f.cl = 1 || f.cl = 3
  | .ldl f =>
    (f.u && f.h) || 6 < f.sub.toNat || f.fe = 3 || (2 ≤ f.sc.toNat && f.sc ≠ 7) || (2 ≤ f.cl.toNat && f.cl.toNat < 6)
  | .stl f =>
    4 < f.sub.toNat || f.fe = 3 || (2 ≤ f.sc.toNat && f.sc ≠ 7) || f.cl = 1 || (3 ≤ f.cl.toNat && f.cl.toNat < 6)
  | .atom f => (f.u && f.h) || 13 < f.sub.toNat || f.cl = 5
  | .atoml f => 13 < f.sub.toNat || (2 ≤ f.sc.toNat && f.sc ≠ 7) || f.cl = 4 || f.cl = 5
  | .fence f => f.cl = 0 || f.cl = 4 || f.cl = 5
  | .xfence f => f.fr = 0 || f.dst = 0
  | .lsctlMode f => f.b = 0 || 4 < f.b.toNat
  | .lsctlPf f => 3 < f.b.toNat
  | .lsctlFeSet f | .lsctlFeClr f | .lsctlInv f | .lsctlWb f => f.b ≠ 0
  | .cpG2l f | .cpL2g f | .cpG2g f => !cpZeros f
  | .cpL2gRed f => f.mc ≠ 0 || f.kind ≠ 0
  | .cpL2l f => cpMulticastBad f
  | .cpPeerPut f | .cpPeerGet f => cpPortBad f
  | .cpG2lMc f => f.mc = 0 || cpMulticastBad f
  | .mma f | .mmaJ f => 2 ≤ f.asrc.toNat || 2 ≤ f.bsrc.toNat
  | .mmrd f =>
    f.n = 0 || 32 ≤ f.row0.toNat || 32 < f.n.toNat || 32 < f.row0.toNat + f.n.toNat || (f.bf16 && f.n.toNat % 2 ≠ 0)
  | .mmwr f => f.n = 0 || 32 ≤ f.row0.toNat || 32 < f.n.toNat || 32 < f.row0.toNat + f.n.toNat
  | .mmcvtBf16 f => f.b ≠ 0
  | .sreg f => !sregListed f.idx.toNat || (f.u && f.idx = 0)
  | .sset f => !(f.idx = 0x31 || f.idx = 0x33)
  | .tlbopMap f => f.size = 3
  | .tlbopUnmap f => f.size = 3
  | .tlbopInval f => f.size = 3 || f.d ≠ 0
  | .fpmodeSet f => f.m ≠ 0
  | _ => false

/-- A register field that raises the illegal-encoding trap whatever the wave: a lane destination code 56-63, a
predicate above 11, a misaligned group (R60, R61, R231). -/
def regBad (r : RegUse) : Bool :=
  r.num % r.align ≠ 0 ||
  match r.file with
  | .lane => r.own && 56 ≤ r.num
  | .group => false
  | .pred => 12 ≤ r.num

/-- SC = 7, CL = 6 or 7 (R69). -/
def scopeBad (sc cl : BitVec 3) : Bool := sc = 7 || 6 ≤ cl.toNat

/-- The illegal-encoding cases of R78 that the instruction's own fields decide. -/
def illegalBad (i : Instr) : Bool :=
  (match guardOf i with
    | some g => guardBad g
    | none => false) ||
  (regsOf 32 i).any regBad ||
  match i with
  | .ld f => scopeBad f.sc f.cl
  | .st f => scopeBad f.sc f.cl
  | .ldl f => scopeBad f.sc f.cl
  | .stl f => scopeBad f.sc f.cl
  | .atom f => scopeBad f.sc f.cl
  | .atoml f => scopeBad f.sc f.cl
  | .fence f => scopeBad f.sc f.cl
  | .xfence f => scopeBad f.sc 0
  | _ => false

/-- The rows of the table that are instructions with words (R75, R77). -/
def isInstruction (i : Instr) : Bool :=
  (guardOf i).isSome ||
  match i with
  | .opcode7F _ _ => true
  | _ => false

/-- An instruction that has words and raises no encoding trap of its own fields. -/
def WellFormed (i : Instr) : Bool := isInstruction i && !unimplBad i && !illegalBad i

end Sys2Proof
end

