-- ==== Sys2Proof/Decode.lean ====
section
/-! DEFINITION. The decoder of R57, R67, R75 to R79, total on every pair of words, and the encoder beside it. -/

namespace Sys2Proof

/-- Word 0 in the L layout (R57); the J format's OFF19 is H, D, A and B joined. -/
structure LWord where
  op : BitVec 7
  u : Bool
  k : BitVec 4
  ks : Bool
  h : Bool
  d : BitVec 6
  a : BitVec 6
  b : BitVec 6
  deriving DecidableEq, Repr

/-- Word 0 in the I layout (R57). -/
structure IWord where
  op : BitVec 7
  u : Bool
  k : BitVec 4
  ks : Bool
  d : BitVec 6
  a : BitVec 6
  i : BitVec 7
  deriving DecidableEq, Repr

/-- Word 0 in the J layout (R57). -/
structure JWord where
  op : BitVec 7
  u : Bool
  k : BitVec 4
  ks : Bool
  off : BitVec 19
  deriving DecidableEq, Repr

/-- Word 1 in the memory layout (R67); the copy layout has its token, reduction and multicast in SC, CL and FE. -/
structure MWord where
  la : BitVec 4
  sub : BitVec 4
  sc : BitVec 3
  cl : BitVec 3
  fe : BitVec 2
  off : BitVec 16
  deriving DecidableEq, Repr

/-- Word 1 in the matrix layout (R67). -/
structure XWord where
  la : BitVec 4
  sub : BitVec 4
  tok : BitVec 3
  fol : Bool
  asrc : BitVec 2
  bsrc : BitVec 2
  tile : BitVec 6
  col : BitVec 6
  z : BitVec 4
  deriving DecidableEq, Repr

/-- Word 1 of `alu64` (R67). -/
structure AWord where
  z : BitVec 4
  sub : BitVec 4
  sh : BitVec 5
  imm : BitVec 19
  deriving DecidableEq, Repr

def lWordOf (w : Word) : LWord :=
  { op := field w 25 7, u := w.getLsbD 24, k := field w 20 4, ks := w.getLsbD 19, h := w.getLsbD 18,
    d := field w 12 6, a := field w 6 6, b := field w 0 6 }

def iWordOf (w : Word) : IWord :=
  { op := field w 25 7, u := w.getLsbD 24, k := field w 20 4, ks := w.getLsbD 19, d := field w 13 6, a := field w 7 6,
    i := field w 0 7 }

def jWordOf (w : Word) : JWord :=
  { op := field w 25 7, u := w.getLsbD 24, k := field w 20 4, ks := w.getLsbD 19, off := field w 0 19 }

def mWordOf (w : Word) : MWord :=
  { la := field w 28 4, sub := field w 24 4, sc := field w 21 3, cl := field w 18 3, fe := field w 16 2,
    off := field w 0 16 }

def xWordOf (w : Word) : XWord :=
  { la := field w 28 4, sub := field w 24 4, tok := field w 21 3, fol := w.getLsbD 20, asrc := field w 18 2,
    bsrc := field w 16 2, tile := field w 10 6, col := field w 4 6, z := field w 0 4 }

def aWordOf (w : Word) : AWord :=
  { z := field w 28 4, sub := field w 24 4, sh := field w 19 5, imm := field w 0 19 }

def lWord (f : LWord) : Word :=
  f.op ++ BitVec.ofBool f.u ++ f.k ++ BitVec.ofBool f.ks ++ BitVec.ofBool f.h ++ f.d ++ f.a ++ f.b

def iWord (f : IWord) : Word := f.op ++ BitVec.ofBool f.u ++ f.k ++ BitVec.ofBool f.ks ++ f.d ++ f.a ++ f.i

def jWord (f : JWord) : Word := f.op ++ BitVec.ofBool f.u ++ f.k ++ BitVec.ofBool f.ks ++ f.off

def mWord (f : MWord) : Word := f.la ++ f.sub ++ f.sc ++ f.cl ++ f.fe ++ f.off

def xWord (f : XWord) : Word :=
  f.la ++ f.sub ++ f.tok ++ BitVec.ofBool f.fol ++ f.asrc ++ f.bsrc ++ f.tile ++ f.col ++ f.z

def aWord (f : AWord) : Word := f.z ++ f.sub ++ f.sh ++ f.imm

/-- What parsing finds: the instruction, and whether a field that its entry does not use breaks R67 (`unimpl`) or
R65 (`illegal`). -/
structure Parsed where
  instr : Instr
  unimpl : Bool
  illegal : Bool
  deriving DecidableEq, Repr

/-- The guard of a word. -/
def lGuard (f : LWord) : Guard := ⟨f.k, f.ks⟩

def opsL (f : LWord) : LOps := ⟨f.u, lGuard f, f.h, f.d, f.a, f.b⟩
def opsI (f : IWord) : IOps := ⟨f.u, ⟨f.k, f.ks⟩, f.d, f.a, f.i⟩
def opsDA (f : LWord) : DAOps := ⟨lGuard f, f.d, f.a⟩

def parseL (c : LOps → Instr) (f : LWord) : Option Parsed := some ⟨c (opsL f), false, false⟩
def parseL2 (c : LOps2 → Instr) (f : LWord) : Option Parsed :=
  some ⟨c ⟨f.u, lGuard f, f.h, f.d, f.a⟩, f.b ≠ 0, false⟩
def parseI (c : IOps → Instr) (f : IWord) : Option Parsed := some ⟨c (opsI f), false, false⟩
def parseXI (c : XIOps → Instr) (f : IWord) : Option Parsed := some ⟨c ⟨⟨f.k, f.ks⟩, f.d, f.a, f.i⟩, false, f.u⟩
def parseDA (c : DAOps → Instr) (f : LWord) : Option Parsed := some ⟨c (opsDA f), f.h || f.b ≠ 0, f.u⟩
def parseJ (c : JOps → Instr) (f : JWord) (noU : Bool) : Option Parsed :=
  some ⟨c ⟨⟨f.k, f.ks⟩, f.off⟩, false, noU && f.u⟩
/-- Only a guard in word 0. -/
def parseG (i : Guard → Instr) (f : LWord) : Option Parsed :=
  some ⟨i (lGuard f), f.h || f.d ≠ 0 || f.a ≠ 0 || f.b ≠ 0, f.u⟩
/-- A guard and A in word 0. -/
def parseA (c : AOps → Instr) (f : LWord) : Option Parsed :=
  some ⟨c ⟨lGuard f, f.a⟩, f.h || f.d ≠ 0 || f.b ≠ 0, f.u⟩
/-- A guard and D in word 0. -/
def parseD (i : DOps → Instr) (f : LWord) : Option Parsed :=
  some ⟨i ⟨lGuard f, f.d⟩, f.h || f.a ≠ 0 || f.b ≠ 0, f.u⟩
/-- A further required-zero condition. -/
def andZero (p : Option Parsed) (bad : Bool) : Option Parsed :=
  p.map fun q => { q with unimpl := q.unimpl || bad }

def parseAlu64 (c : Alu64Ops → Instr) (f : LWord) (g : AWord) : Option Parsed :=
  some ⟨c ⟨f.u, lGuard f, f.h, f.d, f.a, f.b, g.sh, g.imm⟩, g.z ≠ 0, false⟩

def parseFtr (c : FtrOps → Instr) (f : LWord) (w1 : Word) : Option Parsed :=
  some ⟨c ⟨f.u, lGuard f, f.h, f.d, f.a, f.b, field w1 28 4⟩, field w1 0 24 ≠ 0, false⟩

def parseCp (c : CpOps → Instr) (f : LWord) (g : MWord) : Option Parsed :=
  some ⟨c ⟨lGuard f, f.a, f.b, g.sc, g.cl, g.fe, g.off⟩, f.h || f.d ≠ 0 || g.la ≠ 0, f.u⟩

def parseLsctl (c : LsctlOps → Instr) (f : LWord) (g : MWord) : Option Parsed :=
  some ⟨c ⟨lGuard f, f.a, f.b, g.off⟩, f.h || f.d ≠ 0 || g.la ≠ 0 || g.sc ≠ 0 || g.cl ≠ 0 || g.fe ≠ 0, f.u⟩

def parseTk (c : TkOps → Instr) (f : LWord) (g : MWord) : Option Parsed :=
  some ⟨c ⟨lGuard f, f.d, g.sc⟩,
    f.h || f.a ≠ 0 || f.b ≠ 0 || g.la ≠ 0 || g.cl ≠ 0 || g.fe ≠ 0 || g.off ≠ 0, f.u⟩

def parseMma (c : MmaOps → Instr) (f : LWord) (g : XWord) : Option Parsed :=
  some ⟨c ⟨lGuard f, f.d, f.a, f.b, g.la, g.tok, g.fol, g.asrc, g.bsrc, g.tile, g.col⟩, f.h || g.z ≠ 0, f.u⟩

/-- R332. U = 1 is an illegal encoding, as R65 and R78 say of every opcode without a group form, though R332 names U among the
fields of which a non-zero one is an unimplemented opcode (DESIGN CHOICE, log entry 134). -/
def parseMmcvt (c : MmcvtOps → Instr) (f : LWord) (g : XWord) : Option Parsed :=
  some ⟨c ⟨lGuard f, f.a, f.b, g.tok, g.tile⟩,
    f.h || f.d ≠ 0 || g.la ≠ 0 || g.fol || g.asrc ≠ 0 || g.bsrc ≠ 0 || g.col ≠ 0 || g.z ≠ 0, f.u⟩

/-- Opcode 0x7B to 0x7E and the like: the system layout's zero ranges (R67). -/
def sysZeros (g : MWord) : Bool := g.la ≠ 0 || g.sc ≠ 0 || g.cl ≠ 0 || g.fe ≠ 0

/-- Opcodes 0x00 to 0x4F (R75). -/
def parseLow (w0 : Word) (op : Nat) : Option Parsed :=
  let f := lWordOf w0
  let g := iWordOf w0
  match op with
  | 0x00 => parseL .addI32 f
  | 0x01 => parseL .subI32 f
  | 0x02 => parseI .addi g
  | 0x03 => parseL .mulI32 f
  | 0x04 => parseL .mulhiI32 f
  | 0x05 => parseL .mulhiN32 f
  | 0x06 => parseL .madI32 f
  | 0x07 => parseL .addsI32 f
  | 0x08 => parseL .subsI32 f
  | 0x09 => parseL .addsN32 f
  | 0x0A => parseL .minI32 f
  | 0x0B => parseL .maxI32 f
  | 0x0C => parseL .minN32 f
  | 0x0D => parseL .maxN32 f
  | 0x0E => parseL2 .absI32 f
  | 0x0F => parseL .sel f
  | 0x10 => parseL .andL f
  | 0x11 => parseL .orL f
  | 0x12 => parseL .xorL f
  | 0x13 => parseL .andn f
  | 0x14 => parseL .shl f
  | 0x15 => parseL .shrN f
  | 0x16 => parseL .shrI f
  | 0x17 => parseL .rotl f
  | 0x18 => parseI .shli g
  | 0x19 => parseI .shriN g
  | 0x1A => parseI .shriI g
  | 0x1B => parseL2 .popc f
  | 0x1C => parseL2 .clz f
  | 0x1D => parseL2 .brev f
  | 0x1E => parseL .bfxN f
  | 0x1F => parseL .bfxI f
  | 0x20 => parseL .cmpEqI32 f
  | 0x21 => parseL .cmpNeI32 f
  | 0x22 => parseL .cmpLtI32 f
  | 0x23 => parseL .cmpLeI32 f
  | 0x24 => parseL .cmpLtN32 f
  | 0x25 => parseL .cmpLeN32 f
  | 0x26 => parseI .cmpiEq g
  | 0x27 => parseI .cmpiLtI32 g
  | 0x28 => parseI .cmpiLtN32 g
  | 0x29 => parseL .fcmpEqF32 f
  | 0x2A => parseL .fcmpLtF32 f
  | 0x2B => parseL .fcmpLeF32 f
  | 0x2C => parseL .fcmpUnF32 f
  | 0x2D => some ⟨.kop ⟨f.u, lGuard f, f.d, f.a, field f.b 4 2, field f.b 0 4⟩, f.h, false⟩
  | 0x2E => if g.i = 0 then some ⟨.kmovKV ⟨g.u, ⟨g.k, g.ks⟩, g.d, g.a⟩, false, false⟩
            else if g.i = 1 then some ⟨.kmovVK ⟨g.u, ⟨g.k, g.ks⟩, g.d, g.a⟩, false, false⟩ else none
  | 0x2F => parseDA .kset f
  | 0x30 => parseL .faddF32 f
  | 0x31 => parseL .fsubF32 f
  | 0x32 => parseL .fmulF32 f
  | 0x33 => parseL .ffmaF32 f
  | 0x34 => parseL .fminF32 f
  | 0x35 => parseL .fmaxF32 f
  | 0x36 => parseL2 .fnegF32 f
  | 0x37 => parseL2 .fabsF32 f
  | 0x38 => parseL .faddF16x2 f
  | 0x39 => parseL .fmulF16x2 f
  | 0x3A => parseL .ffmaF16x2 f
  | 0x3B => parseL .ffmaBf16x2 f
  | 0x3C => parseL .faddF64 f
  | 0x3D => parseL .fmulF64 f
  | 0x3E => parseL .ffmaF64 f
  | 0x3F => parseL .fscaleF32 f
  | 0x40 => parseL2 .cvtF32I32 f
  | 0x41 => parseL2 .cvtI32F32 f
  | 0x42 => parseL2 .cvtF32N32 f
  | 0x43 => parseL2 .cvtN32F32 f
  | 0x44 => parseL .packF16x2 f
  | 0x45 => parseL .packBf16x2 f
  | 0x46 => parseI .unpkF16 g
  | 0x47 => parseI .unpkBf16 g
  | 0x48 => parseL2 .cvtF64F32 f
  | 0x49 => parseL2 .cvtF32F64 f
  | 0x4A => parseL .npq f
  | 0x4B => parseL .npdq f
  | 0x4C => parseXI .plane g
  | 0x4D => parseXI .unplane g
  | 0x4E => parseL .froundF32 f
  | 0x4F => parseL2 .fclassF32 f
  | _ => none

/-- Opcodes 0x50 to 0x5F (R75). -/
def parseControl (w0 : Word) (op : Nat) : Option Parsed :=
  let f := lWordOf w0
  let g := iWordOf w0
  let j := jWordOf w0
  match op with
  | 0x50 => some ⟨.shfl ⟨lGuard f, f.h, f.d, f.a, f.b⟩, f.u && f.h, f.u⟩
  | 0x51 => parseXI .shflx g
  | 0x52 => parseXI .shfld g
  | 0x53 => parseDA .vany f
  | 0x54 => parseDA .vall f
  | 0x55 => parseDA .ballot f
  | 0x56 => parseXI .rdlane g
  | 0x57 => parseXI .rdx g
  | 0x58 => if j.u then parseJ .gbra j false else parseJ .bra j false
  | 0x59 => parseJ .setj j true
  | 0x5A => parseG (fun x => .join ⟨x⟩) f
  | 0x5B => parseJ .call j true
  | 0x5C => parseG (fun x => .ret ⟨x⟩) f
  | 0x5D => parseA .jmpi f
  | 0x5E => some ⟨.tkwait ⟨lGuard f, BitVec.ofBool f.h ++ BitVec.ofBool (f.a.getLsbD 0) ++ f.b⟩,
              f.d ≠ 0 || field f.a 1 5 ≠ 0, f.u⟩
  | 0x5F => some ⟨if g.i = 0 then .nop ⟨⟨g.k, g.ks⟩⟩ else .yieldN ⟨⟨g.k, g.ks⟩, g.i⟩, g.d ≠ 0 || g.a ≠ 0, g.u⟩
  | _ => none

/-- Opcodes 0x60 to 0x6A (R75). -/
def parseMemory (w0 w1 : Word) (op : Nat) : Option Parsed :=
  let f := lWordOf w0
  let m := mWordOf w1
  let x := aWordOf w1
  match op with
  | 0x60 => some ⟨.movi ⟨f.u, lGuard f, f.d, w1⟩, f.h || f.a ≠ 0 || f.b ≠ 0, false⟩
  | 0x61 =>
    match x.sub.toNat with
    | 0 => parseAlu64 .add64 f x
    | 1 => parseAlu64 .sub64 f x
    | 2 => parseAlu64 .lea f x
    | 3 => parseAlu64 .mulwI f x
    | 4 => parseAlu64 .mulwN f x
    | 5 => parseAlu64 .shl64 f x
    | 6 => parseAlu64 .shr64N f x
    | 7 => parseAlu64 .shr64I f x
    | 8 => parseAlu64 .min64N f x
    | 9 => parseAlu64 .max64N f x
    | _ => none
  | 0x62 =>
    match m.sub.toNat with
    | 0 => parseFtr .frcp f w1
    | 1 => parseFtr .frsq f w1
    | 2 => parseFtr .fsqrt f w1
    | 3 => parseFtr .fdiv f w1
    | 4 => parseFtr .fexp2 f w1
    | 5 => parseFtr .flog2 f w1
    | 6 => parseFtr .fsinpi f w1
    | 7 => parseFtr .fcospi f w1
    | 8 => parseFtr .ftanh f w1
    | _ => none
  | 0x63 => some ⟨.ld ⟨f.u, lGuard f, f.h, f.d, f.a, m.la, m.sub, m.sc, m.cl, m.off⟩, f.b ≠ 0 || m.fe ≠ 0, false⟩
  | 0x64 => some ⟨.st ⟨f.u, lGuard f, f.a, f.b, m.sub, m.sc, m.cl, m.off⟩,
              f.h || f.d ≠ 0 || m.la ≠ 0 || m.fe ≠ 0, false⟩
  | 0x65 => some ⟨.ldl ⟨f.u, lGuard f, f.h, f.d, f.a, m.la, m.sub, m.sc, m.cl, m.fe, m.off⟩, f.b ≠ 0, false⟩
  | 0x66 => some ⟨.stl ⟨f.u, lGuard f, f.a, f.b, m.sub, m.sc, m.cl, m.fe, m.off⟩,
              f.h || f.d ≠ 0 || m.la ≠ 0, false⟩
  | 0x67 => some ⟨.atom ⟨f.u, lGuard f, f.h, f.d, f.a, f.b, m.la, m.sub, m.sc, m.cl, m.off⟩, m.fe ≠ 0, false⟩
  | 0x68 => some ⟨.atoml ⟨lGuard f, f.h, f.d, f.a, f.b, m.la, m.sub, m.sc, m.cl, m.off⟩,
              m.fe ≠ 0 || (f.u && f.h), f.u⟩
  | 0x69 =>
    let zeros := f.h || f.d ≠ 0 || f.a ≠ 0 || f.b ≠ 0 || m.la ≠ 0 || m.fe ≠ 0
    match m.sub.toNat with
    | 0 => some ⟨.fence ⟨lGuard f, m.sc, m.cl⟩, zeros || m.off ≠ 0, f.u⟩
    | 1 => some ⟨.xfence ⟨lGuard f, m.sc, field m.off 4 4, field m.off 0 4⟩,
             zeros || m.cl ≠ 0 || field m.off 8 8 ≠ 0, f.u⟩
    | _ => none
  | 0x6A =>
    match m.sub.toNat with
    | 0 => parseLsctl .lsctlFeSet f m
    | 1 => parseLsctl .lsctlFeClr f m
    | 2 => parseLsctl .lsctlMode f m
    | 3 => parseLsctl .lsctlInv f m
    | 4 => parseLsctl .lsctlWb f m
    | 5 => parseLsctl .lsctlPf f m
    | _ => none
  | _ => none

/-- Opcodes 0x6B to 0x72 (R75). -/
def parseEngine (w0 w1 : Word) (op : Nat) : Option Parsed :=
  let f := lWordOf w0
  let m := mWordOf w1
  let x := xWordOf w1
  match op with
  | 0x6B =>
    match m.sub.toNat with
    | 0 => parseCp .cpG2l f m
    | 1 => parseCp .cpL2g f m
    | 2 => parseCp .cpL2gRed f m
    | 3 => parseCp .cpL2l f m
    | 4 => parseCp .cpG2g f m
    | 5 => parseCp .cpPeerPut f m
    | 6 => parseCp .cpPeerGet f m
    | 7 => parseCp .cpG2lMc f m
    | _ => none
  | 0x6C =>
    if 2 ≤ m.sub.toNat then none
    else some ⟨.cpscale ⟨lGuard f, f.a, f.b, m.sc, m.sub = 1, field w1 8 6, w1.getLsbD 0⟩,
      f.h || f.d ≠ 0 || m.la ≠ 0 || field w1 14 7 ≠ 0 || field w1 1 7 ≠ 0, f.u⟩
  | 0x6D =>
    match m.sub.toNat with
    | 0 => parseTk .tkq f m
    | 1 => parseTk .tkqClr f m
    | 2 => parseTk .tkqAddr f m
    | _ => none
  | 0x6E =>
    match m.sub.toNat with
    | 0 => parseMma .mma f x
    | 1 => parseMma .mmaJ f x
    | _ => none
  | 0x6F =>
    if 2 ≤ m.sub.toNat then none
    else some ⟨.mmrd ⟨lGuard f, f.d, f.b, x.la, m.sub = 1, x.tile, x.col⟩,
      f.h || f.a ≠ 0 || x.tok ≠ 0 || x.fol || x.asrc ≠ 0 || x.bsrc ≠ 0 || x.z ≠ 0, f.u⟩
  | 0x70 =>
    let zeros := f.h || f.d ≠ 0 || x.la ≠ 0 || x.tok ≠ 0 || x.fol || x.asrc ≠ 0 || x.bsrc ≠ 0 || x.z ≠ 0
    match m.sub.toNat with
    | 0 => some ⟨.mmwr ⟨lGuard f, f.a, f.b, x.tile, x.col⟩, zeros, f.u⟩
    | 1 => some ⟨.mmwrZero ⟨lGuard f, x.tile⟩, zeros || f.a ≠ 0 || f.b ≠ 0 || x.col ≠ 0, f.u⟩
    | _ => none
  | 0x71 => if m.sub = 0 then parseTk .mmstat f m else none
  | 0x72 =>
    match m.sub.toNat with
    | 0 => parseMmcvt .mmcvtBf16 f x
    | 1 => parseMmcvt .mmcvtNp8 f x
    | _ => none
  | _ => none

/-- Opcodes 0x73 to 0x7F (R75, R77). -/
def parseSystem (w0 w1 : Word) (op : Nat) : Option Parsed :=
  let f := lWordOf w0
  let m := mWordOf w1
  let z := sysZeros m
  match op with
  | 0x73 => if m.sub = 0 then
      some ⟨.spawn ⟨lGuard f, f.a, f.b, field w1 0 8⟩, f.h || f.d ≠ 0 || z || field w1 8 8 ≠ 0, f.u⟩ else none
  | 0x74 => if m.sub = 0 then andZero (parseA .tdone f) (z || m.off ≠ 0) else none
  | 0x75 => if m.sub = 0 then andZero (parseA .launch f) (z || m.off ≠ 0) else none
  | 0x76 =>
    match m.sub.toNat with
    | 0 => andZero (parseD .tbar f) (z || m.off ≠ 0)
    | 1 => andZero (parseD (fun x => .abar ⟨x.g, x.d, field w1 0 8⟩) f) (z || field w1 8 8 ≠ 0)
    | 2 => andZero (parseD .cbar f) (z || m.off ≠ 0)
    | _ => none
  | 0x77 => if m.sub = 0 then andZero (parseG (fun x => .exit ⟨x⟩) f) (z || m.off ≠ 0) else none
  | 0x78 => if m.sub = 0 then
      some ⟨.sreg ⟨f.u, lGuard f, f.d, m.off⟩, f.h || f.a ≠ 0 || f.b ≠ 0 || z, false⟩ else none
  | 0x79 => if m.sub = 0 then
      some ⟨.sset ⟨f.u, lGuard f, f.a, m.off⟩, f.h || f.d ≠ 0 || f.b ≠ 0 || z, false⟩ else none
  | 0x7A =>
    match m.sub.toNat with
    | 0 => andZero (parseG (fun x => .trap ⟨x, field w1 0 8⟩) f) (z || field w1 8 8 ≠ 0)
    | 1 => andZero (parseG (fun x => .trapBkpt ⟨x, field w1 0 8⟩) f) (z || field w1 8 8 ≠ 0)
    | _ => none
  | 0x7B =>
    match m.sub.toNat with
    | 0 => andZero (parseG (fun x => .eret ⟨x⟩) f) (z || m.off ≠ 0)
    | 1 => andZero (parseG (fun x => .eretSkip ⟨x⟩) f) (z || m.off ≠ 0)
    | 2 => andZero (parseG (fun x => .eretKill ⟨x⟩) f) (z || m.off ≠ 0)
    | _ => none
  | 0x7C => parseG (fun x => .sigchk ⟨x, w1⟩) f
  | 0x7D =>
    let bad := f.u || f.h
    let uh := f.u && f.h
    match m.sub.toNat with
    | 0 => some ⟨.tlbopMap ⟨lGuard f, f.d, f.a, f.b, field w1 0 2, w1.getLsbD 2⟩, uh || z || field w1 3 13 ≠ 0, bad⟩
    | 1 => some ⟨.tlbopUnmap ⟨lGuard f, f.d, f.a, field w1 0 2⟩, uh || z || f.b ≠ 0 || field w1 2 14 ≠ 0, bad⟩
    | 2 => some ⟨.tlbopInval ⟨lGuard f, f.d, f.a, field w1 0 2⟩, uh || z || f.b ≠ 0 || field w1 2 14 ≠ 0, bad⟩
    | 3 => some ⟨.tlbopRetire ⟨lGuard f, f.a⟩, uh || z || f.d ≠ 0 || f.b ≠ 0 || m.off ≠ 0, bad⟩
    | _ => none
  | 0x7E =>
    match m.sub.toNat with
    | 0 => andZero (parseG (fun x => .fpmodeSet ⟨x, field w1 0 7, 0⟩) f) (z || field w1 7 9 ≠ 0)
    | 1 => andZero (parseA .fpmodeLd f) (z || m.off ≠ 0)
    | 2 => andZero (parseG (fun x => .fpmodeUpd ⟨x, field w1 0 7, field w1 8 7⟩) f)
             (z || w1.getLsbD 7 || w1.getLsbD 15)
    | _ => none
  | 0x7F => some ⟨.opcode7F (field w0 0 25) w1, false, false⟩
  | _ => none

/-- The opcode of a word (R57). -/
def opcodeOf (w0 : Word) : Nat := (field w0 25 7).toNat

/-- Two-word opcodes (R45). -/
def twoWord (w0 : Word) : Bool := 0x60 ≤ opcodeOf w0

/-- The instruction that a pair of words spells, with the unused fields' verdicts; none for a SUB value, or a
`kmov` direction, that no entry lists. -/
def parse (w0 w1 : Word) : Option Parsed :=
  let op := opcodeOf w0
  if op < 0x50 then parseLow w0 op
  else if op < 0x60 then parseControl w0 op
  else if op < 0x6B then parseMemory w0 w1 op
  else if op < 0x73 then parseEngine w0 w1 op
  else parseSystem w0 w1 op

/-- What the decoder answers: an instruction, or the trap that R79 names. An illegal encoding carries what was
spelled, since an unimplemented-opcode case that depends on the wave comes before it. -/
inductive Decoded where
  | ok (i : Instr)
  | unimplemented
  | illegal (i : Instr)
  deriving DecidableEq, Repr

/-- The checks of R79 that the words decide, in its order. -/
def judge (p : Parsed) : Decoded :=
  if p.unimpl || unimplBad p.instr then .unimplemented
  else if p.illegal || illegalBad p.instr then .illegal p.instr
  else .ok p.instr

/-- The decoder. For a single-word opcode `w1` plays no part. -/
def decode (w0 w1 : Word) : Decoded :=
  match parse w0 w1 with
  | none => .unimplemented
  | some p => judge p

/-! The encoder. -/

def encL (op : BitVec 7) (f : LOps) : Word := lWord ⟨op, f.u, f.g.k, f.g.ks, f.h, f.d, f.a, f.b⟩
def encL2 (op : BitVec 7) (f : LOps2) : Word := lWord ⟨op, f.u, f.g.k, f.g.ks, f.h, f.d, f.a, 0⟩
def encI (op : BitVec 7) (f : IOps) : Word := iWord ⟨op, f.u, f.g.k, f.g.ks, f.d, f.a, f.i⟩
def encXI (op : BitVec 7) (f : XIOps) : Word := iWord ⟨op, false, f.g.k, f.g.ks, f.d, f.a, f.i⟩
def encDA (op : BitVec 7) (f : DAOps) : Word := lWord ⟨op, false, f.g.k, f.g.ks, false, f.d, f.a, 0⟩
def encJ (op : BitVec 7) (u : Bool) (f : JOps) : Word := jWord ⟨op, u, f.g.k, f.g.ks, f.off⟩
def encLane (op : BitVec 7) (g : Guard) (h : Bool) (d a b : BitVec 6) : Word := lWord ⟨op, false, g.k, g.ks, h, d, a, b⟩
def encAlu64 (sub : BitVec 4) (f : Alu64Ops) : List Word :=
  [lWord ⟨0x61, f.u, f.g.k, f.g.ks, f.h, f.d, f.a, f.b⟩, aWord ⟨0, sub, f.sh, f.imm⟩]
def encFtr (sub : BitVec 4) (f : FtrOps) : List Word :=
  [lWord ⟨0x62, f.u, f.g.k, f.g.ks, f.h, f.d, f.a, f.b⟩, mWord ⟨f.la, sub, 0, 0, 0, 0⟩]
def encLsctl (sub : BitVec 4) (f : LsctlOps) : List Word :=
  [encLane 0x6A f.g false 0 f.a f.b, mWord ⟨0, sub, 0, 0, 0, f.off⟩]
def encCp (sub : BitVec 4) (f : CpOps) : List Word :=
  [encLane 0x6B f.g false 0 f.a f.b, mWord ⟨0, sub, f.tok, f.red, f.mc, f.kind⟩]
def encTk (op : BitVec 7) (sub : BitVec 4) (f : TkOps) : List Word :=
  [encLane op f.g false f.d 0 0, mWord ⟨0, sub, f.tok, 0, 0, 0⟩]
def encMma (sub : BitVec 4) (f : MmaOps) : List Word :=
  [encLane 0x6E f.g false f.d f.a f.b, xWord ⟨f.la, sub, f.tok, f.fol, f.asrc, f.bsrc, f.tile, f.col, 0⟩]
def encMmcvt (sub : BitVec 4) (f : MmcvtOps) : List Word :=
  [encLane 0x72 f.g false 0 f.a f.b, xWord ⟨0, sub, f.tok, false, 0, 0, f.tile, 0, 0⟩]
/-- The system layout: word 1 holds SUB and a 16-bit index. -/
def encSys (op : BitVec 7) (g : Guard) (d a b : BitVec 6) (sub : BitVec 4) (idx : BitVec 16) : List Word :=
  [encLane op g false d a b, mWord ⟨0, sub, 0, 0, 0, idx⟩]

/-- The words of a well-formed instruction, first word first; the rows that are no instructions have none. -/
def encode : Instr → List Word
  | .addI32 f => [encL 0x00 f]
  | .subI32 f => [encL 0x01 f]
  | .addi f => [encI 0x02 f]
  | .mulI32 f => [encL 0x03 f]
  | .mulhiI32 f => [encL 0x04 f]
  | .mulhiN32 f => [encL 0x05 f]
  | .madI32 f => [encL 0x06 f]
  | .addsI32 f => [encL 0x07 f]
  | .subsI32 f => [encL 0x08 f]
  | .addsN32 f => [encL 0x09 f]
  | .minI32 f => [encL 0x0A f]
  | .maxI32 f => [encL 0x0B f]
  | .minN32 f => [encL 0x0C f]
  | .maxN32 f => [encL 0x0D f]
  | .absI32 f => [encL2 0x0E f]
  | .sel f => [encL 0x0F f]
  | .andL f => [encL 0x10 f]
  | .orL f => [encL 0x11 f]
  | .xorL f => [encL 0x12 f]
  | .andn f => [encL 0x13 f]
  | .shl f => [encL 0x14 f]
  | .shrN f => [encL 0x15 f]
  | .shrI f => [encL 0x16 f]
  | .rotl f => [encL 0x17 f]
  | .shli f => [encI 0x18 f]
  | .shriN f => [encI 0x19 f]
  | .shriI f => [encI 0x1A f]
  | .popc f => [encL2 0x1B f]
  | .clz f => [encL2 0x1C f]
  | .brev f => [encL2 0x1D f]
  | .bfxN f => [encL 0x1E f]
  | .bfxI f => [encL 0x1F f]
  | .cmpEqI32 f => [encL 0x20 f]
  | .cmpNeI32 f => [encL 0x21 f]
  | .cmpLtI32 f => [encL 0x22 f]
  | .cmpLeI32 f => [encL 0x23 f]
  | .cmpLtN32 f => [encL 0x24 f]
  | .cmpLeN32 f => [encL 0x25 f]
  | .cmpiEq f => [encI 0x26 f]
  | .cmpiLtI32 f => [encI 0x27 f]
  | .cmpiLtN32 f => [encI 0x28 f]
  | .fcmpEqF32 f => [encL 0x29 f]
  | .fcmpLtF32 f => [encL 0x2A f]
  | .fcmpLeF32 f => [encL 0x2B f]
  | .fcmpUnF32 f => [encL 0x2C f]
  | .kop f => [lWord ⟨0x2D, f.u, f.g.k, f.g.ks, false, f.d, f.a, f.f ++ f.p⟩]
  | .kmovKV f => [iWord ⟨0x2E, f.u, f.g.k, f.g.ks, f.d, f.a, 0⟩]
  | .kmovVK f => [iWord ⟨0x2E, f.u, f.g.k, f.g.ks, f.d, f.a, 1⟩]
  | .kset f => [encDA 0x2F f]
  | .faddF32 f => [encL 0x30 f]
  | .fsubF32 f => [encL 0x31 f]
  | .fmulF32 f => [encL 0x32 f]
  | .ffmaF32 f => [encL 0x33 f]
  | .fminF32 f => [encL 0x34 f]
  | .fmaxF32 f => [encL 0x35 f]
  | .fnegF32 f => [encL2 0x36 f]
  | .fabsF32 f => [encL2 0x37 f]
  | .faddF16x2 f => [encL 0x38 f]
  | .fmulF16x2 f => [encL 0x39 f]
  | .ffmaF16x2 f => [encL 0x3A f]
  | .ffmaBf16x2 f => [encL 0x3B f]
  | .faddF64 f => [encL 0x3C f]
  | .fmulF64 f => [encL 0x3D f]
  | .ffmaF64 f => [encL 0x3E f]
  | .fscaleF32 f => [encL 0x3F f]
  | .cvtF32I32 f => [encL2 0x40 f]
  | .cvtI32F32 f => [encL2 0x41 f]
  | .cvtF32N32 f => [encL2 0x42 f]
  | .cvtN32F32 f => [encL2 0x43 f]
  | .packF16x2 f => [encL 0x44 f]
  | .packBf16x2 f => [encL 0x45 f]
  | .unpkF16 f => [encI 0x46 f]
  | .unpkBf16 f => [encI 0x47 f]
  | .cvtF64F32 f => [encL2 0x48 f]
  | .cvtF32F64 f => [encL2 0x49 f]
  | .npq f => [encL 0x4A f]
  | .npdq f => [encL 0x4B f]
  | .plane f => [encXI 0x4C f]
  | .unplane f => [encXI 0x4D f]
  | .froundF32 f => [encL 0x4E f]
  | .fclassF32 f => [encL2 0x4F f]
  | .shfl f => [encLane 0x50 f.g f.h f.d f.a f.b]
  | .shflx f => [encXI 0x51 f]
  | .shfld f => [encXI 0x52 f]
  | .vany f => [encDA 0x53 f]
  | .vall f => [encDA 0x54 f]
  | .ballot f => [encDA 0x55 f]
  | .rdlane f => [encXI 0x56 f]
  | .rdx f => [encXI 0x57 f]
  | .bra f => [encJ 0x58 false f]
  | .gbra f => [encJ 0x58 true f]
  | .setj f => [encJ 0x59 false f]
  | .join f => [encLane 0x5A f.g false 0 0 0]
  | .call f => [encJ 0x5B false f]
  | .ret f => [encLane 0x5C f.g false 0 0 0]
  | .jmpi f => [encLane 0x5D f.g false 0 f.a 0]
  | .tkwait f => [encLane 0x5E f.g (f.mask.getLsbD 7) 0 ((0 : BitVec 5) ++ BitVec.ofBool (f.mask.getLsbD 6))
      (field f.mask 0 6)]
  | .nop f => [iWord ⟨0x5F, false, f.g.k, f.g.ks, 0, 0, 0⟩]
  | .yieldN f => [iWord ⟨0x5F, false, f.g.k, f.g.ks, 0, 0, f.n⟩]
  | .movi f => [lWord ⟨0x60, f.u, f.g.k, f.g.ks, false, f.d, 0, 0⟩, f.imm]
  | .add64 f => encAlu64 0 f
  | .sub64 f => encAlu64 1 f
  | .lea f => encAlu64 2 f
  | .mulwI f => encAlu64 3 f
  | .mulwN f => encAlu64 4 f
  | .shl64 f => encAlu64 5 f
  | .shr64N f => encAlu64 6 f
  | .shr64I f => encAlu64 7 f
  | .min64N f => encAlu64 8 f
  | .max64N f => encAlu64 9 f
  | .frcp f => encFtr 0 f
  | .frsq f => encFtr 1 f
  | .fsqrt f => encFtr 2 f
  | .fdiv f => encFtr 3 f
  | .fexp2 f => encFtr 4 f
  | .flog2 f => encFtr 5 f
  | .fsinpi f => encFtr 6 f
  | .fcospi f => encFtr 7 f
  | .ftanh f => encFtr 8 f
  | .ld f => [lWord ⟨0x63, f.u, f.g.k, f.g.ks, f.h, f.d, f.a, 0⟩, mWord ⟨f.la, f.sub, f.sc, f.cl, 0, f.off⟩]
  | .st f => [lWord ⟨0x64, f.u, f.g.k, f.g.ks, false, 0, f.a, f.b⟩, mWord ⟨0, f.sub, f.sc, f.cl, 0, f.off⟩]
  | .ldl f => [lWord ⟨0x65, f.u, f.g.k, f.g.ks, f.h, f.d, f.a, 0⟩, mWord ⟨f.la, f.sub, f.sc, f.cl, f.fe, f.off⟩]
  | .stl f => [lWord ⟨0x66, f.u, f.g.k, f.g.ks, false, 0, f.a, f.b⟩, mWord ⟨0, f.sub, f.sc, f.cl, f.fe, f.off⟩]
  | .atom f => [lWord ⟨0x67, f.u, f.g.k, f.g.ks, f.h, f.d, f.a, f.b⟩, mWord ⟨f.la, f.sub, f.sc, f.cl, 0, f.off⟩]
  | .atoml f => [encLane 0x68 f.g f.h f.d f.a f.b, mWord ⟨f.la, f.sub, f.sc, f.cl, 0, f.off⟩]
  | .fence f => [encLane 0x69 f.g false 0 0 0, mWord ⟨0, 0, f.sc, f.cl, 0, 0⟩]
  | .xfence f => [encLane 0x69 f.g false 0 0 0, mWord ⟨0, 1, f.sc, 0, 0, (0 : BitVec 8) ++ f.fr ++ f.dst⟩]
  | .lsctlFeSet f => encLsctl 0 f
  | .lsctlFeClr f => encLsctl 1 f
  | .lsctlMode f => encLsctl 2 f
  | .lsctlInv f => encLsctl 3 f
  | .lsctlWb f => encLsctl 4 f
  | .lsctlPf f => encLsctl 5 f
  | .cpG2l f => encCp 0 f
  | .cpL2g f => encCp 1 f
  | .cpL2gRed f => encCp 2 f
  | .cpL2l f => encCp 3 f
  | .cpG2g f => encCp 4 f
  | .cpPeerPut f => encCp 5 f
  | .cpPeerGet f => encCp 6 f
  | .cpG2lMc f => encCp 7 f
  | .cpscale f => [encLane 0x6C f.g false 0 f.a f.b,
      mWord ⟨0, if f.column then 1 else 0, f.tok, 0, 0, (0 : BitVec 2) ++ f.col ++ (0 : BitVec 7) ++ BitVec.ofBool f.loc⟩]
  | .tkq f => encTk 0x6D 0 f
  | .tkqClr f => encTk 0x6D 1 f
  | .tkqAddr f => encTk 0x6D 2 f
  | .mma f => encMma 0 f
  | .mmaJ f => encMma 1 f
  | .mmrd f => [encLane 0x6F f.g false f.d 0 f.n,
      xWord ⟨f.la, if f.bf16 then 1 else 0, 0, false, 0, 0, f.tile, f.row0, 0⟩]
  | .mmwr f => [encLane 0x70 f.g false 0 f.a f.n, xWord ⟨0, 0, 0, false, 0, 0, f.tile, f.row0, 0⟩]
  | .mmwrZero f => [encLane 0x70 f.g false 0 0 0, xWord ⟨0, 1, 0, false, 0, 0, f.tile, 0, 0⟩]
  | .mmstat f => encTk 0x71 0 f
  | .mmcvtBf16 f => encMmcvt 0 f
  | .mmcvtNp8 f => encMmcvt 1 f
  | .spawn f => encSys 0x73 f.g 0 f.a f.b 0 ((0 : BitVec 8) ++ f.entry)
  | .tdone f => encSys 0x74 f.g 0 f.a 0 0 0
  | .launch f => encSys 0x75 f.g 0 f.a 0 0 0
  | .tbar f => encSys 0x76 f.g f.d 0 0 0 0
  | .abar f => encSys 0x76 f.g f.d 0 0 1 ((0 : BitVec 8) ++ f.idx)
  | .cbar f => encSys 0x76 f.g f.d 0 0 2 0
  | .exit f => encSys 0x77 f.g 0 0 0 0 0
  | .sreg f => [lWord ⟨0x78, f.u, f.g.k, f.g.ks, false, f.d, 0, 0⟩, mWord ⟨0, 0, 0, 0, 0, f.idx⟩]
  | .sset f => [lWord ⟨0x79, f.u, f.g.k, f.g.ks, false, 0, f.a, 0⟩, mWord ⟨0, 0, 0, 0, 0, f.idx⟩]
  | .trap f => encSys 0x7A f.g 0 0 0 0 ((0 : BitVec 8) ++ f.n)
  | .trapBkpt f => encSys 0x7A f.g 0 0 0 1 ((0 : BitVec 8) ++ f.n)
  | .eret f => encSys 0x7B f.g 0 0 0 0 0
  | .eretSkip f => encSys 0x7B f.g 0 0 0 1 0
  | .eretKill f => encSys 0x7B f.g 0 0 0 2 0
  | .sigchk f => [encLane 0x7C f.g false 0 0 0, f.imm]
  | .tlbopMap f => encSys 0x7D f.g f.d f.a f.b 0 ((0 : BitVec 13) ++ BitVec.ofBool f.repl ++ f.size)
  | .tlbopUnmap f => encSys 0x7D f.g f.d f.a 0 1 ((0 : BitVec 14) ++ f.size)
  | .tlbopInval f => encSys 0x7D f.g f.d f.a 0 2 ((0 : BitVec 14) ++ f.size)
  | .tlbopRetire f => encSys 0x7D f.g 0 f.a 0 3 0
  | .fpmodeSet f => encSys 0x7E f.g 0 0 0 0 ((0 : BitVec 9) ++ f.v)
  | .fpmodeLd f => encSys 0x7E f.g 0 f.a 0 1 0
  | .fpmodeUpd f => encSys 0x7E f.g 0 0 0 2 ((0 : BitVec 1) ++ f.m ++ (0 : BitVec 1) ++ f.v)
  | .opcode7F lo w1 => [(0x7F : BitVec 7) ++ lo, w1]
  | _ => []

/-- Decoding a list of words that begins with an instruction. -/
def decodeWords : List Word → Option Decoded
  | [] => none
  | w0 :: rest => some (decode w0 (rest.headD 0))

/-- The instruction that the opcode table's word spells: its first word is bits 31:0, its second bits 63:32, and every
bit above `nbits` is 0. -/
def decodeTableWord (nbits w : Nat) : Option Instr :=
  let v := w % 2 ^ nbits
  match decode (BitVec.ofNat 32 v) (BitVec.ofNat 32 (v / 2 ^ 32)) with
  | .ok i => some i
  | _ => none

end Sys2Proof
end

