-- ==== Sys2Proof/Machine/Flags.lean ====
section
/-! DEFINITION. Predicates: guards and `act` (R7, R63, R64), reading and writing k0-k11 and gk0-gk11 (R61, R123), and the
comparisons that write them (R136). -/

namespace Sys2Proof.Machine

/-- kN as a lane mask. -/
def predReg (x : Wave) (n : Nat) : LaneMask := x.k.getD n 0

/-- gkN. -/
def groupPred (x : Wave) (n : Nat) : Bool := x.gk.getD n false

/-- The lanes in which a lane guard holds (R63). -/
def laneGuard (x : Wave) (g : Guard) : LaneMask :=
  if g.k = 15 then BitVec.allOnes 64
  else if g.ks then ~~~predReg x g.k.toNat else predReg x g.k.toNat

/-- Whether a group guard is true (R63). -/
def groupGuard (x : Wave) (g : Guard) : Bool := g.k = 15 || (groupPred x g.k.toNat != g.ks)

/-- The lanes that a slot can act for: alive and in its mask (R7), or what `eret` has fixed for one issue (R388). -/
def baseAct (x : Wave) (sl : Slot) : LaneMask :=
  match sl.act with
  | some m => m &&& x.alive
  | none => sl.m &&& x.alive

/-- `act` of a lane form: the guard enters lane by lane; a mask that `eret` fixed has met its guard already. -/
def laneAct (x : Wave) (sl : Slot) (g : Guard) : LaneMask :=
  match sl.act with
  | some m => m &&& x.alive
  | none => sl.m &&& x.alive &&& laneGuard x g

/-- `act` of a group form: all of the slot's lanes when its guard is true, else none. -/
def groupAct (x : Wave) (sl : Slot) (g : Guard) : LaneMask :=
  match sl.act with
  | some m => m &&& x.alive
  | none => if groupGuard x g then sl.m &&& x.alive else 0

/-- Writing a predicate in the lanes of a mask (R123). -/
def setPred (x : Wave) (n : Nat) (lanes v : LaneMask) : Wave :=
  { x with k := x.k.set n ((predReg x n &&& ~~~lanes) ||| (v &&& lanes)) }

/-- Writing a group predicate. -/
def setGroupPred (x : Wave) (n : Nat) (v : Bool) : Wave := { x with gk := x.gk.set n v }

/-! The comparisons of R136. -/

def cmpEq (a b : Word) : Bool := a == b
def cmpNe (a b : Word) : Bool := a != b
def cmpLtI (a b : Word) : Bool := a.slt b
def cmpLeI (a b : Word) : Bool := a.sle b
def cmpLtN (a b : Word) : Bool := a.ult b
def cmpLeN (a b : Word) : Bool := a.ule b

end Sys2Proof.Machine
end

