-- ==== Sys2Proof/Machine/Operands.lean ====
section
/-! DEFINITION. Operands: what an issuing instruction sees of its wave (R60, R124), the encoding checks that depend on
the wave's shape and mode (R62, R78, R79, R384, R385), and the poison its register reads meet (R425, R426). -/

namespace Sys2Proof.Machine

/-- What an issuing instruction acts on: its slot, the words of the instruction, its wave, slot, team and launch as they
stand at issue, and `act`. -/
structure Ctx where
  r : SlotRef
  i : Instr
  words : List Word
  x : Wave
  sl : Slot
  t : Team
  la : Launch
  act : LaneMask
  deriving DecidableEq, Repr

def Ctx.w (c : Ctx) : Nat := c.r.wave
def Ctx.cl (c : Ctx) : Nat := clusterOf c.r.wave
def Ctx.core (c : Ctx) : Nat := coreOf c.r.wave
def Ctx.tag (c : Ctx) : AsidTag := c.t.tag
def Ctx.lanes (c : Ctx) : List Nat := lanesOf c.act
def Ctx.interlocked (c : Ctx) : Bool := c.la.ker.ilk
/-- The address of the instruction's clause header (R59, R383). -/
def Ctx.header (c : Ctx) : BitVec 56 := c.sl.pc - BitVec.ofNat 56 (4 * c.sl.woff)
/-- The address of the next instruction word in fall-through order. -/
def Ctx.next (c : Ctx) : BitVec 56 := c.sl.pc + BitVec.ofNat 56 (4 * c.words.length)

/-! Reads. -/

/-- The values that results under lookahead will write to a register (R72). -/
def pendingWrites (x : Wave) (t : Bool × Nat × Nat) : List Word :=
  x.landings.flatMap fun e => e.writes.filterMap fun r =>
    if e.sup = x.super && r.target = t then some (match r with
      | .lane _ _ v => v
      | .group _ v => v) else none

/-- Inside a lookahead window a read is the old value or a pending one, whole; the choice is free (R72). -/
def windowPick (s : State) (salt : Nat) (old : Word) (news : List Word) : Word :=
  match news with
  | [] => old
  | _ => (old :: news).getD (Config.windowChoice s.clock.toNat salt % (news.length + 1)) old

/-- vN of lane l as an instruction reads it. -/
def readLane (s : State) (w : Nat) (x : Wave) (n l : Nat) : Word :=
  windowPick s (64 * n + l) (laneReg s w x n l) (pendingWrites x (false, n, l))

/-- gN as an instruction reads it. -/
def readGroup (s : State) (x : Wave) (n : Nat) : Word :=
  windowPick s (2 ^ 12 + n) (groupReg x n) (pendingWrites x (true, n, 0))

/-- A pair of group registers. -/
def readGroupPair (s : State) (x : Wave) (n : Nat) : DWord := pairOf (readGroup s x n) (readGroup s x (n + 1))

/-- The latch entry that a field code of a slot reads (R127). -/
def latchFor (s : State) (r : SlotRef) (code : Nat) : Option Latch :=
  s.latches.find? fun e => e.slot = r && e.code = code && e.left ≠ 0

/-- What an entry holds of the register `j` after the one that its field code names (R127). -/
def heldWord (e : Latch) (j l : Nat) : Option Word :=
  match j with
  | 0 => some (e.vals.getD l 0)
  | 1 => if e.high.isEmpty then none else some (e.high.getD l 0)
  | _ => none

/-- What the entry that a field code of a slot reads holds of that register. -/
def latched (s : State) (r : SlotRef) (code j l : Nat) : Option Word :=
  (latchFor s r code).bind fun e => heldWord e j l

/-- The register `j` after the one a lane-form source field names, in lane l (R60, R124, R127). -/
def srcLaneAt (s : State) (c : Ctx) (code : BitVec 6) (j l : Nat) : Word :=
  match latched s c.r code.toNat j l with
  | some v => v
  | none =>
    if code.toNat < 56 then readLane s c.w c.x (code.toNat + j) l else readGroup s c.x (code.toNat + j - 56)

/-- A lane-form source field in lane l. -/
def srcLane (s : State) (c : Ctx) (code : BitVec 6) (l : Nat) : Word := srcLaneAt s c code 0 l

/-- A source of either form, `l` the lane in the lane form. -/
def src (s : State) (c : Ctx) (u : Bool) (code : BitVec 6) (l : Nat) : Word :=
  if u then readGroup s c.x code.toNat else srcLane s c code l

def srcAt (s : State) (c : Ctx) (u : Bool) (code : BitVec 6) (j l : Nat) : Word :=
  if u then readGroup s c.x (code.toNat + j) else srcLaneAt s c code j l

/-- A pair. -/
def srcPair (s : State) (c : Ctx) (u : Bool) (code : BitVec 6) (l : Nat) : DWord :=
  pairOf (src s c u code l) (srcAt s c u code 1 l)

/-- The old value of the register `j` after the one a destination names (R131 `mad.i32`, and the fused multiply-adds): the
lane code is the register itself. -/
def srcDestAt (s : State) (c : Ctx) (u : Bool) (code : BitVec 6) (j l : Nat) : Word :=
  if u then readGroup s c.x (code.toNat + j)
  else match latched s c.r code.toNat j l with
    | some v => v
    | none => readLane s c.w c.x (code.toNat + j) l

/-- The old value of a destination. -/
def srcDest (s : State) (c : Ctx) (u : Bool) (code : BitVec 6) (l : Nat) : Word := srcDestAt s c u code 0 l

/-- The old value of a destination pair. -/
def destPair (s : State) (c : Ctx) (u : Bool) (code : BitVec 6) (l : Nat) : DWord :=
  pairOf (srcDest s c u code l) (srcDestAt s c u code 1 l)

/-- `cnt` registers as one number, the first register lowest. -/
def srcNat (s : State) (c : Ctx) (u : Bool) (code : BitVec 6) (l : Nat) (j : Nat) : Nat → Nat
  | 0 => 0
  | n + 1 => (srcAt s c u code j l).toNat + 2 ^ 32 * srcNat s c u code l (j + 1) n

/-- The lanes a form computes for: the lanes of `act`, or the one lane 0 when a group form acts. -/
def Ctx.formLanes (c : Ctx) (u : Bool) : List Nat := if u then (if c.act = 0 then [] else [0]) else c.lanes

/-! The group form, and `act`. -/

/-- The group form: U = 1, and `gbra` (R65). -/
def groupForm : Instr → Bool
  | .addI32 f | .subI32 f | .mulI32 f | .mulhiI32 f | .mulhiN32 f | .madI32 f | .addsI32 f | .subsI32 f | .addsN32 f
  | .minI32 f | .maxI32 f | .minN32 f | .maxN32 f | .sel f | .andL f | .orL f | .xorL f | .andn f | .shl f | .shrN f
  | .shrI f | .rotl f | .bfxN f | .bfxI f
  | .cmpEqI32 f | .cmpNeI32 f | .cmpLtI32 f | .cmpLeI32 f | .cmpLtN32 f | .cmpLeN32 f
  | .fcmpEqF32 f | .fcmpLtF32 f | .fcmpLeF32 f | .fcmpUnF32 f
  | .faddF32 f | .fsubF32 f | .fmulF32 f | .ffmaF32 f | .fminF32 f | .fmaxF32 f | .faddF16x2 f | .fmulF16x2 f
  | .ffmaF16x2 f | .ffmaBf16x2 f | .faddF64 f | .fmulF64 f | .ffmaF64 f | .fscaleF32 f | .packF16x2 f | .packBf16x2 f
  | .npq f | .npdq f | .froundF32 f => f.u
  | .absI32 f | .popc f | .clz f | .brev f | .fnegF32 f | .fabsF32 f | .cvtF32I32 f | .cvtI32F32 f | .cvtF32N32 f
  | .cvtN32F32 f | .cvtF64F32 f | .cvtF32F64 f | .fclassF32 f => f.u
  | .addi f | .shli f | .shriN f | .shriI f | .cmpiEq f | .cmpiLtI32 f | .cmpiLtN32 f | .unpkF16 f | .unpkBf16 f => f.u
  | .kop f => f.u
  | .kmovKV f | .kmovVK f => f.u
  | .gbra _ => true
  | .movi f => f.u
  | .add64 f | .sub64 f | .lea f | .mulwI f | .mulwN f | .shl64 f | .shr64N f | .shr64I f | .min64N f | .max64N f => f.u
  | .frcp f | .frsq f | .fsqrt f | .fdiv f | .fexp2 f | .flog2 f | .fsinpi f | .fcospi f | .ftanh f => f.u
  | .ld f => f.u
  | .st f => f.u
  | .ldl f => f.u
  | .stl f => f.u
  | .atom f => f.u
  | .sreg f => f.u
  | .sset f => f.u
  | _ => false

/-- `act` at issue (R7, R63, R64). `sel` reads its guard as its selector and acts unguarded (R131); `gbra` acts for the
whole slot whatever its guard (R154). Opcode 0x7F has no guard: its trap takes every lane of the slot, whatever its K and KS hold
(R77; DESIGN CHOICE, log entry 131). -/
def actOf (i : Instr) (x : Wave) (sl : Slot) : LaneMask :=
  match i, guardOf i with
  | .sel _, _ | .gbra _, _ => baseAct x sl
  | _, none => baseAct x sl
  | _, some g => if groupForm i then groupAct x sl g else laneAct x sl g

/-! Encoding checks on the wave. -/

/-- One register lies beyond the wave's shape (R62). -/
def regBeyond (x : Wave) (file : RegFile) (n : Nat) : Bool :=
  match file with
  | .lane => x.regs ≤ n && !(x.super && 48 ≤ n && n ≤ 55)
  | .group => x.gregs ≤ n && !(x.super && 56 ≤ n && n ≤ 63)
  | .pred => false

/-- A register field reaches beyond the wave's shape (R62, R231). -/
def useBeyond (x : Wave) (u : RegUse) : Bool := (List.range u.cnt).any fun j => regBeyond x u.file (u.num + j)

/-- What an instruction names that supervisor mode forbids (R385). -/
def superForbids : Instr → Bool
  | .exit _ | .tdone _ | .spawn _ | .launch _ | .tbar _ | .abar _ | .cbar _ | .cpG2l _ | .cpL2g _ | .cpL2gRed _
  | .cpL2l _ | .cpG2g _ | .cpPeerPut _ | .cpPeerGet _ | .cpG2lMc _ | .cpscale _ | .mma _ | .mmaJ _ | .mmcvtBf16 _
  | .mmcvtNp8 _ | .trap _ | .trapBkpt _ => true
  | _ => false

/-- The tile that an instruction names (R306, R329, R332). -/
def tileOf : Instr → Option Nat
  | .mma f | .mmaJ f => some f.tile.toNat
  | .mmrd f => some f.tile.toNat
  | .mmwr f => some f.tile.toNat
  | .mmwrZero f => some f.tile.toNat
  | .mmcvtBf16 f | .mmcvtNp8 f => some f.tile.toNat
  | _ => none

/-- The unimplemented-opcode cases that depend on the wave: an immediate at or above the width (R175), rows that do not
fill whole registers (R329), `eret` and `tlbop` outside supervisor mode (R387, R407). -/
def dynUnimpl (i : Instr) (x : Wave) : Bool :=
  match i with
  | .shflx f | .rdlane f => x.width ≤ f.i.toNat
  | .mmrd f => f.n.toNat % (if f.bf16 then 2 * (x.width / 32) else x.width / 32) ≠ 0
  | .mmwr f => f.n.toNat % (x.width / 32) ≠ 0
  | .eret _ | .eretSkip _ | .eretKill _ | .tlbopMap _ | .tlbopUnmap _ | .tlbopInval _ | .tlbopRetire _ => !x.super
  | _ => false

/-- `%cteam` of a team (R358), when its launch has cohorts. -/
def cteamOf (t : Team) : Option Nat := t.cohort.map (·.2)

/-- The illegal-encoding cases that depend on the wave, its team and its launch (R62, R306, R361, R373, R385). -/
def dynIllegal (i : Instr) (x : Wave) (t : Team) (la : Launch) : Bool :=
  (regsOf x.width i).any (useBeyond x) || (x.super && superForbids i) ||
  (match tileOf i with
    | some n => t.tiles.length ≤ n
    | none => false) ||
  match i with
  | .spawn f => la.ker.entries.length ≤ f.entry.toNat
  | .cbar _ => t.cohort.isNone
  | .abar f =>
    match cteamOf t, la.ker.asms[f.idx.toNat]? with
    | some j, some ms => !ms.contains j
    | _, _ => true
  | _ => false

/-! Poison in register words. -/

/-- Registers that an instruction reads through its D field: the addend of `mad.i32` and of the fused multiply-adds, the
new value of a `cas`, the target of `unplane`, and D of `bfx` never. -/
def readsDest (i : Instr) : List RegUse :=
  match i with
  | .madI32 f | .ffmaF32 f | .ffmaF16x2 f | .ffmaBf16x2 f => [dstUse f.u f.d 1]
  | .ffmaF64 f => [dstUse f.u f.d 2]
  | .unplane f => [dstUse false f.d 1]
  | .atom f => if f.sub = 10 then [dstUse f.u f.d 1] else if f.sub = 13 then [dstUse f.u f.d 2] else []
  | .atoml f => if f.sub = 10 then [dstUse false f.d 1] else if f.sub = 13 then [dstUse false f.d 2] else []
  | .mmwr f => [blockUse f.a (f.n.toNat * 32)]
  | _ => []

/-- Lane l of vN carries a poison mark, as a mark of its word in the register window. -/
def laneMarked (s : State) (w : Nat) (x : Wave) (n l : Nat) : Bool :=
  !svLane x n && regWordPoison s (clusterOf w) (regAddr x n l)

/-- The lane registers an instruction reads in its own lane. -/
def ownUses (width : Nat) (i : Instr) : List RegUse :=
  match i with
  | .shfl f => [srcUse false f.b 1].filter fun u => u.file = .lane
  | .shflx _ | .shfld _ | .rdlane _ | .plane _ => []
  | i => (regsOf width i).filter fun u => u.file = .lane && !u.own

/-- The lanes of `act` that read a marked register word of their own (R425, R426). Matrix register operands carry their
poison into the operation instead (R328), and the cross-lane instructions say themselves whose words they read. -/
def ownPoison (s : State) (c : Ctx) : LaneMask :=
  if s.regPoison.isEmpty then 0
  else
    let uses := ownUses c.x.width c.i ++
      ((readsDest c.i).filter fun u => u.file = .lane).map fun u =>
        { u with cnt := match c.i with
          | .mmwr _ => u.cnt / c.x.width
          | _ => u.cnt }
    maskOf (c.lanes.filter fun l => uses.any fun u =>
      (List.range u.cnt).any fun j => (latched s c.r u.num j l).isNone && laneMarked s c.w c.x (u.num + j) l)

end Sys2Proof.Machine
end

