-- ==== Sys2Proof/Machine/Ends.lean ====
section
/-! DEFINITION. How lanes, waves and teams end (R151, R152, R376), and the consumption of poison (R427). -/

namespace Sys2Proof.Machine

/-- A slot after lanes have left the alive mask (R151). -/
def shrinkSlot (alive : LaneMask) (sl : Slot) : Slot :=
  let m := sl.m &&& alive
  if sl.st = .run && m = 0 then { Slot.idle with last := sl.last }
  else { sl with m := m }

/-- Lanes leave the alive mask (R151, R152); a wave whose alive mask is 0 has ended, and its slots are released (R167). -/
def dropLanes (x : Wave) (dead : LaneMask) : Wave :=
  let alive := x.alive &&& ~~~dead
  if alive = 0 then
    { x with
      alive := 0, a := Slot.idle, b := Slot.idle, saved := none, super := false, svStack := [], depth := 0, spilled := 0,
      pending := none, progress := none }
  else
    { x with
      alive := alive
      a := shrinkSlot alive x.a
      b := shrinkSlot alive x.b
      saved := x.saved.map fun v => { v with a := shrinkSlot alive v.a, b := shrinkSlot alive v.b } }

/-- The holds of a slot, of a wave, end (R127). -/
def dropLatches (s : State) (r : SlotRef) : State := { s with latches := s.latches.filter fun e => e.slot ≠ r }
def dropWaveLatches (s : State) (w : Nat) : State := { s with latches := s.latches.filter fun e => e.slot.wave ≠ w }

/-- Counts of operand blocks that a matrix operation still reads end (R70, R315). -/
def shutWindows (s : State) (p : MatWindow → Bool) : State :=
  { s with mats := s.mats.map fun m => (m.1, mapWindows (fun l => l.filter fun v => !p v) m.2) }

def endWaveLanes (s : State) (w : Nat) (dead : LaneMask) : State :=
  let s := onWave s w fun x => dropLanes x dead
  match findWave s w with
  | some x => if x.alive = 0 then dropWaveLatches s w else s
  | none => s

/-- The number of lanes in a mask. -/
def popMask (m : LaneMask) : Nat := (lanesOf m).length

/-- The launch that a wave belongs to. -/
def launchOfWave (s : State) (w : Nat) : Option (Nat × Launch) :=
  match findWave s w with
  | none => none
  | some x => match findTeam s x.team with
    | none => none
    | some t => (findLaunch s t.launch).map fun l => (t.launch, l)

/-- Atomic requests of waves that end: those on their way go; one that a site has begun is performed, its results lost. What a
site claims stays claimed. -/
def disownAtoms (s : State) (ws : List Nat) : State :=
  let mine (m : Msg) : Bool := match m.atom with
    | some a => ws.contains a.wave && m.kind ≠ .getW && m.req ≠ .getW
    | none => false
  { s with
    net := s.net.filter fun m => !mine m
    nacked := s.nacked.filter fun m => !mine m
    txns := s.txns.map fun t =>
      if mine t.msg then { t with msg := { t.msg with atom := t.msg.atom.map fun a => { a with wave := 2 ^ 40 } } } else t }

/-- A team ends at once (R376): its waves, its operations and its place in its cohort. Its retirement counts it. A granule that
the engine has begun to write at another team's store is finished (R300). -/
def endTeam (s : State) (tid : Nat) (fate : Fate) : State :=
  match findTeam s tid with
  | none => s
  | some t =>
    let s := t.waves.foldl (fun u w =>
      dropWaveLatches (onWave u w fun x => { dropLanes x x.alive with landings := [], locals := [] }) w) s
    let mine (op : Nat) : Bool := match kvFind s.copies op with
      | some o => o.team = tid
      | none => false
    let finishes (i : Inbound) : Bool := i.begun.isSome && !(i.target.cl = t.cl && i.target.tag = some t.allocTag) && i.target.tag.isSome
    let s := { s with
      inbound := s.inbound.filter fun i => !mine i.op || finishes i
      ports := s.ports.map fun e => (e.1, { e.2 with
        puts := e.2.puts.filter fun p => !mine p.1
        gets := e.2.gets.filter fun p => !mine p.1 })
      copies := s.copies.filter fun e => e.2.team ≠ tid
      mats := s.mats.filter fun e => e.2.team ≠ tid }
    let s := releaseStray (disownAtoms s t.waves) t.cl
    let s := onTeam s tid fun y => { y with fate := if y.fate = .normal then fate else y.fate, leaving := false }
    match t.cohort with
    | some p => onLaunch s t.launch fun l => { l with killed := if l.killed.contains p then l.killed else l.killed ++ [p] }
    | none => s

def abortTeam (s : State) (tid : Nat) : State := endTeam s tid .aborted

/-- Lanes are killed (R376): LANES counts them. -/
def killLanes (s : State) (w : Nat) (dead : LaneMask) : State :=
  match launchOfWave s w, findWave s w with
  | some (n, _), some x =>
    let gone := dead &&& x.alive
    if gone = 0 then s
    else releaseStray (endWaveLanes (onLaunch s n fun l => { l with lanes := min (l.lanes + popMask gone) 0xFFFFFFFF }) w gone)
      (clusterOf w)
  | _, _ => s

/-- The log record of a lane kill, under LKM (R428, R430 type 4). -/
def logKill (s : State) (w : Nat) (tag : AsidTag) (dead : LaneMask) (pc : BitVec 56) : State :=
  if s.service.lkm then logError s ⟨4, 0, 0, clusterOf w, some tag, 0, bytesLe 8 dead.toNat ++ bytesLe 8 pc.toNat⟩ else s

/-- Lanes consume poison with KABORT = 0 at an instruction (R427). -/
def killByPoison (s : State) (w : Nat) (tag : AsidTag) (dead : LaneMask) (pc : BitVec 56) : State :=
  if dead = 0 then s else killLanes (logKill s w tag dead pc) w dead

/-- Lanes consume poison where no instruction of the wave stands (R427): they are killed, or the team is aborted. -/
def consumeAside (s : State) (w : Nat) (dead : LaneMask) (pc : BitVec 56) : State :=
  match findWave s w, launchOfWave s w with
  | some x, some (_, l) =>
    if dead &&& x.alive = 0 then s
    else if l.rcd.kabort then abortTeam (killLanes s w (dead &&& x.alive)) x.team
    else killByPoison s w l.tag (dead &&& x.alive) pc
  | _, _ => s

end Sys2Proof.Machine
end

