-- ==== Sys2Proof/Machine/Reach.lean ====
section
/-! DEFINITION. How an agent reaches global memory: translating its addresses with the fault records of R401, reading and
writing words through its caches (R223 to R225, R267), pushing and self-invalidating its path (R260), and atomic and
volatile requests to a site (R227, R237). -/

namespace Sys2Proof.Machine

/-- Who asks: where, for which address space, and how a fault record names it (R403). -/
structure Asker where
  cl : Nat
  /-- The flat core whose L0 serves, none for an engine (R289). -/
  core : Option Nat
  tag : AsidTag
  sup : Bool
  src : Nat
  acc : Nat
  /-- The wave slot that waits for the access. -/
  waiter : Option Nat
  deriving DecidableEq, Repr

/-- A lane access of a wave. -/
def waveAsker (w : Nat) (tag : AsidTag) (sup : Bool) (acc : Nat) : Asker :=
  { cl := clusterOf w, core := some (coreOf w), tag, sup, src := 0, acc, waiter := some w }

/-- The record of a refused access; CORE and SLOT name the wave with SRC 0 and 2 only (R403). -/
def Asker.record (q : Asker) (va kind : Nat) : FaultRec :=
  let w := if q.src = 0 || q.src = 2 then q.waiter.getD 0 else 0
  { va := va % 2 ^ 56, tag := q.tag, kind, acc := q.acc, src := q.src, clu := q.cl, core := coreOf w % 4, slot := w % 12,
    time := 0, deliv := false, waiter := q.waiter }

/-! Translation of an instruction's addresses. -/

/-- What a set of accesses meets: all translated; a full fault record buffer (R401); or refused accesses, by their place in
the list, with kinds. -/
inductive Reached where
  | ok (s : State)
  | busy (s : State)
  | faults (fs : List (Nat × Nat)) (s : State)
  deriving DecidableEq, Repr

/-- Translating each address; the refusals by position. -/
def translateAll (s : State) (q : Asker) (acc : Acc) : List Nat → Nat → List (Nat × Nat) × State
  | [], _ => ([], s)
  | va :: rest, i =>
    match translate s q.tag va acc q.sup with
    | (.refused k, s) =>
      let (fs, s) := translateAll s q acc rest (i + 1)
      ((i, k) :: fs, s)
    | (_, s) => translateAll s q acc rest (i + 1)

/-- One record for each refused 4 KiB page, with its lowest refused address (R401). -/
def refusedPages (vas : List Nat) (fs : List (Nat × Nat)) : List (Nat × Nat) :=
  let all := fs.map fun f => (vas.getD f.1 0, f.2)
  ((all.map fun a => a.1 / 4096).eraseDups).map fun p =>
    let here := all.filter fun a => a.1 / 4096 = p
    let low := here.foldl (fun m a => min m a.1) (here.headD (0, 0)).1
    (low, ((here.find? fun a => a.1 = low).getD (0, 0)).2)

/-- The homes whose buffers lack room for their share of the records. -/
def shortHomes (s : State) (pages : List (Nat × Nat)) : List Nat :=
  ((pages.map fun p => homeOf p.1).eraseDups).filter fun h =>
    4096 < faultCount (faultBufAt s h) + (pages.filter fun p => homeOf p.1 = h).length

/-- Busy answers of homes with full buffers (R405). -/
def answerBusy (s : State) (hs : List Nat) : State :=
  hs.foldl (fun t h => let b := faultBufAt t h
    putFaultBuf t h { b with ovf := true, busy := satAdd b.busy 1 }) s

/-- The canonical addresses of one instruction are translated at their homes (R242, R401). -/
def reach (s : State) (q : Asker) (acc : Acc) (vas : List Nat) : Reached :=
  match translateAll s q acc vas 0 with
  | ([], s) => .ok s
  | (fs, s) =>
    let pages := refusedPages vas fs
    match shortHomes s pages with
    | [] => .faults fs (pages.foldl (fun t p => (writeFault t (homeOf p.1) (q.record p.1 p.2)).2) s)
    | hs => .busy (answerBusy s hs)

/-- `home_of` as v50 reports it, 15 when the address has none (R382). -/
def homeCode (va : Nat) : Nat := if canonical va then homeOf va else 15

/-- The v50 word of cause 5. -/
def v50Word (kind va : Nat) : Word := BitVec.ofNat 32 (kind + 4 * homeCode va)

/-- An access whose home, or whose frame's home, is fenced reads poison and stores nothing (R32). -/
def homeLost (s : State) (tag : AsidTag) (va : Nat) (acc : Acc) : Bool :=
  match translate s tag va acc true with
  | (.lost, _) => true
  | _ => false

/-! Words through the caches. -/

/-- Asking for words at a cluster's L1. -/
def askWords (s : State) (cl : Nat) (tag : AsidTag) (vas : List Nat) : State := askNode s (.l1 cl) tag vas

/-- All of a list, or none. -/
def allSome {α : Type} : List (Option α) → Option (List α)
  | [] => some []
  | some a :: rest => (allSome rest).map fun l => a :: l
  | none :: _ => none

/-- The words at a node, where it has all of them usable. -/
def wordsAt (s : State) (n : Node) (tag : AsidTag) (vas : List Nat) : Option (List (Word × Bool)) :=
  allSome (vas.map fun va => (cwAt s n tag (va / 4 * 4)).bind fun c =>
    if c.stale then none else some (cachedBits s tag va c.val, c.poison))

/-- What an agent's caches give it of some words of one 8-byte word, or of one 16-byte access: all from its L0, else all from
the cluster's L1, so that no value is torn (R210, R225, R250); a fenced home's words read as poison (R32). -/
def cachedWords (s : State) (q : Asker) (vas : List Nat) : Option (List (Word × Bool)) :=
  match q.core.bind fun c => wordsAt s (.l0 c) q.tag vas with
  | some x => some x
  | none => match wordsAt s (.l1 q.cl) q.tag vas with
    | some x => some x
    | none => if vas.any fun va => homeLost s q.tag va .load then some (vas.map fun _ => (0, true)) else none

/-- Whole words stored into the cluster's L1 (R267), and through the storing core's L0, whose copy of the line follows. -/
def storeL1 (s : State) (q : Asker) (ws : List (Nat × Word × Bool)) : State :=
  let lines := (ws.map fun e => lineOf e.1).eraseDups
  lines.foldl (fun t line =>
    let here := ws.filter fun e => lineOf e.1 = line
    if homeLost t q.tag (128 * line) .store then t
    else
      let t := absorb t (.l1 q.cl) q.tag line (here.map fun e => ⟨wordIdx e.1, e.2.1, e.2.2⟩)
      let t := match q.core with
        | some c => if (lineAt t (.l0 c) q.tag line).isEmpty then t else fillL0 t c q.tag line
        | none => t
      trimL1 t q.cl q.tag line) s

/-- With no CACHE bank the L1 keeps lines for one access only (R224). -/
def releaseLines (s : State) (q : Asker) (vas : List Nat) : State :=
  ((vas.map lineOf).eraseDups).foldl (fun t l => releaseL1 t q.cl q.tag l) s

/-- Bytes stored into a word: under a mask of its bits. -/
def mergeWord (old new mask : Word) : Word := (old &&& ~~~mask) ||| (new &&& mask)

/-- One store of `n` bytes as word parts: word address, bits, mask of bits. -/
def storeParts (va n v : Nat) : List (Nat × Word × Word) :=
  if n < 4 then
    let sh := 8 * (va % 4)
    [(va / 4 * 4, BitVec.ofNat 32 (v * 2 ^ sh), BitVec.ofNat 32 ((2 ^ (8 * n) - 1) * 2 ^ sh))]
  else (List.range (n / 4)).map fun j =>
    (va + 4 * j, BitVec.ofNat 32 (v / 2 ^ (32 * j)), BitVec.allOnes 32)

/-- The parts of several stores merged word by word, the later one's bytes over the earlier one's (R232). -/
def mergeParts (ps : List (Nat × Word × Word)) : List (Nat × Word × Word) :=
  ((ps.map (·.1)).eraseDups).map fun va =>
    (ps.filter fun p => p.1 = va).foldl (fun acc p => (va, mergeWord acc.2.1 p.2.1 p.2.2, acc.2.2 ||| p.2.2)) (va, 0, 0)

/-- A store in part may merge with the L1's copy of a word that the cluster owns; else the cluster claims the word with its
newest bytes first, so that no bytes of another writer are lost (R249; log entry 101). -/
def mergeable (s : State) (q : Asker) (p : Nat × Word × Word) : Bool :=
  p.2.2 = BitVec.allOnes 32 || homeLost s q.tag p.1 .store || match cwAt s (.l1 q.cl) q.tag p.1 with
    | some c => !c.stale && keepsOnAcquire c
    | none => false

/-- Performing merged parts at the L1. A whole word leaves poison behind; part of a poisoned word keeps it (R422). -/
def performParts (s : State) (q : Asker) (ps : List (Nat × Word × Word)) : State :=
  storeL1 s q (ps.map fun p =>
    match cwAt s (.l1 q.cl) q.tag p.1 with
    | some c => (p.1, mergeWord c.val p.2.1 p.2.2, c.poison && p.2.2 ≠ BitVec.allOnes 32)
    | none => (p.1, p.2.1, false))

/-! Path-wide actions (R260, R267). -/

/-- The lines of which a node holds dirty words. -/
def dirtyLines (s : State) (n : Node) : List (AsidTag × Nat) :=
  (s.caches.filterMap fun e =>
    if e.1.node = n && e.2.dirty && !e.2.stale then some (e.1.tag, lineOf e.1.va) else none).eraseDups

/-- Pushing a line's dirty words one level up with `WbW`; they stay as clean-owned words (R266). -/
def pushLine (s : State) (n : Node) (tag : AsidTag) (line : Nat) : State :=
  let ws := dirtyWords s n tag line
  match parentNode n (128 * line) with
  | none => s
  | some p =>
    if ws.isEmpty then s
    else
      let s := ws.foldl (fun t w =>
        let va := 128 * line + 4 * w.idx
        match cwAt t n tag va with
        | some c => putCw t n tag va { c with dirty := false, owned := true }
        | none => t) s
      send s { mkMsg .wbW n p tag line with mask := maskOfWords ws, words := ws }

def pushNode (s : State) (n : Node) : State := (dirtyLines s n).foldl (fun t e => pushLine t n e.1 e.2) s

/-- Words pushed or claimed by a node are not yet acknowledged (R269). -/
def nodeBusy (s : State) (n : Node) : Bool :=
  let mine (m : Msg) := m.src = n && (m.kind = .getW || m.kind = .wbW || m.kind = .wbL)
  (s.net ++ s.nacked).any (fun m => mine m || (m.kind = .writeAck && m.dst = n)) ||
    s.txns.any fun t => mine t.msg || t.acks.any mine

/-- A node of a push: at the bridge nothing rests, so what it passes on belongs to its push. -/
def pushBusy (s : State) (n : Node) : Bool :=
  nodeBusy s n || match n with
    | .stk k => nodeBusy s (.bridge (k / 3))
    | _ => false

/-- Pushing the nodes of a path in turn, `p` of them pushed before: `none` once all their words have arrived, else how many
have been pushed (R260). What a node has sent up earlier is acknowledged before it is pushed (R460). -/
def releaseFrom (push : State → Node → State) (s : State) (p : Nat) : List Node → Option Nat × State
  | [] => (none, s)
  | n :: rest =>
    if pushBusy s n then (some p, s)
    else
      let s := push s n
      if pushBusy s n then (some (p + 1), s) else releaseFrom push s (p + 1) rest

/-- A release going on: the node pushed last must be acknowledged before the next is pushed. -/
def releaseStep (push : State → Node → State) (s : State) (nodes : List Node) (phase : Nat) : Option Nat × State :=
  if phase ≠ 0 && (match nodes[phase - 1]? with
    | some n => pushBusy s n
    | none => false) then (some phase, s)
  else releaseFrom push s phase (nodes.drop phase)

/-- The nodes that a release pushes, innermost first: L0s hold nothing dirty. -/
def releaseNodes (cl sc : Nat) : List Node := pathBelow none cl sc

/-- Clean data on its way to some nodes is asked for again. -/
def askAgain (s : State) (nodes : List Node) : State :=
  let stale (m : Msg) : Bool := m.kind = .dataC && nodes.contains m.dst
  let again := (s.net.filter stale).filterMap fun m =>
    (parentNode m.dst (128 * m.line)).map fun p => { mkMsg .getS m.dst p m.tag m.line with mask := m.mask }
  { s with net := s.net.filter (fun m => !stale m) ++ again }

/-- The acquire (R267): every non-owned word of the path below a level goes, in the L1 by being marked stale and with it
the L0s of the cluster; clean data still on its way there is asked for again. -/
def selfInvalidate (s : State) (cl sc : Nat) : State :=
  if sc = 0 then s
  else
    let nodes := pathBelow none cl sc
    let l0 (n : Node) : Bool := match n with
      | .l0 c => c / 4 = cl
      | _ => false
    let caches := s.caches.filterMap fun e =>
      if l0 e.1.node then none
      else if e.1.node = .l1 cl && nodes.contains e.1.node then some (e.1, if keepsOnAcquire e.2 then e.2 else { e.2 with stale := true })
      else if nodes.contains e.1.node && !keepsOnAcquire e.2 then none
      else some e
    let dirs := s.dirs.filter fun e => !l0 e.1.child
    askAgain { s with caches, dirs } nodes

/-! Atomic and volatile requests. -/

/-- Sending the lanes of a request, one message for each line; `Upg` where the parent records a clean copy (R267). -/
def sendAtoms (s : State) (cl : Nat) (tag : AsidTag) (sub : Nat) (sc : Nat) (w : Nat) (lanes : List AtomLane) : State :=
  (((lanes.map fun l => lineOf l.va).eraseDups)).foldl (fun t line =>
    let here := lanes.filter fun l => lineOf l.va = line
    let st := (dirAt t (.die (dieOf cl)) tag line (.l1 cl)).st
    let kind : MsgKind := if st = .e || st = .s then .upg else .getM
    send t { mkMsg kind (.l1 cl) (.die (dieOf cl)) tag line with
      atom := some ⟨w, sub, siteOf cl (128 * line) sc, here, false, false⟩ }) s

/-- The lanes of an atomic at the L1 site, line by line (R228); the L0s' copies of the lines go. -/
def atomsAtL1 (s : State) (cl : Nat) (tag : AsidTag) (w sub : Nat) (lanes : List AtomLane) :
    List (Nat × Nat × Bool) × State :=
  ((lanes.map fun l => lineOf l.va).eraseDups).foldl (fun acc line =>
    let r : AtomReq := ⟨w, sub, .l1 cl, lanes.filter fun l => lineOf l.va = line, false, false⟩
    let cores := (holders acc.2 (.l1 cl) tag line).filterMap fun h => match h.1 with
      | .l0 c => some c
      | _ => none
    let (rs, t) := performAtomic (cores.foldl (fun u c => dropL0 u c tag line) acc.2) (.l1 cl) tag line r
    (acc.1 ++ rs, t)) ([], s)

end Sys2Proof.Machine
end

