-- ==== Sys2Proof/Machine/Stack.lean ====
section
/-! DEFINITION. The fork stack (R162 to R165), the supervisor's own stack (R384), and what idle and waiting slots do with
its top (R153, R158 to R160). -/

namespace Sys2Proof.Machine

/-- The local address of on-chip entry `i` (R163). -/
def entryAddr (x : Wave) (i : Nat) : Nat := x.regbase + x.regs * x.width * 4 + 32 * i

def kindCode : EntryKind → Nat
  | .fork => 1
  | .parked => 2
  | .saved => 3

def boolNat (b : Bool) : Nat := if b then 1 else 0

/-- The eight words of an entry (R162). -/
def entryWords (e : Entry) : List Word :=
  let d1 := e.pc.toNat + 2 ^ 56 * kindCode e.kind
  let d2 := e.j.h.toNat + 2 ^ 56 * boolNat e.j.sv + 2 ^ 57 * boolNat e.j.jv
  [e.m.toNat, d1, d2, e.j.e.toNat].flatMap fun d => [BitVec.ofNat 32 d, BitVec.ofNat 32 (d / 2 ^ 32)]

/-- The entry that 32 bytes hold; an invalid KIND gives none, with the mask bytes (R160). -/
def entryOf (m d1 d2 je : Nat) : Option Entry × LaneMask :=
  let kind : Option EntryKind := match d1 / 2 ^ 56 % 8 with
    | 1 => some .fork
    | 2 => some .parked
    | 3 => some .saved
    | _ => none
  (kind.map fun k =>
    ⟨k, BitVec.ofNat 64 m, BitVec.ofNat 56 d1, ⟨BitVec.ofNat 56 d2, BitVec.ofNat 64 je, d2.testBit 56, d2.testBit 57⟩⟩,
    BitVec.ofNat 64 m)

/-- On-chip entry `i` as it stands in the local store. -/
def readEntry (s : State) (w : Nat) (x : Wave) (i : Nat) : Option Entry × LaneMask :=
  let a := entryAddr x i
  let d (k : Nat) := localNat s (clusterOf w) (a + 8 * k) 8
  entryOf (d 0) (d 1) (d 2) (d 3)

def putWords (s : State) (cl a : Nat) : List Word → State
  | [] => s
  | v :: rest => putWords (putLocalWord s cl a v) cl (a + 4) rest

/-- The top entry, where one is on chip: valid, or an invalid one's mask bytes. -/
def topEntry (s : State) (w : Nat) (x : Wave) : Option (Option Entry × LaneMask) :=
  if x.super then x.svStack.head?.map fun e => (some e, e.m)
  else if x.depth = 0 then none else some (readEntry s w x (x.depth - 1))

def popEntry (x : Wave) : Wave := if x.super then { x with svStack := x.svStack.tail } else { x with depth := x.depth - 1 }

/-- An entry is dead when no live lane is left to it (R160). -/
def deadEntry (x : Wave) (e : Entry) : Bool := e.m &&& x.alive = 0

/-! Pushes and spills. -/

/-- What a push meets: done; the supervisor stack full (R384); the spill limit or a refused spill write (R165), with the
address and the refusal kind; or a full fault record buffer, or a page that waits for its shootdown (R409). -/
inductive Pushed where
  | ok (s : State)
  | full
  | limit
  | fault (va kind : Nat) (s : State)
  | busy (s : State)
  deriving DecidableEq, Repr

/-- The asker of spills and refills (R165, R403). -/
def forkAsker (w : Nat) (tag : AsidTag) : Asker :=
  { waveAsker w tag false 4 with src := 2 }

/-- The words of the oldest eight on-chip entries with their poison marks (R420), and the addresses of block `b` of the spill
area (R164). -/
def blockWords (s : State) (w : Nat) (x : Wave) (b : Nat) : List (Nat × Word × Bool) :=
  (List.range 64).map fun i =>
    let a := entryAddr x 0 + 4 * i
    (x.spillBase + 256 * b + 4 * i, localWord s (clusterOf w) a, regWordPoison s (clusterOf w) a)

/-- Moving the entries above the oldest eight down, with their poison marks (R420). -/
def shiftDown (s : State) (w : Nat) (x : Wave) : State :=
  let cl := clusterOf w
  let from' (i : Nat) : Nat := entryAddr x 8 + 4 * i
  let marks := ((List.range 64).filter fun i => regWordPoison s cl (from' i)).map fun i => lsKey cl (entryAddr x 0 + 4 * i)
  let t := putWords s cl (entryAddr x 0) ((List.range 64).map fun i => localWord s cl (from' i))
  { t with regPoison := t.regPoison ++ marks }

/-- A push (R163 to R165, R384). -/
def pushEntry (s : State) (w : Nat) (tag : AsidTag) (e : Entry) : Pushed :=
  match findWave s w with
  | none => .ok s
  | some x =>
    if x.super then
      if 4 ≤ x.svStack.length then .full else .ok (putWave s w { x with svStack := e :: x.svStack })
    else if x.depth < 16 then
      .ok (putWave (putWords s (clusterOf w) (entryAddr x x.depth) (entryWords e)) w { x with depth := x.depth + 1 })
    else if x.spillL < (x.spilled + 1) * 8 then .limit
    else
      let base := x.spillBase + 256 * x.spilled
      let q := forkAsker w tag
      if shooting s tag.asid base then .busy s
      else match (if canonical base then reach s q .store [base] else .faults [(0, 2)] s) with
      | .busy s => .busy s
      | .faults fs s => .fault base ((fs.headD (0, 2)).2) s
      | .ok s =>
        let s := storeL1 s q (blockWords s w x x.spilled)
        let s := releaseLines s q [base, base + 128]
        let s := shiftDown s w x
        let s := putWords s (clusterOf w) (entryAddr x 8) (entryWords e)
        .ok (putWave s w { x with depth := 9, spilled := x.spilled + 1 })

/-- Whether pushing can be told to fail before the instruction acts (R154: the spill check comes first). -/
def pushRoom (x : Wave) : Bool := if x.super then x.svStack.length < 4 else x.depth < 16

/-! Arrival at a join (R158), and idle and waiting slots (R159). -/

/-- CRC-32C over the bits of a byte that has been folded in (R171). -/
def crcByte (sig : Word) : Nat → Word
  | 0 => sig
  | n + 1 => crcByte (if sig.getLsbD 0 then (sig >>> 1) ^^^ 0x82F63B78#32 else sig >>> 1) n

/-- `fold` of R171. -/
def foldSig (sig w : Word) : Word :=
  (List.range 4).foldl (fun g i => crcByte (g ^^^ zext 32 (field w (8 * i) 8)) 8) sig

/-- What a piece adds to a slot's mask: the union (R158). -/
def mergeMask (a b : LaneMask) : LaneMask := a ||| b

/-- A wave's pending join has merged pieces that shared a lane (R172). -/
def markBroken (x : Wave) (j : Join) (shared : Bool) : Wave :=
  if shared && !x.broken.contains (x.super, j) then { x with broken := (x.super, j) :: x.broken } else x

/-- How an arrival ends: the slot resumes after the join; it waits, or runs a fork. -/
inductive Arrival where
  | resumed
  | waiting
  | swapped
  deriving DecidableEq, Repr

/-- A slot that starts a path (R154, R159, R172). -/
def runPath (last : Nat) (m : LaneMask) (pc : BitVec 56) (j : Join) : Slot :=
  { Slot.idle with st := .run, m, pc, j, last }

/-- Replacing the top entry, without changing the depth. -/
def replaceTop (s : State) (w : Nat) (x : Wave) (e : Entry) : State :=
  if x.super then putWave s w { x with svStack := e :: x.svStack.tail }
  else putWords s (clusterOf w) (entryAddr x (x.depth - 1)) (entryWords e)

/-- `swap` (R158): the fork on top runs in the slot, and the slot's piece is parked in its place. -/
def swapFork (s : State) (w : Nat) (b : Bool) (f : Entry) : State :=
  match findWave s w with
  | none => s
  | some x =>
    let sl := slotOf x b
    let s := replaceTop s w x ⟨.parked, sl.m, sl.j.h, sl.j⟩
    onWave s w fun y => withSlot y b (runPath sl.last (f.m &&& y.alive) f.pc f.j)

/-- The other slot of the same wave. -/
def other (b : Bool) : Bool := !b

/-- A dead or invalid entry on top is discarded; the lanes of an invalid one consume poison (R160). -/
def dropDead (s : State) (w : Nat) : Option State :=
  match findWave s w with
  | none => none
  | some x =>
    match topEntry s w x with
    | none => none
    | some (none, m) => some (consumeAside (onWave s w popEntry) w (m &&& x.alive) (slotOf x false).pc)
    | some (some e, _) => if deadEntry x e then some (onWave s w popEntry) else none

/-- Merging the parked pieces on top of the stack (R158), what is dead or invalid there being discarded as it comes up
(R160). -/
def mergeParked (s : State) (w : Nat) (b : Bool) : Nat → State
  | 0 => s
  | n + 1 =>
    match dropDead s w with
    | some t => mergeParked t w b n
    | none =>
      match findWave s w with
      | none => s
      | some x =>
        match topEntry s w x with
        | some (some e, _) =>
          let sl := slotOf x b
          if e.kind = .parked && e.j = sl.j then
            let piece := e.m &&& x.alive
            let y := markBroken (popEntry x) sl.j (sl.m &&& piece ≠ 0)
            mergeParked (putWave s w (withSlot y b { sl with m := mergeMask sl.m piece })) w b n
          else s
        | _ => s

/-- The other slot's piece is merged, where it waits at the same join (R158). -/
def mergeOther (x : Wave) (b : Bool) : Wave :=
  let sl := slotOf x b
  let y := slotOf x (other b)
  if y.st = .wait && y.j = sl.j then
    withSlot (withSlot (markBroken x sl.j (sl.m &&& y.m ≠ 0)) b { sl with m := mergeMask sl.m y.m }) (other b)
      { Slot.idle with last := y.last, issuedAt := y.issuedAt }
  else x

/-- A slot whose join completes: its pending join is now `j`, its signature 0 or that of a broken merge (R158, R172), where
the launch keeps signatures: without them it holds what `sset` wrote (R173). -/
def resumeSlot (x : Wave) (b : Bool) (j : Join) (sigOn : Bool) : Wave :=
  let sl := slotOf x b
  let bad := x.broken.contains (x.super, sl.j) || (sl.m &&& ~~~sl.j.e) ≠ 0
  let sig : Word := if !sigOn then sl.sig else if bad then foldSig 0 0x9E3779B9#32 else 0
  withSlot { x with broken := x.broken.filter (· ≠ (x.super, sl.j)) } b { sl with st := .run, j, sig }

/-- What follows for a slot whose pieces are merged as far as they are there (R158). -/
def settleArrival (s : State) (w : Nat) (b : Bool) (x : Wave) (sigOn : Bool) : Arrival × State :=
  let sl := slotOf x b
  let wait : Arrival × State := (.waiting, onWave s w fun z => withSlot z b { slotOf z b with st := .wait })
  let top := (topEntry s w x).bind (·.1)
  if (sl.j.e &&& x.alive) &&& ~~~sl.m ≠ 0 then
    match top with
    | some e => if e.kind = .fork then (.swapped, swapFork s w b e) else wait
    | none => wait
  else if !sl.j.sv then (.resumed, putWave s w (resumeSlot x b Join.clear sigOn))
  else
    match top with
    | some e =>
      if e.kind = .saved && e.pc = sl.j.h && e.m = sl.j.e then (.resumed, putWave s w (resumeSlot (popEntry x) b e.j sigOn))
      else if e.kind = .fork then (.swapped, swapFork s w b e)
      else wait
    | none => wait

/-- `arrive` (R158) for a slot at its pending join; where a slot that resumes goes on is the caller's. A slot that has lost
its lanes to an invalid entry on the way (R160) arrives no more. -/
def arrive (s : State) (w : Nat) (b sigOn : Bool) : Arrival × State :=
  match findWave s w with
  | none => (.waiting, s)
  | some x =>
    let s := mergeParked (putWave s w (mergeOther x b)) w b (2 * (x.depth + x.svStack.length) + 1)
    match findWave s w with
    | none => (.waiting, s)
    | some x => if (slotOf x b).m = 0 then (.waiting, s) else settleArrival s w b x sigOn

/-- A slot whose join completes while it waits goes on after its `join` instruction (R158), with the join's word folded
(R172). Without its clause it stands at the `join`, or, taken from the stack, at the header before it (R157): the clause is
fetched again. -/
def afterJoin (s : State) (w : Nat) (b : Bool) (sigOn : Bool) : State :=
  onWave s w fun x =>
    let sl := slotOf x b
    if sl.clause.isEmpty then
      if sl.woff = 0 then withSlot x b { sl with pc := sl.pc + 8, woff := 2, joined := true }
      else withSlot x b { sl with pc := sl.pc + 4, woff := sl.woff + 1, joined := true }
    else
    let word := sl.clause.getD sl.woff 0
    let woff := sl.woff + 1
    let sig := if sigOn && !x.super then foldSig sl.sig word else sl.sig
    if woff < sl.clause.length then withSlot x b { sl with pc := sl.pc + 4, woff, sig }
    else withSlot x b { sl with pc := sl.pc + 4, woff := 0, clause := [], header := none, sig }

/-- One action of a slot under R159, if it has one. A slot in WAIT whose lanes are all gone has no piece left to wait for:
it turns IDLE and drops its pending join, as R151 has it for a slot in RUN (DESIGN CHOICE, log entry 102). -/
def idleAction (s : State) (w : Nat) (b : Bool) (sigOn : Bool) : Option State :=
  match findWave s w with
  | none => none
  | some x =>
    let sl := slotOf x b
    match sl.st with
    | .run => none
    | .idle =>
      match topEntry s w x with
      | some (some e, _) =>
        match e.kind with
        | .fork => some (putWave s w (withSlot (popEntry x) b (runPath sl.last (e.m &&& x.alive) e.pc e.j)))
        | .parked =>
          let parked : Slot := { runPath sl.last (e.m &&& x.alive) e.pc e.j with st := .wait }
          some (putWave s w (withSlot (popEntry x) b parked))
        | .saved => none
      | _ => none
    | .wait =>
      if sl.m = 0 then some (putWave s w (withSlot x b { Slot.idle with last := sl.last, issuedAt := sl.issuedAt }))
      else
        match arrive s w b sigOn with
        | (.resumed, t) => some (afterJoin t w b sigOn)
        | (.swapped, t) => some t
        | (.waiting, t) => if findWave t w = findWave s w then none else some t

/-- The actions between two issues of a wave, until no rule applies (R153); slot A before slot B. -/
def settleSlots (s : State) (w : Nat) (sigOn : Bool) : Nat → State
  | 0 => s
  | n + 1 =>
    match dropDead s w with
    | some t => settleSlots t w sigOn n
    | none =>
      match idleAction s w false sigOn with
      | some t => settleSlots t w sigOn n
      | none =>
        match idleAction s w true sigOn with
        | some t => settleSlots t w sigOn n
        | none => s

/-- The same for a wave whose launch says whether it keeps signatures. -/
def settleWave (s : State) (w : Nat) : State :=
  match launchOfWave s w with
  | some (_, la) => settleSlots s w la.ker.sig 64
  | none => s

end Sys2Proof.Machine
end

