-- ==== Sys2Proof/Machine/Ops.lean ====
section
/-! DEFINITION. The shared operations of every instruction: taking a trap (R379 to R386) and returning from one (R387,
R388), and issuing and retiring an instruction (R70, R79, R127, R171, R378, R427). -/

namespace Sys2Proof.Machine

/-! Landings. -/

/-- Every result of a wave under lookahead lands, in program order (R379 step 1). -/
def landAll (s : State) (w : Nat) : State :=
  match findWave s w with
  | none => s
  | some x =>
    onWave (x.landings.foldl (fun t e => applyWrites t w e.sup e.writes) s) w fun y => { y with landings := [] }

/-- The `n`-th result lands (R70); what earlier ones would write to its registers never lands (R72). -/
def landOne (s : State) (w n : Nat) : State :=
  match findWave s w with
  | none => s
  | some x =>
    match x.landings[n]? with
    | none => s
    | some e =>
      let targets := e.writes.map RegWrite.target
      let before := (x.landings.take n).map fun d =>
        if d.sup = e.sup then { d with writes := d.writes.filter fun r => !targets.contains r.target } else d
      applyWrites (onWave s w fun y => { y with landings := before ++ x.landings.drop (n + 1) }) w e.sup e.writes

/-! Taking a trap. -/

/-- What an instruction, or a fetch, meets that traps: the cause (R381), its faulting lanes (0: all of `act`), the fields
of g58 (R383), and the address and v50 word of faulting lanes (R382). -/
structure Fail where
  cause : Nat
  f : LaneMask
  acc : Nat
  spl : Bool
  code : Nat
  lanes : List (Nat × Nat × Word)
  deriving DecidableEq, Repr

/-- A trap with no lane data. -/
def plainFail (cause : Nat) : Fail := ⟨cause, 0, 0, false, 0, []⟩

/-- The causes that depend on lane data (R380). -/
def laneCause (cause : Nat) : Bool := 5 ≤ cause && cause ≤ 8

/-- g58 (R383). `ha` tells that a fault record is kept for the host (R405). -/
def causeWord (i : TrapInfo) (ha : Bool) : Word :=
  BitVec.ofNat 32 (i.cause + 16 * boolNat i.b + 32 * (i.woff % 32) + 1024 * (i.acc % 8) + 8192 * boolNat i.spl +
    16384 * boolNat ha + 65536 * (i.code % 256))

/-- What is wrong with an address that a slot is to resume at (R156, R385): 5 not canonical, 7 misaligned, 0 nothing. -/
def targetBad (v : DWord) : Nat := if !canonical v.toNat then 5 else if v.toNat % 4 ≠ 0 then 7 else 0

/-- A nested trap aborts the wave's team, whatever KABORT holds, and is logged (R385, R430 type 5). -/
def nestedTrap (s : State) (w : Nat) (firstCause nestedCause : Nat) (firstPc nestedPc : DWord) : State :=
  match findWave s w, launchOfWave s w with
  | some x, some (_, l) =>
    abortTeam (logError s ⟨5, 0, 0, clusterOf w, some l.tag, 0,
      bytesLe 1 firstCause ++ bytesLe 1 nestedCause ++ List.replicate 6 0 ++ bytesLe 8 firstPc.toNat ++
        bytesLe 8 nestedPc.toNat⟩) x.team
  | _, _ => s

/-- F (R380): the faulting lanes; for a trap with none, those of the slot. -/
def faultLanes (x : Wave) (i : TrapInfo) : LaneMask :=
  let f := if laneCause i.cause then i.f else if i.f = 0 then i.act0 else i.f
  if f = 0 then (slotOf x i.b).m &&& x.alive else f

/-- A list with some places set. -/
def setAll (l : List Word) : List (Nat × Word) → List Word
  | [] => l
  | (i, v) :: rest => setAll (l.set i v) rest

/-- The frame's group registers g56 to g61 (R382). -/
def frameGroups (i : TrapInfo) (tag : AsidTag) (ha : Bool) : List (Nat × Word) :=
  [(0, zext 32 (field i.pc 0 32)), (1, zext 32 (field i.pc 32 24)), (2, causeWord i ha), (3, i.w0), (4, i.w1),
    (5, BitVec.ofNat 32 (tag.asid.toNat + 2 ^ 16 * tag.gen.toNat))]

/-- The frame's lane registers v48 to v50, in the lanes of F (R382). -/
def frameLanes (i : TrapInfo) (f : LaneMask) : List (Nat × Word) :=
  (lanesOf f).flatMap fun l =>
    let (a, k) := match i.lanes.find? fun e => e.1 = l with
      | some e => (e.2.1, e.2.2)
      | none => (0, 0)
    [(l, loWord a), (64 + l, hiWord a), (128 + l, k)]

/-- The fault record of a page fault is kept for the host (R405): host-assisted mode, and a kind that leaves a record. -/
def keptForHost (s : State) (i : TrapInfo) : Bool :=
  s.service.pfm && i.cause = 5 && !i.spl && i.lanes.any fun e => e.2.2.toNat % 4 ≠ 2

/-- The lanes whose poison a nested trap leaves uncounted: those of the trap, and those of the trap that its handler serves
(R376, R427). -/
def eatenBy (x : Wave) (i : TrapInfo) : LaneMask :=
  (if i.cause = 8 then i.f else 0) ||| match x.saved with
    | some v => if v.cause = 8 then v.f else 0
    | none => 0

/-- What a trap keeps of an instruction that the home has performed in part (R410), or that has claimed its words and waits for
them (log entry 101); its operands are read anew. -/
def keptProgress (x : Wave) : Option Progress :=
  (x.progress.filter fun p => p.asked = 1003 || 1005 ≤ p.asked).map fun p => { p with ops := none, eaten := 0 }

/-- Trap entry (R379, R380): earlier results land, both slots are saved, the frame is written, and the handler runs. A trap
in supervisor mode, or one whose vector is 0, not canonical or misaligned, is a nested trap (R385); with such a vector its
nested cause is 0, 5 or 7 (DESIGN CHOICE, log entry 136). -/
def takeTrap (s : State) (w : Nat) (i : TrapInfo) : State :=
  match findWave s w, launchOfWave s w with
  | some x, some (_, la) =>
    let dying := killLanes s w (eatenBy x i)
    if x.super then
      match x.saved with
      | some v => nestedTrap dying w v.cause i.cause (zext 64 v.pc) (zext 64 i.pc)
      | none => nestedTrap dying w 0 i.cause 0 (zext 64 i.pc)
    else
      let vec := tvecAt s i.cause
      if vec = 0 || targetBad vec ≠ 0 then nestedTrap dying w i.cause (targetBad vec) (zext 64 i.pc) vec
      else
        let s := if i.cause = 5 then deliverFaults s w else s
        let s := shutWindows (dropWaveLatches (landAll s w) w) fun m => m.slot.wave = w
        onWave s w fun y =>
          let f := faultLanes y i
          let sl := slotOf y i.b
          let y := withSlot y i.b { sl with pc := i.pc, woff := i.woff, act := if i.issued then none else sl.act }
          let saved : Saved :=
            { a := y.a, b := y.b, act0 := i.act0, f := f, s := i.b, cause := i.cause,
              issued := i.issued, pc := i.pc, progress := keptProgress y }
          let handler : Slot := runPath sl.last f (vec.setWidth 56) Join.clear
          let y := withSlot (withSlot y (other i.b) Slot.idle) i.b handler
          { y with
            super := true, saved := some saved, svStack := [], pending := none, progress := none
            locals := y.locals.map fun a => { a with left := 0 }
            broken := y.broken.filter fun e => !e.1
            svG := setAll y.svG (frameGroups i la.tag (keptForHost s i))
            svV := setAll y.svV (frameLanes i f) }
  | _, _ => s

/-! Returning from a handler. -/

inductive EretKind where
  | replay
  | skip
  | kill
  deriving DecidableEq, Repr

/-- The number of words of an instruction with this first word (R45). -/
def lengthOf (w0 : Word) : Nat := if 0x60 ≤ (field w0 25 7).toNat then 2 else 1

/-- Where and how slot S resumes (R388): its address, word offset, and the `act` that one issue is fixed to. A clause that
never issued has no `act` to take up, and one that a handler goes on at with WOFF 0 samples it afresh (DESIGN CHOICE, log
entry 137). -/
def resumePoint (k : EretKind) (p : DWord) (woff len : Nat) (issued : Bool) (act0 f alive : LaneMask) :
    DWord × Nat × Option LaneMask :=
  if k = .replay then (p, woff, if issued && woff ≠ 0 then some (act0 &&& alive) else none)
  else
    let rest := act0 &&& ~~~f &&& alive
    if woff = 0 then (p, 0, none)
    else if rest ≠ 0 then (p, woff, some rest)
    else (p + BitVec.ofNat 64 (4 * len), woff + len, none)

/-- The words of an `mma` attached to a copy (R306): leaving one without issuing it counts for its operation (R307). -/
def passesMma (w0 w1 : Word) : Bool := field w0 25 7 = 0x6E && w1.getLsbD 20

/-- An operation not yet formed of a team. -/
def blankMat (team cl : Nat) (kind : MatKind) (attached : Option Nat) (tok tile : Nat) : MatOp :=
  { team, cl, kind, attached, supplies := [], formed := false, empty := false, num := 0,
    compared := false, seq := 0, fmt := 0, a := .bytes [], b := .bytes [], windows := [], scaleAddr := 0, tok, tile, col := 0,
    started := false, result := [], report := 0, pois := false, fault := none }

/-- The operation attached to copy `k` of a team (R307): the one that is being formed, else a new one, which a copy that has
failed meanwhile cancels (R296). -/
def attachedMat (s : State) (team cl : Nat) (kind : MatKind) (k tok tile : Nat) : Nat × MatOp × State :=
  match s.mats.find? fun m => m.2.team = team && m.2.attached = some k with
  | some m => (m.1, m.2, s)
  | none =>
    let (id, s) := fresh s
    let ended := ((findTeam s team).map fun t => kvGet t.copyDone k 0).getD 0
    (id, { blankMat team cl kind (some k) tok tile with fault := if ended = 1 || ended = 3 then some 8 else none }, s)

/-- A wave that leaves its attached `mma` without issuing it counts as having issued it with an empty `act` (R307). -/
def passMma (s : State) (w : Nat) (x : Wave) (k : Nat) (w1 : Word) : State :=
  let tok := (field w1 21 3).toNat
  let tile := (field w1 10 6).toNat
  let (id, op, s) := attachedMat s x.team (clusterOf w) (if field w1 24 4 = 1 then .joint else .solo) k tok tile
  let p : MatSupply := ⟨x.num, true, 0, .bytes [], .bytes [], [], tok, tile, 0⟩
  if op.supplies.any fun q => q.wave = x.num then s
  else { s with mats := kvPut s.mats id { op with supplies := op.supplies ++ [p] } }

/-- `eret` (R388): the program's slots are restored; S resumes where the frame now says. Local accesses that were taken at
the boundary before them wait again (R379), behind what the handler left waiting. A poison trap's return ends the
team (R389); a resume address that no slot can have is a nested trap (R385). -/
def leaveHandler (s : State) (w : Nat) (k : EretKind) : State :=
  match findWave s w with
  | none => s
  | some x =>
    match x.saved with
    | none => s
    | some v =>
      let g (n : Nat) : Word := readGroup s x n
      let p := pairOf (g 56) (g 57)
      let woff := (field (g 58) 5 5).toNat
      let len := lengthOf (g 59)
      if v.cause = 8 then abortTeam (killLanes s w v.f) x.team
      else if targetBad p ≠ 0 then nestedTrap s w v.cause (targetBad p) (zext 64 v.pc) p
      else
        let s := dropWaveLatches (landAll s w) w
        let s := onWave s w fun y =>
          let ls := y.locals.map fun a => { a with left := 0 }
          { y with
            a := v.a, b := v.b, super := false, saved := none, svStack := [], broken := y.broken.filter fun e => !e.1
            locals := (ls.filter fun a => a.sup) ++ ls.filter fun a => !a.sup }
        let s := if k = .kill then
            match launchOfWave s w with
            | some (_, l) => if l.rcd.kabort then abortTeam (killLanes s w v.f) x.team else killLanes s w v.f
            | none => s
          else s
        let past := k ≠ .replay && v.issued && woff ≠ 0 && (match findWave s w with
          | some y => v.act0 &&& ~~~v.f &&& y.alive = 0
          | none => false)
        let s := if past && passesMma (g 59) (g 60) then
            passMma s w x (if v.s then v.b else v.a).copy (g 60)
          else s
        onWave s w fun y =>
          let sl := slotOf y v.s
          if sl.st = .run then
            let (pc, off, act) := resumePoint k p woff len v.issued v.act0 v.f y.alive
            let act := if v.issued then act else if k = .replay && woff ≠ 0 then sl.act else none
            let again : Bool := k = .replay || v.act0 &&& ~~~v.f &&& y.alive ≠ 0
            withSlot { y with progress := if again then v.progress else none } v.s
              { sl with pc := pc.setWidth 56, woff := off, clause := [], act := act
                        bar := sl.bar.filter fun _ => again && pc.setWidth 56 = v.pc }
          else y

/-! Issue. -/

/-- What an instruction does: it completes, leaving its slot to advance, with lanes that consumed poison, its lookahead and
its register results; it completes having placed its slot itself, its words folded or not; it waits and issues again; it has
left the handler it stood in; or it traps. -/
inductive Effect where
  | done (s : State) (dead : LaneMask) (la : Nat) (writes : List RegWrite)
  | moved (s : State) (fold : Bool)
  | wait (s : State)
  | left (s : State)
  | trap (f : Fail) (s : State)
  deriving DecidableEq, Repr

/-- A result for each lane the form computes for: one register (R123). -/
def eachResult (c : Ctx) (u : Bool) (d : BitVec 6) (v : Nat → Word) : List RegWrite :=
  (c.formLanes u).map fun l => if u then .group d.toNat (v l) else .lane d.toNat l (v l)

/-- Results of `cnt` consecutive registers, as numbers with the first register lowest. -/
def eachWide (c : Ctx) (u : Bool) (d : BitVec 6) (cnt : Nat) (v : Nat → Nat) : List RegWrite :=
  (c.formLanes u).flatMap fun l => if u then groupWrites d.toNat (v l) cnt else laneWrites d.toNat l (v l) cnt

/-- An instruction whose one effect is its register results, at once. -/
def results (s : State) (ws : List RegWrite) : Effect := .done s 0 0 ws

/-- The field code of the A operand that an instruction with H = 1 latches (R66, R127). -/
def holdOf : Instr → Option (BitVec 6)
  | .addI32 f | .subI32 f | .mulI32 f | .mulhiI32 f | .mulhiN32 f | .madI32 f | .addsI32 f | .subsI32 f | .addsN32 f
  | .minI32 f | .maxI32 f | .minN32 f | .maxN32 f | .sel f | .andL f | .orL f | .xorL f | .andn f | .shl f | .shrN f
  | .shrI f | .rotl f | .bfxN f | .bfxI f
  | .cmpEqI32 f | .cmpNeI32 f | .cmpLtI32 f | .cmpLeI32 f | .cmpLtN32 f | .cmpLeN32 f
  | .fcmpEqF32 f | .fcmpLtF32 f | .fcmpLeF32 f | .fcmpUnF32 f
  | .faddF32 f | .fsubF32 f | .fmulF32 f | .ffmaF32 f | .fminF32 f | .fmaxF32 f | .faddF16x2 f | .fmulF16x2 f
  | .ffmaF16x2 f | .ffmaBf16x2 f | .faddF64 f | .fmulF64 f | .ffmaF64 f | .fscaleF32 f | .packF16x2 f | .packBf16x2 f
  | .npq f | .npdq f | .froundF32 f => if f.h then some f.a else none
  | .absI32 f | .popc f | .clz f | .brev f | .fnegF32 f | .fabsF32 f | .cvtF32I32 f | .cvtI32F32 f | .cvtF32N32 f
  | .cvtN32F32 f | .cvtF64F32 f | .cvtF32F64 f | .fclassF32 f => if f.h then some f.a else none
  | .shfl f => if f.h then some f.a else none
  | .add64 f | .sub64 f | .lea f | .mulwI f | .mulwN f | .shl64 f | .shr64N f | .shr64I f | .min64N f | .max64N f =>
    if f.h then some f.a else none
  | .frcp f | .frsq f | .fsqrt f | .fdiv f | .fexp2 f | .flog2 f | .fsinpi f | .fcospi f | .ftanh f =>
    if f.h then some f.a else none
  | .ld f => if f.h then some f.a else none
  | .ldl f => if f.h then some f.a else none
  | .atom f => if f.h then some f.a else none
  | .atoml f => if f.h then some f.a else none
  | _ => none

/-- The loads that LWAIT waits for (R48). -/
def writesByLoad : Instr → Bool
  | .ld _ | .ldl _ | .atom _ | .atoml _ => true
  | _ => false

def isSigchk : Instr → Bool
  | .sigchk _ => true
  | _ => false

/-- The latch entries of a core are all bound (R128). -/
def latchFull (s : State) (core : Nat) : Bool := 3 ≤ (s.latches.filter fun e => e.core = core).length

/-- One more instruction of a slot issues: the operand blocks that its `mma` may still read (R315). -/
def countWindows (r : SlotRef) (l : List MatWindow) : List MatWindow :=
  (l.map fun m => if m.slot = r then { m with left := m.left - 1 } else m).filter fun m => m.left ≠ 0

/-- The count of a further instruction of a slot: lookahead (R70) and holds (R127). -/
def countIssue (s : State) (r : SlotRef) : State :=
  let s := onWave s r.wave fun x => { x with
    landings := x.landings.map fun e => if e.b = r.b then { e with left := e.left - 1 } else e
    locals := x.locals.map fun e => if e.b = r.b then { e with left := e.left - 1 } else e }
  { s with
    latches := (s.latches.map fun e => if e.slot = r then { e with left := e.left - 1 } else e).filter fun e => e.left ≠ 0
    mats := s.mats.map fun m => (m.1, mapWindows (countWindows r) m.2) }

/-- A taken transfer, a `join` or a trap ends the counts of a slot (R70), those of the operand blocks of its `mma` too
(R315), and its holds (R127). -/
def endCounts (s : State) (r : SlotRef) : State :=
  dropLatches (shutWindows (onWave s r.wave fun x => { x with
    landings := x.landings.map fun e => if e.b = r.b then { e with left := 0 } else e
    locals := x.locals.map fun e => if e.b = r.b then { e with left := 0 } else e }) fun m => m.slot = r) r

/-- The instructions whose A operand is a pair of registers that H latches whole; of an address pair it latches the first
register (R230). -/
def holdsPair : Instr → Bool
  | .faddF64 _ | .fmulF64 _ | .ffmaF64 _ | .cvtF32F64 _ | .add64 _ | .sub64 _ | .lea _ | .shl64 _ | .shr64N _ | .shr64I _
  | .min64N _ | .max64N _ => true
  | _ => false

/-- The hold of an instruction with H = 1: the A operand in every lane, as read at issue (R127). -/
def takeHold (s : State) (c : Ctx) : List Latch :=
  match holdOf c.i with
  | none => []
  | some a =>
    let ls := List.range c.x.width
    [⟨c.core, c.r, a.toNat, ls.map fun l => srcLane s c a l,
      if holdsPair c.i then ls.map fun l => srcLaneAt s c a 1 l else [], 2⟩]

/-- Folding an instruction's words into its slot's signature (R171). -/
def foldWords (s : State) (c : Ctx) : State :=
  if c.la.ker.sig && !c.x.super && !isSigchk c.i then
    onSlot s c.r fun sl => if sl.st = .run then { sl with sig := c.words.foldl foldSig sl.sig } else sl
  else s

/-- The operations for which a mask names tokens (R168). -/
def pendingOps (t : Team) (mask : BitVec 8) : List Nat :=
  (List.range 8).filterMap fun i => if mask.getLsbD i then (t.toks[i]?).bind (·.op) else none

/-- In interlocked mode the first instruction of a clause leaves the operations that its TWAIT names to those that read what
they write (R73). -/
def owedAfter (c : Ctx) (owed : List Nat) : List Nat :=
  let still := owed.filter (pendingOps c.t (BitVec.allOnes 8)).contains
  if c.la.ker.ilk && c.sl.woff = 1 then (still ++ pendingOps c.t (field (c.sl.clause.headD 0) 7 8)).eraseDups else still

/-- The slot has issued (R368); with the last instruction of a clause its yield hint begins, and one that runs goes on (R50). -/
def noteIssue (s : State) (c : Ctx) : State :=
  let yh := field (c.sl.clause.headD 0) 16 4
  let last := c.sl.clause.length ≤ c.sl.woff + c.words.length
  let (n, s) := fresh s
  onSlot s c.r fun sl => { sl with
    act := none, aged := false, last := n, issuedAt := s.clock, since := none, joint := none
    owed := owedAfter c sl.owed, ranked := if last && yh ≠ 0 then some ⟨s.clock, 8 * yh.toNat⟩ else sl.ranked }

/-- The slot advances to the next instruction in fall-through order (R45). -/
def advance (s : State) (c : Ctx) : State :=
  onSlot s c.r fun sl =>
    if sl.st ≠ .run then sl
    else
      let woff := c.sl.woff + c.words.length
      if woff < c.sl.clause.length then { sl with pc := c.next, woff }
      else { sl with pc := c.next, woff := 0, clause := [], header := none }

/-- Idle and waiting slots act between two issues of the wave (R153). -/
def settle' (s : State) (c : Ctx) : State := settleSlots s c.w c.la.ker.sig 64

/-- The register results of a retiring instruction: at once, or under lookahead (R70, R73). -/
def giveResults (s : State) (c : Ctx) (la : Nat) (ws : List RegWrite) : State :=
  if ws.isEmpty then s
  else if la = 0 || c.interlocked then writeRegs s c.w ws
  else onWave s c.w fun x => { x with landings := x.landings ++ [⟨c.r.b, la, writesByLoad c.i, x.super, ws⟩] }

/-- The trap frame's view of an issuing instruction. -/
def trapInfo (c : Ctx) (f : Fail) : TrapInfo :=
  { b := c.r.b, cause := f.cause, issued := true, pc := c.sl.pc, woff := c.sl.woff, w0 := c.words.headD 0, w1 := c.words.getD 1 0,
    act0 := c.act, f := f.f, acc := f.acc, spl := f.spl, code := f.code,
    lanes := f.lanes.map fun e => (e.1, BitVec.ofNat 64 e.2.1, e.2.2) }

/-- The instruction of a context traps. -/
def trapNow (s : State) (c : Ctx) (f : Fail) : State := takeTrap s c.w (trapInfo c f)

/-- An instruction retires (R378): counts, results, hold, signature and slot; then its poisoned lanes are killed (R427). -/
def retire (s : State) (c : Ctx) (holds : List Latch) (dead : LaneMask) (la : Nat) (ws : List RegWrite) : State :=
  let s := countIssue s c.r
  let s := giveResults s c la ws
  let s := { s with latches := holds ++ s.latches }
  let s := noteIssue (advance (foldWords s c) c) c
  settle' (killByPoison s c.w c.tag dead c.sl.pc) c

/-- What follows from an instruction's effect. Consuming poison under KABORT = 1 raises cause 8, and no lane writes a
register (R427). -/
def finish (c : Ctx) (holds : List Latch) (eaten : LaneMask) : Effect → State
  | .done s dead la ws =>
    if dead ≠ 0 && c.la.rcd.kabort then trapNow s c { plainFail 8 with f := dead }
    else retire s c holds (dead ||| eaten) la ws
  | .moved s fold =>
    let s := if fold then foldWords (countIssue s c.r) c else countIssue s c.r
    settle' (killByPoison (noteIssue s c) c.w c.tag eaten c.sl.pc) c
  | .wait s => if eaten = 0 then s else onWave s c.w fun x => { x with progress := x.progress.map fun p => { p with eaten } }
  | .left s => settle' s c
  | .trap f s => trapNow (killByPoison s c.w c.tag eaten c.sl.pc) c f

/-- The lanes that read poison in their registers when the instruction issued (R125, R425). -/
def eatenLanes (s : State) (c : Ctx) : LaneMask :=
  match c.x.progress.filter fun p => p.b = c.r.b && p.ops.isSome with
  | some p => p.eaten
  | none => ownPoison s c

/-- Issuing an instruction (R79): unimplemented-opcode cases, then illegal-encoding cases, then the poison of its register
words (R425), then its effect `k`. -/
def runIssue (c : Ctx) (s : State) (k : Ctx → State → Effect) : State :=
  if unimplBad c.i || dynUnimpl c.i c.x then trapNow s c (plainFail 2)
  else if illegalBad c.i || dynIllegal c.i c.x c.t c.la then trapNow s c (plainFail 1)
  else if (holdOf c.i).isSome && latchFull s c.core then s
  else
    let eaten := eatenLanes s c
    if eaten ≠ 0 && c.la.rcd.kabort then trapNow s c { plainFail 8 with f := eaten }
    else
      let c' := { c with act := c.act &&& ~~~eaten }
      finish c' (takeHold s c') eaten (k c' s)

/-- What an instruction sees when it issues for the slot of a state. -/
def ctxOf (i : Instr) (s : State) : Option Ctx :=
  match findWave s s.cur.wave with
  | none => none
  | some x =>
    match findTeam s x.team with
    | none => none
    | some t =>
      match findLaunch s t.launch with
      | none => none
      | some la =>
        let sl := slotOf x s.cur.b
        some { r := s.cur, i, words := encode i, x, sl, t, la, act := actOf i x sl }

/-- Every instruction's meaning: its effect `k` for the slot that issues. -/
def issueInstr (i : Instr) (s : State) (k : Ctx → State → Effect) : Host.Outcome State Fault Refusal :=
  match ctxOf i s with
  | none => .fault .noSlot
  | some c => .next (runIssue c s k)

end Sys2Proof.Machine
end

