-- ==== Sys2Proof/Machine/Integer.lean ====
section
/-! DEFINITION. Integer, logic, predicate and 64-bit instructions (R130 to R144). -/

namespace Sys2Proof.Machine

/-- The mould of R130 in the L layout; `op` is f(a, b, d) of R131. -/
def binary (f : LOps) (op : Word → Word → Word → Word) (c : Ctx) (s : State) : Effect :=
  results s (eachResult c f.u f.d fun l => op (src s c f.u f.a l) (src s c f.u f.b l) (srcDest s c f.u f.d l))

/-- The mould with B = 0. -/
def unary (f : LOps2) (op : Word → Word) (c : Ctx) (s : State) : Effect :=
  results s (eachResult c f.u f.d fun l => op (src s c f.u f.a l))

/-- The mould in the I layout. -/
def immediate (f : IOps) (op : Word → BitVec 7 → Word) (c : Ctx) (s : State) : Effect :=
  results s (eachResult c f.u f.d fun l => op (src s c f.u f.a l) f.i)

/-- A predicate result (R123, R135): the lanes of `act`, or the group predicate. -/
def predResult (s : State) (c : Ctx) (u : Bool) (d : BitVec 6) (p : Nat → Bool) : Effect :=
  if u then
    if c.act = 0 then results s []
    else results (onWave s c.w fun x => setGroupPred x d.toNat (p 0)) []
  else results (onWave s c.w fun x => setPred x d.toNat c.act (maskOf (c.lanes.filter p))) []

/-- The mould of R135. -/
def compare (f : LOps) (p : Word → Word → Bool) (c : Ctx) (s : State) : Effect :=
  predResult s c f.u f.d fun l => p (src s c f.u f.a l) (src s c f.u f.b l)

def compareI (f : IOps) (p : Word → Word → Bool) (c : Ctx) (s : State) : Effect :=
  predResult s c f.u f.d fun l => p (src s c f.u f.a l) (sext 32 f.i)

/-! The functions of R131 and R133 that need more than one operator. -/

def mulhiSigned (a b : Word) : Word := BitVec.ofInt 32 (a.toInt * b.toInt / 2 ^ 32)
def mulhiPlain (a b : Word) : Word := BitVec.ofNat 32 (a.toNat * b.toNat / 2 ^ 32)

/-- Clamping to an `i32` (R90). -/
def clampI32 (v : Int) : Word :=
  if v < -(2 ^ 31) then BitVec.ofInt 32 (-(2 ^ 31)) else if 2 ^ 31 - 1 < v then BitVec.ofInt 32 (2 ^ 31 - 1)
  else BitVec.ofInt 32 v

def clampN32 (v : Nat) : Word := BitVec.ofNat 32 (min v (2 ^ 32 - 1))
def absWord (a : Word) : Word := if a.slt 0 then -a else a
def popWord (a : Word) : Word := BitVec.ofNat 32 ((List.range 32).filter fun i => a.getLsbD i).length
def revWord (a : Word) : Word := (List.range 32).foldl (fun r i => if a.getLsbD i then r ||| (1#32 <<< (31 - i)) else r) 0

/-- Leading zeros among the low `n` bits. -/
def leadingZeros (a : Word) : Nat → Nat
  | 0 => 0
  | n + 1 => if a.getLsbD n then 0 else leadingZeros a n + 1

def clzWord (a : Word) : Word := BitVec.ofNat 32 (leadingZeros a 32)

/-- `bfx` (R133): position b[4:0], length b[9:5] with 0 for 32, of `a` widened to 64 bits. -/
def bitField (signed : Bool) (a b : Word) : Word :=
  let pos := b.toNat % 32
  let len := if b.toNat / 32 % 32 = 0 then 32 else b.toNat / 32 % 32
  let wide : DWord := if signed then sext 64 a else zext 64 a
  let v := (wide >>> pos).toNat % 2 ^ len
  if signed && v.testBit (len - 1) then BitVec.ofInt 32 ((v : Int) - 2 ^ len) else BitVec.ofNat 32 v

/-! The meanings. -/

/-- R131 `add.i32`. -/
def execAddI32 (f : LOps) (s : State) : Host.Outcome State Fault Refusal :=
  issueInstr (.addI32 f) s (binary f (fun a b _ => a + b))

/-- R131 `sub.i32`. -/
def execSubI32 (f : LOps) (s : State) : Host.Outcome State Fault Refusal :=
  issueInstr (.subI32 f) s (binary f (fun a b _ => a - b))

/-- R131 `mul.i32`. -/
def execMulI32 (f : LOps) (s : State) : Host.Outcome State Fault Refusal :=
  issueInstr (.mulI32 f) s (binary f (fun a b _ => a * b))

/-- R131 `mulhi.i32`. -/
def execMulhiI32 (f : LOps) (s : State) : Host.Outcome State Fault Refusal :=
  issueInstr (.mulhiI32 f) s (binary f (fun a b _ => mulhiSigned a b))

/-- R131 `mulhi.n32`. -/
def execMulhiN32 (f : LOps) (s : State) : Host.Outcome State Fault Refusal :=
  issueInstr (.mulhiN32 f) s (binary f (fun a b _ => mulhiPlain a b))

/-- R131 `mad.i32`. -/
def execMadI32 (f : LOps) (s : State) : Host.Outcome State Fault Refusal :=
  issueInstr (.madI32 f) s (binary f (fun a b d => d + a * b))

/-- R131 `adds.i32`. -/
def execAddsI32 (f : LOps) (s : State) : Host.Outcome State Fault Refusal :=
  issueInstr (.addsI32 f) s (binary f (fun a b _ => clampI32 (a.toInt + b.toInt)))

/-- R131 `subs.i32`. -/
def execSubsI32 (f : LOps) (s : State) : Host.Outcome State Fault Refusal :=
  issueInstr (.subsI32 f) s (binary f (fun a b _ => clampI32 (a.toInt - b.toInt)))

/-- R131 `adds.n32`. -/
def execAddsN32 (f : LOps) (s : State) : Host.Outcome State Fault Refusal :=
  issueInstr (.addsN32 f) s (binary f (fun a b _ => clampN32 (a.toNat + b.toNat)))

/-- R131 `min.i32`. -/
def execMinI32 (f : LOps) (s : State) : Host.Outcome State Fault Refusal :=
  issueInstr (.minI32 f) s (binary f (fun a b _ => if a.slt b then a else b))

/-- R131 `max.i32`. -/
def execMaxI32 (f : LOps) (s : State) : Host.Outcome State Fault Refusal :=
  issueInstr (.maxI32 f) s (binary f (fun a b _ => if a.slt b then b else a))

/-- R131 `min.n32`. -/
def execMinN32 (f : LOps) (s : State) : Host.Outcome State Fault Refusal :=
  issueInstr (.minN32 f) s (binary f (fun a b _ => if a.ult b then a else b))

/-- R131 `max.n32`. -/
def execMaxN32 (f : LOps) (s : State) : Host.Outcome State Fault Refusal :=
  issueInstr (.maxN32 f) s (binary f (fun a b _ => if a.ult b then b else a))

/-- R131 `and`. -/
def execAndL (f : LOps) (s : State) : Host.Outcome State Fault Refusal :=
  issueInstr (.andL f) s (binary f (fun a b _ => a &&& b))

/-- R131 `or`. -/
def execOrL (f : LOps) (s : State) : Host.Outcome State Fault Refusal :=
  issueInstr (.orL f) s (binary f (fun a b _ => a ||| b))

/-- R131 `xor`. -/
def execXorL (f : LOps) (s : State) : Host.Outcome State Fault Refusal :=
  issueInstr (.xorL f) s (binary f (fun a b _ => a ^^^ b))

/-- R131 `andn`. -/
def execAndn (f : LOps) (s : State) : Host.Outcome State Fault Refusal :=
  issueInstr (.andn f) s (binary f (fun a b _ => a &&& ~~~b))

/-- R131 `shl`. -/
def execShl (f : LOps) (s : State) : Host.Outcome State Fault Refusal :=
  issueInstr (.shl f) s (binary f (fun a b _ => a <<< (b.toNat % 32)))

/-- R131 `shr.n`. -/
def execShrN (f : LOps) (s : State) : Host.Outcome State Fault Refusal :=
  issueInstr (.shrN f) s (binary f (fun a b _ => a >>> (b.toNat % 32)))

/-- R131 `shr.i`. -/
def execShrI (f : LOps) (s : State) : Host.Outcome State Fault Refusal :=
  issueInstr (.shrI f) s (binary f (fun a b _ => a.sshiftRight (b.toNat % 32)))

/-- R131 `rotl`. -/
def execRotl (f : LOps) (s : State) : Host.Outcome State Fault Refusal :=
  issueInstr (.rotl f) s (binary f (fun a b _ => a.rotateLeft (b.toNat % 32)))

/-- R133 `bfx.n`. -/
def execBfxN (f : LOps) (s : State) : Host.Outcome State Fault Refusal :=
  issueInstr (.bfxN f) s (binary f (fun a b _ => bitField false a b))

/-- R133 `bfx.i`. -/
def execBfxI (f : LOps) (s : State) : Host.Outcome State Fault Refusal :=
  issueInstr (.bfxI f) s (binary f (fun a b _ => bitField true a b))

/-- R131 `abs.i32`. -/
def execAbsI32 (f : LOps2) (s : State) : Host.Outcome State Fault Refusal :=
  issueInstr (.absI32 f) s (unary f absWord)

/-- R131 `popc`. -/
def execPopc (f : LOps2) (s : State) : Host.Outcome State Fault Refusal :=
  issueInstr (.popc f) s (unary f popWord)

/-- R131 `clz`. -/
def execClz (f : LOps2) (s : State) : Host.Outcome State Fault Refusal :=
  issueInstr (.clz f) s (unary f clzWord)

/-- R131 `brev`. -/
def execBrev (f : LOps2) (s : State) : Host.Outcome State Fault Refusal :=
  issueInstr (.brev f) s (unary f revWord)

/-- R131 `addi`. -/
def execAddi (f : IOps) (s : State) : Host.Outcome State Fault Refusal :=
  issueInstr (.addi f) s (immediate f (fun a i => a + sext 32 i))

/-- R131 `shli`. -/
def execShli (f : IOps) (s : State) : Host.Outcome State Fault Refusal :=
  issueInstr (.shli f) s (immediate f (fun a i => a <<< i.toNat))

/-- R131 `shri.n`. -/
def execShriN (f : IOps) (s : State) : Host.Outcome State Fault Refusal :=
  issueInstr (.shriN f) s (immediate f (fun a i => a >>> i.toNat))

/-- R131 `shri.i`. -/
def execShriI (f : IOps) (s : State) : Host.Outcome State Fault Refusal :=
  issueInstr (.shriI f) s (immediate f (fun a i => a.sshiftRight i.toNat))

/-- `sel` (R132): the guard selects; every lane of alive ∧ slot mask, or the group, is written. -/
def selEffect (f : LOps) (c : Ctx) (s : State) : Effect :=
  results s (eachResult c f.u f.d fun l =>
    if (if f.u then groupGuard c.x f.g else (laneGuard c.x f.g).getLsbD l) then src s c f.u f.a l else src s c f.u f.b l)

/-- R132 `sel`. -/
def execSel (f : LOps) (s : State) : Host.Outcome State Fault Refusal := issueInstr (.sel f) s (selEffect f)

/-- R136. -/
def execCmpEqI32 (f : LOps) (s : State) : Host.Outcome State Fault Refusal :=
  issueInstr (.cmpEqI32 f) s (compare f cmpEq)

/-- R136. -/
def execCmpNeI32 (f : LOps) (s : State) : Host.Outcome State Fault Refusal :=
  issueInstr (.cmpNeI32 f) s (compare f cmpNe)

/-- R136. -/
def execCmpLtI32 (f : LOps) (s : State) : Host.Outcome State Fault Refusal :=
  issueInstr (.cmpLtI32 f) s (compare f cmpLtI)

/-- R136. -/
def execCmpLeI32 (f : LOps) (s : State) : Host.Outcome State Fault Refusal :=
  issueInstr (.cmpLeI32 f) s (compare f cmpLeI)

/-- R136. -/
def execCmpLtN32 (f : LOps) (s : State) : Host.Outcome State Fault Refusal :=
  issueInstr (.cmpLtN32 f) s (compare f cmpLtN)

/-- R136. -/
def execCmpLeN32 (f : LOps) (s : State) : Host.Outcome State Fault Refusal :=
  issueInstr (.cmpLeN32 f) s (compare f cmpLeN)

/-- R136. -/
def execCmpiEq (f : IOps) (s : State) : Host.Outcome State Fault Refusal :=
  issueInstr (.cmpiEq f) s (compareI f cmpEq)

/-- R136. -/
def execCmpiLtI32 (f : IOps) (s : State) : Host.Outcome State Fault Refusal :=
  issueInstr (.cmpiLtI32 f) s (compareI f cmpLtI)

/-- R136. -/
def execCmpiLtN32 (f : IOps) (s : State) : Host.Outcome State Fault Refusal :=
  issueInstr (.cmpiLtN32 f) s (compareI f cmpLtN)

/-- The functions of `kop` (R138). -/
def kopFn (fn : BitVec 2) (a b : Bool) : Bool :=
  if fn = 0 then a && b else if fn = 1 then a || b else if fn = 2 then a != b else a && !b

/-- A predicate source in either form. -/
def srcPred (c : Ctx) (u : Bool) (n : Nat) (l : Nat) : Bool := if u then groupPred c.x n else (predReg c.x n).getLsbD l

/-- R138 `kop`. -/
def execKop (f : KopOps) (s : State) : Host.Outcome State Fault Refusal :=
  issueInstr (.kop f) s fun c s =>
    predResult s c f.u f.d fun l => kopFn f.f (srcPred c f.u f.a.toNat l) (srcPred c f.u f.p.toNat l)

/-- R139 `kmov` to a predicate. -/
def execKmovKV (f : KmovOps) (s : State) : Host.Outcome State Fault Refusal :=
  issueInstr (.kmovKV f) s fun c s => predResult s c f.u f.d fun l => src s c f.u f.a l ≠ 0

/-- R139 `kmov` from a predicate. -/
def execKmovVK (f : KmovOps) (s : State) : Host.Outcome State Fault Refusal :=
  issueInstr (.kmovVK f) s fun c s =>
    results s (eachResult c f.u f.d fun l => if srcPred c f.u f.a.toNat l then 1 else 0)

/-- R140 `kset`: a width-32 wave reads only g[N]. -/
def execKset (f : DAOps) (s : State) : Host.Outcome State Fault Refusal :=
  issueInstr (.kset f) s fun c s =>
    predResult s c false f.d fun l => (readGroupPair s c.x f.a.toNat).getLsbD l

/-- R141 `movi`. -/
def execMovi (f : MoviOps) (s : State) : Host.Outcome State Fault Refusal :=
  issueInstr (.movi f) s fun c s => results s (eachResult c f.u f.d fun _ => f.imm)

/-- `alu64` on two pairs (R143, R144). -/
def wide2 (f : Alu64Ops) (op : DWord → DWord → Alu64Ops → DWord) (c : Ctx) (s : State) : Effect :=
  results s (eachWide c f.u f.d 2 fun l => (op (srcPair s c f.u f.a l) (srcPair s c f.u f.b l) f).toNat)

/-- `alu64` on a pair and a register. -/
def wide1 (f : Alu64Ops) (op : DWord → Word → Alu64Ops → DWord) (c : Ctx) (s : State) : Effect :=
  results s (eachWide c f.u f.d 2 fun l => (op (srcPair s c f.u f.a l) (src s c f.u f.b l) f).toNat)

/-- `alu64` on two registers. -/
def wide0 (f : Alu64Ops) (op : Word → Word → DWord) (c : Ctx) (s : State) : Effect :=
  results s (eachWide c f.u f.d 2 fun l => (op (src s c f.u f.a l) (src s c f.u f.b l)).toNat)

/-- R143. -/
def execAdd64 (f : Alu64Ops) (s : State) : Host.Outcome State Fault Refusal :=
  issueInstr (.add64 f) s (wide2 f (fun a b f => a + b + sext 64 f.imm))

/-- R143. -/
def execSub64 (f : Alu64Ops) (s : State) : Host.Outcome State Fault Refusal :=
  issueInstr (.sub64 f) s (wide2 f (fun a b f => a - b + sext 64 f.imm))

/-- R143. -/
def execMin64N (f : Alu64Ops) (s : State) : Host.Outcome State Fault Refusal :=
  issueInstr (.min64N f) s (wide2 f (fun a b _ => if a.ult b then a else b))

/-- R143. -/
def execMax64N (f : Alu64Ops) (s : State) : Host.Outcome State Fault Refusal :=
  issueInstr (.max64N f) s (wide2 f (fun a b _ => if a.ult b then b else a))

/-- R143. -/
def execLea (f : Alu64Ops) (s : State) : Host.Outcome State Fault Refusal :=
  issueInstr (.lea f) s (wide1 f (fun a b f => a + (sext 64 b <<< f.sh.toNat) + sext 64 f.imm))

/-- R143. -/
def execShl64 (f : Alu64Ops) (s : State) : Host.Outcome State Fault Refusal :=
  issueInstr (.shl64 f) s (wide1 f (fun a b _ => a <<< (b.toNat % 64)))

/-- R143. -/
def execShr64N (f : Alu64Ops) (s : State) : Host.Outcome State Fault Refusal :=
  issueInstr (.shr64N f) s (wide1 f (fun a b _ => a >>> (b.toNat % 64)))

/-- R143. -/
def execShr64I (f : Alu64Ops) (s : State) : Host.Outcome State Fault Refusal :=
  issueInstr (.shr64I f) s (wide1 f (fun a b _ => a.sshiftRight (b.toNat % 64)))

/-- R143. -/
def execMulwI (f : Alu64Ops) (s : State) : Host.Outcome State Fault Refusal :=
  issueInstr (.mulwI f) s (wide0 f (fun a b => sext 64 a * sext 64 b))

/-- R143. -/
def execMulwN (f : Alu64Ops) (s : State) : Host.Outcome State Fault Refusal :=
  issueInstr (.mulwN f) s (wide0 f (fun a b => zext 64 a * zext 64 b))

end Sys2Proof.Machine
end

