-- ==== Sys2Proof/Machine/Floats.lean ====
section
/-! DEFINITION. The float, conversion and quantisation instructions (R137, R188 to R199) and `fpmode` (R205). -/

namespace Sys2Proof.Machine

/-! The fields of `%fpmode` (R96). -/

def modeRnd (m : BitVec 7) : Rnd := rndOf (field m 0 2)
def modeIn (m : BitVec 7) : Bool := m.getLsbD 2
def modeOut (m : BitVec 7) : Bool := m.getLsbD 3
def modeNmm (m : BitVec 7) : Bool := m.getLsbD 4
def modeNcv (m : BitVec 7) : Bool := m.getLsbD 5
def modeFms (m : BitVec 7) : Bool := m.getLsbD 6

/-- `fin` of R190, as a value. -/
def operand (f : Fmt) (m : BitVec 7) (x : Nat) : FVal := flushIn f (modeIn m) (decodeF f x)

/-- `round` of R190. -/
def rounded (f : Fmt) (m : BitVec 7) (v : FVal) : Nat := encodeF f (modeRnd m) (modeOut m) v

def addBits (f : Fmt) (m : BitVec 7) (a b : Nat) : Nat :=
  rounded f m (addF (modeRnd m) (operand f m a) (operand f m b))

def subBits (f : Fmt) (m : BitVec 7) (a b : Nat) : Nat :=
  rounded f m (addF (modeRnd m) (operand f m a) (negF (operand f m b)))

def mulBits (f : Fmt) (m : BitVec 7) (a b : Nat) : Nat := rounded f m (mulF (operand f m a) (operand f m b))

/-- The fused multiply-add, or the split one of FMS = 1 (R101). -/
def fmaBits (f : Fmt) (m : BitVec 7) (a b d : Nat) : Nat :=
  let p := mulF (operand f m a) (operand f m b)
  let p := if modeFms m then decodeF f (rounded f m p) else p
  rounded f m (addF (modeRnd m) p (operand f m d))

/-- A word function on the two halves of a packed register (R93). -/
def packed (op : Nat → Nat → Nat → Nat) (a b d : Word) : Word :=
  BitVec.ofNat 16 (op (a.toNat / 2 ^ 16) (b.toNat / 2 ^ 16) (d.toNat / 2 ^ 16)) ++
    BitVec.ofNat 16 (op (a.toNat % 2 ^ 16) (b.toNat % 2 ^ 16) (d.toNat % 2 ^ 16))

/-- A value function as a word function. -/
def single (op : Nat → Nat → Nat → Nat) (a b d : Word) : Word := BitVec.ofNat 32 (op a.toNat b.toNat d.toNat)

/-- The mould of R190 on registers. -/
def floatOp (f : LOps) (op : BitVec 7 → Word → Word → Word → Word) (c : Ctx) (s : State) : Effect :=
  binary f (op c.x.fpmode) c s

def floatUnary (f : LOps2) (op : BitVec 7 → Word → Word) (c : Ctx) (s : State) : Effect := unary f (op c.x.fpmode) c s

/-- The mould on pairs. -/
def floatOp64 (f : LOps) (op : BitVec 7 → Nat → Nat → Nat → Nat) (c : Ctx) (s : State) : Effect :=
  results s (eachWide c f.u f.d 2 fun l =>
    op c.x.fpmode (srcPair s c f.u f.a l).toNat (srcPair s c f.u f.b l).toNat (destPair s c f.u f.d l).toNat)

/-- A subnormal word as a zero of its sign. -/
def flushWord (on : Bool) (a : Word) : Word := if on && field a 23 8 = 0 then a &&& 0x80000000 else a

def isNanWord (a : Word) : Bool := field a 23 8 = 255 && field a 0 23 ≠ 0

/-- The order of R99, with −0 below +0. -/
def floatKey (a : Word) : Int := if a.getLsbD 31 then -(field a 0 31).toNat - 1 else (field a 0 31).toNat

/-- `fmin` and `fmax` (R99, R192). -/
def minMax (larger : Bool) (m : BitVec 7) (a b : Word) : Word :=
  let a := flushWord (modeIn m) a
  let b := flushWord (modeIn m) b
  let r : Word :=
    if isNanWord a && isNanWord b then 0x7FC00000
    else if isNanWord a then (if modeNmm m then b else 0x7FC00000)
    else if isNanWord b then (if modeNmm m then a else 0x7FC00000)
    else if larger then (if floatKey a < floatKey b then b else a)
    else if floatKey b < floatKey a then b else a
  flushWord (modeOut m) r

/-- `fscale` (R193). -/
def scaleBits (m : BitVec 7) (a b : Word) : Word :=
  BitVec.ofNat 32 (rounded fmtF32 m (scaleF b.toInt (operand fmtF32 m a.toNat)))

/-- An integer as a value. -/
def intF (v : Int) : FVal := .fin (v < 0) v.natAbs 0

/-- Converting to an integer (R100). -/
def toIntWord (lo hi : Int) (m : BitVec 7) (a : Word) : Word :=
  BitVec.ofInt 32 (toInteger (modeRnd m) lo hi (if modeNcv m then 2 ^ 31 else 0) (operand fmtF32 m a.toNat))

/-- One format's encoding read and rounded into another. -/
def convertBits (f g : Fmt) (m : BitVec 7) (x : Nat) : Nat := rounded g m (operand f m x)

/-- The half of `unpk` (R195). -/
def unpackHalf (f : Fmt) (m : BitVec 7) (a : Word) (h : BitVec 7) : Word :=
  BitVec.ofNat 32 (convertBits f fmtF32 m (if h = 0 then a.toNat % 2 ^ 16 else a.toNat / 2 ^ 16))

def packHalves (f : Fmt) (m : BitVec 7) (a b : Word) : Word :=
  BitVec.ofNat 16 (convertBits fmtF32 f m b.toNat) ++ BitVec.ofNat 16 (convertBits fmtF32 f m a.toNat)

/-- The direction of `fround` (R196). -/
def frndDir (code : BitVec 6) (m : BitVec 7) : Rnd :=
  if code = 0 then modeRnd m else rndOf (field (code - 1) 0 2)

/-- `fround` (R196): infinities and integral values stay as they are. -/
def roundIntegral (dir : Rnd) (m : BitVec 7) (a : Word) : Word :=
  match operand fmtF32 m a.toNat with
  | .nan => 0x7FC00000
  | .inf _ => a
  | .fin neg k e =>
    let v : FVal := if 0 ≤ e then .fin neg k e else
      let (q, rem, unit) := cutAt k e 0
      .fin neg (if roundsUp dir neg q rem unit then q + 1 else q) 0
    BitVec.ofNat 32 (encodeF fmtF32 .rne false v)

/-- `fclass` (R197). -/
def classBit (a : Word) : Nat :=
  let neg := a.getLsbD 31
  let e := field a 23 8
  let f := field a 0 23
  if e = 255 then (if f = 0 then (if neg then 0 else 7) else if f.getLsbD 22 then 9 else 8)
  else if e = 0 then (if f = 0 then (if neg then 3 else 4) else if neg then 2 else 5)
  else if neg then 1 else 6

/-- `npq` (R198). -/
def quantise (a b : Word) : Word :=
  BitVec.ofInt 32 (toInteger .rne (-127) 127 0 (scaleF (-b.toInt) (decodeF fmtF32 a.toNat)))

/-- `npdq` (R199). -/
def dequantise (m : BitVec 7) (a b : Word) : Word :=
  BitVec.ofNat 32 (rounded fmtF32 m (scaleF b.toInt (intF (field a 0 8).toInt)))

/-- `fcmp` (R136, R137): none when unordered. -/
def compareWords (m : BitVec 7) (a b : Word) : Option Ordering := cmpF (operand fmtF32 m a.toNat) (operand fmtF32 m b.toNat)

def floatCompare (f : LOps) (p : Option Ordering → Bool) (c : Ctx) (s : State) : Effect :=
  compare f (fun a b => p (compareWords c.x.fpmode a b)) c s

/-- R136. -/
def execFcmpEqF32 (f : LOps) (s : State) : Host.Outcome State Fault Refusal :=
  issueInstr (.fcmpEqF32 f) s (floatCompare f fun o => o == some .eq)

/-- R136. -/
def execFcmpLtF32 (f : LOps) (s : State) : Host.Outcome State Fault Refusal :=
  issueInstr (.fcmpLtF32 f) s (floatCompare f fun o => o == some .lt)

/-- R136. -/
def execFcmpLeF32 (f : LOps) (s : State) : Host.Outcome State Fault Refusal :=
  issueInstr (.fcmpLeF32 f) s (floatCompare f fun o => o == some .lt || o == some .eq)

/-- R136. -/
def execFcmpUnF32 (f : LOps) (s : State) : Host.Outcome State Fault Refusal :=
  issueInstr (.fcmpUnF32 f) s (floatCompare f fun o => o == none)

/-- R191. -/
def execFaddF32 (f : LOps) (s : State) : Host.Outcome State Fault Refusal :=
  issueInstr (.faddF32 f) s (floatOp f fun m => single fun a b _ => addBits fmtF32 m a b)

/-- R191. -/
def execFsubF32 (f : LOps) (s : State) : Host.Outcome State Fault Refusal :=
  issueInstr (.fsubF32 f) s (floatOp f fun m => single fun a b _ => subBits fmtF32 m a b)

/-- R191. -/
def execFmulF32 (f : LOps) (s : State) : Host.Outcome State Fault Refusal :=
  issueInstr (.fmulF32 f) s (floatOp f fun m => single fun a b _ => mulBits fmtF32 m a b)

/-- R191, R101. -/
def execFfmaF32 (f : LOps) (s : State) : Host.Outcome State Fault Refusal :=
  issueInstr (.ffmaF32 f) s (floatOp f fun m => single (fmaBits fmtF32 m))

/-- R192. -/
def execFminF32 (f : LOps) (s : State) : Host.Outcome State Fault Refusal :=
  issueInstr (.fminF32 f) s (floatOp f fun m a b _ => minMax false m a b)

/-- R192. -/
def execFmaxF32 (f : LOps) (s : State) : Host.Outcome State Fault Refusal :=
  issueInstr (.fmaxF32 f) s (floatOp f fun m a b _ => minMax true m a b)

/-- R192. -/
def execFnegF32 (f : LOps2) (s : State) : Host.Outcome State Fault Refusal :=
  issueInstr (.fnegF32 f) s (floatUnary f fun _ a => a ^^^ 0x80000000)

/-- R192. -/
def execFabsF32 (f : LOps2) (s : State) : Host.Outcome State Fault Refusal :=
  issueInstr (.fabsF32 f) s (floatUnary f fun _ a => a &&& 0x7FFFFFFF)

/-- R191. -/
def execFaddF16x2 (f : LOps) (s : State) : Host.Outcome State Fault Refusal :=
  issueInstr (.faddF16x2 f) s (floatOp f fun m => packed fun a b _ => addBits fmtF16 m a b)

/-- R191. -/
def execFmulF16x2 (f : LOps) (s : State) : Host.Outcome State Fault Refusal :=
  issueInstr (.fmulF16x2 f) s (floatOp f fun m => packed fun a b _ => mulBits fmtF16 m a b)

/-- R191, R101. -/
def execFfmaF16x2 (f : LOps) (s : State) : Host.Outcome State Fault Refusal :=
  issueInstr (.ffmaF16x2 f) s (floatOp f fun m => packed (fmaBits fmtF16 m))

/-- R191, R101. -/
def execFfmaBf16x2 (f : LOps) (s : State) : Host.Outcome State Fault Refusal :=
  issueInstr (.ffmaBf16x2 f) s (floatOp f fun m => packed (fmaBits fmtBf16 m))

/-- R191. -/
def execFaddF64 (f : LOps) (s : State) : Host.Outcome State Fault Refusal :=
  issueInstr (.faddF64 f) s (floatOp64 f fun m a b _ => addBits fmtF64 m a b)

/-- R191. -/
def execFmulF64 (f : LOps) (s : State) : Host.Outcome State Fault Refusal :=
  issueInstr (.fmulF64 f) s (floatOp64 f fun m a b _ => mulBits fmtF64 m a b)

/-- R191, R101. -/
def execFfmaF64 (f : LOps) (s : State) : Host.Outcome State Fault Refusal :=
  issueInstr (.ffmaF64 f) s (floatOp64 f fun m => fmaBits fmtF64 m)

/-- R193. -/
def execFscaleF32 (f : LOps) (s : State) : Host.Outcome State Fault Refusal :=
  issueInstr (.fscaleF32 f) s (floatOp f fun m a b _ => scaleBits m a b)

/-- R194. -/
def execCvtF32I32 (f : LOps2) (s : State) : Host.Outcome State Fault Refusal :=
  issueInstr (.cvtF32I32 f) s (floatUnary f fun m a => BitVec.ofNat 32 (rounded fmtF32 m (intF a.toInt)))

/-- R194, R100. -/
def execCvtI32F32 (f : LOps2) (s : State) : Host.Outcome State Fault Refusal :=
  issueInstr (.cvtI32F32 f) s (floatUnary f (toIntWord (-(2 ^ 31)) (2 ^ 31 - 1)))

/-- R194. -/
def execCvtF32N32 (f : LOps2) (s : State) : Host.Outcome State Fault Refusal :=
  issueInstr (.cvtF32N32 f) s (floatUnary f fun m a => BitVec.ofNat 32 (rounded fmtF32 m (intF a.toNat)))

/-- R194, R100. -/
def execCvtN32F32 (f : LOps2) (s : State) : Host.Outcome State Fault Refusal :=
  issueInstr (.cvtN32F32 f) s (floatUnary f (toIntWord 0 (2 ^ 32 - 1)))

/-- R194. -/
def execPackF16x2 (f : LOps) (s : State) : Host.Outcome State Fault Refusal :=
  issueInstr (.packF16x2 f) s (floatOp f fun m a b _ => packHalves fmtF16 m a b)

/-- R194. -/
def execPackBf16x2 (f : LOps) (s : State) : Host.Outcome State Fault Refusal :=
  issueInstr (.packBf16x2 f) s (floatOp f fun m a b _ => packHalves fmtBf16 m a b)

/-- R195. -/
def execUnpkF16 (f : IOps) (s : State) : Host.Outcome State Fault Refusal :=
  issueInstr (.unpkF16 f) s (fun c => immediate f (unpackHalf fmtF16 c.x.fpmode) c)

/-- R195. -/
def execUnpkBf16 (f : IOps) (s : State) : Host.Outcome State Fault Refusal :=
  issueInstr (.unpkBf16 f) s (fun c => immediate f (unpackHalf fmtBf16 c.x.fpmode) c)

/-- R194. -/
def execCvtF64F32 (f : LOps2) (s : State) : Host.Outcome State Fault Refusal :=
  issueInstr (.cvtF64F32 f) s (fun c s => results s (eachWide c f.u f.d 2 fun l => convertBits fmtF32 fmtF64 c.x.fpmode (src s c f.u f.a l).toNat))

/-- R194. -/
def execCvtF32F64 (f : LOps2) (s : State) : Host.Outcome State Fault Refusal :=
  issueInstr (.cvtF32F64 f) s (fun c s => results s (eachResult c f.u f.d fun l => BitVec.ofNat 32 (convertBits fmtF64 fmtF32 c.x.fpmode (srcPair s c f.u f.a l).toNat)))

/-- R198. -/
def execNpq (f : LOps) (s : State) : Host.Outcome State Fault Refusal :=
  issueInstr (.npq f) s (floatOp f fun _ a b _ => quantise a b)

/-- R199. -/
def execNpdq (f : LOps) (s : State) : Host.Outcome State Fault Refusal :=
  issueInstr (.npdq f) s (floatOp f fun m a b _ => dequantise m a b)

/-- R196. -/
def execFroundF32 (f : LOps) (s : State) : Host.Outcome State Fault Refusal :=
  issueInstr (.froundF32 f) s (floatUnary ⟨f.u, f.g, f.h, f.d, f.a⟩ fun m => roundIntegral (frndDir f.b m) m)

/-- R197. -/
def execFclassF32 (f : LOps2) (s : State) : Host.Outcome State Fault Refusal :=
  issueInstr (.fclassF32 f) s (floatUnary f fun _ a => BitVec.ofNat 32 (2 ^ classBit a))

/-- Writing `%fpmode` once for the wave (R205). -/
def setMode (new : BitVec 7 → State → BitVec 7) (c : Ctx) (s : State) : Effect :=
  if c.act = 0 then results s [] else results (onWave s c.w fun x => { x with fpmode := new x.fpmode s }) []

/-- R205 SUB 0. -/
def execFpmodeSet (f : FpmodeOps) (s : State) : Host.Outcome State Fault Refusal :=
  issueInstr (.fpmodeSet f) s (setMode fun _ _ => f.v)

/-- R205 SUB 1. -/
def execFpmodeLd (f : AOps) (s : State) : Host.Outcome State Fault Refusal :=
  issueInstr (.fpmodeLd f) s fun c => setMode (fun _ s => field (readGroup s c.x f.a.toNat) 0 7) c

/-- R205 SUB 2. -/
def execFpmodeUpd (f : FpmodeOps) (s : State) : Host.Outcome State Fault Refusal :=
  issueInstr (.fpmodeUpd f) s (setMode fun old _ => (old &&& ~~~f.m) ||| (f.v &&& f.m))

end Sys2Proof.Machine
end

