-- ==== Sys2Proof/Machine/CrossLane.lean ====
section
/-! DEFINITION. Cross-lane and plane instructions (R174 to R186). -/

namespace Sys2Proof.Machine

/-- The A word of lane `n` carries poison that a reader of it consumes (R425). -/
def markedA (s : State) (c : Ctx) (a : BitVec 6) (n : Nat) : Bool :=
  a.toNat < 56 && (latchFor s c.r a.toNat).isNone && laneMarked s c.w c.x a.toNat n

/-- A lane register source read from lane `n` (R177). -/
def fromLane (s : State) (c : Ctx) (a : BitVec 6) (n : Nat) : Word := if c.x.alive.getLsbD n then srcLane s c a n else 0

/-- `%deadrd` when any of these lanes is not alive (R178). -/
def noteDead (s : State) (c : Ctx) (read : List Nat) : State :=
  if read.any fun n => !c.x.alive.getLsbD n then onWave s c.w fun x => { x with deadrd := true } else s

/-- The mould of the shuffles (R180): `from'` gives lane l's source lane, none for its own value. -/
def shuffle (d a : BitVec 6) (from' : Nat → Option Nat) (c : Ctx) (s : State) : Effect :=
  let value (l : Nat) : Word := match from' l with
    | some n => fromLane s c a n
    | none => srcLane s c a l
  let dead := maskOf (c.lanes.filter fun l => match from' l with
    | some n => c.x.alive.getLsbD n && markedA s c a n
    | none => markedA s c a l)
  .done (noteDead s c (c.lanes.filterMap from')) dead 0
    ((c.lanes.filter fun l => !dead.getLsbD l).map fun l => .lane d.toNat l (value l))

/-- R180 `shfl`. -/
def execShfl (f : ShflOps) (s : State) : Host.Outcome State Fault Refusal :=
  issueInstr (.shfl f) s fun c s => shuffle f.d f.a (fun l => some ((srcLane s c f.b l).toNat % c.x.width)) c s

/-- R180 `shflx`. -/
def execShflx (f : XIOps) (s : State) : Host.Outcome State Fault Refusal :=
  issueInstr (.shflx f) s (shuffle f.d f.a fun l => some (l ^^^ f.i.toNat))

/-- The source lane of `shfld`. -/
def deltaLane (width : Nat) (i : BitVec 7) (l : Nat) : Option Nat :=
  let n : Int := l + i.toInt
  if n < 0 || (width : Int) ≤ n then none else some n.toNat

/-- R180 `shfld`. -/
def execShfld (f : XIOps) (s : State) : Host.Outcome State Fault Refusal :=
  issueInstr (.shfld f) s fun c => shuffle f.d f.a (deltaLane c.x.width f.i) c

/-- A vote (R181). -/
def vote (f : DAOps) (answer : LaneMask → LaneMask → Bool) (c : Ctx) (s : State) : Effect :=
  if c.act = 0 then results s []
  else results (onWave s c.w fun x => setGroupPred x f.d.toNat (answer c.act (predReg c.x f.a.toNat))) []

/-- R181 `vany`. -/
def execVany (f : DAOps) (s : State) : Host.Outcome State Fault Refusal :=
  issueInstr (.vany f) s (vote f fun act k => act &&& k ≠ 0)

/-- R181 `vall`. -/
def execVall (f : DAOps) (s : State) : Host.Outcome State Fault Refusal :=
  issueInstr (.vall f) s (vote f fun act k => act &&& ~~~k = 0)

/-- R182 `ballot`. -/
def execBallot (f : DAOps) (s : State) : Host.Outcome State Fault Refusal :=
  issueInstr (.ballot f) s fun c s =>
    results s (if c.act = 0 then [] else groupWrites f.d.toNat (c.act &&& predReg c.x f.a.toNat).toNat 2)

/-- R183 `rdlane`. The lanes of `act` together read the word of lane n: its poison is consumed by all of them. -/
def execRdlane (f : XIOps) (s : State) : Host.Outcome State Fault Refusal :=
  issueInstr (.rdlane f) s fun c s =>
    let n := f.i.toNat
    if c.act = 0 then results s []
    else if c.x.alive.getLsbD n && markedA s c f.a n then .done s c.act 0 []
    else results (noteDead s c [n]) [.group f.d.toNat (fromLane s c f.a n)]

/-- The float tree of `rdx` code 7 (R119): one level, then the levels above. -/
def floatTree (xs : List Word) : Nat → Word
  | 0 => xs.headD 0
  | n + 1 =>
    if xs.length < 2 then xs.headD 0
    else floatTree ((List.range (xs.length / 2)).map fun m => addF32Rne (xs.getD (2 * m) 0) (xs.getD (2 * m + 1) 0)) n

def rdxFloat (mode : BitVec 7) (width : Nat) (act : LaneMask) (v : Nat → Word) : Word :=
  flushWord (modeOut mode) (floatTree ((List.range width).map fun l =>
    if act.getLsbD l then flushWord (modeIn mode) (v l) else 0x80000000) 6)

/-- Folding a list without a unit. -/
def foldOne (op : Word → Word → Word) : List Word → Word
  | [] => 0
  | x :: xs => xs.foldl op x

/-- The reductions of R184 by code. -/
def reduceWords (code : Nat) (xs : List Word) : Word :=
  match code with
  | 0 => foldOne (· + ·) xs
  | 1 => foldOne (fun a b => if a.slt b then a else b) xs
  | 2 => foldOne (fun a b => if a.slt b then b else a) xs
  | 3 => foldOne (fun a b => if a.ult b then a else b) xs
  | 4 => foldOne (fun a b => if a.ult b then b else a) xs
  | 5 => foldOne (· &&& ·) xs
  | _ => foldOne (· ||| ·) xs

/-- R184 `rdx`. -/
def execRdx (f : XIOps) (s : State) : Host.Outcome State Fault Refusal :=
  issueInstr (.rdx f) s fun c s =>
    let v (l : Nat) := srcLane s c f.a l
    if c.act = 0 then results s []
    else results s [.group f.d.toNat
      (if f.i = 7 then rdxFloat c.x.fpmode c.x.width c.act v else reduceWords f.i.toNat (c.lanes.map v))]

/-- The plane word of a lane's half (R185). -/
def planeWord (s : State) (c : Ctx) (a : BitVec 6) (bit l : Nat) : Word :=
  let h := 32 * (l / 32)
  (List.range 32).foldl (fun w i =>
    if c.act.getLsbD (h + i) && (srcLane s c a (h + i)).getLsbD bit then w ||| (1#32 <<< i) else w) 0

/-- R185 `plane`: the lanes of a half whose words carry poison spoil the half's word. -/
def execPlane (f : XIOps) (s : State) : Host.Outcome State Fault Refusal :=
  issueInstr (.plane f) s fun c s =>
    let spoilt (l : Nat) := c.lanes.any fun n => n / 32 = l / 32 && markedA s c f.a n
    .done s (maskOf (c.lanes.filter spoilt)) 0
      ((c.lanes.filter fun l => !spoilt l).map fun l => .lane f.d.toNat l (planeWord s c f.a f.i.toNat l))

/-- R186 `unplane`. -/
def execUnplane (f : XIOps) (s : State) : Host.Outcome State Fault Refusal :=
  issueInstr (.unplane f) s fun c s =>
    results s (c.lanes.map fun l =>
      let bit := (srcLane s c f.a l).getLsbD (l % 32)
      let m : Word := 1#32 <<< f.i.toNat
      let d := srcDest s c false f.d l
      .lane f.d.toNat l (if bit then d ||| m else d &&& ~~~m))

end Sys2Proof.Machine
end

