-- ==== Sys2Proof/Machine/Control.lean ====
section
/-! DEFINITION. Control flow: transfers and forks (R154 to R156), joins (R157, R158), `exit` (R167), token waits, `nop` and
`yield` (R168, R169), signatures (R173). -/

namespace Sys2Proof.Machine

/-! Transfers. -/

/-- The target of a J-format instruction (R59). -/
def jumpTarget (c : Ctx) (off : BitVec 19) : BitVec 56 := c.header + (sext 56 off) * 4

/-- The slot moves to the clause header at an address. -/
def moveSlot (sl : Slot) (pc : BitVec 56) : Slot :=
  { sl with pc, woff := 0, clause := [], header := none }

/-- The failing of a push as the trap of the pushing instruction (R165, R385): the spill limit, a refused spill, or a push
onto a full supervisor stack, which is a nested page fault with ACC 4. -/
def pushFail : Pushed → Option Fail
  | .limit => some ⟨5, 0, 4, true, 0, [(64, 0, 60)]⟩
  | .full => some ⟨5, 0, 4, true, 0, [(64, 0, 60)]⟩
  | .fault va kind _ => some ⟨5, 0, 4, false, 0, [(64, va, v50Word kind va)]⟩
  | _ => none

/-- Each faulting lane of a refused spill has the block's address (R382). -/
def spreadFail (c : Ctx) (f : Fail) : Fail :=
  { f with f := c.act, lanes := f.lanes.flatMap fun e => (lanesOf (c.sl.m &&& c.x.alive)).map fun l => (l, e.2.1, e.2.2) }

/-- A push as part of an instruction: its trap, its wait, or what follows it. -/
def withPush (s : State) (c : Ctx) (e : Entry) (k : State → Effect) : Effect :=
  match pushEntry s c.w c.tag e with
  | .ok s => k s
  | .busy s => .wait s
  | .fault va kind s => .trap (spreadFail c ((pushFail (.fault va kind s)).getD (plainFail 5))) s
  | p => .trap (spreadFail c ((pushFail p).getD (plainFail 5))) s

/-- A transfer (R154): `t` takes, `link` writes the link of a call. -/
def transfer (t : LaneMask) (target : BitVec 56) (link : Bool) (c : Ctx) (s : State) : Effect :=
  let l := c.sl.m &&& c.x.alive
  let t := t &&& l
  let n := l &&& ~~~t
  let ret : List RegWrite :=
    if link then [.group 62 (zext 32 (field c.next 0 32)), .group 63 (zext 32 (field c.next 32 24))] else []
  if t = 0 then results s []
  else if n = 0 then
    .moved (onSlot (endCounts (writeRegs s c.w ret) c.r) c.r fun sl => moveSlot sl target) true
  else
    let finish (s : State) : Effect :=
      .moved (onSlot (endCounts (writeRegs s c.w ret) c.r) c.r fun sl => moveSlot { sl with m := n } c.next) true
    let y := slotOf c.x (other c.r.b)
    if y.st = .idle then
      finish (onSlot s ⟨c.w, other c.r.b⟩ fun y => runPath y.last t target c.sl.j)
    else withPush s c ⟨.fork, t, target, c.sl.j⟩ finish

/-- The checks on a register target (R156): not canonical, then misaligned. The page fault has ACC 3, a fetch (DESIGN CHOICE,
log entry 133). -/
def targetFail (c : Ctx) (v : DWord) : Option Fail :=
  let lanes := (lanesOf c.act).map fun l => (l, v.toNat, v50Word 2 v.toNat)
  if field v 56 8 ≠ 0 then some ⟨5, c.act, 3, false, 0, lanes⟩
  else if v.toNat % 4 ≠ 0 then some ⟨7, c.act, 0, false, 0, lanes.map fun e => (e.1, e.2.1, 0)⟩
  else none

/-- A transfer names a pair of group registers that is none, or not of the wave: with T ≠ 0, an illegal encoding (R156). -/
def pairBad (c : Ctx) (n : Nat) : Bool := n % 2 ≠ 0 || useBeyond c.x ⟨.group, false, n, 2, 2⟩

/-- A transfer to the address in a group pair; its traps are raised only when T ≠ 0 (R156). -/
def jumpTo (n : Nat) (c : Ctx) (s : State) : Effect :=
  let v := readGroupPair s c.x n
  if c.act &&& c.sl.m = 0 then transfer 0 (v.setWidth 56) false c s
  else if pairBad c n then .trap (plainFail 1) s
  else match targetFail c v with
    | some f => .trap f s
    | none => transfer c.act (v.setWidth 56) false c s

/-- R154, R155 `bra`. -/
def execBra (f : JOps) (s : State) : Host.Outcome State Fault Refusal :=
  issueInstr (.bra f) s fun c => transfer c.act (jumpTarget c f.off) false c

/-- R154, R155 `gbra`: all of the slot or none. -/
def execGbra (f : JOps) (s : State) : Host.Outcome State Fault Refusal :=
  issueInstr (.gbra f) s fun c =>
    transfer (if groupGuard c.x f.g then c.sl.m else 0) (jumpTarget c f.off) false c

/-- R154, R155 `call`. -/
def execCall (f : JOps) (s : State) : Host.Outcome State Fault Refusal :=
  issueInstr (.call f) s fun c s =>
    if c.act &&& c.sl.m ≠ 0 && pairBad c 62 then .trap (plainFail 1) s else transfer c.act (jumpTarget c f.off) true c s

/-- R155, R156 `ret`. -/
def execRet (f : GOps) (s : State) : Host.Outcome State Fault Refusal := issueInstr (.ret f) s (jumpTo 62)

/-- R155, R156 `jmpi`. -/
def execJmpi (f : AOps) (s : State) : Host.Outcome State Fault Refusal := issueInstr (.jmpi f) s (jumpTo f.a.toNat)

/-! Joins. -/

/-- R157 `setj`. -/
def execSetj (f : JOps) (s : State) : Host.Outcome State Fault Refusal :=
  issueInstr (.setj f) s fun c s =>
    let h := jumpTarget c f.off
    if c.act = 0 then results s []
    else
      let set (sv : Bool) (s : State) : Effect :=
        results (onSlot s c.r fun sl => { sl with j := ⟨h, c.sl.m, sv, true⟩ }) []
      if c.sl.j.jv then withPush s c ⟨.saved, c.sl.m, h, c.sl.j⟩ (set true) else set false s

/-- R158 `join`: it ends the counts and holds of its slot whether it arrives or passes (R70, R127); the word is folded last,
and not when the join does not complete (R172). -/
def execJoin (f : GOps) (s : State) : Host.Outcome State Fault Refusal :=
  issueInstr (.join f) s fun c s =>
    if c.act = 0 then results s []
    else
      let s := endCounts s c.r
      if !c.sl.j.jv || c.sl.j.h ≠ c.header then results s []
      else
        match arrive s c.w c.r.b c.la.ker.sig with
        | (.resumed, s) => results s []
        | (_, s) => .moved s false

/-! Exit and waits. -/

/-- R167 `exit`: a control transfer (R47), which ends the counts and holds of its slot where lanes take it (R70, R127). -/
def execExit (f : GOps) (s : State) : Host.Outcome State Fault Refusal :=
  issueInstr (.exit f) s fun c s => results (if c.act = 0 then s else endWaveLanes (endCounts s c.r) c.w c.act) []

/-- R168 `tkwait`. It ends the holds of its slot where some lane acts, with an empty mask too, and is a `nop` in all else; with
an empty `act` it does nothing (DESIGN CHOICE, log entry 132). -/
def execTkwait (f : TkwaitOps) (s : State) : Host.Outcome State Fault Refusal :=
  issueInstr (.tkwait f) s fun c s =>
    results (if c.act = 0 then s else onSlot (dropLatches s c.r) c.r fun sl => { sl with tokWait := f.mask }) []

/-- R169 `nop`. -/
def execNop (f : GOps) (s : State) : Host.Outcome State Fault Refusal := issueInstr (.nop f) s fun _ s => results s []

/-- R169 `yield n`: the slot stands still for 8 × n cycles, which from 64 on end its holds (R127). -/
def execYieldN (f : YieldOps) (s : State) : Host.Outcome State Fault Refusal :=
  issueInstr (.yieldN f) s fun c s =>
    results (if c.act = 0 then s else
      onSlot (if 8 ≤ f.n.toNat then dropLatches s c.r else s) c.r fun sl =>
        { sl with yielding := some ⟨s.clock, 8 * f.n.toNat⟩ }) []

/-- R173 `sigchk`. -/
def execSigchk (f : SigchkOps) (s : State) : Host.Outcome State Fault Refusal :=
  issueInstr (.sigchk f) s fun c s =>
    if !c.la.ker.sig || c.x.super || c.act = 0 then results s []
    else if c.sl.sig = f.imm then results (onSlot s c.r fun sl => { sl with sig := 0 }) []
    else .trap (plainFail 9) s

end Sys2Proof.Machine
end

