-- ==== Sys2Proof/Machine/System.lean ====
section
/-! DEFINITION. Special registers (R145 to R149), software traps (R390), `eret` (R387, R388) and opcode 0x7F (R77). -/

namespace Sys2Proof.Machine

/-- `%tokens` (R145). -/
def tokenBits (t : Team) : Nat :=
  (List.range 8).foldl (fun m i => match t.toks[i]? with
    | some k => if k.op.isSome then m + 2 ^ i else m
    | none => m) 0

/-- `%lsbase` (R145). -/
def lsBase (t : Team) : Nat := if t.nData = 0 then 0x180000 else t.dataBank * 2 ^ 15

/-- The value of a special register as lane `l` sees it (R145). -/
def sregValue (s : State) (c : Ctx) (idx l : Nat) : Nat :=
  let i := if c.t.task then 0 else c.t.idx
  let q := c.la.rcd
  match idx with
  | 0x00 => l
  | 0x01 => if c.t.task then 0 else c.x.num
  | 0x02 => c.x.width
  | 0x08 => i % q.ntx
  | 0x09 => i / q.ntx % q.nty
  | 0x0A => i / q.ntx / q.nty
  | 0x0C => q.ntx
  | 0x0D => q.nty
  | 0x0E => q.ntz
  | 0x10 => (c.t.cohort.map (·.1)).getD 0
  | 0x11 => (c.t.cohort.map (·.2)).getD 0
  | 0x18 => c.core % 4
  | 0x19 => c.cl % 24
  | 0x1A => dieOf c.cl % 4
  | 0x1B => stackOf c.cl
  | 0x1C => ipoOf c.cl
  | 0x20 => s.clock.toNat
  | 0x28 => c.x.alive.toNat
  | 0x2A => c.sl.m.toNat
  | 0x30 => tokenBits c.t
  | 0x31 => boolNat c.x.deadrd
  | 0x32 => c.x.fpmode.toNat
  | 0x33 => c.sl.sig.toNat
  | 0x34 => c.t.mmrep.toNat
  | 0x35 => (kvGet s.lsdrop c.cl 0).toNat
  | 0x38 => c.x.arg.toNat
  | 0x3A => c.x.frame.toNat
  | 0x40 => c.x.regbase
  | _ => lsBase c.t

/-- R147 `sreg`. -/
def execSreg (f : SregOps) (s : State) : Host.Outcome State Fault Refusal :=
  issueInstr (.sreg f) s fun c s =>
    results s (eachWide c f.u f.d (if sregWide f.idx.toNat then 2 else 1) (sregValue s c f.idx.toNat))

/-- Writing `%deadrd` or `%sig` (R148). -/
def writeSreg (s : State) (c : Ctx) (idx : Nat) (v : Word) : State :=
  if idx = 0x31 then onWave s c.w fun x => { x with deadrd := v.getLsbD 0 }
  else onSlot s c.r fun sl => { sl with sig := v }

/-- R148 `sset`: once for the wave, the value of the lowest lane of `act`. -/
def execSset (f : SsetOps) (s : State) : Host.Outcome State Fault Refusal :=
  issueInstr (.sset f) s fun c s =>
    match c.formLanes f.u with
    | [] => results s []
    | l :: _ => results (writeSreg s c f.idx.toNat (src s c f.u f.a l)) []

/-- Raising a software cause (R390). -/
def softTrap (cause : Nat) (n : BitVec 8) (c : Ctx) (s : State) : Effect :=
  if c.act = 0 then results s [] else .trap { plainFail cause with f := c.act, code := n.toNat } s

/-- R390 `trap`. -/
def execTrap (f : TrapOps) (s : State) : Host.Outcome State Fault Refusal :=
  issueInstr (.trap f) s (softTrap 10 f.n)

/-- R390 `trap.bkpt`. -/
def execTrapBkpt (f : TrapOps) (s : State) : Host.Outcome State Fault Refusal :=
  issueInstr (.trapBkpt f) s (softTrap 13 f.n)

/-- `eret` in its three forms (R387, R388). -/
def eretEffect (k : EretKind) (c : Ctx) (s : State) : Effect :=
  if c.act = 0 then results s [] else .left (leaveHandler s c.w k)

/-- R388 `eret`. -/
def execEret (f : GOps) (s : State) : Host.Outcome State Fault Refusal := issueInstr (.eret f) s (eretEffect .replay)

/-- R388 `eret.skip`. -/
def execEretSkip (f : GOps) (s : State) : Host.Outcome State Fault Refusal := issueInstr (.eretSkip f) s (eretEffect .skip)

/-- R388 `eret.kill`. -/
def execEretKill (f : GOps) (s : State) : Host.Outcome State Fault Refusal := issueInstr (.eretKill f) s (eretEffect .kill)

/-- R77: opcode 0x7F raises the unimplemented-opcode trap, whatever else it holds. -/
def execOpcode7F (lo : BitVec 25) (w1 : Word) (s : State) : Host.Outcome State Fault Refusal :=
  issueInstr (.opcode7F lo w1) s fun _ s => .trap (plainFail 2) s

end Sys2Proof.Machine
end

