-- ==== Sys2Proof/Machine/Memory.lean ====
section
/-! DEFINITION. Global loads, stores and atomics (R208 to R210, R226 to R228, R232 to R237, R241, R242). -/

namespace Sys2Proof.Machine

/-- One address of an instruction: its lane (0 in the group form) and where. -/
abbrev LaneAddr := Nat × Nat

/-- Addresses as what lanes have read, and back. -/
def addrLanes (as : List LaneAddr) : List AtomLane := as.map fun a => ⟨a.1, a.2, 0, 0⟩
def laneAddrs (ls : List AtomLane) : List LaneAddr := ls.map fun l => (l.lane, l.va)

/-- The global addresses of an instruction (R208). -/
def globalAddrs (s : State) (c : Ctx) (u : Bool) (a : BitVec 6) (off : BitVec 16) : List LaneAddr :=
  (c.formLanes u).map fun l => (l, (srcPair s c u a l + sext 64 off).toNat)

/-- The lanes of the trap that some addresses of an instruction meet; the group form's one address is every lane's. -/
def addrFail (c : Ctx) (u : Bool) (cause acc code : Nat) (bad : List (LaneAddr × Word)) : Fail :=
  let lanes : List (Nat × Nat × Word) :=
    if u then match bad with
      | [] => []
      | b :: _ => c.lanes.map fun l => (l, b.1.2, b.2)
    else bad.map fun b => (b.1.1, b.1.2, b.2)
  ⟨cause, maskOf (lanes.map (·.1)), acc, false, code, lanes⟩

/-- What the checks of R241 find. -/
inductive Checked where
  | ok (s : State)
  | busy (s : State)
  | fail (f : Fail) (s : State)
  deriving DecidableEq, Repr

/-- The checks of a global access of `n` bytes, in their order (R241): address form, alignment, translation. A request for a
page that waits for its shootdown waits, unless the instruction has been translated for it before (R409). -/
def checkGlobal (s : State) (c : Ctx) (u : Bool) (q : Asker) (acc : Acc) (n : Nat) (as : List LaneAddr) : Checked :=
  let odd := as.filter fun a => !canonical a.2
  let mis := as.filter fun a => a.2 % n ≠ 0
  if !odd.isEmpty then .fail (addrFail c u 5 q.acc 0 (odd.map fun a => (a, v50Word 2 a.2))) s
  else if !mis.isEmpty then .fail (addrFail c u 7 0 0 (mis.map fun a => (a, 0))) s
  else if as.any fun a => shooting s q.tag.asid a.2 && !((c.x.progress.map (·.vas)).getD []).any fun v => v / 4096 = a.2 / 4096 then .busy s
  else match reach s q acc (as.map (·.2)) with
    | .ok s => .ok s
    | .busy s => .busy s
    | .faults fs s =>
      .fail (addrFail c u 5 q.acc 0 (fs.map fun f =>
        let a := as.getD f.1 (0, 0)
        (a, v50Word f.2 a.2))) s

def Ctx.asker (c : Ctx) (acc : Acc) : Asker := waveAsker c.w c.tag c.x.super (accCode acc)

/-! Progress of an instruction that takes several steps. -/

def progressOf (c : Ctx) : Option Progress := c.x.progress.filter fun p => p.b = c.r.b

/-- How many phases the instruction has gone through. -/
def phaseOf (c : Ctx) : Nat := ((progressOf c).map (·.asked)).getD 0

def resultsOf (c : Ctx) : List (Nat × Nat × Bool) := ((progressOf c).map (·.results)).getD []

/-- The mark that an instruction's requests have been sent. -/
def sentMark : Nat := 1000

/-- The mark that the requests of its lanes without a result are to be sent again. -/
def resendMark : Nat := 1003

/-- The lanes whose request the home has refused since the instruction issued (R410). -/
def refusedOf (c : Ctx) : List Nat := ((progressOf c).map (·.refused)).getD []

/-- The addresses that the instruction has had translated (R409). -/
def vasOf (c : Ctx) : List Nat := ((progressOf c).map (·.vas)).getD []

def keepProgress (s : State) (c : Ctx) (asked : Nat) (rs : List (Nat × Nat × Bool)) : State :=
  let p : Progress := ⟨c.r.b, asked, rs, [], ((progressOf c).map (·.pushed)).getD 0, vasOf c, none, none, 0⟩
  onWave s c.w fun x => { x with progress := some p }

/-- The instruction's addresses are translated: its accesses belong to their pages until it retires (R409). -/
def noteVas (s : State) (c : Ctx) (vas : List Nat) : State :=
  onWave s c.w fun x => { x with progress := x.progress.map fun p => { p with vas } }

/-- What an instruction reads of its lanes is read once, when it issues (R125); `now` is what it would read in this state. -/
def issued (c : Ctx) (now : List AtomLane) : List AtomLane := ((progressOf c).bind (·.ops)).getD now

/-- An instruction over what it read at issue, which is kept while it waits (R125). -/
def overOperands (c : Ctx) (now : List AtomLane) (k : List AtomLane → Effect) : Effect :=
  match k (issued c now) with
  | .wait s => .wait (onWave s c.w fun x => { x with progress := x.progress.map fun p => { p with ops := some (issued c now) } })
  | e => e

def clearProgress (s : State) (c : Ctx) : State := onWave s c.w fun x => { x with progress := none }

/-- A waiting local access of the program stands still while its handler runs (R379). -/
def suspended (x : Wave) (a : LocalAcc) : Bool := x.super && !a.sup

/-- The wave's accesses before this one are performed: no local access of it waits (R221, R260). -/
def earlierDone (s : State) (c : Ctx) : Bool := match findWave s c.w with
  | some x => x.locals.all fun a => suspended x a
  | none => true

/-- An acquire of the wave, from either slot, waiting at its bank, comes before every later global access of the wave (R245
to R247). -/
def acquireWaits (c : Ctx) : Bool := c.x.locals.any fun a => a.acq.isSome && !suspended c.x a

/-- An outbound write that the wave has issued has not been acknowledged by its peer (R255): it is a slice of a copy that has
not completed. -/
def outboundPending (s : State) (c : Ctx) : Bool :=
  s.copies.any fun e => e.2.team = c.x.team && e.2.slices.any fun sl => sl.wave = c.x.num && sl.kind = .peerPut

/-- One step of a release at a scope by an instruction (R260, R267): whether it may go on, at phase `phaseOf`. At every scope it
waits for the claims of earlier stores (R460). -/
def releaseBefore (s : State) (c : Ctx) (sc : Nat) : Option Nat × State :=
  if !earlierDone s c || nodeBusy s (.l1 c.cl) && sc < 2 || (sc = 6 && outboundPending s c) then (some (phaseOf c), s)
  else releaseStep pushNode s (releaseNodes c.cl sc) (phaseOf c)

/-! Loads. -/

/-- The words that a load of `cnt` registers at an address reads, keyed by 4 × lane + word. -/
def wantedWords (cnt : Nat) (as : List LaneAddr) : List (Nat × Nat) :=
  as.flatMap fun a => (List.range cnt).map fun j => (4 * a.1 + j, a.2 / 4 * 4 + 4 * j)

/-- The bytes a load SUB code reads (R230). -/
def loadBytes (sub : Nat) : Nat := match sub with
  | 0 | 1 => 1
  | 2 | 3 => 2
  | 4 => 4
  | 5 => 8
  | _ => 16

def storeBytes (sub : Nat) : Nat := match sub with
  | 0 => 1
  | 1 => 2
  | 2 => 4
  | 3 => 8
  | _ => 16

/-- The register value of a load from its bytes, little-endian (R232). -/
def extendLoad (sub v : Nat) : Nat := match sub with
  | 0 => v % 256
  | 1 => (sext 32 (BitVec.ofNat 8 v)).toNat
  | 2 => v % 65536
  | 3 => (sext 32 (BitVec.ofNat 16 v)).toNat
  | _ => v

/-- The value a lane loads from its words. -/
def loadValue (sub : Nat) (va : Nat) (words : List Nat) : Nat :=
  let v := (List.range words.length).foldl (fun acc j => acc + words.getD j 0 * 2 ^ (32 * j)) 0
  extendLoad sub (if sub < 4 then v / 2 ^ (8 * (va % 4)) else v)

/-- The results of a load as registers, and the lanes that consume poison (R426). -/
def loadResults (c : Ctx) (u : Bool) (d : BitVec 6) (sub : Nat) (as : List LaneAddr) (rs : List (Nat × Nat × Bool)) :
    LaneMask × List RegWrite :=
  let cnt := loadRegs (BitVec.ofNat 4 sub)
  let get (a : LaneAddr) (j : Nat) : Nat × Bool := match rs.find? fun r => r.1 = 4 * a.1 + j with
    | some r => r.2
    | none => (0, false)
  let bad (a : LaneAddr) : Bool := (List.range cnt).any fun j => (get a j).2
  let dead : LaneMask := if u then (if as.any bad then c.act else 0) else maskOf ((as.filter bad).map (·.1))
  (dead, (as.filter fun a => !bad a).flatMap fun a =>
    let v := loadValue sub a.2 ((List.range cnt).map fun j => (get a j).1)
    if u then groupWrites d.toNat v cnt else laneWrites d.toNat a.1 v cnt)

/-- The unit in which a load takes its words (R210): 16 bytes for `b128`, whose halves are then one, else 8. -/
def loadUnit (cnt : Nat) : Nat := if cnt = 4 then 16 else 8

/-- The words that the caches give now, of those still wanted, unit by unit: every lane's words of one unit come from one
place at once (R210, R233). -/
def gatherWords (s : State) (q : Asker) (unit : Nat) (want : List (Nat × Nat)) : List (Nat × Nat × Bool) :=
  ((want.map fun k => k.2 / unit).eraseDups).flatMap fun g =>
    let here := want.filter fun k => k.2 / unit = g
    match cachedWords s q (here.map (·.2)) with
    | some vs => (List.range here.length).map fun i =>
        let v := vs.getD i (0, false)
        ((here.getD i (0, 0)).1, v.1.toNat, v.2)
    | none => []

/-- What a read of words through the caches comes to: all of them, or those so far with the rest asked for. -/
inductive Gathered where
  | all (rs : List (Nat × Nat × Bool))
  | part (rs : List (Nat × Nat × Bool)) (s : State)
  deriving DecidableEq, Repr

def gatherStep (s : State) (c : Ctx) (q : Asker) (unit : Nat) (want : List (Nat × Nat)) : Gathered :=
  let got := resultsOf c ++ gatherWords s q unit (want.filter fun k => !((resultsOf c).any fun r => r.1 = k.1))
  match want.filter fun k => !(got.any fun r => r.1 = k.1) with
  | [] => .all got
  | missing => .part got (askWords s q.cl q.tag (missing.map (·.2)))

/-- Lines that a load leaves in the L0 (R223, R227). -/
def allocateL0 (s : State) (q : Asker) (vas : List Nat) : State :=
  match q.core with
  | some c => ((vas.map lineOf).eraseDups).foldl (fun t l => fillL0 t c q.tag l) s
  | none => s

/-- The L0 holds the line of an address. -/
def heldL0 (s : State) (q : Asker) (va : Nat) : Bool := q.core.any fun c => !(lineAt s (.l0 c) q.tag (lineOf va)).isEmpty

/-- The lines of an `.nt` access stay on its path, the home's cache with it, as first candidates for eviction (R227). -/
def noteClass (s : State) (c : Ctx) (cl : Nat) (vas : List Nat) : State :=
  if cl = 5 then ((vas.map lineOf).eraseDups).foldl (fun t l =>
    markNt t (pathBelow none c.cl 4 ++ [.home (homeOf (128 * l))]) c.tag l) s else s

/-- A load is over: the L0's lines, of which an `.nt` load only brings up to date those that it finds there (R227, R250), the
L1's ways, and the acquire. -/
def finishLoad (s : State) (c : Ctx) (q : Asker) (sub sc cl la : Nat) (u : Bool) (d : BitVec 6) (as : List LaneAddr)
    (rs : List (Nat × Nat × Bool)) : Effect :=
  let vas := as.map (·.2)
  let s := noteClass (clearProgress s c) c cl vas
  let s := allocateL0 s q (if cl = 5 then vas.filter (heldL0 s q) else vas)
  let s := releaseLines s q vas
  let s := if cl = 1 then selfInvalidate s c.cl sc else s
  let (dead, ws) := loadResults c u d sub as rs
  .done s dead la ws

/-! Requests that are performed at a site beyond the L1 (R227, R228, R237). -/

/-- What a step of such requests comes to. -/
inductive Remote where
  | done (rs : List (Nat × Nat × Bool)) (s : State)
  | wait (s : State)
  | fail (f : Fail) (s : State)
  deriving DecidableEq, Repr

/-- The lanes of which the home refused a request meet their checks again, and their trap, or ask again; what the other lanes
have done stands (R242, R410; log entry 109). -/
def askRefused (c : Ctx) (sub sc : Nat) (left : List AtomLane) : Checked → Remote
  | .ok s => .wait (sendAtoms (keepProgress s c sentMark (resultsOf c)) c.cl c.tag sub sc c.w left)
  | .busy s => .wait (keepProgress s c resendMark (resultsOf c))
  | .fail f s => .fail f (if (resultsOf c).isEmpty then clearProgress s c else keepProgress s c resendMark (resultsOf c))

/-- One step of an instruction's requests: sent once, line by line, and waited for. `check` checks the lanes it is given. -/
def remoteStep (s : State) (c : Ctx) (sub sc : Nat) (lanes : List AtomLane) (check : State → List AtomLane → Checked) :
    Remote :=
  let left := lanes.filter fun l => !((resultsOf c).any fun r => r.1 = l.lane)
  if phaseOf c = sentMark || phaseOf c = resendMark then
    if left.isEmpty then .done (resultsOf c) (clearProgress s c)
    else if phaseOf c = sentMark && !(left.all fun l => (refusedOf c).contains l.lane) then .wait s
    else askRefused c sub sc left (check s left)
  else .wait (sendAtoms (noteVas (keepProgress s c sentMark []) c (lanes.map (·.va))) c.cl c.tag sub sc c.w lanes)

/-- Such requests have been sent. -/
def asked (c : Ctx) : Bool := phaseOf c = sentMark || phaseOf c = resendMark

/-- A volatile load, performed once at the home (R227). -/
def volatileLoad (s : State) (c : Ctx) (sub la : Nat) (u : Bool) (d : BitVec 6) (as : List LaneAddr) : Effect :=
  let want := wantedWords (loadRegs (BitVec.ofNat 4 sub)) as
  let check (s : State) (ls : List AtomLane) : Checked :=
    checkGlobal s c u (c.asker .load) .load (loadBytes sub) (as.filter fun a => ls.any fun l => l.lane / 4 = a.1)
  match remoteStep s c volLoad 6 (want.map fun k => ⟨k.1, k.2, 0, 0⟩) check with
  | .done rs s =>
    let (dead, ws) := loadResults c u d sub as rs
    .done s dead la ws
  | .wait s => .wait s
  | .fail f s => .trap f s

/-- `ld` (R232): words come from the caches, and are asked for where they miss; the instruction waits for them. An acquire
drops the path's non-owned words first and again when its value is fixed (R267). -/
def loadAt (f : LdOps) (as : List LaneAddr) (c : Ctx) (s : State) : Effect :=
  let sub := f.sub.toNat
  let q := c.asker .load
  if as.isEmpty then .done s 0 f.la.toNat []
  else if acquireWaits c then .wait s
  else if f.cl = 4 && asked c then volatileLoad s c sub f.la.toNat f.u f.d as
  else match checkGlobal s c f.u q .load (loadBytes sub) as with
    | .fail g s => .trap g (clearProgress s c)
    | .busy s => .wait s
    | .ok s =>
      if f.cl = 4 then volatileLoad s c sub f.la.toNat f.u f.d as
      else
        let s := if f.cl = 1 && (progressOf c).isNone then selfInvalidate s c.cl f.sc.toNat else s
        match gatherStep s c q (loadUnit (loadRegs f.sub)) (wantedWords (loadRegs f.sub) as) with
        | .all got => finishLoad s c q sub f.sc.toNat f.cl.toNat f.la.toNat f.u f.d as got
        | .part got s => .wait (noteVas (keepProgress s c 1 got) c (if got.isEmpty then [] else as.map (·.2)))

def loadEffect (f : LdOps) (c : Ctx) (s : State) : Effect :=
  overOperands c (addrLanes (globalAddrs s c f.u f.a f.off)) fun ls => loadAt f (laneAddrs ls) c s

/-- R232 `ld`, `gld`. -/
def execLd (f : LdOps) (s : State) : Host.Outcome State Fault Refusal := issueInstr (.ld f) s (loadEffect f)

/-! Stores. -/

/-- The parts of words that a store writes, in ascending lane order, the highest lane's bytes over the others' (R232). -/
def storeWords (sub : Nat) (ls : List AtomLane) : List (Nat × Word × Word) :=
  mergeParts (ls.flatMap fun l => storeParts l.va (storeBytes sub) l.x)

/-- The addresses and data that a store reads (R232). -/
def storeOperands (s : State) (c : Ctx) (f : StOps) : List AtomLane :=
  (globalAddrs s c f.u f.a f.off).map fun a => ⟨a.1, a.2, srcNat s c f.u f.b a.1 0 (storeRegs f.sub), 0⟩

/-- The parts of a store as requests: each word with its bits and their mask. -/
def farLanes (ps : List (Nat × Word × Word)) : List AtomLane :=
  (List.range ps.length).map fun i =>
    let p := ps.getD i (0, 0, 0)
    ⟨i, p.1, p.2.1.toNat, p.2.2.toNat⟩

/-- A store's checks for the words that some of its requests write. -/
def checkStore (f : StOps) (c : Ctx) (as : List LaneAddr) (s : State) (ls : List AtomLane) : Checked :=
  let n := storeBytes f.sub.toNat
  checkGlobal s c f.u (c.asker .store) .store n (as.filter fun a => ls.any fun l => a.2 / 4 * 4 ≤ l.va && l.va < a.2 + n)

/-- A volatile store, performed at the home (R227), and its end. -/
def farStore (f : StOps) (c : Ctx) (as : List LaneAddr) (ps : List (Nat × Word × Word)) (s : State) : Effect :=
  match remoteStep s c volStore 6 (farLanes ps) (checkStore f c as) with
  | .done _ s => results s []
  | .wait s => .wait s
  | .fail g s => .trap g s

/-- The cluster makes words its own with the bytes that others have written (R249, R267; log entry 101). -/
def fetchOwn (s : State) (q : Asker) (vas : List Nat) : State :=
  ((vas.map lineOf).eraseDups).foldl (fun t line =>
    if flushOut t (.l1 q.cl) q.tag line then t
    else flushClaim t (.l1 q.cl) q.tag line (maskOfIdx ((vas.filter fun a => lineOf a = line).map wordIdx)) none) s

/-- The parts of a store go into the cluster's L1 (R267): whole words at once, a part of a word once the cluster owns the word.
What has been stored stands, should the rest trap (R242). -/
def partStore (f : StOps) (c : Ctx) (as : List LaneAddr) (ps : List (Nat × Word × Word)) (s : State) : Effect :=
  let q := c.asker .store
  let left := ps.filter fun p => !(resultsOf c).any fun r => r.1 = p.1
  match (if phaseOf c = partMark then checkStore f c as s (farLanes left) else .ok s) with
  | .fail g s => .trap g (if (resultsOf c).isEmpty then clearProgress s c else keepProgress s c partMark (resultsOf c))
  | .busy s => .wait s
  | .ok s =>
    let near := left.filter (mergeable s q)
    let away := (left.filter fun p => !mergeable s q p).map (·.1)
    let s := performParts s q near
    let vas := as.map (·.2)
    if away.isEmpty then results (clearProgress (releaseLines (noteClass s c f.cl.toNat vas) q vas) c) []
    else
      let done := resultsOf c ++ near.map fun p => (p.1, 0, false)
      .wait (fetchOwn (noteVas (keepProgress s c partMark done) c vas) q away)

/-- `st` (R232): a release pushes the path first (R260); a volatile store is performed at the home (R227); the others write
the cluster's L1 (R267). -/
def storeAt (f : StOps) (ls : List AtomLane) (c : Ctx) (s : State) : Effect :=
  let as := laneAddrs ls
  let q := c.asker .store
  let parts := storeWords f.sub.toNat ls
  if as.isEmpty then results s []
  else if acquireWaits c then .wait s
  else if asked c then farStore f c as parts s
  else if phaseOf c = partMark then partStore f c as parts s
  else match checkGlobal s c f.u q .store (storeBytes f.sub.toNat) as with
    | .fail g s => .trap g (clearProgress s c)
    | .busy s => .wait s
    | .ok s =>
      match (if f.cl = 2 then releaseBefore s c f.sc.toNat else (none, s)) with
      | (some p, s) => .wait (keepProgress s c p [])
      | (none, s) => if f.cl = 4 then farStore f c as parts s else partStore f c as parts s

def storeEffect (f : StOps) (c : Ctx) (s : State) : Effect :=
  overOperands c (storeOperands s c f) fun ls => storeAt f ls c s

/-- R232 `st`, `gst`. -/
def execSt (f : StOps) (s : State) : Host.Outcome State Fault Refusal := issueInstr (.st f) s (storeEffect f)

/-! Atomics. -/

/-- The lanes of an atomic at the L1 site (R228): performed as soon as their lines are there, or read as poison where their
home is fenced (R32). Lanes still without a result meet their checks again (R242, R410). -/
def nearAtoms (s : State) (c : Ctx) (sub : Nat) (lanes : List AtomLane) (check : State → List AtomLane → Checked) : Remote :=
  let done := resultsOf c
  let left := lanes.filter fun l => !(done.any fun r => r.1 = l.lane)
  match (if phaseOf c = nearMark then check s left else .ok s) with
  | .fail f s => .fail f (if done.isEmpty then clearProgress s c else keepProgress s c nearMark done)
  | .busy s => .wait s
  | .ok s =>
    let n : Node := .l1 c.cl
    let lost (l : AtomLane) := homeLost s c.tag l.va .atomic
    let here (l : AtomLane) := !lost l && siteReady s n c.tag (lineOf l.va)
    let missing := left.filter fun l => !lost l && !here l
    let (rs, t) := atomsAtL1 s c.cl c.tag c.w sub (left.filter here)
    let got := done ++ rs ++ (left.filter lost).map fun l => (l.lane, 0, true)
    let t := ((lanes.map fun l => lineOf l.va).eraseDups).foldl (fun u l => trimL1 u c.cl c.tag l) t
    if missing.isEmpty then .done got (clearProgress (releaseLines t (c.asker .atomic) (lanes.map (·.va))) c)
    else
      let t := noteVas (keepProgress t c nearMark got) c (lanes.map (·.va))
      .wait (((missing.map fun l => lineOf l.va).eraseDups).foldl (fun u line =>
        prepareSite u n c.tag line ⟨c.w, sub, n, [], false, false⟩) t)

/-- One step of an instruction's atomics at the site of a scope (R228, R237). -/
def atomicStep (s : State) (c : Ctx) (sub sc : Nat) (lanes : List AtomLane) (check : State → List AtomLane → Checked) :
    Remote :=
  if sc < 2 then nearAtoms s c sub lanes check else remoteStep s c sub sc lanes check

/-- The operands of an atomic (R236, R237): B, and for `cas` the new value in D. -/
def atomOperands (s : State) (c : Ctx) (u : Bool) (d b : BitVec 6) (sub : Nat) (as : List LaneAddr) : List AtomLane :=
  let n := atomRegs (BitVec.ofNat 4 sub)
  as.map fun a =>
    let y := if n = 2 then (destPair s c u d a.1).toNat else (srcDest s c u d a.1).toNat
    ⟨a.1, a.2, srcNat s c u b a.1 0 n, y⟩

/-- The results of an atomic in D, and its consuming lanes. -/
def atomResults (c : Ctx) (u : Bool) (d : BitVec 6) (sub : Nat) (rs : List (Nat × Nat × Bool)) :
    LaneMask × List RegWrite :=
  let n := atomRegs (BitVec.ofNat 4 sub)
  let bad := (rs.filter fun r => r.2.2).map (·.1)
  let dead : LaneMask := if u then (if bad.isEmpty then 0 else c.act) else maskOf bad
  (dead, (rs.filter fun r => !r.2.2).flatMap fun r =>
    if u then groupWrites d.toNat r.2.1 n else laneWrites d.toNat r.1 r.2.1 n)

/-- The checks of an atomic's lanes. -/
def checkAtom (f : AtomOps) (c : Ctx) (s : State) (ls : List AtomLane) : Checked :=
  checkGlobal s c f.u (c.asker .atomic) .atomic (4 * atomRegs f.sub) (ls.map fun l => (l.lane, l.va))

/-- `atom` (R237): checks, release, the atomics at their site, acquire, results. -/
def atomAt (f : AtomOps) (lanes : List AtomLane) (c : Ctx) (s : State) : Effect :=
  let sub := f.sub.toNat
  let sc := if f.cl = 4 then 6 else f.sc.toNat
  let go (s : State) : Effect :=
    match atomicStep s c sub sc lanes (checkAtom f c) with
    | .wait s => .wait s
    | .fail g s => .trap g s
    | .done rs s =>
      let s := if f.cl = 1 || f.cl = 3 then selfInvalidate s c.cl f.sc.toNat else s
      let (dead, ws) := atomResults c f.u f.d sub rs
      .done s dead f.la.toNat ws
  if lanes.isEmpty then .done s 0 f.la.toNat []
  else if acquireWaits c then .wait s
  else if asked c || phaseOf c = nearMark then go s
  else match checkAtom f c s lanes with
    | .fail g s => .trap g (clearProgress s c)
    | .busy s => .wait s
    | .ok s =>
      match (if f.cl = 2 || f.cl = 3 then releaseBefore s c f.sc.toNat else (none, s)) with
      | (some p, s) => .wait (keepProgress s c p [])
      | (none, s) => go s

def atomEffect (f : AtomOps) (c : Ctx) (s : State) : Effect :=
  overOperands c (atomOperands s c f.u f.d f.b f.sub.toNat (globalAddrs s c f.u f.a f.off)) fun ls => atomAt f ls c s

/-- R237 `atom`, `gatom`. -/
def execAtom (f : AtomOps) (s : State) : Host.Outcome State Fault Refusal := issueInstr (.atom f) s (atomEffect f)

end Sys2Proof.Machine
end

