-- ==== Sys2Proof/Machine/Local.lean ====
section
/-! DEFINITION. The local store (R211 to R222, R234 to R240) and the fences (R259 to R261). -/

namespace Sys2Proof.Machine

/-! Old values that a path may still read (R257). -/

/-- The words of a cluster's store from an address on are about to be written on a path: what they hold may still be read on
the others. -/
def noteOlder (s : State) (cl a n path team : Nat) (op : Option Nat) (poison : Nat → Bool) : State :=
  let words := (List.range ((a % 4 + n + 3) / 4)).map fun j => a / 4 * 4 + 4 * j
  { s with older := words.foldl (fun l v =>
      (l.filter fun e => !(e.key = lsKey cl v && e.path = path)) ++
        [⟨lsKey cl v, path, team, op, localWord s cl v, poison v, ~~~(1#4 <<< path)⟩]) s.older }

/-- What a path reads of a local word: what it holds, or a value before a write that no `xfence` has ordered it behind
(R257); `choice` numbers the read. -/
def seenWord (s : State) (cl a path choice : Nat) (poison : Nat → Bool) : Word × Bool :=
  let v := a / 4 * 4
  match s.older.filter fun e => e.key = lsKey cl v && e.readers.getLsbD path with
  | [] => (localWord s cl v, poison v)
  | l => match l[Config.windowChoice choice (2 ^ 20 + lsKey cl v) % (l.length + 1)]? with
    | some e => (e.val, e.poison)
    | none => (localWord s cl v, poison v)

/-- Paths are ordered (R261): the words of the writes that a test picks are read on the paths `rs` as they stand. -/
def freshen (s : State) (rs : BitVec 4) (p : Older → Bool) : State :=
  let keys := (s.older.filter p).map (·.key)
  let less (e : Older) : Older := if keys.contains e.key then { e with readers := e.readers &&& ~~~rs } else e
  { s with older := (s.older.map less).filter (·.readers ≠ 0) }

/-! Banks and granules. -/

def bankOf (a : Nat) : Nat := a / 2 ^ 15
def granuleOf (a : Nat) : Nat := a % 2 ^ 15 / 16

def onBank (s : State) (cl b : Nat) (f : Bank → Bank) : State := putBank s cl b (f (bankAt s cl b))

def granFull (s : State) (cl a : Nat) : Bool := (bankAt s cl (bankOf a)).full.contains (granuleOf a)
def granPoison (s : State) (cl a : Nat) : Bool := (bankAt s cl (bankOf a)).pois.contains (granuleOf a)

def setMember (l : List Nat) (n : Nat) (on : Bool) : List Nat :=
  if on then (if l.contains n then l else l ++ [n]) else l.filter (· ≠ n)

def setFull (s : State) (cl a : Nat) (on : Bool) : State :=
  onBank s cl (bankOf a) fun b => { b with full := setMember b.full (granuleOf a) on }

def setPoison (s : State) (cl a : Nat) (on : Bool) : State :=
  onBank s cl (bankOf a) fun b => { b with pois := setMember b.pois (granuleOf a) on }

/-- The bytes of a local access carry poison: its granule's bit, or a register word's mark (R213, R218). -/
def localPoison (s : State) (cl a n : Nat) : Bool :=
  if (bankAt s cl (bankOf a)).mode = .reg then
    (List.range ((n + 3) / 4)).any fun j => regWordPoison s cl (a + 4 * j)
  else granPoison s cl a

/-- A bank is zeroed with its bits cleared (R214, R215). -/
def zeroBank (s : State) (cl b : Nat) : State :=
  let k := lsKey cl (b * 2 ^ 15)
  let s := { s with
    lstore := memClear s.lstore k (2 ^ 15)
    older := s.older.filter fun e => !(k ≤ e.key && e.key < k + 2 ^ 15)
    regPoison := s.regPoison.filter fun p => !(k ≤ p && p < k + 2 ^ 15) }
  onBank s cl b fun x => { x with full := [], pois := [], head := 0, count := 0 }

/-! Who may reach what (R211, R212, R219, R222, R238). -/

/-- What a local access is, as R212 sorts them. -/
def needsScratch : LocalKind → Bool
  | .atomic | .feSet | .feClr => true
  | _ => false

/-- The bytes of a wave's own register window (R42). -/
def windowBytes (x : Wave) : Nat := x.regs * x.width * 4 + 512

def inWindow (x : Wave) (a n : Nat) : Bool := x.regbase ≤ a && a + n ≤ x.regbase + windowBytes x

/-- The code of the local fault that one address meets, in the order of R241's place checks: 2 bank state or ownership,
3 FE qualifier, 4 FIFO address (R383); none when it may go on. -/
def placeCode (s : State) (c : Ctx) (kind : LocalKind) (fe a n : Nat) : Option Nat :=
  let k := bankAt s c.cl (bankOf a)
  let owned := if c.x.super then true else if c.t.task then k.mode = .reg && inWindow c.x a n else k.owner = some c.x.team
  match k.mode with
  | .free | .cache => some 2
  | .reg => if !owned || needsScratch kind then some 2 else if fe ≠ 0 then some 3 else none
  | .scr => if owned then none else some 2
  | .fifo =>
    if !owned || needsScratch kind then some 2
    else if fe ≠ 0 then some 3
    else if a % 2 ^ 15 ≠ 0 then some 4 else none

/-- The local addresses of an instruction (R211). -/
def localAddrs (s : State) (c : Ctx) (u : Bool) (a : BitVec 6) (off : BitVec 16) : List LaneAddr :=
  (c.formLanes u).map fun l => (l, (src s c u a l + sext 32 off).toNat)

/-- The local checks of R241: address range, alignment, place. -/
def checkLocal (s : State) (c : Ctx) (u : Bool) (kind : LocalKind) (fe n : Nat) (as : List LaneAddr) : Option Fail :=
  let out := as.filter fun a => 0x180000 ≤ a.2
  let mis := as.filter fun a => a.2 % n ≠ 0
  let place := as.filterMap fun a => (placeCode s c kind fe a.2 n).map fun k => (a, k)
  if !out.isEmpty then some (addrFail c u 6 0 1 (out.map fun a => (a, 0)))
  else if !mis.isEmpty then some (addrFail c u 7 0 0 (mis.map fun a => (a, 0)))
  else match place with
    | [] => none
    | p :: _ =>
      some (addrFail c u 6 0 (place.foldl (fun m e => min m e.2) p.2) (place.map fun e => (e.1, 0)))

/-- A mode change asked for by the wave, or of a bank that the access names, has not been made (R214, R240). -/
def modePending (s : State) (c : Ctx) (as : List LaneAddr) : Bool :=
  s.modeReqs.any fun r => r.2.2.2 = c.w || (r.1 = c.cl && as.any fun a => bankOf a.2 = r.2.1)

/-! Performing local accesses. -/

/-- The bytes a local access moves, by its kind and SUB code. -/
def accBytes (a : LocalAcc) : Nat :=
  match a.kind with
  | .load => loadBytes a.sub
  | .store => storeBytes a.sub
  | .atomic => 4 * atomRegs (BitVec.ofNat 4 a.sub)
  | _ => 16

/-- One lane's bytes stored. -/
def storeLane (s : State) (cl n : Nat) (l : LocalLane) : State := putLocalNat s cl l.addr n l.x

/-- The bytes of a granule that a list of lanes writes, one bit each. -/
def coverage (n : Nat) (ls : List LocalLane) : Nat :=
  ls.foldl (fun m l => m ||| ((2 ^ n - 1) <<< (l.addr % 16))) 0

/-- The words that lanes write keep their old values for the other paths (R257). -/
def noteLanes (s : State) (cl n : Nat) (ls : List LocalLane) : State :=
  ls.foldl (fun t l => noteOlder t cl l.addr n 0 ((bankAt s cl (bankOf l.addr)).owner.getD 0) none fun v => localPoison s cl v 4) s

/-- One group's step at its granule (R220): results, or none when it must wait. -/
def granuleStep (s : State) (cl : Nat) (a : LocalAcc) (ls : List LocalLane) :
    Option (List (Nat × Nat × Bool)) × State :=
  match ls with
  | [] => (some [], s)
  | l0 :: _ =>
    let n := accBytes a
    let f := granFull s cl l0.addr
    match a.kind with
    | .load =>
      if a.fe ≠ 0 && !f then (none, s)
      else
        let rs := ls.map fun l => (l.lane, localNat s cl l.addr n, localPoison s cl l.addr n)
        (some rs, if a.fe = 2 then setFull s cl l0.addr false else s)
    | .store =>
      if a.fe = 2 && f then (none, s)
      else
        let s := ls.foldl (fun t l => storeLane t cl n l) (noteLanes s cl n ls)
        let scr := (bankAt s cl (bankOf l0.addr)).mode ≠ .reg
        let s := if scr && coverage n ls = 0xFFFF then setPoison s cl l0.addr false else s
        (some [], if a.fe ≠ 0 then setFull s cl l0.addr true else s)
    | .atomic =>
      let p := granPoison s cl l0.addr
      let (rs, s) := ls.foldl (fun acc l =>
        let w := localNat acc.2 cl l.addr n
        if p then (acc.1 ++ [(l.lane, 0, true)], acc.2)
        else (acc.1 ++ [(l.lane, w, false)], putLocalNat acc.2 cl l.addr n (atomNew a.sub w l.x l.y)))
          ([], if p then s else noteLanes s cl n ls)
      (some rs, s)
    | .feSet => (some [], setFull s cl l0.addr true)
    | .feClr => (some [], setFull s cl l0.addr false)

/-- Granules of a FIFO bank (R222). -/
def fifoSlot (k : Bank) (i : Nat) : Nat := (k.head + i) % 2048

/-- Appending one granule: `n` low bytes, the rest zero, with its poison (R222). -/
def fifoPush (s : State) (cl b n v : Nat) (pois : Bool) : State :=
  let k := bankAt s cl b
  let a := b * 2 ^ 15 + 16 * fifoSlot k k.count
  let s := putLocalNat s cl a 16 (v % 2 ^ (8 * n))
  onBank (setPoison (setFull s cl a true) cl a pois) cl b fun x => { x with count := x.count + 1 }

/-- Taking the granule at the head. -/
def fifoPop (s : State) (cl b n : Nat) : (Nat × Bool) × State :=
  let k := bankAt s cl b
  let a := b * 2 ^ 15 + 16 * k.head
  ((localNat s cl a n, granPoison s cl a),
    onBank (setFull s cl a false) cl b fun x => { x with head := (x.head + 1) % 2048, count := x.count - 1 })

/-- The lanes of an access at one FIFO bank, all in one step (R222). Where the lanes of one instruction name several FIFO
banks, each bank's lanes are one step of their own there (DESIGN CHOICE, log entry 103). -/
def fifoStep (s : State) (cl b : Nat) (a : LocalAcc) (ls : List LocalLane) :
    Option (List (Nat × Nat × Bool)) × State :=
  let k := bankAt s cl b
  let n := accBytes a
  match a.kind with
  | .store =>
    if 2048 < k.count + ls.length then (none, s)
    else (some [], ls.foldl (fun t l => fifoPush t cl b n l.x false) s)
  | .load =>
    if k.count < ls.length then (none, s)
    else
      let (rs, s) := ls.foldl (fun acc l =>
        let ((v, p), t) := fifoPop acc.2 cl b n
        (acc.1 ++ [(l.lane, v, p)], t)) (([] : List (Nat × Nat × Bool)), s)
      (some rs, s)
  | _ => (some [], s)

/-- The place where a lane's access is one step with others': a FIFO bank whole, else its granule. -/
def groupKey (s : State) (cl a : Nat) : Nat :=
  if (bankAt s cl (bankOf a)).mode = .fifo then bankOf a * 2 ^ 15 else a / 16 * 16

/-- The groups of a list of lanes that can go now: results, the lanes left, the state. A bank being copied to its spare
holds its accesses (R217). A qualified load whose bank has become a FIFO while it waited pops there, whatever its address
in the bank (R214; DESIGN CHOICE, log entry 104). -/
def performGroups (cl : Nat) (a : LocalAcc) : List Nat → State → List (Nat × Nat × Bool) × List LocalLane × State
  | [], s => ([], [], s)
  | k :: rest, s =>
    let here := a.lanes.filter fun l => groupKey s cl l.addr = k
    let bank := bankAt s cl (bankOf k)
    let step : Option (List (Nat × Nat × Bool)) × State :=
      if bank.copying then (none, s)
      else if bank.mode = .fifo then fifoStep s cl (bankOf k) a here
      else granuleStep s cl a here
    match step with
    | (some rs, t) =>
      let (rs', ls, u) := performGroups cl a rest t
      (rs ++ rs', ls, u)
    | (none, t) =>
      let (rs', ls, u) := performGroups cl a rest t
      (rs', here ++ ls, u)

def tryLocal (s : State) (cl : Nat) (a : LocalAcc) : List (Nat × Nat × Bool) × List LocalLane × State :=
  performGroups cl a ((a.lanes.map fun l => groupKey s cl l.addr).eraseDups) s

/-- Register results of a local access, and its consuming lanes: of a group load, the lanes active at its issue. -/
def localResults (a : LocalAcc) (rs : List (Nat × Nat × Bool)) : LaneMask × List RegWrite :=
  let n := if a.kind = .atomic then atomRegs (BitVec.ofNat 4 a.sub) else loadRegs (BitVec.ofNat 4 a.sub)
  let value (v : Nat) : Nat := if a.kind = .load then extendLoad a.sub v else v
  let bad := (rs.filter fun r => r.2.2).map (·.1)
  let dead : LaneMask := if a.group then (if bad.isEmpty then 0 else a.act) else maskOf bad
  let ws := (rs.filter fun r => !r.2.2).flatMap fun r =>
    if a.group then groupWrites a.d (value r.2.1) n else laneWrites a.d r.1 (value r.2.1) n
  (dead, ws.filter fun w => !a.superseded.contains w.target)

/-- An acquire drops the issuer's stale words when the access is performed (R246, R260). -/
def acquireNow (s : State) (cl : Nat) (a : LocalAcc) : State := match a.acq with
  | some sc => selfInvalidate s cl sc
  | none => s

/-- What can be performed of a local access is: its results, the lanes left, the state. -/
def goLocal (s : State) (cl : Nat) (a : LocalAcc) : List (Nat × Nat × Bool) × List LocalLane × State :=
  let (rs, rest, s) := tryLocal s cl a
  (rs, rest, if rest.length < a.lanes.length then acquireNow s cl a else s)

/-- A local access of an issuing instruction (R221): performed at once as far as nothing of its slot waits before it, else
it retires waiting; its own retirement is the first count of `left` (R70). -/
def localEffect (a : LocalAcc) (la : Nat) (c : Ctx) (s : State) : Effect :=
  let earlier := c.x.locals.any fun e => e.b = c.r.b && !suspended c.x e
  let waits (s : State) (ls : List LocalLane) : State :=
    onWave s c.w fun x => { x with locals := x.locals ++ [{ a with lanes := ls, left := a.left + 1 }] }
  if earlier then .done (waits s a.lanes) 0 0 []
  else
    let (rs, rest, s) := goLocal s c.cl a
    let (dead, ws) := localResults a rs
    if rest.isEmpty then .done s dead la ws
    else
      .done (waits s rest) dead 0 ws

/-- The checks, the holds of a pending mode change, and the access. -/
def localInstr (u : Bool) (as : List LaneAddr) (n la : Nat) (acc : LocalAcc) (rel : Bool) (sc : Nat) (c : Ctx)
    (s : State) : Effect :=
  if as.isEmpty then .done s 0 la []
  else if modePending s c as then .wait s
  else match checkLocal s c u acc.kind acc.fe n as with
    | some f => .trap f (clearProgress s c)
    | none =>
      match (if rel then releaseBefore s c sc else (none, s)) with
      | (some p, s) => .wait (keepProgress s c p [])
      | (none, s) =>
        let s := if rel then clearProgress s c else s
        localEffect acc la c s

/-- What lanes have read as a local access. -/
def localLanes (ls : List AtomLane) : List LocalLane := ls.map fun l => ⟨l.lane, l.va, l.x, l.y⟩

/-- R234 `ldl`, `gldl`. -/
def execLdl (f : LdlOps) (s : State) : Host.Outcome State Fault Refusal :=
  issueInstr (.ldl f) s fun c s =>
    let as := localAddrs s c f.u f.a f.off
    localInstr f.u as (loadBytes f.sub.toNat) f.la.toNat
      { b := c.r.b, kind := .load, group := f.u, sub := f.sub.toNat, fe := f.fe.toNat, d := f.d.toNat,
        left := if c.interlocked then 0 else f.la.toNat, sup := c.x.super, act := c.act
        acq := if f.cl = 1 then some f.sc.toNat else none
        lanes := as.map fun a => ⟨a.1, a.2, 0, 0⟩, superseded := [] }
      false f.sc.toNat c s

/-- R234 `stl`, `gstl`. -/
def execStl (f : StlOps) (s : State) : Host.Outcome State Fault Refusal :=
  issueInstr (.stl f) s fun c s =>
    let now := (localAddrs s c f.u f.a f.off).map fun a => ⟨a.1, a.2, srcNat s c f.u f.b a.1 0 (storeRegs f.sub), 0⟩
    overOperands c now fun ls =>
      localInstr f.u (laneAddrs ls) (storeBytes f.sub.toNat) 0
        { b := c.r.b, kind := .store, group := f.u, sub := f.sub.toNat, fe := f.fe.toNat, d := 0, left := 0,
          sup := c.x.super, act := c.act, acq := none, lanes := localLanes ls, superseded := [] }
        (f.cl = 2) f.sc.toNat c s

/-- R237, R238 `atoml`. -/
def execAtoml (f : AtomlOps) (s : State) : Host.Outcome State Fault Refusal :=
  issueInstr (.atoml f) s fun c s =>
    overOperands c (atomOperands s c false f.d f.b f.sub.toNat (localAddrs s c false f.a f.off)) fun ls =>
      localInstr false (laneAddrs ls) (4 * atomRegs f.sub) f.la.toNat
        { b := c.r.b, kind := .atomic, group := false, sub := f.sub.toNat, fe := 0, d := f.d.toNat,
          left := if c.interlocked then 0 else f.la.toNat, sup := c.x.super, act := c.act
          acq := if f.cl = 1 || f.cl = 3 then some f.sc.toNat else none
          lanes := localLanes ls, superseded := [] }
        (f.cl = 2 || f.cl = 3) f.sc.toNat c s

/-- Setting or clearing full bits (R240). -/
def fullBits (kind : LocalKind) (f : LsctlOps) (c : Ctx) (s : State) : Effect :=
  let as := localAddrs s c false f.a f.off
  localInstr false as 1 0
    { b := c.r.b, kind, group := false, sub := 0, fe := 0, d := 0, left := 0, sup := c.x.super, act := c.act
      acq := none, lanes := as.map fun a => ⟨a.1, a.2, 0, 0⟩, superseded := [] } false 0 c s

/-- R240 `lsctl.fe.set`. -/
def execLsctlFeSet (f : LsctlOps) (s : State) : Host.Outcome State Fault Refusal :=
  issueInstr (.lsctlFeSet f) s (fullBits .feSet f)

/-- R240 `lsctl.fe.clr`. -/
def execLsctlFeClr (f : LsctlOps) (s : State) : Host.Outcome State Fault Refusal :=
  issueInstr (.lsctlFeClr f) s (fullBits .feClr f)

/-- A waiting local access is performed as far as it can be (R221): only the first of its slot, and none of the program's
while its handler runs (R379). Poison kills its own consuming lanes (R427), and the wave's slots act on what that changes
(R153). -/
def performWaiting (s : State) (w n : Nat) : State :=
  match findWave s w with
  | none => s
  | some x =>
    match x.locals[n]? with
    | none => s
    | some a =>
      if suspended x a || (x.locals.take n).any fun e => e.b = a.b && !suspended x e then s
      else
        let (rs, rest, s) := goLocal s (clusterOf w) a
        let (dead, ws) := localResults a rs
        let s := onWave s w fun y => { y with locals :=
          if rest.isEmpty then y.locals.eraseIdx n else y.locals.set n { a with lanes := rest } }
        let s := applyWrites s w a.sup ws
        if dead = 0 then s else settleWave (consumeAside s w dead (slotOf x a.b).pc) w

/-! Mode changes. -/

def modeOfCode : Nat → BankMode
  | 1 => .scr
  | 2 => .cache
  | 3 => .fifo
  | _ => .free

/-- Whether R214 lets a wave move a bank into a mode; a request for the mode that the bank holds has no effect, whoever
makes it. -/
def modeAllowed (s : State) (c : Ctx) (b : Nat) (m : BankMode) : Bool :=
  let k := bankAt s c.cl b
  if k.dead then false
  else match m with
    | .free => c.x.super && k.mode = .cache
    | _ =>
      if k.mode = m then true
      else if m = .cache then c.x.super && k.mode = .free
      else !c.x.super && !c.t.task && k.owner = some c.x.team && (k.mode = .scr || k.mode = .fifo)

/-- R240 `lsctl.mode`: on the bank of the lowest lane's address. -/
def execLsctlMode (f : LsctlOps) (s : State) : Host.Outcome State Fault Refusal :=
  issueInstr (.lsctlMode f) s fun c s =>
    match localAddrs s c false f.a f.off with
    | [] => results s []
    | a :: _ =>
      let m := modeOfCode f.b.toNat
      if modePending s c [a] then .wait s
      else if 0x180000 ≤ a.2 then .trap (addrFail c false 6 0 1 [(a, 0)]) s
      else if !modeAllowed s c (bankOf a.2) m then .trap (addrFail c false 6 0 5 [(a, 0)]) s
      else if (bankAt s c.cl (bankOf a.2)).mode = m then results s []
      else results { s with modeReqs := s.modeReqs ++ [(c.cl, bankOf a.2, m, c.w)] } []

/-! Cache control. -/

/-- The superblocks of an instruction's addresses. -/
def superblocks (as : List LaneAddr) : List Nat := (as.map fun a => a.2 / 512).eraseDups

/-- The checks of `inv` and `wb` (R240). Their page fault has ACC 0, a load (DESIGN CHOICE, log entry 133). -/
def checkCache (c : Ctx) (as : List LaneAddr) : Option Fail :=
  let odd := as.filter fun a => !canonical a.2
  let mis := as.filter fun a => a.2 % 4 ≠ 0
  if !odd.isEmpty then some (addrFail c false 5 0 0 (odd.map fun a => (a, v50Word 2 a.2)))
  else if !mis.isEmpty then some (addrFail c false 7 0 0 (mis.map fun a => (a, 0)))
  else none

/-- R240 `lsctl.inv`. -/
def execLsctlInv (f : LsctlOps) (s : State) : Host.Outcome State Fault Refusal :=
  issueInstr (.lsctlInv f) s fun c s =>
    let as := globalAddrs s c false f.a f.off
    match checkCache c as with
    | some g => .trap g s
    | none => results ((superblocks as).foldl (fun t b => evictL1Block t c.cl c.tag b) s) []

/-- Pushing the dirty words of some superblocks from a node. -/
def pushBlocks (tag : AsidTag) (blocks : List Nat) (s : State) (n : Node) : State :=
  blocks.foldl (fun t b => (List.range 4).foldl (fun u i => pushLine u n tag (4 * b + i)) t) s

/-- R240 `lsctl.wb`: level by level, to the home. -/
def execLsctlWb (f : LsctlOps) (s : State) : Host.Outcome State Fault Refusal :=
  issueInstr (.lsctlWb f) s fun c s =>
    overOperands c (addrLanes (globalAddrs s c false f.a f.off)) fun ls =>
      let as := laneAddrs ls
      match checkCache c as with
      | some g => .trap g (clearProgress s c)
      | none =>
        if as.isEmpty then results s []
        else match releaseStep (pushBlocks c.tag (superblocks as)) s (releaseNodes c.cl 6) (phaseOf c) with
          | (some p, s) => .wait (keepProgress s c p [])
          | (none, s) => results (clearProgress s c) []

/-- The node whose copy a prefetch asks for: an L1 with no CACHE bank holds no data (R224), so its level is the die's. -/
def prefetchNode (s : State) (cl va level : Nat) : Node :=
  match level with
  | 0 => if l1Ways s cl = 0 then .die (dieOf cl) else .l1 cl
  | 1 => .die (dieOf cl)
  | 2 => .stk (stackOf cl)
  | _ => .home (homeOf va)

/-- A line is brought into a level (R240): the levels on its way to the home fill as it passes. `p` is where it lies. A stack
that has it uses it (R459). -/
def prefetch (s : State) (c : Ctx) (level va : Nat) (p : Phys) : State :=
  let line := lineOf va
  let n := prefetchNode s c.cl va level
  match parentNode n va with
  | none => settle s (some (c.tag, va)) p
  | some above =>
    if lacking s n c.tag line wholeLine = 0 then
      match n with
      | .stk k => touchStk s k c.tag line
      | _ => s
    else send s { mkMsg .getS n above c.tag line with mask := wholeLine }

/-- R240 `lsctl.pf`: addresses that are not canonical, not aligned or not translated are ignored. -/
def execLsctlPf (f : LsctlOps) (s : State) : Host.Outcome State Fault Refusal :=
  issueInstr (.lsctlPf f) s fun c s =>
    let as := globalAddrs s c false f.a f.off
    results (as.foldl (fun t a =>
      if !canonical a.2 || a.2 % 4 ≠ 0 then t
      else match translate t c.tag a.2 .load c.x.super with
        | (.ok p _, u) => prefetch u c f.b.toNat a.2 p
        | (_, u) => u) s) []

/-! Fences. -/

/-- R260 `fence`. -/
def execFence (f : FenceOps) (s : State) : Host.Outcome State Fault Refusal :=
  issueInstr (.fence f) s fun c s =>
    if c.act = 0 then results s []
    else if !earlierDone s c then .wait s
    else match (if f.cl = 2 || f.cl = 3 then releaseBefore s c f.sc.toNat else (none, s)) with
      | (some p, s) => .wait (keepProgress s c p [])
      | (none, s) =>
        let s := clearProgress s c
        results (if f.cl = 1 || f.cl = 3 then selfInvalidate s c.cl f.sc.toNat else s) []

/-- An operation of a path that the team issued before has not completed (R261): C copies, whose reducing ones have their
combining step on A (R256, R282), and M matrix operations. An operation still being gathered counts once this wave has issued its part. -/
def pathPending (s : State) (c : Ctx) (path : BitVec 4) : Bool :=
  let issued (op : CopyOp) : Bool := op.gathered || op.slices.any fun sl => sl.wave = c.x.num
  (s.copies.any fun e => e.2.team = c.x.team && issued e.2 &&
    (path.getLsbD 1 || (path.getLsbD 3 && e.2.slices.any fun sl => sl.kind = .l2gRed))) ||
  (path.getLsbD 2 && s.mats.any fun e =>
    e.2.team = c.x.team && (e.2.formed || e.2.supplies.any fun p => p.wave = c.x.num))

/-- What an `xfence` of a wave orders (R261): the writes on the paths of its from-mask by its team, or into its team's banks. -/
def fencedWrite (s : State) (c : Ctx) (fr : BitVec 4) (e : Older) : Bool :=
  let a := e.key - lsKey c.cl 0
  let here : Bool := lsKey c.cl 0 ≤ e.key && e.key < lsKey (c.cl + 1) 0 &&
    ((bankAt s c.cl (bankOf a)).owner = some c.x.team || (c.t.task && inWindow c.x a 4))
  fr.getLsbD e.path && (e.team = c.x.team || here)

/-- R261 `xfence`. -/
def execXfence (f : XfenceOps) (s : State) : Host.Outcome State Fault Refusal :=
  issueInstr (.xfence f) s fun c s =>
    if c.act = 0 then results s []
    else if !earlierDone s c || pathPending s c f.fr then .wait s
    else match releaseBefore s c f.sc.toNat with
      | (some p, s) => .wait (keepProgress s c p [])
      | (none, s) =>
        let s := freshen (clearProgress s c) f.dst (fencedWrite s c f.fr)
        results (if f.dst.getLsbD 0 || f.dst.getLsbD 1 then selfInvalidate s c.cl f.sc.toNat else s) []

end Sys2Proof.Machine
end

