-- ==== Sys2Proof/Machine/Copy.lean ====
section
/-! DEFINITION. Asynchronous copies (R276 to R300): the collective instructions, the engine's checks and its moves, writes
that arrive at a local store, and completion. -/

namespace Sys2Proof.Machine

/-! Tokens (R279, R290). -/

def tokenAt (t : Team) (n : Nat) : Token := t.toks.getD n default

def setToken (s : State) (tid n : Nat) (f : Token → Token) : State :=
  onTeam s tid fun t => { t with toks := t.toks.set n (f (tokenAt t n)) }

/-- The token is pending for an operation other than this one. -/
def tokenBusy (t : Team) (n : Nat) (op : Option Nat) : Bool :=
  (tokenAt t n).op.isSome && (tokenAt t n).op ≠ op

/-- The fields of a status (R290), without PEND. -/
def statusWord (stat : Nat) (mm : Bool) (detail count : Nat) : Word :=
  BitVec.ofNat 32 (stat + 32 * boolNat mm + 256 * detail + 65536 * min count 0xFFFF)

/-- STAT 3 with a detail. -/
def faultStatus (mm : Bool) (detail count : Nat) : Word := statusWord 3 mm detail count

/-! Issue. -/

/-- Copy instruction of a team's wave: its number (R276). -/
def copyNumber (t : Team) (wave : Nat) : Nat := kvGet t.copies wave 0

/-- The operations that a cluster's engine holds (R280). -/
def engineLoad (s : State) (cl : Nat) : Nat := (s.copies.filter fun e => e.2.cl = cl).length

/-- Where an attached `mma` follows a copy instruction in its clause, the operation attached to copy `k` stands from now on:
waves that end before their `mma` count for it, and it may stay without any supply (R295, R307). -/
def noteFollower (s : State) (c : Ctx) (k : Nat) : State :=
  let n := c.sl.woff + c.words.length
  let w1 := c.sl.clause.getD (n + 1) 0
  if c.sl.clause.length < n + 2 || !passesMma (c.sl.clause.getD n 0) w1 then s
  else
    let (id, op, s) := attachedMat s c.x.team c.cl (if field w1 24 4 = 1 then .joint else .solo) k (field w1 21 3).toNat
      (field w1 10 6).toNat
    { s with mats := kvPut s.mats id op }

/-- A slice of a collective instruction (R277 to R280): it joins the operation of its number, or opens it. -/
def issueCopy (kind : CopyKind) (tok : BitVec 3) (empty : Bool) (a b : List Word) (c : Ctx) (s : State) : Effect :=
  let k := copyNumber c.t c.x.num + 1
  let joined := s.copies.find? fun e => e.2.team = c.x.team && e.2.k = k
  if tokenBusy c.t tok.toNat (joined.map (·.1)) then .wait s
  else if joined.isNone && 16 ≤ engineLoad s c.cl then .wait s
  else
    let sl : Slice := ⟨c.x.num, kind, c.words.getD 1 0, tok.toNat, empty || c.act = 0, a, b⟩
    let (id, s) : Nat × State := match joined with
      | some e => (e.1, { s with copies := kvPut s.copies e.1 { e.2 with slices := e.2.slices ++ [sl] } })
      | none =>
        let (n, s) := fresh s
        let op : CopyOp :=
          { team := c.x.team, cl := c.cl, k, tag := c.tag, slices := [sl], gathered := false, moves := [], fault := none,
            gone := false, pois := false, marks := [], faulting := [], pages := [], cover := [] }
        (n, { s with copies := kvPut s.copies n op })
    let s := onSlot (onTeam s c.x.team fun t => { t with copies := kvPut t.copies c.x.num k }) c.r fun y =>
      { y with copy := k }
    results (setToken (noteFollower s c k) c.x.team tok.toNat fun x => { x with op := some id }) []

/-- The registers of a quad. -/
def quad (s : State) (c : Ctx) (n : Nat) : List Word := (List.range 4).map fun j => readGroup s c.x (n + j)

/-- RB and ROWS of a shape quad (R283). -/
def rowBytes (b : List Word) : Nat := (field (b.getD 0 0) 0 24).toNat
def rowCount (b : List Word) : Nat := (field (b.getD 1 0) 0 16).toNat

/-- `cp` of a kind (R281 to R283). -/
def copyEffect (kind : CopyKind) (f : CpOps) (c : Ctx) (s : State) : Effect :=
  let b := quad s c f.b.toNat
  issueCopy kind f.tok (rowBytes b = 0 || rowCount b = 0) (quad s c f.a.toNat) b c s

/-- R282 `cp.g2l`. -/
def execCpG2l (f : CpOps) (s : State) : Host.Outcome State Fault Refusal := issueInstr (.cpG2l f) s (copyEffect .g2l f)

/-- R282 `cp.l2g`. -/
def execCpL2g (f : CpOps) (s : State) : Host.Outcome State Fault Refusal := issueInstr (.cpL2g f) s (copyEffect .l2g f)

/-- R282, R286 `cp.l2g.red`. -/
def execCpL2gRed (f : CpOps) (s : State) : Host.Outcome State Fault Refusal :=
  issueInstr (.cpL2gRed f) s (copyEffect .l2gRed f)

/-- R282, R285 `cp.l2l`. -/
def execCpL2l (f : CpOps) (s : State) : Host.Outcome State Fault Refusal := issueInstr (.cpL2l f) s (copyEffect .l2l f)

/-- R282 `cp.g2g`. -/
def execCpG2g (f : CpOps) (s : State) : Host.Outcome State Fault Refusal := issueInstr (.cpG2g f) s (copyEffect .g2g f)

/-- R282, R287 `cp.peer.put`. -/
def execCpPeerPut (f : CpOps) (s : State) : Host.Outcome State Fault Refusal :=
  issueInstr (.cpPeerPut f) s (copyEffect .peerPut f)

/-- R282, R287 `cp.peer.get`. -/
def execCpPeerGet (f : CpOps) (s : State) : Host.Outcome State Fault Refusal :=
  issueInstr (.cpPeerGet f) s (copyEffect .peerGet f)

/-- R282, R285 `cp.g2l.mc`. -/
def execCpG2lMc (f : CpOps) (s : State) : Host.Outcome State Fault Refusal :=
  issueInstr (.cpG2lMc f) s (copyEffect .g2lMc f)

/-- R297 `cpscale`: an empty slice has COUNT 0. -/
def execCpscale (f : CpscaleOps) (s : State) : Host.Outcome State Fault Refusal :=
  issueInstr (.cpscale f) s fun c s =>
    let b := [readGroup s c.x f.b.toNat]
    issueCopy .scale f.tok (field (b.getD 0 0) 8 8 = 0)
      [readGroup s c.x f.a.toNat, readGroup s c.x (f.a.toNat + 1)] b c s

/-- The status of a token with PEND (R290). -/
def tokenStatus (t : Token) : Word := t.status ||| (if t.op.isSome then 16 else 0)

/-- R294 `tkq`. -/
def execTkq (f : TkOps) (s : State) : Host.Outcome State Fault Refusal :=
  issueInstr (.tkq f) s fun c s =>
    results s (if c.act = 0 then [] else [.group f.d.toNat (tokenStatus (tokenAt c.t f.tok.toNat))])

/-- R294 `tkq.clr`: STAT, MM, DETAIL and COUNT go to 0. -/
def execTkqClr (f : TkOps) (s : State) : Host.Outcome State Fault Refusal :=
  issueInstr (.tkqClr f) s fun c s =>
    if c.act = 0 then results s []
    else results (setToken s c.x.team f.tok.toNat fun x => { x with status := 0 })
      [.group f.d.toNat (tokenStatus (tokenAt c.t f.tok.toNat))]

/-- R294 `tkq.addr`. -/
def execTkqAddr (f : TkOps) (s : State) : Host.Outcome State Fault Refusal :=
  issueInstr (.tkqAddr f) s fun c s =>
    let v := (tokenAt c.t f.tok.toNat).addr
    results s (if c.act = 0 then [] else [.group f.d.toNat (loWord v), .group (f.d.toNat + 1) (hiWord v)])

/-! The shape of a slice. -/

def srcLocal : CopyKind → Bool
  | .l2g | .l2gRed | .l2l | .peerPut => true
  | _ => false

def dstLocal : CopyKind → Bool
  | .g2l | .l2l | .peerGet | .g2lMc => true
  | _ => false

/-- The bank modes that R282 allows as a source and as a destination of the issuer. -/
def srcModes : CopyKind → List BankMode
  | .l2g | .l2l => [.scr, .reg]
  | _ => [.scr]

def dstModes : CopyKind → List BankMode
  | .g2l | .l2l => [.scr, .reg]
  | _ => [.scr]

/-- The multicast select of word 1 (R281). -/
def mcOf (sl : Slice) : Nat := (field sl.w1 16 2).toNat

def isMulticast (sl : Slice) : Bool := (sl.kind = .l2l || sl.kind = .g2lMc) && mcOf sl ≠ 0

def srcBase (sl : Slice) : DWord := pairOf (sl.a.getD 0 0) (sl.a.getD 1 0)
def dstBase (sl : Slice) : DWord := pairOf (sl.a.getD 2 0) (sl.a.getD 3 0)

/-- Row `r`'s source and destination addresses, mod 2^64 (R283). -/
def rowAddrs (sl : Slice) (r : Nat) : Nat × Nat :=
  ((srcBase sl + sext 64 (sl.b.getD 2 0) * BitVec.ofNat 64 r).toNat,
   (dstBase sl + sext 64 (sl.b.getD 3 0) * BitVec.ofNat 64 r).toNat)

def sliceRows (sl : Slice) : List (Nat × Nat) := (List.range (rowCount sl.b)).map (rowAddrs sl)

/-- The destination is a bank in FIFO mode (R282, R288). -/
def fifoDest (s : State) (cl : Nat) (sl : Slice) : Bool :=
  (sl.kind = .g2l || sl.kind = .l2l) && !isMulticast sl && (dstBase sl).toNat < 0x180000 &&
    (bankAt s cl (bankOf (dstBase sl).toNat)).mode = .fifo

/-- The scale entries a slice names: FIRST, COUNT, and how many bytes of source (R297, R298). -/
def scaleFirst (sl : Slice) : Nat := (field (sl.b.getD 0 0) 0 7).toNat
def scaleCount (sl : Slice) : Nat := (field (sl.b.getD 0 0) 8 8).toNat
def scaleColumn (sl : Slice) : Bool := field sl.w1 24 4 = 1
def scaleLocal (sl : Slice) : Bool := sl.w1.getLsbD 0
def scaleBytes (sl : Slice) : Nat := 2 * scaleCount sl * (if scaleColumn sl then 4 else 1)

/-! The engine's checks (R284, R287, R298). -/

/-- A span of local bytes lies in banks of the team in some modes; a task's, in its own register window (R212). -/
def ownSpan (s : State) (cl tid : Nat) (t : Team) (modes : List BankMode) (a n : Nat) : Bool :=
  a + n ≤ 0x180000 &&
  if t.task then modes.contains .reg && (t.waves.any fun w => match findWave s w with
      | some x => inWindow x a n
      | none => false)
  else (List.range ((a + n - 1) / 2 ^ 15 + 1 - a / 2 ^ 15)).all fun i =>
    let k := bankAt s cl (a / 2 ^ 15 + i)
    k.owner = some tid && modes.contains k.mode

/-- A row of a global or peer address is canonical at its first and last byte. -/
def rowCanonical (a n : Nat) : Bool := canonical a && canonical ((a + n - 1) % 2 ^ 64)

/-- The port a peer copy names may serve it (R287, R449). -/
def portServes (s : State) (sl : Slice) (tag : AsidTag) : Bool :=
  let p := portAt s (field sl.w1 0 3).toNat
  p.up && p.outAsid = tag.asid

/-- The members that a multicast names (R285); none for detail 5. -/
def targetsOf (s : State) (op : CopyOp) (sl : Slice) : Option (List Target) :=
  match findTeam s op.team with
  | none => none
  | some t =>
    match t.cohort, findLaunch s t.launch with
    | some (c, j), some la =>
      let all := (la.places.filter fun e => e.1.1 = c)
      match mcOf sl with
      | 1 => some ((all.filter fun e => columnOf e.2.cl = columnOf op.cl).map (·.2))
      | 2 => some ((all.filter fun e => dieOf e.2.cl = dieOf op.cl).map (·.2))
      | _ =>
        match la.ker.asms[(field sl.w1 0 8).toNat]? with
        | none => none
        | some ms => if ms.contains j then some ((all.filter fun e => ms.contains e.1.2).map (·.2)) else none
    | _, _ => none

/-- The global and peer rows of a slice that are not canonical, by start and length (R284, R298). -/
def oddRows (sl : Slice) : List (Nat × Nat) :=
  let rb := rowBytes sl.b
  let all : List (Nat × Nat) :=
    if sl.kind = .scale then (if scaleLocal sl then [] else [((srcBase sl).toNat, scaleBytes sl)])
    else (sliceRows sl).flatMap fun r =>
      (if srcLocal sl.kind then [] else [(r.1, rb)]) ++ if dstLocal sl.kind then [] else [(r.2, rb)]
  if sl.empty then [] else all.filter fun r => !rowCanonical r.1 r.2

/-- A granule that faults of such a row: the row's `g`-th, where that one does, else one at an end. -/
def oddGranule (a n g : Nat) : Nat :=
  let x := 16 * (a / 16 + g)
  let lo := max a x
  let hi := min (a + n) (x + 16) - 1
  (if !canonical (lo % 2 ^ 64) || !canonical (hi % 2 ^ 64) then x
    else if !canonical a then a / 16 * 16 else (a + n - 1) / 16 * 16) % 2 ^ 64

/-- The details that a non-empty `cp` slice meets. Of a FIFO destination DP moves nothing (R283), but detail 2 counts a DP that
is not a multiple of 4 all the same, as R284 lists it (DESIGN CHOICE, log entry 110). -/
def cpDetails (s : State) (op : CopyOp) (t : Team) (sl : Slice) : List Nat :=
  let rb := rowBytes sl.b
  let rows := sliceRows sl
  let fifo := fifoDest s op.cl sl
  let odd (w : Word) : Bool := w.toNat % 4 ≠ 0
  let shape : Bool :=
    field (sl.b.getD 0 0) 24 8 ≠ 0 || field (sl.b.getD 1 0) 16 16 ≠ 0 || rb % 4 ≠ 0 ||
    odd (sl.a.getD 0 0) || odd (sl.a.getD 2 0) || odd (sl.b.getD 2 0) || odd (sl.b.getD 3 0) ||
    (srcLocal sl.kind && sl.a.getD 1 0 ≠ 0) || (dstLocal sl.kind && sl.a.getD 3 0 ≠ 0) ||
    (fifo && ((dstBase sl).toNat % 2 ^ 15 ≠ 0 || rb * rowCount sl.b % 16 ≠ 0))
  let place : Bool :=
    (srcLocal sl.kind && rows.any fun r => !ownSpan s op.cl op.team t (srcModes sl.kind) r.1 rb) ||
    (dstLocal sl.kind && !isMulticast sl &&
      if fifo then (bankAt s op.cl (bankOf (dstBase sl).toNat)).owner ≠ some op.team
      else rows.any fun r => !ownSpan s op.cl op.team t (dstModes sl.kind) r.2 rb)
  let target : Bool := isMulticast sl && (targetsOf s op sl).isNone
  let port : Bool := (sl.kind = .peerPut || sl.kind = .peerGet) && !portServes s sl op.tag
  (if (oddRows sl).isEmpty then [] else [1]) ++ (if shape then [2] else []) ++ (if place then [3] else []) ++
    (if target then [5] else []) ++ (if port then [6] else [])

/-- The details that a non-empty `cpscale` slice meets (R298). -/
def scaleDetails (s : State) (op : CopyOp) (t : Team) (sl : Slice) : List Nat :=
  let a := (srcBase sl).toNat
  let b := sl.b.getD 0 0
  (if (oddRows sl).isEmpty then [] else [1]) ++
  (if 128 < scaleFirst sl + scaleCount sl || b.getLsbD 7 || field b 16 16 ≠ 0 || a % 2 ≠ 0 ||
      (scaleLocal sl && sl.a.getD 1 0 ≠ 0) then [2] else []) ++
  (if scaleLocal sl && !ownSpan s op.cl op.team t [.scr, .reg] a (scaleBytes sl) then [3] else [])

def sliceDetails (s : State) (op : CopyOp) (t : Team) (sl : Slice) : List Nat :=
  if sl.empty then [] else if sl.kind = .scale then scaleDetails s op t sl else cpDetails s op t sl

/-- Word 1, and which of the two instructions, agree in every wave's instruction (R278). -/
def slicesAgree : List Slice → Bool
  | [] => true
  | a :: rest => rest.all fun b => a.w1 = b.w1 && (a.kind == .scale) == (b.kind == .scale)

/-! Moves. -/

/-- The words of a row, one list for each 16-byte granule of the destination. -/
def rowPieces (src dst rb : Nat) : List (List (Nat × Nat)) :=
  (List.range ((dst + rb - 1) / 16 + 1 - dst / 16)).map fun i =>
    let g := 16 * (dst / 16 + i)
    let lo := max dst g
    let hi := min (dst + rb) (g + 16)
    (List.range ((hi - lo) / 4)).map fun j => (src + (lo - dst) + 4 * j, lo + 4 * j)

/-- Lists of four, in order. -/
def inFours {α : Type} : List α → List (List α)
  | a :: b :: c :: d :: rest => [a, b, c, d] :: inFours rest
  | _ => []

/-- The moves of a `cp` slice, number `n` of its operation. -/
def cpMoves (n : Nat) (targets : List Target) (fifo : Bool) (sl : Slice) : List Move :=
  let rb := rowBytes sl.b
  if fifo then
    let ws := (sliceRows sl).flatMap fun r => (List.range (rb / 4)).map fun j => (r.1 + 4 * j, (dstBase sl).toNat)
    (inFours ws).map fun w => ⟨n, w, targets, true, []⟩
  else ((sliceRows sl).flatMap fun r => rowPieces r.1 r.2 rb).map fun w => ⟨n, w, targets, false, []⟩

/-- The moves of a `cpscale` slice: entries of one layer, eight at a time by their number (R298). -/
def scaleMoves (n cl : Nat) (sl : Slice) : List Move :=
  let col := 128 * (field sl.w1 8 6).toNat
  let layers : List (Nat × Nat) := if scaleColumn sl then (List.range 4).map fun d => (d, columnCluster (columnOf cl) d)
    else [(0, cl)]
  layers.flatMap fun l =>
    (List.range 16).filterMap fun g =>
      let ws := (List.range 8).filterMap fun j =>
        let e := 8 * g + j
        if scaleFirst sl ≤ e && e < scaleFirst sl + scaleCount sl then
          some ((srcBase sl).toNat + 2 * (l.1 * scaleCount sl + (e - scaleFirst sl)), col + e) else none
      if ws.isEmpty then none else some ⟨n, ws, [⟨l.2, none, 0⟩], false, []⟩

/-- The issuer's own cluster as a target. -/
def ownTarget (op : CopyOp) (t : Team) : Target := ⟨op.cl, if t.task then none else some t.allocTag, 0⟩

def sliceMoves (s : State) (op : CopyOp) (t : Team) (n : Nat) (sl : Slice) : List Move :=
  if sl.empty then []
  else if sl.kind = .scale then scaleMoves n op.cl sl
  else cpMoves n (if isMulticast sl then (targetsOf s op sl).getD [] else [ownTarget op t]) (fifoDest s op.cl sl) sl

/-- The slices in ascending wave number. -/
def sortSlices (ls : List Slice) : List Slice := (List.range 16).flatMap fun w => ls.filter fun sl => sl.wave = w

/-- Every wave has supplied its slice, or has ended (R277). -/
def copyFull (s : State) (op : CopyOp) : Bool :=
  match findTeam s op.team with
  | none => false
  | some t => t.waves.all fun w => match findWave s w with
    | some x => x.alive = 0 || op.slices.any fun sl => sl.wave = x.num
    | none => true

def putCopy (s : State) (id : Nat) (op : CopyOp) : State := { s with copies := kvPut s.copies id op }

/-- R277, R278, R284: an operation that has every slice is checked, and its moves are laid out. -/
def gatherCopy (s : State) (id : Nat) : State :=
  match kvFind s.copies id with
  | none => s
  | some op =>
    match findTeam s op.team with
    | none => s
    | some t =>
      if op.gathered || !copyFull s op then s
      else
        let op := { op with gathered := true, slices := sortSlices op.slices }
        if !slicesAgree op.slices then putCopy s id { op with fault := some 4 }
        else
          match op.slices.flatMap (sliceDetails s op t) with
          | [] => putCopy s id { op with moves :=
              (List.range op.slices.length).flatMap fun n => sliceMoves s op t n (op.slices.getD n default) }
          | d :: ds =>
            let rows := op.slices.flatMap oddRows
            let (i, s) := pickNat s rows.length
            let (a, n) := rows.getD i (0, 0)
            let (g, s) := pickNat s ((a % 16 + n + 15) / 16)
            putCopy s id { op with
              fault := some (ds.foldl min d), faulting := if rows.isEmpty then [] else [oddGranule a n g] }

/-- The collective operation has all its slices (R277). -/
def execCopyGathered (op : Nat) (s : State) : Host.Outcome State Fault Refusal := .next (gatherCopy s op)

/-! The engine at work. -/

/-- The engine as an agent of its cluster (R289, R403). -/
def engineAsker (op : CopyOp) (acc : Acc) : Asker :=
  { cl := op.cl, core := none, tag := op.tag, sup := false, src := 1, acc := accCode acc, waiter := none }

/-- The mark of an engine's atomic requests. -/
def engineMark (id : Nat) : Nat := 2 ^ 20 + id

/-- The smaller of two details; the smallest met stands (R290). -/
def worse (a : Option Nat) (d : Nat) : Option Nat := some (match a with
  | some x => min x d
  | none => d)

/-- A granule of the operation faults, with a detail. -/
def noteFault (op : CopyOp) (d va : Nat) : CopyOp :=
  { op with
    fault := worse op.fault d
    faulting := if op.faulting.contains (va / 16 * 16) then op.faulting else op.faulting ++ [va / 16 * 16] }

def noteMark (op : CopyOp) (m : Nat × Nat) : CopyOp := if op.marks.contains m then op else { op with marks := op.marks ++ [m] }

def notePoison (op : CopyOp) (m : Nat × Nat) : CopyOp := noteMark { op with pois := true } m
def noteGone (op : CopyOp) (m : Nat × Nat) : CopyOp := noteMark { op with gone := true } m

/-- An address whose translation is refused: status, and one record for each page of the operation (R291, R401). -/
def noteRefused (s : State) (op : CopyOp) (va kind : Nat) (acc : Acc) (all : List Nat) : CopyOp × State :=
  let op := noteFault op 1 va
  if op.pages.contains (va / 4096) then (op, s)
  else
    let low := (all.filter fun a => a / 4096 = va / 4096).foldl min va
    ({ op with pages := op.pages ++ [va / 4096] }, (writeFault s (homeOf va) ((engineAsker op acc).record low kind)).2)

/-- Translating addresses for the engine; a store to a fenced home counts as refused (R32, R291). -/
def refuseAll (s : State) (op : CopyOp) (acc : Acc) (all : List Nat) : List Nat → Bool × CopyOp × State
  | [] => (false, op, s)
  | va :: rest =>
    match translate s op.tag va acc false with
    | (.refused k, s) =>
      let (op, s) := noteRefused s op va k acc all
      let (_, op, s) := refuseAll s op acc all rest
      (true, op, s)
    | (.lost, s) =>
      let (bad, op, s) := refuseAll s op acc all rest
      if acc = .load then (bad, op, s) else (true, noteFault op 1 va, s)
    | (.ok _ _, s) => refuseAll s op acc all rest

/-- A word that the engine reads from its own cluster's store, as path C sees it (R257, R289); none while the bank is being
copied to its spare. -/
def localSource (s : State) (cl a : Nat) : Option (Word × Bool) :=
  if (bankAt s cl (bankOf a)).copying then none else some (seenWord s cl a 1 s.freeCtr fun v => localPoison s cl v 4)

/-- A word that the engine reads through the L1; none where the L1 lacks it. -/
def globalSource (s : State) (q : Asker) (va : Nat) : Option (Word × Bool) := (cachedWords s q [va]).bind (·.head?)

/-- What the engine has of word `j` of a move. -/
def takenAt (m : Move) (j : Nat) : Taken := m.vals.getD j .no

/-- Every word of a move, as far as `f` says what the engine has of it. -/
def retake (m : Move) (f : Nat → Taken) : Move := { m with vals := (List.range m.words.length).map f }

/-- The words of a move, once all are read. -/
def takenAll (m : Move) : Option (List (Word × Bool)) :=
  allSome ((List.range m.words.length).map fun j => match takenAt m j with
    | .got v p => some (v, p)
    | _ => none)

/-- Half of a word, for scale entries. -/
def halfAt (w : Word) (a : Nat) : Word := zext 32 (field w (8 * (a % 4)) 16)

/-- The number of a granule for counting: of its cluster's store, of global memory, or of a push. -/
def moveKey (op : CopyOp) (m : Move) (dst : Nat) : Nat := if m.fifo then 2 ^ 64 + op.moves.length else dst / 16

/-- Storing what a move has read. -/
def moveOut (s : State) (id : Nat) (op : CopyOp) (m : Move) (sl : Slice) (vs : List (Word × Bool)) : CopyOp × State :=
  let ps := m.words.zip vs
  let bad := vs.any (·.2)
  let q := engineAsker op .store
  let here (d : Nat) : Nat × Nat := (2 ^ 20, d / 16)
  let marked : CopyOp := ps.foldl (fun o e => if e.2.2 then notePoison o (here e.1.2) else o) op
  match sl.kind with
  | .l2g | .g2g =>
    let s := storeL1 s q (ps.map fun e => (e.1.2, e.2.1, e.2.2))
    (marked, releaseLines s q (m.words.map (·.2)))
  | .l2gRed =>
    let red := (field sl.w1 18 3).toNat
    (marked, ps.foldl (fun t e =>
      sendAtoms t op.cl op.tag (if e.2.2 then poisonCode else red) 6 (engineMark id) [⟨0, e.1.2, e.2.1.toNat, 0⟩]) s)
  | .peerPut =>
    let p := (field sl.w1 0 3).toNat
    let va := (m.words.headD (0, 0)).2
    let port := portAt s p
    (marked, { putPort s p { port with puts := port.puts ++ [(id, va)] } with
      hostSees := s.hostSees ++ [.peerWrite p (portAt s p).remAsid va (vs.map (·.1)) bad] })
  | .scale =>
    let lost := m.targets.all fun t => !clusterEnabled s t.cl || s.fencedLayers.contains t.cl
    let cl := (m.targets.headD default).cl
    if lost then (op, s)
    else
      let s := ps.foldl (fun t e =>
        { t with scale := kvPut t.scale (cl, e.1.2) (halfAt e.2.1 e.1.1, e.2.2) }) s
      (ps.foldl (fun o e => if e.2.2 then notePoison o (2 ^ 21 + cl, e.1.2 / 8) else o) op, s)
  | _ =>
    let key (t : Target) : Nat := moveKey op m ((t.base + (m.words.headD (0, 0)).2) % 2 ^ 64)
    let sent (t : Target) : Inbound :=
      { op := id, slice := m.slice, target := t, multi := isMulticast sl,
        words := ps.map fun e => ((t.base + e.1.2) % 2 ^ 64, e.2.1, e.2.2), key := key t, begun := none }
    if m.fifo then
      let v := ps.foldr (fun e n => e.2.1.toNat + 2 ^ 32 * n) 0
      (if bad then notePoison op (op.cl, moveKey op m 0) else op,
        fifoPush s op.cl (bankOf (m.words.headD (0, 0)).2) 16 v bad)
    else (op, { s with inbound := s.inbound ++ m.targets.map sent })

/-- A word asked of a peer (R287). -/
def askPeer (s : State) (id : Nat) (p : Nat) (w : Nat × Nat) : State :=
  let port := portAt s p
  { putPort s p { port with gets := port.gets ++ [(id, w.1, w.2)] } with hostSees := s.hostSees ++ [.peerRead p port.remAsid w.1] }

def accOf (k : CopyKind) : Acc := if k = .l2gRed then .atomic else .store

/-- The moves that may be written now: none before it in the list, of its slice, writes one of its words (R288). -/
def readyMoves (ms : List Move) : List Nat :=
  (List.range ms.length).filter fun i =>
    match ms[i]? with
    | none => false
    | some m => !((ms.take i).any fun e =>
        (e.fifo && m.fifo) || (e.slice = m.slice && e.words.any fun w => m.words.any fun v => v.2 = w.2))

/-- The moves into the destination granule of one, which fail with it (R291). -/
def mates (m e : Move) : Bool :=
  e.slice = m.slice && e.targets = m.targets && !e.fifo && !m.fifo &&
    (e.words.headD (0, 0)).2 / 16 = (m.words.headD (0, 0)).2 / 16

/-- A slice's source lies in the issuer's local store. -/
def fromLocal (sl : Slice) : Bool := if sl.kind = .scale then scaleLocal sl else srcLocal sl.kind

/-- The moves that fail where one does. -/
def moveGroup (op : CopyOp) (m : Move) (sl : Slice) : List Move :=
  if sl.kind = .peerPut || sl.kind = .peerGet || sl.kind = .scale then [m] else op.moves.filter fun e => e = m || mates m e

/-- The global addresses that such moves read, and those that they write. -/
def moveSources (sl : Slice) (ms : List Move) : List Nat :=
  if fromLocal sl || sl.kind = .peerGet then [] else ms.flatMap fun e => e.words.map (·.1)

def moveDests (sl : Slice) (ms : List Move) : List Nat :=
  if sl.kind = .l2g || sl.kind = .l2gRed || sl.kind = .g2g then ms.flatMap fun e => e.words.map (·.2) else []

/-- What the translation of a move's granule comes to. -/
inductive MoveGo where
  | ok (op : CopyOp) (s : State)
  | refused (s : State)
  | wait
  deriving DecidableEq, Repr

/-- A peer copy moves no more: detail 6 (R287). -/
def portLost (op : CopyOp) : CopyOp := { op with moves := [], fault := worse op.fault 6 }

/-- A move's addresses are translated (R291); one that is refused leaves the list with its mates. A page that waits for its
shootdown holds it (R409). A peer copy goes on only while its port serves it, wherever its team has resumed (R287, R300). The
block of a `cpscale` for a harvested or fenced layer has its source translated like any other (DESIGN CHOICE, log entry
111). -/
def reachMove (s : State) (id : Nat) (op : CopyOp) (m : Move) (sl : Slice) : MoveGo :=
  let group := moveGroup op m sl
  let srcs := moveSources sl group
  let dsts := moveDests sl group
  if (sl.kind = .peerPut || sl.kind = .peerGet) && !portServes s sl op.tag then
    .refused (putCopy { s with inbound := s.inbound.filter (·.op ≠ id) } id (portLost op))
  else if (srcs ++ dsts).any fun va => shooting s op.tag.asid va then .wait
  else
    let (bad1, op1, s1) := refuseAll s op .load (moveSources sl op.moves) srcs
    let (bad2, op2, s2) := refuseAll s1 op1 (accOf sl.kind) (moveDests sl op.moves) dsts
    if bad1 || bad2 then .refused (putCopy s2 id { op2 with moves := op2.moves.filter fun e => !group.contains e })
    else .ok op2 s2

/-- The engine takes the words of a move that it lacks, of those that a test picks: from a peer by request (R287), else what
is there now; what its caches lack is asked for. -/
def takeMove (s : State) (id : Nat) (op : CopyOp) (m : Move) (sl : Slice) (p : Nat → Bool) : Move × State :=
  let idx := (List.range m.words.length).filter fun j => p j && takenAt m j = .no
  let word (j : Nat) : Nat × Nat := m.words.getD j (0, 0)
  if sl.kind = .peerGet then
    (retake m fun j => if idx.contains j then .asked else takenAt m j,
      idx.foldl (fun t j => askPeer t id (field sl.w1 0 3).toNat (word j)) s)
  else
    let q := engineAsker op .load
    let read (j : Nat) : Taken :=
      match (if fromLocal sl then localSource s op.cl (word j).1 else globalSource s q (word j).1) with
      | some x => .got x.1 x.2
      | none => .no
    let lack := if fromLocal sl then [] else idx.filter fun j => read j = .no
    (retake m fun j => if idx.contains j then read j else takenAt m j,
      if lack.isEmpty then s else askWords s op.cl op.tag (lack.map fun j => (word j).1))

/-- A push has space at its queue now, and its bank is not being copied to its spare (R217, R288). -/
def queueRoom (s : State) (op : CopyOp) (m : Move) : Bool :=
  let k := bankAt s op.cl (bankOf (m.words.headD (0, 0)).2)
  !m.fifo || (!k.copying && k.count < 2048)

/-! Granules that are written together (R288): words whose sources the same operation writes, and words that several slices
write, are chosen one by one. -/

/-- Where a word is written, in the addresses that the operation's sources have. -/
def writesSource (op : CopyOp) (m : Move) (w : Nat × Nat) : List Nat :=
  match (op.slices.getD m.slice default).kind with
  | .g2g => [w.2]
  | .l2l => (m.targets.filter fun t => t.cl = op.cl).map fun t => (t.base + w.2) % 2 ^ 64
  | _ => []

/-- A word that a move writes where its slices' words are stored at once: another slice may write it too. -/
def writesPlace (op : CopyOp) (m : Move) (w : Nat × Nat) : Option (Nat × Nat) :=
  match (op.slices.getD m.slice default).kind with
  | .l2g | .g2g | .scale => some ((m.targets.headD default).cl, w.2)
  | _ => none

/-- One of two moves reads a word that the other writes, or both write one. -/
def movesMeet (op : CopyOp) (m e : Move) : Bool :=
  let reads (a b : Move) : Bool := b.words.any fun w => (writesSource op b w).any fun x => a.words.any fun v => v.1 = x
  reads m e || reads e m ||
    m.words.any fun w => (writesPlace op m w).isSome && e.words.any fun v => writesPlace op e v = writesPlace op m w

/-- The moves that go with one: any of those that may be written now, where one of them meets it. -/
def partners (s : State) (op : CopyOp) (i : Nat) : List Nat × State :=
  let m := op.moves.getD i default
  let l := (readyMoves op.moves).filter fun j => j ≠ i && !(op.moves.getD j default).fifo
  if !m.fifo && l.any fun j => movesMeet op m (op.moves.getD j default) then
    let (n, s) := pickNat s (2 ^ l.length)
    (((List.range l.length).filter fun k => n.testBit k).map fun k => l.getD k 0, s)
  else ([], s)

/-- A partner joins where its addresses translate and its words are there. -/
def withPartner (id : Nat) (op : CopyOp) (acc : List (Nat × Move) × State) (j : Nat) : List (Nat × Move) × State :=
  let m := op.moves.getD j default
  let sl := op.slices.getD m.slice default
  match reachMove acc.2 id op m sl with
  | .ok _ s =>
    let (m', s) := takeMove s id op m sl fun _ => true
    if (takenAll m').isSome then (acc.1 ++ [(j, m')], s) else acc
  | _ => acc

/-- A list in an order of free choice. -/
def anyOrder {α : Type} : List α → State → List α × State
  | [], s => ([], s)
  | x :: l, s =>
    let (r, s) := anyOrder l s
    let (p, s) := pickNat s (r.length + 1)
    (r.take p ++ x :: r.drop p, s)

/-- Where the words of some moves are being written one by one: what has been written, by the address that a source would
have, and what each word takes, by its move and place. -/
structure Weave where
  mem : Kv Nat (Word × Bool)
  vals : Kv (Nat × Nat) (Word × Bool)
  deriving DecidableEq, Repr

/-- A word takes what its source held, or what the operation has written there (R288). -/
def weaveWord (op : CopyOp) (batch : List (Nat × Move)) (acc : Weave × State) (k : Nat × Nat) : Weave × State :=
  let m := (batch.getD k.1 default).2
  let w := m.words.getD k.2 (0, 0)
  let old := ((takenAll m).getD []).getD k.2 (0, false)
  let (v, s) := match kvFind acc.1.mem w.1 with
    | none => (old, acc.2)
    | some new =>
      let (b, s) := pickNat acc.2 2
      (if b = 0 then old else new, s)
  (⟨(writesSource op m w).foldl (fun l a => kvPut l a v) acc.1.mem, kvPut acc.1.vals k v⟩, s)

/-- Every word of some moves, by its move and place. -/
def batchWords (batch : List (Nat × Move)) : List (Nat × Nat) :=
  (List.range batch.length).flatMap fun k => (List.range (batch.getD k default).2.words.length).map fun j => (k, j)

/-- A word is overwritten by one that comes after it in the order (R288). -/
def overwritten (op : CopyOp) (batch : List (Nat × Move)) (order : List (Nat × Nat)) (k : Nat × Nat) : Bool :=
  let at' (k : Nat × Nat) : Option (Nat × Nat) :=
    let m := (batch.getD k.1 default).2
    writesPlace op m (m.words.getD k.2 (0, 0))
  (at' k).isSome && (order.dropWhile (· ≠ k)).any fun e => e ≠ k && at' e = at' k

/-- The moves of a batch are written or sent on, and leave the list. -/
def sendMoves (s : State) (id : Nat) (op : CopyOp) (batch : List (Nat × Move)) : State :=
  let meet := batch.any fun e => batch.any fun d => movesMeet op e.2 d.2
  let (order, s) := if meet then anyOrder (batchWords batch) s else (batchWords batch, s)
  let (w, s) := order.foldl (weaveWord op batch) (⟨[], []⟩, s)
  let send (acc : CopyOp × State) (k : Nat) : CopyOp × State :=
    let m := (batch.getD k default).2
    let js := (List.range m.words.length).filter fun j => !overwritten op batch order (k, j)
    moveOut acc.2 id acc.1 { m with words := js.map fun j => m.words.getD j (0, 0) } (op.slices.getD m.slice default)
      (js.map fun j => kvGet w.vals (k, j) (0, false))
  let (op, s) := (List.range batch.length).foldl send (op, s)
  let s := batch.foldl (fun t e =>
    releaseLines t (engineAsker op .load) (moveSources (op.slices.getD e.2.slice default) [e.2])) s
  let gone := batch.map (·.1)
  putCopy s id { op with moves :=
    ((List.range op.moves.length).filter fun i => !gone.contains i).map fun i => op.moves.getD i default }

/-- A granule of an operation: translated, read, and, once it is whole, written or sent on, by itself or among others. -/
def performMove (s : State) (id : Nat) (op : CopyOp) (i : Nat) : State :=
  match op.moves[i]? with
  | none => s
  | some m =>
    let sl := op.slices.getD m.slice default
    match reachMove s id op m sl with
    | .wait => s
    | .refused t => t
    | .ok op s =>
      let (m', s) := takeMove s id op m sl fun _ => true
      if (takenAll m').isNone || !queueRoom s op m then putCopy s id { op with moves := op.moves.set i m' }
      else
        let (js, s) := partners s op i
        let (batch, s) := js.foldl (withPartner id op) ([(i, m')], s)
        sendMoves s id op batch

/-- The engine reads a word ahead of its granule's turn: slices and rows overlap in any order, word by word (R288). -/
def readAhead (s : State) (id : Nat) (op : CopyOp) (i j : Nat) : State :=
  match op.moves[i]? with
  | none => s
  | some m =>
    let sl := op.slices.getD m.slice default
    match reachMove s id op m sl with
    | .wait => s
    | .refused t => t
    | .ok op s =>
      let (m', s) := takeMove s id op m sl fun k => k = j
      putCopy s id { op with moves := op.moves.set i m' }

/-! Completion. -/

/-- The status an operation completes with (R290). -/
def copyStatus (op : CopyOp) : Word :=
  match op.fault with
  | some d => faultStatus false d op.marks.length
  | none => statusWord (if op.gone then 1 else if op.pois then 2 else 0) false 0 op.marks.length

/-- Something of an operation is still on its way: a write to a local store, a word at a peer, an element at a home. -/
def copyOutstanding (s : State) (id : Nat) : Bool :=
  s.inbound.any (fun i => i.op = id) ||
  s.ports.any (fun p => p.2.puts.any (fun w => w.1 = id) || p.2.gets.any fun w => w.1 = id) ||
  (s.net ++ s.nacked ++ s.txns.map (·.msg)).any fun m => match m.atom with
    | some a => a.wave = engineMark id
    | none => false

/-- An earlier `cpscale` of the team has not completed (R295). -/
def earlierScale (s : State) (tid k : Nat) : Bool :=
  s.copies.any fun e => e.2.team = tid && e.2.k < k && e.2.slices.any fun sl => sl.kind = .scale

/-- A matrix operation is attached to copy `k` of a team. -/
def attachedTo (s : State) (tid k : Nat) : Bool := s.mats.any fun m => m.2.team = tid && m.2.attached = some k

/-- The tokens that an operation's instructions name. -/
def copyTokens (op : CopyOp) : List Nat := (op.slices.map (·.tok)).eraseDups

/-- Path M reads what copy `k` of a team wrote, without an `xfence` (R258, R295). -/
def seeCopy (s : State) (tid k : Nat) : State := freshen s 4 fun e => e.team = tid && e.op = some k

/-- Completion (R288, R290, R294, R296): status and tokens at once, and what becomes of an attached matrix operation. -/
def completeCopy (s : State) (id : Nat) (op : CopyOp) : State :=
  let status := copyStatus op
  let addressed := op.fault = some 1 || op.fault = some 7
  let (i, s) := pickNat s op.faulting.length
  let s := (copyTokens op).foldl (fun t n => setToken t op.team n fun x =>
    { x with op := if x.op = some id then none else x.op, status,
             addr := if addressed then BitVec.ofNat 64 (op.faulting.getD i 0) else x.addr }) s
  let cancel := op.fault.isSome || op.gone
  let follow (m : Nat × MatOp) : Nat × MatOp :=
    if m.2.team = op.team && m.2.attached = some op.k && cancel then (m.1, { m.2 with fault := some 8 }) else m
  let s := { s with copies := kvErase s.copies id, mats := s.mats.map follow }
  let stat := if op.fault.isSome then 3 else if op.gone then 1 else if op.pois then 2 else 0
  let s := if attachedTo s op.team op.k then seeCopy s op.team op.k else s
  let kept (t : Team) : Kv Nat Nat := t.copyDone.filter fun e => attachedTo s op.team e.1 || t.copies.any fun w => w.2 ≤ e.1
  onTeam s op.team fun t => { t with copyDone := kvPut (kept t) op.k stat }

/-- An operation that has had its turn goes behind the others (R280). -/
def endTurn (s t : State) (id : Nat) : State :=
  match kvFind t.copies id with
  | none => t
  | some op => if kvFind s.copies id = some op then t
    else { t with copies := kvErase t.copies id ++ [(id, op)], freeCtr := t.freeCtr + 1 }

/-- The engine goes on with an operation (R288): the `pick`-th move that may be written now, or a word read ahead; or, with
none left and nothing on its way, completion. -/
def engineStep (s : State) (id pick : Nat) : State :=
  match kvFind s.copies id with
  | none => s
  | some op =>
    if !op.gathered then s
    else if op.moves ≠ [] then
      match (readyMoves op.moves)[pick]? with
      | some i => endTurn s (performMove s id op i) id
      | none =>
        let k := pick - (readyMoves op.moves).length
        endTurn s (readAhead s id op (k / 8) (k % 8)) id
    else if copyOutstanding s id || (attachedTo s op.team op.k && earlierScale s op.team op.k) then s
    else completeCopy s id op

/-- R288. -/
def execCopyCompletion (op pick : Nat) (s : State) : Host.Outcome State Fault Refusal := .next (engineStep s op pick)

/-! Writes that arrive at a local store (R216, R218, R285, R288). -/

/-- The allocation tag of a bank's owner. -/
def bankTag (s : State) (cl b : Nat) : Option (BitVec 12) :=
  (bankAt s cl b).owner.bind fun t => (findTeam s t).map (·.allocTag)

/-- The bytes of a granule that words cover, and bit 16 where one is poisoned. -/
def coverOf (ws : List (Nat × Word × Bool)) (g : Nat) : Nat :=
  (ws.filter fun w => w.1 / 16 * 16 = g).foldl (fun n w =>
    n ||| (0xF <<< (w.1 % 16 / 4 * 4)) ||| (if w.2.2 then 65536 else 0)) 0

/-- The poison bit of a granule after a write, from what the operation has written there so far and the bit before: data
that fills the granule decides it; part of a granule sets it where it is poisoned, and leaves the rest of the granule as
poisoned as it was (R218, R422; DESIGN CHOICE, log entry 112). -/
def granulePoison (cover : Nat) (was : Bool) : Bool := if cover % 65536 = 65535 then 65536 ≤ cover else 65536 ≤ cover || was

/-- An engine's words written into a local store (R218, R293): F set, where `full`, and P as carried in each granule of SCR or
FIFO, `cover` being what the operation has written there before; the marks of register words in REG. The writer's path, team
and copy operation stand with the values before (R257). -/
def engineWrite (s : State) (cl : Nat) (ws : List (Nat × Word × Bool)) (full : Bool) (cover : Nat → Nat) (path team : Nat)
    (op : Option Nat) : State :=
  let s := ws.foldl (fun t w => noteOlder t cl w.1 4 path team op fun v => localPoison s cl v 4) s
  let s := ws.foldl (fun t w => putLocalWord t cl w.1 w.2.1) s
  let reg (a : Nat) : Bool := (bankAt s cl (bankOf a)).mode = .reg
  let s := { s with regPoison := s.regPoison ++
    (ws.filter fun w => w.2.2 && reg w.1).map fun w => lsKey cl (w.1 / 4 * 4) }
  (((ws.filter fun w => !reg w.1).map fun w => w.1 / 16 * 16).eraseDups).foldl (fun t g =>
    setPoison (if full then setFull t cl g true else t) cl g (granulePoison (cover g ||| coverOf ws g) (granPoison t cl g))) s

/-- An earlier write of the same slice goes first to the same words; those of other slices land in any order (R288). -/
def inboundBlocked (before : List Inbound) (i : Inbound) : Bool :=
  before.any fun e => e.op = i.op && e.slice = i.slice && e.target.cl = i.target.cl &&
    e.words.any fun w => i.words.any fun v => v.1 = w.1

/-- What an arriving write meets: held by a bank being copied; dropped as stale, `astray` where its target team stands
elsewhere in the cluster; outside the banks that may take it; or written. -/
inductive Arriving where
  | held
  | stale (astray : Bool)
  | misplaced
  | written
  deriving DecidableEq, Repr

/-- The allocation that a write names is still that of a team of the cluster. -/
def allocStands (s : State) (t : Target) : Bool := match t.tag with
  | none => true
  | some g => s.teams.any fun e => e.2.cl = t.cl && !e.2.task && e.2.allocTag = g

/-- The bank that a write reaches carries another allocation's tag (R216). -/
def tagDiffers (s : State) (t : Target) (a : Nat) : Bool := match t.tag, bankTag s t.cl (bankOf a) with
  | some g, some h => g ≠ h
  | _, _ => false

/-- A write whose allocation has gone, or whose bank carries another tag, is stale (R216, R292); a byte for a target team
that stands must besides fall in a bank of its own, of a multicast in SCR mode (R285). Where a write meets both, R290 says
which shows (DEDUCED, log entry 37). -/
def arriving (s : State) (i : Inbound) : Arriving :=
  let a := (i.words.headD (0, 0, false)).1
  let k := bankAt s i.target.cl (bankOf a)
  if !allocStands s i.target then .stale false
  else if 0x180000 ≤ a then .misplaced
  else if k.copying then .held
  else if tagDiffers s i.target a then .stale true
  else if i.target.tag.isSome && bankTag s i.target.cl (bankOf a) = none then .misplaced
  else if i.multi && k.mode ≠ .scr then .misplaced
  else .written

/-- The words of a write that land first, by the bits of a number, all for 0: a granule's words are whole one by one, and may
be seen one by one (R288, R479). -/
def landFirst (ws : List (Nat × Word × Bool)) (d : Nat) : List (Nat × Word × Bool) × List (Nat × Word × Bool) :=
  if d = 0 then (ws, [])
  else
    let hit (j : Nat) : Bool := d.testBit j
    let some' (p : Nat → Bool) := (List.range ws.length).filterMap fun j => if p j then ws[j]? else none
    (some' hit, some' fun j => !hit j)

/-- The write at place `n` on its way lands with the words of a choice; F is set with the last of them (R258). -/
def landWrite (s : State) (n : Nat) (i : Inbound) (op : CopyOp) (d : Nat) : State :=
  let cl := i.target.cl
  let (now, later) := landFirst i.words d
  let before (g : Nat) : Nat := kvGet op.cover (cl, g) 0
  let s := engineWrite s cl now later.isEmpty before 1 op.team (some op.k)
  let cover := ((now.map fun w => w.1 / 16 * 16).eraseDups).foldl (fun k g =>
    let c := before g ||| coverOf now g
    if c % 65536 = 65535 then kvErase k (cl, g) else kvPut k (cl, g) c) op.cover
  let op := { (if now.any (·.2.2) then notePoison op (cl, i.key) else op) with cover }
  let g := (i.words.headD (0, 0, false)).1 / 16 * 16
  let inbound := if later.isEmpty then s.inbound.eraseIdx n
    else s.inbound.set n { i with words := later, begun := some (kvGet cover (cl, g) 0) }
  putCopy { s with inbound } i.op op

/-- A write that a killed team's engine leaves at a granule boundary lands its last words (R300). -/
def landRest (s : State) (n : Nat) (i : Inbound) : State :=
  let cl := i.target.cl
  let owner := (bankAt s cl (bankOf (i.words.headD (0, 0, false)).1)).owner.getD 0
  { engineWrite s cl i.words true (fun _ => i.begun.getD 0) 1 owner none with inbound := s.inbound.eraseIdx n }

/-- A dropped write is counted at its cluster (R216). -/
def countDrop (s : State) (cl : Nat) : State := { s with lsdrop := kvPut s.lsdrop cl (satAdd (kvGet s.lsdrop cl 0) 1) }

/-- The n-th write on its way arrives (R216). -/
def arriveWrite (s : State) (n : Nat) : State :=
  match s.inbound[n]? with
  | none => s
  | some i =>
    let t := { s with inbound := s.inbound.eraseIdx n }
    let cl := i.target.cl
    match kvFind s.copies i.op with
    | none =>
      if i.begun.isNone then t
      else match arriving s i with
        | .held => s
        | .stale _ => countDrop t cl
        | .misplaced => t
        | .written => landRest s n i
    | some op =>
      if inboundBlocked (s.inbound.take n) i then s
      else
        match arriving s i with
        | .held => s
        | .stale astray =>
          let op := noteGone op (cl, i.key)
          putCopy (countDrop t cl) i.op (if astray then { op with fault := worse op.fault 3 } else op)
        | .misplaced => putCopy t i.op { op with fault := worse op.fault 3 }
        | .written =>
          let (d, s) := pickNat s (if i.words.length < 2 then 1 else 2 ^ i.words.length)
          landWrite s n i op d

/-- R216. -/
def execInboundWrite (n : Nat) (s : State) : Host.Outcome State Fault Refusal := .next (arriveWrite s n)

/-! Peers' answers (R287, R450). -/

/-- The peer acknowledges the n-th write of a port, or refuses its translation. -/
def peerAcked (s : State) (p n : Nat) (refused : Bool) : State :=
  let port := portAt s p
  match port.puts[n]? with
  | none => s
  | some w =>
    let s := putPort s p { port with puts := port.puts.eraseIdx n }
    match kvFind s.copies w.1 with
    | none => s
    | some op => if refused then putCopy s w.1 (noteFault op 7 w.2) else s

/-- R287. -/
def execPeerAck (p n : Nat) (refused : Bool) (s : State) : Host.Outcome State Fault Refusal :=
  .next (peerAcked s p n refused)

/-- Where an operation awaits a peer's word: the place of the move, and of the word in it. -/
def awaitedWord (op : CopyOp) (w : Nat × Nat) : Option (Nat × Nat) :=
  (List.range op.moves.length).findSome? fun i =>
    (op.moves[i]?).bind fun m =>
      ((List.range m.words.length).find? fun j => m.words[j]? = some w && takenAt m j = .asked).map fun j => (i, j)

/-- The peer answers the n-th read of a port with a word, or refuses its translation: then the granule is not moved. -/
def peerAnswered (s : State) (p n : Nat) (data : Option Word) (poison : Bool) : State :=
  let port := portAt s p
  match port.gets[n]? with
  | none => s
  | some (id, va, a) =>
    let s := putPort s p { port with gets := port.gets.eraseIdx n }
    match kvFind s.copies id with
    | none => s
    | some op =>
      match data, awaitedWord op (va, a) with
      | none, none => putCopy s id (noteFault op 7 va)
      | none, some (i, _) => putCopy s id { noteFault op 7 va with moves := op.moves.eraseIdx i }
      | some _, none => s
      | some v, some (i, j) =>
        let m := op.moves.getD i default
        putCopy s id { op with moves := op.moves.set i (retake m fun k => if k = j then .got v poison else takenAt m k) }

/-- R287. -/
def execPeerReadData (p n : Nat) (data : Option Word) (poison : Bool) (s : State) : Host.Outcome State Fault Refusal :=
  .next (peerAnswered s p n data poison)

end Sys2Proof.Machine
end

