-- ==== Sys2Proof/Machine/Matrix.lean ====
section
/-! DEFINITION. Matrix instructions and the folded engine (R302 to R337), with the arithmetic of R108 to R118. -/

namespace Sys2Proof.Machine

/-! The format word (R312, R313). -/

def fmtA (w : Word) : Nat := (field w 0 4).toNat
def fmtB (w : Word) : Nat := (field w 4 4).toNat
def planesA (w : Word) : Nat := (field w 8 4).toNat
def planesB (w : Word) : Nat := (field w 12 4).toNat
def scaleMode (w : Word) : Nat := (field w 16 2).toNat
/-- Kq = K / 4 (R116). -/
def quarterLen (w : Word) : Nat := 32 * 2 ^ (field w 18 2).toNat

/-- The word is one that R313 lets pass. -/
def fmtValid (w : Word) : Bool :=
  let np := fmtA w = 0 && fmtB w = 0 && 2 ≤ planesA w && planesA w ≤ 8 && 2 ≤ planesB w && planesB w ≤ 8 &&
    (scaleMode w = 0 || quarterLen w ≤ 64)
  let fl := 1 ≤ fmtA w && fmtA w ≤ 3 && 1 ≤ fmtB w && fmtB w ≤ 3 && planesA w = 0 && planesB w = 0 && scaleMode w = 0
  field w 22 10 = 0 && (np || fl)

/-- Bytes of an element of a float format. -/
def elemBytes (f : Nat) : Nat := if f = 3 then 4 else 2

/-- Bytes of a row, of one plane for np, that supplies `kx` elements (R309). -/
def rowLen (f kx : Nat) : Nat := if f = 0 then kx / 8 else kx * elemBytes f

/-- Bytes of an operand's image (R311). -/
def imageBytes (f planes kx : Nat) : Nat := 32 * rowLen f kx * (if f = 0 then planes else 1)

/-- The elements of the reduction that an operand supplies. -/
def suppliedLen (joint : Bool) (w : Word) : Nat := if joint then quarterLen w else 4 * quarterLen w

/-! Descriptors (R310). -/

/-- The address of byte `o` of plane `p` of row `i`, before rotation, as the descriptor forms it. -/
def descRaw (lo hi : Word) (p i o : Nat) : Nat :=
  (field lo 0 21).toNat + p * (field lo 21 11).toNat * 16 + i * (field hi 0 16).toNat + o

/-- Its bank lies in the team's scratch. -/
def descInside (f nscr : Nat) (lo hi : Word) (p i o : Nat) : Bool :=
  let b := descRaw lo hi p i o / 2 ^ 15 % 64
  f ≤ b && b - f < nscr

/-- The local address. -/
def descAddr (f nscr : Nat) (lo hi : Word) (p i o : Nat) : Nat :=
  let a := descRaw lo hi p i o
  (f + (a / 2 ^ 15 % 64 - f + i * (field hi 16 4).toNat) % nscr) * 2 ^ 15 + a % 2 ^ 15

/-- The descriptor fails a check for rows of `len` bytes in each of `planes` planes: 6 local fault, 7 misaligned. -/
def descLocalBad (f nscr : Nat) (lo hi : Word) (planes len : Nat) : Bool :=
  field hi 20 12 ≠ 0 || (List.range planes).any fun p => (List.range 32).any fun i =>
    !descInside f nscr lo hi p i 0 || !descInside f nscr lo hi p i (len - 1)

def descMisaligned (lo hi : Word) : Bool := (field lo 0 21).toNat % 16 ≠ 0 || (field hi 0 16).toNat % 4 ≠ 0

/-- A trap at a descriptor, every lane of `act` with its BASE. -/
def descFail (c : Ctx) (cause : Nat) (lo : Word) : Fail :=
  ⟨cause, c.act, 0, false, if cause = 6 then 6 else 0, c.lanes.map fun l => (l, (field lo 0 21).toNat, 0)⟩

/-- The first scratch data bank of a team. -/
def scratchBase (t : Team) : Nat := lsBase t / 2 ^ 15

/-! Operands. -/

/-- Results of the wave that have not landed in a register (R71, R315). -/
def unlanded (x : Wave) (group : Bool) (n cnt : Nat) : Bool :=
  (x.landings.any fun e => e.writes.any fun r => r.target.1 = group && n ≤ r.target.2.1 && r.target.2.1 < n + cnt) ||
  x.locals.any fun a => (a.kind = .load || a.kind = .atomic) && a.group = group &&
    a.d < n + cnt && n < a.d + max (loadRegs (BitVec.ofNat 4 a.sub)) (atomRegs (BitVec.ofNat 4 a.sub))

/-- An operand field: a register block of `cnt` registers, or a descriptor. -/
def operandLate (x : Wave) (src : BitVec 2) (n : BitVec 6) (cnt : Nat) : Bool :=
  if src = 0 then unlanded x false n.toNat cnt else unlanded x true n.toNat 2

/-- Reading an operand at issue (R308, R310, R311). -/
def takeOperand (s : State) (c : Ctx) (src : BitVec 2) (n : BitVec 6) (cnt : Nat) : MatOperand :=
  if src = 0 then .bytes ((List.range cnt).flatMap fun r => (List.range c.x.width).flatMap fun l =>
    bytesLe 4 (readLane s c.w c.x (n.toNat + r) l).toNat)
  else .scratch (readGroup s c.x n.toNat) (readGroup s c.x (n.toNat + 1))

/-- The lanes of `act` with a poisoned word in a block that they read (R425). -/
def blockPoison (s : State) (c : Ctx) (src : BitVec 2) (n : BitVec 6) (cnt : Nat) : LaneMask :=
  if src ≠ 0 || s.regPoison.isEmpty then 0
  else maskOf (c.lanes.filter fun l => (List.range cnt).any fun r => laneMarked s c.w c.x (n.toNat + r) l)

/-- One byte of an operand with its poison (R309 to R311), as path M sees it (R327): `p` plane, `i` row, `o` byte of the row
of length `len`. -/
def operandByte (s : State) (cl f nscr : Nat) (len : Nat) (m : MatOperand) (p i o : Nat) : Byte × Bool :=
  match m with
  | .bytes bs => (bs.getD ((p * 32 + i) * len + o) 0, false)
  | .scratch lo hi =>
    let a := descAddr f nscr lo hi p i o
    if s.older.isEmpty then (localByte s cl a, granPoison s cl a)
    else
      let w := seenWord s cl a 2 s.freeCtr (granPoison s cl)
      (field w.1 (8 * (a % 4)) 8, w.2)

/-- A row of an operand as `len` bytes. -/
def operandRow (s : State) (cl f nscr len : Nat) (m : MatOperand) (p i : Nat) : List (Byte × Bool) :=
  (List.range len).map fun o => operandByte s cl f nscr len m p i o

/-- Element `k` of a nested-plane row from its planes, high bit first (R108 to R110). -/
def npElement (rows : List (List Byte)) (k : Nat) : Int :=
  let bit (p : Nat) : Int := if ((rows.getD p []).getD (k / 8) 0).getLsbD (k % 8) then 1 else 0
  (List.range rows.length).foldl (fun v p => v + (if p = 0 then -128 else 2 ^ (7 - p)) * bit p) 0

/-- Element `k` of a float row. -/
def floatElement (f : Nat) (row : List Byte) (k : Nat) : FVal :=
  let byte (j : Nat) : Nat := (row.getD (elemBytes f * k + j) 0).toNat
  let v := (List.range (elemBytes f)).foldl (fun n j => n + byte j * 2 ^ (8 * j)) 0
  decodeF (if f = 1 then fmtF16 else if f = 2 then fmtBf16 else fmtF32) v

/-- An image read: for each of 32 rows its elements as integers and as values (one of the two is empty), and poison. -/
structure MatImage where
  ints : List (List Int)
  vals : List (List FVal)
  pois : Bool
  deriving DecidableEq, Repr

def readImage (s : State) (cl f nscr fm planes kx : Nat) (m : MatOperand) : MatImage :=
  let len := rowLen fm kx
  let np := if fm = 0 then planes else 1
  let rows := (List.range 32).map fun i => (List.range np).map fun p => operandRow s cl f nscr len m p i
  let pois := rows.any fun r => r.any fun q => q.any (·.2)
  let plain := rows.map fun r => r.map fun q => q.map (·.1)
  if fm = 0 then ⟨plain.map fun r => (List.range kx).map (npElement r), [], pois⟩
  else ⟨[], plain.map fun r => (List.range kx).map (floatElement fm (r.headD [])), pois⟩

/-! Arithmetic (R113 to R117). -/

/-- One scale: its value, or none where its sign bit is set or it is infinite or a NaN (R113). -/
def scaleValue (bits : Nat) : Option FVal :=
  if bits / 2 ^ 15 % 2 = 1 || bits / 2 ^ 7 % 256 = 255 then none else some (decodeF fmtBf16 bits)

/-- The product of a block's integer dot product with its two scales (R113, R116). A scale that is infinite or a NaN, or has
its sign bit set, makes it a NaN, also where the other scale is zero: of a zero scale beside a +infinite one the rule's two
bullets say different things (DESIGN CHOICE, log entry 115). -/
def scaledBlock (d : Int) (sa sb : Nat) : FVal :=
  match scaleValue sa, scaleValue sb with
  | some x, some y =>
    match mulF x y with
    | .fin false 0 _ => .fin false 0 0
    | z => roundE (if d = 0 then .fin false 0 0 else mulF (.fin (d < 0) d.natAbs 0) z)
  | _, _ => .nan

def dot (xs ys : List Int) : Int := (List.zipWith (· * ·) xs ys).foldl (· + ·) 0

/-- Adjacent pairs summed with one rounding each (R116). -/
def pairSums : List FVal → List FVal
  | a :: b :: rest => roundE (addF .rne a b) :: pairSums rest
  | l => l

/-- The balanced tree of `n` levels. -/
def treeSum : Nat → List FVal → FVal
  | 0, l => l.headD (.fin false 0 0)
  | n + 1, l => treeSum n (pairSums l)

/-- A quarter's partial for one entry (R116), from the rows of A and B over the quarter and their blocks' scales; the scale
1 where the mode leaves one out (R114). -/
def partialNp (w : Word) (xs ys : List Int) (sa sb : List Nat) : FVal :=
  let nb := quarterLen w / 32
  let block (l : List Int) (b : Nat) : List Int := (l.drop (32 * b)).take 32
  if scaleMode w = 0 then roundE (let d := dot xs ys; .fin (d < 0) d.natAbs 0)
  else
    let t (b : Nat) : FVal := scaledBlock (dot (block xs b) (block ys b)) (sa.getD b 0x3F80) (sb.getD b 0x3F80)
    if nb = 2 then roundE (addF .rne (t 0) (t 1)) else t 0

def partialFloat (w : Word) (xs ys : List FVal) : FVal :=
  treeSum (Nat.log2 (quarterLen w)) (List.zipWith mulF xs ys)

/-- The sign change of a partial (R116). -/
def negateIf (w : Word) (v : FVal) : FVal := if w.getLsbD 20 then negF v else v

/-- Layers and their quarters in chain order (R117): `pend` are skipped quarters not yet given. -/
def assignQuarters (home : Nat) (skip : Nat → Bool) : List Nat → List Nat → List (Nat × List Nat) → List (Nat × List Nat)
  | [], _, acc => acc
  | d :: rest, pend, acc =>
    if d = home && skip home then
      match acc.reverse with
      | [] => acc
      | last :: before => before.reverse ++ [(last.1, last.2 ++ pend)]
    else if skip d then assignQuarters home skip rest (pend ++ [d]) acc
    else assignQuarters home skip rest []
      (acc ++ [(d, (if acc.isEmpty && skip home then [home] else []) ++ pend ++ [d])])

def chainOf (home : Nat) : List Nat := [(home + 1) % 4, (home + 2) % 4, (home + 3) % 4, home]

/-- The chain sum of an entry from its partials (R117). -/
def chainSum (lists : List (Nat × List Nat)) (p : Nat → FVal) : FVal :=
  let layer (l : List Nat) : FVal := match l with
    | [] => .fin false 0 0
    | q :: rest => rest.foldl (fun u r => roundE (addF .rne u (p r))) (p q)
  match lists with
  | [] => .fin false 0 0
  | a :: rest => rest.foldl (fun v l => roundE (addF .rne v (layer l.2))) (layer a.2)

/-! Layers and bonds (R321, R322). -/

/-- A layer has no working route to the rest of its column. -/
def layerCut (s : State) (col d : Nat) : Bool :=
  let retired (lower : Nat) : Bool := bondAt s col lower = .retired
  (d = 0 || retired (d - 1)) && (d = 3 || retired d) && s.baseCut.contains (columnCluster col d)

/-- The lowest cause code that a layer meets (R321); a harvested layer is that whatever befalls its die (R28; DEDUCED, log
entry 121). -/
def layerCause (s : State) (col d : Nat) : Option Nat :=
  let cl := columnCluster col d
  if !s.clen.getLsbD cl then some 2
  else if (powerAt s (dieOf cl)).shed then some 0
  else if s.fencedLayers.contains cl || dieFenced s (dieOf cl) then some 1
  else if layerCut s col d then some 3 else none

/-- The skip set of an operation: the home layer only for throttle, and not when every layer would be skipped. -/
def skipSet (s : State) (col home d : Nat) : Bool :=
  let one (e : Nat) : Bool := if e = home then layerCause s col e = some 0 else (layerCause s col e).isSome
  one d && !(d = home && (List.range 4).all one)

/-- A layer that an operation skips for vertical path (R321): that is its cause, and it is not the home, which is skipped
only for throttle. -/
def cutOff (s : State) (col home d : Nat) : Bool := d ≠ home && layerCause s col d = some 3

/-- A scaled operation cannot have every layer's scales: a layer is harvested or fenced, or skipped for vertical path
(R314). -/
def scalesLost (s : State) (col home : Nat) : Bool :=
  (List.range 4).any fun d =>
    let cl := columnCluster col d
    s.fencedLayers.contains cl || dieFenced s (dieOf cl) || !s.clen.getLsbD cl || cutOff s col home d

/-- The way between two dies of a column uses the base die's route. -/
def viaBase (s : State) (col a b : Nat) : Bool :=
  (List.range (max a b - min a b)).any fun i => bondAt s col (min a b + i) = .retired

/-- The report word (R323). -/
def reportWord (s : State) (col home : Nat) (supplier : Nat → Nat) (lists : List (Nat × List Nat)) (pois : Bool)
    (elapsed : Nat) : Word :=
  let ids := lists.map (·.1)
  let depth := ids.length
  let order := (List.range 4).foldl (fun n i => n + (ids.getD i home) * 4 ^ i) 0
  let passes := lists.foldl (fun m l => max m l.2.length) 0
  let skipped := (chainOf home).filter fun d => !ids.contains d
  let mask := skipped.foldl (fun n d => n + 2 ^ d) 0
  let cause := match skipped with
    | [] => 0
    | d :: _ => (layerCause s col d).getD 0
  let steps := (List.range (depth - 1)).any fun i => viaBase s col (ids.getD i home) (ids.getD (i + 1) home)
  let data := lists.any fun l => l.2.any fun q => viaBase s col (supplier q) l.1
  BitVec.ofNat 32 (depth + 8 * boolNat (!skipped.isEmpty) + 16 * order + 2 ^ 12 * passes + 2 ^ 16 * mask +
    2 ^ 20 * cause + 2 ^ 22 * boolNat (steps || data) + 2 ^ 23 * boolNat pois + 2 ^ 24 * elapsed)

/-! Tiles. -/

/-- Entry `e` = 32 × row + column of a physical tile (R103). -/
def tileEntry (s : State) (cl phys e : Nat) : Nat := kvGet s.tiles (cl, phys, e) 0

def putTileEntry (s : State) (cl phys e v : Nat) : State :=
  if v = 0 then { s with tiles := kvErase s.tiles (cl, phys, e) } else { s with tiles := kvPut s.tiles (cl, phys, e) v }

def physTile (t : Team) (n : Nat) : Nat := t.tiles.getD n 0

def entryPoison (e : Nat) : Bool := e / 2 ^ 35 % 2 = 1

/-- An entry with its P bit. -/
def withPoison (v : Nat) (p : Bool) : Nat := v % 2 ^ 35 + 2 ^ 35 * boolNat p

/-! Operations of a team. -/

def putMat (s : State) (id : Nat) (op : MatOp) : State := { s with mats := kvPut s.mats id op }

/-- The mark of an operation whose member comparison failed and that no longer exists (R318). -/
def divergedMark : Nat := 100

/-- Formed and not complete operations of a cluster (R316). -/
def matLoad (s : State) (cl : Nat) : Nat := (s.mats.filter fun m => m.2.cl = cl && m.2.formed).length

/-- Launch, cohort and member of a joint operation. -/
def memberOf (s : State) (op : MatOp) : Option (Nat × Nat × Nat) :=
  match findTeam s op.team with
  | none => none
  | some t => t.cohort.map fun c => (t.launch, c.1, c.2)

/-- A member of the operation's cohort has been killed (R319). -/
def cohortBroken (s : State) (op : MatOp) : Bool :=
  match memberOf s op with
  | none => false
  | some (l, c, _) => match findLaunch s l with
    | some la => la.killed.any fun k => k.1 = c
    | none => false

/-- The operation writes its tile: not a joint operation of a member that is not its home (R317). -/
def writesTile (s : State) (op : MatOp) : Bool :=
  op.kind ≠ .joint || match memberOf s op with
    | some (_, _, j) => j = op.num % 4
    | none => false

/-- A formed operation on a tile of a team stands before another in the order of R325; `seq` none: at all. -/
def tileBusy (s : State) (tid tile : Nat) (seq : Option Nat) : Bool :=
  s.mats.any fun m => m.2.team = tid && m.2.formed && m.2.tile = tile && writesTile s m.2 &&
    match seq with
    | none => true
    | some n => m.2.seq < n

/-- An operation takes its place: order, token, number; a joint operation of a broken cohort will complete with detail 9. -/
def formMat (s : State) (id : Nat) (op : MatOp) : State :=
  let (n, s) := fresh s
  let joint := op.kind = .joint
  let num := match findTeam s op.team with
    | some t => t.joints
    | none => 0
  let op := { op with formed := true, seq := n, num := if joint then num else 0 }
  let op := if joint && cohortBroken s op then { op with fault := some 9 } else op
  let s := setToken (putMat s id op) op.team op.tok fun x => { x with op := some id }
  if joint then onTeam s op.team fun t => { t with joints := num + 1 } else s

/-- Every wave has issued its attached `mma`, or counts as having done so (R307). -/
def suppliesFull (s : State) (op : MatOp) : Bool :=
  match findTeam s op.team with
  | none => false
  | some t => t.waves.all fun w => match findWave s w with
    | none => true
    | some x => x.alive = 0 || op.supplies.any fun p => p.wave = x.num

/-- The supply that is used: the lowest-numbered wave's that is not empty, else the lowest-numbered wave's. -/
def supplierOf (op : MatOp) : Option MatSupply :=
  let order := (List.range 16).flatMap fun w => op.supplies.filter fun p => p.wave = w
  match order.find? fun p => !p.empty with
  | some p => some p
  | none => order.head?

/-- A team's operation on a token can be formed: the token is free, and fewer than 16 operations are formed (R316). -/
def formable (s : State) (op : MatOp) (tok : Nat) : Bool :=
  matLoad s op.cl < 16 && match findTeam s op.team with
    | some t => !tokenBusy t tok none
    | none => false

/-- An attached operation is formed once it can be (R307, R316); one whose waves have all ended before they issued it is
empty. -/
def formIfReady (s : State) (id : Nat) (op : MatOp) : State :=
  let p := (supplierOf op).getD ⟨0, true, 0, .bytes [], .bytes [], [], op.tok, op.tile, 0⟩
  if op.attached.isNone || op.formed || op.fault = some divergedMark || !formable s op p.tok || !suppliesFull s op then s
  else formMat s id { op with
    empty := p.empty, fmt := p.fmt, a := p.a, b := p.b, windows := p.windows, tok := p.tok, tile := p.tile, col := p.col }

/-- The attached operations of a team that are due take their places. -/
def formDue (s : State) (tid : Nat) : State :=
  (s.mats.filter fun m => m.2.team = tid && !m.2.formed).foldl (fun t m => formIfReady t m.1 m.2) s

/-- The members' operations of a joint operation that have been formed (R317). -/
def jointGroup (s : State) (op : MatOp) : List (Nat × MatOp) :=
  match memberOf s op with
  | none => []
  | some (l, c, _) => s.mats.filter fun m =>
      m.2.kind = .joint && m.2.formed && m.2.num = op.num && match memberOf s m.2 with
        | some (l', c', _) => l' = l && c' = c
        | none => false

/-! `mma`. -/

/-- A blank unattached operation of an issuing wave's team. -/
def newMat (c : Ctx) (kind : MatKind) (tok : BitVec 3) (tile : BitVec 6) : MatOp :=
  blankMat c.x.team c.cl kind none tok.toNat tile.toNat

/-- The registers that an `mma`'s operand block takes (R311). -/
def blockRegs (x : Wave) (f planes kx : Nat) : Nat := imageBytes f planes kx / (4 * x.width)

/-- The vote (R313). -/
def voteFails (s : State) (c : Ctx) (joint : Bool) (f : MmaOps) (w : Word) : Bool :=
  let kx := suppliedLen joint w
  let beyond (src : BitVec 2) (n : BitVec 6) (fm planes : Nat) : Bool :=
    src = 0 && c.x.regs < n.toNat + blockRegs c.x fm planes kx
  (c.lanes.any fun l => srcLane s c f.d l ≠ w) || !fmtValid w ||
  beyond f.asrc f.a (fmtA w) (planesA w) || beyond f.bsrc f.b (fmtB w) (planesB w) ||
  (joint && (c.la.ker.cohlv ≠ 2 || c.t.cohort.isNone))

/-- The trap that the descriptors meet (R310). -/
def operandFail (c : Ctx) (joint : Bool) (w : Word) (a b : MatOperand) : Option Fail :=
  let kx := suppliedLen joint w
  let base := scratchBase c.t
  let nscr := c.la.ker.scr
  let bad (m : MatOperand) (fm planes : Nat) : Option (Nat × Word) := match m with
    | .bytes _ => none
    | .scratch lo hi =>
      if descLocalBad base nscr lo hi (if fm = 0 then planes else 1) (rowLen fm kx) then some (6, lo)
      else if descMisaligned lo hi then some (7, lo) else none
  match bad a (fmtA w) (planesA w), bad b (fmtB w) (planesB w) with
  | some (6, lo), _ => some (descFail c 6 lo)
  | _, some (6, lo) => some (descFail c 6 lo)
  | some (k, lo), _ => some (descFail c k lo)
  | _, some (k, lo) => some (descFail c k lo)
  | _, _ => none

/-- The register blocks that an operation goes on reading under LA = n (R315): through the writes of the next n instructions.
The count goes down as the `mma` itself retires and as each further one does, before its writes. -/
def readWindows (c : Ctx) (f : MmaOps) : List MatWindow :=
  let left := (if c.interlocked then 0 else f.la.toNat) + 2
  (if f.asrc = 0 then [⟨c.r, left, false, f.a.toNat, c.x.width⟩] else []) ++
    if f.bsrc = 0 then [⟨c.r, left, true, f.b.toNat, c.x.width⟩] else []

/-- The slot waits for the member comparison (R318). -/
def awaitJoint (s : State) (c : Ctx) (id : Nat) : State := onSlot s c.r fun sl => { sl with joint := some id }

/-- A joint operation's waiting instruction may retire: its comparison has been made, or the operation is over (R318, R319).
A failed copy (R296) does not spare it the comparison. The instructions that LA lets issue meanwhile have no effect and show
no result before it retires (R315, R378), so the slot holds them. -/
def jointSettled (s : State) (id : Nat) : Bool :=
  match kvFind s.mats id with
  | none => true
  | some op => op.compared || op.fault = some divergedMark || cohortBroken s op

/-- The re-issue of an `mma.j` that waits for its comparison. -/
def jointReturn (s : State) (c : Ctx) (id : Nat) : Effect :=
  match kvFind s.mats id with
  | none => results s []
  | some op =>
    if op.fault = some divergedMark then
      .trap (plainFail 4) (onSlot { s with mats := kvErase s.mats id } c.r fun sl => { sl with joint := none })
    else if jointSettled s id then results s [] else .wait s

/-- An unattached `mma` (R307): it forms its operation at its issue. -/
def formAlone (s : State) (c : Ctx) (joint : Bool) (f : MmaOps) (w : Word) (a b : MatOperand) : Effect :=
  if tokenBusy c.t f.tok.toNat none || 16 ≤ matLoad s c.cl then .wait s
  else
    let (id, s) := fresh s
    let op := { newMat c (if joint then .joint else .solo) f.tok f.tile with
      fmt := w, a := a, b := b, col := f.col.toNat, windows := readWindows c f }
    let s := formMat s id op
    if joint then .wait (awaitJoint s c id) else results s []

/-- A wave's attached `mma` (R307): its supply, and formation once every wave has issued; the one that would form the
operation stalls while it cannot be formed (R316). Where the copy has completed already, it reads the copy's data as it stands
(R258, R295). -/
def supplyAttached (s : State) (c : Ctx) (joint : Bool) (f : MmaOps) (p : MatSupply) : Effect :=
  let (id, op, t) := attachedMat s c.x.team c.cl (if joint then .joint else .solo) c.sl.copy f.tok.toNat f.tile.toNat
  let known : Bool := op.supplies.any fun q => q.wave = c.x.num
  let op := { op with supplies := op.supplies ++ [p] }
  let tok := ((supplierOf op).map (·.tok)).getD 0
  if known then results s []
  else if (!p.empty && tokenBusy c.t f.tok.toNat (some id)) || (suppliesFull s op && !formable s op tok) then .wait s
  else
    let t := if (kvFind c.t.copyDone c.sl.copy).isSome then seeCopy t c.x.team c.sl.copy else t
    let s := formIfReady (putMat t id op) id op
    if joint && !p.empty then .wait (awaitJoint s c id) else results s []

/-- `mma` and `mma.j` (R306 to R319). -/
def mmaEffect (joint : Bool) (f : MmaOps) (c : Ctx) (s : State) : Effect :=
  match c.sl.joint with
  | some id => jointReturn s c id
  | none =>
    let s := formDue s c.x.team
    let w := match c.lanes with
      | l :: _ => srcLane s c f.d l
      | [] => 0
    let kx := suppliedLen joint w
    let na := blockRegs c.x (fmtA w) (planesA w) kx
    let nb := blockRegs c.x (fmtB w) (planesB w) kx
    if c.act = 0 then
      if f.fol then supplyAttached s c joint f ⟨c.x.num, true, 0, .bytes [], .bytes [], [], f.tok.toNat, f.tile.toNat, 0⟩
      else results s []
    else if unlanded c.x (56 ≤ f.d.toNat) (if f.d.toNat < 56 then f.d.toNat else f.d.toNat - 56) 1 ||
        operandLate c.x f.asrc f.a (max na 1) || operandLate c.x f.bsrc f.b (max nb 1) then .wait s
    else if voteFails s c joint f w then .trap (plainFail 4) s
    else
      let dead := blockPoison s c f.asrc f.a na ||| blockPoison s c f.bsrc f.b nb
      let a := takeOperand s c f.asrc f.a na
      let b := takeOperand s c f.bsrc f.b nb
      if dead ≠ 0 then
        -- poisoned register words are consumed by their lanes, and the instruction issues again for the others
        if c.la.rcd.kabort then .trap { plainFail 8 with f := dead } s else .left (killByPoison s c.w c.tag dead c.sl.pc)
      else match operandFail c joint w a b with
        | some g => .trap g s
        | none =>
          if f.fol then
            supplyAttached s c joint f ⟨c.x.num, false, w, a, b, readWindows c f, f.tok.toNat, f.tile.toNat, f.col.toNat⟩
          else formAlone s c joint f w a b

/-- R306 `mma`. -/
def execMma (f : MmaOps) (s : State) : Host.Outcome State Fault Refusal := issueInstr (.mma f) s (mmaEffect false f)

/-- R306, R317 `mma.j`. -/
def execMmaJ (f : MmaOps) (s : State) : Host.Outcome State Fault Refusal := issueInstr (.mmaJ f) s (mmaEffect true f)

/-! Rows of tiles (R329, R330). -/

/-- The entry of an `mmrd.f32` or `mmwr` at register `m` and lane `l` after the first (R330). -/
def rowEntry (width row0 m l : Nat) : Nat := 32 * (row0 + m * (width / 32) + l / 32) + l % 32

/-- The entries of an `mmrd.bf16` there: row r and row r + 1. -/
def rowPair (width row0 m l : Nat) : Nat × Nat :=
  let r := row0 + 2 * (m * (width / 32) + l / 32)
  (32 * r + l % 32, 32 * (r + 1) + l % 32)

/-- An entry converted by the wave's `%fpmode` (R107). -/
def entryOut (g : Fmt) (m : BitVec 7) (e : Nat) : Nat := rounded g m (decodeE e)

/-- R330 `mmrd`. -/
def execMmrd (f : MmrdOps) (s : State) : Host.Outcome State Fault Refusal :=
  issueInstr (.mmrd f) s fun c s =>
    let s := formDue s c.x.team
    if c.act = 0 then .done s 0 f.la.toNat []
    else if tileBusy s c.x.team f.tile.toNat none then .wait s
    else
      let e (k : Nat) := tileEntry s c.cl (physTile c.t f.tile.toNat) k
      let h := c.x.width / 32
      let cnt := if f.bf16 then f.n.toNat / (2 * h) else f.n.toNat / h
      let value (m l : Nat) : Nat × Bool :=
        if f.bf16 then
          let p := rowPair c.x.width f.row0.toNat m l
          (entryOut fmtBf16 c.x.fpmode (e p.1) + 2 ^ 16 * entryOut fmtBf16 c.x.fpmode (e p.2),
            entryPoison (e p.1) || entryPoison (e p.2))
        else
          let k := rowEntry c.x.width f.row0.toNat m l
          (entryOut fmtF32 c.x.fpmode (e k), entryPoison (e k))
      let bad := c.lanes.filter fun l => (List.range cnt).any fun m => (value m l).2
      let ws := (c.lanes.filter fun l => !bad.contains l).flatMap fun l => (List.range cnt).map fun m =>
        RegWrite.lane (f.d.toNat + m) l (BitVec.ofNat 32 (value m l).1)
      .done s (maskOf bad) f.la.toNat ws

/-- R330 `mmwr`. -/
def execMmwr (f : MmwrOps) (s : State) : Host.Outcome State Fault Refusal :=
  issueInstr (.mmwr f) s fun c s =>
    let s := formDue s c.x.team
    if c.act = 0 then results s []
    else if tileBusy s c.x.team f.tile.toNat none then .wait s
    else
      let cnt := f.n.toNat / (c.x.width / 32)
      let phys := physTile c.t f.tile.toNat
      results (c.lanes.foldl (fun t l => (List.range cnt).foldl (fun u m =>
        putTileEntry u c.cl phys (rowEntry c.x.width f.row0.toNat m l)
          (encodeE (decodeF fmtF32 (readLane s c.w c.x (f.a.toNat + m) l).toNat))) t) s) []

/-- A tile at zero. -/
def zeroTile (s : State) (cl phys : Nat) : State :=
  { s with tiles := s.tiles.filter fun e => !(e.1.1 = cl && e.1.2.1 = phys) }

/-- R330 `mmwr.zero`. -/
def execMmwrZero (f : TileOps) (s : State) : Host.Outcome State Fault Refusal :=
  issueInstr (.mmwrZero f) s fun c s =>
    let s := formDue s c.x.team
    if c.act = 0 then results s []
    else if tileBusy s c.x.team f.tile.toNat none then .wait s
    else results (zeroTile s c.cl (physTile c.t f.tile.toNat)) []

/-- R331 `mmstat`. -/
def execMmstat (f : TkOps) (s : State) : Host.Outcome State Fault Refusal :=
  issueInstr (.mmstat f) s fun c s =>
    results s (if c.act = 0 then [] else [.group f.d.toNat (tokenAt c.t f.tok.toNat).report])

/-! `mmcvt` (R332 to R334). -/

/-- The trap that an `mmcvt` meets: its descriptor, then the scale address. -/
def cvtFail (s : State) (c : Ctx) (np : Bool) (f : MmcvtOps) : Option Fail :=
  let lo := readGroup s c.x f.a.toNat
  let hi := readGroup s c.x (f.a.toNat + 1)
  let g := (readGroup s c.x f.b.toNat).toNat
  let scr (a : Nat) : Bool :=
    a < 0x180000 && (bankAt s c.cl (bankOf a)).mode = .scr && (bankAt s c.cl (bankOf a)).owner = some c.x.team
  if descLocalBad (scratchBase c.t) c.la.ker.scr lo hi (if np then 8 else 1) (if np then 4 else 64) then
    some (descFail c 6 lo)
  else if descMisaligned lo hi then some (descFail c 7 lo)
  else if !np then none
  else if g % 16 ≠ 0 then some ⟨7, c.act, 0, false, 0, c.lanes.map fun l => (l, g, 0)⟩
  else if !scr g || !scr (g + 63) then
    some ⟨6, c.act, 0, false, if 0x180000 < g + 64 then 1 else 2, c.lanes.map fun l => (l, g, 0)⟩
  else none

/-- `mmcvt` (R332): its checks, then one operation. -/
def cvtEffect (np : Bool) (f : MmcvtOps) (c : Ctx) (s : State) : Effect :=
  let s := formDue s c.x.team
  if c.act = 0 then results s []
  else if unlanded c.x true f.a.toNat 2 || (np && unlanded c.x true f.b.toNat 1) then .wait s
  else match cvtFail s c np f with
    | some g => .trap g s
    | none =>
      if tokenBusy c.t f.tok.toNat none || 16 ≤ matLoad s c.cl then .wait s
      else
        let (id, s) := fresh s
        let op := { newMat c (if np then .cvtNp8 else .cvtBf16) f.tok f.tile with
          fmt := zext 32 c.x.fpmode
          a := .scratch (readGroup s c.x f.a.toNat) (readGroup s c.x (f.a.toNat + 1))
          scaleAddr := if np then (readGroup s c.x f.b.toNat).toNat else 0 }
        results (formMat s id op) []

/-- R332 `mmcvt.bf16`. -/
def execMmcvtBf16 (f : MmcvtOps) (s : State) : Host.Outcome State Fault Refusal :=
  issueInstr (.mmcvtBf16 f) s (cvtEffect false f)

/-- R332, R333 `mmcvt.np8`. -/
def execMmcvtNp8 (f : MmcvtOps) (s : State) : Host.Outcome State Fault Refusal :=
  issueInstr (.mmcvtNp8 f) s (cvtEffect true f)

/-! The comparison of a joint operation (R318). -/

/-- The operation does not come to exist: counts go back, and each member's instruction traps. -/
def divergeJoint (s : State) (id : Nat) (op : MatOp) : State :=
  let s := setToken s op.team op.tok fun x => { x with op := if x.op = some id then none else x.op }
  let later (m : Nat × MatOp) : Nat × MatOp :=
    if m.2.team = op.team && m.2.kind = .joint && m.2.formed && op.num < m.2.num then (m.1, { m.2 with num := m.2.num - 1 })
    else m
  let s := { s with mats := s.mats.map later }
  onTeam (putMat s id { op with formed := false, fault := some divergedMark }) op.team fun t =>
    { t with joints := t.joints - 1 }

/-- All four members have formed it (R318). -/
def compareJoint (s : State) (id : Nat) : State :=
  match kvFind s.mats id with
  | none => s
  | some op =>
    let s := formDue s op.team
    let g := jointGroup s op
    if op.kind ≠ .joint || !op.formed || g.length ≠ 4 || (g.any fun m => m.2.compared) then s
    else
      let words := (g.filter fun m => !m.2.empty).map fun m => m.2.fmt
      let differ := words.any fun a => words.any fun b => a ≠ b
      let hollow := g.any fun m => m.2.empty
      let tied := g.any fun m => m.2.attached.isSome
      if !differ && !hollow then g.foldl (fun t m => putMat t m.1 { m.2 with compared := true }) s
      else if tied then
        g.foldl (fun t m => putMat t m.1 { m.2 with compared := true, fault := worse m.2.fault 10 }) s
      else g.foldl (fun t m => divergeJoint t m.1 m.2) s

/-- R318. -/
def execJointComparison (op : Nat) (s : State) : Host.Outcome State Fault Refusal := .next (compareJoint s op)

/-! Start (R324). -/

/-- The copy that an operation is attached to has completed, and what R295 asks besides. -/
def handedOver (s : State) (op : MatOp) : Bool :=
  match op.attached, findTeam s op.team with
  | none, _ => true
  | some k, some t => (kvFind t.copyDone k).isSome && !earlierScale s op.team k
  | some _, none => false

/-- The members of an operation by die: all four of a joint one, itself for a solo one. -/
def partsOf (s : State) (id : Nat) (op : MatOp) : List (Nat × MatOp) :=
  if op.kind = .joint then jointGroup s op else [(id, op)]

/-- The part whose tile receives the result. -/
def homePart (s : State) (parts : List (Nat × MatOp)) : Option (Nat × MatOp) := parts.find? fun m => writesTile s m.2

/-- An operation may start. -/
def mayStart (s : State) (parts : List (Nat × MatOp)) : Bool :=
  (parts.all fun m => m.2.formed && !m.2.started && !m.2.empty && m.2.fault.isNone && handedOver s m.2 &&
    (m.2.kind ≠ .joint || (m.2.compared && !cohortBroken s m.2))) &&
  (match parts with
    | [m] => m.2.kind ≠ .joint
    | l => l.length = 4) &&
  match homePart s parts with
  | some h => !tileBusy s h.2.team h.2.tile (some h.2.seq)
  | none => false

/-- The part that supplies quarter `q`. -/
def supplyPart (parts : List (Nat × MatOp)) (q : Nat) : MatOp :=
  match parts with
  | [m] => m.2
  | _ => ((parts.find? fun m => dieOf m.2.cl % 4 = q).map (·.2)).getD default

/-- Scale entries of a quarter (R314), two bytes each, with poison. Each is read as it stands, also one that a `cpscale` not
ordered before the operation has written: of R299's old or new this model always takes the newest (DESIGN CHOICE, log entry
123). -/
def quarterScale (s : State) (col : Nat) (op : MatOp) (q e : Nat) : Nat × Bool :=
  let v := kvGet s.scale (columnCluster col q, 128 * op.col + e) (0, false)
  (v.1.toNat % 2 ^ 16, v.2)

/-- What a quarter needs: the images' rows over the quarter, the scales of rows and columns, poison. -/
structure Quarter where
  a : MatImage
  b : MatImage
  skip : Nat
  sa : List (List Nat)
  sb : List (List Nat)
  pois : Bool

def readQuarter (s : State) (col : Nat) (parts : List (Nat × MatOp)) (w : Word) (q : Nat) : Quarter :=
  let op := supplyPart parts q
  let joint := parts.length = 4
  let kx := suppliedLen joint w
  let (f, nscr) : Nat × Nat := match findTeam s op.team with
    | some t => (scratchBase t, ((findLaunch s t.launch).map fun l => l.ker.scr).getD 0)
    | none => (0, 0)
  let a := readImage s op.cl f nscr (fmtA w) (planesA w) kx op.a
  let b := readImage s op.cl f nscr (fmtB w) (planesB w) kx op.b
  let nb := quarterLen w / 32
  let useA := scaleMode w = 1 || scaleMode w = 2
  let useB := scaleMode w = 1 || scaleMode w = 3
  let sa (i : Nat) : List Nat := if useA then (List.range nb).map fun b => (quarterScale s col op q (32 * b + i)).1 else []
  let sb (j : Nat) : List Nat := if useB then (List.range nb).map fun b => (quarterScale s col op q (64 + 32 * b + j)).1 else []
  let bad := (List.range nb).any fun b => (List.range 32).any fun i =>
    (useA && (quarterScale s col op q (32 * b + i)).2) || (useB && (quarterScale s col op q (64 + 32 * b + i)).2)
  ⟨a, b, if joint then 0 else q * quarterLen w, (List.range 32).map sa, (List.range 32).map sb, a.pois || b.pois || bad⟩

/-- A quarter's partial of entry (i, j), with the sign change (R116). -/
def Quarter.part (r : Quarter) (w : Word) (i j : Nat) : FVal :=
  let cut {α : Type} (l : List α) : List α := (l.drop r.skip).take (quarterLen w)
  negateIf w (if fmtA w = 0 then partialNp w (cut (r.a.ints.getD i [])) (cut (r.b.ints.getD j [])) (r.sa.getD i []) (r.sb.getD j [])
    else partialFloat w (cut (r.a.vals.getD i [])) (cut (r.b.vals.getD j [])))

/-- Running a started operation to the values it will write (R324). -/
def runMat (s : State) (parts : List (Nat × MatOp)) (h : MatOp) : List Nat × Bool × Word × State :=
  let w := h.fmt
  let col := columnOf h.cl
  let home := dieOf h.cl % 4
  let joint := parts.length = 4
  let lists := assignQuarters home (skipSet s col home) (chainOf home) [] []
  let qs := (List.range 4).map fun q => readQuarter { s with freeCtr := s.freeCtr + q } col parts w q
  let pois := qs.any fun q => q.pois
  let phys := match findTeam s h.team with
    | some t => physTile t h.tile
    | none => 0
  let entry (e : Nat) : Nat :=
    let old := tileEntry s h.cl phys e
    let sum := chainSum lists fun q => match qs[q]? with
      | some r => r.part w (e / 32) (e % 32)
      | none => .nan
    let acc := w.getLsbD 21
    withPoison (encodeE (if acc then addF .rne (decodeE old) sum else sum)) (pois || (acc && entryPoison old))
  let (elapsed, s) := drawNat { s with freeCtr := s.freeCtr + 4 } 256
  ((List.range 1024).map entry, pois,
    reportWord s col home (fun q => if joint then q else home) lists pois elapsed, s)

/-- A started operation changes no tile (R314, R324). -/
def startFault (s : State) (parts : List (Nat × MatOp)) (h : MatOp) : Bool :=
  let col := columnOf h.cl
  let home := dieOf h.cl % 4
  (scaleMode h.fmt ≠ 0 && scalesLost s col home) || (parts.length = 4 && (List.range 4).any fun d => cutOff s col home d)

/-- R324: an operation starts. -/
def startMat (s : State) (id : Nat) : State :=
  match kvFind s.mats id with
  | none => s
  | some op =>
    let s := formDue s op.team
    match kvFind s.mats id with
    | none => s
    | some op =>
      let parts := partsOf s id op
      if !mayStart s parts then s
      else match homePart s parts with
        | none => s
        | some (hid, h) =>
          if h.kind = .cvtBf16 || h.kind = .cvtNp8 then putMat s id { op with started := true }
          else if startFault s parts h then
            parts.foldl (fun t m => putMat t m.1 { m.2 with fault := some 3 }) s
          else
            let (result, pois, report, s) := runMat s parts h
            parts.foldl (fun t m => putMat t m.1
              { m.2 with started := true, windows := [], report, pois, result := if m.1 = hid then result else [] }) s

/-- R324. -/
def execMatrixOpStart (op : Nat) (s : State) : Host.Outcome State Fault Refusal := .next (startMat s op)

/-! Completion (R326). -/

/-- One team's part is over: its token, and `%mmrep` when there is a report. -/
def endPart (s : State) (id : Nat) (op : MatOp) (status report : Word) (kept : Bool) : State :=
  let s := setToken { s with mats := kvErase s.mats id } op.team op.tok fun x =>
    { x with op := if x.op = some id then none else x.op, status, report }
  if kept then onTeam s op.team fun t => { t with mmrep := report } else s

/-- The words of a converted row: local address, value, poison. -/
def cvtRow (s : State) (op : MatOp) (f nscr phys i : Nat) (lo hi : Word) : List (Nat × Word × Bool) × (Nat × Bool) :=
  let e (j : Nat) := tileEntry s op.cl phys (32 * i + j)
  let row := (List.range 32).map e
  if op.kind = .cvtBf16 then
    let m : BitVec 7 := op.fmt.setWidth 7
    ((List.range 16).map fun k =>
      (descAddr f nscr lo hi 0 i (4 * k),
        BitVec.ofNat 32 (entryOut fmtBf16 m (e (2 * k)) + 2 ^ 16 * entryOut fmtBf16 m (e (2 * k + 1))),
        entryPoison (e (2 * k)) || entryPoison (e (2 * k + 1))), (0, false))
  else
    -- the smallest exponent that holds one finite value within 127 × 2^e (R333)
    let need (x : Nat) : Option Int := match decodeE x with
      | .fin _ m k => if m = 0 then none else
          let t : Int := Nat.log2 m + k
          some (if cmpF (.fin false m k) (.fin false 127 (t - 6)) = some .gt then t - 5 else t - 6)
      | _ => none
    let big := row.foldl (fun b x => match b, need x with
      | none, n => n
      | some a, some c => some (max a c)
      | some a, none => some a) none
    let ex : Option Int := big.map fun e => max (-133) (min 127 e)
    let elem (x : Nat) : Int := match ex with
      | none => 0
      | some k => toInteger .rne (-127) 127 0 (scaleF (-k) (decodeE x))
    let bits := row.map fun x => BitVec.ofInt 8 (elem x)
    let bad := row.any entryPoison
    let plane (p : Nat) : Word := (List.range 32).foldl (fun v j =>
      if (bits.getD j 0).getLsbD (7 - p) then v ||| (1#32 <<< j) else v) 0
    let scale := match ex with
      | none => 0
      | some k => encodeF fmtBf16 .rne false (.fin false 1 k)
    ((List.range 8).map fun p => (descAddr f nscr lo hi p i 0, plane p, bad), (scale, bad))

/-- The scale words of `mmcvt.np8`, two rows to a word. -/
def scaleWords (a : Nat) (rows : List (Nat × Bool)) : List (Nat × Word × Bool) :=
  (List.range 16).map fun k =>
    let x := rows.getD (2 * k) (0, false)
    let y := rows.getD (2 * k + 1) (0, false)
    (a + 4 * k, BitVec.ofNat 32 (x.1 + 2 ^ 16 * y.1), x.2 || y.2)

/-- An `mmcvt` writes its output (R333, R334); held while a bank it writes is being copied (R217). -/
def completeCvt (s : State) (id : Nat) (op : MatOp) : State :=
  match findTeam s op.team, op.a with
  | some t, .scratch lo hi =>
    let nscr := ((findLaunch s t.launch).map fun l => l.ker.scr).getD 0
    let rows := (List.range 32).map fun i => cvtRow s op (scratchBase t) nscr (physTile t op.tile) i lo hi
    let ws := rows.flatMap (·.1) ++ if op.kind = .cvtNp8 then scaleWords op.scaleAddr (rows.map (·.2)) else []
    if ws.any fun w => (bankAt s op.cl (bankOf w.1)).copying then s
    else endPart (engineWrite s op.cl ws true (fun _ => 0) 2 op.team none) id op
      (statusWord (if ws.any fun w => w.2.2 then 2 else 0) true 0 0) 0 false
  | _, _ => s

/-- The tile is written. -/
def writeTile (s : State) (op : MatOp) : State :=
  match findTeam s op.team with
  | none => s
  | some t => (List.range op.result.length).foldl (fun u e => putTileEntry u op.cl (physTile t op.tile) e (op.result.getD e 0)) s

/-- Every part ends with FAULT and a detail. -/
def cancelParts (s : State) (parts : List (Nat × MatOp)) (detail : Nat) : State :=
  parts.foldl (fun t m => endPart t m.1 m.2 (faultStatus true detail 0) 0 false) s

/-- The smallest detail among parts that will not run. -/
def partsFault (parts : List (Nat × MatOp)) : Option Nat :=
  parts.foldl (fun f m => match m.2.fault with
    | some d => worse f d
    | none => f) none

/-- R326: an operation completes, or is cancelled; a joint one in every member that has formed it at once. What the spec does
not say of the status is the model's: an empty attached solo `mma` completes OK as soon as it is formed, whatever its copy
does later (DESIGN CHOICE, log entry 114), and COUNT of a matrix operation's POISON is 0 (DESIGN CHOICE, log entry 113). -/
def completeMat (s : State) (id : Nat) : State :=
  match kvFind s.mats id with
  | none => s
  | some op =>
    let parts := partsOf s id op
    if !op.formed || op.fault = some divergedMark then s
    else if op.kind = .joint && cohortBroken s op then cancelParts s parts 9
    else match partsFault parts with
      | some d => if op.kind = .joint && !(parts.length = 4 && parts.all fun m => m.2.compared) then s
                  else cancelParts s parts d
      | none =>
        if op.empty && op.kind ≠ .joint then endPart s id op (statusWord 0 true 0 0) 0 false
        else if !op.started then s
        else if op.kind = .cvtBf16 || op.kind = .cvtNp8 then completeCvt s id op
        else
          let s := parts.foldl (fun t m => writeTile t m.2) s
          parts.foldl (fun t m => endPart t m.1 m.2 (statusWord (if m.2.pois then 2 else 0) true 0 0) m.2.report true) s

/-- R326. -/
def execMatrixOpCompletion (op : Nat) (s : State) : Host.Outcome State Fault Refusal := .next (completeMat s op)

end Sys2Proof.Machine
end

