-- ==== Sys2Proof/Machine/Work.lean ====
section
/-! DEFINITION. Work that running waves create and wait on: task queues, `spawn` and `tdone` (R369 to R375), `launch` (R365),
and barriers (R361 to R363). -/

namespace Sys2Proof.Machine

/-! The spill ring of a task queue (R371): words at the die's coherence point. -/

/-- A word of the ring as the die cache has it. -/
def ringWord (s : State) (d : Nat) (tag : AsidTag) (va : Nat) : Option (Word × Bool) :=
  match cwAt s (.die d) tag va with
  | some c => if c.stale then none else some (c.val, c.poison)
  | none => if homeLost s tag va .load then some (0, true) else none

/-- Asking for a record of the ring. -/
def askRing (s : State) (d : Nat) (tag : AsidTag) (va : Nat) : State :=
  askNode s (.die d) tag ((List.range 4).map fun j => va + 4 * j)

/-- The die is in the midst of a transaction of a ring line, or the line's page waits for its shootdown (R409). -/
def ringBusy (s : State) (d : Nat) (tag : AsidTag) (va : Nat) : Bool :=
  shooting s tag.asid va || evictsLine s (.die d) tag (lineOf va) ||
    (txnAt s (.die d) tag (lineOf va) true).isSome || (txnAt s (.die d) tag (lineOf va) false).isSome

/-- A cluster of the die is registered for words of a ring line. -/
def ringClaimed (s : State) (d : Nat) (tag : AsidTag) (va : Nat) : Bool :=
  (kids s (.die d) tag (lineOf va)).any fun h => registered h.2 ≠ 0

/-- Storing words of one record into the ring. -/
def storeRing (s : State) (d : Nat) (tag : AsidTag) (va : Nat) (ws : List Word) : State :=
  absorb s (.die d) tag (lineOf va) ((List.range ws.length).map fun i => ⟨wordIdx va + i, ws.getD i 0, false⟩)

/-- The asker of ring accesses (R371, R403). -/
def ringAsker (core : Nat) (tag : AsidTag) : Asker :=
  { cl := core / 4, core := none, tag, sup := false, src := 3, acc := 4, waiter := none }

/-- Where record `i` of a core's ring lies. -/
def ringVa (l : LaunchRec) (core i : Nat) : Nat := (l.tring.toNat + core * l.tringn * 16 + 16 * (i % l.tringn)) % 2 ^ 64

def recWords (r : TaskRec) : List Word := [loWord r.frame, hiWord r.frame, r.arg, r.entry]

def recOf (ws : List Word) : TaskRec := ⟨pairOf (ws.getD 0 0) (ws.getD 1 0), ws.getD 2 0, ws.getD 3 0⟩

/-- Task records discarded (R371, R375). -/
def countTaskErr (s : State) (launch n : Nat) : State :=
  onLaunch s launch fun l => { l with taskerr := l.taskerr + n }

def putQueueOf (s : State) (core : Nat) (q : TaskQueue) : State := { s with tasks := kvPut s.tasks core q }

/-- A ring access that is refused: its record is written and nothing traps (R371). -/
def ringRefused (s : State) (core : Nat) (la : Launch) (va : Nat) (acc : Acc) : Bool × State :=
  if !canonical va then (true, s)
  else match translate s la.tag va acc false with
    | (.refused k, s) => (true, (writeFault s (homeOf va) ((ringAsker core la.tag).record va k)).2)
    | (_, s) => (false, s)

/-- Moving records to the ring, oldest first. -/
def spillRecs (s : State) (core : Nat) (la : Launch) : List TaskRec → TaskQueue → TaskQueue × State
  | [], q => (q, s)
  | r :: rest, q =>
    let va := ringVa la.rcd core (q.ringHead + q.ringCount)
    match ringRefused s core la va .store with
    | (true, s) => spillRecs (countTaskErr s q.launch 1) core la rest q
    | (false, s) =>
      spillRecs (storeRing s (core / 96) la.tag va (recWords r)) core la rest { q with ringCount := q.ringCount + 1 }

/-- The lines of the ring that a spill of 8 records writes are free to be written; those of which a cluster holds words are
called back first. -/
def ringReady (s : State) (core : Nat) (la : Launch) (q : TaskQueue) : Bool × State :=
  let d := core / 96
  let vas := (List.range 8).map fun i => ringVa la.rcd core (q.ringHead + q.ringCount + i)
  let claimed := vas.filter fun va => !ringBusy s d la.tag va && ringClaimed s d la.tag va
  (!(vas.any fun va => ringBusy s d la.tag va || ringClaimed s d la.tag va),
    ((claimed.map lineOf).eraseDups).foldl (fun t l => evictLine t (.die d) la.tag l) s)

/-- Pushing one record (R371, R375): whether it is pushed; it must stall else. -/
def pushRec (s : State) (core launch : Nat) (la : Launch) (r : TaskRec) : Bool × State :=
  match kvFind s.tasks core with
  | none => (true, countTaskErr s launch 1)
  | some q =>
    if la.ker.tslot = 0 || q.launch ≠ launch then (true, countTaskErr s launch 1)
    else if q.chip.length < 32 then (true, putQueueOf s core { q with chip := q.chip ++ [r] })
    else if la.rcd.tringn < q.ringCount + 8 then (false, s)
    else match ringReady s core la q with
      | (false, s) => (false, s)
      | (true, s) =>
        let (q, s) := spillRecs s core la (q.chip.take 8) { q with chip := q.chip.drop 8 }
        (true, putQueueOf s core { q with chip := q.chip ++ [r] })

/-! `spawn` (R373). -/

/-- The marks of the pushing phase and of reading a launch record. -/
def pushMark : Nat := 1001
def contMark : Nat := 1002

/-- One record for each lane. -/
def spawnRecs (f : SpawnOps) (ls : List AtomLane) : List (Nat × TaskRec) :=
  ls.map fun l => (l.lane, ⟨BitVec.ofNat 64 l.va, BitVec.ofNat 32 l.x, zext 32 f.entry⟩)

/-- The frames and arguments that the lanes of a `spawn` read. -/
def spawnOperands (s : State) (c : Ctx) (f : SpawnOps) : List AtomLane :=
  c.lanes.map fun l => ⟨l, (srcPair s c false f.a l).toNat, (srcLane s c f.b l).toNat, 0⟩

/-- Distinct frames other than 0, ascending. -/
def insertNat (n : Nat) : List Nat → List Nat
  | [] => [n]
  | m :: rest => if n < m then n :: m :: rest else if n = m then m :: rest else m :: insertNat n rest

def framesOf (rs : List (Nat × TaskRec)) : List Nat :=
  ((rs.map fun r => r.2.frame.toNat).filter (· ≠ 0)).foldl (fun l n => insertNat n l) []

/-- The asker of atomics that the device makes on a wave's behalf (R383). -/
def behalfAsker (c : Ctx) : Asker := { waveAsker c.w c.tag c.x.super 4 with acc := 4 }

/-- Pushing the records that are left, in lane order: whether all are pushed, and how many. -/
def pushLeft (s : State) (c : Ctx) (launch : Nat) : List TaskRec → Nat → Bool × State × Nat
  | [], n => (true, s, n)
  | r :: rest, n =>
    match findLaunch s launch with
    | none => (true, s, n)
    | some la =>
      match pushRec s c.core launch la r with
      | (false, t) => (false, t, n)
      | (true, t) => pushLeft t c launch rest (n + 1)

/-- The lanes whose frame's JOIN read poison. -/
def poisonedLanes (rs : List (Nat × TaskRec)) (fs : List Nat) (got : List (Nat × Nat × Bool)) : LaneMask :=
  maskOf ((rs.filter fun r => got.any fun g => g.2.2 && fs[g.1]? = some r.2.frame.toNat).map (·.1))

/-- The pushes of a `spawn` whose additions are made. -/
def spawnPush (s : State) (c : Ctx) (rs : List (Nat × TaskRec)) (got : List (Nat × Nat × Bool)) : Effect :=
  let dead := poisonedLanes rs (framesOf rs) got
  if dead ≠ 0 && c.la.rcd.kabort then .done (clearProgress s c) dead 0 []
  else
    let done := ((progressOf c).map (·.pushed)).getD 0
    let left := ((rs.filter fun r => !dead.getLsbD r.1).map (·.2)).drop done
    match pushLeft s c c.t.launch left done with
    | (true, t, _) => .done (clearProgress t c) dead 0 []
    | (false, t, n) => .wait (onWave (keepProgress t c pushMark got) c.w fun x =>
        { x with progress := x.progress.map fun p => { p with pushed := n, vas := [] } })

/-- The addresses of the lanes that name some frames. -/
def spawnAddrs (rs : List (Nat × TaskRec)) (fs : List Nat) : List LaneAddr :=
  (rs.filter fun r => fs.contains r.2.frame.toNat).map fun r => (r.1, r.2.frame.toNat)

/-- The additions of a `spawn`, one for each frame, by the frames' order. -/
def spawnLanes (rs : List (Nat × TaskRec)) : List AtomLane :=
  (List.range (framesOf rs).length).map fun i =>
    let fr := (framesOf rs).getD i 0
    ⟨i, fr, (spawnAddrs rs [fr]).length, 0⟩

/-- `spawn`: checks, the release, one addition for each frame at die scope, the pushes. Its records are those of the lanes active
at its issue (R373). -/
def spawnEffect (f : SpawnOps) (c : Ctx) (s : State) : Effect := overOperands c (spawnOperands s c f) fun ls =>
  let rs := spawnRecs f ls
  let lanes := spawnLanes rs
  let check (s : State) (ls : List AtomLane) : Checked :=
    checkGlobal s c false (behalfAsker c) .atomic 32 (spawnAddrs rs (ls.map (·.va)))
  let go (s : State) : Effect := match remoteStep s c 0 2 lanes check with
    | .done got s => spawnPush s c rs got
    | .wait s => .wait s
    | .fail g s => .trap g s
  if rs.isEmpty then results s []
  else if acquireWaits c then .wait s
  else if phaseOf c = pushMark then spawnPush s c rs (resultsOf c)
  else if asked c then go s
  else match check s lanes with
    | .fail g s => .trap g (clearProgress s c)
    | .busy s => .wait s
    | .ok s =>
      if lanes.isEmpty then spawnPush s c rs []
      else match releaseBefore s c 2 with
        | (some p, s) => .wait (keepProgress s c p [])
        | (none, s) => go s

/-- R373 `spawn`. -/
def execSpawn (f : SpawnOps) (s : State) : Host.Outcome State Fault Refusal := issueInstr (.spawn f) s (spawnEffect f)

/-! `tdone` (R374). -/

/-- The address that a pair of group registers holds, as an instruction reads it at issue. -/
def pairOperand (s : State) (c : Ctx) (f : AOps) : List AtomLane := addrLanes [(0, (readGroupPair s c.x f.a.toNat).toNat)]
def operandAddr (ls : List AtomLane) : Nat := ((ls.head?).map (·.va)).getD 0

/-- Every alive lane leaves the alive mask. -/
def endWave (s : State) (c : Ctx) : Effect := results (endWaveLanes (clearProgress s c) c.w c.x.alive) []

/-- The continuation's push, and the end of the wave. -/
def tdonePush (s : State) (c : Ctx) (r : TaskRec) : Effect :=
  match findLaunch s c.t.launch with
  | none => endWave s c
  | some la => match pushRec s c.core c.t.launch la r with
    | (true, t) => endWave t c
    | (false, t) => .wait t

/-- The continuation that the decrement has read with JOIN. -/
def contOf (got : List (Nat × Nat × Bool)) : TaskRec :=
  recOf ((List.range 4).map fun j => match got.find? fun r => r.1 = j + 1 with
    | some r => BitVec.ofNat 32 r.2.1
    | none => 0)

/-- What `tdone` does with the old JOIN: a poisoned JOIN, or with JOIN 1 a poisoned CONT, is consumed by every alive lane; with
JOIN 1 the continuation is pushed. -/
def tdoneEnd (s : State) (c : Ctx) (got : List (Nat × Nat × Bool)) : Effect :=
  match got.find? fun r => r.1 = 0 with
  | some (_, old, bad) =>
    if bad then .done (clearProgress s c) c.x.alive 0 []
    else if old = 1 then tdonePush (noteVas (keepProgress s c pushMark got) c []) c (contOf got)
    else endWave s c
  | none => endWave s c

/-- `tdone`: checks, the decrement at die scope with release and acquire, the continuation, the end. -/
def tdoneEffect (f : AOps) (c : Ctx) (s : State) : Effect := overOperands c (pairOperand s c f) fun ls =>
  let fr := operandAddr ls
  let check (s : State) (_ : List AtomLane) : Checked := checkGlobal s c true (behalfAsker c) .atomic 32 [(0, fr)]
  let go (s : State) : Effect := match remoteStep s c doneCode 2 [⟨0, fr, 0xFFFFFFFF, 0⟩] check with
    | .done got s => tdoneEnd (selfInvalidate s c.cl 2) c got
    | .wait s => .wait s
    | .fail g s => .trap g s
  if c.act = 0 then results s []
  else if fr = 0 then endWave s c
  else if acquireWaits c then .wait s
  else if phaseOf c = pushMark then tdoneEnd s c (resultsOf c)
  else if asked c then go s
  else match check s [] with
    | .fail g s => .trap g (clearProgress s c)
    | .busy s => .wait s
    | .ok s => match releaseBefore s c 2 with
      | (some p, s) => .wait (keepProgress s c p [])
      | (none, s) => go s

/-- R374 `tdone`. -/
def execTdone (f : AOps) (s : State) : Host.Outcome State Fault Refusal := issueInstr (.tdone f) s (tdoneEffect f)

/-! `launch` (R365). -/

/-- The record's bytes from its words. -/
def recordBytes (got : List (Nat × Nat × Bool)) : List Byte :=
  (List.range 32).flatMap fun j => match got.find? fun r => r.1 = j with
    | some r => bytesLe 4 r.2.1
    | none => bytesLe 4 0

/-- The asker of a launch record's read (R403). -/
def launchAsker (c : Ctx) : Asker := { behalfAsker c with src := 4 }

/-- The record's words, by number. -/
def recordWords (va : Nat) : List (Nat × Nat) := (List.range 32).map fun j => (j, va + 4 * j)

/-- The record is read: its submission, once the device launch queue has room. -/
def launchSubmit (va : Nat) (c : Ctx) (s : State) (got : List (Nat × Nat × Bool)) : Effect :=
  if got.any fun r => r.2.2 then .done (clearProgress s c) c.act 0 []
  else if 1024 ≤ s.devq.length then .wait (noteVas (keepProgress s c contMark got) c [])
  else
    let s := { clearProgress s c with devq := s.devq ++ [⟨recordBytes got, c.tag, c.x.super⟩] }
    results (releaseLines s (launchAsker c) [va]) []

/-- `launch`: checks, the release, the record's read, which a translation refused meanwhile ends (R410), its submission. -/
def launchEffect (f : AOps) (c : Ctx) (s : State) : Effect := overOperands c (pairOperand s c f) fun ls =>
  let va := operandAddr ls
  let read (s : State) : Effect := match gatherStep s c (launchAsker c) 8 (recordWords va) with
    | .all got => launchSubmit va c s got
    | .part got s => .wait (noteVas (keepProgress s c contMark got) c (if got.isEmpty then [] else [va]))
  if c.act = 0 then results s []
  else if acquireWaits c then .wait s
  else if (resultsOf c).length = 32 then launchSubmit va c s (resultsOf c)
  else match checkGlobal s c true (launchAsker c) .load 128 [(0, va)] with
    | .fail g s => .trap g (clearProgress s c)
    | .busy s => .wait s
    | .ok s =>
      if phaseOf c = contMark then read s
      else match releaseBefore s c 5 with
        | (some p, s) => .wait (keepProgress s c p [])
        | (none, s) => read s

/-- R365 `launch`. -/
def execLaunch (f : AOps) (s : State) : Host.Outcome State Fault Refusal := issueInstr (.launch f) s (launchEffect f)

/-! Barriers (R361 to R363). -/

/-- The scope of a barrier's ordering. -/
def barScope (id : BarId) (level : Nat) : Nat :=
  match id with
  | .team => 1
  | _ => match level with
    | 1 => 1
    | 3 => 2
    | 2 | 4 => 3
    | 5 => 4
    | _ => 5

/-- The slot's wait at a barrier. -/
def setBar (s : State) (c : Ctx) (b : Option BarWait) : State := onSlot s c.r fun sl => { sl with bar := b }

/-- A `bar` (R362, R363): the release, then the arrival, after which the slot waits where it stands; once the generation has
completed it issues again and is over, with the absent mark in g[D]. So a trap or a pre-emption finds it at the boundary
before it, and takes neither its arrival nor the generation's end from it (R356, R379). -/
def barEffect (id : BarId) (d : BitVec 6) (c : Ctx) (s : State) : Effect :=
  if c.act = 0 then results (setBar s c none) []
  else match c.sl.bar.filter fun b => b.id = id with
    | some b => match b.passed with
      | some absent => results (setBar s c none) [.group d.toNat (if absent then 1 else 0)]
      | none => .wait s
    | none => match releaseBefore s c (barScope id c.la.ker.cohlv) with
      | (some p, s) => .wait (keepProgress s c p [])
      | (none, s) =>
        let s := onTeam (clearProgress s c) c.x.team fun t =>
          { t with arrived := if t.arrived.contains (id, c.x.num) then t.arrived else t.arrived ++ [(id, c.x.num)] }
        .wait (setBar s c (some ⟨id, none⟩))

/-- R361 `tbar`. -/
def execTbar (f : DOps) (s : State) : Host.Outcome State Fault Refusal := issueInstr (.tbar f) s (barEffect .team f.d)

/-- R361 `abar`. -/
def execAbar (f : AbarOps) (s : State) : Host.Outcome State Fault Refusal :=
  issueInstr (.abar f) s (barEffect (.asm f.idx.toNat) f.d)

/-- R361 `cbar`. -/
def execCbar (f : DOps) (s : State) : Host.Outcome State Fault Refusal := issueInstr (.cbar f) s (barEffect .cohort f.d)

/-- A team has arrived at a barrier: each of its waves has, or has ended. -/
def teamArrived (s : State) (t : Team) (id : BarId) : Bool :=
  t.waves.all fun w => match findWave s w with
    | none => true
    | some x => x.alive = 0 || t.arrived.contains (id, x.num)

/-- The members of a barrier other than by team: `%cteam` values. -/
def barMembers (la : Launch) (id : BarId) : List Nat :=
  match id with
  | .asm e => la.ker.asms.getD e []
  | _ => List.range la.ker.cohn

/-- The resident team of a member. -/
def memberTeam (s : State) (launch cohort j : Nat) : Option (Nat × Team) :=
  s.teams.find? fun e => e.2.launch = launch && e.2.cohort = some (cohort, j)

/-- The teams that take part in a barrier of team `tid`, and whether it is complete and marked absent (R362). -/
def barState (s : State) (tid : Nat) (t : Team) (id : BarId) : List Nat × Bool × Bool :=
  match id, t.cohort, findLaunch s t.launch with
  | .team, _, _ => ([tid], teamArrived s t id, false)
  | id, some (c, _), some la =>
    let ms := barMembers la id
    let killed (j : Nat) : Bool := la.killed.contains (c, j)
    let done (j : Nat) : Bool := killed j || la.gone.contains (c, j) || match memberTeam s t.launch c j with
      | some (_, u) => teamArrived s u id
      | none => false
    (ms.filterMap fun j => if killed j then none else (memberTeam s t.launch c j).map (·.1), ms.all done, ms.any killed)
  | _, _, _ => ([tid], teamArrived s t id, false)

/-- The barriers with arrivals. -/
def barList (s : State) : List (Nat × BarId) :=
  s.teams.flatMap fun e => ((e.2.arrived.map (·.1)).eraseDups).map fun id => (e.1, id)

/-- A slot that waits at a barrier may go on, with the absent mark for its g[D]. -/
def wakeSlot (id : BarId) (absent : Bool) (sl : Slot) : Slot :=
  match sl.bar with
  | some b => if b.id = id && b.passed.isNone then { sl with bar := some ⟨id, some absent⟩ } else sl
  | none => sl

/-- The slots of a wave that wait at a barrier resume, the program's too while its handler runs (R362, R379). -/
def wakeWave (id : BarId) (absent : Bool) (x : Wave) : Wave :=
  { x with a := wakeSlot id absent x.a, b := wakeSlot id absent x.b,
           saved := x.saved.map fun p => { p with a := wakeSlot id absent p.a, b := wakeSlot id absent p.b } }

/-- A generation of a team's barrier completes: the acquire, the results, the count (R362, R363). -/
def passBarrier (s : State) (id : BarId) (absent : Bool) (tid : Nat) : State :=
  match findTeam s tid with
  | none => s
  | some t =>
    let level := ((findLaunch s t.launch).map fun l => l.ker.cohlv).getD 0
    let s := t.waves.foldl (fun u w => onWave u w (wakeWave id absent)) s
    let s := onTeam s tid fun t =>
      { t with arrived := t.arrived.filter fun a => a.1 ≠ id, gens := kvPut t.gens id (kvGet t.gens id 0 + 1) }
    selfInvalidate s t.cl (barScope id level)

/-- R362: barrier `n` completes when every member has arrived. -/
def completeBarrier (s : State) (n : Nat) : State :=
  match (barList s)[n]? with
  | none => s
  | some (tid, id) =>
    match findTeam s tid with
    | none => s
    | some t =>
      let (ts, full, absent) := barState s tid t id
      if full then ts.foldl (fun u k => passBarrier u id absent k) s else s

/-- R362. -/
def execBarrierComplete (n : Nat) (s : State) : Host.Outcome State Fault Refusal := .next (completeBarrier s n)

end Sys2Proof.Machine
end

