-- ==== Sys2Proof/Machine/Tlb.lean ====
section
/-! DEFINITION. Changing page tables: `tlbop` and the host's command block (R406 to R408), the shootdown (R409, R419) and
the retirement of an ASID generation (R411, R412). -/

namespace Sys2Proof.Machine

/-! Pages. -/

/-- A TLB entry maps some part of the page of `va` at a level. -/
def overlapsPage (va level : Nat) (e : TlbEntry) : Bool :=
  let big := max (pageBytes level) (pageBytes e.level)
  e.field = va / 2 ^ 52 && e.page * pageBytes e.level / big = va % 2 ^ 52 / big

/-- Requests for lines that a test picks are under way. -/
def requestsFor (s : State) (p : AsidTag → Nat → Bool) : Bool :=
  (s.net ++ s.nacked ++ s.txns.map (·.msg)).any fun m => p m.tag m.line

/-! Writing back and dropping cached lines. -/

/-- The place of a node's dirty words over those of the levels above: inner words are the newer. -/
def nodeDepth : Node → Nat
  | .stk _ => 0
  | .die _ => 1
  | .l1 _ => 2
  | _ => 3

/-- The nodes that hold dirty words of a line, outermost first. -/
def dirtyNodes (s : State) (tag : AsidTag) (line : Nat) : List Node :=
  let ns := (s.caches.filterMap fun e =>
    if e.1.tag = tag && lineOf e.1.va = line && e.2.dirty && !e.2.stale then some e.1.node else none).eraseDups
  (List.range 4).flatMap fun d => ns.filter fun n => nodeDepth n = d

/-- The newest dirty words of a line. -/
def newestWords (s : State) (tag : AsidTag) (line : Nat) : List MWordData :=
  (dirtyNodes s tag line).foldl (fun ws n => overlay ws (dirtyWords s n tag line)) []

/-- Every cache of the package writes back the dirty words of the lines that a test picks, and drops the lines, with their
directory records (R409 step 3, R411); a record of a fenced child is walked first (R273). -/
def flushLines (s : State) (p : AsidTag → Nat → Bool) : State :=
  let s := (s.dirs.filter fun e => p e.1.tag e.1.line).foldl (fun t e => walkAhead t e.1.node e.1.tag e.1.line) s
  let lines := (s.caches.filterMap fun e =>
    if p e.1.tag (lineOf e.1.va) && e.2.dirty && !e.2.stale then some (e.1.tag, lineOf e.1.va) else none).eraseDups
  let s := lines.foldl (fun t e => homeStore t e.1 e.2 (newestWords s e.1 e.2)) s
  { s with
    caches := s.caches.filter fun e => !p e.1.tag (lineOf e.1.va)
    dirs := s.dirs.filter fun e => !p e.1.tag e.1.line
    lru := s.lru.filter fun e => !((List.range 4).all fun i => p e.2.1 (4 * e.2.2 + i))
    l1ways := s.l1ways.filter fun e => !((List.range 4).all fun i => p e.tag (4 * e.blk + i))
    ntLines := s.ntLines.filter fun e => !p e.2.1 e.2.2
    icache := s.icache.filter fun e => !p e.1.2.1 (lineOf e.1.2.2) }

/-! The shootdown. -/

/-- The home caches write back and drop their lines of some frames. -/
def dropHome (s : State) (pa n : Nat) : State :=
  (s.homeLines.flatMap fun e => (e.2.filter fun l => pa ≤ 128 * l.line && 128 * l.line < pa + n).map fun l =>
    (e.1, l)).foldl (fun t e => evictHome t e.1 e.2) s

/-- Rewriting a frame under a new layout (R419): what is uncorrectable under the old layout is poisoned at its severity, and a
layout with mirrors gets them, free of errors of their own. -/
def changeLayout (s : State) (tag : AsidTag) (va level : Nat) (old new : DWord) : State :=
  let pa := ptePa old
  let n := pageBytes level
  let base := va / n * n
  let policy := policyOf s tag.asid
  let sectors := ((policy.2.flips.map (·.sector)).filter fun k => pa ≤ 32 * k && 32 * k < pa + n).eraseDups
  let s := sectors.foldl (fun t k =>
    let who := some (tag, base + (32 * k - pa))
    if pteLayout old = 4 && !(copyBad t k && copyBad t (k + n / 32)) then settleScale t who k (k + n / 32)
    else match flipAt t k with
      | some f => meetErrors t who k (pteLayout old) policy.1 [] true f
      | none => t) policy.2
  if pteLayout new = 4 then
    let cells := s.dram.filter fun c => pa ≤ c.1 && c.1 < pa + n
    let within (base : Nat) (w : Nat) : Bool := base ≤ 4 * w && 4 * w < base + n
    let marks := s.dramPoison.filter (within pa)
    let s := (s.dramPoison.filter (within (pa + n))).foldl (fun t w => clearPoison t (4 * w)) s
    marks.foldl (fun t w => poisonWord t (4 * w + n)) { s with
      dram := cells.foldl (fun m c => memWrite m (c.1 + n) c.2) (memClear s.dram (pa + n) n)
      flips := s.flips.filter fun f => !(pa + n ≤ 32 * f.sector && 32 * f.sector < pa + 2 * n) }
  else s

/-- The leaf write of a shootdown: where it lies, what it was and what it becomes. -/
structure LeafWrite where
  addr : Nat
  old : DWord
  new : DWord
  deriving DecidableEq, Repr

/-- Steps 3 to 5 of a shootdown (R409). -/
def shootdown (s : State) (tag : AsidTag) (va level : Nat) (leaf : Option LeafWrite) : State :=
  let s := flushLines s fun t line => t = tag && samePage level va (128 * line)
  let s := match leaf with
    | none => s
    | some w =>
      let same := pteV w.old && pteLeaf w.old && pteV w.new && ptePa w.old = ptePa w.new
      let s := if pteV w.old && pteLeaf w.old then dropHome s (ptePa w.old) (pageBytes level) else s
      let s := if same && pteLayout w.old ≠ pteLayout w.new then changeLayout s tag va level w.old w.new else s
      metaWrite s w.addr w.new
  { s with
    tlbs := s.tlbs.map fun e => (e.1, e.2.filter fun x => !(x.tag = tag && overlapsPage va level x))
    walkCache := s.walkCache.map fun e =>
      (e.1, e.2.filter fun x => !(x.tag.asid = tag.asid && x.field = va / 2 ^ 52)) }

/-- An instruction of a wave has had addresses of the page translated and has not performed all its accesses. -/
def halfDone (s : State) (asid : BitVec 16) (va level : Nat) : Bool :=
  s.waves.any fun w => (w.2.progress.any fun p => p.vas.any fun v => samePage level va v) &&
    (launchOfWave s w.1).any fun l => l.2.tag.asid = asid

/-- Every request for a page that was translated before has been performed (R409 step 2). -/
def pageQuiet (s : State) (tag : AsidTag) (va level : Nat) : Bool :=
  !halfDone s tag.asid va level && !requestsFor s fun t line => t.asid = tag.asid && samePage level va (128 * line)

/-! The operations on a leaf. -/

/-- The entry of a VA at a level, by table pointers from `p` at `at'` on; none where the walk ends above it (R408). -/
def leafSlot (s : State) (va level : Nat) (p : DWord) (at' : Nat) : Nat → Option (Nat × DWord) × State
  | 0 => (none, s)
  | fuel + 1 =>
    if !pteV p || pointerMalformed p || homeFenced s (pteHome p) then (none, s)
    else
      let addr := ptePa p + 8 * (va / 2 ^ levelShift at' % 1024)
      match metaRead s addr with
      | (none, s) => (none, retireFrame s addr)
      | (some e, s) => if at' = level then (some (addr, e), s) else leafSlot s va level e (at' + 1) fuel

/-- The entry of a VA at a level of an ASID's tree, by the table pointers alone (R397, R408; log entry 117). -/
def findLeaf (s : State) (asid : BitVec 16) (va level : Nat) : Option (Nat × DWord) × State :=
  let ent := asidEntry s asid
  if noDram ent || homeFenced s (ent / 2 ^ 40) then (none, s)
  else match metaRead s (ent + 8 * (va / 2 ^ 52)) with
    | (none, s) => (none, s)
    | (some root, s) => leafSlot s va level root 0 4

/-- A VA that no page of the size starts at (R408). -/
def pageMisplaced (va level : Nat) : Bool := !canonical va || va % pageBytes level ≠ 0

/-- What an operation on one page comes to: a result code, or a wait for the requests of a page, named by an address and its
level. -/
inductive PageOp where
  | result (r : Nat) (s : State)
  | wait (va level : Nat) (s : State)
  deriving DecidableEq, Repr

def withQuiet (s : State) (tag : AsidTag) (va level : Nat) (k : State) : PageOp :=
  if pageQuiet s tag va level then .result 0 k else .wait va level s

/-- `map` (R408). -/
def mapPage (s : State) (tag : AsidTag) (va : Nat) (pte : DWord) (size : Nat) (repl : Bool) : PageOp :=
  let level := sizeLevel size
  if pageMisplaced va level || !pteV pte || leafMalformed level pte then .result 3 s
  else match findLeaf s tag.asid va level with
    | (none, s) => .result 2 s
    | (some (addr, old), s) =>
      if pteV old && !repl then .result 1 s
      else withQuiet s tag va level (shootdown s tag va level (some ⟨addr, old, pte⟩))

/-- `unmap` (R408). -/
def unmapPage (s : State) (tag : AsidTag) (va size : Nat) : PageOp :=
  let level := sizeLevel size
  if pageMisplaced va level then .result 3 s
  else match findLeaf s tag.asid va level with
    | (none, s) => .result 2 s
    | (some (addr, old), s) =>
      if !pteV old || !pteLeaf old then .result 1 s
      else withQuiet s tag va level (shootdown s tag va level (some ⟨addr, old, 0⟩))

/-- `inval` (R408): the shootdown of the page that holds VA. -/
def invalPage (s : State) (tag : AsidTag) (va size : Nat) : PageOp :=
  if !canonical va then .result 0 s
  else withQuiet s tag va (sizeLevel size) (shootdown s tag va (sizeLevel size) none)

/-! Retiring a generation. -/

/-- The ASID's table entry takes a new generation. -/
def writeGen (s : State) (asid : BitVec 16) (g : BitVec 8) : State :=
  let a := asidEntry s asid + 0x79
  if noDram a then s
  else
    let s := dirtyHome (settle s none (metaAt a)) (metaAt a)
    { s with dram := memWrite s.dram a g }

/-- Everything resident or queued of an ASID carries the new generation. -/
def renewTags (s : State) (asid : BitVec 16) (g : BitVec 8) : State :=
  let new (t : AsidTag) : AsidTag := if t.asid = asid then ⟨asid, g⟩ else t
  { s with
    launches := s.launches.map fun e => (e.1, { e.2 with tag := new e.2.tag })
    teams := s.teams.map fun e => (e.1, { e.2 with tag := new e.2.tag })
    copies := s.copies.map fun e => (e.1, { e.2 with tag := new e.2.tag })
    devq := s.devq.map fun e => { e with tag := new e.tag } }

/-- `retire` (R411, R412); none while requests of the ASID are under way. -/
def retireAsid (s : State) (asid : BitVec 16) : Option State :=
  if requestsFor s fun t _ => t.asid = asid then none
  else
    let gen := asidGen s asid
    let g := gen + 1
    let old (t : AsidTag) : Bool := t.asid = asid && (t.gen = gen || g = 0)
    let s := flushLines s fun t _ => old t
    let s := { s with
      tlbs := s.tlbs.map fun e => (e.1, e.2.filter fun x => !old x.tag)
      walkCache := s.walkCache.map fun e => (e.1, e.2.filter fun x => !old x.tag) }
    some (renewTags (writeGen s asid g) asid g)

/-! `tlbop`. -/

/-- What the lanes of a `tlbop` come to in turn: the page that one waits for, if any, and the results of those that have
finished. -/
def pageLanes (op : State → AtomLane → PageOp) :
    List AtomLane → List (Nat × Nat × Bool) → State → Option (Nat × Nat) × List (Nat × Nat × Bool) × State
  | [], rs, s => (none, rs, s)
  | l :: rest, rs, s =>
    if rs.any fun r => r.1 = l.lane then pageLanes op rest rs s
    else match op s l with
      | .wait va level s => (some (va, level), rs, s)
      | .result r s => pageLanes op rest (rs ++ [(l.lane, r, false)]) s

/-- The mark of a `tlbop` that a home has accepted. -/
def pageMark : Nat := 1004

/-- The VAs that the lanes of a `tlbop` read. -/
def pageOperands (s : State) (c : Ctx) (a : BitVec 6) : List AtomLane :=
  addrLanes (c.lanes.map fun l => (l, (srcPair s c false a l).toNat))

/-- `tlbop` SUB 0 to 2: `op` acts for a lane; `d` takes the results. The page it waits for is not translated meanwhile. -/
def pageEffect (op : State → AtomLane → PageOp) (d : Option (BitVec 6)) (c : Ctx) (s : State) (ls : List AtomLane) : Effect :=
  match pageLanes op ls (resultsOf c) s with
  | (some (va, level), rs, s) =>
    .wait (onWave (keepProgress s c pageMark rs) c.w fun x =>
      { x with progress := x.progress.map fun p => { p with shoot := some (c.tag.asid, va, level) } })
  | (none, rs, s) =>
    let value (l : Nat) : Word := match rs.find? fun r => r.1 = l with
      | some r => BitVec.ofNat 32 r.2.1
      | none => 0
    results (clearProgress s c) (match d with
      | some d => eachResult c false d value
      | none => [])

/-- R408 `tlbop.map`. -/
def execTlbopMap (f : TlbMapOps) (s : State) : Host.Outcome State Fault Refusal :=
  issueInstr (.tlbopMap f) s fun c s =>
    overOperands c (c.lanes.map fun l => ⟨l, (srcPair s c false f.a l).toNat, (srcPair s c false f.b l).toNat, 0⟩)
      (pageEffect (fun t l => mapPage t c.tag l.va (BitVec.ofNat 64 l.x) f.size.toNat f.repl) (some f.d) c s)

/-- R408 `tlbop.unmap`. -/
def execTlbopUnmap (f : TlbPageOps) (s : State) : Host.Outcome State Fault Refusal :=
  issueInstr (.tlbopUnmap f) s fun c s =>
    overOperands c (pageOperands s c f.a) (pageEffect (fun t l => unmapPage t c.tag l.va f.size.toNat) (some f.d) c s)

/-- R408 `tlbop.inval`. -/
def execTlbopInval (f : TlbPageOps) (s : State) : Host.Outcome State Fault Refusal :=
  issueInstr (.tlbopInval f) s fun c s =>
    overOperands c (pageOperands s c f.a) (pageEffect (fun t l => invalPage t c.tag l.va f.size.toNat) none c s)

/-- R411 `tlbop.retire`: once for the wave, by the lowest lane of `act`. -/
def execTlbopRetire (f : AOps) (s : State) : Host.Outcome State Fault Refusal :=
  issueInstr (.tlbopRetire f) s fun c s =>
    overOperands c (addrLanes (c.lanes.map fun l => (l, (srcLane s c f.a l).toNat))) fun
    | [] => results s []
    | l :: _ =>
      match retireAsid s (BitVec.ofNat 16 l.va) with
      | none => .wait (keepProgress s c pageMark [])
      | some t => results (clearProgress t c) []

/-! The host's command block (R406). -/

/-- The block's operation as far as it goes now: a result once it is done. -/
def tlbCmdOp (s : State) : PageOp :=
  let k := s.tlbCmd
  let tag : AsidTag := ⟨k.asid, asidGen s k.asid⟩
  let va := k.va.toNat
  if k.op = 3 then
    match retireAsid s k.asid with
    | none => .wait 0 0 s
    | some t => .result 0 t
  else if k.size = 3 then .result 3 s
  else if k.op = 0 then mapPage s tag va k.pte k.size.toNat k.repl
  else if k.op = 1 then unmapPage s tag va k.size.toNat
  else invalPage s tag va k.size.toNat

/-- The running command goes as far as it can. -/
def tlbCmdGo (s : State) : State :=
  match tlbCmdOp s with
  | .wait _ _ s => s
  | .result r s => { s with tlbCmd := { s.tlbCmd with busy := false, result := BitVec.ofNat 2 r } }

/-- GO with an operation (R406): ignored while a command runs. -/
def tlbCmd (s : State) (op : BitVec 2) : State :=
  if s.tlbCmd.busy then s
  else tlbCmdGo { s with tlbCmd := { s.tlbCmd with op, busy := true } }

/-- R406, R408: the block's map. -/
def execTlbCmdMap (s : State) : Host.Outcome State Fault Refusal := hostCommand s fun s => tlbCmd s 0

/-- R406, R408: the block's unmap. -/
def execTlbCmdUnmap (s : State) : Host.Outcome State Fault Refusal := hostCommand s fun s => tlbCmd s 1

/-- R406, R408: the block's inval. -/
def execTlbCmdInval (s : State) : Host.Outcome State Fault Refusal := hostCommand s fun s => tlbCmd s 2

/-- R406, R411: the block's retire. -/
def execTlbCmdRetire (s : State) : Host.Outcome State Fault Refusal := hostCommand s fun s => tlbCmd s 3

/-- R398: a walk for an address of an ASID. -/
def execPageWalk (asid va : Nat) (acc : Acc) (sup : Bool) (s : State) : Host.Outcome State Fault Refusal :=
  let a := BitVec.ofNat 16 asid
  .next (if canonical va then (translate s ⟨a, asidGen s a⟩ va acc sup).2 else s)

end Sys2Proof.Machine
end

