-- ==== Sys2Proof/Machine/Waves.lean ====
section
/-! DEFINITION. What happens to a wave between its instructions: the fetch of a clause (R44 to R56, R388, R400, R436), results
that land (R70), waiting local accesses (R221), the refill of its fork stack (R165), timers (R50, R127, R169, R368) and a
pending trap (R380). -/

namespace Sys2Proof.Machine

/-! Fetching text. -/

/-- A text address lies in a removed range of its ASID (R436). -/
def removedText (s : State) (asid : BitVec 16) (va : Nat) : Bool :=
  s.codes.any fun o => o.removed && o.asid = asid && o.base ≤ va && va < o.base + o.size

/-- A text address lies in the range that a running patch writes (R438). -/
def inPatch (s : State) (asid : BitVec 16) (va : Nat) : Bool :=
  let dst := s.patch.dst.toNat / 4 * 4
  s.patch.busy && asid = s.patch.asid && dst ≤ va && va < dst + 4 * (s.patch.nw.toNat + 1)

/-- A clause at a header may have words in that range: its fetch is held (R438). -/
def patchHolds (s : State) (asid : BitVec 16) (header : Nat) : Bool :=
  (List.range 31).any fun i => inPatch s asid (header + 4 * i)

/-- The fetch of a clause waits: for a patch (R438), or for the shootdown of its page (R409). -/
def fetchHeld (s : State) (tag : AsidTag) (header : Nat) : Bool :=
  patchHolds s tag.asid header || shooting s tag.asid header || shooting s tag.asid (header + 120)

/-- What a fetch of one word meets. -/
inductive Fetched where
  | word (w : Word)
  | poisoned
  | revoked
  | refused (kind : Nat)
  deriving DecidableEq, Repr

/-- A word of text kept in a cluster's instruction cache of 128 KiB, whose oldest word leaves for it (R17; log entry 24). -/
def keepText (s : State) (cl : Nat) (tag : AsidTag) (va : Nat) (w : Word) : State :=
  let text := kvPut s.icache (cl, tag, va) w
  let here := text.filter fun e => e.1.1 = cl
  if here.length ≤ 2 ^ 15 then { s with icache := text }
  else match here.head? with
    | some e => { s with icache := kvErase text e.1 }
    | none => { s with icache := text }

/-- One word of text: checked at its home every time, taken from the cluster's instruction cache where that holds it. -/
def fetchWord (s : State) (cl : Nat) (tag : AsidTag) (sup : Bool) (va : Nat) : Fetched × State :=
  if !canonical va then (.refused 2, s)
  else if removedText s tag.asid va then (.revoked, s)
  else match translate s tag va .fetch sup with
    | (.refused 1, s) => (.revoked, s)
    | (.refused k, s) => (.refused k, s)
    | (.lost, s) => (.poisoned, s)
    | (.ok p _, s) =>
      match kvFind s.icache (cl, tag, va) with
      | some w => (.word w, s)
      | none =>
        let s := settle s (some (tag, va)) p
        let x := physWord s p
        if x.2 then (.poisoned, s) else (.word x.1, keepText s cl tag va x.1)

/-- The words fetched so far, and what stopped the fetch at an address. -/
structure ClauseText where
  words : List Word
  stop : Option (Nat × Fetched)
  deriving DecidableEq, Repr

/-- The words of `n` instructions from an address on. -/
def fetchInstrs (s : State) (cl : Nat) (tag : AsidTag) (sup : Bool) (va : Nat) : Nat → ClauseText × State
  | 0 => (⟨[], none⟩, s)
  | n + 1 =>
    match fetchWord s cl tag sup va with
    | (.word w0, s) =>
      if twoWord w0 then
        match fetchWord s cl tag sup (va + 4) with
        | (.word w1, s) =>
          let (t, s) := fetchInstrs s cl tag sup (va + 8) n
          (⟨w0 :: w1 :: t.words, t.stop⟩, s)
        | (e, s) => (⟨[w0], some (va + 4, e)⟩, s)
      else
        let (t, s) := fetchInstrs s cl tag sup (va + 4) n
        (⟨w0 :: t.words, t.stop⟩, s)
    | (e, s) => (⟨[], some (va, e)⟩, s)

/-- Every word of the clause at a header (R45, R55). -/
def fetchClause (s : State) (cl : Nat) (tag : AsidTag) (sup : Bool) (va : Nat) : ClauseText × State :=
  match fetchWord s cl tag sup va with
  | (.word h, s) =>
    let (t, s) := fetchInstrs s cl tag sup (va + 4) (field h 0 4).toNat
    (⟨h :: t.words, t.stop⟩, s)
  | (e, s) => (⟨[], some (va, e)⟩, s)

/-! The checks of R55. -/

/-- Nibble `j` of a word. -/
def nibble (w : Word) (j : Nat) : BitVec 4 := field w (4 * j) 4

/-- The header check nibble (R49). -/
def headerCheck (w : Word) : BitVec 4 :=
  nibble w 0 ^^^ nibble w 1 ^^^ nibble w 2 ^^^ nibble w 3 ^^^ nibble w 4 ^^^ nibble w 6 ^^^ nibble w 7

/-- The header fails step 1: TAG, HC, reserved bits, NI = 0. -/
def headerBad (w : Word) : Bool :=
  nibble w 7 ≠ 0b1010 || nibble w 5 ≠ headerCheck w || nibble w 6 ≠ 0 || nibble w 0 = 0

/-- The engine class of an opcode (R52); none for 0x7F, which matches every class. -/
def engineClass (op : Nat) : Option Nat :=
  if op < 0x30 || op = 0x60 || op = 0x61 then some 0
  else if op = 0x4C || op = 0x4D || (0x50 ≤ op && op < 0x58) then some 1
  else if op < 0x50 || op = 0x62 then some 2
  else if 0x63 ≤ op && op ≤ 0x6A then some 3
  else if 0x6B ≤ op && op ≤ 0x6D then some 4
  else if 0x6E ≤ op && op ≤ 0x72 then some 5
  else if op = 0x7F then none
  else some 6

/-- The opcodes of the control transfers (R47). -/
def transferOp (op : Nat) : Bool :=
  op = 0x58 || op = 0x5B || op = 0x5C || op = 0x5D || op = 0x77 || op = 0x7A || op = 0x7B

/-- The FOL bit of a matrix instruction's words (R54, R306). -/
def folBit (w0 w1 : Word) : Bool := 0x6E ≤ opcodeOf w0 && opcodeOf w0 ≤ 0x72 && w1.getLsbD 20

/-- The instructions of a clause fail step 2: class, place of a transfer, FOL; `prev` is the opcode before. -/
def instrsBad (eng : Nat) : List Word → Nat → Nat → Bool
  | [], _, _ => false
  | w0 :: rest, prev, fuel =>
    match fuel with
    | 0 => false
    | fuel + 1 =>
      let op := opcodeOf w0
      let w1 := if twoWord w0 then rest.headD 0 else 0
      let after := if twoWord w0 then rest.tail else rest
      let wrong : Bool := match engineClass op with
        | some k => eng ≠ 7 && eng ≠ k
        | none => false
      wrong || (transferOp op && !after.isEmpty) || (folBit w0 w1 && prev ≠ 0x6B) || instrsBad eng after op fuel

/-- The cause of the clause trap that fetched words meet, 0 for none. -/
def clauseCause (ws : List Word) : Nat :=
  let h := ws.headD 0
  if headerBad h then 1 else if instrsBad (field h 4 3).toNat ws.tail 0 31 then 3 else 0

/-- The word offsets at which instructions of a clause start, from offset `at'` on. -/
def instrStarts : List Word → Nat → Nat → List Nat
  | [], _, _ => []
  | w0 :: rest, at', fuel =>
    match fuel with
    | 0 => []
    | fuel + 1 =>
      if twoWord w0 then at' :: instrStarts rest.tail (at' + 2) fuel else at' :: instrStarts rest (at' + 1) fuel

/-! What a fetch leads to. -/

/-- The frame of a trap that no instruction raised. -/
def fetchInfo (b : Bool) (cause : Nat) (pc : BitVec 56) (woff : Nat) (m : LaneMask) (acc : Nat)
    (lanes : List (Nat × DWord × Word)) : TrapInfo :=
  { b, cause, issued := false, pc, woff, w0 := 0, w1 := 0, act0 := 0, f := m, acc, spl := false, code := 0, lanes }

/-- Each lane of a mask with one address and v50 word. -/
def sameForAll (m : LaneMask) (va : Nat) (k : Word) : List (Nat × DWord × Word) :=
  (lanesOf m).map fun l => (l, BitVec.ofNat 64 va, k)

/-- A word could not be fetched (R55, R400, R401, R425). -/
def fetchStopped (s : State) (r : SlotRef) (x : Wave) (tag : AsidTag) (kabort : Bool) (va : Nat) (e : Fetched) : State :=
  let sl := slotOf x r.b
  let m := sl.m &&& x.alive
  match e with
  | .word _ => s
  | .poisoned =>
    if kabort then takeTrap s r.wave (fetchInfo r.b 8 sl.pc sl.woff m 0 [])
    else killByPoison s r.wave tag m sl.pc
  | .revoked => takeTrap s r.wave (fetchInfo r.b 12 sl.pc sl.woff m 3 (sameForAll m va 0))
  | .refused k =>
    let q := waveAsker r.wave tag x.super 3
    let go (s : State) : State := takeTrap s r.wave (fetchInfo r.b 5 sl.pc sl.woff m 3 (sameForAll m va (v50Word k va)))
    if k = 2 then go s
    else match writeFault s (homeOf va) (q.record va k) with
      | (true, s) => go s
      | (false, s) => s

/-- A clause trap: the frame names the header (R55). -/
def clauseTrap (s : State) (r : SlotRef) (cause : Nat) (header : BitVec 56) (word : Word) : State :=
  let s := onSlot s r fun sl => { sl with act := none, joined := false }
  takeTrap s r.wave { fetchInfo r.b cause header 0 0 0 [] with w0 := word }

/-- A resumption at a place that is no instruction (R388). -/
def resumeTrap (s : State) (r : SlotRef) (x : Wave) (ws : List Word) : State :=
  let sl := slotOf x r.b
  let f := (sl.act.getD sl.m) &&& x.alive
  let w0 := ws.getD sl.woff 0
  takeTrap s r.wave
    { fetchInfo r.b 1 sl.pc sl.woff f 0 [] with
      issued := true, act0 := f, w0, w1 := if twoWord w0 then ws.getD (sl.woff + 1) 0 else 0 }

/-- The word of a completed `join` is folded now that its clause is there: the word before the one to go on at (R172). -/
def foldJoin (sigOn super : Bool) (ws : List Word) (sl : Slot) : Slot :=
  { sl with
    joined := false
    sig := if sl.joined && sigOn && !super then foldSig sl.sig (ws.getD (sl.woff - 1) 0) else sl.sig }

/-- The slot goes on in a clause that has passed its checks. -/
def enterClause (sigOn super : Bool) (header : BitVec 56) (ws : List Word) (sl : Slot) : Slot :=
  let sl := foldJoin sigOn super ws sl
  if sl.woff = 0 then { sl with clause := ws, header := ws.head?, pc := header + 4, woff := 1 }
  else if sl.woff = ws.length then { sl with clause := [], header := none, woff := 0, act := none }
  else { sl with clause := ws, header := ws.head? }

/-- R55, R56: the slot fetches the clause that its pc stands in. It takes place only where nothing of the wave's
other slot is half done and no trap is pending (R379), and waits while the text's page waits for its shootdown (R409). -/
def fetchSlot (s : State) (r : SlotRef) : State :=
  match findWave s r.wave, launchOfWave s r.wave with
  | some x, some (_, la) =>
    let sl := slotOf x r.b
    if sl.st ≠ .run || !sl.clause.isEmpty || (x.progress.any fun p => p.b ≠ r.b) || x.pending.isSome then s
    else
      let header := sl.pc - BitVec.ofNat 56 (4 * sl.woff)
      if fetchHeld s la.tag header.toNat then s
      else
      let (t, s) := fetchClause s (clusterOf r.wave) la.tag x.super header.toNat
      match t.stop with
      | some (va, e) => settleSlots (fetchStopped s r x la.tag la.rcd.kabort va e) r.wave la.ker.sig 64
      | none =>
        let cause := if sl.woff ≠ 0 && sl.header = t.words.head? then 0 else clauseCause t.words
        if cause ≠ 0 then clauseTrap s r cause header (t.words.headD 0)
        else if sl.woff = 0 || sl.woff = t.words.length || (instrStarts t.words.tail 1 31).contains sl.woff then
          onSlot s r (enterClause la.ker.sig x.super header t.words)
        else resumeTrap s r x t.words
  | _, _ => s

/-- R55. -/
def execClauseFetch (r : SlotRef) (s : State) : Host.Outcome State Fault Refusal := .next (fetchSlot s r)

/-! Results and waits. -/

/-- R70: entry `n` of a wave's results under lookahead lands. -/
def execLoadCompletion (w n : Nat) (s : State) : Host.Outcome State Fault Refusal := .next (landOne s w n)

/-- R221: entry `n` of a wave's waiting local accesses is performed as far as it can be. -/
def execLocalAccessPerformed (w n : Nat) (s : State) : Host.Outcome State Fault Refusal := .next (performWaiting s w n)

/-! Times. Each has its effect once its cycles have passed. -/

/-- Cycles of a cluster's clock since a time: `%clock` counts 2000 ticks for each cycle of 1 MHz (R146, R456). -/
def cyclesSince (s : State) (cl : Nat) (t : DWord) : Nat :=
  (s.clock - t).toNat * (powerAt s (dieOf cl)).dclk.toNat / 2000

/-- 64 cycles have passed since a time (R127, R368). -/
def longAgo (s : State) (r : SlotRef) (t : DWord) : Bool := 64 ≤ cyclesSince s (clusterOf r.wave) t

/-- A slot's count has run out. -/
def timeUp (s : State) (r : SlotRef) (t : Timer) : Bool := t.cycles ≤ cyclesSince s (clusterOf r.wave) t.since

def slotAt (s : State) (r : SlotRef) : Slot := ((findWave s r.wave).map fun x => slotOf x r.b).getD Slot.idle

/-- The slot of a hold has issued nothing for 64 cycles (R127). -/
def holdOver (s : State) (e : Latch) : Bool := longAgo s e.slot (slotAt s e.slot).issuedAt

/-- R127: the `n`-th hold of a core ends. -/
def execLatchHoldTimeout (core n : Nat) (s : State) : Host.Outcome State Fault Refusal :=
  match ((s.latches.filter fun e => e.core = core)[n]?).filter (holdOver s) with
  | none => .next s
  | some e => .next { s with latches := s.latches.erase e }

/-- R169. -/
def execYieldExpiry (r : SlotRef) (s : State) : Host.Outcome State Fault Refusal :=
  .next (onSlot s r fun sl => { sl with yielding := sl.yielding.filter fun t => !timeUp s r t })

/-- R50. -/
def execYieldHintExpiry (r : SlotRef) (s : State) : Host.Outcome State Fault Refusal :=
  .next (onSlot s r fun sl => { sl with ranked := sl.ranked.filter fun t => !timeUp s r t })

/-- R368. -/
def execIssueAgeLimit (r : SlotRef) (s : State) : Host.Outcome State Fault Refusal :=
  .next (onSlot s r fun sl => if sl.st = .run && sl.since.any (longAgo s r) then { sl with aged := true } else sl)

/-- R380: a pending trap is entered once nothing of the wave is half done; a code-gone trap before the wave issues (R436). -/
def execTrapEntry (w : Nat) (s : State) : Host.Outcome State Fault Refusal :=
  match findWave s w with
  | none => .next s
  | some x => match x.pending with
    | some i => .next (if x.progress.isSome && i.cause ≠ 11 then s else takeTrap s w i)
    | none => .next s

/-! The refill of the fork stack (R165). -/

/-- A word of an address space as the innermost level of a cluster's path to its home has it. -/
def newestOnPath (s : State) (cl : Nat) (tag : AsidTag) (va : Nat) : Option Word :=
  match [Node.l1 cl, .die (dieOf cl), .stk (stackOf cl)].findSome? fun n =>
      (cwAt s n tag va).bind fun c => if c.stale then none else some c.val with
  | some v => some v
  | none => (homeWord s tag va).1.map (·.1)

/-- The lanes of the FORK and PARKED entries of a spilled block. -/
def blockLanes (s : State) (w : Nat) (x : Wave) (tag : AsidTag) (b : Nat) : LaneMask :=
  (List.range 8).foldl (fun m i =>
    let base := x.spillBase + 256 * b + 32 * i
    let d (k : Nat) : Nat :=
      ((newestOnPath s (clusterOf w) tag (base + 8 * k)).getD 0).toNat +
        2 ^ 32 * ((newestOnPath s (clusterOf w) tag (base + 8 * k + 4)).getD 0).toNat
    match entryOf (d 0) (d 1) (d 2) (d 3) with
    | (some e, _) => if e.kind = .saved then m else m ||| e.m
    | (none, _) => m) 0

/-- The program's slots of a wave: the saved ones while its handler runs. -/
def programSlots (x : Wave) : List Slot := match x.saved with
  | some v => [v.a, v.b]
  | none => [x.a, x.b]

/-- A block that cannot be read is discarded: the alive lanes that nothing else holds consume poison. -/
def discardBlock (s : State) (w : Nat) (x : Wave) (tag : AsidTag) : State :=
  let held := (programSlots x).foldl (fun m sl => if sl.st = .idle then m else m ||| sl.m) 0
  let held := (List.range (x.spilled - 1)).foldl (fun m b => m ||| blockLanes s w x tag b) held
  let s := onWave s w fun y => { y with spilled := y.spilled - 1 }
  consumeAside s w (x.alive &&& ~~~held) (slotOf x false).pc

/-- R165: the last spilled block comes back on chip once its words have arrived. -/
def refill (s : State) (w : Nat) : State :=
  match findWave s w, launchOfWave s w with
  | some x, some (_, la) =>
    if x.depth ≠ 0 || x.spilled = 0 || x.alive = 0 then s
    else
      let base := x.spillBase + 256 * (x.spilled - 1)
      let q := forkAsker w la.tag
      if !canonical base then settleWave (discardBlock s w x la.tag) w
      else if shooting s q.tag.asid base then s
      else match translate s q.tag base .load q.sup with
        | (.refused k, s) =>
          let rec' := { q.record base k with deliv := true }
          settleWave (discardBlock (writeFault s (homeOf base) rec').2 w x la.tag) w
        | (_, s) =>
          let want := (List.range 64).map fun i => (i, base + 4 * i)
          let got := gatherWords s q 8 want
          let missing := want.filter fun k => !(got.any fun r => r.1 = k.1)
          if !missing.isEmpty then askWords s q.cl q.tag (missing.map (·.2))
          else
            let s := releaseLines s q [base, base + 128]
            let s := if got.any fun r => r.2.2 then discardBlock s w x la.tag
              else onWave (putWords s q.cl (entryAddr x 0) (got.map fun r => BitVec.ofNat 32 r.2.1)) w fun y =>
                { y with depth := 8, spilled := y.spilled - 1 }
            settleWave s w
  | _, _ => s

/-- R165. -/
def execForkStackRefill (w : Nat) (s : State) : Host.Outcome State Fault Refusal := .next (refill s w)

end Sys2Proof.Machine
end

