-- ==== Sys2Proof/Machine/Banks.lean ====
section
/-! DEFINITION. Banks of a cluster's local store that change (R214 to R217), and the coherence messages and link flits as
events (R25, R266 to R271, R420). -/

namespace Sys2Proof.Machine

/-! Mode changes (R214). -/

/-- A local access of a wave waits on a bank; of those that wait only an `ldl.wf` does not hold a mode change back (R214). -/
def waitsOnBank (b : Nat) (a : LocalAcc) : Bool :=
  !(a.kind = .load && a.fe = 1) && a.lanes.any fun l => bankOf l.addr = b

/-- A copy that has been gathered reads or writes a bank of a cluster. -/
def copyTouches (cl b : Nat) (op : CopyOp) : Bool :=
  op.gathered && op.moves.any fun m =>
    let sl := op.slices.getD m.slice default
    let reads := op.cl = cl && fromLocal sl
    (reads && m.words.any fun w => bankOf w.1 = b) ||
    (dstLocal sl.kind && m.targets.any fun t => t.cl = cl && m.words.any fun w => bankOf ((t.base + w.2) % 2 ^ 64) = b)

/-- A write on its way to a bank. -/
def inboundTouches (s : State) (cl b : Nat) : Bool :=
  s.inbound.any fun i => i.target.cl = cl && i.words.any fun w => bankOf w.1 = b

/-- The banks that a descriptor's rows reach. -/
def descBanks (f nscr : Nat) (m : MatOperand) (planes len : Nat) : List Nat :=
  match m with
  | .bytes _ => []
  | .scratch lo hi => ((List.range planes).flatMap fun p => (List.range 32).flatMap fun i =>
      [descAddr f nscr lo hi p i 0 / 2 ^ 15, descAddr f nscr lo hi p i (len - 1) / 2 ^ 15]).eraseDups

/-- A formed matrix operation still reads an operand from a bank, or an `mmcvt` will write to it. -/
def matTouches (s : State) (cl b : Nat) (op : MatOp) : Bool :=
  op.cl = cl && op.formed && match findTeam s op.team with
  | none => false
  | some t =>
    let f := scratchBase t
    let nscr := ((findLaunch s t.launch).map fun l => l.ker.scr).getD 0
    let kx := suppliedLen (op.kind = .joint) op.fmt
    let planes (fm n : Nat) : Nat := if fm = 0 then n else 1
    match op.kind with
    | .cvtBf16 => (descBanks f nscr op.a 1 64).contains b
    | .cvtNp8 => (descBanks f nscr op.a 8 4).contains b || bankOf op.scaleAddr = b || bankOf (op.scaleAddr + 63) = b
    | _ => !op.started &&
      ((descBanks f nscr op.a (planes (fmtA op.fmt) (planesA op.fmt)) (rowLen (fmtA op.fmt) kx)).contains b ||
        (descBanks f nscr op.b (planes (fmtB op.fmt) (planesB op.fmt)) (rowLen (fmtB op.fmt) kx)).contains b)

/-- Nothing that R214 waits for is under way at a bank. -/
def bankQuiet (s : State) (cl b : Nat) : Bool :=
  !(s.waves.any fun e => clusterOf e.1 = cl && e.2.locals.any (waitsOnBank b)) &&
  !(s.copies.any fun e => copyTouches cl b e.2) && !inboundTouches s cl b && !(s.mats.any fun e => matTouches s cl b e.2)

/-- An L1 that loses a bank writes back and drops the superblocks of that bank's way (R214, R481). -/
def shrinkL1 (s : State) (cl b : Nat) : State :=
  (s.l1ways.filter fun e => e.cl = cl && e.bank = b).foldl (fun t e => evictL1Block t cl e.tag e.blk) s

/-- A bank takes a mode, zeroed (R214). -/
def changeMode (s : State) (cl b : Nat) (m : BankMode) : State :=
  let was := (bankAt s cl b).mode
  let s := onBank (zeroBank s cl b) cl b fun k => { k with mode := m }
  if was = .cache then shrinkL1 s cl b else s

/-- The changes that R214 knows. -/
def modeFits (old new : BankMode) : Bool :=
  match new with
  | .cache => old = .free
  | .free => old = .cache
  | .scr => old = .fifo
  | .fifo => old = .scr
  | .reg => false

/-- R214: the `n`-th mode change asked for is made. One whose bank has changed hands since has nothing left to do. -/
def makeModeChange (s : State) (n : Nat) : State :=
  match s.modeReqs[n]? with
  | none => s
  | some (cl, b, m, _) =>
    let k := bankAt s cl b
    let gone : State := { s with modeReqs := s.modeReqs.eraseIdx n }
    if (s.modeReqs.take n).any fun r => r.1 = cl && r.2.1 = b then s
    else if k.mode = m || k.dead || !modeFits k.mode m then gone
    else if k.copying || !bankQuiet s cl b then s
    else changeMode gone cl b m

/-- R214. -/
def execBankModeChange (n : Nat) (s : State) : Host.Outcome State Fault Refusal := .next (makeModeChange s n)

/-! Retiring a bank (R217). -/

/-- The teams that leave together with one: its cohort, or itself. -/
def leavesWith (s : State) (tid : Nat) : List Nat :=
  match findTeam s tid with
  | none => []
  | some t => match t.cohort with
    | none => [tid]
    | some (c, _) => (s.teams.filter fun e => e.2.launch = t.launch && (e.2.cohort.map (·.1)) = some c).map (·.1)

/-- Asking a team, with its whole cohort, to leave (R355, R356), which Germinal does while it runs (R33). -/
def askLeave (s : State) (tid : Nat) : State :=
  if s.gerLost then s else (leavesWith s tid).foldl (fun t k => onTeam t k fun y => { y with leaving := true }) s

/-- The teams that hold a bank: its owner, and tasks whose windows lie in it (R352). -/
def bankHolders (s : State) (cl b : Nat) : List Nat :=
  (s.teams.filter fun e => e.2.cl = cl && ((bankAt s cl b).owner = some e.1 ||
    (e.2.task && e.2.waves.any fun w => match findWave s w with
      | some x => bankOf x.regbase ≤ b && b ≤ bankOf (x.regbase + windowBytes x - 1)
      | none => false))).map (·.1)

/-- A reservation of task slots that lies on a bank is given up (R352). -/
def dropReservation (s : State) (cl b : Nat) : State :=
  { s with launches := s.launches.map fun e =>
      let banks := (4 * e.2.ker.tslot * (e.2.ker.regs * e.2.ker.width * 4 + 512) + 2 ^ 15 - 1) / 2 ^ 15
      (e.1, { e.2 with taskCl := e.2.taskCl.filter fun c => !(c.1 = cl && c.2.bank ≤ b && b < c.2.bank + banks) }) }

def logBank (s : State) (cl b : Nat) (noSpare : Bool) : State :=
  logError s ⟨7, 0, 0, cl, none, 0, bytesLe 1 b ++ bytesLe 1 (boolNat noSpare)⟩

/-- R217: a bank is retired: its copy to a spare begins; with no spare its teams leave, and it is fenced. -/
def retireBank (s : State) (cl b : Nat) : State :=
  let k := bankAt s cl b
  if 48 ≤ b || k.dead || k.copying then s
  else if sparesAt s cl ≠ 0 && !k.retiring then
    logBank (putBank { s with spares := kvPut s.spares cl (sparesAt s cl - 1) } cl b { k with copying := true }) cl b false
  else
    match bankHolders s cl b with
    | [] =>
      let s := if k.mode = .cache then changeMode s cl b .free else s
      logBank (onBank (dropReservation s cl b) cl b fun k =>
        { k with dead := true, retiring := false, mode := .free, owner := none }) cl b true
    | ts => ts.foldl askLeave (putBank s cl b { k with retiring := true })

/-- R217. -/
def execBankRetire (cl bank : Nat) (s : State) : Host.Outcome State Fault Refusal := .next (retireBank s cl bank)

/-- The granules that could not be read correctly during a copy, free, as the bits of a number. -/
def markUnread (s : State) (cl b lost : Nat) : State :=
  let k := bankAt s cl b
  let gs := (List.range 2048).filter fun g => lost.testBit g
  match k.mode with
  | .scr | .fifo => putBank s cl b { k with pois := gs.foldl (fun l g => setMember l g true) k.pois }
  | .reg => { s with regPoison := s.regPoison ++ gs.flatMap fun g => (List.range 4).map fun j => lsKey cl (b * 2 ^ 15 + 16 * g + 4 * j) }
  | _ => s

/-- R217: the spare answers to the bank's number. -/
def spareReady (s : State) (cl b : Nat) : State :=
  if (bankAt s cl b).copying then
    let (lost, s) := drawNat s (2 ^ 2048)
    onBank (markUnread s cl b lost) cl b fun k => { k with copying := false }
  else s

/-- R217. -/
def execSpareBankCopyDone (cl bank : Nat) (s : State) : Host.Outcome State Fault Refusal := .next (spareReady s cl bank)

/-- R216: a tag becomes reusable. -/
def execTagQuarantineExpiry (cl tag : Nat) (s : State) : Host.Outcome State Fault Refusal :=
  .next { s with quarantine := s.quarantine.filter fun q => !(q.1 = cl && q.2.toNat = tag) }

/-! Coherence messages (R266, R268, R269). -/

/-- R268 `GetS`. -/
def execGetS (n : Nat) (s : State) : Host.Outcome State Fault Refusal := .next (deliver s .getS n)
/-- R268 `GetW`. -/
def execGetW (n : Nat) (s : State) : Host.Outcome State Fault Refusal := .next (deliver s .getW n)
/-- R268 `GetM`. -/
def execGetM (n : Nat) (s : State) : Host.Outcome State Fault Refusal := .next (deliver s .getM n)
/-- R268 `Upg`. -/
def execUpg (n : Nat) (s : State) : Host.Outcome State Fault Refusal := .next (deliver s .upg n)
/-- R266 `FwdS`. -/
def execFwdS (n : Nat) (s : State) : Host.Outcome State Fault Refusal := .next (deliver s .fwdS n)
/-- R266 `FwdM`. -/
def execFwdM (n : Nat) (s : State) : Host.Outcome State Fault Refusal := .next (deliver s .fwdM n)
/-- R269 `Drop`. -/
def execDrop (n : Nat) (s : State) : Host.Outcome State Fault Refusal := .next (deliver s .drop n)
/-- R268 `BackInv`. -/
def execBackInv (n : Nat) (s : State) : Host.Outcome State Fault Refusal := .next (deliver s .backInv n)
/-- R269 `InvAck`. -/
def execInvAck (n : Nat) (s : State) : Host.Outcome State Fault Refusal := .next (deliver s .invAck n)
/-- R266 `DataC`. -/
def execDataC (n : Nat) (s : State) : Host.Outcome State Fault Refusal := .next (deliver s .dataC n)
/-- R266 `DataD`. -/
def execDataD (n : Nat) (s : State) : Host.Outcome State Fault Refusal := .next (deliver s .dataD n)
/-- R268 `WbW`. -/
def execWbW (n : Nat) (s : State) : Host.Outcome State Fault Refusal := .next (deliver s .wbW n)
/-- R268 `WbL`. -/
def execWbL (n : Nat) (s : State) : Host.Outcome State Fault Refusal := .next (deliver s .wbL n)
/-- R271 `Nack`. -/
def execNack (n : Nat) (s : State) : Host.Outcome State Fault Refusal := .next (deliver s .nack n)
/-- R460: the acknowledgement of a `GetW` or `WbW`. -/
def execWriteAck (n : Nat) (s : State) : Host.Outcome State Fault Refusal := .next (deliver s .writeAck n)

/-- R25: a refused request is sent again, in its old place before what its sender has sent since. -/
def execNackReplay (n : Nat) (s : State) : Host.Outcome State Fault Refusal :=
  match s.nacked[n]? with
  | none => .next s
  | some m => .next { s with nacked := s.nacked.eraseIdx n, net := m :: s.net }

/-! Link flits (R420, R448). -/

/-- Every word of a message, data or operand, counts as an uncorrectable error (R420). -/
def poisonWords (m : Msg) : Msg :=
  { m with words := m.words.map fun w => { w with poison := true }, atom := m.atom.map fun r => { r with lost := true } }

/-- The answer of an atomic, its results, counts as an uncorrectable error (R420). -/
def poisonAnswer (m : Msg) : Msg := { m with atom := m.atom.map fun r => { r with lostBack := true } }

/-- What a port sends and a failing flit of it may carry: the words of a peer's read, and a write that its peer has not
acknowledged. -/
def portCarries (p : Nat) (unacked : Bool) : HostSees → Bool
  | .peerWrite q _ _ _ _ => q = p && unacked
  | .peerData q _ _ => q = p
  | _ => false

def poisonSent : HostSees → HostSees
  | .peerWrite q a va ws _ => .peerWrite q a va ws true
  | .peerData q ws _ => .peerData q ws true
  | h => h

/-- The last of what went out through a port that its flit carried is poison. -/
def poisonLast (carries : HostSees → Bool) : List HostSees → List HostSees
  | [] => []
  | h :: rest => if carries h && !rest.any carries then poisonSent h :: rest else h :: poisonLast carries rest

/-- The words that a link's failing flit carried count as uncorrectable errors: those of a message, of an atomic's answer, of
an engine's write, of what a port has sent last (R420; log entry 119). -/
def loseFlit (s : State) : LinkRef → State
  | .message n => { s with net := s.net.modify n poisonWords }
  | .answer n => { s with net := s.net.modify n poisonAnswer }
  | .engine n => { s with inbound := s.inbound.modify n fun i => { i with words := i.words.map fun w => (w.1, w.2.1, true) } }
  | .port p => { s with hostSees := poisonLast (portCarries p !(portAt s p).puts.isEmpty) s.hostSees }

/-- R449: a port counts its replays. -/
def countReplays (s : State) (fails : Nat) : LinkRef → State
  | .port p =>
    let k := portAt s p
    if 8 ≤ p then s else putPort s p { k with retry := BitVec.ofNat 16 (min (k.retry.toNat + min (fails + 1) 16) 0xFFFF) }
  | _ => s

/-- R420, R448, R449. -/
def execFlitReplay (l : LinkRef) (fails : Nat) (s : State) : Host.Outcome State Fault Refusal :=
  let s := countReplays s fails l
  .next (if 16 ≤ fails then loseFlit s l else s)

end Sys2Proof.Machine
end

