-- ==== Sys2Proof/Machine/Home.lean ====
section
/-! DEFINITION. Memory as Germinal, the host and a peer reach it, directly at the home: quiet lines and their recall (R255,
R268), reads, writes and the records of what is refused (R346, R403, R442). -/

namespace Sys2Proof.Machine

/-- No request for a line is under way. -/
def lineQuiet (s : State) (tag : AsidTag) (line : Nat) : Bool := !requestsFor s fun t l => t = tag && l = line

/-- A line is recalled from every cache: its newest dirty words are stored at the home. -/
def recallLine (s : State) (tag : AsidTag) (line : Nat) : State := flushLines s fun t l => t = tag && l = line

/-- An ASID with the generation that the ASID table names now. -/
def tagNow (s : State) (asid : BitVec 16) : AsidTag := ⟨asid, asidGen s asid⟩

/-- What a read of one word at its home meets. -/
inductive Got where
  | word (w : Word)
  | poisoned (w : Word)
  | refused (kind : Nat)
  deriving DecidableEq, Repr

/-- A word at its home. -/
def readHome (s : State) (tag : AsidTag) (va : Nat) (acc : Acc) (sup : Bool) : Got × State :=
  if !canonical va then (.refused 2, s)
  else match translate s tag va acc sup with
    | (.refused k, s) => (.refused k, s)
    | (.lost, s) => (.poisoned 0, s)
    | (.ok p _, s) =>
      let s := settle s (some (tag, va)) p
      let x := physWord s p
      (if x.2 then .poisoned x.1 else .word x.1, s)

/-- A word of a code object: its pages may lack R and may have S = 1 (log entry 40). -/
def readText (s : State) (tag : AsidTag) (va : Nat) : Got × State :=
  match readHome s tag va .load true with
  | (.refused 1, s) => match readHome s tag va .fetch false with
    | (.refused 1, s) => readHome s tag va .fetch true
    | r => r
  | r => r

/-- Words read in turn until one cannot be: the words, and what stopped the read at an address. -/
def readSeq (rd : State → Nat → Got × State) (s : State) (va : Nat) : Nat → List Word × Option (Nat × Got) × State
  | 0 => ([], none, s)
  | n + 1 =>
    match rd s va with
    | (.word w, s) =>
      let (ws, e, s) := readSeq rd s (va + 4) n
      (w :: ws, e, s)
    | (g, s) => ([], some (va, g), s)

/-- Words that Germinal reads as data. -/
def readWords (s : State) (tag : AsidTag) (va n : Nat) : List Word × Option (Nat × Got) × State :=
  readSeq (fun t a => readHome t tag a .load false) s va n

/-- Words of text, all of them or none. -/
def readTexts (s : State) (tag : AsidTag) (va n : Nat) : Option (List Word) × State :=
  match readSeq (fun t a => readText t tag a) s va n with
  | (ws, none, s) => (some ws, s)
  | (_, some _, s) => (none, s)

/-- The record of an access that no wave waits for, marked DELIV when written (R403, R405). -/
def deviceRecord (s : State) (tag : AsidTag) (src acc va kind : Nat) : State :=
  if kind = 2 then s
  else (writeFault s (homeOf va)
    { va := va % 2 ^ 56, tag, kind, acc, src, clu := 0, core := 0, slot := 0, time := 0, deliv := true, waiter := none }).2

/-- The record of a read that Germinal was refused (R346, R364). -/
def germinalRecord (s : State) (tag : AsidTag) (va kind : Nat) : State := deviceRecord s tag 4 0 va kind

/-- A store of whole words to one line by the device: none where the translation is refused, else the words stand at the home
(R366); a fenced home discards them (R32). -/
def storeHome (s : State) (tag : AsidTag) (va : Nat) (ws : List Word) : Option State :=
  if !canonical va || va % 4 ≠ 0 then none
  else match translate s tag va .store false with
    | (.refused _, _) => none
    | (.lost, s) => some s
    | (.ok _ _, s) =>
      let line := lineOf va
      some (homeStore (recallLine s tag line) tag line
        ((List.range ws.length).map fun i => ⟨wordIdx va + i, ws.getD i 0, false⟩))

/-- A store of some bytes of one word by the host or a peer: none where the translation is refused. -/
def storePiece (s : State) (tag : AsidTag) (va : Nat) (bs : List (Option Byte)) (poison : Bool) : Option State :=
  match translate s tag va .store false with
  | (.refused _, _) => none
  | (.lost, s) => some s
  | (.ok p _, s) =>
    let s := settle (recallLine s tag (lineOf va)) (some (tag, va)) p
    let whole := bs.length = 4 && bs.all Option.isSome && va % 4 = 0
    if whole then
      some (physWrite s p 4 (bs.foldr (fun b n => ((b.getD 0).toNat) + 256 * n) 0) poison)
    else
      some ((List.range bs.length).foldl (fun t i => match (bs.getD i none) with
        | some b => physWrite t (p.plus i) 1 b.toNat poison
        | none => t) s)

/-- The `or` of a bit into a word at its home by the device (R351): false where it is refused or meets poison. -/
def orHome (s : State) (tag : AsidTag) (va : Nat) (bit : Nat) : Bool × State :=
  if !canonical va then (false, s)
  else match translate s tag va .atomic false with
    | (.refused _, s) => (false, s)
    | (.lost, s) => (false, s)
    | (.ok p _, s) =>
      let s := settle (recallLine s tag (lineOf va)) (some (tag, va)) p
      let x := physWord s p
      if x.2 then (false, s)
      else (true, physWrite s p.word 4 (x.1 ||| (1#32 <<< bit)).toNat false)

end Sys2Proof.Machine
end

