-- ==== Sys2Proof/Machine/Accept.lean ====
section
/-! DEFINITION. Germinal accepts launch records (R339 to R348): the record and kernel descriptor, the checks, the room that a
cluster has, the division of a grid among dies, and the completion record (R366). -/

namespace Sys2Proof.Machine

/-! The record (R339). -/

def wordAt (ws : List Word) (i : Nat) : Word := ws.getD i 0
def pairAt (ws : List Word) (i : Nat) : DWord := pairOf (wordAt ws i) (wordAt ws (i + 1))

/-- The 32 words of a launch record as its fields. -/
def launchRec (ws : List Word) : LaunchRec :=
  let f := wordAt ws 2
  { kdesc := pairAt ws 0, asid := field f 0 16, prio := (field f 16 3).toNat, kabort := f.getLsbD 19,
    notify := f.getLsbD 20, vec := (field f 21 6).toNat, dep := f.getLsbD 27, arg := wordAt ws 3,
    ntx := (wordAt ws 4).toNat, nty := (wordAt ws 5).toNat, ntz := (wordAt ws 6).toNat,
    affin := field (wordAt ws 7) 0 24, crec := pairAt ws 8, cbmp := pairAt ws 10, dbmp := pairAt ws 12,
    da := wordAt ws 14, db := wordAt ws 15, dw := (field (wordAt ws 16) 0 16).toNat, dn := (wordAt ws 17).toNat,
    fsp := pairAt ws 18, fspl := (wordAt ws 20).toNat, fspt := (wordAt ws 21).toNat, tring := pairAt ws 22,
    tringn := (wordAt ws 24).toNat }

/-- A must-be-0 field of the record holds something. -/
def recordReserved (ws : List Word) : Bool :=
  field (wordAt ws 2) 28 4 ≠ 0 || field (wordAt ws 7) 24 8 ≠ 0 || field (wordAt ws 16) 16 16 ≠ 0 ||
    (List.range 7).any fun i => wordAt ws (25 + i) ≠ 0

/-- The teams of a grid. -/
def gridTeams (r : LaunchRec) : Nat := r.ntx * r.nty * r.ntz

/-- The teams of a cohort, or 1. -/
def unitTeams (k : Kernel) : Nat := if k.cohlv = 0 then 1 else k.cohn

/-! The kernel descriptor (R341 to R343). -/

/-- The registered range that holds an address of an ASID. -/
def codeRange (s : State) (asid : BitVec 16) (va : Nat) : Option CodeObj :=
  s.codes.find? fun o => !o.removed && o.asid = asid && o.base ≤ va && va < o.base + o.size

/-- The header at a range's base is good (R341). -/
def codeHeaderGood (o : CodeObj) (h : List Word) : Bool :=
  let koff := (wordAt h 4).toNat
  let n := (wordAt h 2).toNat
  wordAt h 0 = 0x314F4347 && field (wordAt h 1) 6 26 = 0 && 1 ≤ n && n ≤ 4096 && wordAt h 3 = 0 && koff % 256 = 0 &&
    0x100 ≤ koff && (wordAt h 5).toNat = o.size && (List.range 10).all fun i => wordAt h (6 + i) = 0

/-- `n` bytes from an address lie in a range. -/
def inRange (o : CodeObj) (a n : Nat) : Bool := o.base ≤ a && a + n ≤ o.base + o.size

/-- The fields of a descriptor, with no tables yet. -/
def kernelOf (d : List Word) : Kernel :=
  let f := wordAt d 2
  let g := wordAt d 3
  { entry := (pairAt d 0).setWidth 56, width := if f.getLsbD 0 then 64 else 32, ilk := f.getLsbD 1, sig := f.getLsbD 2,
    regs := (field f 8 6).toNat, gregs := (field f 14 7).toNat, scr := (field g 0 6).toNat, fifo := (field g 6 6).toNat,
    tiles := (field g 12 7).toNat, tslot := (field g 19 4).toNat, cohlv := (field g 23 3).toNat,
    waves := (field g 26 5).toNat, cohn := (wordAt d 4).toNat, entries := [], asms := [] }

def entryCount (d : List Word) : Nat := (field (wordAt d 5) 0 9).toNat
def asmCount (d : List Word) : Nat := (field (wordAt d 5) 16 9).toNat

/-- A descriptor's own fields are in their ranges (R342). -/
def descGood (o : CodeObj) (h d : List Word) : Bool :=
  let k := kernelOf d
  let f := wordAt d 2
  let nent := entryCount d
  let nasm := asmCount d
  let etab := (pairAt d 6).toNat
  let atab := (pairAt d 8).toNat
  let entry := (pairAt d 0).toNat
  field f 3 5 = 0 && field f 21 11 = 0 && !(wordAt d 3).getLsbD 31 && field (wordAt d 5) 9 7 = 0 &&
  field (wordAt d 5) 25 7 = 0 && (List.range 50).all (fun i => wordAt d (14 + i) = 0) && wordAt d 11 = 0 &&
  wordAt d 10 = zext 32 (field (wordAt h 1) 0 6) &&
  (8 ≤ k.regs && k.regs ≤ 56 && k.regs % 8 = 0) && (8 ≤ k.gregs && k.gregs ≤ 64 && k.gregs % 8 = 0) &&
  k.scr ≤ 48 && k.fifo ≤ 48 && k.tiles ≤ 64 && k.tslot ≤ 12 && k.cohlv ≠ 7 && 1 ≤ k.waves && k.waves ≤ 16 &&
  (if k.cohlv = 0 then k.cohn = 0 && nasm = 0 else 1 ≤ k.cohn) && (k.cohlv ≠ 2 || k.cohn = 4) &&
  nent ≤ 256 && nasm ≤ 256 && entry % 4 = 0 && inRange o entry 4 &&
  (if nent = 0 then etab = 0 else etab % 8 = 0 && inRange o etab (8 * nent)) &&
  (if nasm = 0 then atab = 0 else atab % 8 = 0 && inRange o atab (nasm * (8 * ((k.cohn + 63) / 64))))

/-- The members that a bitmap of words names. -/
def bitmapMembers (ws : List Word) : List Nat :=
  (List.range (32 * ws.length)).filter fun j => (wordAt ws (j / 32)).getLsbD (j % 32)

/-- Lists of `n` words each. -/
def rowsOf (n : Nat) (ws : List Word) : Nat → List (List Word)
  | 0 => []
  | k + 1 => ws.take n :: rowsOf n (ws.drop n) k

/-- The entry points, when each is a header address in the range. -/
def entryTable (o : CodeObj) (ws : List Word) (n : Nat) : Option (List (BitVec 56)) :=
  let es := (List.range n).map fun i => pairAt ws (2 * i)
  if es.all fun e => e.toNat % 4 = 0 && inRange o e.toNat 4 then some (es.map fun e => e.setWidth 56) else none

/-- The kernel of a KDESC (R343), or none: status CODE. -/
def readKernel (s : State) (tag : AsidTag) (kdesc : Nat) : Option Kernel × State :=
  match codeRange s tag.asid kdesc with
  | none => (none, s)
  | some o =>
    match readTexts s tag o.base 16 with
    | (none, s) => (none, s)
    | (some h, s) =>
      let first := o.base + (wordAt h 4).toNat
      if !codeHeaderGood o h || kdesc < first || (kdesc - first) % 256 ≠ 0 || (wordAt h 2).toNat ≤ (kdesc - first) / 256 ||
          !inRange o kdesc 256 then (none, s)
      else match readTexts s tag kdesc 64 with
        | (none, s) => (none, s)
        | (some d, s) =>
          if !descGood o h d then (none, s)
          else
            let k := kernelOf d
            let row := 2 * ((k.cohn + 63) / 64)
            match readTexts s tag (pairAt d 6).toNat (2 * entryCount d) with
            | (none, s) => (none, s)
            | (some es, s) => match readTexts s tag (pairAt d 8).toNat (asmCount d * row) with
              | (none, s) => (none, s)
              | (some as, s) => match entryTable o es (entryCount d) with
                | none => (none, s)
                | some entries =>
                  (some { k with entries, asms := (rowsOf row as (asmCount d)).map bitmapMembers }, s)

/-! Room on a cluster (R39, R40, R350, R352). -/

/-- What a cluster has free: wave slots by core, banks, tiles; and the launch whose task slots it holds. -/
structure Room where
  cores : List Nat
  banks : List Bool
  tiles : Nat
  task : Option Nat
  deriving DecidableEq, Repr

def emptyRoom : Room := ⟨List.replicate 4 12, List.replicate 48 true, 64, none⟩

/-- The task slots that a launch holds on a cluster. -/
def taskResAt (s : State) (cl : Nat) : Option (Nat × TaskRes) :=
  s.launches.findSome? fun e => (kvFind e.2.taskCl cl).map fun t => (e.1, t)

/-- A wave slot is in use (R354): it holds a wave or a task, or is reserved. -/
def slotInUse (s : State) (w : Nat) : Bool :=
  (findWave s w).isSome || match taskResAt s (clusterOf w) with
    | some (_, r) => r.slots.contains w
    | none => false

def coreSlots (core : Nat) : List Nat := (List.range 12).map fun i => 12 * core + i

def freeSlots (s : State) (core : Nat) : List Nat := (coreSlots core).filter fun w => !slotInUse s w

def bankFree (s : State) (cl b : Nat) : Bool :=
  let k := bankAt s cl b
  k.mode = .free && k.owner.isNone && !k.dead && !k.retiring && !k.copying

/-- The physical tiles of a cluster's layer that no team holds. -/
def freeTiles (s : State) (cl : Nat) : List Nat :=
  let held := s.teams.flatMap fun e => if e.2.cl = cl then e.2.tiles else []
  (List.range 64).filter fun t => !held.contains t

def roomOf (s : State) (cl : Nat) : Room :=
  { cores := (List.range 4).map fun k => (freeSlots s (4 * cl + k)).length
    banks := (List.range 48).map fun b => bankFree s cl b
    tiles := (freeTiles s cl).length
    task := (taskResAt s cl).map (·.1) }

/-- Wave slots in use on a cluster. -/
def slotsUsed (r : Room) : Nat := 48 - r.cores.foldl (· + ·) 0

/-- The bytes of a register window of a kernel (R42). -/
def kernelWindow (k : Kernel) : Nat := k.regs * k.width * 4 + 512

/-- Banks that hold `n` windows. -/
def windowBanks (k : Kernel) (n : Nat) : Nat := (n * kernelWindow k + 2 ^ 15 - 1) / 2 ^ 15

/-- The lowest-numbered run of `n` free banks. -/
def freeRun (banks : List Bool) (n : Nat) : Option Nat :=
  (List.range 48).find? fun b => b + n ≤ 48 && (List.range n).all fun i => banks.getD (b + i) false

def takeRun (banks : List Bool) (b n : Nat) : List Bool :=
  (List.range 48).map fun i => banks.getD i false && !(b ≤ i && i < b + n)

/-- Where a team goes on a cluster: the core of each wave, its first bank, the first bank of task windows reserved with it. -/
structure Spot where
  cores : List Nat
  bank : Nat
  task : Option Nat
  deriving DecidableEq, Repr

/-- The core with the most free wave slots, the lowest of those. -/
def widestCore (cores : List Nat) : Nat :=
  (List.range 4).foldl (fun best k => if cores.getD best 0 < cores.getD k 0 then k else best) 0

/-- Waves go one at a time to cores (R350). -/
def pickCores (cores : List Nat) : Nat → Option (List Nat × List Nat)
  | 0 => some ([], cores)
  | n + 1 =>
    let k := widestCore cores
    if cores.getD k 0 = 0 then none
    else (pickCores (cores.set k (cores.getD k 0 - 1)) n).map fun r => (k :: r.1, r.2)

/-- One team of launch `id` in a room: its task slots first, where the cluster holds none yet (R352), then its waves, its run
of banks, its tiles. -/
def takeTeam (k : Kernel) (id : Nat) (r : Room) : Option (Room × Spot) :=
  let reserve : Option (Room × Option Nat) :=
    if k.tslot = 0 then some (r, none)
    else match r.task with
      | some o => if o = id then some (r, none) else none
      | none =>
        let n := windowBanks k (4 * k.tslot)
        match freeRun r.banks n with
        | none => none
        | some b =>
          if r.cores.any fun c => c < k.tslot then none
          else some ({ r with cores := r.cores.map (· - k.tslot), banks := takeRun r.banks b n, task := some id }, some b)
  match reserve with
  | none => none
  | some (r, task) =>
    let n := windowBanks k k.waves + k.scr + k.fifo
    match pickCores r.cores k.waves, freeRun r.banks n with
    | some (cs, cores), some b =>
      if r.tiles < k.tiles then none
      else some ({ r with cores, banks := takeRun r.banks b n, tiles := r.tiles - k.tiles }, ⟨cs, b, task⟩)
    | _, _ => none

/-- Whole teams that a room holds. -/
def teamsIn (k : Kernel) (id : Nat) (r : Room) : Nat → Nat
  | 0 => 0
  | n + 1 => match takeTeam k id r with
    | none => 0
    | some (r, _) => 1 + teamsIn k id r n

/-! Eligible dies and columns. -/

def dieClusters (d : Nat) : List Nat := (List.range 24).map fun c => 24 * d + c

/-- A die with an enabled cluster, not fenced: one that takes work. -/
def dieWorks (s : State) (d : Nat) : Bool := (dieClusters d).any fun cl => clusterEnabled s cl

/-- The eligible dies of a launch (R348). -/
def eligibleDies (s : State) (r : LaunchRec) : List Nat :=
  (List.range 24).filter fun d => (r.affin = 0 || r.affin.getLsbD d) && dieWorks s d

/-- A fully enabled column with a whole chain (R29, R322). A retired bond that the base-die route replaces leaves the chain
whole; the model's choice, log entry 120. -/
def columnWhole (s : State) (col : Nat) : Bool :=
  (List.range 4).all fun d =>
    let cl := columnCluster col d
    clusterEnabled s cl && !s.fencedLayers.contains cl && !layerCut s col d

def columnDies (col : Nat) : List Nat := (List.range 4).map fun d => 4 * (col / 24) + d

/-- Columns that may hold a column cohort of a launch. -/
def eligibleColumns (s : State) (r : LaunchRec) : List Nat :=
  (List.range 144).filter fun c => columnWhole s c && (columnDies c).all fun d => (eligibleDies s r).contains d

/-- The dies of a cohort level in one domain. -/
def levelDies (level : Nat) : Nat := if level = 4 then 4 else if level = 5 then 12 else 24

/-- The teams that an empty fully enabled cluster holds. -/
def emptyTeams (k : Kernel) (id : Nat) : Nat := teamsIn k id emptyRoom 48

/-- Some domain of the kernel's cohort level holds a cohort when empty (R347 check 3). -/
def cohortFits (s : State) (k : Kernel) (id : Nat) : Bool :=
  let e := emptyTeams k id
  let clusters (ds : List Nat) : Nat := ((ds.flatMap dieClusters).filter fun cl => clusterEnabled s cl).length
  let some' (n : Nat) : Bool := (List.range (24 / n)).any fun i => k.cohn ≤ e * clusters ((List.range n).map fun j => n * i + j)
  match k.cohlv with
  | 0 => true
  | 1 => k.cohn ≤ e
  | 2 => 1 ≤ e
  | 3 => some' 1
  | l => some' (levelDies l)

/-! The checks (R347). -/

/-- Check 2. -/
def shapeBad (ws : List Word) (r : LaunchRec) (k : Kernel) : Bool :=
  let n := r.tringn
  let ring := n = 0 || ((List.range 18).any fun i => n = 2 ^ (i + 3))
  recordReserved ws || r.ntx = 0 || r.nty = 0 || r.ntz = 0 || 2 ^ 32 < gridTeams r ||
  r.kdesc.toNat % 256 ≠ 0 || r.crec.toNat % 64 ≠ 0 || r.cbmp.toNat % 8 ≠ 0 || (r.dep && r.dbmp.toNat % 8 ≠ 0) ||
  (r.fspl ≠ 0 && r.fsp.toNat % 256 ≠ 0) || (n ≠ 0 && r.tring.toNat % 16 ≠ 0) || (r.dep && r.dw = 0) || !ring ||
  (k.tslot ≠ 0 && n = 0) || (r.fspl ≠ 0 && r.fspt = 0)

/-- An assembly entry names a member beyond the cohort, or a member lies in more than four (R343, R360). -/
def asmBad (k : Kernel) : Bool :=
  k.asms.any (fun ms => ms.any fun j => k.cohn ≤ j) ||
    (k.asms.flatten.eraseDups).any fun j => 4 < (k.asms.filter fun ms => ms.contains j).length

/-- Check 3. -/
def cohortBad (s : State) (r : LaunchRec) (k : Kernel) (id : Nat) : Bool :=
  gridTeams r % unitTeams k ≠ 0 || emptyTeams k id = 0 || !cohortFits s k id ||
    (r.fspl ≠ 0 && r.fspt < unitTeams k) || asmBad k

/-- Check 4. -/
def noDie (s : State) (r : LaunchRec) (k : Kernel) : Bool :=
  (eligibleDies s r).isEmpty || (k.cohlv = 2 && (eligibleColumns s r).isEmpty)

/-- The status of a record: 0 where it passes, with its kernel. -/
def checkRecord (s : State) (tag : AsidTag) (ws : List Word) (r : LaunchRec) (id : Nat) : Nat × Option Kernel × State :=
  match readKernel s tag r.kdesc.toNat with
  | (none, s) => (3, none, s)
  | (some k, s) =>
    (if shapeBad ws r k || cohortBad s r k id then 2 else if noDie s r k then 1 else 0, some k, s)

/-! The division of a grid (R348). -/

/-- The free capacity of a die in teams, its clusters as they are or empty. -/
def dieTeams (s : State) (k : Kernel) (id : Nat) (empty : Bool) (d : Nat) : Nat :=
  let fits := ((dieClusters d).filter fun cl => clusterEnabled s cl).map fun cl =>
    if empty then emptyTeams k id else teamsIn k id (roomOf s cl) 48
  if k.cohlv = 1 then (fits.map fun n => n / k.cohn).foldl (· + ·) 0
  else if k.cohlv = 3 then fits.foldl (· + ·) 0 / k.cohn
  else fits.foldl (· + ·) 0

/-- Shares of `t` units by capacity: the floors, then one more to each of the first remaining dies with capacity. -/
def sharesOf (t : Nat) (caps : List (Nat × Nat)) : List (Nat × Nat) :=
  let c := caps.foldl (fun n e => n + e.2) 0
  if c = 0 then (List.range caps.length).map fun i => ((caps.getD i (0, 0)).1, if i = 0 then t else 0)
  else
    let floors := caps.map fun e => (e.1, t * e.2 / c)
    let rem := t - floors.foldl (fun n e => n + e.2) 0
    let open' := (caps.filter fun e => e.2 ≠ 0).map (·.1)
    floors.map fun e => (e.1, e.2 + if (open'.take rem).contains e.1 then 1 else 0)

/-- Capacities of eligible dies; as if empty where nothing is free. -/
def diesCaps (s : State) (k : Kernel) (id : Nat) (ds : List Nat) : List (Nat × Nat) :=
  let now := ds.map fun d => (d, dieTeams s k id false d)
  if now.any fun e => e.2 ≠ 0 then now else ds.map fun d => (d, dieTeams s k id true d)

/-- Runs of units cut into consecutive shares. -/
def takeUnits : List (Nat × Nat) → Nat → List (Nat × Nat) × List (Nat × Nat)
  | [], _ => ([], [])
  | (a, c) :: rest, n =>
    if n = 0 then ([], (a, c) :: rest)
    else if c ≤ n then
      let (xs, ys) := takeUnits rest (n - c)
      ((a, c) :: xs, ys)
    else ([(a, n)], (a + n, c - n) :: rest)

def unitsIn (runs : List (Nat × Nat)) : Nat := runs.foldl (fun n r => n + r.2) 0

/-- Runs divided among dies in their order. -/
def divideRuns (runs : List (Nat × Nat)) : List (Nat × Nat) → List DieRange
  | [] => []
  | (d, n) :: rest =>
    let (xs, ys) := takeUnits runs n
    ⟨d, xs⟩ :: divideRuns ys rest

/-- Units divided among the eligible dies of a launch. -/
def divideUnits (s : State) (k : Kernel) (r : LaunchRec) (id : Nat) (runs : List (Nat × Nat)) : List DieRange :=
  divideRuns runs (sharesOf (unitsIn runs) (diesCaps s k id (eligibleDies s r)))

/-- Germinal itself places the cohorts of these levels (R348, R358). -/
def placedByGerminal (k : Kernel) : Bool := k.cohlv = 2 || 4 ≤ k.cohlv

/-! The completion record (R366). -/

/-- Its sixteen words. -/
def completionWords (status teams aborted lost lanes taskerr : Nat) (tstart tend : DWord) : List Word :=
  [BitVec.ofNat 32 status, BitVec.ofNat 32 teams, BitVec.ofNat 32 aborted, BitVec.ofNat 32 lost, BitVec.ofNat 32 lanes,
   BitVec.ofNat 32 taskerr, loWord tstart, hiWord tstart, loWord tend, hiWord tend, 1, 0, 0, 0, 0, 0]

/-- Writing a completion record, then raising its vector; one that cannot be written is logged (R366, R430 type 11). -/
def writeCompletion (s : State) (tag : AsidTag) (r : LaunchRec) (ws : List Word) : State :=
  match if r.crec.toNat % 64 = 0 then storeHome s tag r.crec.toNat ws else none with
  | some s => raiseIf s r.notify r.vec
  | none => logError s ⟨11, 0, 0, 0, some tag, r.crec.toNat, []⟩

/-- The line of a completion record is quiet, or is none that can be written. -/
def crecQuiet (s : State) (tag : AsidTag) (r : LaunchRec) : Bool :=
  !canonical r.crec.toNat || lineQuiet s tag (lineOf r.crec.toNat)

/-! Acceptance (R344 to R346). -/

/-- A host queue offers a record. -/
def queueOffers (s : State) (q : Nat) : Bool :=
  let k := queueAt s q
  k.en && !k.stop && k.head ≠ k.tail

/-- What the head of a queue is: none; a record with its ASID tag where it replaces the record's; or unreadable. -/
inductive Head where
  | none
  | record (ws : List Word) (tag : Option AsidTag)
  | bad (va : Nat) (g : Got)
  deriving DecidableEq, Repr

/-- Words of bytes. -/
def wordsOf (bs : List Byte) (n : Nat) : List Word :=
  (List.range n).map fun i => (bs.getD (4 * i + 3) 0) ++ (bs.getD (4 * i + 2) 0) ++ (bs.getD (4 * i + 1) 0) ++ (bs.getD (4 * i) 0)

/-- The head of queue `q`; 64 is the device queue. -/
def headOf (s : State) (q : Nat) : Head × State :=
  if q = 64 then
    match s.devq with
    | [] => (.none, s)
    | r :: _ => (.record (wordsOf r.bytes 32) (if r.super then none else some r.tag), s)
  else if !queueOffers s q then (.none, s)
  else
    let k := queueAt s q
    let va := (k.base.toNat + 128 * (k.head.toNat % 2 ^ k.log.toNat)) % 2 ^ 64
    match readWords s (tagNow s k.asid) va 32 with
    | (ws, none, s) => (.record ws none, s)
    | (_, some (a, g), s) => (.bad a g, s)

/-- Log record type 10 and the queue's STOP (R344, R346). -/
def stopQueue (s : State) (q why : Nat) : State :=
  logError (putQueue s q { queueAt s q with stop := true }) ⟨10, 0, 0, 0, none, 0, bytesLe 1 q ++ bytesLe 1 why⟩

/-- A host queue whose head cannot be read stops (R346). -/
def stopUnreadable (s : State) (q va : Nat) (g : Got) : State :=
  let tag := tagNow s (queueAt s q).asid
  stopQueue (match g with
    | .refused k => germinalRecord s tag va k
    | _ => s) q 1

/-- The queues in Germinal's cyclic order from its pointer on. -/
def queueOrder (p : Nat) : List Nat := (List.range 65).map fun i => (p + i) % 65

/-- The heads of all queues, unreadable ones stopping theirs. -/
def gatherHeads (s : State) : List Nat → List (Nat × List Word × Option AsidTag) × State
  | [] => ([], s)
  | q :: rest =>
    match headOf s q with
    | (.none, s) => gatherHeads s rest
    | (.bad va g, s) => gatherHeads (stopUnreadable s q va g) rest
    | (.record ws t, s) =>
      let (hs, s) := gatherHeads s rest
      ((q, ws, t) :: hs, s)

/-- The head that is served: of the highest PRIO, the first in the cyclic order. -/
def bestHead (hs : List (Nat × List Word × Option AsidTag)) : Option (Nat × List Word × Option AsidTag) :=
  hs.foldl (fun best h => match best with
    | none => some h
    | some b => if (launchRec b.2.1).prio < (launchRec h.2.1).prio then some h else some b) none

/-- A record leaves its queue, and the pointer moves on. -/
def takeHead (s : State) (q : Nat) : State :=
  let s := { s with gptr := (q + 1) % 65 }
  if q = 64 then { s with devq := s.devq.tail }
  else putQueue s q { queueAt s q with head := (queueAt s q).head + 1 }

/-- A launch begins (R346, R348). -/
def beginLaunch (s : State) (id seq : Nat) (tag : AsidTag) (r : LaunchRec) (k : Kernel) (imported : Bool) : State :=
  let total := gridTeams r
  let runs := if imported then [] else [(0, total / unitTeams k)]
  let mine := placedByGerminal k
  let l : Launch :=
    { rcd := r, ker := k, tag, seq, total, ranges := if mine then [] else divideUnits s k r id runs,
      global := if mine then runs else [], ended := 0, teams := 0, aborted := 0, lost := 0, lanes := 0, taskerr := 0,
      tstart := 0, spills := [], killed := [], places := [], gone := [], taskCl := [], imported }
  { s with launches := s.launches ++ [(id, l)] }

/-- Germinal runs and takes records. -/
def accepting (s : State) : Bool := s.boot = 5 && s.accepting && !s.gerLost && !s.d3hot

/-- R346: one record is accepted, or rejected with its completion record. -/
def acceptOne (s : State) : State :=
  if !accepting s then s
  else
    let (hs, s) := gatherHeads s (queueOrder s.gptr)
    match bestHead hs with
    | none => s
    | some (q, ws, issuer) =>
      let r := launchRec ws
      let r := match issuer with
        | some t => { r with asid := t.asid }
        | none => r
      let tag := (issuer.getD (tagNow s r.asid))
      let (id, t) := fresh s
      match checkRecord t tag ws r id with
      | (0, some k, t) => beginLaunch (takeHead t q) id id tag r k false
      | (status, _, t) =>
        if !crecQuiet s tag r then s
        else writeCompletion (takeHead t q) tag r (completionWords status 0 0 0 0 0 0 t.clock)

/-- R346, R347. -/
def execLaunchAccept (s : State) : Host.Outcome State Fault Refusal := .next (acceptOne s)

end Sys2Proof.Machine
end

