-- ==== Sys2Proof/Machine/Place.lean ====
section
/-! DEFINITION. Placing teams and cohorts (R349 to R355, R358, R364): readiness, the choice of clusters, the allocations, and
the choice of teams to pre-empt. -/

namespace Sys2Proof.Machine

/-! Readiness (R364). -/

/-- The bits of the producer's bitmap that team `i` needs, as the first and the one after the last. -/
def depSpan (r : LaunchRec) (i : Nat) : Nat × Nat :=
  let lo : Int := r.da.toNat * i + r.db.toInt
  let dn : Int := if r.dn = 0 then 2 ^ 32 else r.dn
  ((max lo 0).toNat, (min (lo + r.dw) dn).toNat)

/-- The words that hold them. -/
def depWords (r : LaunchRec) (i : Nat) : List Nat :=
  let (a, b) := depSpan r i
  if b ≤ a then [] else (List.range ((b - 1) / 32 - a / 32 + 1)).map fun k => (r.dbmp.toNat + 4 * (a / 32 + k)) % 2 ^ 64

/-- One word as bits of the bitmap that count as set; one that cannot be read has none. The record of a refused read is left
by `rereadBitmap`, which reads every word that a waiting team needs. -/
def depWord (s : State) (tag : AsidTag) (va : Nat) : Word :=
  match readHome s tag va .load false with
  | (.word w, _) => w
  | _ => 0

def teamReady (s : State) (la : Launch) (i : Nat) : Bool :=
  !la.rcd.dep ||
    let (a, b) := depSpan la.rcd i
    (List.range (b - a)).all fun k =>
      let j := a + k
      (depWord s la.tag ((la.rcd.dbmp.toNat + 4 * (j / 32)) % 2 ^ 64)).getLsbD (j % 32)

/-- The teams of a unit. -/
def unitMembers (k : Kernel) (u : Nat) : List Nat := (List.range (unitTeams k)).map fun j => unitTeams k * u + j

def unitReady (s : State) (la : Launch) (u : Nat) : Bool := (unitMembers la.ker u).all (teamReady s la)

/-- The first ready unit of a run. -/
def readyFrom (s : State) (la : Launch) (u : Nat) : Nat → Option Nat
  | 0 => none
  | n + 1 => if unitReady s la u then some u else readyFrom s la (u + 1) n

def firstReadyUnit (s : State) (la : Launch) (runs : List (Nat × Nat)) : Option Nat :=
  runs.findSome? fun r => readyFrom s la r.1 r.2

/-- The units that wait, in runs. -/
def waitingRuns (la : Launch) : List (Nat × Nat) := la.ranges.flatMap (·.runs) ++ la.global

/-- The bitmap words that the waiting teams of a launch need. -/
def waitingWords (la : Launch) : List Nat :=
  (waitingRuns la).flatMap fun r => (List.range r.2).flatMap fun i =>
    (unitMembers la.ker (r.1 + i)).flatMap (depWords la.rcd)

/-- Addresses kept one for each 4 KiB page, the lowest (R401). -/
def lowestOfPage (l : List Nat) (va : Nat) : List Nat :=
  if l.any fun v => v / 4096 = va / 4096 then l.map fun v => if v / 4096 = va / 4096 then min v va else v else l ++ [va]

/-- R364: Germinal reads the words that waiting teams need; a refused read leaves its record. -/
def rereadBitmap (s : State) (n : Nat) : State :=
  match findLaunch s n with
  | none => s
  | some la =>
    if !la.rcd.dep || s.gerLost then s
    else ((waitingWords la).foldl lowestOfPage []).foldl (fun t va => match readHome t la.tag va .load false with
      | (.refused k, u) => germinalRecord u la.tag va k
      | (_, u) => u) s

/-- R364: the bitmap of a launch that waits is read again. -/
def execDepBitmapReread (n : Nat) (s : State) : Host.Outcome State Fault Refusal := .next (rereadBitmap s n)

/-! The choice of clusters (R350, R354). -/

/-- Rooms as they stand after some members have been given their places. -/
abbrev Rooms := Kv Nat Room

def roomIn (s : State) (rs : Rooms) (cl : Nat) : Room := (kvFind rs cl).getD (roomOf s cl)

/-- Wave slots in use on a column (R354). -/
def columnUse (s : State) (rs : Rooms) (col : Nat) : Nat :=
  (List.range 4).foldl (fun n d => n + slotsUsed (roomIn s rs (columnCluster col d))) 0

def teamPrio (s : State) (t : Team) : Nat := ((findLaunch s t.launch).map fun l => l.rcd.prio).getD 0

/-- The teams and tasks of a column. -/
def columnTeams (s : State) (col : Nat) : List (Nat × Team) := s.teams.filter fun e => columnOf e.2.cl = col

/-- The threshold of a column lets a team of a priority in (R354). -/
def thresholdPasses (s : State) (rs : Rooms) (prio col : Nat) : Bool :=
  columnUse s rs col ≤ (cthAt s col).toNat || (columnTeams s col).all fun e => teamPrio s e.2 ≤ prio

/-- A cluster has an allocation tag for one team more than `extra` (R216). -/
def tagsLeft (s : State) (cl extra : Nat) : Bool :=
  let held := (s.teams.filterMap fun e => if e.2.cl = cl && !e.2.task then some e.2.allocTag else none) ++
    (s.quarantine.filterMap fun q => if q.1 = cl then some q.2 else none)
  held.eraseDups.length + extra < 4096

/-- A place for one member: cluster and spot. -/
abbrev Seat := Nat × Spot

/-- One team of launch `id` on the cluster, of a list in ascending order, with the fewest wave slots in use. -/
def seatTeam (s : State) (id : Nat) (la : Launch) (rs : Rooms) (taken : List Seat) (cls : List Nat) : Option (Seat × Rooms) :=
  let fits := cls.filterMap fun cl =>
    let r := roomIn s rs cl
    if clusterEnabled s cl && thresholdPasses s rs la.rcd.prio (columnOf cl) &&
        tagsLeft s cl (taken.filter fun p => p.1 = cl).length then
      (takeTeam la.ker id r).map fun t => (cl, slotsUsed r, t)
    else none
  let best := fits.foldl (fun b f => match b with
    | none => some f
    | some x => if f.2.1 < x.2.1 then some f else some x) none
  best.map fun f => ((f.1, f.2.2.2), kvPut rs f.1 f.2.2.1)

/-- Several teams, one after another, on clusters of a list. -/
def seatTeams (s : State) (id : Nat) (la : Launch) (cls : List Nat) (rs : Rooms) (taken : List Seat) :
    Nat → Option (List Seat × Rooms)
  | 0 => some ([], rs)
  | n + 1 => match seatTeam s id la rs taken cls with
    | none => none
    | some (p, rs) => (seatTeams s id la cls rs (taken ++ [p]) n).map fun r => (p :: r.1, r.2)

/-- Clusters by wave slots in use, ties by number. -/
def byUse (s : State) (cls : List Nat) : List Nat :=
  (List.range 49).flatMap fun u => cls.filter fun cl => slotsUsed (roomOf s cl) = u

/-- A unit on one die: a team, a cluster cohort on one cluster, a die cohort (R350, R358). -/
def seatOnDie (s : State) (id : Nat) (la : Launch) (d : Nat) : Option (List Seat) :=
  if la.ker.cohlv = 1 then
    (byUse s (dieClusters d)).findSome? fun cl => (seatTeams s id la [cl] [] [] la.ker.cohn).map (·.1)
  else (seatTeams s id la (dieClusters d) [] [] (unitTeams la.ker)).map (·.1)

/-- A cohort over dies in given shares. -/
def seatShares (s : State) (id : Nat) (la : Launch) (rs : Rooms) : List (Nat × Nat) → Option (List Seat)
  | [] => some []
  | (d, n) :: rest => match seatTeams s id la (dieClusters d) rs [] n with
    | none => none
    | some (ps, rs) => (seatShares s id la rs rest).map fun qs => ps ++ qs

/-- A cohort on a column: member `j` on die `j` (R358). -/
def seatColumn (s : State) (id : Nat) (la : Launch) (col : Nat) : Option (List Seat) :=
  (List.range 4).foldl (fun acc j => match acc with
    | none => none
    | some ps => (seatTeam s id la [] [] [columnCluster col j]).map fun r => ps ++ [r.1]) (some [])

/-- The column with the fewest wave slots in use that holds a cohort, ties to the lowest number. -/
def seatOnColumn (s : State) (id : Nat) (la : Launch) : Option (List Seat) :=
  let fits := (eligibleColumns s la.rcd).filterMap fun c => (seatColumn s id la c).map fun ps => (columnUse s [] c, ps)
  (fits.foldl (fun b f => match b with
    | none => some f
    | some x => if f.1 < x.1 then some f else some x) none).map (·.2)

/-- A stack, interposer or package cohort, on the domain with the greatest free capacity of those that hold it (R358). -/
def seatOnDomain (s : State) (id : Nat) (la : Launch) : Option (List Seat) :=
  let span := levelDies la.ker.cohlv
  let dies := eligibleDies s la.rcd
  let fits := (List.range (24 / span)).filterMap fun i =>
    let ds := dies.filter fun d => d / span = i
    let caps := ds.map fun d => (d, dieTeams s la.ker id false d)
    let free := caps.foldl (fun n e => n + e.2) 0
    if free < la.ker.cohn then none
    else (seatShares s id la [] (sharesOf la.ker.cohn caps)).map fun ps => (free, ps)
  (fits.foldl (fun b f => match b with
    | none => some f
    | some x => if x.1 < f.1 then some f else some x) none).map (·.2)

/-- Places for a unit: on a die, or where Germinal puts it. -/
def seatUnit (s : State) (id : Nat) (la : Launch) (d : Option Nat) : Option (List Seat) :=
  match d with
  | some d => if (eligibleDies s la.rcd).contains d then seatOnDie s id la d else none
  | none => if la.ker.cohlv = 2 then seatOnColumn s id la else seatOnDomain s id la

/-! Spill indices (R353). -/

/-- The `n` lowest free spill indices; none where so many are not free; with FSPL = 0 none is held. -/
def spillIndices (la : Launch) (n : Nat) : Option (List (Option Nat)) :=
  if la.rcd.fspl = 0 then some (List.replicate n none)
  else
    let free := ((List.range (la.spills.length + n)).filter fun i => i < la.rcd.fspt && !la.spills.contains i).take n
    if free.length = n then some (free.map some) else none

/-! Starting a team (R350 to R352). -/

/-- The allocation tag that a cluster's counter gives next: it skips tags held and tags just ended (R216). -/
def nextTag (s : State) (cl : Nat) (t : BitVec 12) : Nat → BitVec 12
  | 0 => t
  | n + 1 =>
    if (s.teams.any fun e => e.2.cl = cl && !e.2.task && e.2.allocTag = t) || s.quarantine.contains (cl, t) then
      nextTag s cl (t + 1) n
    else t

def drawTag (s : State) (cl : Nat) : BitVec 12 × State :=
  let t := nextTag s cl (kvGet s.tagCtr cl 0) 4096
  (t, { s with tagCtr := kvPut s.tagCtr cl (t + 1) })

/-- Banks given to an owner in a mode, zeroed. -/
def giveBanks (s : State) (cl b : Nat) (owner : Option Nat) (m : BankMode) (n : Nat) : State :=
  (List.range n).foldl (fun t i => onBank (zeroBank t cl (b + i)) cl (b + i) fun k => { k with mode := m, owner }) s

/-- Banks taken back, zeroed. -/
def freeBanks (s : State) (cl b n : Nat) : State := giveBanks s cl b none .free n

def blankToken : Token := ⟨none, 0, 0, 0⟩

/-- A wave at its start (R122, R145, R150). -/
def newWave (la : Launch) (team num regbase age : Nat) (spill : Option Nat) (entry : BitVec 56) (arg : Word) (frame : DWord) :
    Wave :=
  let k := la.ker
  let l := la.rcd.fspl / 8 * 8
  { width := k.width, regs := k.regs, gregs := k.gregs, team, num, regbase, age, alive := widthMask k.width,
    g := List.replicate k.gregs 0, k := List.replicate 12 0, gk := List.replicate 12 false,
    svG := List.replicate 8 0, svV := List.replicate 512 0, fpmode := 0, deadrd := false, arg, frame,
    a := runPath 0 (widthMask k.width) entry Join.clear, b := Slot.idle, depth := 0, spilled := 0,
    spillBase := match spill with
      | some i => la.rcd.fsp.toNat + (16 * i + num) * l * 32
      | none => 0
    spillL := if spill.isSome then l else 0, super := false, broken := [], saved := none, svStack := [], landings := [], locals := [],
    progress := none, pending := none }

/-- A team that holds nothing yet. -/
def newTeam (id : Nat) (la : Launch) (idx cl : Nat) : Team :=
  { launch := id, idx, task := false, cl, tag := la.tag, regBank := 0, nReg := 0, dataBank := 0, nData := 0, allocTag := 0,
    tiles := [], toks := List.replicate 8 blankToken, mmrep := 0, waves := [], copies := [], copyDone := [], joints := 0,
    gens := [], arrived := [], spill := none, cohort := none, placed := 0, leaving := false, fate := .normal,
    release := 0 }

/-- Task slots of a launch on a cluster, with their banks and queues (R352, R371). -/
def reserveTasks (s : State) (id : Nat) (la : Launch) (cl b : Nat) : State :=
  let slots := (List.range 4).flatMap fun k => (freeSlots s (4 * cl + k)).take la.ker.tslot
  let s := giveBanks s cl b none .reg (windowBanks la.ker (4 * la.ker.tslot))
  let s := onLaunch s id fun l => { l with taskCl := kvPut l.taskCl cl ⟨b, slots⟩ }
  { s with tasks := (List.range 4).foldl (fun q k => kvPut q (4 * cl + k) ⟨id, [], 0, 0⟩) s.tasks }

/-- The wave slots that waves take on the cores named in turn: of each, the lowest free one. R350 names the core only (DESIGN
CHOICE, log entry 135). -/
def pickSlots (s : State) (cl : Nat) : List Nat → List Nat → List Nat
  | [], _ => []
  | k :: rest, got =>
    match (freeSlots s (4 * cl + k)).find? fun w => !got.contains w with
    | some w => w :: pickSlots s cl rest (got ++ [w])
    | none => pickSlots s cl rest got

/-- The allocations of a team at its seat: banks, tag, tiles, wave slots, its place in its cohort. -/
def allocate (s : State) (id : Nat) (la : Launch) (tid : Nat) (t : Team) (p : Seat) : Team × State :=
  let (cl, spot) := p
  let s := match spot.task with
    | some b => reserveTasks s id la cl b
    | none => s
  let nr := windowBanks la.ker la.ker.waves
  let (tag, s) := drawTag s cl
  let s := giveBanks s cl spot.bank (some tid) .reg nr
  let s := giveBanks s cl (spot.bank + nr) (some tid) .scr la.ker.scr
  let s := giveBanks s cl (spot.bank + nr + la.ker.scr) (some tid) .fifo la.ker.fifo
  let tiles := (freeTiles s cl).take la.ker.tiles
  let s := tiles.foldl (fun u n => zeroTile u cl n) s
  let t := { t with
    cl, regBank := spot.bank, nReg := nr, dataBank := spot.bank + nr, nData := la.ker.scr + la.ker.fifo, allocTag := tag,
    tiles, waves := pickSlots s cl spot.cores [] }
  let s := match t.cohort with
    | some c => onLaunch s id fun l => { l with places := kvPut l.places c ⟨cl, some tag, lsBase t⟩ }
    | none => s
  (t, s)

/-- One team starts at its seat (R350, R351). -/
def startTeam (s : State) (id : Nat) (age idx : Nat) (spill : Option Nat) (p : Seat) : State :=
  match findLaunch s id with
  | none => s
  | some la =>
    let (tid, s) := fresh s
    let cohort := if la.ker.cohlv = 0 then none else some (idx / la.ker.cohn, idx % la.ker.cohn)
    let (t, s) := allocate s id la tid { newTeam id la idx p.1 with spill, cohort, placed := age } p
    let s := { s with teams := s.teams ++ [(tid, t)] }
    let s := (List.range t.waves.length).foldl (fun u n =>
      putWave u (t.waves.getD n 0)
        (newWave la tid n (t.regBank * 2 ^ 15 + n * kernelWindow la.ker) age spill la.ker.entry la.rcd.arg 0)) s
    let s := onLaunch s id fun l => { l with
      spills := l.spills ++ spill.toList, tstart := if l.tstart = 0 then s.clock else l.tstart }
    selfInvalidate s t.cl 5

/-- All teams of a unit start in one step (R350, R358). -/
def startUnit (s : State) (id : Nat) (la : Launch) (u : Nat) (spills : List (Option Nat)) (ps : List Seat) : State :=
  let (age, s) := fresh s
  (List.range ps.length).foldl (fun t j =>
    startTeam t id age (unitTeams la.ker * u + j) (spills.getD j none) (ps.getD j (0, ⟨[], 0, none⟩))) s

/-! A launch's next placement (R349). -/

/-- A unit leaves the runs that hold it. -/
def dropUnit (u : Nat) (runs : List (Nat × Nat)) : List (Nat × Nat) :=
  runs.flatMap fun r =>
    if r.1 ≤ u && u < r.1 + r.2 then
      (if r.1 < u then [(r.1, u - r.1)] else []) ++ (if u + 1 < r.1 + r.2 then [(u + 1, r.1 + r.2 - (u + 1))] else [])
    else [r]

/-- Runs in ascending order of their units (R349). -/
def insertRun (r : Nat × Nat) : List (Nat × Nat) → List (Nat × Nat)
  | [] => [r]
  | q :: rest => if r.1 < q.1 then r :: q :: rest else q :: insertRun r rest

def sortRuns (runs : List (Nat × Nat)) : List (Nat × Nat) := runs.foldl (fun l r => insertRun r l) []

def rangeOf (la : Launch) (d : Nat) : List (Nat × Nat) := ((la.ranges.find? fun r => r.die = d).map (·.runs)).getD []

def setRange (la : Launch) (d : Nat) (runs : List (Nat × Nat)) : Launch :=
  if la.ranges.any fun r => r.die = d then
    { la with ranges := la.ranges.map fun r => if r.die = d then { r with runs } else r }
  else { la with ranges := la.ranges ++ [⟨d, runs⟩] }

/-- The range that a die whose own is placed takes units from: the largest remainder of its stack, else of any die. -/
def donorOf (la : Launch) (d : Nat) : Option DieRange :=
  let have' := la.ranges.filter fun r => r.die ≠ d && unitsIn r.runs ≠ 0
  let near := have'.filter fun r => r.die / 4 = d / 4
  (if near.isEmpty then have' else near).foldl (fun b r => match b with
    | none => some r
    | some x => if unitsIn x.runs < unitsIn r.runs || (unitsIn x.runs = unitsIn r.runs && r.die < x.die) then some r else some x) none

/-- A launch's ranges after a die has taken over units (R349): the upper half of the donor's remainder. -/
def takeOver (la : Launch) (d : Nat) : Option Launch :=
  (donorOf la d).map fun r =>
    let n := unitsIn r.runs
    let (low, high) := takeUnits r.runs (n - (n + 1) / 2)
    setRange (setRange la r.die low) d high

/-- Germinal may place and resume teams (R433). -/
def placing (s : State) : Bool :=
  s.boot = 5 && !s.gerLost && !s.d3hot && !(s.ctx.busy && s.ctx.op = 1) && !s.images.any fun e => e.2.held

/-- Placing the first ready unit of some runs on a die, or where Germinal puts it. -/
def placeFrom (s : State) (id : Nat) (la : Launch) (d : Option Nat) (runs : List (Nat × Nat)) : Option (Nat × State) :=
  match firstReadyUnit s la runs, spillIndices la (unitTeams la.ker) with
  | some u, some spills => (seatUnit s id la d).map fun ps => (u, startUnit s id la u spills ps)
  | _, _ => none

/-- One die's dispatcher places a unit: of its own range, or, that being placed, of one that it takes over. -/
def placeOnDie (s : State) (id : Nat) (la : Launch) (d : Nat) : Option State :=
  let own := rangeOf la d
  match (if own.isEmpty then takeOver la d else some la) with
  | none => none
  | some lb => (placeFrom s id lb (some d) (rangeOf lb d)).map fun r =>
    onLaunch r.2 id fun l => setRange { l with ranges := lb.ranges } d (dropUnit r.1 (rangeOf lb d))

/-- A launch places its next unit, where it can: of a die's own range before one that a die takes over (R349). -/
def placeNext (s : State) (id : Nat) : Option State :=
  match findLaunch s id with
  | none => none
  | some la =>
    if !placing s then none
    else if placedByGerminal la.ker then
      (placeFrom s id la none la.global).map fun r => onLaunch r.2 id fun l => { l with global := dropUnit r.1 l.global }
    else
      let dies := eligibleDies s la.rcd
      let own := dies.filter fun d => !(rangeOf la d).isEmpty
      (own ++ dies.filter fun d => (rangeOf la d).isEmpty).findSome? fun d => placeOnDie s id la d

/-! Teams that make room (R355). -/

/-- The task slots of a launch on a cluster are given up when nothing of it is left there (R352). -/
def releaseTasks (s : State) (id cl : Nat) : State :=
  match findLaunch s id with
  | none => s
  | some la => match kvFind la.taskCl cl with
    | none => s
    | some r =>
      let cores := (List.range 4).map fun k => 4 * cl + k
      let busy := (s.teams.any fun e => e.2.launch = id && e.2.cl = cl) || cores.any fun c =>
        match kvFind s.tasks c with
        | some q => q.chip ≠ [] || q.ringCount ≠ 0
        | none => false
      if busy then s
      else
        let s := freeBanks s cl r.bank (windowBanks la.ker (4 * la.ker.tslot))
        let s := onLaunch s id fun l => { l with taskCl := kvErase l.taskCl cl }
        { s with tasks := cores.foldl (fun q c => kvErase q c) s.tasks }

/-- The state with some teams gone, and the task slots reserved for their launches where nothing of those is left (R352), to
see what would fit. -/
def withoutTeams (s : State) (ts : List Nat) : State :=
  let seats := (s.teams.filter fun e => ts.contains e.1).map fun e => (e.2.launch, e.2.cl)
  seats.foldl (fun t e => releaseTasks t e.1 e.2) { s with
    waves := s.waves.filter fun e => !ts.contains e.2.team
    teams := s.teams.filter fun e => !ts.contains e.1
    banks := s.banks.map fun e => match e.2.owner with
      | some t => if ts.contains t then (e.1, { e.2 with mode := .free, owner := none }) else e
      | none => e }

/-- A ready unit of a launch waits. -/
def unitWaits (s : State) (la : Launch) : Bool :=
  (firstReadyUnit s la (la.ranges.flatMap (·.runs) ++ la.global)).isSome && (spillIndices la (unitTeams la.ker)).isSome

/-- It would fit somewhere. -/
def unitFits (s : State) (id : Nat) (la : Launch) : Bool :=
  if placedByGerminal la.ker then (seatUnit s id la none).isSome
  else (eligibleDies s la.rcd).any fun d => (seatUnit s id la (some d)).isSome

/-- The columns of a launch's eligible dies. -/
def launchColumns (s : State) (la : Launch) : List Nat :=
  let ds := eligibleDies s la.rcd
  (List.range 144).filter fun c => (columnDies c).any fun d => ds.contains d

/-- Inserting a team into the order of pre-emption: the lowest priority first, of one priority the most recently placed. -/
def insertVictim (s : State) (e : Nat × Team) : List (Nat × Team) → List (Nat × Team)
  | [] => [e]
  | f :: rest =>
    if teamPrio s e.2 < teamPrio s f.2 || (teamPrio s e.2 = teamPrio s f.2 && f.2.placed < e.2.placed) then e :: f :: rest
    else f :: insertVictim s e rest

/-- A column's teams of lower priority, in that order. -/
def columnVictims (s : State) (prio col : Nat) : List Nat :=
  (((columnTeams s col).filter fun e => !e.2.task && teamPrio s e.2 < prio).foldl (fun l e => insertVictim s e l) []).map (·.1)

/-- The teams to pre-empt, in order: column by column, the least occupied first. -/
def victimOrder (s : State) (la : Launch) : List Nat :=
  let cols := (launchColumns s la).filter fun c => !(columnVictims s la.rcd.prio c).isEmpty
  let used := cols.map fun c => (c, columnUse s [] c)
  let order := (List.range 193).flatMap fun u => (used.filter fun e => e.2 = u).map (·.1)
  order.flatMap fun c => columnVictims s la.rcd.prio c

/-- The shortest list of them, each with its cohort, that makes what waits fit. -/
def victimsFor (s : State) (fits : State → Bool) (gone : List Nat) : List Nat → Option (List Nat)
  | [] => none
  | t :: rest =>
    let gone := (gone ++ leavesWith s t).eraseDups
    if fits (withoutTeams s gone) then some gone else victimsFor s fits gone rest

/-- R355: the teams that leave where something of a launch that waits finds no place while every column of its dies is above
its threshold. -/
def makeRoomFor (s : State) (la : Launch) (fits : State → Bool) : List Nat :=
  let going := (s.teams.filter fun e => e.2.leaving).map (·.1)
  if !placing s || !((launchColumns s la).all fun c => (cthAt s c).toNat < columnUse s [] c) ||
      (!going.isEmpty && fits (withoutTeams s going)) then []
  else (victimsFor s fits going (victimOrder s la)).getD []

/-- Those that leave for a ready unit of a launch. -/
def makeRoom (s : State) (id : Nat) : List Nat :=
  match findLaunch s id with
  | none => []
  | some la => if unitWaits s la then makeRoomFor s la fun u => unitFits u id la else []

end Sys2Proof.Machine
end

