-- ==== Sys2Proof/Machine/Retire.lean ====
section
/-! DEFINITION. How teams and launches end (R351, R352, R366, R367, R376). -/

namespace Sys2Proof.Machine

/-! A team. -/

/-- Every wave of a team has ended, and no waiting local access of it can be performed (R167). -/
def wavesEnded (s : State) (t : Team) : Bool :=
  t.waves.all fun w => match findWave s w with
    | none => true
    | some x => x.alive = 0 && (List.range x.locals.length).all fun n => performWaiting s w n = s

/-- A team's last wave has ended, and every copy and matrix operation of it has completed (R300, R335). -/
def teamOver (s : State) (tid : Nat) (t : Team) : Bool :=
  wavesEnded s t && !(s.copies.any fun e => e.2.team = tid) &&
    !(s.mats.any fun e => e.2.team = tid && e.2.fault ≠ some divergedMark)

/-- The team's release at `.pkg` scope, which a lost team does not make (R38, R351). -/
def releaseTeam (s : State) (tid : Nat) (t : Team) : Bool × State :=
  if t.fate = .lost then (true, s)
  else
    let nodes := releaseNodes t.cl 5
    match releaseStep pushNode s nodes t.release with
    | (some p, s) => (false, onTeam s tid fun y => { y with release := p })
    | (none, s) => (true, onTeam s tid fun y => { y with release := nodes.length })

/-- The word of a team's bit in its launch's completion bitmap (R351). -/
def bitmapWord (la : Launch) (i : Nat) : Nat := (la.rcd.cbmp.toNat + 4 * (i / 32)) % 2 ^ 64

/-- The bit is to be written. -/
def bitmapWanted (s : State) (la : Launch) : Bool := la.rcd.cbmp ≠ 0 && !s.gerLost

def bitmapQuiet (s : State) (la : Launch) (i : Nat) : Bool :=
  !bitmapWanted s la || lineQuiet s la.tag (lineOf (bitmapWord la i))

/-- Setting the bit of team `i`; one that cannot be written is logged (R351, R430 type 14). -/
def setBitmap (s : State) (la : Launch) (i : Nat) : State :=
  if !bitmapWanted s la then s
  else match orHome s la.tag (bitmapWord la i) (i % 32) with
    | (true, s) => s
    | (false, s) => logError s ⟨14, 0, 0, 0, some la.tag, bitmapWord la i, bytesLe 4 i⟩

/-- What a team holds on its cluster is freed, its banks zeroed; its tiles are, before another team has them (R336, R478); its
tag rests (R215, R216, R351). -/
def releaseHoldings (s : State) (t : Team) : State :=
  let s := disownAtoms (t.waves.foldl dropWaveLatches s) t.waves
  let mine (q : Nat × Nat × BankMode × Nat) : Bool :=
    t.waves.contains q.2.2.2 && (q.2.2.1 = .scr || q.2.2.1 = .fifo)
  let s := { s with
    waves := s.waves.filter fun e => !t.waves.contains e.1
    modeReqs := s.modeReqs.filter fun q => !mine q }
  if t.task then s
  else
    let s := freeBanks s t.cl t.regBank (t.nReg + t.nData)
    { s with quarantine := s.quarantine ++ [(t.cl, t.allocTag)] }

/-- A launch counts a team that has ended (R366). A task counts where it is aborted or lost. -/
def countTeam (l : Launch) (t : Team) : Launch :=
  let l := { l with spills := l.spills.filter fun i => some i ≠ t.spill, ended := if t.task then l.ended else l.ended + 1 }
  match t.fate with
  | .normal =>
    if t.task then l
    else { l with teams := l.teams + 1, gone := match t.cohort with
      | some c => l.gone ++ [c]
      | none => l.gone }
  | .aborted => { l with aborted := l.aborted + 1 }
  | .lost => { l with lost := l.lost + 1 }

/-- A team leaves the machine. -/
def dismiss (s : State) (tid : Nat) (t : Team) : State :=
  let s := releaseHoldings s t
  let s := onLaunch s t.launch fun l => countTeam l t
  let s := { s with teams := kvErase s.teams tid, mats := s.mats.filter fun e => e.2.team ≠ tid }
  releaseTasks s t.launch t.cl

/-- R351: release, bitmap bit, then banks and tiles. -/
def retireTeam (s : State) (tid : Nat) : State :=
  match findTeam s tid with
  | none => s
  | some t =>
    if !teamOver s tid t then s
    else match releaseTeam s tid t with
      | (false, s) => s
      | (true, s) =>
        match findLaunch s t.launch with
        | none => dismiss s tid t
        | some la =>
          if t.task then dismiss s tid t
          else if !bitmapQuiet s la t.idx then s
          else dismiss (setBitmap s la t.idx) tid t

/-- R351. -/
def execTeamRetirement (t : Nat) (s : State) : Host.Outcome State Fault Refusal := .next (retireTeam s t)

/-! A launch (R366, R367). -/

/-- Every team of a launch has ended, and none of its tasks and task records is left. -/
def launchOver (s : State) (id : Nat) (la : Launch) : Bool :=
  la.ended = la.total && !(s.teams.any fun e => e.2.launch = id) &&
    !(s.images.any fun e => e.2.team.launch = id) &&
    s.tasks.all fun e => e.2.launch ≠ id || (e.2.chip = [] && e.2.ringCount = 0)

def launchStatus (l : Launch) : Nat := if l.lost ≠ 0 then 5 else if l.aborted ≠ 0 || l.taskerr ≠ 0 then 4 else 0

/-- R366, R367. -/
def endLaunch (s : State) (id : Nat) : State :=
  match findLaunch s id with
  | none => s
  | some la =>
    if !launchOver s id la || s.gerLost || !crecQuiet s la.tag la.rcd then s
    else
      let s := writeCompletion s la.tag la.rcd
        (completionWords (launchStatus la) la.teams la.aborted la.lost la.lanes la.taskerr la.tstart s.clock)
      { s with launches := kvErase s.launches id }

/-- R366, R367. -/
def execLaunchEnd (n : Nat) (s : State) : Host.Outcome State Fault Refusal := .next (endLaunch s n)

end Sys2Proof.Machine
end

