-- ==== Sys2Proof/Machine/Store.lean ====
section
/-! DEFINITION. The context store and pre-emption (R38, R166, R300, R320, R356, R431): the slots, what a team's image holds,
when a team has reached its boundary, and how it is saved. -/

namespace Sys2Proof.Machine

/-! Slots of the context store (R431). -/

def slotsPerHome : Nat := 3072

def slotTaken (s : State) (n : Nat) : Bool := s.images.any fun e => e.1 ≤ n && n < e.1 + e.2.slots

def freeStore (s : State) (h : Nat) : List Nat :=
  ((List.range slotsPerHome).map fun i => slotsPerHome * h + i).filter fun n => !slotTaken s n

/-- The first free slot of a home with `need` slots in a row. -/
def storeRun (free : List Nat) (need : Nat) : Option Nat := free.find? fun n => (List.range need).all fun i => free.contains (n + i)

/-- The home of an interposer that has room and the most free slots, ties to the lowest number. -/
def storeOn (s : State) (ipo need : Nat) : Option Nat :=
  let fits := (List.range 6).filterMap fun i =>
    let h := 6 * ipo + i
    let free := freeStore s h
    if homeFenced s h then none else (storeRun free need).map fun n => (free.length, n)
  (fits.foldl (fun b f => match b with
    | none => some f
    | some x => if x.1 < f.1 then some f else some x) none).map (·.2)

/-- Where an image goes: on the team's interposer, else on the other. -/
def storeSlot (s : State) (ipo need : Nat) : Option Nat :=
  match storeOn s ipo need with
  | some n => some n
  | none => storeOn s (1 - ipo) need

/-! The boundary (R356). -/

/-- An atomic of a wave is on its way. -/
def atomFlying (s : State) (w : Nat) : Bool :=
  (s.net ++ s.nacked ++ s.txns.map (·.msg)).any fun m => match m.atom with
    | some a => a.wave = w
    | none => false

/-- A joint operation whose comparison has passed, or an operation that has started, runs to completion first (R320). -/
def matsRunning (s : State) (tid : Nat) : Bool := s.mats.any fun e => e.2.team = tid && (e.2.started || e.2.compared)

/-- An operation of the engine has something on its way. -/
def copiesFlying (s : State) (tid : Nat) : Bool := s.copies.any fun e => e.2.team = tid && copyOutstanding s e.1

/-- A wave is in a `tlbop` that a home has accepted: it is taken after the instruction (R408). -/
def inTlbop (x : Wave) : Bool := x.progress.any fun p => p.asked = pageMark

/-- Every wave of the team stands at an instruction boundary, and its operations at one of theirs. -/
def atBoundary (s : State) (tid : Nat) (t : Team) : Bool :=
  !(t.waves.any fun w => atomFlying s w || (findWave s w).any inTlbop) && !matsRunning s tid && !copiesFlying s tid

/-- An `mma.j` that waits for its comparison is withdrawn, whatever its copy has come to: its operation is not counted, and it
issues again (R320). -/
def withdrawJoint (s : State) (w : Nat) (b : Bool) : State :=
  match findWave s w with
  | none => s
  | some x => match (slotOf x b).joint with
    | none => s
    | some id => match kvFind s.mats id with
      | none => s
      | some op =>
        if jointSettled s id then s
        else
          let s := onSlot s ⟨w, b⟩ fun sl => { sl with joint := none }
          let s := if op.formed then
              onTeam (setToken s op.team op.tok fun k => { k with op := if k.op = some id then none else k.op }) op.team
                fun t => { t with joints := t.joints - 1 }
            else s
          let left := op.supplies.filter fun p => p.wave ≠ x.num
          if op.attached.isNone then { s with mats := kvErase s.mats id }
          else putMat s id { op with formed := false, supplies := left }

def withdrawJoints (s : State) (t : Team) : State :=
  t.waves.foldl (fun u w => withdrawJoint (withdrawJoint u w false) w true) s

/-! The image. -/

/-- A wave holds an address in a range as a PC or join PC: in a slot, in supervisor saved state, or in a live entry of its
fork stack, on chip (`chip`) or spilled (R435). -/
def holdsIn (s : State) (cl : Nat) (tag : AsidTag) (x : Wave) (chip : List Entry) (inside : Nat → Bool) : Bool :=
  let slot (sl : Slot) : Bool := sl.st ≠ .idle && (inside sl.pc.toNat || (sl.j.jv && inside sl.j.h.toNat))
  let ent (e : Entry) : Bool := inside e.pc.toNat || inside e.j.h.toNat
  let word (va : Nat) : Nat := ((newestOnPath s cl tag va).getD 0).toNat
  let dword (va : Nat) : Nat := word va + 2 ^ 32 * word (va + 4)
  let spilled := (List.range (8 * x.spilled)).filterMap fun i =>
    let a := x.spillBase + 32 * i
    (entryOf (dword a) (dword (a + 8)) (dword (a + 16)) (dword (a + 24))).1
  x.alive ≠ 0 && (slot x.a || slot x.b || (match x.saved with
    | some v => slot v.a || slot v.b
    | none => false) || chip.any ent || x.svStack.any ent || spilled.any ent)

/-- A resident wave holds an address in a range. -/
def waveHolds (s : State) (tag : AsidTag) (w : Nat) (x : Wave) (inside : Nat → Bool) : Bool :=
  holdsIn s (clusterOf w) tag x ((List.range x.depth).filterMap fun i => (readEntry s w x i).1) inside

/-- A saved wave holds an address in a range; its on-chip entries lie in its saved window. -/
def savedHolds (s : State) (cl : Nat) (tag : AsidTag) (v : SavedWave) (inside : Nat → Bool) : Bool :=
  let x := v.wave
  let d (i k : Nat) : Nat := memReadN v.window (x.regs * x.width * 4 + 32 * i + 8 * k) 8
  holdsIn s cl tag x ((List.range x.depth).filterMap fun i => (entryOf (d i 0) (d i 1) (d i 2) (d i 3)).1) inside

/-- An image holds an address in a range of its address space (R435). -/
def imageHolds (s : State) (im : Image) (inside : Nat → Bool) : Bool :=
  im.waves.any fun v => savedHolds s im.team.cl im.team.tag v inside

/-- A team holds an address in a removed range of its address space (R436). -/
def codeGone (s : State) (t : Team) : Bool :=
  t.waves.any fun w => match findWave s w with
    | none => false
    | some x => waveHolds s t.tag w x (removedText s t.tag.asid)

/-- A slot as saved: its clause is fetched again on resume (R56). -/
def saveSlot (sl : Slot) : Slot := { sl with clause := [], yielding := none, ranked := none, aged := false, since := none }

/-- A wave as saved: nothing under lookahead, and a release not yet done starts afresh. -/
def saveWave (x : Wave) : Wave :=
  { x with
    a := saveSlot x.a, b := saveSlot x.b
    progress := x.progress.bind fun p => if p.asked < sentMark then none else some p }

/-- `n` bytes of a cluster's local store from an address on, numbered from 0. -/
def cutLocal (s : State) (cl a n : Nat) : Mem :=
  (s.lstore.filter fun c => lsKey cl a ≤ c.1 && c.1 < lsKey cl a + n).map fun c => (c.1 - lsKey cl a, c.2)

/-- The poison marks of register words in such a piece. -/
def cutMarks (s : State) (cl a n : Nat) : List Nat :=
  (s.regPoison.filter fun p => lsKey cl a ≤ p && p < lsKey cl a + n).map fun p => p - lsKey cl a

/-- Bytes of an image in whole (log entry 50). -/
def imageSize (la : Launch) (t : Team) : Nat :=
  2 ^ 12 + t.waves.length * (kernelWindow la.ker + 2 ^ 12) + t.nData * (2 ^ 15 + 2 ^ 10) + t.tiles.length * 4608

/-- The slots that an image of a team takes. -/
def slotsFor (la : Launch) (t : Team) : Nat := if imageSize la t ≤ 2 ^ 20 then 1 else 2

/-- Homes have room for the images of some teams, one after another. -/
def storeRoom (s : State) : List Nat → Bool
  | [] => true
  | tid :: rest => match findTeam s tid with
    | none => storeRoom s rest
    | some t => match findLaunch s t.launch with
      | none => storeRoom s rest
      | some la => match storeSlot s (ipoOf t.cl) (slotsFor la t) with
        | none => false
        | some n => storeRoom { s with images := kvPut s.images n { (default : Image) with slots := slotsFor la t } } rest

/-- A team's image as it stands (R356). -/
def imageOf (s : State) (tid : Nat) (t : Team) (la : Launch) : Image :=
  let ws := t.waves.filterMap fun w => (findWave s w).map fun x =>
    (⟨saveWave x, cutLocal s t.cl x.regbase (windowBytes x), cutMarks s t.cl x.regbase (windowBytes x)⟩ : SavedWave)
  let banks := (List.range t.nData).map fun i =>
    (bankAt s t.cl (t.dataBank + i), cutLocal s t.cl ((t.dataBank + i) * 2 ^ 15) (2 ^ 15))
  let tiles := t.tiles.map fun p => (s.tiles.filter fun e => e.1.1 = t.cl && e.1.2.1 = p).map fun e => (e.1.2.2, e.2)
  let mats := (s.mats.filter fun e => e.2.team = tid).map fun e => (e.1, { e.2 with windows := [] })
  let modes := (s.modeReqs.filter fun q => t.waves.contains q.2.2.2 && (q.2.2.1 = .scr || q.2.2.1 = .fifo)).map fun q =>
    (q.2.1 - t.dataBank, q.2.2.1)
  let members (l : List (Nat × Nat)) : List Nat := (l.filter fun k => (t.cohort.map (·.1)) = some k.1).map (·.2)
  let size := imageSize la t
  let team := { t with leaving := false, release := 0 }
  { gen := s.ctx.ckgen, crcOk := true, size, cg := codeGone s t, held := s.ctx.busy && s.ctx.op = 1, step := s.stepId,
    crec := la.rcd.crec, rcd := la.rcd, ker := la.ker, tid, team, waves := ws, banks, tiles,
    copies := s.copies.filter fun e => e.2.team = tid, mats, modes, seq := la.seq,
    slots := slotsFor la t, killed := members la.killed, gone := members la.gone, foreign := false }

/-! Saving. -/

/-- Images that a running command counts (R432). -/
def counted (s : State) (la : Launch) : Bool :=
  s.ctx.busy && (s.ctx.op = 1 || (s.ctx.op = 0 && la.rcd.crec = s.ctx.lsel))

/-- One team at its boundary, its release done, goes to the store; none where no home has room. -/
def saveTeam (s : State) (tid : Nat) : Option State :=
  match findTeam s tid with
  | none => some s
  | some t => match findLaunch s t.launch with
    | none => some s
    | some la =>
      let s := t.waves.foldl (fun u w => landAll (dropWaveLatches u w) w) s
      let im := imageOf s tid t la
      (storeSlot s (ipoOf t.cl) im.slots).map fun n =>
        let s := { s with images := kvPut s.images n im }
        let s := if counted s la then { s with ctx := { s.ctx with count := satAdd s.ctx.count 1 } } else s
        let s := releaseHoldings { s with
          copies := s.copies.filter fun e => e.2.team ≠ tid
          mats := s.mats.filter fun e => e.2.team ≠ tid } t
        releaseTasks { s with teams := kvErase s.teams tid } t.launch t.cl

/-- All of a group, or none. -/
def saveAll (s : State) : List Nat → Option State
  | [] => some s
  | t :: rest => match saveTeam s t with
    | none => none
    | some s => saveAll s rest

/-- The releases of a group of teams. -/
def releaseAll (s : State) : List Nat → Bool × State
  | [] => (true, s)
  | tid :: rest => match findTeam s tid with
    | none => releaseAll s rest
    | some t => match releaseTeam s tid t with
      | (false, s) => (false, s)
      | (true, s) => releaseAll s rest

/-- A pre-emption that finds no room is given up (R431); on the way to D3hot the teams are lost (R440). -/
def keepGroup (s : State) (ts : List Nat) : State :=
  if s.d3hot then
    ts.foldl (fun u tid => match findTeam u tid with
      | none => u
      | some t => logError (endTeam u tid .lost) ⟨13, 4, 2, 0, some t.tag, 0, bytesLe 4 0 ++ bytesLe 4 2⟩) s
  else
    let s := ts.foldl (fun u tid => onTeam u tid fun t => { t with leaving := false, release := 0 }) s
    if s.ctx.busy && s.ctx.op.toNat ≤ 1 then { s with ctx := { s.ctx with result := 2 } } else s

/-- The teams that leave with one, when all of them have been asked to. -/
def leavingGroup (s : State) (tid : Nat) : Option (List Nat) :=
  let ts := leavesWith s tid
  if !ts.isEmpty && ts.all fun k => match findTeam s k with
    | some t => t.leaving
    | none => false then some ts else none

/-- R356: a team asked to leave, with its cohort, is taken to its boundary, releases its writes and is saved. A team whose
waves have all ended retires instead (R357). Without Germinal there is no pre-emption (R33). -/
def preemptTeam (s : State) (tid : Nat) : State :=
  match (leavingGroup s tid).filter fun _ => !s.gerLost with
  | none => s
  | some ts =>
    let s := ts.foldl (fun u k => match findTeam u k with
      | some t => withdrawJoints u t
      | none => u) s
    let ready := ts.all fun k => match findTeam s k with
      | some t => atBoundary s k t && !wavesEnded s t
      | none => true
    if !ready then s
    else match releaseAll s ts with
      | (false, s) => s
      | (true, s) => match saveAll s ts with
        | some s => s
        | none => keepGroup s ts

/-- R356. -/
def execTeamPreemption (t : Nat) (s : State) : Host.Outcome State Fault Refusal := .next (preemptTeam s t)

end Sys2Proof.Machine
end

