-- ==== Sys2Proof/Machine/Tasks.lean ====
section
/-! DEFINITION. Starting tasks (R371, R372, R375): popping and stealing records, refilling a queue from its ring. -/

namespace Sys2Proof.Machine

/-- A read of a ring record: on its way, discarded, or here. -/
inductive RingGot where
  | waiting
  | discarded
  | record (r : TaskRec)
  deriving DecidableEq, Repr

/-- Record `i` of a core's ring, read at its die. -/
def readRing (s : State) (core : Nat) (la : Launch) (i : Nat) : RingGot × State :=
  let va := ringVa la.rcd core i
  let d := core / 96
  if shooting s la.tag.asid va then (.waiting, s)
  else match ringRefused s core la va .load with
  | (true, s) => (.discarded, s)
  | (false, s) =>
    let ws := (List.range 4).map fun j => ringWord s d la.tag (va + 4 * j)
    match allSome ws with
    | none => (.waiting, askRing s d la.tag va)
    | some xs => if xs.any (·.2) then (.discarded, s) else (.record (recOf (xs.map (·.1))), s)

/-- Records of a ring from `i` on, oldest first: none while one is on its way, else the records and how many were
discarded. -/
def readRings (s : State) (core : Nat) (la : Launch) (i : Nat) : Nat → Option (List TaskRec × Nat) × State
  | 0 => (some ([], 0), s)
  | n + 1 =>
    let (g, s) := readRing s core la i
    let (rest, s) := readRings s core la (i + 1) n
    (match g, rest with
      | .waiting, _ | _, none => none
      | .discarded, some (rs, k) => some (rs, k + 1)
      | .record r, some (rs, k) => some (r :: rs, k), s)

/-- An emptied on-chip part takes back the 8 newest records of its ring (R371); false while they are on their way. -/
def refillQueue (s : State) (core : Nat) (la : Launch) (q : TaskQueue) : Bool × State :=
  if q.chip ≠ [] || q.ringCount = 0 then (true, s)
  else
    let n := min 8 q.ringCount
    match readRings s core la (q.ringHead + q.ringCount - n) n with
    | (none, s) => (false, s)
    | (some (rs, k), s) =>
      (true, putQueueOf (countTaskErr s q.launch k) core { q with chip := rs, ringCount := q.ringCount - n })

/-- The records that a queue holds. -/
def queued (q : TaskQueue) : Nat := q.chip.length + q.ringCount

/-- The core of a list, in ascending order, with the most records of a launch. -/
def fullest (s : State) (id : Nat) (cores : List Nat) : Option Nat :=
  (cores.foldl (fun (b : Option (Nat × Nat)) c => match kvFind s.tasks c with
    | some q => if q.launch ≠ id || queued q = 0 then b
      else match b with
        | some x => if x.2 < queued q then some (c, queued q) else b
        | none => some (c, queued q)
    | none => b) none).map (·.1)

/-- Whom a core steals from: a core of its cluster, else of its die (R372). -/
def victimCore (s : State) (id core : Nat) : Option Nat :=
  let near := (List.range 4).map fun k => core / 4 * 4 + k
  let die := (List.range 96).map fun k => core / 96 * 96 + k
  match fullest s id (near.filter (· ≠ core)) with
  | some c => some c
  | none => fullest s id (die.filter (· ≠ core))

/-- Taking the oldest record of a core's queue; the state as it stands, and the record where it is here. -/
def stealFrom (s : State) (id core : Nat) (la : Launch) : Option TaskRec × State :=
  match kvFind s.tasks core with
  | none => (none, s)
  | some q =>
    if q.ringCount ≠ 0 then
      let t (s : State) : State := putQueueOf s core { q with ringHead := q.ringHead + 1, ringCount := q.ringCount - 1 }
      match readRing s core la q.ringHead with
      | (.waiting, s) => (none, s)
      | (.discarded, s) => (none, countTaskErr (t s) id 1)
      | (.record r, s) => (some r, t s)
    else match q.chip with
      | [] => (none, s)
      | r :: rest => (some r, putQueueOf s core { q with chip := rest })

/-- The record that a core's task slot takes: the newest of its queue, else, once that is empty, a stolen one. -/
def takeRecord (s : State) (id core : Nat) (la : Launch) (q : TaskQueue) : Option TaskRec × State :=
  match refillQueue s core la q with
  | (false, s) => (none, s)
  | (true, s) => match kvFind s.tasks core with
    | none => (none, s)
    | some q => match q.chip.getLast? with
      | some r => (some r, putQueueOf s core { q with chip := q.chip.dropLast })
      | none => match (victimCore s id core).filter fun _ => q.ringCount = 0 with
        | none => (none, s)
        | some v => match stealFrom s id v la with
          | (r, s) => (r, releaseTasks s id (v / 4))

/-- The position and number of a free task slot of a core: which one a task takes no rule says; the lowest position (DESIGN
CHOICE, log entry 135). -/
def freeTaskSlot (s : State) (core : Nat) (r : TaskRes) : Option (Nat × Nat) :=
  ((List.range r.slots.length).map fun i => (i, r.slots.getD i 0)).find? fun e =>
    coreOf e.2 = core && (findWave s e.2).isNone

/-- A record starts as a task in a slot (R122, R150, R372). -/
def beginTask (s : State) (id : Nat) (la : Launch) (bank : Nat) (slot : Nat × Nat) (spill : Option Nat) (entry : BitVec 56)
    (r : TaskRec) : State :=
  let cl := clusterOf slot.2
  let win := kernelWindow la.ker
  let base := bank * 2 ^ 15 + slot.1 * win
  let k := lsKey cl base
  let (tid, s) := fresh s
  let (age, s) := fresh s
  let s := { s with
    lstore := memClear s.lstore k win
    regPoison := s.regPoison.filter fun p => !(k ≤ p && p < k + win) }
  let t := { newTeam id la 0 cl with task := true, waves := [slot.2], regBank := base / 2 ^ 15, spill, placed := age }
  let s := { s with teams := s.teams ++ [(tid, t)] }
  let s := putWave s slot.2 (newWave la tid 0 base age spill entry r.arg r.frame)
  selfInvalidate (onLaunch s id fun l => { l with spills := l.spills ++ spill.toList }) cl 2

/-- R372, R375: a free task slot of a core takes a record. None starts while images are held (R433). Where the last records
were discarded, the cluster may have nothing of the launch left (R352). -/
def startTask (s : State) (core : Nat) : State :=
  match kvFind s.tasks core with
  | none => s
  | some q => match findLaunch s q.launch with
    | none => s
    | some la => match kvFind la.taskCl (core / 4) with
      | none => s
      | some res => match freeTaskSlot s core res, spillIndices la 1 with
        | some slot, some spill =>
          if (s.images.any fun e => e.2.held) || (s.ctx.busy && s.ctx.op = 1) || s.d3hot then s
          else match takeRecord s q.launch core la q with
            | (none, s) => releaseTasks s q.launch (core / 4)
            | (some r, s) => match la.ker.entries[r.entry.toNat]? with
              | none => releaseTasks (countTaskErr s q.launch 1) q.launch (core / 4)
              | some e => beginTask s q.launch la res.bank slot (spill.headD none) e r
        | _, _ => s

/-- R372. -/
def execTaskStart (core : Nat) (s : State) : Host.Outcome State Fault Refusal := .next (startTask s core)

end Sys2Proof.Machine
end

