-- ==== Sys2Proof/Machine/Resume.lean ====
section
/-! DEFINITION. Resuming teams from their images (R300, R353, R356, R357, R433, R434, R436), and placement in its order (R354,
R355). -/

namespace Sys2Proof.Machine

/-! Which images resume (R433, R434, R438). -/

/-- The images that resume with one: those of its cohort, or itself. -/
def resumesWith (s : State) (n : Nat) (im : Image) : List (Nat × Image) :=
  match im.team.cohort with
  | none => [(n, im)]
  | some (c, _) => s.images.filter fun e => e.2.team.launch = im.team.launch && (e.2.team.cohort.map (·.1)) = some c

def memberNumber (im : Image) : Nat := (im.team.cohort.map (·.2)).getD 0

/-- Every member of the cohort is here with one GEN, or has ended (R433). -/
def groupWhole (la : Launch) (g : List (Nat × Image)) : Bool :=
  match g with
  | [] => false
  | e :: rest => rest.all (fun f => f.2.gen = e.2.gen) && match e.2.team.cohort with
    | none => true
    | some (c, _) => (List.range la.ker.cohn).all fun j =>
        la.killed.contains (c, j) || la.gone.contains (c, j) || g.any fun f => memberNumber f.2 = j

/-- A group may resume now. -/
def groupFree (s : State) (la : Launch) (g : List (Nat × Image)) : Bool :=
  placing s && groupWhole la g && g.all fun e =>
    !e.2.held && !imageHolds s e.2 (inPatch s e.2.team.tag.asid)

/-! Where they resume (R357, R358). -/

/-- Members of a column cohort, each on its own die. -/
def seatMembers (s : State) (id : Nat) (la : Launch) (col : Nat) (js : List Nat) : Option (List Seat) :=
  js.foldl (fun acc j => match acc with
    | none => none
    | some ps => (seatTeam s id la [] [] [columnCluster col j]).map fun r => ps ++ [r.1]) (some [])

/-- Places for the members of a group. -/
def seatGroup (s : State) (id : Nat) (la : Launch) (js : List Nat) : Option (List Seat) :=
  let lb := { la with ker := { la.ker with cohn := if la.ker.cohlv = 0 then 0 else js.length } }
  if la.ker.cohlv = 2 then
    let fits := (eligibleColumns s la.rcd).filterMap fun c => (seatMembers s id la c js).map fun ps => (columnUse s [] c, ps)
    (fits.foldl (fun b f => match b with
      | none => some f
      | some x => if f.1 < x.1 then some f else some x) none).map (·.2)
  else if 4 ≤ la.ker.cohlv then seatOnDomain s id lb
  else (eligibleDies s la.rcd).findSome? fun d => seatOnDie s id lb d

/-! Restoring. -/

/-- How local addresses move: those of a run of bytes go to where the run lies now. -/
structure Shift where
  old : Nat
  size : Nat
  new : Nat
  deriving DecidableEq, Repr

def shiftAddr (h : Shift) (a : Nat) : Nat := if h.old ≤ a && a < h.old + h.size then a - h.old + h.new else a

def shiftWord (h : Shift) (w : Word) : Word := BitVec.ofNat 32 (shiftAddr h w.toNat)

/-- BASE of a descriptor (R310). -/
def shiftOperand (h : Shift) (m : MatOperand) : MatOperand := match m with
  | .scratch lo hi => .scratch (lo &&& 0xFFE00000 ||| BitVec.ofNat 32 (shiftAddr h (field lo 0 21).toNat % 2 ^ 21)) hi
  | m => m

def shiftMat (h : Shift) (cl : Nat) (op : MatOp) : MatOp :=
  let supplies := op.supplies.map fun p => { p with a := shiftOperand h p.a, b := shiftOperand h p.b, windows := [] }
  { op with cl, supplies, a := shiftOperand h op.a, b := shiftOperand h op.b, scaleAddr := shiftAddr h op.scaleAddr }

/-- A slice's local addresses. Destinations of a multicast count from each target's base (R285) and stay. -/
def shiftSlice (h : Shift) (sl : Slice) : Slice :=
  let src : Bool := if sl.kind = .scale then scaleLocal sl else srcLocal sl.kind
  let dst : Bool := sl.kind ≠ .scale && dstLocal sl.kind && !isMulticast sl
  let at' (i : Nat) (on : Bool) (a : List Word) : List Word := if on then a.set i (shiftWord h (a.getD i 0)) else a
  { sl with a := at' 2 dst (at' 0 src sl.a) }

/-- A move goes on from where its team lies now. -/
def shiftMove (h : Shift) (cl : Nat) (tag : Option (BitVec 12)) (slices : List Slice) (m : Move) : Move :=
  let sl := slices.getD m.slice default
  let src : Bool := if sl.kind = .scale then scaleLocal sl else srcLocal sl.kind
  let dst : Bool := sl.kind ≠ .scale && dstLocal sl.kind && !isMulticast sl
  let words := m.words.map fun w => (if src then shiftAddr h w.1 else w.1, if dst then shiftAddr h w.2 else w.2)
  let targets := m.targets.map fun t =>
    if sl.kind = .scale then
      { t with cl := if scaleColumn sl then columnCluster (columnOf cl) (dieOf t.cl % 4) else cl }
    else if dst then { t with cl, tag }
    else t
  { m with words, targets }

def shiftCopy (h : Shift) (cl : Nat) (tag : Option (BitVec 12)) (op : CopyOp) : CopyOp :=
  { op with
    cl, slices := op.slices.map (shiftSlice h), moves := op.moves.map (shiftMove h cl tag op.slices)
    cover := op.cover.map fun e => if e.1.1 = op.cl then ((cl, shiftAddr h e.1.2), e.2) else e }

/-- A piece of local store put in place. -/
def putLocal (s : State) (cl a : Nat) (m : Mem) (marks : List Nat) : State :=
  { s with
    lstore := m.foldl (fun l c => memWrite l (lsKey cl a + c.1) c.2) s.lstore
    regPoison := s.regPoison ++ marks.map fun p => lsKey cl a + p }

/-- The pending trap of a wave whose code is gone (R436). -/
def goneTrap (s : State) (asid : BitVec 16) (x : Wave) : TrapInfo :=
  let holds (sl : Slot) : Bool := sl.st ≠ .idle && removedText s asid sl.pc.toNat
  let b : Bool := if holds x.a then false else if holds x.b then true else x.a.st ≠ .run
  let sl := slotOf x b
  { fetchInfo b 11 sl.pc sl.woff (sl.m &&& x.alive) 0 [] with issued := false }

/-- A saved wave in its slot. -/
def restoreWave (s : State) (asid : BitVec 16) (cg : Bool) (w base : Nat) (h : Shift) (v : SavedWave) : State :=
  let (age, s) := fresh s
  let locals := v.wave.locals.map fun a => { a with lanes := a.lanes.map fun l => { l with addr := shiftAddr h l.addr } }
  let x := { v.wave with regbase := base, age, locals }
  let x := if cg && x.alive ≠ 0 then { x with pending := some (goneTrap s asid x) } else x
  putLocal (putWave s w x) (clusterOf w) base v.window v.marks

/-- A team's data banks, tiles and mode changes. -/
def restoreData (s : State) (tid : Nat) (im : Image) (t : Team) : State :=
  let s := (List.range im.banks.length).foldl (fun u i =>
    let (k, m) := im.banks.getD i (Bank.clear, [])
    let b := t.dataBank + i
    let u := putLocal u t.cl (b * 2 ^ 15) m []
    putBank u t.cl b { k with owner := some tid, dead := false, copying := false, retiring := false }) s
  let s := (List.range im.tiles.length).foldl (fun u i =>
    (im.tiles.getD i []).foldl (fun v e => putTileEntry v t.cl (physTile t i) e.1 e.2) u) s
  { s with modeReqs := s.modeReqs ++ im.modes.map fun q => (t.cl, t.dataBank + q.1, q.2, t.waves.headD 0) }

/-- The copy and matrix operations of a team, with the address-space tag of its launch `la` (R411). -/
def restoreOps (s : State) (im : Image) (la : AsidTag) (cl : Nat) (tag : Option (BitVec 12)) (h : Shift) : State :=
  { s with
    copies := s.copies ++ im.copies.map fun e => (e.1, { shiftCopy h cl tag e.2 with tag := la })
    mats := s.mats ++ im.mats.map fun e => (e.1, shiftMat h cl e.2) }

/-- A team from its image, at its seat. -/
def restoreTeam (s : State) (im : Image) (placed : Nat) (p : Seat) : State :=
  match findLaunch s im.team.launch with
  | none => s
  | some la =>
    let old := { im.team with tag := la.tag }
    let (t, s) := allocate s old.launch la im.tid { old with placed } p
    let s := { s with teams := s.teams ++ [(im.tid, t)] }
    let h : Shift := ⟨old.regBank * 2 ^ 15, (old.nReg + old.nData) * 2 ^ 15, t.regBank * 2 ^ 15⟩
    let s := restoreOps (restoreData s im.tid im t) im la.tag t.cl (some t.allocTag) h
    let s := (List.range (min im.waves.length t.waves.length)).foldl (fun u i =>
      restoreWave u old.tag.asid im.cg (t.waves.getD i 0) (t.regBank * 2 ^ 15 + i * kernelWindow la.ker) h
        (im.waves.getD i default)) s
    selfInvalidate s t.cl 5

/-- The image's slot is freed (R431). -/
def freeImage (s : State) (n : Nat) : State := { s with images := kvErase s.images n }

/-! A task (R356). -/

/-- The engine and the matrix layer of a cluster have room for an image's operations, 16 at each (R280, R316). -/
def enginesRoom (s : State) (cl : Nat) (im : Image) : Bool :=
  engineLoad s cl + im.copies.length ≤ 16 && matLoad s cl + (im.mats.filter fun m => m.2.formed).length ≤ 16

/-- A task slot on a die where a task resumes: the first bank of its windows, its position, its wave slot; the lowest there is
(DESIGN CHOICE, log entry 135). -/
def taskSeat (s : State) (im : Image) (la : Launch) (d : Nat) : Option (Nat × Nat × Nat) :=
  (dieClusters d).findSome? fun cl => match kvFind la.taskCl cl with
    | none => none
    | some r => if !clusterEnabled s cl || !enginesRoom s cl im then none
      else ((List.range 4).findSome? fun k => freeTaskSlot s (4 * cl + k) r).map fun e => (r.bank, e.1, e.2)

/-- The cluster of the die on which task slots of the launch are reserved anew, and their first bank: the lowest that can. R356
names the die only (DESIGN CHOICE, log entry 135). -/
def newTaskRes (s : State) (la : Launch) (d : Nat) : Option (Nat × Nat) :=
  (dieClusters d).findSome? fun cl =>
    let r := roomOf s cl
    if !clusterEnabled s cl || r.task.isSome || r.cores.any fun c => c < la.ker.tslot then none
    else (freeRun r.banks (windowBanks la.ker (4 * la.ker.tslot))).map fun b => (cl, b)

/-- A task from its image in a task slot. -/
def restoreTask (s : State) (im : Image) (la : Launch) (seat : Nat × Nat × Nat) : State :=
  let (bank, i, w) := seat
  let cl := clusterOf w
  let base := bank * 2 ^ 15 + i * kernelWindow la.ker
  let v := im.waves.getD 0 default
  let (placed, s) := fresh s
  let k := lsKey cl base
  let s := { s with
    lstore := memClear s.lstore k (kernelWindow la.ker)
    regPoison := s.regPoison.filter fun p => !(k ≤ p && p < k + kernelWindow la.ker) }
  let t := { im.team with cl, tag := la.tag, waves := [w], regBank := base / 2 ^ 15, placed }
  let s := { s with teams := s.teams ++ [(im.tid, t)] }
  let h : Shift := ⟨v.wave.regbase, windowBytes v.wave, base⟩
  let s := restoreWave (restoreOps s im la.tag cl none h) t.tag.asid im.cg w base h v
  selfInvalidate s cl 5

def resumeTask (s : State) (n : Nat) (im : Image) (la : Launch) : Option State :=
  let id := im.team.launch
  let d := dieOf im.team.cl
  if dieFenced s d then none
  else match taskSeat s im la d with
    | some seat => some (freeImage (restoreTask s im la seat) n)
    | none => match newTaskRes s la d with
      | none => none
      | some (cl, b) =>
        let s := reserveTasks s id la cl b
        match findLaunch s id with
        | none => none
        | some la => (taskSeat s im la d).map fun seat => freeImage (restoreTask s im la seat) n

/-! Resuming. -/

/-- A team ends in the context store: its slot is freed, and it is left with nothing but its retirement, which counts it. -/
def endImage (s : State) (n : Nat) (im : Image) (fate : Fate) : State :=
  let t := { im.team with waves := [], tiles := [], nReg := 0, nData := 0, fate }
  onLaunch { freeImage s n with teams := s.teams ++ [(im.tid, t)] } t.launch fun l =>
    { l with killed := l.killed ++ t.cohort.toList }

/-- The log record of an image that is refused (R430 type 13, R434). -/
def logImage (s : State) (n : Nat) (tag : AsidTag) (result : Nat) : State :=
  logError s ⟨13, 4, 2, n / slotsPerHome, some tag, 0, bytesLe 4 n ++ bytesLe 4 result⟩

/-- A group resumes, each member where its seat is. -/
def resumeGroup (s : State) (g : List (Nat × Image)) (ps : List Seat) : State :=
  let (placed, s) := fresh s
  (List.range g.length).foldl (fun u i =>
    let e := g.getD i default
    restoreTeam (freeImage u e.1) e.2 placed (ps.getD i (0, ⟨[], 0, none⟩))) s

/-- Members of a group by number. -/
def byMember (g : List (Nat × Image)) (n : Nat) : List (Nat × Image) :=
  (List.range n).flatMap fun j => g.filter fun e => memberNumber e.2 = j

/-- The engines have room for every member's operations where it resumes; members on one cluster count together. -/
def groupRoom (s : State) (g : List (Nat × Image)) (ps : List Seat) : Bool :=
  let at' (i : Nat) : Nat := (ps.getD i (0, ⟨[], 0, none⟩)).1
  (List.range g.length).all fun i =>
    let here := (List.range g.length).filter fun j => at' j = at' i
    let all (f : Image → Nat) : Nat := here.foldl (fun n j => n + f (g.getD j default).2) 0
    engineLoad s (at' i) + all (fun im => im.copies.length) ≤ 16 &&
      matLoad s (at' i) + all (fun im => (im.mats.filter fun m => m.2.formed).length) ≤ 16

/-- R356, R357, R433, R434: the image at slot `n`, with its cohort, resumes; none where it cannot now. -/
def resumeNow (s : State) (n : Nat) : Option State :=
  match kvFind s.images n with
  | none => none
  | some im => match findLaunch s im.team.launch with
    | none => none
    | some la =>
      let g := byMember (resumesWith s n im) (max 1 la.ker.cohn)
      if !groupFree s la g then none
      else match g.find? fun e => !e.2.crcOk with
        | some e => some (logImage (endImage s e.1 e.2 .lost) e.1 e.2.team.tag 3)
        | none =>
          if im.team.task then resumeTask s n im la
          else ((seatGroup s im.team.launch la (g.map fun e => memberNumber e.2)).filter (groupRoom s g)).map fun ps =>
            resumeGroup s g ps

/-! Placement in its order (R354, R355). -/

/-- What waits for a place. -/
inductive Waiting where
  | image (n : Nat)
  | unit (id : Nat)
  deriving DecidableEq, Repr

/-- Images in the order of their teams' indices. -/
def insertImage (e : Nat × Image) : List (Nat × Image) → List (Nat × Image)
  | [] => [e]
  | f :: rest => if e.2.team.idx < f.2.team.idx then e :: f :: rest else f :: insertImage e rest

def launchImages (s : State) (id : Nat) : List (Nat × Image) :=
  (s.images.filter fun e => e.2.team.launch = id).foldl (fun l e => insertImage e l) []

/-- What waits at one priority: images first, by acceptance and team index, then launches by acceptance. -/
def waitingAt (s : State) (prio : Nat) : List Waiting :=
  let ls := (s.launches.filter fun e => e.2.rcd.prio = prio).map (·.1)
  (ls.flatMap fun id => (launchImages s id).map fun e => Waiting.image e.1) ++ ls.map Waiting.unit

/-- Everything that waits, first what is served first. -/
def waitingOrder (s : State) : List Waiting := [7, 6, 5, 4, 3, 2, 1, 0].flatMap (waitingAt s)

/-- Placing or resuming it now, where it can go. -/
def goNow (s : State) : Waiting → Option State
  | .image n => resumeNow s n
  | .unit id => placeNext s id

/-- What is served next: the first that can go. -/
def firstServed (s : State) : Option Waiting := (waitingOrder s).find? fun w => (goNow s w).isSome

/-- The teams that leave for what waits and cannot go (R355). -/
def leavesFor (s : State) : Waiting → List Nat
  | .unit id => makeRoom s id
  | .image n => match kvFind s.images n with
    | none => []
    | some im => match findLaunch s im.team.launch with
      | none => []
      | some la => if groupFree s la (resumesWith s n im) then makeRoomFor s la fun u => (resumeNow u n).isSome else []

/-- What waits goes where it is served next; where it cannot go, Germinal makes room for it, as far as the context store has
room for the images (R355, R431). -/
def serve (s : State) (w : Waiting) : State :=
  match goNow s w with
  | some t => if firstServed s = some w then t else s
  | none =>
    let ts := leavesFor s w
    if storeRoom s ts then ts.foldl askLeave s else s

/-- R350, R354, R355, R358: the next ready team or cohort of launch `n`. -/
def execTeamPlacement (n : Nat) (s : State) : Host.Outcome State Fault Refusal := .next (serve s (.unit n))

/-- R354, R356, R357, R434: the image at slot `n`, with its cohort. -/
def execTeamResume (n : Nat) (s : State) : Host.Outcome State Fault Refusal := .next (serve s (.image n))

end Sys2Proof.Machine
end

