-- ==== Sys2Proof/Machine/Fences.lean ====
section
/-! DEFINITION. Dies that fail (R30 to R33, R272 to R275, R458), power (R457), vertical bonds (R322) and fenced layers
(R428). -/

namespace Sys2Proof.Machine

/-! What a compute die takes with it (R30, R349, R376). -/

/-- The records of the queues of a core are discarded and counted. -/
def loseQueue (s : State) (core : Nat) : State :=
  match kvFind s.tasks core with
  | none => s
  | some q => putQueueOf (countTaskErr s q.launch (queued q)) core { q with chip := [], ringCount := 0 }

/-- The task slots that nothing holds any longer on a cluster are given up. -/
def loseTasks (s : State) (cl : Nat) : State :=
  match taskResAt s cl with
  | none => s
  | some (id, _) => releaseTasks s id cl

/-- The teams and tasks of a die are lost, those of its tasks that are saved too, and the records of its queues. -/
def loseDie (s : State) (d : Nat) : State :=
  let s := (s.teams.filter fun e => dieOf e.2.cl = d).foldl (fun t e => endTeam t e.1 .lost) s
  let s := (s.images.filter fun e => e.2.team.task && dieOf e.2.team.cl = d).foldl (fun t e => endImage t e.1 e.2 .lost) s
  let s := (List.range 96).foldl (fun t i => loseQueue t (96 * d + i)) s
  let s := (dieClusters d).foldl loseTasks s
  { s with
    dfence := s.dfence ||| (1#24 <<< d)
    icache := s.icache.filter fun e => dieOf e.1.1 ≠ d }

/-- The units left to dies that no longer work are divided again, and each share joins its die's range, whose units go in
ascending order (R349); where no eligible die is left they stay. -/
def redivide (s : State) (id : Nat) (ds : List Nat) : State :=
  match findLaunch s id with
  | none => s
  | some la =>
    let runs := sortRuns (ds.flatMap (rangeOf la))
    if runs.isEmpty || s.gerLost || (eligibleDies s la.rcd).isEmpty then s
    else
      let la := ds.foldl (fun l d => setRange l d []) la
      let la := (divideUnits s la.ker la.rcd id runs).foldl (fun l r => setRange l r.die (sortRuns (rangeOf l r.die ++ r.runs))) la
      onLaunch s id fun _ => la

def redivideAll (s : State) (ds : List Nat) : State := s.launches.foldl (fun t e => redivide t e.1 ds) s

/-! What the fenced nodes held (R31, R272, R273). -/

/-- A transaction that waits for fenced children has their records walked, and goes on without them. -/
def freeTxn (s : State) (t : Txn) : State :=
  match txnAt s t.node t.msg.tag t.msg.line (fromAbove t.msg.kind) with
  | none => s
  | some t =>
    let t := { t with acks := t.acks.filter fun m => !nodeFenced s m.src }
    let gone := t.await.filter (nodeFenced s)
    if gone.isEmpty then s
    else
      let k (n : Node) : Nat := match n with
        | .stk k => k
        | .die d => d / 4
        | _ => 0
      let s := gone.foldl (fun u n => walkEntry u t.node (k n) t.msg.tag t.msg.line n) s
      let t := { t with await := t.await.filter fun n => !nodeFenced s n }
      if t.await.isEmpty && !t.up then finishTxn s t else putTxn s t

/-- The caches and directories of fenced nodes are discarded, with what they had sent and what was sent to them. -/
def cutNodes (s : State) : State :=
  let gone (n : Node) : Bool := nodeFenced s n
  let s := { s with
    caches := s.caches.filter fun e => !gone e.1.node
    dirs := s.dirs.filter fun e => !gone e.1.node
    net := s.net.filter fun m => !gone m.src && !gone m.dst
    nacked := s.nacked.filter fun m => !gone m.src && !gone m.dst
    l1ways := s.l1ways.filter fun e => !gone (.l1 e.cl)
    ntLines := s.ntLines.filter fun e => !gone e.1
    txns := s.txns.filter fun t => !gone t.node
    lru := s.lru.filter fun e => !gone (.stk e.1) }
  s.txns.foldl freeTxn s

/-! A compute die. -/

/-- A rebuild begins, or a second die joins it (R275). -/
def beginRebuild (s : State) (k d : Nat) : State :=
  let b := rebuildAt s k
  let b := if b.pend then { b with dies := b.dies ++ [d] }
    else { b with pend := true, host := s.service.rbm, die := BitVec.ofNat 2 d, next := 0, lines := 0, dies := [d] }
  { s with rebuilds := kvPut s.rebuilds k b }

/-- R30, R272: a compute die is fenced. -/
def fenceDie (s : State) (d : Nat) : State :=
  if 24 ≤ d || dieFenced s d then s
  else redivideAll (cutNodes (beginRebuild (loseDie s d) (d / 4) d)) [d]

/-- R30. -/
def execDieFence (d : Nat) (s : State) : Host.Outcome State Fault Refusal := .next (fenceDie s d)

/-- The number of a line's entry in a directory (R275): its set, its way, counted in the order of the set, and in a stack its
line of the superblock (log entry 51). -/
def entryIndex (s : State) (n : Node) (tag : AsidTag) (line : Nat) : Nat :=
  match n with
  | .stk k =>
    let blk := line / 4
    let ways := s.lru.filter fun e => e.1 = k && stkSet e.2.2 = stkSet blk
    4 * (16 * stkSet blk + min 15 (ways.findIdx fun e => e.2 = (tag, blk))) + line % 4
  | n => match dirSets n with
    | some sets => 16 * (line % sets) + min 15 ((dirLines s n sets (line % sets)).findIdx fun e => e = (tag, line))
    | none => 0

/-- The records of fenced children whose entries a part of the walk visits, with their stack. -/
def walkPart (s : State) (k : Nat) (visits : Nat → Bool) : State :=
  let due := s.dirs.filter fun e =>
    (fencedChildren s e.1.node).any (fun c => c.1 = k && c.2 = e.1.child) && visits (entryIndex s e.1.node e.1.tag e.1.line)
  due.foldl (fun t e => walkEntry t e.1.node k e.1.tag e.1.line e.1.child) s

/-- The type 6 record (R274, R31). -/
def logWalk (s : State) (k : Nat) : State :=
  let b := rebuildAt s k
  let aux := bytesLe 4 b.lines.toNat
  let sev := if b.lines = 0 then 0 else 5
  if s.stackWalks.contains k then logError s ⟨6, sev, 3, k, none, 0, aux⟩
  else logError s ⟨6, sev, 1, 4 * k + b.die.toNat, none, 0, aux⟩

/-- Entries of a directory (R275). -/
def directoryEntries : Nat := 2 ^ 20

/-- A walk that has visited every entry ends, with its record. -/
def endWalk (s : State) (k : Nat) : State :=
  let s := logWalk s k
  let b := { rebuildAt s k with pend := false, busy := false, next := directoryEntries, dies := [] }
  { s with rebuilds := kvPut s.rebuilds k b, stackWalks := s.stackWalks.filter (· ≠ k) }

/-- R274: in hardware mode the rest of a walk is done at once. -/
def finishWalk (s : State) (k : Nat) : State := endWalk (walkPart s k fun _ => true) k

/-- A walk of the hardware's own runs on a stack; `up` tells whether the stack itself is fenced. -/
def walkRuns (s : State) (k : Nat) (up : Bool) : Bool :=
  let b := rebuildAt s k
  b.pend && !b.host && s.stackWalks.contains k = up

/-- R274. -/
def execVernalRebuildDone (stk : Nat) (s : State) : Host.Outcome State Fault Refusal :=
  .next (if walkRuns s stk false then finishWalk s stk else s)

/-- R275: a batch of a host-assisted walk. -/
def walkBatch (s : State) (k : Nat) : State :=
  let b := rebuildAt s k
  if !b.pend || !b.host || b.busy then s
  else
    let n := if b.batch = 0 then 65536 else b.batch.toNat
    let next := min directoryEntries (b.next + n)
    let s := walkPart s k fun i => next = directoryEntries || (b.next ≤ i && i < next)
    let s := { s with rebuilds := kvPut s.rebuilds k { rebuildAt s k with next } }
    if next = directoryEntries then endWalk s k else s

/-- R275. -/
def execVrctlGo (stk : Nat) (s : State) : Host.Outcome State Fault Refusal := hostCommand s fun s => walkBatch s stk

/-! A base die (R31, R33). -/

/-- The base dies that work, beside one, from which its standby is picked: those of the other interposer while any is left
(R15, R33). -/
def standbyDies (s : State) (active : Nat) : List Nat :=
  let left := (List.range 6).filter fun k => k ≠ active && !s.fencedStacks.contains k
  let far := left.filter fun k => k / 3 ≠ active / 3
  if far.isEmpty then left else far

/-- The base die that becomes the standby: the lowest of them. -/
def newStandby (s : State) (active : Nat) : Option Nat := (standbyDies s active).head?

/-- Germinal is lost: what it was doing stops (R33). -/
def loseGerminal (s : State) : State :=
  { s with
    gerLost := true, gstby := none, boot := 15, berr := 5
    teams := s.teams.map fun e => (e.1, { e.2 with leaving := false, release := 0 }) }

/-- R33: Germinal after the loss of a base die, once its base dies have been picked (R454). A new standby is chosen some time
later. -/
def moveGerminal (s : State) (k : Nat) : State :=
  if s.gerLost || !(s.boot = 4 || s.boot = 5) then s
  else if s.gbase = k then
    match s.gstby with
    | some b => { s with gbase := b, gstby := none }
    | none => loseGerminal s
  else if s.gstby = some k then { s with gstby := none }
  else s

/-- The firmware has chosen a new standby, or not yet (R33): when is a free choice (log entry 116). -/
def chooseStandby (s : State) : State :=
  if !(s.boot = 4 || s.boot = 5) || s.gerLost || s.gstby.isSome || (newStandby s s.gbase).isNone then s
  else
    let (now, s) := drawNat s 2
    if now = 0 then { s with gstby := newStandby s s.gbase } else s

/-- R31: a base die is fenced, with its whole stack. -/
def fenceBase (s : State) (k : Nat) : State :=
  if 6 ≤ k || s.fencedStacks.contains k then s
  else
    let ds := (List.range 4).map fun i => 4 * k + i
    let s := ds.foldl loseDie s
    let b := { rebuildAt s k with
      pend := true, host := s.service.rbm, die := 0, busy := false, next := 0, lines := 0, dies := [] }
    let s := { s with
      rebuilds := kvPut s.rebuilds k b, stackWalks := s.stackWalks ++ [k], fencedStacks := s.fencedStacks ++ [k] }
    redivideAll (moveGerminal (cutNodes s) k) ds

/-- R31, R33. -/
def execBaseDieFence (stk : Nat) (s : State) : Host.Outcome State Fault Refusal := .next (fenceBase s stk)

/-- R31. -/
def execStackWalkDone (stk : Nat) (s : State) : Host.Outcome State Fault Refusal :=
  .next (if walkRuns s stk true then finishWalk s stk else s)

/-! A home die (R32). -/

/-- A line whose home, or whose frame's home, is fenced. -/
def lineLost (s : State) (tag : AsidTag) (va : Nat) : Bool :=
  homeLost s tag va .load || homeLost s tag va .store || homeLost s tag va .fetch

/-- R32: a home die is fenced. -/
def fenceHome (s : State) (h : Nat) : State :=
  if 12 ≤ h || homeFenced s h then s
  else
    let s := { s with
      hfence := s.hfence ||| (1#12 <<< h)
      tlbs := kvErase s.tlbs h
      walkCache := kvErase s.walkCache h
      faults := kvErase s.faults h }
    let s := (s.homeLines.flatMap fun e => (e.2.filter fun l => e.1 = h || 128 * l.line / 2 ^ 40 = h).map fun l =>
      (e.1, l)).foldl (fun t e => discardHome t e.1 e.2) s
    let lost (tag : AsidTag) (line : Nat) : Bool := lineLost s tag (128 * line)
    let hurt (m : Msg) : Msg := if lost m.tag m.line then poisonWords m else m
    let txns := s.txns.map fun t =>
      if lost t.msg.tag t.msg.line then { t with words := t.words.map fun w => { w with poison := true } } else t
    let s := { s with
      caches := s.caches.filter fun e => !lost e.1.tag (lineOf e.1.va)
      dirs := s.dirs.filter fun e => e.1.node ≠ Node.home h && !lost e.1.tag e.1.line
      icache := s.icache.filter fun e => !lost e.1.2.1 (lineOf e.1.2.2)
      net := s.net.map hurt
      txns }
    let s := (s.images.filter fun e => e.1 / slotsPerHome = h).foldl (fun t e => endImage t e.1 e.2 .lost) s
    logError s ⟨6, 0, 2, h, none, 0, bytesLe 4 0⟩

/-- R32. -/
def execHomeDieFence (h : Nat) (s : State) : Host.Outcome State Fault Refusal := .next (fenceHome s h)

/-- R458: a die at its critical temperature stops its clocks and is fenced. -/
def execCriticalTemperature (k : DieKind) (n : Nat) (s : State) : Host.Outcome State Fault Refusal :=
  .next (match k with
    | .compute => fenceDie s n
    | .base => fenceBase s n
    | .home => fenceHome s n)

/-! Power (R457). -/

def putPower (s : State) (d : Nat) (p : DiePower) : State := { s with power := kvPut s.power d p }

/-- R457: a die's clock is lowered, and its matrix layers are shed or not; they are not at the full clock, which is lowered
first. -/
def execPowerThrottle (d mhz : Nat) (shed : Bool) (s : State) : Host.Outcome State Fault Refusal :=
  .next (if d < 24 && mhz ≤ (powerAt s d).dclk.toNat && (!shed || mhz < 2000) then putPower s d ⟨BitVec.ofNat 12 mhz, true, shed⟩ else s)

/-- R457: a die runs at its full clock again. -/
def execThrottleEnd (d : Nat) (s : State) : Host.Outcome State Fault Refusal :=
  .next (if d < 24 then putPower s d ⟨2000, false, false⟩ else s)

/-! Bonds and layers. -/

/-- How much of a bond is gone. -/
def bondRank : BondState → Nat
  | .whole => 0
  | .half => 1
  | .retired => 2

/-- R322: the bond above die `lower` of a column runs at half width, or is retired, and the error log says so. -/
def loseBond (s : State) (col lower : Nat) (half : Bool) : State :=
  let new : BondState := if half then .half else .retired
  if 144 ≤ col || 3 ≤ lower || bondRank new ≤ bondRank (bondAt s col lower) then s
  else
    logError { s with bonds := kvPut s.bonds (col, lower) new }
      ⟨8, 0, 0, columnCluster col lower, none, 0, bytesLe 1 lower ++ bytesLe 1 (if half then 0 else 1)⟩

/-- R322. -/
def execVerticalBondRetired (col lower : Nat) (half : Bool) (s : State) : Host.Outcome State Fault Refusal :=
  .next (loseBond s col lower half)

/-- A cluster's matrix layer is fenced: operations that start from now on skip it (R321, R428). -/
def fenceLayer (s : State) (cl : Nat) : State :=
  if 576 ≤ cl || s.fencedLayers.contains cl then s
  else logError { s with fencedLayers := s.fencedLayers ++ [cl] } ⟨9, 0, 0, cl, none, 0, []⟩

/-- R428: a write of LFENCE. -/
def writeLfence (s : State) (v : BitVec 24) : State :=
  let s := { s with service := { s.service with lfence := v } }
  if v.getLsbD 23 then fenceLayer s (field v 0 10).toNat else s

/-- R428. -/
def execLfence (v : BitVec 24) (s : State) : Host.Outcome State Fault Refusal := hostCommand s fun s => writeLfence s v

end Sys2Proof.Machine
end

