-- ==== Sys2Proof/Machine/ChipErrs.lean ====
section
/-! DEFINITION. Uncorrectable errors in on-chip storage (R425) and the layers they fence (R428). -/

namespace Sys2Proof.Machine

/-- The log record of an on-chip error (R430 type 2): the storage kind is its row of R425. -/
def logChip (s : State) (kind sev lk loc : Nat) (tag : Option AsidTag) (addr : Nat) : State :=
  logError s ⟨2, sev, lk, loc, tag, addr, bytesLe 1 kind⟩

/-- What LOC names for a node (R429). -/
def nodeLoc : Node → Nat × Nat
  | .l0 c => (0, c / 4)
  | .l1 cl => (0, cl)
  | .die d => (1, d)
  | .stk k => (3, k)
  | .bridge i => (3, 3 * i)
  | .home h => (2, h)

def logNode (s : State) (kind sev : Nat) (n : Node) (tag : AsidTag) (addr : Nat) : State :=
  logChip s kind sev (nodeLoc n).1 (nodeLoc n).2 (some tag) addr

def countCorrected (s : State) (h : Nat) : State := onCounters s h fun c => { c with corr := satAdd c.corr 1 }

/-- One second of package time (R146). -/
def oneSecond : Nat := 2000000000

/-- An error in a layer's array, tiles or scale memory: the second within a second fences the layer, but where the host
does (R428). -/
def noteLayerError (s : State) (cl : Nat) : State :=
  let now := s.clock.toNat
  let again := match kvFind s.layerErrs cl with
    | some t => now - t ≤ oneSecond
    | none => false
  let s := { s with layerErrs := kvPut s.layerErrs cl now }
  if again && !s.service.lfm then fenceLayer s cl else s

/-- A line of a cache: its clean words are dropped, its dirty words poisoned. -/
def spoilLine (s : State) (n : Node) (tag : AsidTag) (line : Nat) : State :=
  let words := lineAt s n tag line
  let s := words.foldl (fun t e =>
    if e.2.dirty then putCw t n tag e.1 { e.2 with poison := true }
    else if e.2.stale then t else dropCw t n tag e.1) s
  if words.any fun e => e.2.dirty then
    logNode (countSeverity s (homeOf (128 * line)) 3) 1 3 n tag (128 * line)
  else logNode s 1 0 n tag (128 * line)

/-- A line of a home cache: words that DRAM has not are poisoned, and it is dropped. -/
def spoilHome (s : State) (tag : AsidTag) (line : Nat) : State :=
  match locate s tag (128 * line) .load with
  | (.ok p _, s) =>
    match (homeSlice s p.slice).find? fun e => e.line = p.pa / 128 with
    | none => s
    | some e =>
      let s := e.under.foldl (fun t u => poisonWord t u.pa) (evictHome s p.slice e)
      let n : Node := .home p.slice
      if e.under.isEmpty then logNode s 1 0 n tag (128 * line)
      else logNode (countSeverity s p.slice 3) 1 3 n tag (128 * line)
  | (_, s) => s

/-- The set of a node's directory that a line's entry stands in. -/
def directorySet (n : Node) (line : Nat) : Nat := match n with
  | .l1 _ => line / 4 % 64
  | .stk _ => stkSet (line / 4)
  | n => line % (dirSets n).getD 1

/-- A directory record: the words it records as dirty-registered are poisoned at the home, it is gone, and its way is fenced
(R272, R425). -/
def spoilRecord (s : State) (k : DKey) : State :=
  let r := dirAt s k.node k.tag k.line k.child
  if r.st = .i then s
  else
    let s := loseWords (putDir s k.node k.tag k.line k.child ⟨.i, 0, 0⟩) k.node 4 k.tag k.line (dirtied r)
    let s := match parentNode k.node (128 * k.line) with
      | some p => unregister s p k.tag k.line k.node (dirtied r)
      | none => s
    let way := (k.node, directorySet k.node k.line)
    let s := { s with deadWays := kvPut s.deadWays way (kvGet s.deadWays way 0 + 1) }
    let s := if dirtied r = 0 then countSeverity s (homeOf (128 * k.line)) 4 else s
    logNode s 2 4 k.node k.tag (128 * k.line)

/-! Structures in a home's reserved region, whose places in it the spec leaves to the stepping (R416, R431, R455). -/

/-- The log record of such an error: some sector of a part of the region, whose frame is retired (R425). -/
def logRegion (s : State) (h at' sectors : Nat) : State :=
  let (k, s) := drawNat s sectors
  let (g, s) := drawNat s 4
  let pa := h * 2 ^ 40 + reservedBase + at' + 32 * k
  retireFrame (logError s ⟨1, 4, 2, h, none, pa, bytesLe 1 5 ++ bytesLe 1 (3 * 4 ^ g)⟩) pa

/-- Bytes of a home's context store, at the start of its region (R431, R455; log entry 118). -/
def storeRegion : Nat := 3072 * 2 ^ 20

/-- An entry of a home's poison table: every word of the sector that it describes is poisoned (R416). -/
def spoilEntry (s : State) (sector : Nat) : State :=
  let h := 32 * sector / 2 ^ 40
  if s.dramPoison.any fun p => p / 8 = sector then
    logRegion (countSeverity ((List.range 8).foldl (fun t i => poisonWord t (32 * sector + 4 * i)) s) h 4) h storeRegion (2 ^ 25)
  else s

/-- An image in the context store: it fails its CRC check (R416, R434). -/
def spoilImage (s : State) (n : Nat) : State :=
  match kvFind s.images n with
  | none => s
  | some im =>
    let h := n / 3072
    let s := { s with images := kvPut s.images n { im with crcOk := false } }
    logRegion (countSeverity s h 4) h (n % 3072 * 2 ^ 20) 32768

/-- Firmware state: rebuilt from its copy on another home, and counted as corrected (R416). -/
def spoilFirmware (s : State) (h : Nat) : State := logRegion (countCorrected s h) h storeRegion (2 ^ 25)

/-- One error is met. -/
def meetChipError (s : State) (e : ChipErr) : State :=
  match e with
  | .word n tag va => logNode (countCorrected (dropCw s n tag va) (homeOf va)) 0 0 n tag va
  | .text cl tag va =>
    logNode (countCorrected { s with icache := kvErase s.icache (cl, tag, va) } (homeOf va)) 0 0 (.l1 cl) tag va
  | .tlb h =>
    logChip (countCorrected { s with tlbs := kvErase s.tlbs h, walkCache := kvErase s.walkCache h } h) 0 0 2 h none 0
  | .line (.home _) tag line => spoilHome s tag line
  | .line n tag line => spoilLine s n tag line
  | .record k => spoilRecord s k
  | .register cl a => logChip { s with regPoison := s.regPoison ++ [lsKey cl (a / 4 * 4)] } 3 3 0 cl none a
  | .granule cl a =>
    let m := (bankAt s cl (bankOf a)).mode
    if m = .scr || m = .fifo then logChip (setPoison s cl a true) 4 3 0 cl none a else s
  | .entry cl p e =>
    noteLayerError (logChip (putTileEntry s cl p e (withPoison (tileEntry s cl p e) true)) 5 3 0 cl none 0) cl
  | .scale cl e =>
    let v := (kvGet s.scale (cl, e) (0, false)).1
    noteLayerError (logChip { s with scale := kvPut s.scale (cl, e) (v, true) } 6 3 0 cl none 0) cl
  | .array cl => noteLayerError s cl
  | .poisonEntry sector => spoilEntry s sector
  | .stored n => spoilImage s n
  | .firmware h => if h < 12 then spoilFirmware s h else s

/-- The errors that a state comes with are met before anything else happens. -/
def meetChipErrors (s : State) : State := s.chipErrs.foldl meetChipError { s with chipErrs := [] }

end Sys2Proof.Machine
end

