-- ==== Sys2Proof/Machine/Context.lean ====
section
/-! DEFINITION. The context commands (R431 to R434): pre-emption of a launch, checkpoint and release, export, import and
discard. A command goes as far as it can when it starts, and on from there before each step while it runs. -/

namespace Sys2Proof.Config

/-- What the body of an image that another package wrote says; its layout belongs to the stepping (R431). -/
opaque imageBody : List Byte → Machine.Image

end Sys2Proof.Config

namespace Sys2Proof.Machine

/-! Bytes through a buffer of an address space. -/

/-- The lines of `n` bytes from an address on are quiet. -/
def spanQuiet (s : State) (tag : AsidTag) (va n : Nat) : Bool :=
  n = 0 || (List.range ((va + n - 1) / 128 + 1 - va / 128)).all fun i => lineQuiet s tag (va / 128 + i)

/-- What a span of bytes read at its home gave. -/
structure BytesRead where
  bytes : List Byte
  poisoned : Bool
  refused : Option (Nat × Nat)
  deriving DecidableEq, Repr

/-- Words from an address on, each with its line recalled, until one is refused: its address and kind. -/
def readSpan (s : State) (tag : AsidTag) (va : Nat) : Nat → BytesRead × State
  | 0 => (⟨[], false, none⟩, s)
  | n + 1 =>
    let s := if canonical va then recallLine s tag (lineOf va) else s
    match readHome s tag va .load false with
    | (.refused k, s) => (⟨[], false, some (va, k)⟩, s)
    | (.word w, s) =>
      let (r, s) := readSpan s tag (va + 4) n
      ({ r with bytes := bytesLe 4 w.toNat ++ r.bytes }, s)
    | (.poisoned w, s) =>
      let (r, s) := readSpan s tag (va + 4) n
      ({ r with bytes := bytesLe 4 w.toNat ++ r.bytes, poisoned := true }, s)

/-- The bytes `va` to `va + n − 1`, read as whole words. -/
def readBytes (s : State) (tag : AsidTag) (va n : Nat) : BytesRead × State :=
  if n = 0 then (⟨[], false, none⟩, s)
  else
    let first := va / 4 * 4
    let (r, s) := readSpan s tag first ((va + n - 1) / 4 + 1 - va / 4)
    ({ r with bytes := (r.bytes.drop (va - first)).take n }, s)

/-- Pieces of bytes by word: the first ends at a word's end. -/
def wordPieces (va : Nat) (bs : List (Option Byte)) : Nat → List (Nat × List (Option Byte))
  | 0 => []
  | fuel + 1 =>
    if bs.isEmpty then []
    else
      let n := 4 - va % 4
      (va, bs.take n) :: wordPieces (va + n) (bs.drop n) fuel

/-- Bytes written word by word; the refusals met, by address and kind. A refused word is not written. -/
def writePieces (s : State) (tag : AsidTag) (poison : Bool) : List (Nat × List (Option Byte)) → List (Nat × Nat) × State
  | [] => ([], s)
  | (va, bs) :: rest =>
    if bs.all Option.isNone then writePieces s tag poison rest
    else
      let kind : Nat := if !canonical va then 2 else match (translate s tag va .store false).1 with
        | .refused k => k
        | _ => 0
      match if canonical va then storePiece s tag va bs poison else none with
      | some t => writePieces t tag poison rest
      | none =>
        let (es, t) := writePieces s tag poison rest
        ((va, kind) :: es, t)

def writeBytes (s : State) (tag : AsidTag) (va : Nat) (bs : List (Option Byte)) (poison : Bool) : List (Nat × Nat) × State :=
  writePieces s tag poison (wordPieces va bs (bs.length + 1))

/-! The image's bytes (R431). -/

/-- CRC-32C, initial value 0xFFFF_FFFF and final inversion. -/
def crc32c (bs : List Byte) : Nat := (~~~(bs.foldl (fun c b => crcByte (c ^^^ zext 32 b) 8) 0xFFFFFFFF#32)).toNat

/-- The CRC of an image's bytes. -/
def imageCrc (bs : List Byte) : Nat := crc32c (bs.take 4 ++ bs.drop 8)

/-- The header of an image, with its CRC field given. -/
def imageHeader (im : Image) (crc : Nat) : List Byte :=
  bytesLe 4 im.gen.toNat ++ bytesLe 4 crc ++ bytesLe 4 im.size ++
  bytesLe 4 (tagNat (some im.team.tag) + 2 ^ 24 * boolNat im.cg + 2 ^ 25 * boolNat im.held + 2 ^ 26 * im.step.toNat) ++
  bytesLe 8 im.crec.toNat ++ bytesLe 4 im.team.idx ++
  bytesLe 4 ((im.team.cohort.map (·.1)).getD 0xFFFFFFFF) ++ List.replicate 32 0

/-- An image's bytes: the header, a body of the stepping's own, a CRC that fits where the image is sound. -/
def imageText (s : State) (im : Image) : List Byte × State :=
  let body := (List.range (im.size - 64)).map fun i => Config.imageByte (s.freeCtr + i)
  let crc := imageCrc (imageHeader im 0 ++ body)
  (imageHeader im (if im.crcOk then crc else crc ^^^ 1) ++ body, { s with freeCtr := s.freeCtr + im.size })

/-! Commands. -/

def putCtx (s : State) (k : CtxCmd) : State := { s with ctx := k }

/-- A command ends with a result. -/
def endCtx (s : State) (result : BitVec 4) : State := putCtx s { s.ctx with busy := false, result }

/-- Teams that a running pre-emption or checkpoint still waits for. -/
def stillLeaving (s : State) : Bool :=
  s.teams.any fun e => e.2.leaving && match findLaunch s e.2.launch with
    | some la => counted s la
    | none => false

/-- OP 0 (R432): every resident team of the launch that LSEL names is asked to leave. -/
def askLaunch (s : State) (crec : DWord) : State :=
  (s.teams.filter fun e => match findLaunch s e.2.launch with
    | some la => la.rcd.crec = crec
    | none => false).foldl (fun t e => askLeave t e.1) s

/-- OP 1 (R433): acceptance stops, CKGEN advances, every image is sealed with it as held, every team is asked to leave. -/
def askAll (s : State) : State :=
  let g := s.ctx.ckgen + 1
  let s := putCtx s { s.ctx with ckgen := g }
  let images := s.images.map fun e => (e.1, { e.2 with gen := g, held := true })
  let s := { s with accepting := false, images }
  s.teams.foldl (fun t e => askLeave t e.1) s

/-! Release (R433). -/

/-- The launch that an image names by CREC, where it runs. -/
def launchNamed (s : State) (crec : DWord) : Option (Nat × Launch) := s.launches.find? fun e => e.2.rcd.crec = crec

/-- A launch for imported images alone. -/
def importedLaunch (s : State) (im : Image) : Nat × State :=
  let (id, s) := fresh s
  (id, onLaunch (beginLaunch s id id (tagNow s im.rcd.asid) im.rcd im.ker true) id fun l => { l with total := 0 })

/-- An image becomes one of a launch's. -/
def joinLaunch (s : State) (n : Nat) (im : Image) (id : Nat) : State :=
  match findLaunch s id with
  | none => s
  | some la =>
    let mine := im.team.cohort
    let c := (mine.map (·.1)).getD 0
    let more (old : List (Nat × Nat)) (js : List Nat) : List (Nat × Nat) :=
      ((old ++ js.map fun j => (c, j)).eraseDups).filter fun p => some p ≠ mine
    let s := onLaunch s id fun l => { l with
      total := if im.team.task then l.total else l.total + 1
      spills := (l.spills ++ im.team.spill.toList).eraseDups
      killed := if mine.isSome then more l.killed im.killed else l.killed
      gone := if mine.isSome then more l.gone im.gone else l.gone }
    let team := { im.team with launch := id, tag := la.tag }
    let copies := im.copies.map fun e => (e.1, { e.2 with tag := la.tag })
    { s with images := kvPut s.images n { im with team, copies } }

/-- An imported image that has no launch yet joins one. -/
def joinImage (s : State) (n : Nat) : State :=
  match kvFind s.images n with
  | none => s
  | some im =>
    if (findLaunch s im.team.launch).isSome then s
    else match launchNamed s im.crec with
      | some (id, _) => joinLaunch s n im id
      | none =>
        let (id, s) := importedLaunch s im
        joinLaunch s n im id

/-- OP 2 (R433). -/
def releaseImages (s : State) : State :=
  let count := (s.images.filter fun e => e.2.held).length
  let s := putCtx s { s.ctx with count := BitVec.ofNat 32 count }
  let images := s.images.map fun e => (e.1, { e.2 with held := false })
  let s := { s with accepting := true, images }
  (s.images.map (·.1)).foldl joinImage s

/-! Export and import (R432). -/

def ctxTag (s : State) : AsidTag := tagNow s s.ctx.casid

/-- OP 3; none while the buffer's lines are in use. -/
def exportStep (s : State) : Option State :=
  match kvFind s.images s.ctx.slot.toNat with
  | none => some (endCtx s 1)
  | some im =>
    let tag := ctxTag s
    if !spanQuiet s tag s.ctx.cva.toNat im.size then none
    else
      let (bs, s) := imageText s im
      let (bad, s) := writeBytes { s with exports := s.exports ++ [(bs, im)] } tag s.ctx.cva.toNat (bs.map some) false
      some (endCtx s (if bad.isEmpty then 0 else 7))

/-- The number in `n` bytes of a list from a place on. -/
def natAt (bs : List Byte) (i n : Nat) : Nat := (((bs.drop i).take n).foldr (fun b m => b.toNat + 256 * m) 0)

/-- The operations of an image under new numbers, which are none that run here. -/
def renumber (new : Nat → Nat) (im : Image) : Image :=
  let slot (sl : Slot) : Slot := { sl with joint := sl.joint.map new }
  let wave (x : Wave) : Wave :=
    { x with a := slot x.a, b := slot x.b, saved := x.saved.map fun v => { v with a := slot v.a, b := slot v.b } }
  let toks := im.team.toks.map fun k => { k with op := k.op.map new }
  { im with
    team := { im.team with toks }
    waves := im.waves.map fun v => { v with wave := wave v.wave }
    copies := im.copies.map fun e => (new e.1, e.2)
    mats := im.mats.map fun e => (new e.1, e.2) }

/-- The team number that an image's operations name. -/
def retitle (tid : Nat) (im : Image) : Image :=
  let waves := im.waves.map fun v => { v with wave := { v.wave with team := tid } }
  { im with
    tid, waves
    copies := im.copies.map fun e => (e.1, { e.2 with team := tid })
    mats := im.mats.map fun e => (e.1, { e.2 with team := tid }) }

/-- A list cut or filled up to `n` entries. -/
def fitList {α : Type} (n : Nat) (fill : α) (l : List α) : List α := (List.range n).map fun i => l.getD i fill

/-- A wave in the shape that a launch's waves have (R39, R41, R384). -/
def fitWave (x : Wave) : Wave :=
  let width := min x.width 64
  { x with
    width, alive := x.alive &&& widthMask width, gregs := min x.gregs 64, g := fitList (min x.gregs 64) 0 x.g
    k := fitList 12 0 x.k, gk := fitList 12 false x.gk, svG := fitList 8 0 x.svG, svV := fitList 512 0 x.svV }

/-- The image that bytes of another package are: the fields of the header (R431), and for all else, whose layout is the
stepping's, what `Config.imageBody` says, in the shape of a team (log entry 82). -/
def foreignImage (bs : List Byte) : Image :=
  let f := natAt bs 12 4
  let coh := natAt bs 28 4
  let im := Config.imageBody bs
  let member := (im.team.cohort.map (·.2)).getD 0
  let ker := { im.ker with width := min im.ker.width 64, waves := max 1 (min im.ker.waves 16) }
  let team : Team := { im.team with
    idx := natAt bs 24 4
    tag := ⟨BitVec.ofNat 16 f, BitVec.ofNat 8 (f / 2 ^ 16)⟩
    cohort := if coh = 0xFFFFFFFF then none else some (coh, member) }
  let waves := (fitList ker.waves default im.waves).map fun v =>
    { v with wave := fitWave v.wave, window := v.window.filter fun c => c.1 < kernelWindow ker }
  { im with
    gen := BitVec.ofNat 32 (natAt bs 0 4), crcOk := true, size := natAt bs 8 4, cg := (BitVec.ofNat 32 f).getLsbD 24
    step := BitVec.ofNat 6 (f / 2 ^ 26), crec := BitVec.ofNat 64 (natAt bs 16 8), ker, team, waves, foreign := true
    rcd := { im.rcd with crec := BitVec.ofNat 64 (natAt bs 16 8), asid := BitVec.ofNat 16 f }
    banks := im.banks.map fun b => (b.1, b.2.filter fun c => c.1 < 2 ^ 15)
    slots := if natAt bs 8 4 ≤ 2 ^ 20 then 1 else 2 }

/-- The image that some bytes are: what this package wrote, or a foreign one. It belongs to no launch until release. -/
def importedImage (s : State) (bs : List Byte) : Image × State :=
  let (tid, s) := fresh s
  let (home, s) := fresh s
  match s.exports.find? fun e => e.1 = bs with
  | some (_, im) =>
    let s := { s with serial := 2 * s.serial }
    let im := retitle tid (renumber (s.serial / 2 + ·) im)
    ({ im with held := true, team := { im.team with launch := home } }, s)
  | none =>
    let im := retitle tid (renumber (fun o => s.serial + o % 2 ^ 16) (foreignImage bs))
    let s := { s with serial := s.serial + 2 ^ 16 }
    ({ im with held := true, team := { im.team with launch := home } }, s)

/-- An image is placed in a free slot. -/
def placeImage (s : State) (bs : List Byte) : State :=
  let (im, s) := importedImage s bs
  match storeSlot s 0 im.slots with
  | none => endCtx s 2
  | some n =>
    let s := putCtx s { s.ctx with slot := BitVec.ofNat 16 n }
    endCtx { s with images := kvPut s.images n im } 0

/-- OP 4: the header's checks in their order, then the image; none while the buffer's lines are in use. -/
def importStep (s : State) : Option State :=
  let tag := ctxTag s
  let va := s.ctx.cva.toNat
  if !spanQuiet s tag va 64 then none
  else match readBytes s tag va 64 with
    | (⟨h, false, none⟩, s) =>
      let size := natAt h 8 4
      if natAt h 12 4 / 2 ^ 26 ≠ s.stepId.toNat then some (endCtx s 5)
      else if natAt h 0 4 ≠ s.ctx.cigen.toNat then some (endCtx s 4)
      else if size < 64 || 2 ^ 21 < size then some (endCtx s 3)
      else if !spanQuiet s tag va size then none
      else match readBytes s tag va size with
        | (⟨bs, false, none⟩, s) => some (if imageCrc bs ≠ natAt h 4 4 then endCtx s 3 else placeImage s bs)
        | (_, s) => some (endCtx s 7)
    | (_, s) => some (endCtx s 7)

/-- OP 5: the slot is freed; its team is aborted. -/
def discardStep (s : State) : State :=
  match kvFind s.images s.ctx.slot.toNat with
  | none => endCtx s 1
  | some im =>
    let s := endImage s s.ctx.slot.toNat im .aborted
    endCtx (putCtx s { s.ctx with count := 1 }) 0

/-! Running a command. -/

/-- A running command goes on as far as it can; without Germinal there is no pre-emption and no checkpoint (R33). -/
def ctxOn (s : State) : State :=
  if !s.ctx.busy || (s.gerLost && s.ctx.op.toNat ≤ 1) then s
  else if s.ctx.op.toNat ≤ 1 then (if stillLeaving s then s else endCtx s s.ctx.result)
  else if s.ctx.op = 3 then (exportStep s).getD s
  else if s.ctx.op = 4 then (importStep s).getD s
  else s

/-- A command starts. -/
def ctxStart (s : State) (op : BitVec 3) : State :=
  let s := putCtx s { s.ctx with op, busy := true, result := 0, count := 0 }
  if s.gerLost && op.toNat ≤ 1 then s
  else if op = 0 then ctxOn (askLaunch s s.ctx.lsel)
  else if op = 1 then ctxOn (askAll s)
  else if op = 2 then endCtx (releaseImages s) 0
  else if op = 5 then discardStep s
  else if op = 3 || op = 4 then ctxOn s
  else endCtx s 0

/-- GO with an operation: it waits while a command or the patch engine runs (R432). -/
def ctxGo (s : State) (op : BitVec 3) : State :=
  if s.ctx.busy || s.patch.busy || !s.ctx.waiting.isEmpty then putCtx s { s.ctx with waiting := s.ctx.waiting ++ [op] }
  else ctxStart s op

/-- A GO that waits takes effect when what it waits for has ended. -/
def ctxNext (s : State) : State :=
  match s.ctx.waiting with
  | [] => s
  | op :: rest => if s.ctx.busy || s.patch.busy then s else ctxStart (putCtx s { s.ctx with waiting := rest }) op

/-- R432 OP 0. -/
def execPreemptLaunch (s : State) : Host.Outcome State Fault Refusal := hostCommand s fun s => ctxGo s 0

/-- R433: a checkpoint. -/
def execCheckpoint (s : State) : Host.Outcome State Fault Refusal := hostCommand s fun s => ctxGo s 1

/-- R433: release of held images. -/
def execReleaseHeld (s : State) : Host.Outcome State Fault Refusal := hostCommand s fun s => ctxGo s 2

/-- R432 OP 3. -/
def execExportImage (s : State) : Host.Outcome State Fault Refusal := hostCommand s fun s => ctxGo s 3

/-- R432 OP 4. -/
def execImportImage (s : State) : Host.Outcome State Fault Refusal := hostCommand s fun s => ctxGo s 4

/-- R432 OP 5. -/
def execDiscard (s : State) : Host.Outcome State Fault Refusal := hostCommand s fun s => ctxGo s 5

end Sys2Proof.Machine
end

