-- ==== Sys2Proof/Machine/Code.lean ====
section
/-! DEFINITION. Code objects and the patch engine (R435 to R438). -/

namespace Sys2Proof.Machine

/-! Registration (R435). -/

def endCode (s : State) (result : BitVec 3) : State :=
  { s with codeCmd := { s.codeCmd with busy := false, result } }

/-- Two ranges share a byte. -/
def rangesMeet (a n b m : Nat) : Bool := a < b + m && b < a + n && 0 < n && 0 < m

/-- The lowest id that no range has. -/
def freeCodeId (l : List CodeObj) : Option Nat := (List.range 4096).find? fun i => !l.any fun o => o.id = i

/-- OP 0 (R435, R436): removed ranges that the new one overlaps are replaced. -/
def registerCode (s : State) : State :=
  let k := s.codeCmd
  let meets (o : CodeObj) : Bool := o.asid = k.asid && rangesMeet k.base.toNat k.size.toNat o.base o.size
  if s.codes.any fun o => !o.removed && meets o then endCode s 2
  else
    let left := s.codes.filter fun o => !meets o
    match if left.length < 4096 then freeCodeId left else none with
    | none => endCode s 3
    | some i =>
      let o : CodeObj := ⟨i, k.base.toNat, k.size.toNat, k.asid, false⟩
      endCode { s with codes := left ++ [o], codeCmd := { k with id := BitVec.ofNat 12 i } } 0

/-- R435. -/
def execCodeRegister (s : State) : Host.Outcome State Fault Refusal :=
  hostCommand s fun s => if s.codeCmd.busy then s else registerCode s

/-! Holders and removal. -/

def codeById (s : State) (i : Nat) : Option CodeObj := s.codes.find? fun o => !o.removed && o.id = i

def inCode (o : CodeObj) (va : Nat) : Bool := o.base ≤ va && va < o.base + o.size

/-- The resident waves that hold an address in a range of an ASID. -/
def waveHolders (s : State) (asid : BitVec 16) (inside : Nat → Bool) : List (Nat × Wave) :=
  s.waves.filter fun e => match findTeam s e.2.team with
    | some t => t.tag.asid = asid && waveHolds s t.tag e.1 e.2 inside
    | none => false

def imageHolders (s : State) (asid : BitVec 16) (inside : Nat → Bool) : List (Nat × Image) :=
  s.images.filter fun e => e.2.team.tag.asid = asid && imageHolds s e.2 inside

def launchesIn (s : State) (o : CodeObj) : List (Nat × Launch) :=
  s.launches.filter fun e => e.2.tag.asid = o.asid && inCode o e.2.rcd.kdesc.toNat

/-- The holders of an object (R435). -/
def holderCount (s : State) (o : CodeObj) : Nat :=
  (waveHolders s o.asid (inCode o)).length + (imageHolders s o.asid (inCode o)).length + (launchesIn s o).length

/-- Removal keeps the range as a removed one and drops its lines from the instruction caches (R436). -/
def removeCode (s : State) (o : CodeObj) : State :=
  { s with
    codes := s.codes.map fun p => if p = o then { p with removed := true } else p
    icache := s.icache.filter fun e => !(e.1.2.1.asid = o.asid && inCode o e.1.2.2) }

def noteHolders (s : State) (n : Nat) : State :=
  { s with codeCmd := { s.codeCmd with holders := BitVec.ofNat 32 (min n 0xFFFFFFFF) } }

/-- OP 1 (R435). -/
def unloadCode (s : State) : State :=
  match codeById s s.codeCmd.id.toNat with
  | none => endCode s 4
  | some o =>
    let n := holderCount s o
    let s := noteHolders s n
    if n = 0 then endCode (removeCode s o) 0 else endCode s 1

/-- R435. -/
def execCodeUnload (s : State) : Host.Outcome State Fault Refusal :=
  hostCommand s fun s => if s.codeCmd.busy then s else unloadCode s

/-! Forced unload (R436). -/

/-- The teams of a launch that are left to place. -/
def unplacedTeams (la : Launch) : List Nat :=
  (la.ranges.flatMap (·.runs) ++ la.global).flatMap fun r =>
    (List.range r.2).flatMap fun i => unitMembers la.ker (r.1 + i)

/-- The teams left to place of a launch are counted ABORTED, with their bits (R376, R436). -/
def abortUnplaced (s : State) (id : Nat) : State :=
  match findLaunch s id with
  | none => s
  | some la =>
    let ts := unplacedTeams la
    let s := onLaunch s id fun l =>
      { l with ranges := [], global := [], aborted := l.aborted + ts.length, ended := l.ended + ts.length }
    ts.foldl (fun t i => setBitmap t la i) s

/-- The bitmap lines of a launch's unplaced teams are quiet. -/
def unplacedQuiet (s : State) (la : Launch) : Bool := (unplacedTeams la).all fun i => bitmapQuiet s la i

/-- OP 2, once the bitmaps it writes can be written. -/
def forceCode (s : State) (o : CodeObj) : State :=
  let n := holderCount s o
  let holders := (waveHolders s o.asid (inCode o)).map fun e => e.2.team
  let saved := (imageHolders s o.asid (inCode o)).map (·.1)
  let ls := (launchesIn s o).map (·.1)
  let s := removeCode (noteHolders s n) o
  let s := holders.eraseDups.foldl askLeave s
  let s := { s with images := s.images.map fun e => if saved.contains e.1 then (e.1, { e.2 with cg := true }) else e }
  ls.foldl abortUnplaced s

/-- A forced unload that runs does its work when it can. -/
def codeOn (s : State) : State :=
  if !s.codeCmd.busy then s
  else match codeById s s.codeCmd.id.toNat with
    | none => endCode s 4
    | some o => if (launchesIn s o).all fun e => unplacedQuiet s e.2 then endCode (forceCode s o) 0 else s

/-- R436. -/
def execForcedUnload (s : State) : Host.Outcome State Fault Refusal :=
  hostCommand s fun s => if s.codeCmd.busy then s else codeOn { s with codeCmd := { s.codeCmd with busy := true } }

/-! The patch engine (R437, R438). -/

def patchWords (s : State) : Nat := s.patch.nw.toNat + 1
def patchDst (s : State) : Nat := s.patch.dst.toNat / 4 * 4
def patchSrc (s : State) : Nat := s.patch.src.toNat / 4 * 4
def patchTag (s : State) : AsidTag := tagNow s s.patch.asid

def endPatch (s : State) (result : BitVec 3) : State := { s with patch := { s.patch with busy := false, result } }

/-- Where a text word lies: its page needs X and may have S (R438). -/
def locateText (s : State) (tag : AsidTag) (va : Nat) : Xlate × State :=
  if !canonical va then (.refused 2, s)
  else match translate s tag va .fetch true with
    | (.refused 1, s) => translate s tag va .fetch false
    | r => r

/-- The range lies inside one registered object. -/
def patchInside (s : State) : Bool :=
  s.codes.any fun o => !o.removed && o.asid = s.patch.asid && inRange o (patchDst s) (4 * patchWords s)

/-- Every word's translation is allowed: text at the destination, data at the source. -/
def patchMapped (s : State) : Bool :=
  (List.range (patchWords s)).all fun i =>
    let src := patchSrc s + 4 * i
    (match (locateText s (patchTag s) (patchDst s + 4 * i)).1 with
      | .refused _ => false
      | _ => true) && canonical src && match (translate s (patchTag s) src .load false).1 with
        | .refused _ => false
        | _ => true

/-- The result of the checks that come before anything is read: none where they pass. -/
def patchBad (s : State) : Option (BitVec 3) :=
  if !patchInside s then some 1 else if !patchMapped s then some 2 else none

/-- A wave is parked: nothing of its next instruction has been done that cannot be begun again (R356). -/
def waveParked (s : State) (w : Nat) (x : Wave) : Bool :=
  !atomFlying s w && match x.progress with
    | some p => p.asked < sentMark
    | none => true

/-- One word written at its home under its page's layout. -/
def patchWord (s : State) (tag : AsidTag) (va : Nat) (w : Word) : State :=
  match locateText s tag va with
  | (.ok p _, s) => physWrite (settle (recallLine s tag (lineOf va)) (some (tag, va)) p) p 4 w.toNat false
  | (_, s) => s

/-- The buffered clause of a slot that has words in the range is dropped, and is checked afresh when it is fetched. -/
def dropClause (inside : Nat → Bool) (sl : Slot) : Slot :=
  let header := (sl.pc - BitVec.ofNat 56 (4 * sl.woff)).toNat
  if sl.st ≠ .idle && (List.range (max 31 sl.clause.length)).any fun i => inside (header + 4 * i) then
    { sl with clause := [], header := none }
  else sl

/-- A wave of the patched address space: its buffers, and what it had asked for and not begun. -/
def patchWave (inside : Nat → Bool) (x : Wave) : Wave :=
  let hit (p : Progress) : Bool := inside (slotOf x p.b).pc.toNat
  { x with
    a := dropClause inside x.a
    b := dropClause inside x.b
    saved := x.saved.map fun v => { v with a := dropClause inside v.a, b := dropClause inside v.b }
    progress := x.progress.filter fun p => !hit p }

/-- The words are written, and the old ones leave every instruction cache and clause buffer. -/
def patchWrite (s : State) (ws : List Word) : State :=
  let tag := patchTag s
  let dst := patchDst s
  let n := 4 * patchWords s
  let inside (va : Nat) : Bool := dst ≤ va && va < dst + n
  let s := (List.range ws.length).foldl (fun t i => patchWord t tag (dst + 4 * i) (ws.getD i 0)) s
  let waves := s.waves.map fun e => match findTeam s e.2.team with
    | some t => if t.tag.asid = tag.asid then (e.1, patchWave inside e.2) else e
    | none => e
  let images := s.images.map fun e =>
    if e.2.team.tag.asid = tag.asid then
      (e.1, { e.2 with waves := e.2.waves.map fun v => { v with wave := patchWave inside v.wave } })
    else e
  { s with waves, images, icache := s.icache.filter fun e => !(e.1.2.1.asid = tag.asid && inside e.1.2.2) }

/-- A running patch goes on: it ends once its waves are parked and its lines quiet. -/
def patchOn (s : State) : State :=
  if !s.patch.busy then s
  else match patchBad s with
    | some r => endPatch s r
    | none =>
      let tag := patchTag s
      let n := 4 * patchWords s
      let held := waveHolders s tag.asid (inPatch s tag.asid)
      if !(held.all fun e => waveParked s e.1 e.2) || !spanQuiet s tag (patchSrc s) n || !spanQuiet s tag (patchDst s) n then s
      else match readBytes s tag (patchSrc s) n with
        | (⟨bs, false, none⟩, s) =>
          let parked := BitVec.ofNat 16 (min held.length 0xFFFF)
          endPatch (patchWrite { s with patch := { s.patch with parked } } (wordsOf bs (patchWords s))) 0
        | (⟨_, _, some _⟩, s) => endPatch s 2
        | (⟨_, true, none⟩, s) => endPatch s 3

/-- R437, R438: GO; one while the engine runs is ignored. -/
def patchGo (s : State) : State :=
  if s.patch.busy then s else patchOn { s with patch := { s.patch with busy := true, result := 0, parked := 0 } }

/-- R438. -/
def execPatch (s : State) : Host.Outcome State Fault Refusal := hostCommand s patchGo

end Sys2Proof.Machine
end

