-- ==== Sys2Proof/Machine/BringUp.lean ====
section
/-! DEFINITION. Bring-up, resets and power states (R15, R439, R440, R447, R452 to R454). -/

namespace Sys2Proof.Machine

/-! Bring-up (R453). -/

/-- FWGO: the staged image is verified and measured; a failure says why, as the implementation finds it. -/
def verifyFirmware (s : State) : State :=
  if s.boot ≠ 1 then s
  else
    let bytes := s.staging
    if Config.firmwareVerifies bytes then { s with boot := 2, measure := Config.firmwareMeasure bytes }
    else
      let (n, s) := drawNat s 3
      { s with boot := 15, berr := if n = 0 then 1 else if n = 1 then 2 else 4 }

/-- R453 step 1. -/
def execFwgo (s : State) : Host.Outcome State Fault Refusal := hostCommand s verifyFirmware

def startTraining (s : State) : State := if s.boot = 2 then { s with training := true } else s

/-- R453 step 2. -/
def execTrgo (s : State) : Host.Outcome State Fault Refusal := hostCommand s startTraining

/-- Training ends (R453): a home that fails ends bring-up. -/
def endTraining (s : State) (fail : BitVec 12) : State :=
  if s.boot ≠ 2 || !s.training then s
  else if fail ≠ 0 then { s with training := false, boot := 15, berr := 3, trfail := fail }
  else { s with training := false, boot := 3 }

/-- With memory trained, the firmware builds the harvest map, and the base dies of Germinal and of its standby are picked among
those that work (R15, R453, R454); with none left Germinal is lost (R33). -/
def buildHarvest (s : State) : State :=
  if s.boot ≠ 3 then s
  else
    let s := { s with clen := s.fused }
    match (List.range 6).filter fun k => !s.fencedStacks.contains k with
    | [] => loseGerminal s
    | l =>
      let (i, s) := drawNat s l.length
      let g := l.getD i 0
      let far := standbyDies s g
      let (j, s) := if far.isEmpty then (0, s) else drawNat s far.length
      { s with boot := 4, gbase := g, gstby := far[j]? }

/-- R453 step 2; step 3 follows before the next event. -/
def execTrainingComplete (fail : BitVec 12) (s : State) : Host.Outcome State Fault Refusal := .next (endTraining s fail)

/-- RUN: Germinal starts, its pointer at host queue 0 (R345, R453). -/
def startGerminal (s : State) : State := if s.boot = 4 then { s with boot := 5, gptr := 0, accepting := true } else s

/-- R453 step 4. -/
def execRun (s : State) : Host.Outcome State Fault Refusal := hostCommand s startGerminal

/-! Resets. -/

/-- The device after a reset: what the host has seen and put next, and what was fixed at manufacture, go on. -/
def resetKeeping (s : State) : State :=
  { State.reset with
    inputs := s.inputs, hostSees := s.hostSees, exports := s.exports, freeCtr := s.freeCtr, serial := s.serial,
    fused := s.fused, stepId := s.stepId }

/-- R439: a full device reset; device memory keeps its contents, with its poison table, its markers and its errors. -/
def execFunctionLevelReset (s : State) : Host.Outcome State Fault Refusal :=
  .next { resetKeeping s with dram := s.dram, dramPoison := s.dramPoison, markers := s.markers, flips := s.flips }

/-- R452: the device is powered. -/
def execPowerOn (s : State) : Host.Outcome State Fault Refusal := .next (resetKeeping s)

/-! Vectors (R447). -/

/-- The one pending message of a vector is sent, where it may be. -/
def sendPending (s : State) (v : Nat) : State :=
  let x := vectorAt s v
  if x.pend && !x.masked && !s.d3hot then raiseVector { s with vectors := kvPut s.vectors v { x with pend := false } } v else s

def unmaskVector (s : State) (v : Nat) : State :=
  if 64 ≤ v then s else sendPending { s with vectors := kvPut s.vectors v { vectorAt s v with masked := false } } v

/-- R447. -/
def execVectorUnmask (v : Nat) (s : State) : Host.Outcome State Fault Refusal := hostCommand s fun s => unmaskVector s v

/-! Peer ports (R448 to R450). -/

/-- A copy uses a port. -/
def usesPort (p : Nat) (op : CopyOp) : Bool :=
  op.gathered && op.slices.any fun sl =>
    !sl.empty && (sl.kind = .peerPut || sl.kind = .peerGet) && (field sl.w1 0 3).toNat = p

/-- R450: the copies of a port end with detail 6, and nothing more of them is written at either end. -/
def failCopies (s : State) (p : Nat) : State :=
  let mine := (s.copies.filter fun e => usesPort p e.2).map (·.1)
  let k := portAt s p
  let s := putPort s p { k with puts := [], gets := [] }
  { s with
    inbound := s.inbound.filter fun i => !mine.contains i.op
    copies := s.copies.map fun e =>
      if mine.contains e.1 then (e.1, { e.2 with moves := [], fault := worse e.2.fault 6 }) else e }

/-- A request of a port's peer. -/
def fromPort (p : Nat) : Instr → Bool
  | .peerRequest q _ => q = p
  | _ => false

/-- A port with its registers changed: where UP falls its traffic ends, and a change of UP raises its vector (R449). -/
def changePort (s : State) (p : Nat) (k : Port) : State :=
  let was := (portAt s p).up
  let s := putPort s p k
  let s := if was && !k.up then { failCopies s p with deferred := s.deferred.filter fun i => !fromPort p i } else s
  if was = k.up then s else raiseIf s k.pven k.pvec.toNat

/-- R448: an enabled port completes training. -/
def linkUp (s : State) (p : Nat) : State :=
  if p < 8 && (portAt s p).pen && !s.d3hot then changePort s p { portAt s p with trained := true } else s

/-- R448. -/
def execPortLinkUp (p : Nat) (s : State) : Host.Outcome State Fault Refusal := .next (linkUp s p)

def linkDown (s : State) (p : Nat) : State :=
  if p < 8 then changePort s p { portAt s p with trained := false } else s

/-- R450. -/
def execPortLinkDown (p : Nat) (s : State) : Host.Outcome State Fault Refusal := .next (linkDown s p)

/-! D3hot (R440). -/

/-- Step 2: nothing is resident, so the clocks stop and the links go down; a return to D0 that waits takes effect. -/
def leaveD3 (s : State) : State :=
  let s := { s with d3hot := false, stopped := false, d0wait := false }
  (List.range 64).foldl sendPending s

def stopClocks (s : State) : State :=
  if !s.d3hot || s.stopped || !s.teams.isEmpty || s.ctx.busy || !s.ctx.waiting.isEmpty then s
  else
    let s := { (List.range 8).foldl linkDown s with stopped := true }
    if s.d0wait then leaveD3 s else s

/-- A write of D3hot: a checkpoint where a team or task is resident, then step 2. -/
def enterD3 (s : State) : State :=
  if s.d3hot then s
  else
    let s := { s with d3hot := true }
    stopClocks (if s.teams.isEmpty then s else ctxGo s 1)

/-- R440. -/
def execD3hotEntry (s : State) : Host.Outcome State Fault Refusal := .next (enterD3 s)

/-- R440: a return to D0, at once or when step 2 is done. -/
def execD0Return (s : State) : Host.Outcome State Fault Refusal :=
  .next (if !s.d3hot then s else if s.stopped then leaveD3 s else { s with d0wait := true })

end Sys2Proof.Machine
end

