-- ==== Sys2Proof/Machine/Ftr.lean ====
section
/-! DEFINITION. The functions of `ftr` (R200 to R204). The correctly rounded ones come from exact quotients and roots; the
others are the RNE rounding of the exact value (R201, R202), which is irrational but in the exact cases named, so that 320
bits of it with a sticky bit decide the rounding. -/

namespace Sys2Proof.Machine

/-- Bits after the point in the fixed-point sums below. -/
def fixBits : Nat := 320

def fixOne : Nat := 2 ^ fixBits

/-- ln 2 and π in fixed point, cut. -/
def fixLn2 : Nat := 0xb17217f7d1cf79abc9e3b39803f2f6af40f343267298b62d8a0d175b8baafa2be7b876206debac98
def fixPi : Nat := 0x3243f6a8885a308d313198a2e03707344a4093822299f31d0082efa98ec4e6c89452821e638d01377

/-- Σ x^k / k! from the term `t` for k − 1 on: e^x when it starts at 1 with k = 1. -/
def expSum (x t k : Nat) : Nat → Nat
  | 0 => t
  | n + 1 => t + expSum x (t * x / fixOne / k) (k + 1) n

/-- 2^f in fixed point, for 0 ≤ f < 1. -/
def exp2Frac (f : Nat) : Nat := expSum (f * fixLn2 / fixOne) fixOne 1 90

/-- Σ z^(2j+1) / (2j+1), the power `t` first, divided by `k`. -/
def atanhSum (z2 t k : Nat) : Nat → Nat
  | 0 => 0
  | n + 1 => t / k + atanhSum z2 (t * z2 / fixOne) (k + 2) n

/-- The alternating sum t − t·y/((k+1)(k+2)) + …: cos from k = 0, sin x / x from k = 1, with y = x². -/
def altSum (y t k : Nat) : Nat → Nat
  | 0 => t
  | n + 1 => t - altSum y (t * y / fixOne / ((k + 1) * (k + 2))) (k + 2) n

/-- A value known to be inexact, as a mantissa with a sticky bit. -/
def inexact (neg : Bool) (m : Nat) (e : Int) : FVal := .fin neg (2 * m + 1) (e - 1)

/-- One, exact. -/
def oneF (neg : Bool) : FVal := .fin neg 1 0

/-- A magnitude far above or far below every f32. -/
def hugeF : FVal := .fin false 1 400
def tinyF : FVal := .fin false 1 (-400)

/-- A nonzero magnitude m × 2^e cut into whole part and fixed-point fraction; e is at least −320. -/
def splitFix (m : Nat) (e : Int) : Nat × Nat :=
  if 0 ≤ e then (m * 2 ^ e.toNat, 0)
  else
    let d := 2 ^ (-e).toNat
    (m / d, m % d * (fixOne / d))

/-- 2^a (R201 SUB 4). -/
def exp2F : FVal → FVal
  | .nan => .nan
  | .inf neg => if neg then .fin false 0 0 else .inf false
  | .fin neg m e =>
    if m = 0 then oneF false
    else if 9 < (Nat.log2 m : Int) + e then (if neg then tinyF else hugeF)
    else
      let (w, f) := splitFix m e
      if f = 0 then .fin false 1 (if neg then -(w : Int) else w)
      else if neg then inexact false (exp2Frac (fixOne - f)) (-(w : Int) - 1 - fixBits)
      else inexact false (exp2Frac f) ((w : Int) - fixBits)

/-- log2 a (R201 SUB 5). -/
def log2F : FVal → FVal
  | .nan => .nan
  | .inf neg => if neg then .nan else .inf false
  | .fin neg m e =>
    if m = 0 then .inf true
    else if neg then .nan
    else
      let k := Nat.log2 m
      let whole : Int := k + e
      if m = 2 ^ k then .fin (whole < 0) whole.natAbs 0
      else
        let z := (m - 2 ^ k) * fixOne / (m + 2 ^ k)
        let ln := 2 * atanhSum (z * z / fixOne) z 1 110
        let v : Int := whole * fixOne + (ln * fixOne / fixLn2 : Nat)
        inexact (v < 0) v.natAbs (-(fixBits : Int))

/-- sin(π r) and cos(π r) for r = n × 2^(−d), 0 ≤ r ≤ 1/4; the sine is zero only for n = 0. -/
def sinSmall (neg : Bool) (n d : Nat) : FVal :=
  if n = 0 then .fin neg 0 0
  else
    let r2 := n * n * fixOne / 2 ^ (2 * d)
    let y := r2 * (fixPi * fixPi / fixOne) / fixOne
    inexact neg (n * fixPi * altSum y fixOne 1 60) (-(2 * fixBits + d : Nat))

def cosSmall (neg : Bool) (n d : Nat) : FVal :=
  if n = 0 then oneF neg
  else
    let r2 := n * n * fixOne / 2 ^ (2 * d)
    let y := r2 * (fixPi * fixPi / fixOne) / fixOne
    inexact neg (altSum y fixOne 0 60) (-(fixBits : Int))

/-- |a| = q/2 + r with −1/4 ≤ r ≤ 1/4: q mod 4, the sign of r, and |r| as n × 2^(−d). -/
def quarters (m : Nat) (e : Int) : Nat × Bool × Nat × Nat :=
  if 0 ≤ e then (m * 2 ^ e.toNat * 2 % 4, false, 0, 0)
  else
    let d := (-e).toNat
    let q := (4 * m + 2 ^ d) / (2 * 2 ^ d)
    let r : Int := (2 * m : Nat) - (q * 2 ^ d : Nat)
    (q % 4, r < 0, r.natAbs, d + 1)

/-- sin(π a) (R201 SUB 6): a zero takes the sign of a. -/
def sinPiF : FVal → FVal
  | .nan => .nan
  | .inf _ => .nan
  | .fin neg m e =>
    if (160 : Int) < e then .fin neg 0 0
    else
      let (q, rn, n, d) := quarters m e
      match q with
      | 0 => if n = 0 then .fin neg 0 0 else sinSmall (neg != rn) n d
      | 1 => cosSmall neg n d
      | 2 => if n = 0 then .fin neg 0 0 else sinSmall (neg == rn) n d
      | _ => cosSmall (!neg) n d

/-- cos(π a) (R201 SUB 7): a zero is +0. -/
def cosPiF : FVal → FVal
  | .nan => .nan
  | .inf _ => .nan
  | .fin _ m e =>
    if (160 : Int) < e then oneF false
    else
      let (q, rn, n, d) := quarters m e
      match q with
      | 0 => cosSmall false n d
      | 1 => if n = 0 then .fin false 0 0 else sinSmall (!rn) n d
      | 2 => cosSmall true n d
      | _ => if n = 0 then .fin false 0 0 else sinSmall rn n d

/-- tanh a (R201 SUB 8), as (E − 1) / (E + 1) with E = e^(2|a|). -/
def tanhF : FVal → FVal
  | .nan => .nan
  | .inf neg => oneF neg
  | .fin neg m e =>
    if m = 0 then .fin neg 0 0
    else if 6 ≤ (Nat.log2 m : Int) + e then inexact neg (2 ^ 100 - 1) (-100)
    else
      let (w, f) := splitFix m (e + 1)
      let y := (w * fixOne + f) * fixOne / fixLn2
      let g := exp2Frac (y % fixOne) * 2 ^ (y / fixOne)
      inexact neg ((g - fixOne) * fixOne / (g + fixOne)) (-(fixBits : Int))

/-- 1/√a (R201 SUB 1). -/
def rsqrtF : FVal → FVal
  | .nan => .nan
  | .inf neg => if neg then .nan else .fin false 0 0
  | .fin neg m e =>
    if m = 0 then .inf neg
    else if neg then .nan
    else
      let (m, e) := if e % 2 = 0 then (m, e) else (2 * m, e - 1)
      let n := 2 ^ 160 / m
      let r := isqrt n
      if r * r * m = 2 ^ 160 then .fin false r (-80 - e / 2) else inexact false r (-80 - e / 2)

/-- The functions of R201 by SUB code, on operands after the input flush. -/
def ftrValue (sub : Nat) (a b : FVal) : FVal :=
  match sub with
  | 0 => divF 30 (oneF false) a
  | 1 => rsqrtF a
  | 2 => sqrtF 30 a
  | 3 => divF 30 a b
  | 4 => exp2F a
  | 5 => log2F a
  | 6 => sinPiF a
  | 7 => cosPiF a
  | _ => tanhF a

/-- `ftr` on words: RND acts on the correctly rounded functions alone (R188, R201). -/
def ftrWord (sub : Nat) (mode : BitVec 7) (a b : Word) : Word :=
  let on := mode.getLsbD 2
  let rnd := if sub = 0 || sub = 2 || sub = 3 then rndOf (field mode 0 2) else .rne
  BitVec.ofNat 32 (encodeF fmtF32 rnd (mode.getLsbD 3)
    (ftrValue sub (flushIn fmtF32 on (decodeF fmtF32 a.toNat)) (flushIn fmtF32 on (decodeF fmtF32 b.toNat))))

/-- The mould of `ftr` (R200): its result under lookahead. -/
def ftrEffect (sub : Nat) (f : FtrOps) (c : Ctx) (s : State) : Effect :=
  .done s 0 f.la.toNat (eachResult c f.u f.d fun l =>
    ftrWord sub c.x.fpmode (src s c f.u f.a l) (if sub = 3 then src s c f.u f.b l else 0))

/-- R201 SUB 0. -/
def execFrcp (f : FtrOps) (s : State) : Host.Outcome State Fault Refusal :=
  issueInstr (.frcp f) s (ftrEffect 0 f)

/-- R201 SUB 1. -/
def execFrsq (f : FtrOps) (s : State) : Host.Outcome State Fault Refusal :=
  issueInstr (.frsq f) s (ftrEffect 1 f)

/-- R201 SUB 2. -/
def execFsqrt (f : FtrOps) (s : State) : Host.Outcome State Fault Refusal :=
  issueInstr (.fsqrt f) s (ftrEffect 2 f)

/-- R201 SUB 3. -/
def execFdiv (f : FtrOps) (s : State) : Host.Outcome State Fault Refusal :=
  issueInstr (.fdiv f) s (ftrEffect 3 f)

/-- R201 SUB 4. -/
def execFexp2 (f : FtrOps) (s : State) : Host.Outcome State Fault Refusal :=
  issueInstr (.fexp2 f) s (ftrEffect 4 f)

/-- R201 SUB 5. -/
def execFlog2 (f : FtrOps) (s : State) : Host.Outcome State Fault Refusal :=
  issueInstr (.flog2 f) s (ftrEffect 5 f)

/-- R201 SUB 6. -/
def execFsinpi (f : FtrOps) (s : State) : Host.Outcome State Fault Refusal :=
  issueInstr (.fsinpi f) s (ftrEffect 6 f)

/-- R201 SUB 7. -/
def execFcospi (f : FtrOps) (s : State) : Host.Outcome State Fault Refusal :=
  issueInstr (.fcospi f) s (ftrEffect 7 f)

/-- R201 SUB 8. -/
def execFtanh (f : FtrOps) (s : State) : Host.Outcome State Fault Refusal :=
  issueInstr (.ftanh f) s (ftrEffect 8 f)

end Sys2Proof.Machine
end

