-- ==== Sys2Proof/Machine/Host.lean ====
section
/-! DEFINITION. What the host and peers ask of the device (R255, R344, R404, R439, R441 to R450): the BAR2 window, peer requests,
launch queues, registers. A request for lines that are in use waits in `deferred`, with those after it behind it. -/

namespace Sys2Proof.Machine

/-- A request waits. -/
def deferEvent (s : State) (i : Instr) : State := { s with deferred := s.deferred ++ [i] }

/-! BAR2 (R442). -/

/-- The window answers an access. -/
def windowOpen (s : State) (off len : Nat) : Bool := s.w2en && !s.d3hot && off + len ≤ 2 ^ 28

def windowVa (s : State) (off : Nat) : Nat := s.w2va.toNat / 2 ^ 28 * 2 ^ 28 + off

/-- The pieces of a read, one for each 128-byte block: address and length. -/
def blockPieces (va len : Nat) : List (Nat × Nat) :=
  if len = 0 then []
  else (List.range ((va + len - 1) / 128 + 1 - va / 128)).map fun i =>
    let lo := max va (128 * (va / 128 + i))
    let hi := min (va + len) (128 * (va / 128 + i) + 128)
    (lo, hi - lo)

/-- Completions of a read, in order, up to the first that is refused. -/
def answerBlocks (s : State) (tag : AsidTag) : List (Nat × Nat) → State
  | [] => s
  | (va, n) :: rest =>
    match readBytes s tag va n with
    | (⟨bs, p, none⟩, s) => answerBlocks (tellHost s (.data bs p)) tag rest
    | (_, s) => tellHost s .abort

def bar2Read (s : State) (off len : Nat) : State :=
  if !windowOpen s off len then tellHost s .unsupported
  else
    let tag := tagNow s s.w2asid
    let va := windowVa s off
    if !spanQuiet s tag va len then deferEvent s (.bar2Read off len)
    else if len = 0 then tellHost s (.data [] false)
    else answerBlocks s tag (blockPieces va len)

/-- R442. -/
def execBar2Read (off len : Nat) (s : State) : Host.Outcome State Fault Refusal := .next (bar2Read s off len)

/-- The fault records of refused writes, one for each page (R403, R442). -/
def recordRefused (s : State) (tag : AsidTag) (src : Nat) (es : List (Nat × Nat)) : State :=
  let pages := (es.map fun e => e.1 / 4096).eraseDups
  pages.foldl (fun t g => match es.find? fun e => e.1 / 4096 = g with
    | some e => deviceRecord t tag src 1 e.1 e.2
    | none => t) s

def bar2Write (s : State) (off : Nat) (data : List (Option Byte)) : State :=
  if !windowOpen s off data.length then tellHost s .unsupported
  else
    let tag := tagNow s s.w2asid
    let va := windowVa s off
    if !spanQuiet s tag va data.length then deferEvent s (.bar2Write off data)
    else
      let (es, s) := writeBytes s tag va data false
      recordRefused s tag 5 es

/-- R442. -/
def execBar2Write (off : Nat) (data : List (Option Byte)) (s : State) : Host.Outcome State Fault Refusal :=
  .next (bar2Write s off data)

/-! Peers (R287, R450). -/

/-- A peer's read of words. -/
def peerReads (s : State) (p : Nat) (tag : AsidTag) (va n : Nat) : State :=
  match readSpan s tag va n with
  | (⟨bs, poisoned, none⟩, s) => tellHost s (.peerData p (wordsOf bs n) poisoned)
  | (⟨_, _, some (a, k)⟩, s) => tellHost (deviceRecord s tag 1 0 a k) (.peerRefused p)

/-- A peer's write of words, a `.sys` write (R255). -/
def peerWrites (s : State) (p : Nat) (tag : AsidTag) (va : Nat) (ws : List Word) (poison : Bool) : State :=
  let (es, s) := writeBytes s tag va ((ws.flatMap fun w => bytesLe 4 w.toNat).map some) poison
  if es.isEmpty then tellHost s (.peerAck p) else tellHost (recordRefused s tag 1 es) (.peerRefused p)

/-- Address and number of words of a peer's request. -/
def peerSpan : PeerReq → Nat × Nat
  | .read va n => (va / 4 * 4, n)
  | .write va ws _ => (va / 4 * 4, ws.length)

def peerAsks (s : State) (p : Nat) (r : PeerReq) : State :=
  let k := portAt s p
  if 8 ≤ p || !k.up then s
  else
    let tag := tagNow s k.inAsid
    let (va, n) := peerSpan r
    if !spanQuiet s tag va (4 * n) then deferEvent s (.peerRequest p r)
    else match r with
      | .read _ n => peerReads s p tag va n
      | .write _ ws poison => peerWrites s p tag va ws poison

/-- R450. -/
def execPeerRequest (p : Nat) (r : PeerReq) (s : State) : Host.Outcome State Fault Refusal := .next (peerAsks s p r)

/-! Launch queues (R344, R444). -/

/-- A tail write that lowers the count, or raises it more than the ring above the head, stops the queue. -/
def writeTail (s : State) (q : Nat) (v : Word) : State :=
  let k := queueAt s q
  let was := (k.tail - k.head).toNat
  let now := (v - k.head).toNat
  let s := putQueue s q { k with tail := v }
  if k.en && !k.stop && (now < was || 2 ^ k.log.toNat < now) then stopQueue s q 0 else s

/-- R344. -/
def execQtail (q : Nat) (v : Word) (s : State) : Host.Outcome State Fault Refusal :=
  hostCommand s fun s => if q < 64 then writeTail s q v else s

/-- A queue may be enabled. -/
def queueValid (k : HostQueue) : Bool := 1 ≤ k.log.toNat && k.log.toNat ≤ 16 && k.base.toNat % 4096 = 0

def writeEn (s : State) (q : Nat) (v : Bool) : State :=
  let k := queueAt s q
  putQueue s q { k with en := v && (k.en || queueValid k) }

/-- R444. -/
def execEn (q : Nat) (v : Bool) (s : State) : Host.Outcome State Fault Refusal :=
  hostCommand s fun s => if q < 64 then writeEn s q v else s

def restartQueue (s : State) (q : Nat) : State :=
  let k := queueAt s q
  if k.stop then putQueue s q { k with head := 0, tail := 0, stop := false } else s

/-- R444. -/
def execRestart (q : Nat) (s : State) : Host.Outcome State Fault Refusal :=
  hostCommand s fun s => if q < 64 then restartQueue s q else s

/-! Fault record buffers (R404). -/

/-- A host write of HEAD: the comparison of R404 as it stands, by which a full ring takes none that moves (log entry 76). -/
def writeHead (s : State) (h : Nat) (v : BitVec 12) : State :=
  let b := faultBufAt s h
  let n := (v - b.head).toNat
  if !s.service.pfm || (b.tail - b.head).toNat < n then s else putFaultBuf s h { b with head := v }

/-- R404. -/
def execHead (h : Nat) (v : BitVec 12) (s : State) : Host.Outcome State Fault Refusal :=
  hostCommand s fun s => if h < 12 then writeHead s h v else s

end Sys2Proof.Machine
end

