-- ==== Sys2Proof/Machine/Registers.lean ====
section
/-! DEFINITION. Writes of the registers in BAR0, block by block (R441 and the chapters it names). A write of 8 bytes is one of
the low word and then one of the high word. Read-only fields and offsets with no register ignore it. -/

namespace Sys2Proof.Machine

def withLo (d : DWord) (v : Word) : DWord := pairOf v (hiWord d)
def withHi (d : DWord) (v : Word) : DWord := pairOf (loWord d) v

/-- A place in DRAM as a register holds it: a home in [43:40] and an offset that is a multiple of 2^`low`; its other bits are
reserved (R2, R397, R428). -/
def placeBits (low : Nat) (d : DWord) : DWord := d >>> low <<< low &&& 0xFFFFFFFFFFF

/-! Identity and bring-up, queues, thresholds, ports, power, the window. -/

/-- R452: a command bit counts only in its own BOOT state. -/
def regBringUp (s : State) (off : Nat) (v : Word) : State :=
  if off ≠ 8 then s
  else if s.boot = 1 then (if v.getLsbD 0 then verifyFirmware s else s)
  else if s.boot = 2 then (if v.getLsbD 1 then startTraining s else s)
  else if v.getLsbD 2 then startGerminal s
  else s

/-- R443, R444. -/
def regQueue (s : State) (off : Nat) (v : Word) : State :=
  let q := off / 0x40
  let k := queueAt s q
  if 64 ≤ q then s
  else match off % 0x40 with
    | 0x00 => if k.en then s else putQueue s q { k with base := withLo k.base v }
    | 0x04 => if k.en then s else putQueue s q { k with base := withHi k.base v }
    | 0x08 => if k.en then s else putQueue s q { k with log := field v 0 5, asid := field v 16 16 }
    | 0x0C => writeTail s q v
    | 0x14 =>
      let s := if v.getLsbD 2 then restartQueue s q else s
      writeEn s q (v.getLsbD 0)
    | _ => s

/-- R446. -/
def regThreshold (s : State) (off : Nat) (v : Word) : State :=
  let c := off / 4
  if 144 ≤ c then s
  else { s with cth := kvPut s.cth c (BitVec.ofNat 8 (min (field v 0 8).toNat 192)) }

/-- R449. A port that is no longer enabled goes down; BOUND and training together make UP. -/
def regPort (s : State) (off : Nat) (v : Word) : State :=
  let p := off / 0x40
  let k := portAt s p
  if 8 ≤ p then s
  else match off % 0x40 with
    | 0x00 =>
      let s := putPort s p { k with pen := v.getLsbD 0, pvec := field v 1 6, pven := v.getLsbD 7 }
      if v.getLsbD 0 then s else linkDown s p
    | 0x04 => if field v 16 16 = 0 then putPort s p { k with retry := 0 } else s
    | 0x08 => if k.bound then s else putPort s p { k with outAsid := field v 0 16, remAsid := field v 16 16 }
    | 0x0C =>
      let inAsid := if k.bound then k.inAsid else field v 0 16
      changePort s p { k with inAsid, bound := v.getLsbD 16 }
    | _ => s

/-- R456. -/
def regPower (s : State) (off : Nat) (v : Word) : State :=
  if off = 0 then { s with plim := BitVec.ofNat 12 (max 1000 (min (field v 0 12).toNat 2800)) } else s

/-- R442. -/
def regWindow (s : State) (off : Nat) (v : Word) : State :=
  match off with
  | 0x00 => { s with w2va := withLo s.w2va v }
  | 0x04 => { s with w2va := withHi s.w2va v }
  | 0x08 => { s with w2asid := field v 0 16, w2en := v.getLsbD 16 }
  | _ => s

/-! Rebuild, vectors of traps, fault buffers, translation commands, ASID table. -/

/-- R275. -/
def regRebuild (s : State) (off : Nat) (v : Word) : State :=
  let k := off / 0x40
  if 6 ≤ k || off % 0x40 ≠ 0 then s
  else
    let b := { rebuildAt s k with batch := field v 8 16 }
    let s := { s with rebuilds := kvPut s.rebuilds k b }
    if v.getLsbD 0 then walkBatch s k else s

/-- R386. -/
def regTvec (s : State) (off : Nat) (v : Word) : State :=
  let c := off / 8
  if 16 ≤ c then s
  else
    let old := tvecAt s c
    { s with tvec := kvPut s.tvec c (if off % 8 = 0 then withLo old v else withHi old v) }

/-- R404. -/
def regFaults (s : State) (off : Nat) (v : Word) : State :=
  let h := off / 0x100
  let b := faultBufAt s h
  if 12 ≤ h then s
  else match off % 0x100 with
    | 0x00 => writeHead s h (field v 0 12)
    | 0x08 => if v.getLsbD 0 then putFaultBuf s h { b with ovf := false } else s
    | 0x10 => putFaultBuf s h { b with ven := v.getLsbD 0, vec := field v 1 6 }
    | _ => s

/-- R406: while a command runs its own fields hold. -/
def regTlb (s : State) (off : Nat) (v : Word) : State :=
  let k := s.tlbCmd
  if k.busy then s
  else match off with
    | 0x00 => { s with tlbCmd := { k with va := withLo k.va v } }
    | 0x04 => { s with tlbCmd := { k with va := withHi k.va v } }
    | 0x08 => { s with tlbCmd := { k with pte := withLo k.pte v } }
    | 0x0C => { s with tlbCmd := { k with pte := withHi k.pte v } }
    | 0x10 =>
      let k := { k with op := field v 0 2, size := field v 2 2, repl := v.getLsbD 4, asid := field v 16 16 }
      let s := { s with tlbCmd := k }
      if v.getLsbD 5 then tlbCmd s k.op else s
    | _ => s

/-- R397. -/
def regAstb (s : State) (off : Nat) (v : Word) : State :=
  match off with
  | 0x00 => { s with astb := placeBits 23 (withLo s.astb v) }
  | 0x04 => { s with astb := placeBits 23 (withHi s.astb v) }
  | _ => s

/-! Service and errors (R428). -/

/-- A home's counters: a write of 0 clears one. -/
def regCounters (s : State) (off : Nat) (v : Word) : State :=
  let h := off / 0x10
  if 12 ≤ h || v ≠ 0 then s
  else onCounters s h fun c => match off % 0x10 with
    | 0x0 => { c with corr := 0 }
    | 0x4 => { c with s1 := 0 }
    | 0x8 => { c with s2 := 0 }
    | _ => { c with s3up := 0 }

def regService (s : State) (off : Nat) (v : Word) : State :=
  let k := s.service
  if 0x100 ≤ off then regCounters s (off - 0x100) v
  else match off with
    | 0x00 => { s with service := { k with pfm := v.getLsbD 0, rbm := v.getLsbD 1, lkm := v.getLsbD 2, lfm := v.getLsbD 3 } }
    | 0x08 => { s with service := { k with eptb := placeBits 16 (withLo k.eptb v) } }
    | 0x0C => { s with service := { k with eptb := placeBits 16 (withHi k.eptb v) } }
    | 0x10 => { s with service := { k with elbase := placeBits 16 (withLo k.elbase v) } }
    | 0x14 => { s with service := { k with elbase := placeBits 16 (withHi k.elbase v) } }
    | 0x18 => { s with service := { k with elsize := field v 0 5 } }
    | 0x1C => { s with service := { k with elhead := v } }
    | 0x24 => if v = 0 then { s with service := { k with ellost := 0 } } else s
    | 0x28 => { s with service := { k with elven := v.getLsbD 0, elvec := field v 1 6 } }
    | 0x30 => writeLfence s (field v 0 24)
    | _ => s

/-! Context, code, patch. While one of them runs, its block's other writes wait (log entry 52). -/

/-- R432. -/
def regCtx (s : State) (off : Nat) (v : Word) : State :=
  let k := s.ctx
  match off with
  | 0x00 => putCtx s { k with cva := withLo k.cva v }
  | 0x04 => putCtx s { k with cva := withHi k.cva v }
  | 0x08 => putCtx s { k with slot := field v 0 16, casid := field v 16 16 }
  | 0x0C =>
    let s := if k.busy then s else putCtx s { k with op := field v 0 3 }
    if v.getLsbD 4 then ctxGo s (field v 0 3) else s
  | 0x18 => putCtx s { k with cigen := v }
  | 0x20 => putCtx s { k with lsel := withLo k.lsel v }
  | 0x24 => putCtx s { k with lsel := withHi k.lsel v }
  | _ => s

/-- R435. -/
def codeGo (s : State) (op : BitVec 2) : State :=
  if op = 0 then registerCode s
  else if op = 1 then unloadCode s
  else if op = 2 then codeOn { s with codeCmd := { s.codeCmd with busy := true } }
  else s

def regCode (s : State) (off : Nat) (v : Word) : State :=
  let k := s.codeCmd
  if k.busy then s
  else match off with
    | 0x00 => { s with codeCmd := { k with base := withLo k.base v } }
    | 0x04 => { s with codeCmd := { k with base := withHi k.base v } }
    | 0x08 => { s with codeCmd := { k with size := v } }
    | 0x0C => { s with codeCmd := { k with asid := field v 0 16 } }
    | 0x10 =>
      let s := { s with codeCmd := { k with op := field v 0 2 } }
      if v.getLsbD 4 then codeGo s (field v 0 2) else s
    | 0x14 => { s with codeCmd := { k with id := field v 0 12 } }
    | _ => s

/-- R437. -/
def regPatch (s : State) (off : Nat) (v : Word) : State :=
  let k := s.patch
  if k.busy then s
  else match off with
    | 0x00 => { s with patch := { k with dst := withLo k.dst v } }
    | 0x04 => { s with patch := { k with dst := withHi k.dst v } }
    | 0x08 => { s with patch := { k with src := withLo k.src v } }
    | 0x0C => { s with patch := { k with src := withHi k.src v } }
    | 0x10 => { s with patch := { k with nw := field v 0 14, asid := field v 16 16 } }
    | 0x14 => if v.getLsbD 0 then patchGo s else s
    | _ => s

/-! MSI-X and staging. -/

/-- R439, R447: the vector table, 16 bytes a vector; bit 0 of the last word masks it. -/
def regMsix (s : State) (off : Nat) (v : Word) : State :=
  let n := off / 16
  let x := vectorAt s n
  let put (y : Vector) : State := { s with vectors := kvPut s.vectors n y }
  if 64 ≤ n then s
  else match off % 16 with
    | 0x0 => put { x with addr := withLo x.addr v }
    | 0x4 => put { x with addr := withHi x.addr v }
    | 0x8 => put { x with data := v }
    | _ => if v.getLsbD 0 then put { x with masked := true } else unmaskVector s n

/-- R453. -/
def regStaging (s : State) (off : Nat) (v : Word) : State := { s with staging := memPutWord s.staging off v }

/-! The map (R441). -/

/-- A register block: its offset, the bytes it takes, and what a write at an offset in it does. -/
def writeReg (s : State) (off : Nat) (v : Word) : State :=
  if off < 0x10000 then regBringUp s off v
  else if off < 0x20000 then regQueue s (off - 0x10000) v
  else if off < 0x30000 then regThreshold s (off - 0x20000) v
  else if off < 0x40000 then regPort s (off - 0x30000) v
  else if off < 0x50000 then regPower s (off - 0x40000) v
  else if off < 0x60000 then s
  else if off < 0x300000 then regWindow s (off - 0x60000) v
  else if off < 0x310000 then regRebuild s (off - 0x300000) v
  else if off < 0x320000 then regTvec s (off - 0x310000) v
  else if off < 0x330000 then regFaults s (off - 0x320000) v
  else if off < 0x340000 then regTlb s (off - 0x330000) v
  else if off < 0x350000 then regAstb s (off - 0x340000) v
  else if off < 0x360000 then regService s (off - 0x350000) v
  else if off < 0x370000 then regCtx s (off - 0x360000) v
  else if off < 0x370100 then regCode s (off - 0x370000) v
  else if off < 0x370200 then regPatch s (off - 0x370100) v
  else if off < 0xF00000 then s
  else if off < 0x2000000 then regMsix s (off - 0xF00000) v
  else if off < 0x3000000 then regStaging s (off - 0x2000000) v
  else s

/-- The write goes to the block of a command that runs, and is no GO: it waits until the command has ended. -/
def blockBusy (s : State) (off : Nat) (v : Word) : Bool :=
  (0x330000 ≤ off && off < 0x340000 && s.tlbCmd.busy && !(off = 0x330010 && v.getLsbD 5)) ||
  (0x360000 ≤ off && off < 0x370000 && s.ctx.busy && !(off = 0x36000C)) ||
  (0x370000 ≤ off && off < 0x370100 && s.codeCmd.busy && !(off = 0x370010 && v.getLsbD 4)) ||
  (0x370100 ≤ off && off < 0x370200 && s.patch.busy && off ≠ 0x370114)

/-- The access is one that BAR0 takes (R440, R441): 4 bytes or 8, naturally aligned, outside D3hot. -/
def bar0Takes (s : State) (off size : Nat) : Bool :=
  !s.d3hot && (size = 4 || size = 8) && off % size = 0 && off < 2 ^ 26

/-- R441: a BAR0 write of `size` bytes. -/
def registerWrite (s : State) (off size : Nat) (v : DWord) : State :=
  if !bar0Takes s off size then tellHost s .unsupported
  else if blockBusy s off (loWord v) || (size = 8 && blockBusy s (off + 4) (hiWord v)) then
    deferEvent s (.registerWrite off size v)
  else
    let s := writeReg s off (loWord v)
    if size = 8 then writeReg s (off + 4) (hiWord v) else s

/-- R441. -/
def execRegisterWrite (off size : Nat) (v : DWord) (s : State) : Host.Outcome State Fault Refusal :=
  .next (registerWrite s off size v)

end Sys2Proof.Machine
end

