-- ==== Sys2Proof/Machine/Dispatch.lean ====
section
/-! DEFINITION. The dispatcher: one arm for each constructor of `Instr`, a direct call of its meaning. -/

namespace Sys2Proof.Machine

/-- The outcome of an instruction or event in a state. -/
def exec (i : Instr) (s : State) : Host.Outcome State Fault Refusal :=
  match i with
  | .addI32 f => Sys2Proof.Machine.execAddI32 f s
  | .subI32 f => Sys2Proof.Machine.execSubI32 f s
  | .addi f => Sys2Proof.Machine.execAddi f s
  | .mulI32 f => Sys2Proof.Machine.execMulI32 f s
  | .mulhiI32 f => Sys2Proof.Machine.execMulhiI32 f s
  | .mulhiN32 f => Sys2Proof.Machine.execMulhiN32 f s
  | .madI32 f => Sys2Proof.Machine.execMadI32 f s
  | .addsI32 f => Sys2Proof.Machine.execAddsI32 f s
  | .subsI32 f => Sys2Proof.Machine.execSubsI32 f s
  | .addsN32 f => Sys2Proof.Machine.execAddsN32 f s
  | .minI32 f => Sys2Proof.Machine.execMinI32 f s
  | .maxI32 f => Sys2Proof.Machine.execMaxI32 f s
  | .minN32 f => Sys2Proof.Machine.execMinN32 f s
  | .maxN32 f => Sys2Proof.Machine.execMaxN32 f s
  | .absI32 f => Sys2Proof.Machine.execAbsI32 f s
  | .sel f => Sys2Proof.Machine.execSel f s
  | .andL f => Sys2Proof.Machine.execAndL f s
  | .orL f => Sys2Proof.Machine.execOrL f s
  | .xorL f => Sys2Proof.Machine.execXorL f s
  | .andn f => Sys2Proof.Machine.execAndn f s
  | .shl f => Sys2Proof.Machine.execShl f s
  | .shrN f => Sys2Proof.Machine.execShrN f s
  | .shrI f => Sys2Proof.Machine.execShrI f s
  | .rotl f => Sys2Proof.Machine.execRotl f s
  | .shli f => Sys2Proof.Machine.execShli f s
  | .shriN f => Sys2Proof.Machine.execShriN f s
  | .shriI f => Sys2Proof.Machine.execShriI f s
  | .popc f => Sys2Proof.Machine.execPopc f s
  | .clz f => Sys2Proof.Machine.execClz f s
  | .brev f => Sys2Proof.Machine.execBrev f s
  | .bfxN f => Sys2Proof.Machine.execBfxN f s
  | .bfxI f => Sys2Proof.Machine.execBfxI f s
  | .cmpEqI32 f => Sys2Proof.Machine.execCmpEqI32 f s
  | .cmpNeI32 f => Sys2Proof.Machine.execCmpNeI32 f s
  | .cmpLtI32 f => Sys2Proof.Machine.execCmpLtI32 f s
  | .cmpLeI32 f => Sys2Proof.Machine.execCmpLeI32 f s
  | .cmpLtN32 f => Sys2Proof.Machine.execCmpLtN32 f s
  | .cmpLeN32 f => Sys2Proof.Machine.execCmpLeN32 f s
  | .cmpiEq f => Sys2Proof.Machine.execCmpiEq f s
  | .cmpiLtI32 f => Sys2Proof.Machine.execCmpiLtI32 f s
  | .cmpiLtN32 f => Sys2Proof.Machine.execCmpiLtN32 f s
  | .fcmpEqF32 f => Sys2Proof.Machine.execFcmpEqF32 f s
  | .fcmpLtF32 f => Sys2Proof.Machine.execFcmpLtF32 f s
  | .fcmpLeF32 f => Sys2Proof.Machine.execFcmpLeF32 f s
  | .fcmpUnF32 f => Sys2Proof.Machine.execFcmpUnF32 f s
  | .kop f => Sys2Proof.Machine.execKop f s
  | .kmovKV f => Sys2Proof.Machine.execKmovKV f s
  | .kmovVK f => Sys2Proof.Machine.execKmovVK f s
  | .kset f => Sys2Proof.Machine.execKset f s
  | .faddF32 f => Sys2Proof.Machine.execFaddF32 f s
  | .fsubF32 f => Sys2Proof.Machine.execFsubF32 f s
  | .fmulF32 f => Sys2Proof.Machine.execFmulF32 f s
  | .ffmaF32 f => Sys2Proof.Machine.execFfmaF32 f s
  | .fminF32 f => Sys2Proof.Machine.execFminF32 f s
  | .fmaxF32 f => Sys2Proof.Machine.execFmaxF32 f s
  | .fnegF32 f => Sys2Proof.Machine.execFnegF32 f s
  | .fabsF32 f => Sys2Proof.Machine.execFabsF32 f s
  | .faddF16x2 f => Sys2Proof.Machine.execFaddF16x2 f s
  | .fmulF16x2 f => Sys2Proof.Machine.execFmulF16x2 f s
  | .ffmaF16x2 f => Sys2Proof.Machine.execFfmaF16x2 f s
  | .ffmaBf16x2 f => Sys2Proof.Machine.execFfmaBf16x2 f s
  | .faddF64 f => Sys2Proof.Machine.execFaddF64 f s
  | .fmulF64 f => Sys2Proof.Machine.execFmulF64 f s
  | .ffmaF64 f => Sys2Proof.Machine.execFfmaF64 f s
  | .fscaleF32 f => Sys2Proof.Machine.execFscaleF32 f s
  | .cvtF32I32 f => Sys2Proof.Machine.execCvtF32I32 f s
  | .cvtI32F32 f => Sys2Proof.Machine.execCvtI32F32 f s
  | .cvtF32N32 f => Sys2Proof.Machine.execCvtF32N32 f s
  | .cvtN32F32 f => Sys2Proof.Machine.execCvtN32F32 f s
  | .packF16x2 f => Sys2Proof.Machine.execPackF16x2 f s
  | .packBf16x2 f => Sys2Proof.Machine.execPackBf16x2 f s
  | .unpkF16 f => Sys2Proof.Machine.execUnpkF16 f s
  | .unpkBf16 f => Sys2Proof.Machine.execUnpkBf16 f s
  | .cvtF64F32 f => Sys2Proof.Machine.execCvtF64F32 f s
  | .cvtF32F64 f => Sys2Proof.Machine.execCvtF32F64 f s
  | .npq f => Sys2Proof.Machine.execNpq f s
  | .npdq f => Sys2Proof.Machine.execNpdq f s
  | .plane f => Sys2Proof.Machine.execPlane f s
  | .unplane f => Sys2Proof.Machine.execUnplane f s
  | .froundF32 f => Sys2Proof.Machine.execFroundF32 f s
  | .fclassF32 f => Sys2Proof.Machine.execFclassF32 f s
  | .shfl f => Sys2Proof.Machine.execShfl f s
  | .shflx f => Sys2Proof.Machine.execShflx f s
  | .shfld f => Sys2Proof.Machine.execShfld f s
  | .vany f => Sys2Proof.Machine.execVany f s
  | .vall f => Sys2Proof.Machine.execVall f s
  | .ballot f => Sys2Proof.Machine.execBallot f s
  | .rdlane f => Sys2Proof.Machine.execRdlane f s
  | .rdx f => Sys2Proof.Machine.execRdx f s
  | .bra f => Sys2Proof.Machine.execBra f s
  | .gbra f => Sys2Proof.Machine.execGbra f s
  | .setj f => Sys2Proof.Machine.execSetj f s
  | .join f => Sys2Proof.Machine.execJoin f s
  | .call f => Sys2Proof.Machine.execCall f s
  | .ret f => Sys2Proof.Machine.execRet f s
  | .jmpi f => Sys2Proof.Machine.execJmpi f s
  | .tkwait f => Sys2Proof.Machine.execTkwait f s
  | .nop f => Sys2Proof.Machine.execNop f s
  | .yieldN f => Sys2Proof.Machine.execYieldN f s
  | .movi f => Sys2Proof.Machine.execMovi f s
  | .add64 f => Sys2Proof.Machine.execAdd64 f s
  | .sub64 f => Sys2Proof.Machine.execSub64 f s
  | .lea f => Sys2Proof.Machine.execLea f s
  | .mulwI f => Sys2Proof.Machine.execMulwI f s
  | .mulwN f => Sys2Proof.Machine.execMulwN f s
  | .shl64 f => Sys2Proof.Machine.execShl64 f s
  | .shr64N f => Sys2Proof.Machine.execShr64N f s
  | .shr64I f => Sys2Proof.Machine.execShr64I f s
  | .min64N f => Sys2Proof.Machine.execMin64N f s
  | .max64N f => Sys2Proof.Machine.execMax64N f s
  | .frcp f => Sys2Proof.Machine.execFrcp f s
  | .frsq f => Sys2Proof.Machine.execFrsq f s
  | .fsqrt f => Sys2Proof.Machine.execFsqrt f s
  | .fdiv f => Sys2Proof.Machine.execFdiv f s
  | .fexp2 f => Sys2Proof.Machine.execFexp2 f s
  | .flog2 f => Sys2Proof.Machine.execFlog2 f s
  | .fsinpi f => Sys2Proof.Machine.execFsinpi f s
  | .fcospi f => Sys2Proof.Machine.execFcospi f s
  | .ftanh f => Sys2Proof.Machine.execFtanh f s
  | .ld f => Sys2Proof.Machine.execLd f s
  | .st f => Sys2Proof.Machine.execSt f s
  | .ldl f => Sys2Proof.Machine.execLdl f s
  | .stl f => Sys2Proof.Machine.execStl f s
  | .atom f => Sys2Proof.Machine.execAtom f s
  | .atoml f => Sys2Proof.Machine.execAtoml f s
  | .fence f => Sys2Proof.Machine.execFence f s
  | .xfence f => Sys2Proof.Machine.execXfence f s
  | .lsctlFeSet f => Sys2Proof.Machine.execLsctlFeSet f s
  | .lsctlFeClr f => Sys2Proof.Machine.execLsctlFeClr f s
  | .lsctlMode f => Sys2Proof.Machine.execLsctlMode f s
  | .lsctlInv f => Sys2Proof.Machine.execLsctlInv f s
  | .lsctlWb f => Sys2Proof.Machine.execLsctlWb f s
  | .lsctlPf f => Sys2Proof.Machine.execLsctlPf f s
  | .cpG2l f => Sys2Proof.Machine.execCpG2l f s
  | .cpL2g f => Sys2Proof.Machine.execCpL2g f s
  | .cpL2gRed f => Sys2Proof.Machine.execCpL2gRed f s
  | .cpL2l f => Sys2Proof.Machine.execCpL2l f s
  | .cpG2g f => Sys2Proof.Machine.execCpG2g f s
  | .cpPeerPut f => Sys2Proof.Machine.execCpPeerPut f s
  | .cpPeerGet f => Sys2Proof.Machine.execCpPeerGet f s
  | .cpG2lMc f => Sys2Proof.Machine.execCpG2lMc f s
  | .cpscale f => Sys2Proof.Machine.execCpscale f s
  | .tkq f => Sys2Proof.Machine.execTkq f s
  | .tkqClr f => Sys2Proof.Machine.execTkqClr f s
  | .tkqAddr f => Sys2Proof.Machine.execTkqAddr f s
  | .mma f => Sys2Proof.Machine.execMma f s
  | .mmaJ f => Sys2Proof.Machine.execMmaJ f s
  | .mmrd f => Sys2Proof.Machine.execMmrd f s
  | .mmwr f => Sys2Proof.Machine.execMmwr f s
  | .mmwrZero f => Sys2Proof.Machine.execMmwrZero f s
  | .mmstat f => Sys2Proof.Machine.execMmstat f s
  | .mmcvtBf16 f => Sys2Proof.Machine.execMmcvtBf16 f s
  | .mmcvtNp8 f => Sys2Proof.Machine.execMmcvtNp8 f s
  | .spawn f => Sys2Proof.Machine.execSpawn f s
  | .tdone f => Sys2Proof.Machine.execTdone f s
  | .launch f => Sys2Proof.Machine.execLaunch f s
  | .tbar f => Sys2Proof.Machine.execTbar f s
  | .abar f => Sys2Proof.Machine.execAbar f s
  | .cbar f => Sys2Proof.Machine.execCbar f s
  | .exit f => Sys2Proof.Machine.execExit f s
  | .sreg f => Sys2Proof.Machine.execSreg f s
  | .sset f => Sys2Proof.Machine.execSset f s
  | .trap f => Sys2Proof.Machine.execTrap f s
  | .trapBkpt f => Sys2Proof.Machine.execTrapBkpt f s
  | .eret f => Sys2Proof.Machine.execEret f s
  | .eretSkip f => Sys2Proof.Machine.execEretSkip f s
  | .eretKill f => Sys2Proof.Machine.execEretKill f s
  | .sigchk f => Sys2Proof.Machine.execSigchk f s
  | .tlbopMap f => Sys2Proof.Machine.execTlbopMap f s
  | .tlbopUnmap f => Sys2Proof.Machine.execTlbopUnmap f s
  | .tlbopInval f => Sys2Proof.Machine.execTlbopInval f s
  | .tlbopRetire f => Sys2Proof.Machine.execTlbopRetire f s
  | .fpmodeSet f => Sys2Proof.Machine.execFpmodeSet f s
  | .fpmodeLd f => Sys2Proof.Machine.execFpmodeLd f s
  | .fpmodeUpd f => Sys2Proof.Machine.execFpmodeUpd f s
  | .opcode7F lo w1 => Sys2Proof.Machine.execOpcode7F lo w1 s
  | .clauseFetch r => Sys2Proof.Machine.execClauseFetch r s
  | .loadCompletion w n => Sys2Proof.Machine.execLoadCompletion w n s
  | .localAccessPerformed w n => Sys2Proof.Machine.execLocalAccessPerformed w n s
  | .forkStackRefill w => Sys2Proof.Machine.execForkStackRefill w s
  | .latchHoldTimeout core n => Sys2Proof.Machine.execLatchHoldTimeout core n s
  | .yieldExpiry r => Sys2Proof.Machine.execYieldExpiry r s
  | .yieldHintExpiry r => Sys2Proof.Machine.execYieldHintExpiry r s
  | .issueAgeLimit r => Sys2Proof.Machine.execIssueAgeLimit r s
  | .trapEntry w => Sys2Proof.Machine.execTrapEntry w s
  | .copyGathered op => Sys2Proof.Machine.execCopyGathered op s
  | .copyCompletion op pick => Sys2Proof.Machine.execCopyCompletion op pick s
  | .inboundWrite n => Sys2Proof.Machine.execInboundWrite n s
  | .jointComparison op => Sys2Proof.Machine.execJointComparison op s
  | .matrixOpStart op => Sys2Proof.Machine.execMatrixOpStart op s
  | .matrixOpCompletion op => Sys2Proof.Machine.execMatrixOpCompletion op s
  | .barrierComplete n => Sys2Proof.Machine.execBarrierComplete n s
  | .bankModeChange n => Sys2Proof.Machine.execBankModeChange n s
  | .bankRetire cl bank => Sys2Proof.Machine.execBankRetire cl bank s
  | .tagQuarantineExpiry cl tag => Sys2Proof.Machine.execTagQuarantineExpiry cl tag s
  | .getS n => Sys2Proof.Machine.execGetS n s
  | .getW n => Sys2Proof.Machine.execGetW n s
  | .getM n => Sys2Proof.Machine.execGetM n s
  | .upg n => Sys2Proof.Machine.execUpg n s
  | .fwdS n => Sys2Proof.Machine.execFwdS n s
  | .fwdM n => Sys2Proof.Machine.execFwdM n s
  | .drop n => Sys2Proof.Machine.execDrop n s
  | .backInv n => Sys2Proof.Machine.execBackInv n s
  | .invAck n => Sys2Proof.Machine.execInvAck n s
  | .dataC n => Sys2Proof.Machine.execDataC n s
  | .dataD n => Sys2Proof.Machine.execDataD n s
  | .wbW n => Sys2Proof.Machine.execWbW n s
  | .wbL n => Sys2Proof.Machine.execWbL n s
  | .nack n => Sys2Proof.Machine.execNack n s
  | .writeAck n => Sys2Proof.Machine.execWriteAck n s
  | .nackReplay n => Sys2Proof.Machine.execNackReplay n s
  | .pageWalk asid va acc sup => Sys2Proof.Machine.execPageWalk asid va acc sup s
  | .flitReplay l fails => Sys2Proof.Machine.execFlitReplay l fails s
  | .teamPlacement n => Sys2Proof.Machine.execTeamPlacement n s
  | .teamPreemption t => Sys2Proof.Machine.execTeamPreemption t s
  | .teamResume n => Sys2Proof.Machine.execTeamResume n s
  | .teamRetirement t => Sys2Proof.Machine.execTeamRetirement t s
  | .launchEnd n => Sys2Proof.Machine.execLaunchEnd n s
  | .depBitmapReread n => Sys2Proof.Machine.execDepBitmapReread n s
  | .taskStart core => Sys2Proof.Machine.execTaskStart core s
  | .dieFence d => Sys2Proof.Machine.execDieFence d s
  | .vernalRebuildDone stk => Sys2Proof.Machine.execVernalRebuildDone stk s
  | .baseDieFence stk => Sys2Proof.Machine.execBaseDieFence stk s
  | .stackWalkDone stk => Sys2Proof.Machine.execStackWalkDone stk s
  | .homeDieFence h => Sys2Proof.Machine.execHomeDieFence h s
  | .criticalTemperature k n => Sys2Proof.Machine.execCriticalTemperature k n s
  | .powerThrottle d mhz shed => Sys2Proof.Machine.execPowerThrottle d mhz shed s
  | .portLinkUp p => Sys2Proof.Machine.execPortLinkUp p s
  | .portLinkDown p => Sys2Proof.Machine.execPortLinkDown p s
  | .peerRequest p r => Sys2Proof.Machine.execPeerRequest p r s
  | .peerAck p n refused => Sys2Proof.Machine.execPeerAck p n refused s
  | .bar2Read off len => Sys2Proof.Machine.execBar2Read off len s
  | .bar2Write off data => Sys2Proof.Machine.execBar2Write off data s
  | .registerWrite off size v => Sys2Proof.Machine.execRegisterWrite off size v s
  | .qtail q v => Sys2Proof.Machine.execQtail q v s
  | .en q v => Sys2Proof.Machine.execEn q v s
  | .restart q => Sys2Proof.Machine.execRestart q s
  | .head h v => Sys2Proof.Machine.execHead h v s
  | .lfence v => Sys2Proof.Machine.execLfence v s
  | .vrctlGo stk => Sys2Proof.Machine.execVrctlGo stk s
  | .verticalBondRetired col lower half => Sys2Proof.Machine.execVerticalBondRetired col lower half s
  | .throttleEnd d => Sys2Proof.Machine.execThrottleEnd d s
  | .spareBankCopyDone cl bank => Sys2Proof.Machine.execSpareBankCopyDone cl bank s
  | .peerReadData p n data poison => Sys2Proof.Machine.execPeerReadData p n data poison s
  | .vectorUnmask v => Sys2Proof.Machine.execVectorUnmask v s
  | .trainingComplete fail => Sys2Proof.Machine.execTrainingComplete fail s
  | .launchAccept => Sys2Proof.Machine.execLaunchAccept s
  | .tlbCmdMap => Sys2Proof.Machine.execTlbCmdMap s
  | .tlbCmdUnmap => Sys2Proof.Machine.execTlbCmdUnmap s
  | .tlbCmdInval => Sys2Proof.Machine.execTlbCmdInval s
  | .tlbCmdRetire => Sys2Proof.Machine.execTlbCmdRetire s
  | .preemptLaunch => Sys2Proof.Machine.execPreemptLaunch s
  | .checkpoint => Sys2Proof.Machine.execCheckpoint s
  | .releaseHeld => Sys2Proof.Machine.execReleaseHeld s
  | .exportImage => Sys2Proof.Machine.execExportImage s
  | .importImage => Sys2Proof.Machine.execImportImage s
  | .discard => Sys2Proof.Machine.execDiscard s
  | .codeRegister => Sys2Proof.Machine.execCodeRegister s
  | .codeUnload => Sys2Proof.Machine.execCodeUnload s
  | .forcedUnload => Sys2Proof.Machine.execForcedUnload s
  | .patch => Sys2Proof.Machine.execPatch s
  | .fwgo => Sys2Proof.Machine.execFwgo s
  | .trgo => Sys2Proof.Machine.execTrgo s
  | .run => Sys2Proof.Machine.execRun s
  | .d3hotEntry => Sys2Proof.Machine.execD3hotEntry s
  | .d0Return => Sys2Proof.Machine.execD0Return s
  | .functionLevelReset => Sys2Proof.Machine.execFunctionLevelReset s
  | .powerOn => Sys2Proof.Machine.execPowerOn s

end Sys2Proof.Machine
end

