-- ==== Sys2Proof/Machine/Schedule.lean ====
section
/-! DEFINITION. What the machine does next (log entry 1): the slots that may issue (R70, R73, R151) and the choice among them
(R368), the events that devices cause, and the work of running commands. The spec leaves the order of agents open; the model
takes turns, and an event of the environment put in `inputs` comes first. -/

namespace Sys2Proof.Machine

/-! Which slots may issue. -/

/-- The tokens of a mask that are pending for a team (R168). -/
def tokensPending (t : Team) (mask : BitVec 8) : Bool :=
  (List.range 8).any fun i => mask.getLsbD i && (tokenAt t i).op.isSome

/-- A waiting local access that will write registers. -/
def yieldsResult (x : Wave) (a : LocalAcc) : Bool := (a.kind = .load || a.kind = .atomic) && !suspended x a

/-- A load of the wave has not written its registers (R48). -/
def loadsOut (x : Wave) : Bool := (x.landings.any fun e => e.isLoad) || x.locals.any (yieldsResult x)

/-- The waits of a clause header (R48, R51, R73). -/
def headerHolds (la : Launch) (t : Team) (x : Wave) (sl : Slot) : Bool :=
  let h := sl.clause.headD 0
  sl.woff = 1 && !la.ker.ilk && (tokensPending t (field h 7 8) || (h.getLsbD 15 && loadsOut x))

/-- The results under lookahead for which the slot's next instruction waits (R70). Interlocked mode has no lookahead: there
the readers of a result wait for it, and no other instruction (R73, R221). -/
def resultsDue (la : Launch) (x : Wave) (b : Bool) : Bool :=
  (x.landings.any fun e => e.b = b && e.left = 0) ||
    !la.ker.ilk && x.locals.any fun a => a.b = b && a.left = 0 && yieldsResult x a

/-! The scoreboard of interlocked mode (R73). -/

/-- The instructions that write none of the registers they name. -/
def sourcesOnly : Instr → Bool
  | .st _ | .stl _ | .lsctlFeSet _ | .lsctlFeClr _ | .lsctlMode _ | .lsctlInv _ | .lsctlWb _ | .lsctlPf _ | .cpG2l _
  | .cpL2g _ | .cpL2gRed _ | .cpL2l _ | .cpG2g _ | .cpPeerPut _ | .cpPeerGet _ | .cpG2lMc _ | .cpscale _ | .mma _
  | .mmaJ _ | .mmwr _ | .mmcvtBf16 _ | .mmcvtNp8 _ | .spawn _ | .tdone _ | .launch _ | .sset _ | .tlbopInval _
  | .tlbopRetire _ | .fpmodeLd _ => true
  | _ => false

/-- The registers that an instruction reads: what it names but for its destination, and a destination that it reads too. -/
def readsOf (x : Wave) (i : Instr) : List RegUse :=
  let own := regsOf x.width i
  (if sourcesOnly i then own else own.drop 1) ++ readsDest i ++
    match i with
    | .ret _ => [groupUse 62 2]
    | .jmpi f => [groupUse f.a 2]
    | _ => []

/-- A register use names some of `cnt` registers from `n` on, of a file. -/
def useMeets (u : RegUse) (group : Bool) (n cnt : Nat) : Bool :=
  (if group then u.file = .group else u.file = .lane) && u.num < n + cnt && n < u.num + u.cnt

/-- An instruction reads a register that a waiting local access of the wave will write. -/
def readsWaiting (x : Wave) (i : Instr) : Bool :=
  x.locals.any fun a => yieldsResult x a && a.sup = x.super &&
    let n := if a.kind = .atomic then atomRegs (BitVec.ofNat 4 a.sub) else loadRegs (BitVec.ofNat 4 a.sub)
    (readsOf x i).any fun u => useMeets u a.group a.d n

/-- The addresses of the words that a gathered copy has still to write on its own cluster. -/
def copyLands (s : State) (id : Nat) (op : CopyOp) : List Nat :=
  let here (ts : List Target) : List Nat := (ts.filter fun t => t.cl = op.cl).map (·.base)
  (op.moves.flatMap fun m => (here m.targets).flatMap fun b => m.words.map fun w => b + w.2) ++
    (s.inbound.filter fun i => i.op = id && i.target.cl = op.cl).flatMap fun i => i.words.map (·.1)

/-- A slice's destination begins in a wave's register window. -/
def landsInWindow (x : Wave) (sl : Slice) : Bool :=
  (sl.kind = .g2l || sl.kind = .l2l) && !sl.empty && inWindow x (sl.a.getD 2 0).toNat 4

/-- An instruction reads a lane register that a copy of its team, issued before, has still to write. -/
def readsLanding (s : State) (x : Wave) (i : Instr) : Bool :=
  s.copies.any fun e =>
    e.2.team = x.team && (readsOf x i).any fun u => u.file = .lane &&
      if e.2.gathered then
        let lo := x.regbase + u.num * x.width * 4
        (copyLands s e.1 e.2).any fun a => lo ≤ a && a < lo + u.cnt * x.width * 4
      else e.2.slices.any fun sl => sl.wave = x.num && landsInWindow x sl

/-- The token that an instruction reads (R294, R331). -/
def tokensRead (i : Instr) : BitVec 8 :=
  match i with
  | .tkq f | .tkqClr f | .tkqAddr f | .mmstat f => 1#8 <<< f.tok.toNat
  | _ => 0

/-- An instruction that acts on registers and predicates alone (R52): those of the integer, cross-lane and float classes, and
the transfers, which no engine's work can change. -/
def registersOnly (i : Instr) : Bool :=
  opcodeOf ((encode i).headD 0) ≤ 0x62

/-- The operations that the clause headers gone past name in TWAIT, and that of the clause that begins: what they write, or
read, an instruction that acts beyond the registers finds as after a sufficient wait (R73). -/
def owedNow (t : Team) (sl : Slot) : List Nat :=
  let named := if sl.woff = 1 then pendingOps t (field (sl.clause.headD 0) 7 8) else []
  (sl.owed ++ named).filter (pendingOps t (BitVec.allOnes 8)).contains

/-- Interlocked mode holds an instruction that reads what an earlier one has still to write (R73). -/
def scoreboardHolds (s : State) (la : Launch) (t : Team) (x : Wave) (sl : Slot) : Bool :=
  la.ker.ilk && match parse (sl.clause.getD sl.woff 0) (sl.clause.getD (sl.woff + 1) 0) with
    | some p =>
      tokensPending t (tokensRead p.instr) || readsWaiting x p.instr || readsLanding s x p.instr ||
        (!registersOnly p.instr && !(owedNow t sl).isEmpty)
    | none => false

/-- A wave that a pre-emption or a patch holds issues only to finish what is beyond recall (R356, R438). -/
def waveHeld (s : State) (t : Team) (w : Nat) (x : Wave) : Bool :=
  (t.leaving || (s.patch.busy && t.tag.asid = s.patch.asid && waveHolds s t.tag w x (inPatch s t.tag.asid))) &&
    !(x.progress.any fun p => sentMark ≤ p.asked)

/-- Nothing makes the slot wait before it issues. A `mma.j` of either slot that waits for its comparison has not retired, so
that nothing after it issues (R378). -/
def slotFree (s : State) (r : SlotRef) (x : Wave) (sl : Slot) (t : Team) : Bool :=
  sl.st = .run && x.alive ≠ 0 && x.pending.isNone && (x.progress.all fun p => p.b = r.b) && sl.yielding.isNone &&
    (sl.bar.all fun b => b.passed.isSome) && !tokensPending t sl.tokWait &&
    ([x.a, x.b].all fun y => y.joint.all fun id => jointSettled s id) && !waveHeld s t r.wave x

/-- The slot may fetch its clause, or issue its next instruction. -/
def canIssue (s : State) (r : SlotRef) : Bool :=
  match findWave s r.wave with
  | none => false
  | some x => match findTeam s x.team with
    | none => false
    | some t => match findLaunch s t.launch with
      | none => false
      | some la =>
        let sl := slotOf x r.b
        slotFree s r x sl t && !resultsDue la x r.b &&
          (if sl.clause.isEmpty then !fetchHeld s t.tag (sl.pc - BitVec.ofNat 56 (4 * sl.woff)).toNat
            else !headerHolds la t x sl && !scoreboardHolds s la t x sl)

/-! The choice of a slot (R368). -/

/-- What the choice looks at: `since` is when the slot became eligible. -/
structure Standing where
  aged : Bool
  ranked : Bool
  prio : Nat
  age : Nat
  last : Nat
  since : Nat
  deriving DecidableEq, Repr

def standingOf (s : State) (r : SlotRef) : Standing :=
  match findWave s r.wave with
  | none => ⟨false, false, 0, 0, 0, 0⟩
  | some x =>
    let sl := slotOf x r.b
    let prio := match launchOfWave s r.wave with
      | some (_, la) => la.rcd.prio
      | none => 0
    ⟨sl.aged, sl.ranked.isSome, prio, x.age, sl.last, (sl.since.getD 0).toNat⟩

/-- The first difference that decides, of pairs where less comes first. -/
def lexLess : List (Nat × Nat) → Bool
  | [] => false
  | (a, b) :: rest => if a = b then lexLess rest else a < b

/-- Slot `p` of a core comes before slot `q`. -/
def before (s : State) (p q : SlotRef) : Bool :=
  let a := standingOf s p
  let b := standingOf s q
  if a.aged ≠ b.aged then a.aged
  else if a.aged && a.since ≠ b.since then a.since < b.since
  else lexLess [(boolNat a.ranked, boolNat b.ranked), (7 - a.prio, 7 - b.prio), (a.age, b.age), (p.wave, q.wave),
    (a.last, b.last)]

def insertSlot (s : State) (p : SlotRef) : List SlotRef → List SlotRef
  | [] => [p]
  | q :: rest => if before s p q then p :: q :: rest else q :: insertSlot s p rest

/-- The slots of a core that may issue, first what comes first. -/
def slotsOfCore (s : State) (core : Nat) (rs : List SlotRef) : List SlotRef :=
  (rs.filter fun r => coreOf r.wave = core).foldl (fun l r => insertSlot s r l) []

/-- The numbers of a list in cyclic order from one on. -/
def cyclic (from' : Nat) (ns : List Nat) : List Nat := (ns.filter fun n => from' ≤ n) ++ ns.filter fun n => n < from'

/-- Numbers in rising order, each once. -/
def insertRising (n : Nat) : List Nat → List Nat
  | [] => [n]
  | m :: rest => if n < m then n :: m :: rest else if n = m then m :: rest else m :: insertRising n rest

def risingNats (ns : List Nat) : List Nat := ns.foldl (fun l n => insertRising n l) []

/-- Every slot that may issue, core by core from the one whose turn it is. -/
def issuers (s : State) : List SlotRef :=
  let rs := (s.waves.flatMap fun e => [SlotRef.mk e.1 false, SlotRef.mk e.1 true]).filter (canIssue s)
  let cores := cyclic s.nextCore (risingNats (rs.map fun r => coreOf r.wave))
  cores.flatMap fun c => slotsOfCore s c rs

/-! One issue. -/

/-- The base of `act` for words that spell no instruction: their guard bits (R7, R63). -/
def actOfWords (w0 : Word) (x : Wave) (sl : Slot) : LaneMask :=
  let g : Guard := ⟨field w0 20 4, w0.getLsbD 19⟩
  if guardBad g then baseAct x sl else if w0.getLsbD 24 then groupAct x sl g else laneAct x sl g

/-- Words that are no instruction trap with their frame (R79). -/
def trapWords (s : State) (r : SlotRef) (sl : Slot) (w0 w1 : Word) (cause : Nat) (act : LaneMask) : State :=
  takeTrap s r.wave
    { b := r.b, cause, issued := true, pc := sl.pc, woff := sl.woff, w0, w1, act0 := act, f := 0, acc := 0, spl := false,
      code := 0, lanes := [] }

/-- The instruction that stands next in a slot issues: it is decoded and executed, or its words trap (R79). -/
def issueWords (s : State) (r : SlotRef) (x : Wave) (sl : Slot) : Host.Outcome State Fault Refusal :=
  let w0 := sl.clause.getD sl.woff 0
  let w1 := if twoWord w0 then sl.clause.getD (sl.woff + 1) 0 else 0
  match decode w0 w1 with
  | .ok i => exec i { s with cur := r }
  | .unimplemented =>
    let act := match parse w0 w1 with
      | some p => actOf p.instr x sl
      | none => actOfWords w0 x sl
    .next (trapWords s r sl w0 w1 2 act)
  | .illegal i => .next (trapWords s r sl w0 w1 (if dynUnimpl i x then 2 else 1) (actOf i x sl))

/-- A slot that may issue does: it fetches its clause, or issues its next instruction; a `tkwait` it was held by has
passed. -/
def issueAt (s : State) (r : SlotRef) : Host.Outcome State Fault Refusal :=
  let s := onSlot s r fun sl => { sl with tokWait := 0 }
  match findWave s r.wave with
  | none => .next s
  | some x =>
    let sl := slotOf x r.b
    if sl.clause.isEmpty then exec (.clauseFetch r) s else issueWords s r x sl

/-- An outcome is a next state other than the one it comes from. -/
def moves (s : State) (o : Host.Outcome State Fault Refusal) : Bool :=
  match o with
  | .next t => t ≠ s
  | _ => true

/-- The core after the one that has issued is looked at next. -/
def afterIssue (r : SlotRef) (o : Host.Outcome State Fault Refusal) : Host.Outcome State Fault Refusal :=
  match o with
  | .next t => .next { t with nextCore := coreOf r.wave + 1 }
  | o => o

/-- Slots that have become eligible count their wait from now on; one that no longer is counts no more (R368). -/
def watchSlots (s : State) : State :=
  (s.waves.flatMap fun e => [SlotRef.mk e.1 false, SlotRef.mk e.1 true]).foldl (fun t r =>
    onSlot t r fun sl =>
      if !canIssue s r then { sl with since := none, aged := false }
      else if sl.since.isNone then { sl with since := some s.clock } else sl) s

/-- One slot issues, passing over those whose instruction waits and changes nothing. -/
def issueOne (s : State) : Host.Outcome State Fault Refusal :=
  match issuers s with
  | [] => .next s
  | [r] => afterIssue r (issueAt s r)
  | rs => match rs.find? fun r => moves s (issueAt s r) with
    | some r => afterIssue r (issueAt s r)
    | none => .next s

/-! What devices do. -/

def keys {α : Type} (t : Kv Nat α) : List Nat := t.map (·.1)

/-- The slots of resident waves. -/
def allSlots (s : State) : List SlotRef := (keys s.waves).flatMap fun w => [SlotRef.mk w false, SlotRef.mk w true]

/-- The message that is handled next (R266). -/
def messageEvents (s : State) : List Instr :=
  match firstReady s with
  | none => []
  | some .getS => [.getS 0]
  | some .getW => [.getW 0]
  | some .getM => [.getM 0]
  | some .upg => [.upg 0]
  | some .fwdS => [.fwdS 0]
  | some .fwdM => [.fwdM 0]
  | some .drop => [.drop 0]
  | some .backInv => [.backInv 0]
  | some .invAck => [.invAck 0]
  | some .dataC => [.dataC 0]
  | some .dataD => [.dataD 0]
  | some .wbW => [.wbW 0]
  | some .wbL => [.wbL 0]
  | some .nack => [.nack 0]
  | some .writeAck => [.writeAck 0]

/-- Holds whose slot has been idle for 64 cycles (R127). -/
def holdEvents (s : State) : List Instr :=
  let cores := risingNats (s.latches.map (·.core))
  cores.flatMap fun c =>
    let es := s.latches.filter fun e => e.core = c
    ((List.range es.length).filter fun n => (es[n]?).any (holdOver s)).map fun n => .latchHoldTimeout c n

/-- Slots eligible and not chosen for 64 cycles (R368). -/
def ageEvents (s : State) : List Instr :=
  ((allSlots s).filter fun r =>
    let sl := slotAt s r
    sl.st = .run && !sl.aged && (sl.since.any fun t => longAgo s r t) && canIssue s r).map .issueAgeLimit

/-- What time has ended and is still there: holds, yields and their hints, and waits that make a slot aged (R50, R127, R169,
R368). It takes effect before anything else does. -/
def timesUp (s : State) : List Instr :=
  let late (f : Slot → Option Timer) : List SlotRef := (allSlots s).filter fun r => (f (slotAt s r)).any (timeUp s r)
  holdEvents s ++ (late (·.yielding)).map .yieldExpiry ++ (late (·.ranked)).map .yieldHintExpiry ++ ageEvents s

/-- An engine works for an operation of a team that stays, or that has compared a joint operation (R288, R356). -/
def engineRuns (s : State) (op : CopyOp) : Bool :=
  match findTeam s op.team with
  | none => true
  | some t => !t.leaving || s.mats.any fun m => m.2.team = op.team && m.2.compared

/-- A list from a freely chosen place on, round to it (log entry 35). -/
def anyFirst {α : Type} (s : State) (l : List α) : List α :=
  if l.length < 2 then l
  else
    let k := Config.freeNat s.freeCtr % l.length
    l.drop k ++ l.take k

/-- What an engine may do next for an operation (R288): the moves that may be written, and the words that it has not read of
the others. -/
def copyPicks (op : CopyOp) : List Nat :=
  let ready := readyMoves op.moves
  let ahead := ((List.range op.moves.length).filter fun i => !ready.contains i).flatMap fun i =>
    let m := op.moves.getD i default
    ((List.range (min 8 m.words.length)).filter fun j => takenAt m j = .no).map fun j => ready.length + 8 * i + j
  List.range ready.length ++ ahead

/-- The next work of the copy engines (R280, R288). -/
def copyEvents (s : State) : List Instr :=
  (s.copies.filter fun e => engineRuns s e.2).flatMap fun e =>
    if e.2.moves.isEmpty then [.copyCompletion e.1 0]
    else (anyFirst s (copyPicks e.2)).map fun p => .copyCompletion e.1 p

/-- Nothing is on its way to a cluster's local store. -/
def clusterUnaddressed (s : State) (cl : Nat) : Bool :=
  (s.inbound.all fun i => i.target.cl ≠ cl) && s.copies.all fun e => e.2.moves.all fun m => m.targets.all fun t => t.cl ≠ cl

/-- The events that devices may cause now, by kind. -/
def deviceEvents (s : State) : Nat → List Instr
  | 0 => messageEvents s
  | 1 => if s.nacked.isEmpty then [] else [.nackReplay 0]
  | 2 => s.waves.flatMap fun e => if e.2.landings.isEmpty then [] else [.loadCompletion e.1 0]
  | 3 => s.waves.flatMap fun e => (List.range e.2.locals.length).map fun n => .localAccessPerformed e.1 n
  | 4 => (keys s.waves).map .forkStackRefill
  | 5 => (keys s.waves).map .trapEntry
  | 6 => ((s.copies.filter fun e => !e.2.gathered).map (·.1)).map .copyGathered
  | 7 => copyEvents s
  | 8 => (anyFirst s (List.range s.inbound.length)).map .inboundWrite
  | 9 => (keys s.mats).map .jointComparison
  | 10 => (keys s.mats).map .matrixOpStart
  | 11 => (keys s.mats).map .matrixOpCompletion
  | 12 => (List.range (barList s).length).map .barrierComplete
  | 13 => (List.range s.modeReqs.length).map .bankModeChange
  | 14 => (s.banks.filter fun e => e.2.retiring).map fun e => .bankRetire e.1.1 e.1.2
  | 15 => (s.banks.filter fun e => e.2.copying).map fun e => .spareBankCopyDone e.1.1 e.1.2
  | 16 => (s.quarantine.filter fun q => clusterUnaddressed s q.1).map fun q => .tagQuarantineExpiry q.1 q.2.toNat
  | 17 => if accepting s then [.launchAccept] else []
  | 18 => (keys s.images).map .teamResume
  | 19 => (keys s.launches).map .teamPlacement
  | 20 => ((s.teams.filter fun e => e.2.leaving).map (·.1)).map .teamPreemption
  | 21 => (keys s.teams).map .teamRetirement
  | 22 => (keys s.launches).map .launchEnd
  | 23 => (keys s.tasks).map .taskStart
  | 24 => (keys s.rebuilds).flatMap fun k => [.vernalRebuildDone k, .stackWalkDone k]
  | _ => []

/-- The kinds of device event. -/
def eventKinds : Nat := 25

/-- The first event of a kind that changes the state. -/
def eventOfKind (s : State) (k : Nat) : Option Instr := (deviceEvents s k).find? fun i => moves s (exec i s)

/-- Deferred requests of the host and of peers are taken up in their order; one that still waits stays first. -/
def takeUp (s : State) : Option (Host.Outcome State Fault Refusal) :=
  match s.deferred with
  | [] => none
  | i :: rest =>
    match exec i { s with deferred := [] } with
    | .next t => if t.deferred.isEmpty then some (.next { t with deferred := rest }) else none
    | o => some o

/-- With nothing else to do, Germinal reads a waiting launch's bitmap again (R364). -/
def rereadOne (s : State) : Host.Outcome State Fault Refusal :=
  match ((keys s.launches).map .depBitmapReread).find? fun i => moves s (exec i s) with
  | some i => exec i s
  | none => .next s

/-- What a device does: a request that waited, or the first event that changes the state, kind after kind. -/
def deviceOne (s : State) : Host.Outcome State Fault Refusal :=
  match takeUp s with
  | some o => o
  | none =>
    match (cyclic s.nextEvent (List.range eventKinds)).findSome? fun k => (eventOfKind s k).map fun i => (k, i) with
    | some (k, i) => exec i { s with nextEvent := (k + 1) % eventKinds }
    | none => rereadOne s

/-! What waits for lines to come to rest. -/

/-- Something waits until no request for its lines is on its way; no slot issues while messages are. -/
def waitsQuiet (s : State) : Bool :=
  !s.deferred.isEmpty || (s.ctx.busy && 3 ≤ s.ctx.op.toNat) || s.patch.busy || s.codeCmd.busy || s.tlbCmd.busy ||
    (s.waves.any fun e => inTlbop e.2) || (s.teams.any fun e => !e.2.task && teamOver s e.1 e.2) ||
    s.launches.any fun e => launchOver s e.1 e.2

/-- The issue turn is given up: messages are in flight that something waits for, or what waits can go on now. -/
def issueYields (s : State) : Bool :=
  waitsQuiet s && (!s.net.isEmpty || !s.txns.isEmpty || !s.nacked.isEmpty)

/-! The work of running commands. -/

/-- Latent errors are met, every command that runs goes as far as it can, the harvest map is built, and a standby is chosen
(R33, R453, R406, R425, R432, R436, R438, R440). -/
def housekeep (s : State) : State :=
  let s := buildHarvest (meetChipErrors s)
  if s.stopped then s
  else
    let s := if s.tlbCmd.busy then tlbCmdGo s else s
    chooseStandby (stopClocks (patchOn (codeOn (ctxNext (ctxOn s)))))

/-- The cycle counter goes on by at least one and never back (R146; log entry 4); at its end it stays. The power is measured
anew (R456; log entry 88). -/
def tick (s : State) : State :=
  let now := min (s.clock.toNat + 1 + Config.clockTicks s.clock.toNat) (2 ^ 64 - 1)
  { s with clock := BitVec.ofNat 64 now, pnow := Config.packagePower now }

/-- A request that comes while earlier ones wait stands behind them. -/
def waitsBehind : Instr → Bool
  | .peerRequest _ _ | .bar2Read _ _ | .bar2Write _ _ | .registerWrite _ _ _ | .qtail _ _ | .en _ _ | .restart _ | .head _ _
  | .lfence _ | .vrctlGo _ | .tlbCmdMap | .tlbCmdUnmap | .tlbCmdInval | .tlbCmdRetire | .preemptLaunch | .checkpoint
  | .releaseHeld | .exportImage | .importImage | .discard | .codeRegister | .codeUnload | .forcedUnload | .patch | .fwgo
  | .trgo | .run | .d3hotEntry | .d0Return => true
  | _ => false

/-- An event of the environment. -/
def takeInput (s : State) (i : Instr) : Host.Outcome State Fault Refusal :=
  if waitsBehind i && !s.deferred.isEmpty then .next (deferEvent s i) else exec i s

/-- An issue, or what devices do, in turns; with its clocks stopped the device only answers requests that waited (R440 item 3). -/
def takeTurn (s : State) : Host.Outcome State Fault Refusal :=
  if s.stopped then (takeUp s).getD (.next s)
  else match s.turn with
    | .issue => if issueYields s then deviceOne s else issueOne (watchSlots { s with turn := .device })
    | .device => deviceOne { s with turn := .issue }

/-- What one step does, after the work of running commands: what time has ended ends first. -/
def advanceOne (s : State) : Host.Outcome State Fault Refusal :=
  match if s.stopped then [] else timesUp s, s.inputs with
  | i :: _, _ => exec i s
  | [], i :: rest => takeInput { s with inputs := rest } i
  | [], [] => takeTurn s

end Sys2Proof.Machine
end

