-- ==== Sys2Proof/Machine/Loaded.lean ====
section
/-! DEFINITION. A machine in which one instruction stands next (log entry 10): the launch, the team and the wave that run it,
its text in memory with the translation and the instruction-cache words that a fetch leaves, and its clause fetched. -/

namespace Sys2Proof.Machine

/-- The header of a clause of one instruction of any engine class (R48, R49). -/
def loneHeader : Word := 0xA0C00071

/-- Where the text lies: an address of home 0, mapped to the frame of the same number. -/
def loneText : Nat := 0x10000

/-- The words of the clause, header first. -/
def loneClause (w0 w1 : Word) : List Word := if twoWord w0 then [loneHeader, w0, w1] else [loneHeader, w0]

def loneTag : AsidTag := ⟨1, 0⟩

/-- A launch of one team of one wave of width 32 with every register that R41 allows it. -/
def loneLaunch : Launch :=
  let rcd : LaunchRec :=
    { kdesc := 0, asid := 1, prio := 0, kabort := false, notify := false, vec := 0, dep := false, arg := 0, ntx := 1, nty := 1,
      ntz := 1, affin := BitVec.allOnes 24, crec := 0, cbmp := 0, dbmp := 0, da := 0, db := 0, dw := 0, dn := 0, fsp := 0, fspl := 0,
      fspt := 0, tring := 0, tringn := 0 }
  let ker : Kernel :=
    { entry := BitVec.ofNat 56 loneText, width := 32, ilk := false, sig := false, regs := 56, gregs := 64, scr := 0, fifo := 0,
      tiles := 0, tslot := 0, cohlv := 0, waves := 1, cohn := 1, entries := [], asms := [] }
  { rcd, ker, tag := loneTag, seq := 0, total := 1, ranges := [], global := [], ended := 0, teams := 0, aborted := 0, lost := 0,
    lanes := 0, taskerr := 0, tstart := 0, spills := [], killed := [], places := [], gone := [], taskCl := [], imported := false }

/-- Its wave: at its first instruction, with the clause fetched. -/
def loneWave (ws : List Word) : Wave :=
  let x := newWave loneLaunch 0 0 0 0 none (BitVec.ofNat 56 (loneText + 4)) 0 0
  { x with a := { x.a with woff := 1, clause := ws, header := ws.head? } }

/-- Its team, on cluster 0 with bank 0 as its register bank. -/
def loneTeam : Team :=
  { newTeam 0 loneLaunch 0 0 with nReg := 1, waves := [0] }

/-- The leaf of its text page (R393): V, R, X, A and LEAF, frame 16 of home 0. -/
def lonePte : DWord := 0x10082B

def putText (m : Mem) (ws : List Word) : Mem := memWriteList m loneText (ws.flatMap fun w => bytesLe 4 w.toNat)

def loadLone (s : State) (w0 w1 : Word) : State :=
  let ws := loneClause w0 w1
  let cached := (List.range ws.length).map fun i => (((0, loneTag, loneText + 4 * i) : Nat × AsidTag × Nat), ws.getD i 0)
  let bank : Bank := { Bank.clear with mode := .reg, owner := some 0 }
  { s with
    inputs := [], deferred := [], turn := .issue, nextCore := 0, boot := 5, clen := s.fused, d3hot := false, stopped := false
    tlbCmd := { s.tlbCmd with busy := false }, ctx := { s.ctx with busy := false, waiting := [] }
    codeCmd := { s.codeCmd with busy := false }, patch := { s.patch with busy := false }, codes := [], chipErrs := []
    dram := putText s.dram [loneHeader, w0, w1], icache := cached
    tlbs := kvPut s.tlbs 0 [⟨loneTag, 0, loneText / 4096, 3, lonePte⟩]
    banks := kvPut s.banks (0, 0) bank, latches := [], copies := [], mats := [], inbound := [], images := []
    launches := [(0, loneLaunch)], teams := [(0, loneTeam)], waves := [(0, loneWave ws)], tasks := [] }

/-- The same from the opcode table's numbering of an instruction's bits. -/
def loadTableWord (s : State) (nbits w : Nat) : State :=
  let v := w % 2 ^ nbits
  loadLone s (BitVec.ofNat 32 v) (BitVec.ofNat 32 (v / 2 ^ 32))

end Sys2Proof.Machine
end

