-- ==== Sys2Proof/Machine/Step.lean ====
section
/-! DEFINITION. One step of the machine. -/

namespace Sys2Proof.Machine

/-- One step: commands that run go on, then an event of the environment, an issue, or what a device does. -/
def step (s : State) : Host.Outcome State Fault Refusal := advanceOne (housekeep (tick s))

/-- The state with an instruction where the next step issues it (log entry 10). -/
def State.withFetchWord (s : State) (nbits w : Nat) : State := loadTableWord s nbits w

end Sys2Proof.Machine
end

