-- ==== Sys2Proof/Machine/RegRead.lean ====
section
/-! DEFINITION. What a host read of BAR0 answers, block by block (R441 and the chapters it names). No row of the opcode table is
such a read and it changes nothing, so it is a function of the state and no step. Offsets with no register, and reserved bits,
read 0. -/

namespace Sys2Proof.Machine

/-- Bits of a register: a value at its lowest bit. -/
def bitsFrom (i v : Nat) : Word := BitVec.ofNat 32 (v * 2 ^ i)

/-- Half of a 64-bit register. -/
def halfOf (d : DWord) (high : Bool) : Word := if high then hiWord d else loWord d

/-- R452: DEVID and STEP, BOOT and BERR, the command bits, TRFAIL. -/
def readBringUp (s : State) (off : Nat) : Word :=
  match off with
  | 0x0 => 0x4C52 ||| bitsFrom 16 s.stepId.toNat
  | 0x4 => bitsFrom 0 s.boot.toNat ||| bitsFrom 4 s.berr.toNat
  | 0xC => bitsFrom 0 s.trfail.toNat
  | _ => 0

/-- R443. -/
def readQueue (s : State) (off : Nat) : Word :=
  let k := queueAt s (off / 0x40)
  if 64 ≤ off / 0x40 then 0
  else match off % 0x40 with
    | 0x00 => halfOf k.base false
    | 0x04 => halfOf k.base true
    | 0x08 => bitsFrom 0 k.log.toNat ||| bitsFrom 16 k.asid.toNat
    | 0x0C => k.tail
    | 0x10 => k.head
    | 0x14 => bitsFrom 0 (boolNat k.en) ||| bitsFrom 1 (boolNat k.stop)
    | _ => 0

/-- R446. -/
def readThreshold (s : State) (off : Nat) : Word := if 144 ≤ off / 4 then 0 else bitsFrom 0 (cthAt s (off / 4)).toNat

/-- R449. -/
def readPort (s : State) (off : Nat) : Word :=
  let k := portAt s (off / 0x40)
  if 8 ≤ off / 0x40 then 0
  else match off % 0x40 with
    | 0x0 => bitsFrom 0 (boolNat k.pen) ||| bitsFrom 1 k.pvec.toNat ||| bitsFrom 7 (boolNat k.pven)
    | 0x4 => bitsFrom 0 (boolNat k.up) ||| bitsFrom 16 k.retry.toNat
    | 0x8 => bitsFrom 0 k.outAsid.toNat ||| bitsFrom 16 k.remAsid.toNat
    | 0xC => bitsFrom 0 k.inAsid.toNat ||| bitsFrom 16 (boolNat k.bound)
    | _ => 0

/-- R456. -/
def readPower (s : State) (off : Nat) : Word :=
  if off = 0 then bitsFrom 0 s.plim.toNat
  else if off = 4 then bitsFrom 0 s.pnow.toNat
  else if 0x100 ≤ off && off < 0x160 then
    let p := powerAt s ((off - 0x100) / 4)
    bitsFrom 0 p.dclk.toNat ||| bitsFrom 12 (boolNat p.thr) ||| bitsFrom 13 (boolNat p.shed)
  else 0

/-- The DRAM offset at which each home's reserved region starts (R455). -/
def pbase : DWord := 0xA2D05E000

/-- R454, R455; with no standby, GSTBY reads 0 (log entry 53). -/
def readHarvest (s : State) (off : Nat) : Word :=
  if off < 0x48 then BitVec.ofNat 32 (s.clen.toNat / 2 ^ (8 * off))
  else match off with
    | 0x48 => bitsFrom 0 s.gbase ||| bitsFrom 4 (s.gstby.getD 0)
    | 0x50 => halfOf pbase false
    | 0x54 => halfOf pbase true
    | 0x58 => bitsFrom 0 s.dfence.toNat
    | 0x60 => bitsFrom 0 s.hfence.toNat
    | _ => 0

/-- R442. -/
def readWindow (s : State) (off : Nat) : Word :=
  match off with
  | 0x0 => halfOf s.w2va false
  | 0x4 => halfOf s.w2va true
  | 0x8 => bitsFrom 0 s.w2asid.toNat ||| bitsFrom 16 (boolNat s.w2en)
  | _ => 0

/-- R275. -/
def readRebuild (s : State) (off : Nat) : Word :=
  let b := rebuildAt s (off / 0x40)
  if 6 ≤ off / 0x40 then 0
  else match off % 0x40 with
    | 0x0 => bitsFrom 8 b.batch.toNat
    | 0x4 =>
      bitsFrom 0 (boolNat b.pend) ||| bitsFrom 1 (boolNat b.host) ||| bitsFrom 2 b.die.toNat ||| bitsFrom 4 (boolNat b.busy) |||
        bitsFrom 5 b.next
    | 0x8 => b.lines
    | _ => 0

/-- R386. -/
def readTvec (s : State) (off : Nat) : Word := if 16 ≤ off / 8 then 0 else halfOf (tvecAt s (off / 8)) (4 ≤ off % 8)

/-- R404. -/
def readFaults (s : State) (off : Nat) : Word :=
  let b := faultBufAt s (off / 0x100)
  if 12 ≤ off / 0x100 then 0
  else match off % 0x100 with
    | 0x00 => bitsFrom 0 b.head.toNat
    | 0x04 => bitsFrom 0 b.tail.toNat
    | 0x08 => bitsFrom 0 (boolNat b.ovf) ||| bitsFrom 1 (boolNat b.full) ||| bitsFrom 16 b.disp.toNat
    | 0x0C => b.busy
    | 0x10 => bitsFrom 0 (boolNat b.ven) ||| bitsFrom 1 b.vec.toNat
    | _ => 0

/-- The words of a fault record (R403). -/
def recordWord (r : FaultRec) (i : Nat) : Word :=
  match i with
  | 0 => BitVec.ofNat 32 r.va
  | 1 => BitVec.ofNat 32 (r.va % 2 ^ 56 / 2 ^ 32)
  | 2 =>
    bitsFrom 0 r.tag.asid.toNat ||| bitsFrom 16 r.tag.gen.toNat ||| bitsFrom 24 (r.kind % 4) ||| bitsFrom 26 (r.acc % 8) |||
      bitsFrom 29 (r.src % 8)
  | 3 => bitsFrom 0 (r.clu % 2 ^ 10) ||| bitsFrom 10 (r.core % 4) ||| bitsFrom 12 (r.slot % 16)
  | 4 => loWord r.time
  | 5 => hiWord r.time
  | 6 => bitsFrom 0 (boolNat r.deliv)
  | _ => 0

/-- R404: the records of a home's ring; an index that no record was written at reads 0 (log entry 3). -/
def readRecords (s : State) (off : Nat) : Word :=
  match kvFind (faultBufAt s (off / 0x20000)).recs (off % 0x20000 / 32) with
  | some r => recordWord r (off % 32 / 4)
  | none => 0

/-- R406. -/
def readTlb (s : State) (off : Nat) : Word :=
  let k := s.tlbCmd
  match off with
  | 0x00 => halfOf k.va false
  | 0x04 => halfOf k.va true
  | 0x08 => halfOf k.pte false
  | 0x0C => halfOf k.pte true
  | 0x10 => bitsFrom 0 k.op.toNat ||| bitsFrom 2 k.size.toNat ||| bitsFrom 4 (boolNat k.repl) ||| bitsFrom 16 k.asid.toNat
  | 0x14 => bitsFrom 0 (boolNat k.busy) ||| bitsFrom 1 k.result.toNat
  | _ => 0

/-- R397. -/
def readAstb (s : State) (off : Nat) : Word := if off < 8 then halfOf s.astb (off = 4) else 0

/-- R428: a home's counters. -/
def readCounters (s : State) (off : Nat) : Word :=
  let c := countersAt s (off / 0x10)
  if 12 ≤ off / 0x10 then 0
  else match off % 0x10 with
    | 0x0 => c.corr
    | 0x4 => c.s1
    | 0x8 => c.s2
    | _ => c.s3up

/-- R428. -/
def readService (s : State) (off : Nat) : Word :=
  let k := s.service
  if 0x100 ≤ off then readCounters s (off - 0x100)
  else match off with
    | 0x00 => bitsFrom 0 (boolNat k.pfm) ||| bitsFrom 1 (boolNat k.rbm) ||| bitsFrom 2 (boolNat k.lkm) ||| bitsFrom 3 (boolNat k.lfm)
    | 0x08 => halfOf k.eptb false
    | 0x0C => halfOf k.eptb true
    | 0x10 => halfOf k.elbase false
    | 0x14 => halfOf k.elbase true
    | 0x18 => bitsFrom 0 k.elsize.toNat
    | 0x1C => k.elhead
    | 0x20 => k.eltail
    | 0x24 => k.ellost
    | 0x28 => bitsFrom 0 (boolNat k.elven) ||| bitsFrom 1 k.elvec.toNat
    | 0x30 => bitsFrom 0 k.lfence.toNat
    | _ => 0

/-- R432. -/
def readCtx (s : State) (off : Nat) : Word :=
  let k := s.ctx
  match off with
  | 0x00 => halfOf k.cva false
  | 0x04 => halfOf k.cva true
  | 0x08 => bitsFrom 0 k.slot.toNat ||| bitsFrom 16 k.casid.toNat
  | 0x0C => bitsFrom 0 k.op.toNat ||| bitsFrom 5 (boolNat k.busy) ||| bitsFrom 8 k.result.toNat
  | 0x10 => k.count
  | 0x14 => k.ckgen
  | 0x18 => k.cigen
  | 0x20 => halfOf k.lsel false
  | 0x24 => halfOf k.lsel true
  | _ => 0

/-- R435. -/
def readCode (s : State) (off : Nat) : Word :=
  let k := s.codeCmd
  match off with
  | 0x00 => halfOf k.base false
  | 0x04 => halfOf k.base true
  | 0x08 => k.size
  | 0x0C => bitsFrom 0 k.asid.toNat
  | 0x10 => bitsFrom 0 k.op.toNat ||| bitsFrom 5 (boolNat k.busy) ||| bitsFrom 8 k.result.toNat
  | 0x14 => bitsFrom 0 k.id.toNat
  | 0x18 => k.holders
  | _ => 0

/-- R437. -/
def readPatch (s : State) (off : Nat) : Word :=
  let k := s.patch
  match off with
  | 0x00 => halfOf k.dst false
  | 0x04 => halfOf k.dst true
  | 0x08 => halfOf k.src false
  | 0x0C => halfOf k.src true
  | 0x10 => bitsFrom 0 k.nw.toNat ||| bitsFrom 16 k.asid.toNat
  | 0x14 => bitsFrom 1 (boolNat k.busy) ||| bitsFrom 2 k.result.toNat ||| bitsFrom 16 k.parked.toNat
  | _ => 0

/-- R439, R441: the vector table, and from 0x1000 on the pending bits. -/
def readMsix (s : State) (off : Nat) : Word :=
  if 0x1000 ≤ off then
    if off < 0x1008 then
      BitVec.ofNat 32 ((List.range 32).foldl (fun n i => n + boolNat (vectorAt s (8 * (off - 0x1000) + i)).pend * 2 ^ i) 0)
    else 0
  else
    let x := vectorAt s (off / 16)
    if 64 ≤ off / 16 then 0
    else match off % 16 with
      | 0x0 => halfOf x.addr false
      | 0x4 => halfOf x.addr true
      | 0x8 => x.data
      | _ => bitsFrom 0 (boolNat x.masked)

/-- R453: what was staged, while BOOT is 1; from BOOT 2 on the attestation report lies here. -/
def readStaging (s : State) (off : Nat) : Word :=
  if s.boot = 1 then memWord s.staging off else Config.attestation s.stepId s.staging s.measure (off / 4)

/-- The register word at an offset of BAR0. -/
def readReg (s : State) (off : Nat) : Word :=
  if off < 0x10000 then readBringUp s off
  else if off < 0x20000 then readQueue s (off - 0x10000)
  else if off < 0x30000 then readThreshold s (off - 0x20000)
  else if off < 0x40000 then readPort s (off - 0x30000)
  else if off < 0x50000 then readPower s (off - 0x40000)
  else if off < 0x60000 then readHarvest s (off - 0x50000)
  else if off < 0x300000 then readWindow s (off - 0x60000)
  else if off < 0x310000 then readRebuild s (off - 0x300000)
  else if off < 0x320000 then readTvec s (off - 0x310000)
  else if off < 0x330000 then readFaults s (off - 0x320000)
  else if off < 0x340000 then readTlb s (off - 0x330000)
  else if off < 0x350000 then readAstb s (off - 0x340000)
  else if off < 0x360000 then readService s (off - 0x350000)
  else if off < 0x370000 then readCtx s (off - 0x360000)
  else if off < 0x370100 then readCode s (off - 0x370000)
  else if off < 0x370200 then readPatch s (off - 0x370100)
  else if off < 0x400000 then 0
  else if off < 0x580000 then readRecords s (off - 0x400000)
  else if off < 0xF00000 then 0
  else if off < 0x2000000 then readMsix s (off - 0xF00000)
  else if off < 0x3000000 then readStaging s (off - 0x2000000)
  else 0

/-- R440, R441: what a BAR0 read of `size` bytes completes with. -/
def hostRead (s : State) (off size : Nat) : HostSees :=
  if !bar0Takes s off size then .unsupported
  else
    let low := bytesLe 4 (readReg s off).toNat
    .data (if size = 8 then low ++ bytesLe 4 (readReg s (off + 4)).toNat else low) false

end Sys2Proof.Machine
end

