-- ==== Sys2Proof/Safety.lean ====
section
/-! DEFINITION. The terms that claims use: what counts as a safe run (every step goes on, the memories keep their canonical
form, waves keep their shape, bring-up stays in one of its states), when an instruction issues, and what the retirement of
one leaves. -/

namespace Sys2Proof.Machine

/-- An outcome that goes on. -/
def Proceeds (o : Host.Outcome State Fault Refusal) : Prop := ∃ t, o = .next t

/-- Every memory is in canonical form. -/
def MemoriesWf (s : State) : Prop := memWf s.dram ∧ memWf s.lstore ∧ memWf s.staging

/-- The values of BOOT (R452). -/
def BootLegal (s : State) : Prop := s.boot ∈ [1, 2, 3, 4, 5, 15]

/-- What the environment puts in is events, never instructions. -/
def InputsAreEvents (s : State) : Prop := ∀ i ∈ s.inputs ++ s.deferred, isInstruction i = false

/-- The shape of a wave (R39, R41, R384): lanes alive within its width, and as many registers as it asked for. -/
def WaveShaped (x : Wave) : Prop :=
  x.width ≤ 64 ∧ x.alive &&& ~~~widthMask x.width = 0 ∧ x.g.length = x.gregs ∧ x.k.length = 12 ∧ x.gk.length = 12 ∧
    x.svG.length = 8 ∧ x.svV.length = 512

/-- An image has the shape of its waves and of its kernel. -/
def ImageShaped (im : Image) : Prop := im.ker.width ≤ 64 ∧ ∀ v ∈ im.waves, WaveShaped v.wave

/-- Every resident wave, every wave of an image, and every wave that a launch can still start, has its shape. -/
def WavesShaped (s : State) : Prop :=
  (∀ e ∈ s.waves, WaveShaped e.2) ∧ (∀ e ∈ s.launches, e.2.ker.width ≤ 64) ∧ (∀ e ∈ s.images, ImageShaped e.2) ∧
    ∀ e ∈ s.exports, ImageShaped e.2

/-! Issue. -/

/-- An instruction issues in a context without an encoding trap (R79), with room for the value it holds (R128), and none of
the register words it reads carries poison (R425). -/
structure Issues (i : Instr) (s : State) (c : Ctx) : Prop where
  stands : ctxOf i s = some c
  mems : MemoriesWf s
  shaped : WaveShaped c.x
  fields : unimplBad i = false ∧ illegalBad i = false
  wave : dynUnimpl i c.x = false ∧ dynIllegal i c.x c.t c.la = false
  room : (holdOf i).isSome = true → latchFull s c.core = false
  sound : eatenLanes s c = 0

/-! Retirement. -/

/-- The last value that register results give a lane register, or what it had. -/
def lastLane (ws : List RegWrite) (n l : Nat) (old : Word) : Word :=
  ws.foldl (fun v r => match r with
    | .lane n' l' v' => if n' = n ∧ l' = l then v' else v
    | .group _ _ => v) old

/-- The last value that register results give a group register, or what it had. -/
def lastGroup (ws : List RegWrite) (n : Nat) (old : Word) : Word :=
  ws.foldl (fun v r => match r with
    | .lane _ _ _ => v
    | .group n' v' => if n' = n then v' else v) old

/-- Results under lookahead of a slot that issues once more (R70). -/
def countWave (b : Bool) (x : Wave) : Wave :=
  { x with
    landings := x.landings.map fun e => if e.b = b then { e with left := e.left - 1 } else e
    locals := x.locals.map fun e => if e.b = b then { e with left := e.left - 1 } else e }

/-- The slot of an instruction that has retired (R45, R50, R171, R368): at the next instruction word, the words folded into its
signature. A slot that no longer runs stays where it is. -/
def slotAfter (c : Ctx) (time : Nat) (now : DWord) (sl : Slot) : Slot :=
  let ends := c.sl.clause.length ≤ c.sl.woff + c.words.length
  let yh := field (c.sl.clause.headD 0) 16 4
  let ranked := if ends && yh ≠ 0 then some ⟨now, 8 * yh.toNat⟩ else sl.ranked
  let noted : Slot := { sl with
    act := none, aged := false, last := time, issuedAt := now, since := none, ranked, joint := none, owed := owedAfter c sl.owed }
  if sl.st ≠ .run then noted
  else
    let sig := if c.la.ker.sig && !c.x.super && !isSigchk c.i then c.words.foldl foldSig sl.sig else sl.sig
    if ends then { noted with pc := c.next, sig, woff := 0, clause := [], header := none }
    else { noted with pc := c.next, sig, woff := c.sl.woff + c.words.length }

/-- The byte of the local store belongs to a lane register that results are written to. -/
def WrittenByte (c : Ctx) (ws : List RegWrite) (k : Nat) : Prop :=
  ∃ n l v, RegWrite.lane n l v ∈ ws ∧ svLane c.x n = false ∧ lsKey c.cl (regAddr c.x n l) ≤ k ∧ k < lsKey c.cl (regAddr c.x n l) + 4

/-- The results are in the registers at once: no lookahead, or interlocked mode (R70, R73). -/
def AtOnce (c : Ctx) (la : Nat) : Prop := la = 0 ∨ c.interlocked = true

/-- The register results that are written now. -/
def writtenNow (c : Ctx) (la : Nat) (ws : List RegWrite) : List RegWrite := if la = 0 ∨ c.interlocked = true then ws else []

/-- `o'` is what a matrix operation has of its operand `o`, read through the windows `wins`, once a wave's results `ws` are written:
each byte as it was, or that of a result to the register block that it is still reading (R315). -/
def SeenBlock (w : Nat) (x : Wave) (ws : List RegWrite) (wins : List MatWindow) (second : Bool) (o o' : MatOperand) : Prop :=
  o' = o ∨ ∃ bs bs', o = .bytes bs ∧ o' = .bytes bs' ∧ bs'.length = bs.length ∧ ∀ i, bs'[i]? = bs[i]? ∨
    ∃ win ∈ wins, win.second = second ∧ win.slot.wave = w ∧ ∃ n l v, RegWrite.lane n l v ∈ ws ∧ svLane x n = false ∧ win.reg ≤ n ∧
      i / 4 = (n - win.reg) * win.width + l ∧ bs'[i]? = some (field v (8 * (i % 4)) 8)

/-- A supply of an attached operation, after such results. -/
def SeenSupply (w : Nat) (x : Wave) (ws : List RegWrite) (p p' : MatSupply) : Prop :=
  p' = { p with a := p'.a, b := p'.b } ∧ SeenBlock w x ws p.windows false p.a p'.a ∧ SeenBlock w x ws p.windows true p.b p'.b

/-- A matrix operation after such results: nothing of it changes but register operands that it is still reading (R315). -/
def SeenOp (w : Nat) (x : Wave) (ws : List RegWrite) (op op' : MatOp) : Prop :=
  op' = { op with a := op'.a, b := op'.b, supplies := op'.supplies } ∧ SeenBlock w x ws op.windows false op.a op'.a ∧
    SeenBlock w x ws op.windows true op.b op'.b ∧ List.Forall₂ (SeenSupply w x ws) op.supplies op'.supplies

/-- The matrix operations after such results: the same, in their places. -/
def SeenMats (w : Nat) (x : Wave) (ws : List RegWrite) (ms ms' : Kv Nat MatOp) : Prop :=
  List.Forall₂ (fun m m' => m'.1 = m.1 ∧ SeenOp w x ws m.2 m'.2) ms ms'

/-- The matrix operations once a slot has issued one more instruction: one less may write into the blocks they read (R315). -/
def countMats (r : SlotRef) (ms : Kv Nat MatOp) : Kv Nat MatOp :=
  let count (l : List MatWindow) : List MatWindow :=
    (l.map fun v => if v.slot = r then { v with left := v.left - 1 } else v).filter fun v => v.left ≠ 0
  ms.map fun m => (m.1, { m.2 with windows := count m.2.windows, supplies := m.2.supplies.map fun p => { p with windows := count p.windows } })

/-- What the retirement of an instruction with register results `ws` under lookahead `la` makes of a state `s`: the results,
the slot, the counts of R70, R127 and R315, the poison marks of the registers written (R425), and nothing else. `hs` is what the
instruction holds. -/
structure Retired (c : Ctx) (s : State) (hs : List Latch) (la : Nat) (ws : List RegWrite) (t : State) : Prop where
  rest : t = { s with waves := t.waves, lstore := t.lstore, regPoison := t.regPoison, latches := t.latches, mats := t.mats, serial := s.serial + 1 }
  waves : ∀ w, w ≠ c.w → findWave t w = findWave s w
  latches : t.latches = hs ++ (s.latches.map fun e => if e.slot = c.r then { e with left := e.left - 1 } else e).filter fun e => e.left ≠ 0
  mats : (∀ m ∈ s.mats, noWindows m.2 = true) → t.mats = s.mats
  reads : SeenMats c.w c.x (writtenNow c la ws) (countMats c.r s.mats) t.mats
  poison : (findWave s c.w).isSome = true → ∀ k, k ∈ t.regPoison ↔ k ∈ s.regPoison ∧
    ¬ ∃ n l v, RegWrite.lane n l v ∈ writtenNow c la ws ∧ svLane c.x n = false ∧ k = lsKey c.cl (regAddr c.x n l)
  bytes : ∀ k, ¬ (AtOnce c la ∧ WrittenByte c ws k) → memRead t.lstore k = memRead s.lstore k
  wave : ∀ x, findWave s c.w = some x → ∃ y, findWave t c.w = some y ∧
    y = { x with g := y.g, svG := y.svG, svV := y.svV, a := y.a, b := y.b, landings := y.landings, locals := y.locals } ∧
    slotOf y (other c.r.b) = slotOf x (other c.r.b) ∧
    slotOf y c.r.b = slotAfter c s.serial s.clock (slotOf x c.r.b) ∧
    (AtOnce c la →
      (∀ n, groupReg y n = lastGroup ws n (groupReg x n)) ∧
      (∀ n l, l < x.width → laneReg t c.w y n l = lastLane ws n l (laneReg s c.w x n l)) ∧
      y.landings = (supersede (countWave c.r.b x) x.super ws).landings ∧ y.locals = (supersede (countWave c.r.b x) x.super ws).locals) ∧
    (¬ AtOnce c la →
      y.g = x.g ∧ y.svG = x.svG ∧ y.svV = x.svV ∧ y.locals = (countWave c.r.b x).locals ∧
      y.landings = (countWave c.r.b x).landings ++ (if ws = [] then [] else [⟨c.r.b, la, writesByLoad c.i, x.super, ws⟩]))

/-- An instruction retires: its effect proper makes `e.1` of the state, its register results are `e.2.2` under lookahead `e.2.1`;
then idle and waiting slots of the wave act (R153). -/
def Completes (i : Instr) (s : State) (c : Ctx) (e : State × Nat × List RegWrite) : Prop :=
  ∃ t, exec i s = .next (settle' t c) ∧ Retired c e.1 (takeHold s c) e.2.1 e.2.2 t

/-- An instruction whose effect is its register results alone, wherever it issues. -/
def Gives (i : Instr) (la : Nat) (ws : Ctx → State → List RegWrite) : Prop :=
  ∀ s c, Issues i s c → Completes i s c (s, la, ws c s)

/-- An instruction whose effect is a change of its wave's registers, wherever it issues. -/
def Sets (i : Instr) (f : Ctx → State → Wave → Wave) : Prop :=
  ∀ s c, Issues i s c → Completes i s c (onWave s c.w (f c s), 0, [])

end Sys2Proof.Machine
end

