-- ==== Sys2Proof/Certificates/Slice0/Obligations.lean ====
section
/-! DEFINITION. The statements about the machine, one definition each; OBLIGATIONS.json lists them. First the moulds in which
statements of instruction results are written. -/

namespace Sys2Proof.Machine

/-! Moulds of results: `op` says what lane `l`, or the group, computes from its sources (R60, R123, R130). -/

/-- The L layout: the sources A and B, and what D held. -/
def threeIn (f : LOps) (op : Word → Word → Word → Word) (c : Ctx) (s : State) : List RegWrite :=
  eachResult c f.u f.d fun l => op (src s c f.u f.a l) (src s c f.u f.b l) (srcDest s c f.u f.d l)

def oneIn (f : LOps2) (op : Word → Word) (c : Ctx) (s : State) : List RegWrite :=
  eachResult c f.u f.d fun l => op (src s c f.u f.a l)

/-- The I layout: the source A and IMM7. -/
def immIn (f : IOps) (op : Word → BitVec 7 → Word) (c : Ctx) (s : State) : List RegWrite :=
  eachResult c f.u f.d fun l => op (src s c f.u f.a l) f.i

/-- A pair of registers for each lane, the even register low (R142). -/
def pairOut (f : Alu64Ops) (op : Ctx → State → Nat → DWord) (c : Ctx) (s : State) : List RegWrite :=
  eachWide c f.u f.d 2 fun l => (op c s l).toNat

/-- A predicate with the answers `p` in the lanes of `act`, or, in the group form, the group predicate (R123, R135). -/
def predicate (c : Ctx) (u : Bool) (d : BitVec 6) (p : Nat → Bool) (x : Wave) : Wave :=
  if u then (if c.act = 0 then x else { x with gk := x.gk.set d.toNat (p 0) })
  else { x with k := x.k.set d.toNat ((predReg x d.toNat &&& ~~~c.act) ||| maskOf (c.lanes.filter p)) }

def compared (f : LOps) (p : Word → Word → Bool) (c : Ctx) (s : State) : Wave → Wave :=
  predicate c f.u f.d fun l => p (src s c f.u f.a l) (src s c f.u f.b l)

def comparedImm (f : IOps) (p : Word → Word → Bool) (c : Ctx) (s : State) : Wave → Wave :=
  predicate c f.u f.d fun l => p (src s c f.u f.a l) (sext 32 f.i)

/-- An `f32` operand (R98), and a value rounded into `f32` (R97), under a mode. -/
def of32 (m : BitVec 7) (a : Word) : FVal := operand fmtF32 m a.toNat
def f32 (m : BitVec 7) (v : FVal) : Word := BitVec.ofNat 32 (rounded fmtF32 m v)

def comparedF (f : LOps) (p : Option Ordering → Prop) [DecidablePred p] (c : Ctx) (s : State) : Wave → Wave :=
  compared f (fun a b => decide (p (cmpF (of32 c.x.fpmode a) (of32 c.x.fpmode b)))) c s

/-- The L layout under `%fpmode` (R96). -/
def floatIn (f : LOps) (op : BitVec 7 → Word → Word → Word → Word) (c : Ctx) (s : State) : List RegWrite :=
  threeIn f (op c.x.fpmode) c s

/-- Pairs of A, B and D as `f64` encodings. -/
def doubleOut (f : LOps) (op : BitVec 7 → Nat → Nat → Nat → Nat) (c : Ctx) (s : State) : List RegWrite :=
  eachWide c f.u f.d 2 fun l =>
    op c.x.fpmode (srcPair s c f.u f.a l).toNat (srcPair s c f.u f.b l).toNat (destPair s c f.u f.d l).toNat

/-- The `ftr` functions by SUB code, of the sources after the input flush; only `fdiv` reads B (R201). -/
def ftrIn (f : FtrOps) (sub : Nat) (c : Ctx) (s : State) : List RegWrite :=
  eachResult c f.u f.d fun l => ftrWord sub c.x.fpmode (src s c f.u f.a l) (if sub = 3 then src s c f.u f.b l else 0)

/-- The magnitude `m × 2^e` of an `f32` operand, in units of 2^−149, the least subnormal. -/
def units32 (m : Nat) (e : Int) : Nat := m * 2 ^ (e + 149).toNat

/-- The value of the magnitude bits `k` of a format with `frac` fraction bits, in halves of its least subnormal; from the infinity on as
if the exponents went on. -/
def halvesOf (frac k : Nat) : Nat := if k < 2 ^ frac then 2 * k else 2 * (2 ^ frac + k % 2 ^ frac) * 2 ^ (k / 2 ^ frac - 1)

/-- R97: `k` is what a magnitude becomes, the exponent range not yet bounded; `cmp n` compares `n` halves of the least subnormal with the
magnitude. RNE takes the nearer neighbour and at a tie the even one, the directions cut or go one on. -/
def RoundsTo (frac : Nat) (r : Rnd) (neg : Bool) (cmp : Nat → Ordering) (k : Nat) : Prop :=
  let between (i : Nat) : Nat := (halvesOf frac i + halvesOf frac (i + 1)) / 2
  if r = .rne then
    (k ≠ 0 → cmp (between (k - 1)) = .lt ∨ (cmp (between (k - 1)) = .eq ∧ k % 2 = 0)) ∧
      (cmp (between k) = .gt ∨ (cmp (between k) = .eq ∧ k % 2 = 0))
  else if r = .rtz ∨ (r = .rup ∧ neg = true) ∨ (r = .rdn ∧ neg = false) then
    cmp (halvesOf frac k) ≠ .gt ∧ cmp (halvesOf frac (k + 1)) = .gt
  else (k ≠ 0 → cmp (halvesOf frac (k - 1)) = .lt) ∧ cmp (halvesOf frac k) ≠ .lt

/-- R97, R98: `x` is the rounding of a magnitude of a sign into a format of a width whose infinity is `inf`: overflow gives the infinity,
or, where the direction is towards zero, the largest finite value; under the output flush a subnormal gives a zero. -/
def RoundedBits (width frac inf : Nat) (flush : Bool) (r : Rnd) (neg : Bool) (cmp : Nat → Ordering) (x : Nat) : Prop :=
  ∃ k, RoundsTo frac r neg cmp k ∧ x = (if neg then 2 ^ (width - 1) else 0) +
    if inf ≤ k then (if r = .rne ∨ (r = .rup ∧ neg = false) ∨ (r = .rdn ∧ neg = true) then inf else inf - 1)
    else if flush = true ∧ k < 2 ^ frac then 0 else k

/-- The same for an `f32` word under a mode. -/
def RoundedWord (mode : BitVec 7) (r : Rnd) (neg : Bool) (cmp : Nat → Ordering) (w : Word) : Prop :=
  ∃ x, RoundedBits 32 23 0x7F800000 (mode.getLsbD 3) r neg cmp x ∧ w = BitVec.ofNat 32 x

/-- The formats of R91 and R92: width, fraction bits, bias, infinity, canonical NaN. -/
def floatFormats : List (Fmt × Nat × Nat × Nat × Nat × Nat) :=
  [(fmtF16, 16, 10, 15, 0x7C00, 0x7E00), (fmtBf16, 16, 7, 127, 0x7F80, 0x7FC0), (fmtF32, 32, 23, 127, 0x7F800000, 0x7FC00000),
    (fmtF64, 64, 52, 1023, 0x7FF0000000000000, 0x7FF8000000000000)]

/-- A subnormal `f32` word as a zero of its sign, where a flush is on (R98). -/
def flushedWord (on : Bool) (w : Word) : Word :=
  if on = true ∧ w.toNat / 2 ^ 23 % 256 = 0 then (if 2 ^ 31 ≤ w.toNat then 0x80000000 else 0) else w

/-- `n` is a magnitude of `u` parts, `one` parts being 1, rounded to an integer in a direction. -/
def RoundsToInteger (r : Rnd) (neg : Bool) (u one n : Nat) : Prop :=
  if r = .rne then 2 * u ≤ (2 * n + 1) * one ∧ 2 * n * one ≤ 2 * u + one ∧
    (2 * u = (2 * n + 1) * one ∨ 2 * n * one = 2 * u + one → n % 2 = 0)
  else if r = .rtz ∨ (r = .rup ∧ neg = true) ∨ (r = .rdn ∧ neg = false) then n * one ≤ u ∧ u < (n + 1) * one
  else u ≤ n * one ∧ n * one < u + one

/-! Cross-lane reads. -/

/-- A register of lane `n` as another lane reads it: 0 when the lane is not alive (R177). -/
def aliveLane (s : State) (c : Ctx) (a : BitVec 6) (n : Nat) : Word := if c.x.alive.getLsbD n then srcLane s c a n else 0

/-- `%deadrd` is set by a read of a lane that is not alive (R178). -/
def deadNoted (s : State) (c : Ctx) (read : List Nat) : State :=
  if read.all fun n => c.x.alive.getLsbD n then s else onWave s c.w fun x => { x with deadrd := true }

/-! What instructions leave that place their slot themselves, and traps. -/

/-- `t` is `s` with the wave `w` now `y`. -/
structure WaveSet (s : State) (w : Nat) (y : Wave) (t : State) : Prop where
  rest : t = { s with waves := t.waves }
  wave : findWave t w = some y
  others : ∀ v, v ≠ w → findWave t v = findWave s v

/-- The slot of an instruction that has issued: no `act` fixed, no age; with the last instruction of its clause its yield hint
begins, and in interlocked mode the first notes the operations that TWAIT names (R50, R73, R368, R388). -/
def slotNoted (c : Ctx) (time : Nat) (now : DWord) (sl : Slot) : Slot :=
  let yh := field (c.sl.clause.headD 0) 16 4
  { sl with
    act := none, aged := false, last := time, issuedAt := now, since := none, joint := none, owed := owedAfter c sl.owed
    ranked := if c.sl.clause.length ≤ c.sl.woff + c.words.length ∧ yh ≠ 0 then some ⟨now, 8 * yh.toNat⟩ else sl.ranked }

/-- The slot of a transfer: its lanes `m` go on at the clause at `pc`, the instruction folded into its signature (R154, R171). -/
def slotMoved (c : Ctx) (time : Nat) (now : DWord) (m : LaneMask) (pc : BitVec 56) (sl : Slot) : Slot :=
  let sig := if c.la.ker.sig && !c.x.super && sl.st = .run then c.words.foldl foldSig sl.sig else sl.sig
  slotNoted c time now { sl with m, pc, woff := 0, clause := [], header := none, sig }

/-- The link that a call writes: the address of the next clause header (R154). -/
def linkWrites (c : Ctx) : List RegWrite := [.group 62 (zext 32 (field c.next 0 32)), .group 63 (zext 32 (field c.next 32 24))]

/-- What a taken transfer, or a `join` that does not resume, makes of a state: the slot `f` of what it was, the link, the slot's
holds and counts ended, those of operand blocks that matrix operations still read too (R70, R127, R315), and nothing else. -/
structure Placed (c : Ctx) (s : State) (link : List RegWrite) (f : Slot → Slot) (t : State) : Prop where
  rest : t = { s with waves := t.waves, latches := t.latches, mats := t.mats, serial := s.serial + 1 }
  waves : ∀ w, w ≠ c.w → findWave t w = findWave s w
  latches : t.latches = s.latches.filter fun e => e.slot ≠ c.r ∧ e.left ≠ 0
  mats : t.mats = s.mats.map fun m => (m.1, mapWindows (fun l => l.filter fun v => v.slot ≠ c.r ∧ v.left ≠ 0) m.2)
  wave : ∀ x, findWave s c.w = some x → ∃ y, findWave t c.w = some y ∧
    y = { x with g := y.g, svG := y.svG, a := y.a, b := y.b, landings := y.landings, locals := y.locals } ∧
    slotOf y (other c.r.b) = slotOf x (other c.r.b) ∧ slotOf y c.r.b = f (slotOf x c.r.b) ∧
    (∀ n, groupReg y n = lastGroup link n (groupReg x n)) ∧
    y.landings = (supersede x x.super link).landings.map (fun e => if e.b = c.r.b then { e with left := 0 } else e) ∧
    y.locals = (supersede x x.super link).locals.map (fun e => if e.b = c.r.b then { e with left := 0 } else e)

/-- An instruction places its slot in a state `s` that its effect proper has made. -/
def Places (i : Instr) (s₀ : State) (c : Ctx) (s : State) (link : List RegWrite) (f : Slot → Slot) : Prop :=
  ∃ t, exec i s₀ = .next (settle' t c) ∧ Placed c s link f t

/-- The lanes that a transfer takes, its target and its link (R154 to R156); for `ret` and `jmpi` the target is checked, and the
pair of a transfer that some lane takes is one of the wave's. -/
def Jump (i : Instr) (s : State) (c : Ctx) (t : LaneMask) (target : BitVec 56) (link : List RegWrite) : Prop :=
  match i with
  | .bra f => t = c.act &&& (c.sl.m &&& c.x.alive) ∧ target = c.header + sext 56 f.off * 4 ∧ link = []
  | .gbra f => t = (if groupGuard c.x f.g then c.sl.m &&& c.x.alive else 0) ∧ target = c.header + sext 56 f.off * 4 ∧ link = []
  | .call f => t = c.act &&& (c.sl.m &&& c.x.alive) ∧ target = c.header + sext 56 f.off * 4 ∧ link = linkWrites c ∧
      (t ≠ 0 → pairBad c 62 = false)
  | .ret _ => t = c.act &&& (c.sl.m &&& c.x.alive) ∧ target = (readGroupPair s c.x 62).setWidth 56 ∧ link = [] ∧
      (t ≠ 0 → pairBad c 62 = false ∧ (readGroupPair s c.x 62).toNat < 2 ^ 56 ∧ (readGroupPair s c.x 62).toNat % 4 = 0)
  | .jmpi f => t = c.act &&& (c.sl.m &&& c.x.alive) ∧ target = (readGroupPair s c.x f.a.toNat).setWidth 56 ∧ link = [] ∧
      (t ≠ 0 → pairBad c f.a.toNat = false ∧ (readGroupPair s c.x f.a.toNat).toNat < 2 ^ 56 ∧ (readGroupPair s c.x f.a.toNat).toNat % 4 = 0)
  | _ => False

/-- An instruction traps: it has none of its effect, and the trap is entered (R379, R380). -/
def Traps (i : Instr) (s : State) (c : Ctx) (f : Fail) : Prop := exec i s = .next (takeTrap s c.w (trapInfo c f))

/-- A `join` that arrives at its slot's pending join (R158). -/
structure Arrives (f : GOps) (s : State) (c : Ctx) : Prop where
  issues : Issues (.join f) s c
  some : c.act ≠ 0 ∧ c.sl.m ≠ 0
  here : c.sl.j.jv = true ∧ c.sl.j.h = c.header

/-- A piece with the lanes `m` is merged into slot `b` of a wave; pieces that share a lane break its join (R158, R172). -/
def pieceMerged (x : Wave) (b : Bool) (m : LaneMask) : Wave :=
  let sl := slotOf x b
  { withSlot x b { sl with m := sl.m ||| m } with
    broken := if sl.m &&& m ≠ 0 ∧ (x.super, sl.j) ∉ x.broken then (x.super, sl.j) :: x.broken else x.broken }

/-- The other slot's piece is merged where it waits at the same join, and that slot turns idle (R158). -/
def otherMerged (x : Wave) (b : Bool) : Wave :=
  let y := slotOf x (other b)
  if y.st = .wait ∧ y.j = (slotOf x b).j then
    withSlot (pieceMerged x b y.m) (other b) { Slot.idle with last := y.last, issuedAt := y.issuedAt }
  else x

/-- The pieces parked on top of a wave's fork stack are merged into slot `b`, and dead entries on top dropped, until none is there
(R158, R160). -/
inductive Merged (s : State) (w : Nat) (b : Bool) : Wave → Wave → Prop
  | bare (x : Wave) : topEntry s w x = none → Merged s w b x x
  | stop (x : Wave) (e : Entry) : topEntry s w x = some (some e, e.m) → e.m &&& x.alive ≠ 0 →
      ¬ (e.kind = .parked ∧ e.j = (slotOf x b).j) → Merged s w b x x
  | dead (x y : Wave) (e : Entry) : topEntry s w x = some (some e, e.m) → e.m &&& x.alive = 0 → Merged s w b (popEntry x) y →
      Merged s w b x y
  | piece (x y : Wave) (e : Entry) : topEntry s w x = some (some e, e.m) → e.m &&& x.alive ≠ 0 → e.kind = .parked →
      e.j = (slotOf x b).j → Merged s w b (pieceMerged (popEntry x) b (e.m &&& x.alive)) y → Merged s w b x y

/-! Memory accesses. -/

/-- The global address of a lane (R208). -/
def globalAddr (s : State) (c : Ctx) (u : Bool) (a : BitVec 6) (off : BitVec 16) (l : Nat) : Nat :=
  (srcPair s c u a l + sext 64 off).toNat

/-- The local address of a lane (R211). -/
def localAddr (s : State) (c : Ctx) (u : Bool) (a : BitVec 6) (off : BitVec 16) (l : Nat) : Nat :=
  (src s c u a l + sext 32 off).toNat

/-- The sources that an instruction goes by: as they stand, or, where it has waited, as they stood when it issued (R125, the model's
reading, log entry 17). -/
def ReadAt (c : Ctx) (now ls : List AtomLane) : Prop :=
  (∃ p, c.x.progress = some p ∧ p.b = c.r.b ∧ p.ops = some ls) ∨ ((∀ p, c.x.progress = some p → p.b = c.r.b → p.ops = none) ∧ ls = now)

/-- The same for addresses without data. -/
def AddrAt (c : Ctx) (u : Bool) (now addr : Nat → Nat) : Prop :=
  ReadAt c ((c.formLanes u).map fun l => ⟨l, now l, 0, 0⟩) ((c.formLanes u).map fun l => ⟨l, addr l, 0, 0⟩)

/-- The addresses of a global access, with their lanes, are sound: canonical and aligned (R208, R209), translated at their homes, which
makes `t` of the state (R242); no page of theirs waits for its shootdown (R409), and no acquire of the wave waits at its bank (R245,
R246). -/
structure Translates (s : State) (c : Ctx) (acc : Acc) (n : Nat) (as : List (Nat × Nat)) (t : State) : Prop where
  some : as ≠ []
  order : acquireWaits c = false
  calm : ∀ a ∈ as, shooting s c.tag.asid a.2 = false
  form : ∀ a ∈ as, canonical a.2 = true ∧ a.2 % n = 0
  reach : reach s (c.asker acc) acc (as.map (·.2)) = .ok t

/-- The words that a load of `cnt` registers reads are given by its caches, unit by unit (R210). -/
def CachesGive (s : State) (q : Asker) (cnt : Nat) (as : List (Nat × Nat)) (w : Nat → Word) : Prop :=
  ∀ g, let here := (wantedWords cnt as).filter fun k => k.2 / loadUnit cnt = g
    here ≠ [] → cachedWords s q (here.map (·.2)) = some (here.map fun k => (w k.2, false))

/-- What an atomic of one word makes of the word `w` with operands `x` and `y` (R236). -/
def atomWord (sub : Nat) (w : Word) (x y : Nat) : Word :=
  match sub with
  | 0 => w + BitVec.ofNat 32 x
  | 1 => addF32Rne w (BitVec.ofNat 32 x)
  | 2 => BitVec.ofInt 32 (min w.toInt (BitVec.ofNat 32 x).toInt)
  | 3 => BitVec.ofInt 32 (max w.toInt (BitVec.ofNat 32 x).toInt)
  | 4 => BitVec.ofNat 32 (min w.toNat x)
  | 5 => BitVec.ofNat 32 (max w.toNat x)
  | 6 => w &&& BitVec.ofNat 32 x
  | 7 => w ||| BitVec.ofNat 32 x
  | 8 => w ^^^ BitVec.ofNat 32 x
  | 9 => BitVec.ofNat 32 x
  | _ => if w.toNat = x then BitVec.ofNat 32 y else w

/-- The results of an instruction in any order. -/
def CompletesWith (i : Instr) (s : State) (c : Ctx) (t : State) (la : Nat) (ws : List RegWrite) : Prop :=
  ∃ vs, vs.Perm ws ∧ Completes i s c (t, la, vs)

/-- A local access may be performed now: no mode change pends, no access of its slot waits, its addresses are in range and aligned
and their places sound, its banks not being copied (R211, R212, R217, R221, R240). -/
structure LocalReady (s : State) (c : Ctx) (u : Bool) (kind : LocalKind) (fe n : Nat) (addr : Nat → Nat) : Prop where
  some : c.formLanes u ≠ []
  modes : s.modeReqs = []
  first : c.x.locals = []
  place : ∀ l ∈ c.formLanes u, addr l < 0x180000 ∧ addr l % n = 0 ∧ placeCode s c kind fe (addr l) n = none ∧
    (bankAt s c.cl (bankOf (addr l))).copying = false

/-- A path with nothing to push: nothing dirty, nothing on its way, no outbound write and no claim unacknowledged (R260, R460). -/
def PathClean (s : State) (c : Ctx) (sc : Nat) : Prop :=
  c.x.locals = [] ∧ (sc = 6 → outboundPending s c = false) ∧ (sc < 2 → nodeBusy s (.l1 c.cl) = false) ∧ ∀ n ∈ pathBelow none c.cl sc, dirtyLines s n = [] ∧ pushBusy s n = false

/-! Copies, matrix operations, tasks. -/

/-- A collective copy instruction: its kind, its token, whether its shape is empty, and the registers that its slice takes
(R281 to R283, R297). -/
def CopySlice (i : Instr) (s : State) (c : Ctx) (kind : CopyKind) (tok : Nat) (empty : Bool) (a b : List Word) : Prop :=
  let quads (f : CpOps) (k : CopyKind) : Prop :=
    kind = k ∧ tok = f.tok.toNat ∧ a = (List.range 4).map (fun j => readGroup s c.x (f.a.toNat + j)) ∧
      b = (List.range 4).map (fun j => readGroup s c.x (f.b.toNat + j)) ∧
      empty = (decide (field (readGroup s c.x f.b.toNat) 0 24 = 0) || decide (field (readGroup s c.x (f.b.toNat + 1)) 0 16 = 0))
  match i with
  | .cpG2l f => quads f .g2l
  | .cpL2g f => quads f .l2g
  | .cpL2gRed f => quads f .l2gRed
  | .cpL2l f => quads f .l2l
  | .cpG2g f => quads f .g2g
  | .cpPeerPut f => quads f .peerPut
  | .cpPeerGet f => quads f .peerGet
  | .cpG2lMc f => quads f .g2lMc
  | .cpscale f => kind = .scale ∧ tok = f.tok.toNat ∧
      a = [readGroup s c.x f.a.toNat, readGroup s c.x (f.a.toNat + 1)] ∧ b = [readGroup s c.x f.b.toNat] ∧
      empty = decide (field (readGroup s c.x f.b.toNat) 8 8 = 0)
  | _ => False

/-- No attached operation of the wave's team waits to be formed, and the tile of an instruction has no operation before it (R307,
R325, R329). -/
def MatQuiet (s : State) (c : Ctx) : Prop := ∀ m ∈ s.mats, m.2.team = c.x.team → m.2.formed = true

/-- A matrix operation that a team has formed: at its place, its token pending for it (R307, R316). -/
structure Formed (s : State) (c : Ctx) (tok : Nat) (op : MatOp) (t : State) : Prop where
  rest : t = { s with serial := s.serial + 2, mats := t.mats, teams := t.teams, waves := t.waves }
  op : kvFind t.mats s.serial = some op
  others : ∀ k, k ≠ s.serial → kvFind t.mats k = kvFind s.mats k
  token : ∃ u, findTeam t c.x.team = some u ∧ u.toks = c.t.toks.set tok { tokenAt c.t tok with op := some s.serial } ∧
    { u with toks := c.t.toks, joints := c.t.joints } = c.t
  teams : ∀ k, k ≠ c.x.team → findTeam t k = findTeam s k

/-- Lanes do an operation in turn: each lane's result code, and the state they leave. -/
def Turns (op : State → AtomLane → PageOp) : List AtomLane → State → List (Nat × Nat) → State → Prop
  | [], s, rs, t => rs = [] ∧ t = s
  | l :: ls, s, rs, t => ∃ r u qs, op s l = .result r u ∧ rs = (l.lane, r) :: qs ∧ Turns op ls u qs t

/-- What an instruction reads at issue is kept while it waits in a state `u` (R125). -/
def keepsReading (u : State) (c : Ctx) (ls : List AtomLane) : State :=
  onWave u c.w fun x => { x with progress := x.progress.map fun p => { p with ops := some ls } }

/-! Events. -/

/-- `ws` stands from a text address on in a cluster's instruction cache, and may be fetched (R56, R400). -/
def TextStands (s : State) (cl : Nat) (tag : AsidTag) (sup : Bool) (va : Nat) (ws : List Word) : Prop :=
  ∀ i w, ws[i]? = some w → canonical (va + 4 * i) = true ∧ removedText s tag.asid (va + 4 * i) = false ∧
    (∃ p e, translate s tag (va + 4 * i) .fetch sup = (.ok p e, s)) ∧ kvFind s.icache (cl, tag, va + 4 * i) = some w

/-- `ws` are the words of `n` instructions (R45). -/
def WordsOf : Nat → List Word → Prop
  | 0, ws => ws = []
  | n + 1, ws => ∃ w rest, ws = w :: rest ∧ (((field w 25 7).toNat < 0x60 ∧ WordsOf n rest) ∨
      (0x60 ≤ (field w 25 7).toNat ∧ ∃ w1 r, rest = w1 :: r ∧ WordsOf n r))

/-- A clause header that passes step 1 of R55: TAG, HC (R49), reserved bits, NI. -/
def HeaderSound (h : Word) : Prop :=
  field h 28 4 = 10 ∧ field h 24 4 = 0 ∧ field h 0 4 ≠ 0 ∧
    field h 20 4 = field h 0 4 ^^^ field h 4 4 ^^^ field h 8 4 ^^^ field h 12 4 ^^^ field h 16 4 ^^^ field h 24 4 ^^^ field h 28 4

/-- The frame of a clause trap: it names the header, and no instruction has issued (R55). -/
def clauseFrame (b : Bool) (cause : Nat) (pc : BitVec 56) (h : Word) : TrapInfo :=
  { b, cause, issued := false, pc, woff := 0, w0 := h, w1 := 0, act0 := 0, f := 0, acc := 0, spl := false, code := 0, lanes := [] }

/-- Message `m` is the `n`-th of its kind that may be handled; its node is not fenced and owes no walk, and where it is a home of a
line whose rebuild is pending, `refuses` says so; `u` is the state without the message, of which a stack that it comes to has made a
use (R459). -/
structure Handles (s : State) (n : Nat) (m : Msg) (refuses : Bool) (u : State) : Prop where
  ready : ∃ i, readyMsg s m.kind n = some (i, m) ∧ u = touchNode { s with net := s.net.eraseIdx i } m
  place : nodeFenced s m.dst = false ∧ unwalked s m.dst m.tag m.line = [] ∧ refusesNow s m = refuses

/-- An event leaves a state, of which the node of message `m` has then made room for what came (R223, R264, R268). -/
def Leaves (e : Instr) (s : State) (m : Msg) (t : State) : Prop := exec e s = .next (trimNode t m)

/-- The n-th event of a message kind. -/
def msgEvent : MsgKind → Nat → Instr
  | .getS => .getS
  | .getW => .getW
  | .getM => .getM
  | .upg => .upg
  | .fwdS => .fwdS
  | .fwdM => .fwdM
  | .drop => .drop
  | .backInv => .backInv
  | .invAck => .invAck
  | .dataC => .dataC
  | .dataD => .dataD
  | .wbW => .wbW
  | .wbL => .wbL
  | .nack => .nack
  | .writeAck => .writeAck

/-- A message without words, atomic or reason. -/
def plainMsg (kind : MsgKind) (src dst : Node) (m : Msg) : Msg :=
  { kind, src, dst, tag := m.tag, line := m.line, mask := 0, words := [], req := kind, atom := none, reason := 0, flush := false }

/-- The commands that a write of BAR0 gives (R440). -/
def HostCommand : Instr → Prop
  | .tlbCmdMap | .tlbCmdUnmap | .tlbCmdInval | .tlbCmdRetire | .preemptLaunch | .checkpoint | .releaseHeld | .exportImage
  | .importImage | .discard | .codeRegister | .codeUnload | .forcedUnload | .patch | .fwgo | .trgo | .run => True
  | .qtail .. | .en .. | .restart _ | .head .. | .vrctlGo _ | .lfence _ | .vectorUnmask _ => True
  | _ => False

/-- A place in DRAM outside the policy bytes, of which only two bits are kept (R2, R423). -/
def PlainPlace (s : State) (pa : Nat) : Prop :=
  s.service.eptb = 0 ∨ pa < regPa s.service.eptb ∨ regPa s.service.eptb + 2 ^ 16 ≤ pa

/-- A wave or task as it starts (R122, R145, R150): its registers at 0, all its lanes running at an entry, the other slot idle. -/
def FreshWave (x : Wave) (k : Kernel) (entry : BitVec 56) (arg : Word) (frame : DWord) : Prop :=
  x.width = k.width ∧ x.regs = k.regs ∧ x.alive = widthMask k.width ∧ x.g = List.replicate k.gregs 0 ∧ x.k = List.replicate 12 0 ∧
    x.gk = List.replicate 12 false ∧ x.fpmode = 0 ∧ x.arg = arg ∧ x.frame = frame ∧ x.super = false ∧ x.depth = 0 ∧ x.spilled = 0 ∧
    x.a.st = .run ∧ x.a.m = widthMask k.width ∧ x.a.pc = entry ∧ x.b = Slot.idle

/-- A row of R145: the number of a special register, its width, and what lane `l` reads there. -/
abbrev SpecialRegister := Nat × Nat × (State → Ctx → Nat → Nat)

/-- The table of R145; the team's place in the grid is R339's, a wave's place in the machine R34's. -/
def specialRegisters : List SpecialRegister :=
  let grid (c : Ctx) : Nat := if c.t.task then 0 else c.t.idx
  let cohort (c : Ctx) : Nat × Nat := match c.t.cohort with
    | some k => k
    | none => (0, 0)
  [(0x00, 32, fun _ _ l => l), (0x01, 32, fun _ c _ => if c.t.task then 0 else c.x.num), (0x02, 32, fun _ c _ => c.x.width),
    (0x08, 32, fun _ c _ => grid c % c.la.rcd.ntx), (0x09, 32, fun _ c _ => grid c / c.la.rcd.ntx % c.la.rcd.nty),
    (0x0A, 32, fun _ c _ => grid c / c.la.rcd.ntx / c.la.rcd.nty), (0x0C, 32, fun _ c _ => c.la.rcd.ntx),
    (0x0D, 32, fun _ c _ => c.la.rcd.nty), (0x0E, 32, fun _ c _ => c.la.rcd.ntz)] ++
  [(0x10, 32, fun _ c _ => (cohort c).1), (0x11, 32, fun _ c _ => (cohort c).2),
    (0x18, 32, fun _ c _ => c.w / 12 % 4), (0x19, 32, fun _ c _ => c.w / 48 % 24), (0x1A, 32, fun _ c _ => c.w / 1152 % 4),
    (0x1B, 32, fun _ c _ => c.w / 4608), (0x1C, 32, fun _ c _ => c.w / 4608 / 3)] ++
  [(0x20, 64, fun s _ _ => s.clock.toNat), (0x28, 64, fun _ c _ => c.x.alive.toNat), (0x2A, 64, fun _ c _ => c.sl.m.toNat),
    (0x30, 32, fun _ c _ => (((List.range 8).filter fun i => (c.t.toks.getD i default).op.isSome).map fun i => 2 ^ i).sum),
    (0x31, 32, fun _ c _ => if c.x.deadrd then 1 else 0), (0x32, 32, fun _ c _ => c.x.fpmode.toNat), (0x33, 32, fun _ c _ => c.sl.sig.toNat),
    (0x34, 32, fun _ c _ => c.t.mmrep.toNat), (0x35, 32, fun s c _ => (kvGet s.lsdrop (c.w / 48) 0).toNat),
    (0x38, 32, fun _ c _ => c.x.arg.toNat), (0x3A, 64, fun _ c _ => c.x.frame.toNat), (0x40, 32, fun _ c _ => c.x.regbase),
    (0x41, 32, fun _ c _ => if c.t.nData = 0 then 0x180000 else 0x8000 * c.t.dataBank)]

end Sys2Proof.Machine

open Sys2Proof Sys2Proof.Machine

/-- R131, R133: each integer and logic instruction writes its function of its sources, in every lane of `act` or in the group
register, and nothing else but what retirement changes. -/
def Obligations.IntegerResults : Prop :=
  (∀ f, Gives (.addI32 f) 0 (threeIn f fun a b _ => a + b)) ∧
  (∀ f, Gives (.subI32 f) 0 (threeIn f fun a b _ => a - b)) ∧
  (∀ f, Gives (.mulI32 f) 0 (threeIn f fun a b _ => a * b)) ∧
  (∀ f, Gives (.mulhiI32 f) 0 (threeIn f fun a b _ => BitVec.ofInt 32 (a.toInt * b.toInt / 2 ^ 32))) ∧
  (∀ f, Gives (.mulhiN32 f) 0 (threeIn f fun a b _ => BitVec.ofNat 32 (a.toNat * b.toNat / 2 ^ 32))) ∧
  (∀ f, Gives (.madI32 f) 0 (threeIn f fun a b d => d + a * b)) ∧
  (∀ f, Gives (.addsI32 f) 0 (threeIn f fun a b _ => BitVec.ofInt 32 (max (-(2 ^ 31)) (min (2 ^ 31 - 1) (a.toInt + b.toInt))))) ∧
  (∀ f, Gives (.subsI32 f) 0 (threeIn f fun a b _ => BitVec.ofInt 32 (max (-(2 ^ 31)) (min (2 ^ 31 - 1) (a.toInt - b.toInt))))) ∧
  (∀ f, Gives (.addsN32 f) 0 (threeIn f fun a b _ => BitVec.ofNat 32 (min (2 ^ 32 - 1) (a.toNat + b.toNat)))) ∧
  (∀ f, Gives (.minI32 f) 0 (threeIn f fun a b _ => BitVec.ofInt 32 (min a.toInt b.toInt))) ∧
  (∀ f, Gives (.maxI32 f) 0 (threeIn f fun a b _ => BitVec.ofInt 32 (max a.toInt b.toInt))) ∧
  (∀ f, Gives (.minN32 f) 0 (threeIn f fun a b _ => BitVec.ofNat 32 (min a.toNat b.toNat))) ∧
  (∀ f, Gives (.maxN32 f) 0 (threeIn f fun a b _ => BitVec.ofNat 32 (max a.toNat b.toNat))) ∧
  (∀ f, Gives (.absI32 f) 0 (oneIn f fun a => BitVec.ofInt 32 a.toInt.natAbs)) ∧
  (∀ f, Gives (.andL f) 0 (threeIn f fun a b _ => a &&& b)) ∧
  (∀ f, Gives (.orL f) 0 (threeIn f fun a b _ => a ||| b)) ∧
  (∀ f, Gives (.xorL f) 0 (threeIn f fun a b _ => a ^^^ b)) ∧
  (∀ f, Gives (.andn f) 0 (threeIn f fun a b _ => a &&& ~~~b)) ∧
  (∀ f, Gives (.shl f) 0 (threeIn f fun a b _ => BitVec.ofNat 32 (a.toNat * 2 ^ (b.toNat % 32)))) ∧
  (∀ f, Gives (.shrN f) 0 (threeIn f fun a b _ => BitVec.ofNat 32 (a.toNat / 2 ^ (b.toNat % 32)))) ∧
  (∀ f, Gives (.shrI f) 0 (threeIn f fun a b _ => BitVec.ofInt 32 (a.toInt / 2 ^ (b.toNat % 32)))) ∧
  (∀ f, Gives (.rotl f) 0 (threeIn f fun a b _ => a <<< (b.toNat % 32) ||| a >>> (32 - b.toNat % 32))) ∧
  (∀ f, Gives (.addi f) 0 (immIn f fun a i => a + sext 32 i)) ∧
  (∀ f, Gives (.shli f) 0 (immIn f fun a i => BitVec.ofNat 32 (a.toNat * 2 ^ i.toNat))) ∧
  (∀ f, Gives (.shriN f) 0 (immIn f fun a i => BitVec.ofNat 32 (a.toNat / 2 ^ i.toNat))) ∧
  (∀ f, Gives (.shriI f) 0 (immIn f fun a i => BitVec.ofInt 32 (a.toInt / 2 ^ i.toNat)))

/-- R132, R133, R131, R139, R141: `sel`, the bit instructions, `kmov` from a predicate and `movi` write their function of their
sources and nothing else but what retirement changes. -/
def Obligations.SelectAndBitResults : Prop :=
  (∀ f, Gives (.sel f) 0 fun c s => eachResult c f.u f.d fun l =>
    if (if f.u then groupGuard c.x f.g else (laneGuard c.x f.g).getLsbD l) then src s c f.u f.a l else src s c f.u f.b l) ∧
  (∀ f, Gives (.popc f) 0 (oneIn f fun a => BitVec.ofNat 32 ((List.range 32).countP fun i => a.getLsbD i))) ∧
  (∀ f, Gives (.clz f) 0 (oneIn f fun a => if a = 0 then 32 else BitVec.ofNat 32 (31 - Nat.log2 a.toNat))) ∧
  (∀ f, Gives (.brev f) 0 (oneIn f fun a => a.reverse)) ∧
  (∀ f, Gives (.bfxN f) 0 (threeIn f fun a b _ =>
    let len := if field b 5 5 = 0 then 32 else (field b 5 5).toNat
    BitVec.ofNat 32 (a.toNat / 2 ^ (field b 0 5).toNat % 2 ^ len))) ∧
  (∀ f, Gives (.bfxI f) 0 (threeIn f fun a b _ =>
    let len := if field b 5 5 = 0 then 32 else (field b 5 5).toNat
    BitVec.ofInt 32 ((a.toInt / 2 ^ (field b 0 5).toNat).bmod (2 ^ len)))) ∧
  (∀ f, Gives (.kmovVK f) 0 fun c _ => eachResult c f.u f.d fun l =>
    if (if f.u then groupPred c.x f.a.toNat else (predReg c.x f.a.toNat).getLsbD l) then 1 else 0) ∧
  (∀ f, Gives (.movi f) 0 fun c _ => eachResult c f.u f.d fun _ => f.imm)

/-- R143, R144: `alu64` writes the pair that its 64-bit function gives, the even register low. -/
def Obligations.WideIntegerResults : Prop :=
  (∀ f, Gives (.add64 f) 0 (pairOut f fun c s l => srcPair s c f.u f.a l + srcPair s c f.u f.b l + sext 64 f.imm)) ∧
  (∀ f, Gives (.sub64 f) 0 (pairOut f fun c s l => srcPair s c f.u f.a l - srcPair s c f.u f.b l + sext 64 f.imm)) ∧
  (∀ f, Gives (.lea f) 0 (pairOut f fun c s l => srcPair s c f.u f.a l +
    BitVec.ofInt 64 ((src s c f.u f.b l).toInt * 2 ^ f.sh.toNat) + sext 64 f.imm)) ∧
  (∀ f, Gives (.mulwI f) 0 (pairOut f fun c s l => BitVec.ofInt 64 ((src s c f.u f.a l).toInt * (src s c f.u f.b l).toInt))) ∧
  (∀ f, Gives (.mulwN f) 0 (pairOut f fun c s l => BitVec.ofNat 64 ((src s c f.u f.a l).toNat * (src s c f.u f.b l).toNat))) ∧
  (∀ f, Gives (.shl64 f) 0 (pairOut f fun c s l => BitVec.ofNat 64 ((srcPair s c f.u f.a l).toNat * 2 ^ ((src s c f.u f.b l).toNat % 64)))) ∧
  (∀ f, Gives (.shr64N f) 0 (pairOut f fun c s l => BitVec.ofNat 64 ((srcPair s c f.u f.a l).toNat / 2 ^ ((src s c f.u f.b l).toNat % 64)))) ∧
  (∀ f, Gives (.shr64I f) 0 (pairOut f fun c s l => BitVec.ofInt 64 ((srcPair s c f.u f.a l).toInt / 2 ^ ((src s c f.u f.b l).toNat % 64)))) ∧
  (∀ f, Gives (.min64N f) 0 (pairOut f fun c s l => BitVec.ofNat 64 (min (srcPair s c f.u f.a l).toNat (srcPair s c f.u f.b l).toNat))) ∧
  (∀ f, Gives (.max64N f) 0 (pairOut f fun c s l => BitVec.ofNat 64 (max (srcPair s c f.u f.a l).toNat (srcPair s c f.u f.b l).toNat)))

/-- R135, R136, R137: a comparison writes its lanes of `act` of a predicate, or the group predicate, and nothing else. -/
def Parts.ComparisonResults : Prop :=
  (∀ f, Sets (.cmpEqI32 f) (compared f fun a b => decide (a = b))) ∧
  (∀ f, Sets (.cmpNeI32 f) (compared f fun a b => decide (a ≠ b))) ∧
  (∀ f, Sets (.cmpLtI32 f) (compared f fun a b => decide (a.toInt < b.toInt))) ∧
  (∀ f, Sets (.cmpLeI32 f) (compared f fun a b => decide (a.toInt ≤ b.toInt))) ∧
  (∀ f, Sets (.cmpLtN32 f) (compared f fun a b => decide (a.toNat < b.toNat))) ∧
  (∀ f, Sets (.cmpLeN32 f) (compared f fun a b => decide (a.toNat ≤ b.toNat))) ∧
  (∀ f, Sets (.cmpiEq f) (comparedImm f fun a b => decide (a = b))) ∧
  (∀ f, Sets (.cmpiLtI32 f) (comparedImm f fun a b => decide (a.toInt < b.toInt))) ∧
  (∀ f, Sets (.cmpiLtN32 f) (comparedImm f fun a b => decide (a.toNat < b.toNat))) ∧
  (∀ f, Sets (.fcmpEqF32 f) (comparedF f fun o => o = some .eq)) ∧
  (∀ f, Sets (.fcmpLtF32 f) (comparedF f fun o => o = some .lt)) ∧
  (∀ f, Sets (.fcmpLeF32 f) (comparedF f fun o => o = some .lt ∨ o = some .eq)) ∧
  (∀ f, Sets (.fcmpUnF32 f) (comparedF f fun o => o = none))

/-- R138 to R140, R181: the predicate instructions and the votes write their predicate and nothing else. A vote with empty
`act` writes nothing. -/
def Parts.PredicateResults : Prop :=
  (∀ f, Sets (.kop f) fun c _ => predicate c f.u f.d fun l =>
    let p := if f.u then groupPred c.x f.a.toNat else (predReg c.x f.a.toNat).getLsbD l
    let q := if f.u then groupPred c.x f.p.toNat else (predReg c.x f.p.toNat).getLsbD l
    match f.f.toNat with
    | 0 => p && q
    | 1 => p || q
    | 2 => p ^^ q
    | _ => p && !q) ∧
  (∀ f, Sets (.kmovKV f) fun c s => predicate c f.u f.d fun l => decide (src s c f.u f.a l ≠ 0)) ∧
  (∀ f, Sets (.kset f) fun c s => predicate c false f.d fun l =>
    (readGroup s c.x (f.a.toNat + l / 32)).getLsbD (l % 32)) ∧
  (∀ f, Sets (.vany f) fun c _ x => if c.act = 0 then x else
    { x with gk := x.gk.set f.d.toNat (decide (∃ l ∈ c.lanes, (predReg c.x f.a.toNat).getLsbD l = true)) }) ∧
  (∀ f, Sets (.vall f) fun c _ x => if c.act = 0 then x else
    { x with gk := x.gk.set f.d.toNat (decide (∀ l ∈ c.lanes, (predReg c.x f.a.toNat).getLsbD l = true)) })

/-- R135 to R140, R181: comparisons, predicate instructions and votes. -/
def Obligations.Comparisons : Prop := Parts.ComparisonResults ∧ Parts.PredicateResults

/-- R91, R92, R94, R97, R98: what reading an encoding gives, and rounding a value into a format: a NaN the canonical one, an infinity and
a zero of its sign; any other magnitude rounded once, as RND says. -/
def Parts.FormatsRound : Prop :=
  ∀ f width frac bias inf nan, (f, width, frac, bias, inf, nan) ∈ floatFormats →
    (∀ x, x < 2 ^ width →
      let neg := decide (2 ^ (width - 1) ≤ x)
      let code : Nat := x / 2 ^ frac % 2 ^ (width - 1 - frac)
      let t : Nat := x % 2 ^ frac
      decodeF f x = if code = 2 ^ (width - 1 - frac) - 1 then (if t = 0 then .inf neg else .nan)
        else if code = 0 then .fin neg t (1 - (bias : Int) - frac) else .fin neg (2 ^ frac + t) ((code : Int) - bias - frac)) ∧
    ∀ mode, rounded f mode .nan = nan ∧
      (∀ neg, rounded f mode (.inf neg) = (if neg then 2 ^ (width - 1) else 0) + inf ∧
        ∀ e, rounded f mode (.fin neg 0 e) = if neg then 2 ^ (width - 1) else 0) ∧
      ∀ neg m (e : Int), m ≠ 0 →
        let q : Int := e + bias + frac
        RoundedBits width frac inf (mode.getLsbD 3) (rndOf (field mode 0 2)) neg
          (fun n => compare (n * 2 ^ (-q).toNat) (m * 2 ^ q.toNat)) (rounded f mode (.fin neg m e))

/-- R99, R192: `fmin` and `fmax` give one of their flushed operands, −0 below +0, and a NaN where both are NaN, or one is and NMM = 0; the
output flush follows. -/
def Parts.LeastAndGreatest : Prop :=
  ∀ larger mode a b, let fin := flushedWord (mode.getLsbD 2)
    let out := flushedWord (mode.getLsbD 3)
    let nan (w : Word) : Prop := of32 mode w = .nan
    let value (w : Word) : FVal := decodeF fmtF32 w.toNat
    (nan a ∧ nan b → minMax larger mode a b = 0x7FC00000) ∧
    (nan a ∧ ¬ nan b → minMax larger mode a b = if mode.getLsbD 4 then out (fin b) else 0x7FC00000) ∧
    (¬ nan a ∧ nan b → minMax larger mode a b = if mode.getLsbD 4 then out (fin a) else 0x7FC00000) ∧
    (¬ nan a ∧ ¬ nan b → ∃ r o, ((r = fin a ∧ o = fin b) ∨ (r = fin b ∧ o = fin a)) ∧ minMax larger mode a b = out r ∧
      (r = o ∨ cmpF (value r) (value o) = some (if larger then .gt else .lt) ∨
        (r = (if larger then 0 else 0x80000000) ∧ o = if larger then 0x80000000 else 0)))

/-- R193: scaling by a power of two: NaN gives NaN, an infinity and a zero keep themselves and their sign, any other value is rounded once. -/
def Parts.Scaling : Prop :=
  ∀ mode a (b : Word), let r := f32 mode (scaleF b.toInt (of32 mode a))
    (of32 mode a = .nan → r = 0x7FC00000) ∧ (∀ p, of32 mode a = .inf p → r = if p then 0xFF800000 else 0x7F800000) ∧
    (∀ p e, of32 mode a = .fin p 0 e → r = if p then 0x80000000 else 0) ∧
    ∀ p m e, of32 mode a = .fin p m e → m ≠ 0 →
      let q := e + b.toInt + 150
      RoundedWord mode (rndOf (field mode 0 2)) p (fun n => compare (n * 2 ^ (-q).toNat) (m * 2 ^ q.toNat)) r

/-- R196: `fround`: a NaN gives NaN, an infinity stays, and any other value, flushed, gives the integer next to it in the direction, with
its sign. -/
def Parts.RoundingToIntegral : Prop :=
  ∀ dir mode a, (of32 mode a = .nan → roundIntegral dir mode a = 0x7FC00000) ∧ (∀ p, of32 mode a = .inf p → roundIntegral dir mode a = a) ∧
    ∀ p m e, of32 mode a = .fin p m e → ∃ n k g, RoundsToInteger dir p (units32 m e) (2 ^ 149) n ∧
      decodeF fmtF32 (roundIntegral dir mode a).toNat = .fin p k g ∧ units32 k g = n * 2 ^ 149

/-- R197: the class that the raw bits of a word have. -/
def Parts.Classes : Prop :=
  ∀ a : Word, let neg : Prop := 2 ^ 31 ≤ a.toNat
    let e := a.toNat / 2 ^ 23 % 256
    let t := a.toNat % 2 ^ 23
    (e = 255 ∧ t = 0 → classBit a = if neg then 0 else 7) ∧ (e = 255 ∧ 0 < t → classBit a = if t < 2 ^ 22 then 8 else 9) ∧
    (e = 0 ∧ t = 0 → classBit a = if neg then 3 else 4) ∧ (e = 0 ∧ 0 < t → classBit a = if neg then 2 else 5) ∧
    (0 < e ∧ e < 255 → classBit a = if neg then 1 else 6)

/-- R190 to R193, R196, R197: the `f32` instructions: operands flushed as DN says, the exact value, one rounding into the format. -/
def Parts.FloatResults : Prop :=
  (∀ f, Gives (.faddF32 f) 0 (floatIn f fun m a b _ => f32 m (addF (modeRnd m) (of32 m a) (of32 m b)))) ∧
  (∀ f, Gives (.fsubF32 f) 0 (floatIn f fun m a b _ => f32 m (addF (modeRnd m) (of32 m a) (negF (of32 m b))))) ∧
  (∀ f, Gives (.fmulF32 f) 0 (floatIn f fun m a b _ => f32 m (mulF (of32 m a) (of32 m b)))) ∧
  (∀ f, Gives (.ffmaF32 f) 0 (floatIn f fun m a b d => f32 m (addF (modeRnd m)
    (if modeFms m then decodeF fmtF32 (f32 m (mulF (of32 m a) (of32 m b))).toNat else mulF (of32 m a) (of32 m b)) (of32 m d)))) ∧
  (∀ f, Gives (.fminF32 f) 0 (floatIn f fun m a b _ => minMax false m a b)) ∧
  (∀ f, Gives (.fmaxF32 f) 0 (floatIn f fun m a b _ => minMax true m a b)) ∧
  (∀ f, Gives (.fnegF32 f) 0 (oneIn f fun a => a ^^^ 0x80000000)) ∧
  (∀ f, Gives (.fabsF32 f) 0 (oneIn f fun a => a &&& 0x7FFFFFFF)) ∧
  (∀ f, Gives (.fscaleF32 f) 0 (floatIn f fun m a b _ => f32 m (scaleF b.toInt (of32 m a)))) ∧
  (∀ f, Gives (.froundF32 f) 0 fun c s => eachResult c f.u f.d fun l =>
    let m := c.x.fpmode
    roundIntegral (if f.b = 0 then modeRnd m else rndOf (BitVec.ofNat 2 (f.b.toNat - 1))) m (src s c f.u f.a l)) ∧
  (∀ f, Gives (.fclassF32 f) 0 (oneIn f fun a => BitVec.ofNat 32 (2 ^ classBit a)))

/-- R93, R101, R190, R191: packed formats, half by half, and the double format. A fused multiply-add rounds its product first under FMS. -/
def Parts.PackedAndDoubleResults : Prop :=
  let half (w : Word) (i : Nat) : Nat := w.toNat / 2 ^ (16 * i) % 2 ^ 16
  let halves (op : Nat → Nat → Nat → Nat) (a b d : Word) : Word :=
    BitVec.ofNat 32 (op (half a 0) (half b 0) (half d 0) % 2 ^ 16 + 2 ^ 16 * (op (half a 1) (half b 1) (half d 1) % 2 ^ 16))
  let add (f : Fmt) (m : BitVec 7) (a b _ : Nat) : Nat := rounded f m (addF (rndOf (field m 0 2)) (operand f m a) (operand f m b))
  let mul (f : Fmt) (m : BitVec 7) (a b _ : Nat) : Nat := rounded f m (mulF (operand f m a) (operand f m b))
  let fma (f : Fmt) (m : BitVec 7) (a b d : Nat) : Nat := rounded f m (addF (rndOf (field m 0 2))
    (if m.getLsbD 6 then decodeF f (mul f m a b d) else mulF (operand f m a) (operand f m b)) (operand f m d))
  (∀ f, Gives (.faddF16x2 f) 0 (floatIn f fun m => halves (add fmtF16 m))) ∧
  (∀ f, Gives (.fmulF16x2 f) 0 (floatIn f fun m => halves (mul fmtF16 m))) ∧
  (∀ f, Gives (.ffmaF16x2 f) 0 (floatIn f fun m => halves (fma fmtF16 m))) ∧
  (∀ f, Gives (.ffmaBf16x2 f) 0 (floatIn f fun m => halves (fma fmtBf16 m))) ∧
  (∀ f, Gives (.faddF64 f) 0 (doubleOut f fun m => add fmtF64 m)) ∧
  (∀ f, Gives (.fmulF64 f) 0 (doubleOut f fun m => mul fmtF64 m)) ∧
  (∀ f, Gives (.ffmaF64 f) 0 (doubleOut f fun m => fma fmtF64 m))

/-- R91 to R99, R101, R190 to R193, R196, R197: arithmetic in `f32`, in the packed formats and in `f64`. -/
def Obligations.FloatFormats : Prop :=
  Parts.FormatsRound ∧ Parts.FloatResults ∧ Parts.LeastAndGreatest ∧ Parts.Scaling ∧ Parts.RoundingToIntegral ∧ Parts.Classes ∧
    Parts.PackedAndDoubleResults

/-- R100, R194: converting to an integer: a NaN gives 0, or with NCV the pattern, an infinity and what lies outside saturate, and a finite
value is rounded as RND says. -/
def Parts.IntegersOfFloats : Prop :=
  ∀ lo hi : Int, (lo = -(2 ^ 31) ∧ hi = 2 ^ 31 - 1) ∨ (lo = 0 ∧ hi = 2 ^ 32 - 1) → ∀ mode a,
    (of32 mode a = .nan → toIntWord lo hi mode a = if mode.getLsbD 5 then 0x80000000 else 0) ∧
    (∀ p, of32 mode a = .inf p → toIntWord lo hi mode a = BitVec.ofInt 32 (if p then lo else hi)) ∧
    ∀ p m e, of32 mode a = .fin p m e → ∃ n : Nat, RoundsToInteger (rndOf (field mode 0 2)) p (units32 m e) (2 ^ 149) n ∧
      toIntWord lo hi mode a = BitVec.ofInt 32 (max lo (min hi (if p then -(n : Int) else n)))

/-- R195: `unpk` widens a half exactly, after the input flush; a NaN gives NaN, and the output flush acts on a subnormal result. -/
def Parts.HalvesWiden : Prop :=
  ∀ f, f = fmtF16 ∨ f = fmtBf16 → ∀ mode (a : Word) h, h = 0 ∨ h = 1 →
    let v := operand f mode (a.toNat / 2 ^ (16 * h) % 2 ^ 16)
    let r := unpackHalf f mode a (BitVec.ofNat 7 h)
    (v = .nan → r = 0x7FC00000) ∧ (∀ p, v = .inf p → r = if p then 0xFF800000 else 0x7F800000) ∧
    ∀ p m e, v = .fin p m e → ∃ k g, decodeF fmtF32 r.toNat = .fin p k g ∧
      units32 k g = if mode.getLsbD 3 = true ∧ units32 m e < 2 ^ 23 then 0 else units32 m e

/-- R194, R195, R198, R199: the conversions and the quantisation instructions. -/
def Parts.Conversions : Prop :=
  (∀ f, Gives (.cvtF32I32 f) 0 fun c s => oneIn f (fun a => f32 c.x.fpmode (.fin (decide (a.toInt < 0)) a.toInt.natAbs 0)) c s) ∧
  (∀ f, Gives (.cvtF32N32 f) 0 fun c s => oneIn f (fun a => f32 c.x.fpmode (.fin false a.toNat 0)) c s) ∧
  (∀ f, Gives (.cvtI32F32 f) 0 fun c s => oneIn f (toIntWord (-(2 ^ 31)) (2 ^ 31 - 1) c.x.fpmode) c s) ∧
  (∀ f, Gives (.cvtN32F32 f) 0 fun c s => oneIn f (toIntWord 0 (2 ^ 32 - 1) c.x.fpmode) c s) ∧
  (∀ f, Gives (.packF16x2 f) 0 (floatIn f fun m a b _ =>
    BitVec.ofNat 16 (rounded fmtF16 m (of32 m b)) ++ BitVec.ofNat 16 (rounded fmtF16 m (of32 m a)))) ∧
  (∀ f, Gives (.packBf16x2 f) 0 (floatIn f fun m a b _ =>
    BitVec.ofNat 16 (rounded fmtBf16 m (of32 m b)) ++ BitVec.ofNat 16 (rounded fmtBf16 m (of32 m a)))) ∧
  (∀ f, Gives (.unpkF16 f) 0 fun c s => immIn f (unpackHalf fmtF16 c.x.fpmode) c s) ∧
  (∀ f, Gives (.unpkBf16 f) 0 fun c s => immIn f (unpackHalf fmtBf16 c.x.fpmode) c s) ∧
  (∀ f, Gives (.cvtF64F32 f) 0 fun c s => eachWide c f.u f.d 2 fun l => rounded fmtF64 c.x.fpmode (of32 c.x.fpmode (src s c f.u f.a l))) ∧
  (∀ f, Gives (.cvtF32F64 f) 0 fun c s => eachResult c f.u f.d fun l =>
    f32 c.x.fpmode (operand fmtF64 c.x.fpmode (srcPair s c f.u f.a l).toNat)) ∧
  (∀ f, Gives (.npq f) 0 (threeIn f fun a b _ =>
    BitVec.ofInt 32 (toInteger .rne (-127) 127 0 (scaleF (-b.toInt) (decodeF fmtF32 a.toNat))))) ∧
  (∀ f, Gives (.npdq f) 0 (floatIn f fun m a b _ =>
    let k := (field a 0 8).toInt
    f32 m (scaleF b.toInt (.fin (decide (k < 0)) k.natAbs 0))))

/-- R100, R194, R195, R198, R199: the conversions and the quantisation instructions, and the values of those to integers and of halves. -/
def Obligations.ConversionResults : Prop := Parts.Conversions ∧ Parts.IntegersOfFloats ∧ Parts.HalvesWiden

/-- R200, R201: each transcendental instruction gives its function of its sources under the lookahead of its LA field. -/
def Parts.FtrResults : Prop :=
  (∀ f, Gives (.frcp f) f.la.toNat (ftrIn f 0)) ∧ (∀ f, Gives (.frsq f) f.la.toNat (ftrIn f 1)) ∧
  (∀ f, Gives (.fsqrt f) f.la.toNat (ftrIn f 2)) ∧ (∀ f, Gives (.fdiv f) f.la.toNat (ftrIn f 3)) ∧
  (∀ f, Gives (.fexp2 f) f.la.toNat (ftrIn f 4)) ∧ (∀ f, Gives (.flog2 f) f.la.toNat (ftrIn f 5)) ∧
  (∀ f, Gives (.fsinpi f) f.la.toNat (ftrIn f 6)) ∧ (∀ f, Gives (.fcospi f) f.la.toNat (ftrIn f 7)) ∧
  (∀ f, Gives (.ftanh f) f.la.toNat (ftrIn f 8))

/-- R203, R204: special operands, after the input flush: the table of the functions of one operand, by its columns −∞, −0, +0, +∞,
NaN and finite negatives of which there is no real value, and the cases of `fdiv`. -/
def Parts.FtrSpecials : Prop :=
  let pz : Word := 0
  let nz : Word := 0x80000000
  let pi : Word := 0x7F800000
  let ni : Word := 0xFF800000
  let nan : Word := 0x7FC00000
  let one : Word := 0x3F800000
  (∀ row ∈ ([(0, nz, ni, pi, pz), (1, nan, ni, pi, pz), (2, nan, nz, pz, pi), (4, pz, one, one, pi), (5, nan, ni, ni, pi),
      (6, nan, nz, pz, nan), (7, nan, one, one, nan), (8, 0xBF800000, nz, pz, one)] : List (Nat × Word × Word × Word × Word)),
    ∀ mode a, (of32 mode a = .inf true → ftrWord row.1 mode a 0 = row.2.1) ∧
      (∀ e, of32 mode a = .fin true 0 e → ftrWord row.1 mode a 0 = row.2.2.1) ∧
      (∀ e, of32 mode a = .fin false 0 e → ftrWord row.1 mode a 0 = row.2.2.2.1) ∧
      (of32 mode a = .inf false → ftrWord row.1 mode a 0 = row.2.2.2.2) ∧ (of32 mode a = .nan → ftrWord row.1 mode a 0 = nan)) ∧
  (∀ mode a sub m e, sub = 1 ∨ sub = 2 ∨ sub = 5 → of32 mode a = .fin true m e → m ≠ 0 → ftrWord sub mode a 0 = nan) ∧
  (∀ mode a b, of32 mode a = .nan ∨ of32 mode b = .nan → ftrWord 3 mode a b = nan) ∧
  (∀ mode a b p q, of32 mode a = .inf p → of32 mode b = .inf q → ftrWord 3 mode a b = nan) ∧
  (∀ mode a b p m e q n k, of32 mode a = .fin p m e → of32 mode b = .fin q n k → n = 0 →
    ftrWord 3 mode a b = if m = 0 then nan else if p = q then pi else ni) ∧
  (∀ mode a b p m e q, of32 mode a = .fin p m e → of32 mode b = .inf q → ftrWord 3 mode a b = if p = q then pz else nz) ∧
  (∀ mode a b p q n k, of32 mode a = .inf p → of32 mode b = .fin q n k → n ≠ 0 → ftrWord 3 mode a b = if p = q then pi else ni) ∧
  (∀ mode a b p m e q n k, of32 mode a = .fin p m e → m = 0 → of32 mode b = .fin q n k → n ≠ 0 →
    ftrWord 3 mode a b = if p = q then pz else nz)

/-- R201: the results at finite operands that are not 0 of the algebraic functions: the exact reciprocal, root and quotient rounded
once, by RND, and the reciprocal root by RNE whatever RND holds. -/
def Parts.FtrRounded : Prop :=
  (∀ mode a p m e, of32 mode a = .fin p m e → m ≠ 0 → RoundedWord mode (rndOf (field mode 0 2)) p
    (fun n => compare (n * units32 m e) (2 ^ 299)) (ftrWord 0 mode a 0)) ∧
  (∀ mode a m e, of32 mode a = .fin false m e → m ≠ 0 → RoundedWord mode .rne false
    (fun n => compare (n * n * units32 m e) (2 ^ 449)) (ftrWord 1 mode a 0)) ∧
  (∀ mode a m e, of32 mode a = .fin false m e → m ≠ 0 → RoundedWord mode (rndOf (field mode 0 2)) false
    (fun n => compare (n * n) (2 ^ 151 * units32 m e)) (ftrWord 2 mode a 0)) ∧
  (∀ mode a b p m e q n k, of32 mode a = .fin p m e → of32 mode b = .fin q n k → m ≠ 0 → n ≠ 0 →
    RoundedWord mode (rndOf (field mode 0 2)) (p != q)
      (fun i => compare (i * units32 n k) (2 ^ 150 * units32 m e)) (ftrWord 3 mode a b))

/-- R201, R202: the other functions: their exact cases; the signs of odd and even ones; no dependence on RND; and, at operands of which
the result was computed from the exact value to 40 places, that result. -/
def Parts.FtrFaithful : Prop :=
  (∀ mode a p m e n, of32 mode a = .fin p m e → units32 m e = n * 2 ^ 149 → n ≤ 127 → (p = false ∨ n ≤ 126) →
    ftrWord 4 mode a 0 = BitVec.ofNat 32 ((if p then 127 - n else 127 + n) * 2 ^ 23)) ∧
  (∀ mode a m e j, of32 mode a = .fin false m e → units32 m e = 2 ^ j →
    ftrWord 5 mode a 0 = BitVec.ofNat 32 (encodeF fmtF32 .rne false (.fin (decide (j < 149)) (max j 149 - min j 149) 0))) ∧
  (∀ mode a p m e n, of32 mode a = .fin p m e →
    (units32 m e = n * 2 ^ 149 → ftrWord 6 mode a 0 = (if p then 0x80000000 else 0) ∧
      ftrWord 7 mode a 0 = if n % 2 = 0 then 0x3F800000 else 0xBF800000) ∧
    (units32 m e = (2 * n + 1) * 2 ^ 148 → ftrWord 6 mode a 0 = (if n % 2 = 0 ↔ p = false then 0x3F800000 else 0xBF800000) ∧
      ftrWord 7 mode a 0 = 0)) ∧
  (∀ mode a p m e, of32 mode a = .fin p m e → 2 ^ 155 ≤ units32 m e → ftrWord 8 mode a 0 = if p then 0xBF800000 else 0x3F800000) ∧
  (∀ mode a, of32 mode a ≠ .nan → (∀ p, of32 mode a ≠ .inf p) → (∀ sub, sub = 6 ∨ sub = 8 → ftrWord sub mode (a ^^^ 0x80000000) 0 = ftrWord sub mode a 0 ^^^ 0x80000000) ∧
    ftrWord 7 mode (a ^^^ 0x80000000) 0 = ftrWord 7 mode a 0) ∧
  (∀ mode mode' a sub, sub = 1 ∨ (4 ≤ sub ∧ sub ≤ 8) → field mode 2 2 = field mode' 2 2 → ftrWord sub mode a 0 = ftrWord sub mode' a 0) ∧
  ∀ e ∈ ([(4, 0x3F000000, 0x3FB504F3), (4, 0xBE800000, 0x3F5744FD), (4, 0x40533333, 0x411D9624), (5, 0x40400000, 0x3FCAE00D),
      (5, 0x3DCCCCCD, 0xC0549A78), (6, 0x3E800000, 0x3F3504F3), (6, 0xBFA66666, 0x3F4F1BBB), (7, 0x3EAAAAAB, 0x3EFFFFFF),
      (7, 0x3F400000, 0xBF3504F3), (8, 0x3F800000, 0x3F42F7D6), (8, 0xBA83126F, 0xBA83126C)] : List (Nat × Word × Word)),
    ftrWord e.1 0 e.2.1 0 = e.2.2

/-- R200 to R204: each transcendental instruction gives its function of its sources under the lookahead of its LA field; the values of
those functions at special operands, the rounding of the algebraic ones, and the exact and sampled cases of the others. -/
def Obligations.TranscendentalResults : Prop := Parts.FtrResults ∧ Parts.FtrSpecials ∧ Parts.FtrRounded ∧ Parts.FtrFaithful

/-- R177, R178, R180: the shuffles. A lane reads A in the lane that it names, 0 where that lane is not alive, which sets `%deadrd`;
`shfld` beyond the wave keeps the lane's own value. -/
def Parts.ShuffleResults : Prop :=
  (∀ f s c, Issues (.shfl f) s c → (∀ n, markedA s c f.a n = false) →
    let from' (l : Nat) := (srcLane s c f.b l).toNat % c.x.width
    Completes (.shfl f) s c (deadNoted s c (c.lanes.map from'), 0, c.lanes.map fun l => .lane f.d.toNat l (aliveLane s c f.a (from' l)))) ∧
  (∀ f s c, Issues (.shflx f) s c → (∀ n, markedA s c f.a n = false) →
    let from' (l : Nat) := l ^^^ f.i.toNat
    Completes (.shflx f) s c (deadNoted s c (c.lanes.map from'), 0, c.lanes.map fun l => .lane f.d.toNat l (aliveLane s c f.a (from' l)))) ∧
  (∀ f s c, Issues (.shfld f) s c → (∀ n, markedA s c f.a n = false) →
    let from' (l : Nat) : Int := l + f.i.toInt
    let inside (l : Nat) : Bool := decide (0 ≤ from' l ∧ from' l < c.x.width)
    Completes (.shfld f) s c (deadNoted s c ((c.lanes.filter inside).map fun l => (from' l).toNat), 0, c.lanes.map fun l =>
      .lane f.d.toNat l (if inside l then aliveLane s c f.a (from' l).toNat else srcLane s c f.a l)))

/-- R182 to R186: `ballot`, `rdlane`, `rdx`, `plane` and `unplane`; with empty `act` they write nothing. -/
def Parts.CrossLaneResults : Prop :=
  (∀ f, Gives (.ballot f) 0 fun c _ => if c.act = 0 then [] else
    [.group f.d.toNat (loWord (c.act &&& predReg c.x f.a.toNat)), .group (f.d.toNat + 1) (hiWord (c.act &&& predReg c.x f.a.toNat))]) ∧
  (∀ f s c, Issues (.rdlane f) s c → markedA s c f.a f.i.toNat = false →
    Completes (.rdlane f) s c (if c.act = 0 then s else deadNoted s c [f.i.toNat], 0,
      if c.act = 0 then [] else [.group f.d.toNat (aliveLane s c f.a f.i.toNat)])) ∧
  (∀ f, Gives (.rdx f) 0 fun c s => if c.act = 0 then [] else
    let xs := c.lanes.map fun l => srcLane s c f.a l
    let pick (p : Word → Word → Bool) := xs.tail.foldl (fun a b => if p a b then a else b) (xs.headD 0)
    [.group f.d.toNat (match f.i.toNat with
      | 0 => BitVec.ofNat 32 (xs.map BitVec.toNat).sum
      | 1 => pick fun a b => decide (a.toInt < b.toInt)
      | 2 => pick fun a b => decide (b.toInt ≤ a.toInt)
      | 3 => pick fun a b => decide (a.toNat < b.toNat)
      | 4 => pick fun a b => decide (b.toNat ≤ a.toNat)
      | 5 => xs.foldl (· &&& ·) (BitVec.allOnes 32)
      | 6 => xs.foldl (· ||| ·) 0
      | _ => rdxFloat c.x.fpmode c.x.width c.act fun l => srcLane s c f.a l)]) ∧
  (∀ f s c, Issues (.plane f) s c → (∀ n, markedA s c f.a n = false) → ∃ w : Nat → Word,
    Completes (.plane f) s c (s, 0, c.lanes.map fun l => .lane f.d.toNat l (w l)) ∧
    ∀ l i, i < 32 → (w l).getLsbD i =
      (c.act.getLsbD (32 * (l / 32) + i) && (srcLane s c f.a (32 * (l / 32) + i)).getLsbD f.i.toNat)) ∧
  (∀ f s c, Issues (.unplane f) s c → ∃ w : Nat → Word,
    Completes (.unplane f) s c (s, 0, c.lanes.map fun l => .lane f.d.toNat l (w l)) ∧
    ∀ l i, i < 32 → (w l).getLsbD i = if i = f.i.toNat then (srcLane s c f.a l).getLsbD (l % 32) else (srcDest s c false f.d l).getLsbD i)

/-- R119, R184: the float sum of `rdx` is that of a balanced tree over the lanes, −0 for those not in `act`, each node rounded RNE; the
flushes of DN act on the lanes' values and on the result. -/
def Parts.FloatTree : Prop :=
  ∀ mode levels (act : LaneMask) (v : Nat → Word), levels ≤ 6 → ∃ x : Nat → Nat → Word,
    (∀ l, x 0 l = if act.getLsbD l then flushedWord (mode.getLsbD 2) (v l) else 0x80000000) ∧
    (∀ j m, x (j + 1) m = BitVec.ofNat 32 (encodeF fmtF32 .rne false
      (addF .rne (decodeF fmtF32 (x j (2 * m)).toNat) (decodeF fmtF32 (x j (2 * m + 1)).toNat)))) ∧
    rdxFloat mode (2 ^ levels) act v = flushedWord (mode.getLsbD 3) (x levels 0)

/-- R119, R177 to R186: the instructions that read across lanes. -/
def Obligations.CrossLanes : Prop := Parts.ShuffleResults ∧ Parts.CrossLaneResults ∧ Parts.FloatTree

/-- R34, R145, R147, R148, R205: `sreg` reads a special register of the table of R145, the one of its number, into a pair where that has
64 bits; `sset` writes `%deadrd` or `%sig` once for
the wave from the lowest lane of `act`; the `fpmode` instructions write `%fpmode` once. None acts with empty `act`. -/
def Obligations.ModeAndSpecialRegisters : Prop :=
  (∀ f n width value, (n, width, value) ∈ specialRegisters → f.idx.toNat = n →
    Gives (.sreg f) 0 fun c s => eachWide c f.u f.d (width / 32) (value s c)) ∧
  (∀ f s c, Issues (.sreg f) s c → ∃ r ∈ specialRegisters, r.1 = f.idx.toNat) ∧
  (∀ f s c, Issues (.sset f) s c → c.formLanes f.u = [] → Completes (.sset f) s c (s, 0, [])) ∧
  (∀ f s c l, Issues (.sset f) s c → (c.formLanes f.u).head? = some l → f.idx = 0x31 →
    Completes (.sset f) s c (onWave s c.w fun x => { x with deadrd := (src s c f.u f.a l).getLsbD 0 }, 0, [])) ∧
  (∀ f s c l, Issues (.sset f) s c → (c.formLanes f.u).head? = some l → f.idx = 0x33 →
    Completes (.sset f) s c (onSlot s c.r fun sl => { sl with sig := src s c f.u f.a l }, 0, [])) ∧
  (∀ f, Sets (.fpmodeSet f) fun c _ x => if c.act = 0 then x else { x with fpmode := f.v }) ∧
  (∀ f, Sets (.fpmodeLd f) fun c s x => if c.act = 0 then x else { x with fpmode := field (readGroup s c.x f.a.toNat) 0 7 }) ∧
  (∀ f, Sets (.fpmodeUpd f) fun c _ x => if c.act = 0 then x else { x with fpmode := (x.fpmode &&& ~~~f.m) ||| (f.v &&& f.m) })

/-- R154: a transfer that no lane takes goes on at the next clause header and changes nothing else. -/
def Parts.TransfersNotTaken : Prop :=
  ∀ i s c target link, Issues i s c → Jump i s c 0 target link → Completes i s c (s, 0, [])

/-- R154, R155: a transfer that every live lane of the slot takes moves the slot to the target; a call writes its link. -/
def Parts.TransfersTaken : Prop :=
  ∀ i s c t target link, Issues i s c → Jump i s c t target link → t ≠ 0 → (c.sl.m &&& c.x.alive) &&& ~~~t = 0 →
    Places i s c s link (fun sl => slotMoved c s.serial s.clock sl.m target sl)

/-- R154: a transfer that some lanes take forks: the others stay and go on at the next clause header; the takers run in the other
slot when it is idle, else they are pushed as a FORK entry. Both keep the pending join. A push that must wait, stops the transfer. One
that fails, with no spill room left or its spill refused, traps with cause 5 and ACC 4 (R165, R382, R383, R385); that no room has the
code 60 in v50 is read from R382 (log entry 69). -/
def Parts.TransfersFork : Prop :=
  ∀ i s c t target link, Issues i s c → Jump i s c t target link → t ≠ 0 → (c.sl.m &&& c.x.alive) &&& ~~~t ≠ 0 →
    let n := (c.sl.m &&& c.x.alive) &&& ~~~t
    let forked (s' : State) := Places i s c s' link (fun sl => slotMoved c s'.serial s'.clock n c.next sl)
    let e : Entry := ⟨.fork, t, target, c.sl.j⟩
    ((slotOf c.x (other c.r.b)).st = .idle →
      forked (onSlot s ⟨c.w, other c.r.b⟩ fun y =>
        { Slot.idle with st := .run, m := t, pc := target, j := c.sl.j, last := y.last })) ∧
    ((slotOf c.x (other c.r.b)).st ≠ .idle → (∀ s', pushEntry s c.w c.tag e = .ok s' → forked s') ∧
      (∀ s', pushEntry s c.w c.tag e = .busy s' → exec i s = .next s') ∧
      (pushEntry s c.w c.tag e = .limit ∨ pushEntry s c.w c.tag e = .full →
        Traps i s c (spreadFail c ⟨5, 0, 4, true, 0, [(64, 0, 60)]⟩)) ∧
      ∀ va kind s', pushEntry s c.w c.tag e = .fault va kind s' →
        exec i s = .next (takeTrap s' c.w (trapInfo c (spreadFail c ⟨5, 0, 4, false, 0, [(64, va, v50Word kind va)]⟩))))

/-- R154, R155: a transfer that no lane, every lane, or some lanes of the slot take. -/
def Obligations.Transfers : Prop := Parts.TransfersNotTaken ∧ Parts.TransfersTaken ∧ Parts.TransfersFork

/-- R156: a `call`, `ret` or `jmpi` that some lane takes and whose pair is none of the wave's is an illegal encoding; `ret` and `jmpi`
check their target: not canonical, then misaligned. The access code of the first, that of a fetch, is the model's choice (log entry
133). -/
def Parts.RegisterTargetsTrap : Prop :=
  (∀ i s c n, Issues i s c → (∃ f, i = .call f ∧ n = 62) ∨ (∃ f, i = .ret f ∧ n = 62) ∨ (∃ f, i = .jmpi f ∧ n = f.a.toNat) →
    c.act &&& c.sl.m ≠ 0 → n % 2 = 1 ∨ pairBad c n = true → Traps i s c (plainFail 1)) ∧
  ∀ i s c n v, Issues i s c → ((∃ f, i = .ret f ∧ n = 62) ∨ ∃ f, i = .jmpi f ∧ n = f.a.toNat) → v = readGroupPair s c.x n →
    c.act &&& c.sl.m ≠ 0 → pairBad c n = false →
    (2 ^ 56 ≤ v.toNat → ∃ lanes, Traps i s c ⟨5, c.act, 3, false, 0, lanes⟩ ∧ lanes.map (fun e => (e.1, e.2.1)) = c.lanes.map fun l => (l, v.toNat)) ∧
    (v.toNat < 2 ^ 56 → v.toNat % 4 ≠ 0 → Traps i s c ⟨7, c.act, 0, false, 0, c.lanes.map fun l => (l, v.toNat, 0)⟩)

/-- R163, R164, R384: a push onto the fork stack. On chip an entry takes the 32 bytes above those it has; a supervisor's stack holds
four; with 16 on chip and no spill area left the push fails. -/
def Parts.PushesOnChip : Prop :=
  (∀ s w tag e x, findWave s w = some x → x.super = false → x.depth < 16 → memWf s.lstore = true → ∃ t, pushEntry s w tag e = .ok t ∧
    t = { s with waves := t.waves, lstore := t.lstore, regPoison := t.regPoison } ∧
    findWave t w = some { x with depth := x.depth + 1 } ∧ (∀ v, v ≠ w → findWave t v = findWave s v) ∧
    readEntry t w { x with depth := x.depth + 1 } x.depth = (some e, e.m) ∧
    ∀ k, ¬ (lsKey (clusterOf w) (entryAddr x x.depth) ≤ k ∧ k < lsKey (clusterOf w) (entryAddr x x.depth) + 32) →
      memRead t.lstore k = memRead s.lstore k) ∧
  (∀ s w tag e x, findWave s w = some x → x.super = true → x.svStack.length < 4 →
    ∃ t, pushEntry s w tag e = .ok t ∧ WaveSet s w { x with svStack := e :: x.svStack } t) ∧
  (∀ s w tag e x, findWave s w = some x → x.super = true → 4 ≤ x.svStack.length → pushEntry s w tag e = .full) ∧
  (∀ s w tag e x, findWave s w = some x → x.super = false → 16 ≤ x.depth → x.spillL < (x.spilled + 1) * 8 → pushEntry s w tag e = .limit)

/-- R157: `setj` records the join point, the live lanes of the slot expected; the old one is saved on the fork stack. A push that fails
traps as that of a fork does (R165, R382, R383; log entry 69). -/
def Parts.SetjRecords : Prop :=
  ∀ f s c, Issues (.setj f) s c →
    let h := c.header + sext 56 f.off * 4
    let saved : Entry := ⟨.saved, c.sl.m, h, c.sl.j⟩
    let set (sv : Bool) (s' : State) := Completes (.setj f) s c (onSlot s' c.r fun sl => { sl with j := ⟨h, c.sl.m, sv, true⟩ }, 0, [])
    (c.act = 0 → Completes (.setj f) s c (s, 0, [])) ∧
    (c.act ≠ 0 → c.sl.j.jv = false → set false s) ∧
    (c.act ≠ 0 → c.sl.j.jv = true → (∀ s', pushEntry s c.w c.tag saved = .ok s' → set true s') ∧
      (∀ s', pushEntry s c.w c.tag saved = .busy s' → exec (.setj f) s = .next s') ∧
      (pushEntry s c.w c.tag saved = .limit ∨ pushEntry s c.w c.tag saved = .full →
        Traps (.setj f) s c (spreadFail c ⟨5, 0, 4, true, 0, [(64, 0, 60)]⟩)) ∧
      ∀ va kind s', pushEntry s c.w c.tag saved = .fault va kind s' →
        exec (.setj f) s = .next (takeTrap s' c.w (trapInfo c (spreadFail c ⟨5, 0, 4, false, 0, [(64, va, v50Word kind va)]⟩))))

/-- R164, R165: a push with 16 entries on chip and room in the spill area moves the oldest eight, with their poison marks, into the next
block of the area, stored by the cluster's L1 as the wave's own store would be; the other eight move down, and the new one is above
them. -/
def Parts.PushesSpill : Prop :=
  ∀ s w tag e x s₁, findWave s w = some x → x.super = false → x.depth = 16 → (x.spilled + 1) * 8 ≤ x.spillL → memWf s.lstore = true →
    let base := x.spillBase + 256 * x.spilled
    let cl := clusterOf w
    let y := { x with depth := 9, spilled := x.spilled + 1 }
    canonical base = true → base % 256 = 0 → shooting s tag.asid base = false → reach s (forkAsker w tag) .store [base] = .ok s₁ →
    ∃ t, pushEntry s w tag e = .ok t ∧
      t = { s₁ with
        waves := t.waves, lstore := t.lstore, regPoison := t.regPoison, caches := t.caches, dirs := t.dirs, net := t.net
        nacked := t.nacked, txns := t.txns, l1ways := t.l1ways, ntLines := t.ntLines } ∧
      findWave t w = some y ∧ (∀ v, v ≠ w → findWave t v = findWave s v) ∧
      (∀ i < 8, readEntry t w y i = readEntry s w x (i + 8)) ∧ readEntry t w y 8 = (some e, e.m) ∧
      (∀ k, ¬ (lsKey cl (entryAddr x 0) ≤ k ∧ k < lsKey cl (entryAddr x 0) + 288) → memRead t.lstore k = memRead s.lstore k) ∧
      ∀ i < 64, l1Ways s₁ cl ≠ 0 → homeLost s₁ tag (128 * lineOf (base + 4 * i)) .store = false →
        ∃ v, cwAt t (.l1 cl) tag (base + 4 * i) = some v ∧ v.dirty = true ∧ v.owned = true ∧
          v.val = localWord s cl (entryAddr x 0 + 4 * i) ∧ v.poison = regWordPoison s cl (entryAddr x 0 + 4 * i)

/-- R157, R163 to R165, R384: pushes onto the fork stack, on chip and spilling, and `setj`. -/
def Obligations.ForkStack : Prop := Parts.PushesOnChip ∧ Parts.PushesSpill ∧ Parts.SetjRecords

/-- R158, R70, R127: a `join` with empty `act` has no effect; one without a pending join, or with another one, ends the counts and
holds of its slot and has no other. -/
def Parts.JoinPasses : Prop :=
  ∀ f s c, Issues (.join f) s c → (c.act = 0 → Completes (.join f) s c (s, 0, [])) ∧
    (c.act ≠ 0 → c.sl.j.jv = false ∨ c.sl.j.h ≠ c.header → Completes (.join f) s c (endCounts s c.r, 0, []))

/-- R158, R172, R173: a `join` that arrives takes in the other slot's piece, where that waits at the same join, and the pieces parked on
top of the fork stack. With every expected live lane it resumes after itself: without a pending join, or, where `setj` saved one, with
that, popped from the stack. Where the launch keeps signatures, its own is 0 when the pieces are disjoint and expected. -/
def Parts.JoinResumes : Prop :=
  ∀ f s c x y, Arrives f s c → findWave (endCounts s c.r) c.w = some x →
    Merged (endCounts s c.r) c.w c.r.b (otherMerged x c.r.b) y →
    let sl := slotOf y c.r.b
    let whole := sl.m &&& ~~~c.sl.j.e = 0 ∧ (y.super, c.sl.j) ∉ y.broken
    let gone (z : Wave) (j : Join) := withSlot { z with broken := z.broken.filter fun e => e ≠ (z.super, c.sl.j) } c.r.b
      { sl with st := .run, j, sig := if c.la.ker.sig = false then sl.sig else if whole then 0 else foldSig 0 0x9E3779B9 }
    (c.sl.j.e &&& y.alive) &&& ~~~sl.m = 0 →
    (c.sl.j.sv = false → ∃ t, WaveSet (endCounts s c.r) c.w (gone y Join.clear) t ∧ Completes (.join f) s c (t, 0, [])) ∧
    (∀ outer, c.sl.j.sv = true → topEntry (endCounts s c.r) c.w y = some (some ⟨.saved, c.sl.j.e, c.sl.j.h, outer⟩, c.sl.j.e) →
      ∃ t, WaveSet (endCounts s c.r) c.w (gone (popEntry y) outer) t ∧ Completes (.join f) s c (t, 0, []))

/-- R158: a `join` that arrives with lanes outstanding, or whose saved join is not on top, swaps with a FORK on top: its piece is
parked in the entry's place and the fork runs. Without a FORK there it waits. What it merged, it keeps. -/
def Parts.JoinWaits : Prop :=
  ∀ f s c x y, Arrives f s c → findWave (endCounts s c.r) c.w = some x →
    Merged (endCounts s c.r) c.w c.r.b (otherMerged x c.r.b) y →
    let sl := slotOf y c.r.b
    let top := topEntry (endCounts s c.r) c.w y
    let parked : Entry := ⟨.parked, sl.m, c.sl.j.h, c.sl.j⟩
    let forked (e : Entry) (_ : Slot) : Slot :=
      slotNoted c s.serial s.clock { Slot.idle with st := .run, m := e.m &&& y.alive, pc := e.pc, j := e.j }
    (c.sl.j.e &&& y.alive) &&& ~~~sl.m ≠ 0 ∨
      (c.sl.j.sv = true ∧ ∀ e, top = some (some e, e.m) → ¬ (e.kind = .saved ∧ e.pc = c.sl.j.h ∧ e.m = c.sl.j.e)) →
    ((∀ e, top = some (some e, e.m) → e.kind ≠ .fork) →
      Places (.join f) s c (putWave s c.w y) [] (fun sl => slotNoted c s.serial s.clock { sl with st := .wait })) ∧
    (∀ e, top = some (some e, e.m) → e.kind = .fork → y.super = true →
      Places (.join f) s c (putWave s c.w { y with svStack := parked :: y.svStack.tail }) [] (forked e)) ∧
    (∀ e, top = some (some e, e.m) → e.kind = .fork → y.super = false →
      Places (.join f) s c (putWords (putWave s c.w y) c.cl (entryAddr y (y.depth - 1)) (entryWords parked)) [] (forked e))

/-- R158, R172: the outcomes of a `join`. -/
def Obligations.Joins : Prop := Parts.JoinPasses ∧ Parts.JoinResumes ∧ Parts.JoinWaits

/-- R79, R77, R387: an instruction with an unimplemented-opcode case traps with cause 2, opcode 0x7F always; one with none of these
and an illegal-encoding case traps with cause 1. No instruction with either has any other effect. -/
def Parts.EncodingTraps : Prop :=
  ∀ i s c, isInstruction i = true → ctxOf i s = some c →
    (unimplBad i = true ∨ dynUnimpl i c.x = true → Traps i s c (plainFail 2)) ∧
    (unimplBad i = false → dynUnimpl i c.x = false → illegalBad i = true ∨ dynIllegal i c.x c.t c.la = true → Traps i s c (plainFail 1)) ∧
    (∀ lo w1, i = .opcode7F lo w1 → Traps i s c (plainFail 2))

/-- R128: an instruction that holds a source and finds its core's operand latch bound waits, with no effect. R425, R427: with
KABORT = 1, one that reads poison in some lanes traps with cause 8, those lanes faulting. -/
def Parts.IssueWaitsAndPoison : Prop :=
  ∀ i s c, isInstruction i = true → ctxOf i s = some c → unimplBad i = false → dynUnimpl i c.x = false → illegalBad i = false →
    dynIllegal i c.x c.t c.la = false →
    ((holdOf i).isSome = true → latchFull s c.core = true → exec i s = .next s) ∧
    (((holdOf i).isSome = true → latchFull s c.core = false) → eatenLanes s c ≠ 0 → c.la.rcd.kabort = true →
      Traps i s c ⟨8, eatenLanes s c, 0, false, 0, []⟩)

/-- R376, R425, R427: with KABORT = 0 the lanes that read poison end when the instruction retires, and LANES counts them; the others
have its results. -/
def Parts.PoisonEndsLanes : Prop :=
  ∀ f s c, (ctxOf (.addI32 f) s = some c ∧ MemoriesWf s ∧ WaveShaped c.x ∧ unimplBad (.addI32 f) = false ∧
      dynUnimpl (.addI32 f) c.x = false ∧ illegalBad (.addI32 f) = false ∧ dynIllegal (.addI32 f) c.x c.t c.la = false ∧
      (f.h = true → latchFull s c.core = false)) →
    let dead := eatenLanes s c
    let c' : Ctx := { c with act := c.act &&& ~~~dead }
    dead &&& c.x.alive ≠ 0 → c.la.rcd.kabort = false →
    ∃ t u, exec (.addI32 f) s = .next (settle' u c) ∧ Retired c' s (takeHold s c') 0 (threeIn f (fun a b _ => a + b) c' s) t ∧
      (∀ w, w ≠ c.w → findWave u w = findWave t w) ∧ (∃ y, findWave u c.w = some y ∧ y.alive = c.x.alive &&& ~~~dead ∧
        (y.alive ≠ 0 → y.a.m = c.x.a.m &&& y.alive ∧ y.b.m = c.x.b.m &&& y.alive)) ∧
      findLaunch u c.t.launch = some { c.la with lanes := min (c.la.lanes + popMask (dead &&& c.x.alive)) 0xFFFFFFFF }

/-- R77, R79, R128, R425, R427: what keeps an instruction from its effect when it issues, and what lanes that read poison lose. -/
def Obligations.IssueTraps : Prop := Parts.EncodingTraps ∧ Parts.IssueWaitsAndPoison ∧ Parts.PoisonEndsLanes

/-- R380, R382, R383: trap entry in a wave outside supervisor mode whose vector is sound: both slots are saved, the trapping one at
its instruction; the handler runs at the vector with the faulting lanes and the other slot is idle; the frame is in the supervisor
banks, the rest of which stays; holds and counts end, those of operand blocks that matrix operations still read too. Nothing else
changes but the delivery marks of a page fault's records. -/
def Parts.TrapEntry : Prop :=
  ∀ s w i x n la, findWave s w = some x → launchOfWave s w = some (n, la) → x.super = false → x.landings = [] → WaveShaped x →
    let vec := tvecAt s i.cause
    vec ≠ 0 → canonical vec.toNat = true → vec.toNat % 4 = 0 →
    let sl := slotOf x i.b
    let met := if laneCause i.cause then i.f else if i.f = 0 then i.act0 else i.f
    let fl := if met = 0 then sl.m &&& x.alive else met
    let left := withSlot x i.b { sl with pc := i.pc, woff := i.woff, act := if i.issued then none else sl.act }
    let saved : Saved :=
      { a := left.a, b := left.b, act0 := i.act0, f := fl, s := i.b, cause := i.cause, issued := i.issued, pc := i.pc,
        progress := (x.progress.filter fun p => p.asked = 1003 ∨ 1005 ≤ p.asked).map fun p => { p with ops := none, eaten := 0 } }
    let handler : Slot := { Slot.idle with st := .run, m := fl, pc := vec.setWidth 56, last := sl.last }
    let t := takeTrap s w i
    ∃ y, findWave t w = some y ∧ (∀ v, v ≠ w → findWave t v = findWave s v) ∧
      t = { s with waves := t.waves, latches := s.latches.filter (fun e => e.slot.wave ≠ w),
                   mats := s.mats.map (fun m => (m.1, mapWindows (fun l => l.filter fun v => v.slot.wave ≠ w) m.2)),
                   faults := if i.cause = 5 then (deliverFaults s w).faults else s.faults } ∧
      y = { withSlot (withSlot x (other i.b) Slot.idle) i.b handler with
        super := true, saved := some saved, svStack := [], pending := none, progress := none, svG := y.svG, svV := y.svV,
        locals := x.locals.map (fun a => { a with left := 0 }), broken := x.broken.filter fun e => !e.1 } ∧
      groupReg y 56 = zext 32 (field i.pc 0 32) ∧ groupReg y 57 = zext 32 (field i.pc 32 24) ∧
      groupReg y 58 = BitVec.ofNat 32 (i.cause + 16 * (if i.b then 1 else 0) + 32 * (i.woff % 32) + 1024 * (i.acc % 8) +
        8192 * (if i.spl then 1 else 0) + 16384 * (if keptForHost s i then 1 else 0) + 65536 * (i.code % 256)) ∧
      groupReg y 59 = i.w0 ∧ groupReg y 60 = i.w1 ∧ groupReg y 61 = BitVec.ofNat 32 (la.tag.asid.toNat + 2 ^ 16 * la.tag.gen.toNat) ∧
      y.svG.getD 6 0 = x.svG.getD 6 0 ∧ y.svG.getD 7 0 = x.svG.getD 7 0 ∧
      (∀ l, fl.getLsbD l = true →
        let e := (i.lanes.find? fun e => e.1 = l).getD (l, 0, 0)
        y.svV.getD l 0 = loWord e.2.1 ∧ y.svV.getD (64 + l) 0 = hiWord e.2.1 ∧ y.svV.getD (128 + l) 0 = e.2.2) ∧
      (∀ k, 192 ≤ k ∨ fl.getLsbD (k % 64) = false → y.svV.getD k 0 = x.svV.getD k 0)

/-- R385: a trap in supervisor mode, or one whose vector is 0, not canonical or misaligned, aborts the wave's team: every lane of its
waves ends, and the team counts as aborted; which cause is logged for a bad vector is the model's choice (log entry 136). R376, R427: LANES counts the lanes of a cause-8 trap that so fails. -/
def Parts.NestedTrapAborts : Prop :=
  ∀ s w i x t la, findWave s w = some x → findTeam s x.team = some t → findLaunch s t.launch = some la → t.fate = .normal → w ∈ t.waves →
    x.super = true ∨ (let v := tvecAt s i.cause; v = 0 ∨ canonical v.toNat = false ∨ v.toNat % 4 ≠ 0) →
    let u := takeTrap s w i
    let eaten := ((if i.cause = 8 then i.f else 0) ||| (match x.saved with
      | some v => if v.cause = 8 then v.f else 0
      | none => 0)) &&& x.alive
    (∃ t', findTeam u x.team = some t' ∧ t'.fate = .aborted) ∧ (∀ v ∈ t.waves, ∀ y, findWave u v = some y → y.alive = 0) ∧
    (∀ v, v ∉ t.waves → findWave u v = findWave s v) ∧
    ∃ l, findLaunch u t.launch = some l ∧ l.lanes = if eaten = 0 then la.lanes else min (la.lanes + popMask eaten) 0xFFFFFFFF

/-- R380, R382, R383, R385: trap entry, and a nested trap. -/
def Obligations.TrapEntries : Prop := Parts.TrapEntry ∧ Parts.NestedTrapAborts

/-- R390: `trap` and `trap.bkpt` raise causes 10 and 13 in the lanes of `act`, with their index as CODE; with empty `act` they do
nothing. R173: `sigchk` clears the signature that it finds as expected, and traps with cause 9 on another; where the kernel does not
check signatures, in supervisor mode and with empty `act` it does nothing. -/
def Parts.SoftwareTraps : Prop :=
  (∀ f s c, Issues (.trap f) s c → (c.act ≠ 0 → Traps (.trap f) s c ⟨10, c.act, 0, false, f.n.toNat, []⟩) ∧
    (c.act = 0 → Completes (.trap f) s c (s, 0, []))) ∧
  (∀ f s c, Issues (.trapBkpt f) s c → (c.act ≠ 0 → Traps (.trapBkpt f) s c ⟨13, c.act, 0, false, f.n.toNat, []⟩) ∧
    (c.act = 0 → Completes (.trapBkpt f) s c (s, 0, []))) ∧
  (∀ f s c, Issues (.sigchk f) s c →
    let on := c.la.ker.sig = true ∧ c.x.super = false ∧ c.act ≠ 0
    (¬ on → Completes (.sigchk f) s c (s, 0, [])) ∧
    (on → c.sl.sig = f.imm → Completes (.sigchk f) s c (onSlot s c.r fun sl => { sl with sig := 0 }, 0, [])) ∧
    (on → c.sl.sig ≠ f.imm → Traps (.sigchk f) s c (plainFail 9)))

/-- R156, R173, R390: the traps that control instructions raise themselves. -/
def Obligations.TargetsAndSoftwareTraps : Prop := Parts.RegisterTargetsTrap ∧ Parts.SoftwareTraps

/-- R387, R388: `eret` and `eret.skip` leave a handler: both slots are as saved; the trapping one, where it runs, issues again in the
lanes of ACT0, or, skipping, in those that did not fault, what it had done kept, or goes on after the instruction. Where no instruction
had issued, the clause takes up the `act` it had; with WOFF 0 it samples `act` afresh (the model's choice, log entry 137). What the
handler left waiting stands before what waited when it was entered (R379). -/
def Parts.EretReturns : Prop :=
  ∀ i skip f s c v, (skip = false ∧ i = .eret f) ∨ (skip = true ∧ i = .eretSkip f) → Issues i s c → c.act ≠ 0 → c.x.landings = [] →
    c.x.saved = some v → v.cause ≠ 8 →
    let p := pairOf (readGroup s c.x 56) (readGroup s c.x 57)
    let w := (field (readGroup s c.x 58) 5 5).toNat
    let w0 := readGroup s c.x 59
    let len := if 0x60 ≤ (field w0 25 7).toNat then 2 else 1
    canonical p.toNat = true → p.toNat % 4 = 0 → field w0 25 7 ≠ 0x6E →
    let rest := v.act0 &&& ~~~v.f &&& c.x.alive
    let again (old : Slot) : Slot :=
      let sl := { old with bar := old.bar.filter fun _ => (skip = false ∨ rest ≠ 0) ∧ p.setWidth 56 = v.pc }
      if skip = false then { sl with pc := p.setWidth 56, woff := w, clause := [], act :=
        if w = 0 then none else if v.issued = true then some (v.act0 &&& c.x.alive) else sl.act }
      else if w = 0 then { sl with pc := p.setWidth 56, woff := 0, clause := [], act := none }
      else if rest ≠ 0 then { sl with pc := p.setWidth 56, woff := w, clause := [], act := if v.issued = true then some rest else none }
      else { sl with pc := (p + BitVec.ofNat 64 (4 * len)).setWidth 56, woff := w + len, clause := [], act := none, bar := none }
    let waiting := c.x.locals.map fun a => { a with left := 0 }
    let back : Wave := { c.x with
      a := v.a, b := v.b, super := false, saved := none, svStack := [], broken := c.x.broken.filter fun e => !e.1
      locals := (waiting.filter fun a => a.sup) ++ waiting.filter fun a => !a.sup }
    let sl := if v.s then v.b else v.a
    ∃ t, exec i s = .next (settle' t c) ∧
      WaveSet (dropWaveLatches s c.w) c.w (if sl.st = .run then
        withSlot { back with progress := if skip = false ∨ rest ≠ 0 then v.progress else none } v.s (again sl) else back) t

/-- R388, R389, R376: `eret.kill` with KABORT = 0 ends the faulting lanes, which LANES counts, and otherwise returns as a skip; a
handler of consumed poison ends its team whatever form returns. With empty `act` no form does anything. -/
def Parts.EretEnds : Prop :=
  (∀ f s c v, Issues (.eretKill f) s c → c.act ≠ 0 → c.x.saved = some v → v.cause ≠ 8 → c.la.rcd.kabort = false → c.x.landings = [] →
    let p := pairOf (readGroup s c.x 56) (readGroup s c.x 57)
    canonical p.toNat = true → p.toNat % 4 = 0 →
    v.f &&& c.x.alive ≠ 0 → c.x.alive &&& ~~~v.f ≠ 0 →
    ∃ t y, exec (.eretKill f) s = .next (settle' t c) ∧ findWave t c.w = some y ∧ y.alive = c.x.alive &&& ~~~v.f ∧ y.super = false ∧
      y.saved = none ∧ (∀ w, w ≠ c.w → findWave t w = findWave s w) ∧ t.dram = s.dram ∧ t.lstore = s.lstore ∧
      ∃ la, findLaunch t c.t.launch = some la ∧
        la.lanes = min (c.la.lanes + ((List.range 64).filter fun l => (v.f &&& c.x.alive).getLsbD l).length) 0xFFFFFFFF) ∧
  (∀ i f s c v, i = .eret f ∨ i = .eretSkip f ∨ i = .eretKill f → Issues i s c → c.act ≠ 0 → c.x.saved = some v → v.cause ≠ 8 →
    c.t.fate = .normal → c.w ∈ c.t.waves →
    let p := pairOf (readGroup s c.x 56) (readGroup s c.x 57)
    let bad : Bool := !canonical p.toNat || p.toNat % 4 ≠ 0
    bad = true ∨ (i = .eretKill f ∧ c.la.rcd.kabort = true ∧ v.f &&& c.x.alive ≠ 0) →
    ∃ t t' la, exec i s = .next t ∧ findTeam t c.x.team = some t' ∧ t'.fate = .aborted ∧ findLaunch t c.t.launch = some la ∧
      (∀ w ∈ c.t.waves, ∀ y, findWave t w = some y → y.alive = 0) ∧
      la.lanes = if bad then c.la.lanes else min (c.la.lanes + popMask (v.f &&& c.x.alive)) 0xFFFFFFFF) ∧
  (∀ i f s c v, i = .eret f ∨ i = .eretSkip f ∨ i = .eretKill f → Issues i s c → c.act ≠ 0 → c.x.saved = some v → v.cause = 8 →
    exec i s = .next (settle' (abortTeam (killLanes s c.w v.f) c.x.team) c)) ∧
  (∀ i f s c, i = .eret f ∨ i = .eretSkip f ∨ i = .eretKill f → Issues i s c → c.act = 0 → Completes i s c (s, 0, []))

/-- R376, R387 to R389: leaving a handler. -/
def Obligations.Erets : Prop := Parts.EretReturns ∧ Parts.EretEnds

/-- R167, R151, R168, R169, R127: `exit` ends the lanes of `act`, its slot's counts and holds, and its slot where no lane of it is
left; `tkwait` makes its slot wait for the tokens of its mask and ends its
holds, with an empty mask too (the model's choice, log entry 132); `nop` does nothing; `yield` makes its slot stand for its cycles,
which from 64 on end its holds. None acts with empty `act`. -/
def Obligations.WaitsAndExit : Prop :=
  (∀ f s c, Issues (.exit f) s c → ∃ t, Completes (.exit f) s c (t, 0, []) ∧ (c.act = 0 → t = s) ∧
    (c.x.alive &&& ~~~c.act ≠ 0 → c.act ≠ 0 → c.sl.st = .run → ∃ y, WaveSet (endCounts s c.r) c.w y t ∧ y.alive = c.x.alive &&& ~~~c.act ∧
      let m := c.sl.m &&& (c.x.alive &&& ~~~c.act)
      slotOf y c.r.b = if m = 0 then { Slot.idle with last := c.sl.last } else { c.sl with m }) ∧
    (c.x.alive &&& ~~~c.act = 0 → c.act ≠ 0 → ∃ y, findWave t c.w = some y ∧ y.alive = 0 ∧ y.a = Slot.idle ∧ y.b = Slot.idle)) ∧
  (∀ f s c, Issues (.tkwait f) s c →
    Completes (.tkwait f) s c (if c.act = 0 then s else onSlot (dropLatches s c.r) c.r fun sl => { sl with tokWait := f.mask }, 0, [])) ∧
  (∀ f, Gives (.nop f) 0 fun _ _ => []) ∧
  (∀ f s c, Issues (.yieldN f) s c → Completes (.yieldN f) s c
    (if c.act = 0 then s else onSlot (if 64 ≤ 8 * f.n.toNat then dropLatches s c.r else s) c.r fun sl => { sl with yielding := some ⟨s.clock, 8 * f.n.toNat⟩ }, 0, []))

/-- R232, R125, R426: a load that is not volatile and whose words its caches give, each unit whole (R210), retires with their
little-endian value, extended as its SUB code says, under its lookahead; an acquire has dropped the path's non-owned words first.
Neither memory changes. -/
def Parts.LoadResults : Prop :=
  ∀ f s c s₁ addr (w : Nat → Word), Issues (.ld f) s c → f.cl ≠ 4 → resultsOf c = [] →
    AddrAt c f.u (globalAddr s c f.u f.a f.off) addr →
    let as := (c.formLanes f.u).map fun l => (l, addr l)
    let cnt := loadRegs f.sub
    Translates s c .load (loadBytes f.sub.toNat) as s₁ →
    let s₂ := if f.cl = 1 ∧ (progressOf c).isNone = true then selfInvalidate s₁ c.cl f.sc.toNat else s₁
    CachesGive s₂ (c.asker .load) cnt as w →
    ∃ t, Completes (.ld f) s c (t, f.la.toNat, eachWide c f.u f.d cnt fun l =>
        loadValue f.sub.toNat (addr l) ((List.range cnt).map fun j => (w (addr l / 4 * 4 + 4 * j)).toNat)) ∧
      t = { clearProgress s₁ c with
        caches := t.caches, dirs := t.dirs, net := t.net, nacked := t.nacked, txns := t.txns, l1ways := t.l1ways, ntLines := t.ntLines }

/-- R125, R227, R237: an access that its home or another site performs retires when all its results have come back: a volatile load with
their values, a store, and an atomic with the old values. Poisoned results are the subject of R426. -/
def Parts.SiteResults : Prop :=
  (∀ f s c addr, Issues (.ld f) s c → f.cl = 4 → c.formLanes f.u ≠ [] → asked c = true → acquireWaits c = false →
    AddrAt c f.u (globalAddr s c f.u f.a f.off) addr →
    let n := loadRegs f.sub
    ∀ w : Nat → Nat → Nat, resultsOf c = (c.formLanes f.u).flatMap (fun l => (List.range n).map fun j => (4 * l + j, w l j, false)) →
    Completes (.ld f) s c (clearProgress s c, f.la.toNat, eachWide c f.u f.d n fun l =>
      loadValue f.sub.toNat (addr l) ((List.range n).map (w l)))) ∧
  (∀ f s c ls, Issues (.st f) s c → ls ≠ [] → asked c = true → acquireWaits c = false → ReadAt c (storeOperands s c f) ls →
    (∀ i < (storeWords f.sub.toNat ls).length, ∃ r ∈ resultsOf c, r.1 = i) →
    Completes (.st f) s c (clearProgress s c, 0, [])) ∧
  (∀ f s c ls (old : Nat → Nat), Issues (.atom f) s c → f.cl = 4 ∨ 2 ≤ f.sc.toNat → c.formLanes f.u ≠ [] → asked c = true →
    acquireWaits c = false →
    ReadAt c (atomOperands s c f.u f.d f.b f.sub.toNat ((c.formLanes f.u).map fun l => (l, globalAddr s c f.u f.a f.off l))) ls →
    ls.map (·.lane) = c.formLanes f.u → resultsOf c = (c.formLanes f.u).map (fun l => (l, old l, false)) →
    Completes (.atom f) s c
      (if f.cl = 1 ∨ f.cl = 3 then selfInvalidate (clearProgress s c) c.cl f.sc.toNat else clearProgress s c,
        f.la.toNat, eachWide c f.u f.d (atomRegs f.sub) old))

/-- R227, R232, R237, R426: loads that the path serves, and accesses that a site performs. -/
def Obligations.GlobalLoads : Prop := Parts.LoadResults ∧ Parts.SiteResults

/-- The parts of a store that it has still to put into the cluster's L1. -/
def partsLeft (c : Ctx) (sub : Nat) (ls : List AtomLane) : List (Nat × Word × Word) :=
  (storeWords sub ls).filter fun p => !(resultsOf c).any fun r => r.1 = p.1

/-- A store that is not volatile has its addresses translated, and has nothing left to release, which makes `s₂` of the state; one that
waits for words that its cluster does not own meets its checks again for these alone. -/
structure StoreReady (f : StOps) (s : State) (c : Ctx) (ls : List AtomLane) (s₂ : State) : Prop where
  issues : Issues (.st f) s c
  near : f.cl ≠ 4 ∧ asked c = false
  read : ReadAt c (storeOperands s c f) ls
  begins : phaseOf c ≠ partMark → resultsOf c = []
  reach : ∃ s₁, Translates s c .store (storeBytes f.sub.toNat)
      (if phaseOf c = partMark then (laneAddrs ls).filter fun a => (partsLeft c f.sub.toNat ls).any fun p =>
        a.2 / 4 * 4 ≤ p.1 ∧ p.1 < a.2 + storeBytes f.sub.toNat
      else laneAddrs ls) s₁ ∧
    (if phaseOf c ≠ partMark ∧ f.cl = 2 then releaseBefore s₁ c f.sc.toNat else (none, s₁)) = (none, s₂)

/-- R232, R267, R125: a store that is not volatile, with nothing left to release and its part words owned by the cluster, retires
having put its bytes into the cluster's L1 and no others: where its bytes lie in one line that the L1 can keep, each word is there,
dirty, with the bytes of the highest lane that writes them, and owned, claimed from the die where it was not. Every other cached word
is as it was, the storing core's L0 following its line apart, or has left for want of room, which where there is room none does. -/
def Parts.StoreResults : Prop :=
  ∀ f s c ls s₂, StoreReady f s c ls s₂ →
    let q := c.asker .store
    let parts := partsLeft c f.sub.toNat ls
    (∀ p ∈ parts, mergeable s₂ q p = true) →
    ∃ t, Completes (.st f) s c (t, 0, []) ∧
      t = { clearProgress s₂ c with
        caches := t.caches, dirs := t.dirs, net := t.net, nacked := t.nacked, txns := t.txns, l1ways := t.l1ways, ntLines := t.ntLines } ∧
      (∀ line, l1Ways s₂ c.cl ≠ 0 → (∀ p ∈ parts, lineOf p.1 = line ∧ homeLost s₂ c.tag (128 * line) .store = false) →
        ∀ p ∈ parts, (∃ v, cwAt t (.l1 c.cl) c.tag p.1 = some v ∧ v.dirty = true ∧ v.stale = false ∧ v.owned = true ∧
            v.val = match cwAt s₂ (.l1 c.cl) c.tag p.1 with
              | some o => (o.val &&& ~~~p.2.2) ||| (p.2.1 &&& p.2.2)
              | none => p.2.1) ∧
          ((∀ o, cwAt s₂ (.l1 c.cl) c.tag p.1 = some o → o.owned = false) → ∃ m ∈ t.net, m.kind = .getW ∧ m.src = .l1 c.cl ∧
            m.dst = .die (dieOf c.cl) ∧ m.tag = c.tag ∧ m.line = line ∧ m.mask.getLsbD (wordIdx p.1) = true)) ∧
      ∀ k, (∀ p ∈ parts, ¬ (k.tag = c.tag ∧ ((k.node = .l1 c.cl ∧ k.va = p.1) ∨ (k.node = .l0 c.core ∧ lineOf k.va = lineOf p.1)))) →
        (kvFind t.caches k = kvFind s₂.caches k ∨ kvFind t.caches k = none) ∧
        (l1Ways s₂ c.cl ≠ 0 → (∀ n, (l0Lines s₂ c.core n).length ≤ 8) →
          (∀ p ∈ parts, (∃ e ∈ s₂.l1ways, e.cl = c.cl ∧ e.tag = c.tag ∧ e.blk = p.1 / 512) ∧
            ∃ va, va / 512 = p.1 / 512 ∧ (cwAt s₂ (.l1 c.cl) c.tag va).isSome = true) → kvFind t.caches k = kvFind s₂.caches k)

/-- R232, R249, R267: a store of part of a word that the cluster does not own waits: it claims the word with its newest bytes (the
model's way, log entry 101). What it can store is stored, and noted as done; no memory changes. -/
def Parts.PartStoresClaim : Prop :=
  ∀ f s c ls s₂, StoreReady f s c ls s₂ →
    let q := c.asker .store
    let parts := partsLeft c f.sub.toNat ls
    (∃ p ∈ parts, mergeable s₂ q p = false) →
    ∃ t y p, exec (.st f) s = .next t ∧ t.dram = s₂.dram ∧ t.lstore = s.lstore ∧ (∀ w, w ≠ c.w → findWave t w = findWave s w) ∧
      findWave t c.w = some y ∧ y = { c.x with progress := y.progress } ∧ y.progress = some p ∧ p.b = c.r.b ∧ p.asked = partMark ∧
      p.ops = some ls ∧ p.results.map (·.1) = (resultsOf c).map (·.1) ++ (parts.filter (mergeable s₂ q)).map (·.1) ∧
      ∀ p ∈ parts, mergeable s₂ q p = false → flushOut s₂ (.l1 c.cl) c.tag (lineOf p.1) = false → ∃ m ∈ t.net, m.kind = .getW ∧
        m.flush = true ∧ m.src = .l1 c.cl ∧ m.dst = .die (dieOf c.cl) ∧ m.tag = c.tag ∧ m.line = lineOf p.1 ∧
        m.mask.getLsbD (wordIdx p.1) = true

/-- R232, R249, R267: stores into a cluster's L1. -/
def Obligations.StoreResults : Prop := Parts.StoreResults ∧ Parts.PartStoresClaim

/-- R236: what an atomic makes of a word at a cache that holds it: the old value goes back, the new one is there, dirty. -/
def Parts.AtomicAtCache : Prop :=
  ∀ s cl tag sub va x y o, cwAt s (.l1 cl) tag va = some o → o.poison = false → o.stale = false → va % 4 = 0 → sub ≤ 10 →
    let w := cachedBits s tag va o.val
    let r := atomStep s (.l1 cl) tag sub va x y
    r.1 = (w.toNat, false) ∧ r.2.dram = s.dram ∧ r.2.lstore = s.lstore ∧ r.2.waves = s.waves ∧
    (∃ v, cwAt r.2 (.l1 cl) tag va = some v ∧ v.dirty = true ∧ v.poison = false ∧ v.stale = false ∧ v.val = atomWord sub w x y) ∧
    ∀ k, k ≠ ⟨.l1 cl, tag, va⟩ → kvFind r.2.caches k = kvFind s.caches k

/-- R2, R423: a word of a cache reads as it is, but that of the page policy array reads without the reserved bits 7:2 of its bytes. -/
def Parts.CachedPolicyBits : Prop :=
  ∀ s tag va w p pte s', translate s tag va .load true = (.ok p pte, s') →
    cachedBits s tag va w = if regPa s.service.eptb ≤ p.pa ∧ p.pa < regPa s.service.eptb + 2 ^ 16 then w &&& 0x03030303 else w

/-- R125, R228, R236, R237: an atomic at the L1 site that has its lines claimed and whole, nothing left to release, retires with the old
values that its lanes find in ascending order, each lane's part one `atomStep`; where its lines are one that the L1 keeps, what they
leave there stands. By one lane, it retires with the word that it finds there, or the pair, and leaves there the function of that and
its operands. -/
def Parts.AtomicResults : Prop :=
  ∀ f s c ls s₁ s₂ rs s₃, Issues (.atom f) s c → f.cl ≠ 4 → f.sc.toNat < 2 → asked c = false → resultsOf c = [] →
    ReadAt c (atomOperands s c f.u f.d f.b f.sub.toNat ((c.formLanes f.u).map fun l => (l, globalAddr s c f.u f.a f.off l))) ls →
    let n := atomRegs f.sub
    Translates s c .atomic (4 * n) (laneAddrs ls) s₁ →
    (if phaseOf c ≠ nearMark ∧ (f.cl = 2 ∨ f.cl = 3) then releaseBefore s₁ c f.sc.toNat else (none, s₁)) = (none, s₂) →
    (∀ l ∈ ls, homeLost s₂ c.tag l.va .atomic = false ∧ siteReady s₂ (.l1 c.cl) c.tag (lineOf l.va) = true) →
    atomsAtL1 s₂ c.cl c.tag c.w f.sub.toNat ls = (rs, s₃) → (∀ r ∈ rs, r.2.2 = false) →
    ∃ t, Completes (.atom f) s c (t, f.la.toNat, rs.flatMap fun r =>
        if f.u then groupWrites f.d.toNat r.2.1 n else laneWrites f.d.toNat r.1 r.2.1 n) ∧
      t = { clearProgress s₃ c with
        caches := t.caches, dirs := t.dirs, net := t.net, nacked := t.nacked, txns := t.txns, l1ways := t.l1ways, ntLines := t.ntLines } ∧
      (l1Ways s₂ c.cl ≠ 0 → (∀ l ∈ ls, ∀ k ∈ ls, lineOf l.va = lineOf k.va) →
        (∀ l ∈ ls, ∀ j < n, cwAt t (.l1 c.cl) c.tag (l.va + 4 * j) = cwAt s₃ (.l1 c.cl) c.tag (l.va + 4 * j)) ∧
        ∀ l va x y o, ls = [⟨l, va, x, y⟩] → cwAt s₂ (.l1 c.cl) c.tag va = some o → o.poison = false →
          let old (va : Nat) (o : CWord) := cachedBits s₂ c.tag va o.val
          (n = 1 → rs = [(l, (old va o).toNat, false)] ∧ ∃ v, cwAt t (.l1 c.cl) c.tag va = some v ∧ v.dirty = true ∧ v.stale = false ∧
            v.val = atomWord f.sub.toNat (old va o) x y) ∧
          (∀ o', n = 2 → cwAt s₂ (.l1 c.cl) c.tag (va + 4) = some o' → o'.poison = false →
            let w := (pairOf (old va o) (old (va + 4) o')).toNat
            rs = [(l, w, false)] ∧ ∃ v v', cwAt t (.l1 c.cl) c.tag va = some v ∧ cwAt t (.l1 c.cl) c.tag (va + 4) = some v' ∧
              v.dirty = true ∧ v'.dirty = true ∧ pairOf v.val v'.val = BitVec.ofNat 64 (match f.sub.toNat with
                | 11 => w + x
                | 12 => min w x
                | _ => if w = x then y else w)))

/-- R228, R237, R265, R268: an atomic at the L1 site that lacks a line, or has not claimed it whole, waits: it claims the whole line
with its newest values (the model's way, log entry 107). -/
def Parts.AtomicsClaim : Prop :=
  ∀ f s c s₁ s₂ l, Issues (.atom f) s c → f.cl ≠ 4 → f.sc.toNat < 2 → c.x.progress = none → c.formLanes f.u = [l] →
    let addr := globalAddr s c f.u f.a f.off l
    let line := lineOf addr
    Translates s c .atomic (4 * atomRegs f.sub) [(l, addr)] s₁ →
    (if f.cl = 2 ∨ f.cl = 3 then releaseBefore s₁ c f.sc.toNat else (none, s₁)) = (none, s₂) → homeLost s₂ c.tag addr .atomic = false →
    siteReady s₂ (.l1 c.cl) c.tag line = false → flushOut s₂ (.l1 c.cl) c.tag line = false →
    ∃ t y p m, exec (.atom f) s = .next t ∧ findWave t c.w = some y ∧ y = { c.x with progress := some p } ∧ p.asked = nearMark ∧
      m ∈ t.net ∧ m.kind = .getW ∧ m.flush = true ∧ m.mask = wholeLine ∧ m.src = .l1 c.cl ∧ m.dst = .die (dieOf c.cl) ∧
      m.tag = c.tag ∧ m.line = line

/-- R2, R228, R236, R237, R423: atomics at a cache. -/
def Obligations.Atomics : Prop := Parts.AtomicAtCache ∧ Parts.CachedPolicyBits ∧ Parts.AtomicResults ∧ Parts.AtomicsClaim

/-- R208, R209, R241: a global load, store or atomic with an address that is not canonical traps with cause 5, kind 2, the lanes of
such addresses faulting; with canonical addresses of which some are misaligned, with cause 7. The group form's one address is every
lane's. It has none of its effect. -/
def Parts.GlobalAddressTraps : Prop :=
  ∀ i s c u acc n addr, Issues i s c → c.x.progress = none → acquireWaits c = false →
    (∃ f, i = .ld f ∧ u = f.u ∧ acc = .load ∧ n = loadBytes f.sub.toNat ∧ addr = globalAddr s c f.u f.a f.off) ∨
      (∃ f, i = .st f ∧ u = f.u ∧ acc = .store ∧ n = storeBytes f.sub.toNat ∧ addr = globalAddr s c f.u f.a f.off) ∨
      (∃ f, i = .atom f ∧ u = f.u ∧ acc = .atomic ∧ n = 4 * atomRegs f.sub ∧ addr = globalAddr s c f.u f.a f.off) →
    let met (p : Nat → Bool) : List (Nat × Nat) :=
      if u then c.lanes.map fun l => (l, addr 0) else (c.lanes.filter fun l => p (addr l)).map fun l => (l, addr l)
    let trapped (p : Nat → Bool) (cause code : Nat) (k : Nat → Word) := exec i s = .next (takeTrap (clearProgress s c) c.w
      (trapInfo c ⟨cause, maskOf ((met p).map (·.1)), code, false, 0, (met p).map fun e => (e.1, e.2, k e.2)⟩))
    ((∃ l ∈ c.formLanes u, canonical (addr l) = false) → trapped (fun a => !canonical a) 5 (accCode acc) (v50Word 2)) ∧
    ((∀ l ∈ c.formLanes u, canonical (addr l) = true) → (∃ l ∈ c.formLanes u, addr l % n ≠ 0) →
      trapped (fun a => decide (a % n ≠ 0)) 7 0 fun _ => 0)

/-- R234, R426: `ldl` and `gldl` from register and scratch banks, without FE, write the bytes of the local store, extended, and change
nothing else, an acquire apart. -/
def Parts.LocalLoadResults : Prop :=
  ∀ f s c, Issues (.ldl f) s c → f.fe = 0 →
    let addr := localAddr s c f.u f.a f.off
    let n := loadBytes f.sub.toNat
    LocalReady s c f.u .load 0 n addr →
    (∀ l ∈ c.formLanes f.u, (bankAt s c.cl (bankOf (addr l))).mode ≠ .fifo ∧ localPoison s c.cl (addr l) n = false) →
    CompletesWith (.ldl f) s c (if f.cl = 1 then selfInvalidate s c.cl f.sc.toNat else s) f.la.toNat
      (eachWide c f.u f.d (loadRegs f.sub) fun l => extendLoad f.sub.toNat (localNat s c.cl (addr l) n))

/-- R218, R234: `stl` and `gstl` to register and scratch banks, without FE, change the bytes that their lanes name and no others: a byte
has what the highest lane that names it stores. A granule of a scratch bank loses its poison bit exactly when its lanes together write
all of it, a register word its mark when one writes it whole; no full bit changes. (`older` are the old values that other paths may
still read, R257.) -/
def Parts.LocalStoreResults : Prop :=
  ∀ f s c (addr data : Nat → Nat) s₂, Issues (.stl f) s c → f.fe = 0 →
    ReadAt c ((c.formLanes f.u).map fun l => ⟨l, localAddr s c f.u f.a f.off l, srcNat s c f.u f.b l 0 (storeRegs f.sub), 0⟩)
      ((c.formLanes f.u).map fun l => ⟨l, addr l, data l, 0⟩) →
    let n := storeBytes f.sub.toNat
    LocalReady s c f.u .store 0 n addr →
    (∀ l ∈ c.formLanes f.u, (bankAt s c.cl (bankOf (addr l))).mode ≠ .fifo) →
    (if f.cl = 2 then releaseBefore s c f.sc.toNat else (none, s)) = (none, s₂) →
    let base := if f.cl = 2 then clearProgress s₂ c else s
    let writes (l k : Nat) : Prop := addr l ≤ k ∧ k < addr l + n
    ∃ t, Completes (.stl f) s c (t, 0, []) ∧
      t = { base with lstore := t.lstore, regPoison := t.regPoison, banks := t.banks, older := t.older } ∧
      (∀ k, (∀ l ∈ c.formLanes f.u, ¬ (lsKey c.cl (addr l) ≤ k ∧ k < lsKey c.cl (addr l) + n)) → memRead t.lstore k = memRead s.lstore k) ∧
      (∀ l ∈ c.formLanes f.u, ∀ j < n, (∀ m ∈ c.formLanes f.u, l < m → ¬ writes m (addr l + j)) →
        memRead t.lstore (lsKey c.cl (addr l) + j) = BitVec.ofNat 8 (data l / 2 ^ (8 * j))) ∧
      (∀ k, k ∈ t.regPoison ↔ k ∈ s.regPoison ∧
        ¬ ∃ l ∈ c.formLanes f.u, lsKey c.cl (addr l) ≤ k ∧ k + 4 ≤ lsKey c.cl (addr l) + n) ∧
      (∀ cl a, granPoison t cl a = true ↔ granPoison s cl a = true ∧ ¬ (cl = c.cl ∧ (bankAt s c.cl (bankOf a)).mode = .scr ∧
        ∀ j < 16, ∃ l ∈ c.formLanes f.u, writes l (a / 16 * 16 + j))) ∧
      ∀ cl b, { bankAt t cl b with pois := [] } = { bankAt s cl b with pois := [] }

/-- R234, R426: local loads and stores. -/
def Obligations.LocalAccesses : Prop := Parts.LocalLoadResults ∧ Parts.LocalStoreResults

/-- R236 to R238: `atoml` by one lane on a scratch word without poison writes D with the old value, and the word with the function of
it. R240: `lsctl.fe.set` and `lsctl.fe.clr` set and clear the full bits of the granules that their lanes name, and no others. -/
def Parts.LocalAtomicsAndFullBits : Prop :=
  (∀ f s c l addr x y s₂, Issues (.atoml f) s c → c.lanes = [l] →
    let n := atomRegs f.sub
    ReadAt c [⟨l, localAddr s c false f.a f.off l, srcNat s c false f.b l 0 n,
      if n = 2 then (destPair s c false f.d l).toNat else (srcDest s c false f.d l).toNat⟩] [⟨l, addr, x, y⟩] →
    let old := localNat s c.cl addr (4 * n)
    LocalReady s c false .atomic 0 (4 * n) (fun _ => addr) → granPoison s c.cl addr = false →
    (if f.cl = 2 ∨ f.cl = 3 then releaseBefore s c f.sc.toNat else (none, s)) = (none, s₂) →
    let base := if f.cl = 2 ∨ f.cl = 3 then clearProgress s₂ c else s
    ∃ t u, Completes (.atoml f) s c (t, f.la.toNat, laneWrites f.d.toNat l old n) ∧
      t = (if f.cl = 1 ∨ f.cl = 3 then selfInvalidate u c.cl f.sc.toNat else u) ∧
      u = { putLocalNat base c.cl addr (4 * n) (atomNew f.sub.toNat old x y) with older := u.older } ∧
      localNat u c.cl addr (4 * n) = (if n = 1 then (atomWord f.sub.toNat (BitVec.ofNat 32 old) x y).toNat
        else atomNew f.sub.toNat old x y)) ∧
  (∀ i on kind f s c, (i = .lsctlFeSet f ∧ on = true ∧ kind = .feSet) ∨ (i = .lsctlFeClr f ∧ on = false ∧ kind = .feClr) → Issues i s c →
    let addr := localAddr s c false f.a f.off
    LocalReady s c false kind 0 1 addr →
    ∃ t, Completes i s c (t, 0, []) ∧ t = { s with banks := t.banks } ∧ (∀ l ∈ c.lanes, granFull t c.cl (addr l) = on) ∧
      (∀ cl a, ¬ (cl = c.cl ∧ ∃ l ∈ c.lanes, bankOf a = bankOf (addr l) ∧ granuleOf a = granuleOf (addr l)) →
        granFull t cl a = granFull s cl a) ∧
      ∀ cl b, { bankAt t cl b with full := [] } = { bankAt s cl b with full := [] })

/-- R219, R221, R222: one lane's access with an FE qualifier, and at a FIFO bank. A load that wants a full granule and finds it empty,
and a load from an empty FIFO, retire waiting; a load that takes clears the full bit; a store with FE sets it; a FIFO is taken from at
its head and appended to. -/
def Parts.FullEmptyAccesses : Prop :=
  (∀ f s c, Issues (.ldl f) s c → f.u = true → f.cl = 0 → c.act ≠ 0 →
    let addr := localAddr s c true f.a f.off 0
    let n := loadBytes f.sub.toNat
    let k := bankAt s c.cl (bankOf addr)
    LocalReady s c true .load f.fe.toNat n (fun _ => addr) → localPoison s c.cl addr n = false →
    let acc : LocalAcc := ⟨c.r.b, .load, true, f.sub.toNat, f.fe.toNat, f.d.toNat, (if c.interlocked then 0 else f.la.toNat) + 1,
      c.x.super, c.act, none, [⟨0, addr, 0, 0⟩], []⟩
    let waits := Completes (.ldl f) s c (onWave s c.w fun x => { x with locals := x.locals ++ [acc] }, 0, [])
    let value (a : Nat) := groupWrites f.d.toNat (extendLoad f.sub.toNat (localNat s c.cl a n)) (loadRegs f.sub)
    (k.mode = .scr → f.fe ≠ 0 → granFull s c.cl addr = false → waits) ∧
    (k.mode = .scr → f.fe = 1 → granFull s c.cl addr = true → Completes (.ldl f) s c (s, f.la.toNat, value addr)) ∧
    (k.mode = .scr → f.fe = 2 → granFull s c.cl addr = true → Completes (.ldl f) s c (setFull s c.cl addr false, f.la.toNat, value addr)) ∧
    (k.mode = .fifo → k.count = 0 → waits) ∧
    (k.mode = .fifo → k.count ≠ 0 → granPoison s c.cl (bankOf addr * 2 ^ 15 + 16 * k.head) = false →
      ∃ t, Completes (.ldl f) s c (t, f.la.toNat, value (bankOf addr * 2 ^ 15 + 16 * k.head)) ∧ t = { s with banks := t.banks } ∧
        (bankAt t c.cl (bankOf addr)).head = (k.head + 1) % 2048 ∧ (bankAt t c.cl (bankOf addr)).count = k.count - 1)) ∧
  (∀ f s c, Issues (.stl f) s c → f.u = true → f.cl = 0 → c.act ≠ 0 →
    let addr := localAddr s c true f.a f.off 0
    let n := storeBytes f.sub.toNat
    let k := bankAt s c.cl (bankOf addr)
    let v := srcNat s c true f.b 0 0 (storeRegs f.sub)
    c.x.progress = none → LocalReady s c true .store f.fe.toNat n (fun _ => addr) →
    (k.mode = .scr → f.fe ≠ 0 → (f.fe = 2 → granFull s c.cl addr = false) → ∃ t, Completes (.stl f) s c (t, 0, []) ∧
      localNat t c.cl addr n = v % 2 ^ (8 * n) ∧ granFull t c.cl addr = true) ∧
    (k.mode = .fifo → k.count < 2048 → ∃ t, Completes (.stl f) s c (t, 0, []) ∧ (bankAt t c.cl (bankOf addr)).count = k.count + 1 ∧
      localNat t c.cl (bankOf addr * 2 ^ 15 + 16 * ((k.head + k.count) % 2048)) 16 = v % 2 ^ (8 * n)))

/-- R219 to R222, R236 to R238, R240: local atomics, full bits and FIFO banks. -/
def Obligations.FullBits : Prop := Parts.LocalAtomicsAndFullBits ∧ Parts.FullEmptyAccesses

/-- R241, R383: a local access traps with cause 6 and code 1 for an address beyond the local store, with cause 7 for a misaligned one,
and with cause 6 and the lowest code met for a place that its checks refuse; the lanes that met the cause are the faulting ones. -/
def Parts.LocalTraps : Prop :=
  ∀ i s c u kind fe n addr, Issues i s c → s.modeReqs = [] → c.x.progress = none →
    (∃ f, i = .ldl f ∧ u = f.u ∧ kind = .load ∧ fe = f.fe.toNat ∧ n = loadBytes f.sub.toNat ∧ addr = localAddr s c f.u f.a f.off) ∨
      (∃ f, i = .stl f ∧ u = f.u ∧ kind = .store ∧ fe = f.fe.toNat ∧ n = storeBytes f.sub.toNat ∧ addr = localAddr s c f.u f.a f.off) ∨
      (∃ f, i = .atoml f ∧ u = false ∧ kind = .atomic ∧ fe = 0 ∧ n = 4 * atomRegs f.sub ∧ addr = localAddr s c false f.a f.off) ∨
      (∃ f, i = .lsctlFeSet f ∧ u = false ∧ kind = .feSet ∧ fe = 0 ∧ n = 1 ∧ addr = localAddr s c false f.a f.off) ∨
      (∃ f, i = .lsctlFeClr f ∧ u = false ∧ kind = .feClr ∧ fe = 0 ∧ n = 1 ∧ addr = localAddr s c false f.a f.off) →
    let met (p : Nat → Bool) : List (Nat × Nat) :=
      if u then c.lanes.map fun l => (l, addr 0) else (c.lanes.filter fun l => p (addr l)).map fun l => (l, addr l)
    let trapped (p : Nat → Bool) (cause code : Nat) := exec i s = .next (takeTrap (clearProgress s c) c.w
      (trapInfo c ⟨cause, maskOf ((met p).map (·.1)), 0, false, code, (met p).map fun e => (e.1, e.2, 0)⟩))
    let far (a : Nat) : Bool := decide (0x180000 ≤ a)
    let odd (a : Nat) : Bool := decide (a % n ≠ 0)
    let bad (a : Nat) : Bool := (placeCode s c kind fe a n).isSome
    ((∃ l ∈ c.formLanes u, far (addr l) = true) → trapped far 6 1) ∧
    ((∀ l ∈ c.formLanes u, far (addr l) = false) → (∃ l ∈ c.formLanes u, odd (addr l) = true) → trapped odd 7 0) ∧
    ((∀ l ∈ c.formLanes u, far (addr l) = false ∧ odd (addr l) = false) → ∀ l ∈ c.formLanes u, ∀ code,
      placeCode s c kind fe (addr l) n = some code →
      (∀ m ∈ c.formLanes u, ∀ k, placeCode s c kind fe (addr m) n = some k → code ≤ k) → trapped bad 6 code)

/-- R208, R209, R241, R383: the traps of global and local accesses. -/
def Obligations.AddressTraps : Prop := Parts.GlobalAddressTraps ∧ Parts.LocalTraps

/-- R260, R267: an acquire drops from the caches of the path below its level, and from the cluster's L0s, every word that is neither
owned nor dirty, or, in the L1, leaves it stale; no other word, and nothing but caches and what is on its way, changes. -/
def Parts.AcquireInvalidates : Prop :=
  ∀ s cl sc, sc ≠ 0 →
    let t := selfInvalidate s cl sc
    let near (n : Node) : Prop := n ∈ pathBelow none cl sc ∨ ∃ core, n = .l0 core ∧ core / 4 = cl
    t = { s with caches := t.caches, dirs := t.dirs, net := t.net } ∧
    (∀ e ∈ t.caches, near e.1.node → e.2.owned = true ∨ e.2.dirty = true ∨ e.2.stale = true) ∧
    (∀ e ∈ s.caches, ¬ near e.1.node → e ∈ t.caches) ∧
    (∀ e ∈ s.caches, e.1.node ∈ pathBelow none cl sc → (e.2.owned = true ∨ e.2.dirty = true) → e ∈ t.caches)

/-- R240, R259 to R261: a fence whose wave's earlier accesses are performed, with nothing left to release on its path, retires, an
acquire having invalidated it; `xfence` too, once the operations of its from-paths are complete, and the paths of its to-mask read
the words that those wrote as they stand; `lsctl.wb` when nothing is dirty.
With empty `act` they do nothing. -/
def Parts.FencesRetire : Prop :=
  (∀ f s c, Issues (.fence f) s c → (c.act = 0 → Completes (.fence f) s c (s, 0, [])) ∧
    (c.act ≠ 0 → c.x.locals = [] → c.x.progress = none → (f.cl = 1 ∨ PathClean s c f.sc.toNat) →
      Completes (.fence f) s c
        (if f.cl = 1 ∨ f.cl = 3 then selfInvalidate (clearProgress s c) c.cl f.sc.toNat else clearProgress s c, 0, []))) ∧
  (∀ f s c, Issues (.xfence f) s c → (c.act = 0 → Completes (.xfence f) s c (s, 0, [])) ∧
    (c.act ≠ 0 → c.x.progress = none → pathPending s c f.fr = false → PathClean s c f.sc.toNat →
      let u := freshen (clearProgress s c) f.dst (fencedWrite s c f.fr)
      Completes (.xfence f) s c (if f.dst.getLsbD 0 ∨ f.dst.getLsbD 1 then selfInvalidate u c.cl f.sc.toNat else u, 0, []) ∧
        ∀ e ∈ u.older, fencedWrite s c f.fr e = true → e.readers &&& f.dst = 0)) ∧
  (∀ f s c addr, Issues (.lsctlWb f) s c → phaseOf c = 0 → PathClean s c 6 → AddrAt c false (globalAddr s c false f.a f.off) addr →
    (∀ l ∈ c.lanes, canonical (addr l) = true ∧ addr l % 4 = 0) →
    Completes (.lsctlWb f) s c (if c.act = 0 then s else clearProgress s c, 0, []))

/-- R240, R259 to R261, R267: acquires and fences. -/
def Obligations.Fences : Prop := Parts.AcquireInvalidates ∧ Parts.FencesRetire

/-- R250: a message under way, `m`, as it is after node `n` has given up lines that `named` tells, `m'`: an answer to the node has
lost words of them, all that the node had dirty or owned among them; a request of the node names all these as not wanted; every
other message is as it was. -/
def Thinned (s : State) (n : Node) (named : AsidTag → Nat → Prop) (m m' : Msg) : Prop :=
  let kept (i : Nat) : Prop := i < 32 ∧ ∃ x, cwAt s n m.tag (wordVa m.line i) = some x ∧ (x.dirty = true ∨ x.owned = true)
  let answer : Prop := named m.tag (128 * m.line) ∧ m.kind = .dataC ∧ m.dst = n
  let request : Prop := named m.tag (128 * m.line) ∧ m.kind = .getS ∧ m.src = n
  m' = { m with mask := m'.mask, words := m'.words } ∧ (¬ answer → m'.mask = m.mask ∧ (¬ request → m'.words = m.words)) ∧
  (answer → ∀ w, w ∈ m'.words ↔ w ∈ m.words ∧ ¬ kept w.idx) ∧
  (request → ∀ i, kept i → ∃ w ∈ m'.words, w.idx = i)

/-- R214, R240: `lsctl.mode` on a bank that may take the mode asks for the change, or, in it already, does nothing; on one that may
not it traps with cause 6, code 5, and beyond the local store with code 1. `lsctl.inv` leaves nothing of the superblocks named in the
cluster's L1 and its L0s, all that the L1 had dirty of them on its way up in one `WbL` for each line, and every other line as it was;
answers on their way to the L1 bring it no older values of what it gave up (R250); that they lose those words on their way, that
requests name words as not wanted, and the whole-line mask of `lsctl.pf`, are the model's way (log entry 106). `lsctl.pf` asks for the line at the level it names where that lacks words, and changes nothing a program can read. -/
def Obligations.CacheControl : Prop :=
  (∀ f s c, Issues (.lsctlMode f) s c → (c.lanes = [] → Completes (.lsctlMode f) s c (s, 0, [])) ∧
    (∀ l ls, c.lanes = l :: ls →
      let addr := localAddr s c false f.a f.off l
      let m := modeOfCode f.b.toNat
      s.modeReqs = [] → (0x180000 ≤ addr → Traps (.lsctlMode f) s c ⟨6, maskOf [l], 0, false, 1, [(l, addr, 0)]⟩) ∧ (addr < 0x180000 →
      (modeAllowed s c (bankOf addr) m = true → Completes (.lsctlMode f) s c
        (if (bankAt s c.cl (bankOf addr)).mode = m then s else { s with modeReqs := [(c.cl, bankOf addr, m, c.w)] }, 0, [])) ∧
      (modeAllowed s c (bankOf addr) m = false →
        Traps (.lsctlMode f) s c ⟨6, maskOf [l], 0, false, 5, [(l, addr, 0)]⟩)))) ∧
  (∀ f s c, Issues (.lsctlInv f) s c →
    let addr := globalAddr s c false f.a f.off
    (∀ l ∈ c.lanes, canonical (addr l) = true ∧ addr l % 4 = 0) →
    let named (tag : AsidTag) (va : Nat) : Prop := tag = c.tag ∧ ∃ l ∈ c.lanes, va / 512 = addr l / 512
    let here (k : CKey) : Prop := named k.tag k.va ∧ (k.node = .l1 c.cl ∨ ∃ d, k.node = .l0 d ∧ d / 4 = c.cl)
    ∃ t, Completes (.lsctlInv f) s c (t, 0, []) ∧
      t = { s with
        caches := t.caches, dirs := t.dirs, net := t.net, nacked := t.nacked, txns := t.txns, l1ways := t.l1ways, ntLines := t.ntLines } ∧
      (∀ k, (here k → kvFind t.caches k = none) ∧ (¬ here k → kvFind t.caches k = kvFind s.caches k)) ∧
      ∃ before sent, t.net = before ++ sent ∧ List.Forall₂ (Thinned s (.l1 c.cl) named) s.net before ∧
        (∀ m ∈ sent, m.kind = .wbL ∧ m.src = .l1 c.cl ∧ m.dst = .die (dieOf c.cl) ∧
          named m.tag (128 * m.line) ∧ m.words = dirtyWords s (.l1 c.cl) m.tag m.line ∧ m.mask = maskOfWords m.words) ∧
        ∀ line, named c.tag (128 * line) → dirtyWords s (.l1 c.cl) c.tag line ≠ [] → ∃ m ∈ sent, m.line = line) ∧
  (∀ f s c, Issues (.lsctlPf f) s c → ∃ t, Completes (.lsctlPf f) s c (t, 0, []) ∧ t.lstore = s.lstore ∧ t.waves = s.waves ∧
    t.caches = s.caches ∧ t.regPoison = s.regPoison ∧
    (∀ l pa pte above, c.lanes = [l] →
      let addr := globalAddr s c false f.a f.off l
      let n := prefetchNode s c.cl addr f.b.toNat
      canonical addr = true → addr % 4 = 0 → translate s c.tag addr .load c.x.super = (.ok pa pte, s) → parentNode n addr = some above →
      lacking s n c.tag (lineOf addr) wholeLine ≠ 0 →
      t = { s with net := s.net ++ [{ mkMsg .getS n above c.tag (lineOf addr) with mask := wholeLine }] }))

/-- R276 to R280, R290: a collective copy instruction of a wave, with empty `act` too, gives its slice to the operation of its number,
or opens it with it, and makes its token pending for it; where the token is pending for another operation, or the engine holds 16,
it waits. Nothing else changes. -/
def Parts.CopyInstructions : Prop :=
  ∀ i s c kind tok empty a b, Issues i s c → CopySlice i s c kind tok empty a b →
    let k := kvGet c.t.copies c.x.num 0 + 1
    let found := s.copies.find? fun e => e.2.team = c.x.team && e.2.k = k
    let slice : Slice := ⟨c.x.num, kind, c.words.getD 1 0, tok, empty || decide (c.act = 0), a, b⟩
    let busy := (tokenAt c.t tok).op.isSome = true ∧ (tokenAt c.t tok).op ≠ found.map (·.1)
    let opened : CopyOp :=
      { team := c.x.team, cl := c.cl, k, tag := c.tag, slices := [slice], gathered := false, moves := [], fault := none, gone := false
        pois := false, marks := [], faulting := [], pages := [], cover := [] }
    let gives (id : Nat) (op : CopyOp) : Prop := ∃ t y, Completes i s c (t, 0, []) ∧
      t = { s with copies := t.copies, teams := t.teams, waves := t.waves, serial := t.serial } ∧ WaveSet { t with waves := s.waves } c.w y t ∧
      y = withSlot c.x c.r.b { c.sl with copy := k } ∧ kvFind t.copies id = some op ∧ (∀ n, n ≠ id → kvFind t.copies n = kvFind s.copies n) ∧
      findTeam t c.x.team = some { c.t with
        copies := kvPut c.t.copies c.x.num k, toks := c.t.toks.set tok { tokenAt c.t tok with op := some id } } ∧
      ∀ n, n ≠ c.x.team → findTeam t n = findTeam s n
    (busy → exec i s = .next s) ∧
    (¬ busy → found = none → 16 ≤ (s.copies.filter fun e => e.2.cl = c.cl).length → exec i s = .next s) ∧
    (¬ busy → found = none → (s.copies.filter fun e => e.2.cl = c.cl).length < 16 → gives s.serial opened) ∧
    (∀ id op, ¬ busy → found = some (id, op) → gives id { op with slices := op.slices ++ [slice] })

/-- R290, R294, R331: `tkq` reads a token's status with PEND, `tkq.clr` reads and clears it, `tkq.addr` reads its address, `mmstat` its
report; with empty `act` they do nothing. -/
def Parts.TokenQueries : Prop :=
  let status (c : Ctx) (n : Nat) : Word := (tokenAt c.t n).status ||| (if (tokenAt c.t n).op.isSome then 16 else 0)
  (∀ f, Gives (.tkq f) 0 fun c _ => if c.act = 0 then [] else [.group f.d.toNat (status c f.tok.toNat)]) ∧
  (∀ f s c, Issues (.tkqClr f) s c → Completes (.tkqClr f) s c
    (if c.act = 0 then s else setToken s c.x.team f.tok.toNat fun x => { x with status := 0 }, 0,
      if c.act = 0 then [] else [.group f.d.toNat (status c f.tok.toNat)])) ∧
  (∀ f, Gives (.tkqAddr f) 0 fun c _ => if c.act = 0 then [] else
    [.group f.d.toNat (loWord (tokenAt c.t f.tok.toNat).addr), .group (f.d.toNat + 1) (hiWord (tokenAt c.t f.tok.toNat).addr)]) ∧
  (∀ f, Gives (.mmstat f) 0 fun c _ => if c.act = 0 then [] else [.group f.d.toNat (tokenAt c.t f.tok.toNat).report])

/-- R276 to R280, R290, R294, R331: copy instructions and token queries. -/
def Obligations.CopyIssue : Prop := Parts.CopyInstructions ∧ Parts.TokenQueries

/-- R306 to R316: an `mma` that is not attached, its operands landed and its checks passed, forms its operation: the format word of the
vote, the operands as read now, the register blocks it goes on reading under LA. `mma.j` forms its team's part, numbered, and waits for
the members' comparison; it retires once that has passed, or its cohort is broken. An invalid or diverging format traps with cause 4.
An attached `mma` whose wave is not the team's last gives its operation what it would form, and an `mma.j` then waits; where its copy
has completed already, path M reads what that wrote (R258, R295). With empty `act`
an `mma` that is not attached does nothing. -/
def Parts.MatrixFormed : Prop :=
  (∀ i joint f s c l, (joint = false ∧ i = .mma f) ∨ (joint = true ∧ i = .mmaJ f) → Issues i s c → c.sl.joint = none → f.fol = false →
    MatQuiet s c → c.x.landings = [] → c.x.locals = [] → s.regPoison = [] → c.lanes.head? = some l →
    let w := srcLane s c f.d l
    let kx := if joint then quarterLen w else 4 * quarterLen w
    let a := takeOperand s c f.asrc f.a (blockRegs c.x (fmtA w) (planesA w) kx)
    let b := takeOperand s c f.bsrc f.b (blockRegs c.x (fmtB w) (planesB w) kx)
    let op : MatOp :=
      { newMat c (if joint then .joint else .solo) f.tok f.tile with
        fmt := w, a, b, col := f.col.toNat, windows := readWindows c f, formed := true, seq := s.serial + 1
        num := if joint then c.t.joints else 0, fault := if joint && cohortBroken s (newMat c .joint f.tok f.tile) then some 9 else none }
    (voteFails s c joint f w = true → Traps i s c (plainFail 4)) ∧
    (voteFails s c joint f w = false → operandFail c joint w a b = none →
      (tokenAt c.t f.tok.toNat).op = none → (s.mats.filter fun m => m.2.cl = c.cl && m.2.formed).length < 16 →
      ∃ t, Formed s c f.tok.toNat op t ∧
        (joint = false → Completes i s c (t, 0, []) ∧ t.waves = s.waves) ∧
        (joint = true → exec i s = .next t ∧
          WaveSet { t with waves := s.waves } c.w (withSlot c.x c.r.b { c.sl with joint := some s.serial }) t))) ∧
  (∀ i joint f s c l, (joint = false ∧ i = .mma f) ∨ (joint = true ∧ i = .mmaJ f) → Issues i s c → c.sl.joint = none → f.fol = true →
    MatQuiet s c → c.x.landings = [] → c.x.locals = [] → s.regPoison = [] → c.lanes.head? = some l →
    (∀ m ∈ s.mats, m.2.team = c.x.team → m.2.attached ≠ some c.sl.copy) → (tokenAt c.t f.tok.toNat).op = none →
    (∃ v ∈ c.t.waves, ∃ x, findWave s v = some x ∧ x.alive ≠ 0 ∧ x.num ≠ c.x.num) →
    let w := srcLane s c f.d l
    let kx := if joint then quarterLen w else 4 * quarterLen w
    let a := takeOperand s c f.asrc f.a (blockRegs c.x (fmtA w) (planesA w) kx)
    let b := takeOperand s c f.bsrc f.b (blockRegs c.x (fmtB w) (planesB w) kx)
    let ended := kvGet c.t.copyDone c.sl.copy 0
    let op : MatOp :=
      { blankMat c.x.team c.cl (if joint then .joint else .solo) (some c.sl.copy) f.tok.toNat f.tile.toNat with
        fault := if ended = 1 ∨ ended = 3 then some 8 else none
        supplies := [⟨c.x.num, false, w, a, b, readWindows c f, f.tok.toNat, f.tile.toNat, f.col.toNat⟩] }
    let copied (e : Older) : Bool := e.team = c.x.team && e.op = some c.sl.copy
    let t := { s with
      serial := s.serial + 1, mats := kvPut s.mats s.serial op
      older := if (kvFind c.t.copyDone c.sl.copy).isSome = true then (freshen s 4 copied).older else s.older }
    ((kvFind c.t.copyDone c.sl.copy).isSome = true → ∀ e ∈ t.older, (∃ o ∈ s.older, o.key = e.key ∧ copied o = true) →
      e.readers.getLsbD 2 = false) ∧
    (voteFails s c joint f w = true → Traps i s c (plainFail 4)) ∧
    (voteFails s c joint f w = false → operandFail c joint w a b = none →
      (joint = false → Completes i s c (t, 0, [])) ∧
      (joint = true → exec i s = .next (onSlot t c.r fun sl => { sl with joint := some s.serial })))) ∧
  (∀ i f s c, i = .mma f ∨ i = .mmaJ f → Issues i s c → c.sl.joint = none → MatQuiet s c → f.fol = false → c.act = 0 →
    Completes i s c (s, 0, [])) ∧
  (∀ f s c id op, Issues (.mmaJ f) s c → c.sl.joint = some id → kvFind s.mats id = some op →
    (op.fault ≠ some divergedMark → op.compared = true ∨ cohortBroken s op = true → Completes (.mmaJ f) s c (s, 0, [])) ∧
    (op.fault ≠ some divergedMark → op.compared = false → cohortBroken s op = false → exec (.mmaJ f) s = .next s) ∧
    (op.fault = some divergedMark → exec (.mmaJ f) s = .next (takeTrap
      (onSlot { s with mats := kvErase s.mats id } c.r fun sl => { sl with joint := none }) c.w (trapInfo c (plainFail 4)))))

/-- R103, R107, R329, R330: the rows of a tile. `mmrd` reads entries rounded by `%fpmode`, `mmwr` writes them from lane registers,
`mmwr.zero` clears the tile; no other entry changes. Each waits for the operations that stand before it on the tile, and with empty
`act` does nothing. -/
def Obligations.TileRows : Prop :=
  (∀ i tile s c, (∃ f, i = .mmrd f ∧ tile = f.tile) ∨ (∃ f, i = .mmwr f ∧ tile = f.tile) ∨ (∃ f, i = .mmwrZero f ∧ tile = f.tile) →
    Issues i s c → MatQuiet s c →
    (c.act ≠ 0 → tileBusy s c.x.team tile.toNat none = true → exec i s = .next s) ∧
    (c.act = 0 → ∃ la, Completes i s c (s, la, []))) ∧
  (∀ f s c, Issues (.mmrd f) s c → MatQuiet s c → c.act ≠ 0 →
    let phys := c.t.tiles.getD f.tile.toNat 0
    let h := c.x.width / 32
    let m7 := c.x.fpmode
    let entry (m l : Nat) : Nat := 32 * (f.row0.toNat + m * h + l / 32) + l % 32
    let upper (m l : Nat) : Nat := 32 * (f.row0.toNat + 2 * (m * h + l / 32)) + l % 32
    let got (e : Nat) : FVal := decodeE (tileEntry s c.cl phys e)
    (tileBusy s c.x.team f.tile.toNat none = false → (∀ e, entryPoison (tileEntry s c.cl phys e) = false) →
      (f.bf16 = false → Completes (.mmrd f) s c (s, f.la.toNat, c.lanes.flatMap fun l => (List.range (f.n.toNat / h)).map fun m =>
        .lane (f.d.toNat + m) l (BitVec.ofNat 32 (rounded fmtF32 m7 (got (entry m l)))))) ∧
      (f.bf16 = true → Completes (.mmrd f) s c (s, f.la.toNat, c.lanes.flatMap fun l => (List.range (f.n.toNat / (2 * h))).map fun m =>
        .lane (f.d.toNat + m) l (BitVec.ofNat 32 (rounded fmtBf16 m7 (got (upper m l)) + 2 ^ 16 * rounded fmtBf16 m7 (got (upper m l + 32)))))))) ∧
  (∀ f s c, Issues (.mmwr f) s c → MatQuiet s c → c.act ≠ 0 → tileBusy s c.x.team f.tile.toNat none = false →
    c.x.width = 32 ∨ c.x.width = 64 →
    let phys := c.t.tiles.getD f.tile.toNat 0
    let entry (m l : Nat) : Nat := 32 * (f.row0.toNat + m * (c.x.width / 32) + l / 32) + l % 32
    let cnt := f.n.toNat / (c.x.width / 32)
    ∃ t, Completes (.mmwr f) s c (t, 0, []) ∧ t = { s with tiles := t.tiles } ∧
      (∀ l ∈ c.lanes, ∀ m < cnt, tileEntry t c.cl phys (entry m l) =
        encodeE (decodeF fmtF32 (readLane s c.w c.x (f.a.toNat + m) l).toNat)) ∧
      (∀ cl p e, ¬ (cl = c.cl ∧ p = phys ∧ ∃ l ∈ c.lanes, ∃ m < cnt, e = entry m l) → tileEntry t cl p e = tileEntry s cl p e)) ∧
  (∀ f s c, Issues (.mmwrZero f) s c → MatQuiet s c → c.act ≠ 0 → tileBusy s c.x.team f.tile.toNat none = false →
    let phys := c.t.tiles.getD f.tile.toNat 0
    ∃ t, Completes (.mmwrZero f) s c (t, 0, []) ∧ t = { s with tiles := t.tiles } ∧ (∀ e, tileEntry t c.cl phys e = 0) ∧
      (∀ cl p e, ¬ (cl = c.cl ∧ p = phys) → tileEntry t cl p e = tileEntry s cl p e))

/-- R332: an `mmcvt` whose checks pass forms one operation on its tile, with the descriptor and `%fpmode` as they are now. -/
def Parts.ConversionFormed : Prop :=
  ∀ i np f s c, (np = false ∧ i = .mmcvtBf16 f) ∨ (np = true ∧ i = .mmcvtNp8 f) → Issues i s c → MatQuiet s c → c.x.landings = [] → c.x.locals = [] →
    (c.act = 0 → Completes i s c (s, 0, [])) ∧
    (c.act ≠ 0 → cvtFail s c np f = none → (tokenAt c.t f.tok.toNat).op = none →
      (s.mats.filter fun m => m.2.cl = c.cl && m.2.formed).length < 16 →
      let op : MatOp :=
        { newMat c (if np then .cvtNp8 else .cvtBf16) f.tok f.tile with
          fmt := zext 32 c.x.fpmode, a := .scratch (readGroup s c.x f.a.toNat) (readGroup s c.x (f.a.toNat + 1))
          scaleAddr := if np then (readGroup s c.x f.b.toNat).toNat else 0, formed := true, seq := s.serial + 1 }
      ∃ t, Completes i s c (t, 0, []) ∧ Formed s c f.tok.toNat op t ∧ t.waves = s.waves) ∧
    (∀ g, c.act ≠ 0 → cvtFail s c np f = some g → Traps i s c g)

/-- R306 to R316, R332: `mma` and `mmcvt` form their operations. -/
def Obligations.MatrixIssue : Prop := Parts.MatrixFormed ∧ Parts.ConversionFormed

/-- R125, R371, R373, R375: `spawn` pushes one record for each lane of `act` at its issue, in lane order, onto its core's task queue, once the additions to
the frames that are not 0 have come back; with no task slots the records are counted as errors. With empty `act` it does nothing. -/
def Parts.SpawnPushes : Prop :=
  ∀ f s c ls, Issues (.spawn f) s c → ReadAt c (spawnOperands s c f) ls → ls.map (·.lane) = c.lanes →
    let rs := ls.map fun l => (l.lane, (⟨BitVec.ofNat 64 l.va, BitVec.ofNat 32 l.x, zext 32 f.entry⟩ : TaskRec))
    (c.act = 0 → Completes (.spawn f) s c (s, 0, [])) ∧
    (c.act ≠ 0 → acquireWaits c = false → ((∀ r ∈ rs, r.2.frame = 0) ∧ c.x.progress = none) ∨
        ((asked c = true ∨ phaseOf c = pushMark) ∧ (∀ i < (framesOf rs).length, ∃ g ∈ resultsOf c, g.1 = i) ∧
          ∀ g ∈ resultsOf c, g.2.2 = false) →
      (progressOf c).all (fun p => p.pushed = 0) = true →
      (∀ q, kvFind s.tasks c.core = some q → c.la.ker.tslot ≠ 0 → q.launch = c.t.launch → q.chip.length + rs.length ≤ 32 →
        ∃ t, Completes (.spawn f) s c (t, 0, []) ∧ t = { clearProgress s c with tasks := t.tasks } ∧
          kvFind t.tasks c.core = some { q with chip := q.chip ++ rs.map (·.2) } ∧ ∀ k, k ≠ c.core → kvFind t.tasks k = kvFind s.tasks k) ∧
      (c.la.ker.tslot = 0 → ∃ t, Completes (.spawn f) s c (t, 0, []) ∧ t = { clearProgress s c with launches := t.launches } ∧
        findLaunch t c.t.launch = some { c.la with taskerr := c.la.taskerr + rs.length }))

/-- R374: `tdone` without a frame ends every alive lane of its wave; with one, when the decrement has come back and it was not the last,
the wave ends too, after the acquire; when it was the last, the continuation read with it is pushed and the wave ends. With empty
`act` it does nothing. -/
def Parts.TdoneEnds : Prop :=
  ∀ f s c fr, Issues (.tdone f) s c → ReadAt c [⟨0, (readGroupPair s c.x f.a.toNat).toNat, 0, 0⟩] [⟨0, fr, 0, 0⟩] →
    let ended (s₁ : State) := ∃ t y, Completes (.tdone f) s c (t, 0, []) ∧ findWave t c.w = some y ∧ y.alive = 0 ∧ y.a = Slot.idle ∧
      y.b = Slot.idle ∧ (∀ v, v ≠ c.w → findWave t v = findWave s v) ∧
      t = { s₁ with waves := t.waves, latches := s.latches.filter fun e => e.slot.wave ≠ c.w }
    (c.act = 0 → Completes (.tdone f) s c (s, 0, [])) ∧
    (c.act ≠ 0 → fr = 0 → ended s) ∧
    (∀ v rest, c.act ≠ 0 → fr ≠ 0 → acquireWaits c = false → asked c = true → resultsOf c = (0, v, false) :: rest → v ≠ 1 →
      ended (selfInvalidate s c.cl 2)) ∧
    (∀ w0 w1 w2 w3 q, c.act ≠ 0 → fr ≠ 0 → acquireWaits c = false → asked c = true ∨ phaseOf c = pushMark →
      resultsOf c = [(0, 1, false), (1, (w0 : Word).toNat, false), (2, (w1 : Word).toNat, false), (3, (w2 : Word).toNat, false),
        (4, (w3 : Word).toNat, false)] →
      kvFind s.tasks c.core = some q → c.la.ker.tslot ≠ 0 → q.launch = c.t.launch → q.chip.length < 32 →
      let s₁ := if phaseOf c = pushMark then s else selfInvalidate s c.cl 2
      ended { s₁ with tasks := kvPut s.tasks c.core { q with chip := q.chip ++ [⟨pairOf w0 w1, w2, w3⟩] } })

/-- R371 to R375: `spawn` and `tdone`. -/
def Obligations.Tasks : Prop := Parts.SpawnPushes ∧ Parts.TdoneEnds

/-- R365: `launch`, its record read, puts it into the device launch queue with its issuer's ASID and mode; with the queue full it waits;
with empty `act` it does nothing. -/
def Obligations.LaunchSubmits : Prop :=
  ∀ f s c va, Issues (.launch f) s c → ReadAt c [⟨0, (readGroupPair s c.x f.a.toNat).toNat, 0, 0⟩] [⟨0, va, 0, 0⟩] →
    (c.act = 0 → Completes (.launch f) s c (s, 0, [])) ∧
    (∀ w : Nat → Word, c.act ≠ 0 → acquireWaits c = false →
      resultsOf c = (List.range 32).map (fun j => (j, (w j).toNat, false)) → l1Ways s c.cl ≠ 0 →
      (s.devq.length < 1024 → Completes (.launch f) s c ({ clearProgress s c with devq := s.devq ++
        [⟨(List.range 32).flatMap fun j => (List.range 4).map fun i => field (w j) (8 * i) 8, c.tag, c.x.super⟩] }, 0, [])) ∧
      (1024 ≤ s.devq.length → exec (.launch f) s =
        .next (keepsReading (noteVas (keepProgress s c contMark (resultsOf c)) c []) c [⟨0, va, 0, 0⟩])))

/-- R361 to R363, R379: a `bar`, nothing being left to release at its scope, arrives for its wave and stands until the generation
has completed; then it retires with the absent mark in g[D]. With empty `act` it does nothing but leave its slot's wait. -/
def Parts.BarrierArrives : Prop :=
  ∀ i id d s c, (∃ f, i = .tbar f ∧ id = .team ∧ d = f.d.toNat) ∨ (∃ f, i = .abar f ∧ id = .asm f.idx.toNat ∧ d = f.d.toNat) ∨
      (∃ f, i = .cbar f ∧ id = .cohort ∧ d = f.d.toNat) → Issues i s c →
    let free := onSlot s c.r fun sl => { sl with bar := none }
    (c.act = 0 → Completes i s c (free, 0, [])) ∧
    (c.act ≠ 0 → c.x.progress = none → (∀ b, c.sl.bar = some b → b.id ≠ id) → PathClean s c (barScope id c.la.ker.cohlv) →
      ∃ t, exec i s = .next t ∧ t = { s with waves := t.waves, teams := t.teams } ∧
        WaveSet { t with waves := s.waves } c.w (withSlot c.x c.r.b { c.sl with bar := some ⟨id, none⟩ }) t ∧
        findTeam t c.x.team = some { c.t with
          arrived := if c.t.arrived.contains (id, c.x.num) then c.t.arrived else c.t.arrived ++ [(id, c.x.num)] } ∧
        ∀ k, k ≠ c.x.team → findTeam t k = findTeam s k) ∧
    (c.act ≠ 0 → c.sl.bar = some ⟨id, none⟩ → exec i s = .next s) ∧
    ∀ absent, c.act ≠ 0 → c.sl.bar = some ⟨id, some absent⟩ → Completes i s c (free, 0, [.group d (if absent then 1 else 0)])

/-- R407, R408, R411: a `tlbop` of supervisor mode does its operation for each lane of `act` in turn, a lane's result code in D; where an
operation must wait for the page's requests, or `retire` for the ASID's, it stands and goes on when it issues again. -/
def Parts.TlbOperations : Prop :=
  (∀ i s c d op now ls, (∃ f, i = .tlbopMap f ∧ d = some f.d ∧
        op = (fun t l => mapPage t c.tag l.va (BitVec.ofNat 64 l.x) f.size.toNat f.repl) ∧
        now = c.lanes.map fun l => ⟨l, (srcPair s c false f.a l).toNat, (srcPair s c false f.b l).toNat, 0⟩) ∨
      (∃ f, i = .tlbopUnmap f ∧ d = some f.d ∧ op = (fun t l => unmapPage t c.tag l.va f.size.toNat) ∧
        now = c.lanes.map fun l => ⟨l, (srcPair s c false f.a l).toNat, 0, 0⟩) ∨
      (∃ f, i = .tlbopInval f ∧ d = none ∧ op = (fun t l => invalPage t c.tag l.va f.size.toNat) ∧
        now = c.lanes.map fun l => ⟨l, (srcPair s c false f.a l).toNat, 0, 0⟩) →
    Issues i s c → resultsOf c = [] → ReadAt c now ls → ls.map (·.lane) = c.lanes →
    (∀ rs t, Turns op ls s rs t → t.waves = s.waves → t.lstore = s.lstore →
      Completes i s c (clearProgress t c, 0, match d with
        | some d => rs.map fun e => .lane d.toNat e.1 (BitVec.ofNat 32 e.2)
        | none => [])) ∧
    (∀ before l rest rs t u va level, ls = before ++ l :: rest → Turns op before s rs t → op t l = .wait va level u →
      exec i s = .next (keepsReading (onWave (keepProgress u c pageMark (rs.map fun e => (e.1, e.2, false))) c.w fun x =>
        { x with progress := x.progress.map fun p => { p with shoot := some (c.tag.asid, va, level) } }) c ls))) ∧
  (∀ f s c ls, Issues (.tlbopRetire f) s c → ReadAt c (c.lanes.map fun l => ⟨l, (srcLane s c f.a l).toNat, 0, 0⟩) ls →
    (ls = [] → Completes (.tlbopRetire f) s c (s, 0, [])) ∧
    (∀ l rest t, ls = l :: rest → retireAsid s (BitVec.ofNat 16 l.va) = some t → Completes (.tlbopRetire f) s c (clearProgress t c, 0, [])) ∧
    (∀ l rest, ls = l :: rest → retireAsid s (BitVec.ofNat 16 l.va) = none →
      exec (.tlbopRetire f) s = .next (keepsReading (keepProgress s c pageMark []) c ls)))

/-- R406 to R412: what the operations on a page and on an ASID do. A VA that no page of the size starts at gives 3, a walk that ends
above the leaf 2, a leaf present without REPL 1, an absent one 1 for `unmap`. While a request for the page is under way they wait.
Where `map` and `unmap` give 0 the leaf is the given one, or 0; with `inval` and `retire` they leave no cached word, no TLB entry and no
table pointer of what they have shot down. What a table pointer gives `map` and `unmap`, the 0 that `unmap` writes and an `inval` of an
address that is not canonical are read from the rules by inference (log entry 72), and so are the operation as one step (log entry 73)
and an ASID with VALID = 0, whose pointers alone decide (log entry 117). -/
def Parts.PageOperations : Prop :=
  let shot (t : State) (tag : AsidTag) (va level : Nat) : Prop :=
    (∀ e ∈ t.caches, ¬ (e.1.tag = tag ∧ samePage level va (128 * lineOf e.1.va) = true)) ∧
    (∀ h, ∀ e ∈ kvGet t.tlbs h [], ¬ (e.tag = tag ∧ overlapsPage va level e = true)) ∧
    ∀ h, ∀ e ∈ kvGet t.walkCache h [], ¬ (e.tag.asid = tag.asid ∧ e.field = va / 2 ^ 52)
  (∀ s tag va pte size repl, canonical va = false ∨ va % pageBytes (3 - size) ≠ 0 → mapPage s tag va pte size repl = .result 3 s ∧
    unmapPage s tag va size = .result 3 s) ∧
  (∀ s tag va pte size repl, canonical va = true → va % pageBytes (3 - size) = 0 → pteV pte = false ∨ leafMalformed (3 - size) pte = true →
    mapPage s tag va pte size repl = .result 3 s) ∧
  (∀ s u tag va pte size repl, canonical va = true → va % pageBytes (3 - size) = 0 → pteV pte = true → leafMalformed (3 - size) pte = false →
    (findLeaf s tag.asid va (3 - size) = (none, u) → mapPage s tag va pte size repl = .result 2 u) ∧
    (∀ addr old, findLeaf s tag.asid va (3 - size) = (some (addr, old), u) →
      (pteV old = true → repl = false → mapPage s tag va pte size repl = .result 1 u) ∧
      (pteV old = false ∨ repl = true → pageQuiet u tag va (3 - size) = false → mapPage s tag va pte size repl = .wait va (3 - size) u) ∧
      (pteV old = false ∨ repl = true → pageQuiet u tag va (3 - size) = true → memWf u.dram = true →
        ∃ t, mapPage s tag va pte size repl = .result 0 t ∧ memReadN t.dram addr 8 = pte.toNat ∧ shot t tag va (3 - size)))) ∧
  (∀ s u tag va size, canonical va = true → va % pageBytes (3 - size) = 0 →
    (findLeaf s tag.asid va (3 - size) = (none, u) → unmapPage s tag va size = .result 2 u) ∧
    (∀ addr old, findLeaf s tag.asid va (3 - size) = (some (addr, old), u) →
      (pteV old = false ∨ pteLeaf old = false → unmapPage s tag va size = .result 1 u) ∧
      (pteV old = true → pteLeaf old = true → pageQuiet u tag va (3 - size) = false →
        unmapPage s tag va size = .wait va (3 - size) u) ∧
      (pteV old = true → pteLeaf old = true → pageQuiet u tag va (3 - size) = true → memWf u.dram = true →
        ∃ t, unmapPage s tag va size = .result 0 t ∧ memReadN t.dram addr 8 = 0 ∧ shot t tag va (3 - size)))) ∧
  (∀ s tag va size, (canonical va = false → invalPage s tag va size = .result 0 s) ∧
    (canonical va = true → pageQuiet s tag va (3 - size) = false → invalPage s tag va size = .wait va (3 - size) s) ∧
    (canonical va = true → pageQuiet s tag va (3 - size) = true → ∃ t, invalPage s tag va size = .result 0 t ∧ shot t tag va (3 - size))) ∧
  (∀ s t asid, retireAsid s asid = some t →
    (∀ e ∈ t.caches, ¬ (e.1.tag = ⟨asid, asidGen s asid⟩)) ∧ (∀ h, ∀ e ∈ kvGet t.tlbs h [], e.tag ≠ ⟨asid, asidGen s asid⟩) ∧
    (∀ h, ∀ e ∈ kvGet t.walkCache h [], e.tag ≠ ⟨asid, asidGen s asid⟩) ∧
    (∀ e ∈ t.teams, e.2.tag.asid = asid → e.2.tag.gen = asidGen s asid + 1) ∧
    (∀ e ∈ t.copies, e.2.tag.asid = asid → e.2.tag.gen = asidGen s asid + 1) ∧
    (∀ e ∈ t.launches, e.2.tag.asid = asid → e.2.tag.gen = asidGen s asid + 1) ∧
    ∀ e ∈ t.devq, e.tag.asid = asid → e.tag.gen = asidGen s asid + 1)

/-- R406 to R412: `tlbop`, and what the operations on a page and on an ASID do. -/
def Obligations.Translations : Prop := Parts.TlbOperations ∧ Parts.PageOperations

/-- R45, R49, R55: a slot that runs at a clause header with nothing half done fetches its clause: a header that fails step 1 raises cause
1, instructions that fail step 2 raise cause 3, with the header in the frame; else the clause's words are the slot's, which goes on
at the first instruction. -/
def Obligations.ClauseFetches : Prop :=
  ∀ s r x l la h body, findWave s r.wave = some x → launchOfWave s r.wave = some (l, la) →
    let sl := slotOf x r.b
    let left := onSlot s r fun y => { y with act := none, joined := false }
    sl.st = .run → sl.clause = [] → sl.woff = 0 → sl.joined = false → x.progress = none → x.pending = none →
    fetchHeld s la.tag sl.pc.toNat = false →
    TextStands s (clusterOf r.wave) la.tag x.super sl.pc.toNat (h :: body) → WordsOf (field h 0 4).toNat body →
    (¬ HeaderSound h → exec (.clauseFetch r) s = .next (takeTrap left r.wave (clauseFrame r.b 1 sl.pc h))) ∧
    (HeaderSound h → instrsBad (field h 4 3).toNat body 0 31 = true →
      exec (.clauseFetch r) s = .next (takeTrap left r.wave (clauseFrame r.b 3 sl.pc h))) ∧
    (HeaderSound h → instrsBad (field h 4 3).toNat body 0 31 = false →
      exec (.clauseFetch r) s = .next (onSlot s r fun y => { y with clause := h :: body, header := some h, pc := sl.pc + 4, woff := 1 }))

/-- R70, R165, R221, R127, R169, R50, R368, R380: results under lookahead land in their registers; a waiting local access is performed;
a spilled block of the fork stack comes back on chip; a hold, a yield and a yield hint end, and a slot comes of age, once their cycles
have passed (cycles as `%clock` and DCLK count them, log entry 12); a pending trap is entered. -/
def Obligations.WaveEvents : Prop :=
  (∀ s w x e rest, findWave s w = some x → WaveShaped x → memWf s.lstore = true → x.landings = e :: rest → e.sup = x.super →
    (∀ r ∈ e.writes, match r with
      | .lane _ l _ => l < x.width
      | .group n _ => n < x.gregs ∨ svGroup x n = true) →
    ∃ t y, exec (.loadCompletion w 0) s = .next t ∧ findWave t w = some y ∧
      y = { x with g := y.g, svG := y.svG, svV := y.svV, landings := rest } ∧ (∀ n, groupReg y n = lastGroup e.writes n (groupReg x n)) ∧
      (∀ n l, l < x.width → laneReg t w y n l = lastLane e.writes n l (laneReg s w x n l)) ∧ ∀ v, v ≠ w → findWave t v = findWave s v) ∧
  (∀ s w x a ln, let cl := clusterOf w
    findWave s w = some x → WaveShaped x → memWf s.lstore = true → x.locals = [a] → a.lanes = [ln] → ln.lane < x.width → a.fe = 2 →
    a.superseded = [] → a.sup = x.super → (bankAt s cl (bankOf ln.addr)).mode = .scr → (bankAt s cl (bankOf ln.addr)).copying = false →
    (a.kind = .store → granFull s cl ln.addr = false → ∃ t y, exec (.localAccessPerformed w 0) s = .next t ∧ findWave t w = some y ∧
      y.locals = [] ∧ localNat t cl ln.addr (storeBytes a.sub) = ln.x % 2 ^ (8 * storeBytes a.sub) ∧ granFull t cl ln.addr = true ∧
      ∀ k, k < lsKey cl ln.addr ∨ lsKey cl ln.addr + storeBytes a.sub ≤ k → memRead t.lstore k = memRead s.lstore k) ∧
    (a.kind = .load → a.group = false → a.sub = 4 → granFull s cl ln.addr = true → granPoison s cl ln.addr = false →
      ∃ t y, exec (.localAccessPerformed w 0) s = .next t ∧ findWave t w = some y ∧ y.locals = [] ∧ granFull t cl ln.addr = false ∧
        laneReg t w y a.d ln.lane = localWord s cl ln.addr)) ∧
  (∀ s w x l la (v : Nat → Word), let base := x.spillBase + 256 * (x.spilled - 1)
    findWave s w = some x → launchOfWave s w = some (l, la) → memWf s.lstore = true → x.depth = 0 → x.spilled ≠ 0 → x.alive ≠ 0 →
    canonical base = true → shooting s la.tag.asid base = false → (∃ p e, translate s la.tag base .load false = (.ok p e, s)) →
    gatherWords s (forkAsker w la.tag) 8 ((List.range 64).map fun i => (i, base + 4 * i)) =
      (List.range 64).map (fun i => (i, (v i).toNat, false)) → l1Ways s (clusterOf w) ≠ 0 →
    ∃ t, exec (.forkStackRefill w) s = .next (settleSlots t w la.ker.sig 64) ∧
      WaveSet { s with lstore := t.lstore, regPoison := t.regPoison } w { x with depth := 8, spilled := x.spilled - 1 } t ∧
      ∀ i < 64, localWord t (clusterOf w) (entryAddr x 0 + 4 * i) = v i) ∧
  (∀ s core n e x, (s.latches.filter fun e => e.core = core)[n]? = some e → findWave s e.slot.wave = some x →
    let idle := cyclesSince s (clusterOf e.slot.wave) (slotOf x e.slot.b).issuedAt
    exec (.latchHoldTimeout core n) s = .next (if 64 ≤ idle then { s with latches := s.latches.erase e } else s)) ∧
  (∀ s r x, findWave s r.wave = some x →
    let past (time : DWord) : Nat := cyclesSince s (clusterOf r.wave) time
    let left (tm : Option Timer) : Option Timer := match tm with
      | some tm => if tm.cycles ≤ past tm.since then none else some tm
      | none => none
    let set (f : Slot → Slot) (t : State) := WaveSet s r.wave (withSlot x r.b (f (slotOf x r.b))) t
    (∃ t, exec (.yieldExpiry r) s = .next t ∧ set (fun sl => { sl with yielding := left sl.yielding }) t) ∧
    (∃ t, exec (.yieldHintExpiry r) s = .next t ∧ set (fun sl => { sl with ranked := left sl.ranked }) t) ∧
    (∀ time, (slotOf x r.b).st = .run → (slotOf x r.b).since = some time → ∃ t, exec (.issueAgeLimit r) s = .next t ∧
      set (fun sl => { sl with aged := sl.aged || 64 ≤ past time }) t)) ∧
  (∀ s w x i, findWave s w = some x → x.pending = some i → (x.progress = none ∨ i.cause = 11) → exec (.trapEntry w) s = .next (takeTrap s w i))

/-- R265, R268, R271: a read whose words a node has, no other child's being dirty, is answered with what it has of the line, and its
requester recorded, as E where it alone has the line; else the dirty children are asked first, or the node above. A home whose line
awaits its rebuild refuses a request. -/
def Parts.ReadRequests : Prop :=
  (∀ s n m u, m.kind = .getS → Handles s n m false u →
    let dst := m.dst
    let kids := holders s dst m.tag m.line
    let others := kids.filter fun h => h.1 ≠ m.src
    let dirty := (others.filter fun h => h.2.dr ≠ 0).map (·.1)
    let r := dirAt s dst m.tag m.line m.src
    let v := if r.st = .i ∨ r.st = .e ∨ r.st = .s then putDir u dst m.tag m.line m.src ⟨if others = [] then .e else .s, 0, 0⟩ else u
    let short := lacking s dst m.tag m.line m.mask
    let wanted (l : List MWordData) := l.filter fun w => !(maskOfWords m.words).getLsbD w.idx
    (dirty ≠ [] → Leaves (.getS n) s m (sendAll (putTxn u (awaiting dst m dirty)) (dirty.map fun o => plainMsg .fwdS dst o m))) ∧
    (dirty = [] → (∀ h, dst ≠ .home h) → (∀ b, dst ≠ .bridge b) → short = 0 → let ws := wanted (usableWords s dst m.tag m.line)
      Leaves (.getS n) s m (send v { plainMsg .dataC dst m.src m with mask := maskOfWords ws, words := ws })) ∧
    (dirty = [] → (∀ h, dst ≠ .home h) → (∀ b, dst ≠ .bridge b) → short ≠ 0 → ∀ p, parentNode dst (128 * m.line) = some p →
      Leaves (.getS n) s m (send (putTxn u (asksUp dst m [])) { plainMsg .getS dst p m with mask := wholePairs short &&& m.mask })) ∧
    (dirty = [] → ∀ b p, dst = .bridge b → m.mask ≠ 0 → parentNode dst (128 * m.line) = some p →
      Leaves (.getS n) s m (send (putTxn u (asksUp dst m [])) { plainMsg .getS dst p m with mask := m.mask })) ∧
    (dirty = [] → ∀ h (w : Nat → Word) (b : Nat → Bool), dst = .home h →
      (∀ i < 32, homeWord u m.tag (128 * m.line + 4 * i) = (some (w i, b i), u)) →
      let ws := wanted ((List.range 32).map fun i => ⟨i, w i, b i⟩)
      Leaves (.getS n) s m (send v { plainMsg .dataC dst m.src m with mask := maskOfWords ws, words := ws }))) ∧
  (∀ s n m u, m.kind = .getS ∨ m.kind = .getW ∨ m.kind = .wbW → Handles s n m true u →
    Leaves (msgEvent m.kind n) s m (send u { m with kind := .nack, src := m.dst, dst := m.src, req := m.kind, reason := 2 }))

/-- The other children of a claim's node that are registered for words of its mask, with those words. -/
def otherClaims (s : State) (m : Msg) : List (Node × BitVec 32) :=
  ((holders s m.dst m.tag m.line).filter fun h => h.1 ≠ m.src && (h.2.dr ||| h.2.co) &&& m.mask ≠ 0).map fun h =>
    (h.1, (h.2.dr ||| h.2.co) &&& m.mask)

/-- R265, R268: a claim that wants the newest values (the model's way of storing part of a word, log entry 101, and of taking an
atomic's line, log entry 107): others have their words written back and end their copies first; a cache that does not own the words, or
lacks them, claims them in its turn, and gives none of them out meanwhile; then the claimer is registered, as M for the site of an
atomic, acknowledged and sent the words. -/
def Parts.FlushClaims : Prop :=
  ∀ s n m u, m.kind = .getW → Handles s n m false u → m.flush = true →
    let dst := m.dst
    let r := dirAt s dst m.tag m.line m.src
    let os := otherClaims s m
    let dr := if ∃ a, m.atom = some a ∧ a.site = m.src then BitVec.allOnes 32 else r.dr ||| m.mask
    let v := putDir u dst m.tag m.line m.src ⟨if ∃ a, m.atom = some a ∧ a.site = m.src then .m else .w, dr, r.co &&& ~~~dr⟩
    let granted (ws : List MWordData) := let sent := ws.filter fun w => !(maskOfWords m.words).getLsbD w.idx
      Leaves (.getW n) s m (send (send v (plainMsg .writeAck dst m.src m))
        { plainMsg .dataC dst m.src m with mask := maskOfWords sent, words := sent })
    let short := unowned s dst m.tag m.line m.mask ||| lacking s dst m.tag m.line (m.mask &&& ~~~maskOfWords m.words)
    (os ≠ [] → Leaves (.getW n) s m (sendAll (putTxn u (awaiting dst m (os.map (·.1))))
      (os.map fun o => { plainMsg .drop dst o.1 m with mask := o.2, flush := true }))) ∧
    (os = [] → (∀ h, dst ≠ .home h) → (∀ b, dst ≠ .bridge b) → short = 0 → granted (usableWords s dst m.tag m.line)) ∧
    (os = [] → ∀ h (w : Nat → Word) (b : Nat → Bool), dst = .home h →
      (∀ i < 32, homeWord u m.tag (128 * m.line + 4 * i) = (some (w i, b i), u)) →
      granted ((List.range 32).map fun i => ⟨i, w i, b i⟩)) ∧
    (os = [] → (∀ h, dst ≠ .home h) → (∀ b, dst ≠ .bridge b) → short ≠ 0 → (∀ a, m.atom = some a → a.site ≠ dst) → ∀ p,
      parentNode dst (128 * m.line) = some p →
      let want := unowned s dst m.tag m.line m.mask ||| lacking s dst m.tag m.line m.mask
      let held := reserveWords (putTxn u (asksUp dst m [])) dst m.tag m.line want
      Leaves (.getW n) s m (send (voidReads held dst m.tag m.line want)
        { plainMsg .getW dst p m with mask := want, atom := m.atom, flush := true }))

/-- R268, R269, R460: a claim registers its words, of which others' copies end first, and goes up where the node does not own them. A
release push stands at the home, or as dirty words, and is acknowledged; an eviction ends the child's registration,
unless the child holds the line again or an answer is on its way to it, or it precedes the answer to a `Drop`. -/
def Parts.WriteRequests : Prop :=
  (∀ s n m u, m.kind = .getW → Handles s n m false u → m.flush = false → m.atom = none → nestedIn s m = none →
    let dst := m.dst
    let r := dirAt s dst m.tag m.line m.src
    let os := otherClaims s m
    let v := putDir u dst m.tag m.line m.src ⟨.w, r.dr ||| m.mask, r.co &&& ~~~(r.dr ||| m.mask)⟩
    let ack := plainMsg .writeAck dst m.src m
    let lacks := unowned s dst m.tag m.line m.mask
    (os ≠ [] → Leaves (.getW n) s m (sendAll (putTxn u (awaiting dst m (os.map (·.1))))
      (os.map fun o => { plainMsg .drop dst o.1 m with mask := o.2 }))) ∧
    (os = [] → (∃ h, dst = .home h) ∨ ((∀ b, dst ≠ .bridge b) ∧ lacks = 0) → Leaves (.getW n) s m (send v ack)) ∧
    (os = [] → (∀ b, dst ≠ .bridge b) → lacks ≠ 0 → ∀ p, parentNode dst (128 * m.line) = some p → Leaves (.getW n) s m
      (send (send (ownWords v dst m.tag m.line lacks) { plainMsg .getW dst p m with mask := lacks }) ack)) ∧
    (os = [] → ∀ b p, dst = .bridge b → m.mask ≠ 0 → parentNode dst (128 * m.line) = some p →
      Leaves (.getW n) s m (send (send v { plainMsg .getW dst p m with mask := m.mask }) ack))) ∧
  (∀ s n m u h, m.kind = .wbW → Handles s n m false u → m.dst = .home h → m.words ≠ [] → maskOfWords m.words ≠ 0 →
    let v := homeStore u m.tag m.line m.words
    let k := maskOfWords m.words
    let r := dirAt v m.dst m.tag m.line m.src
    let w := putDir v m.dst m.tag m.line m.src ⟨.w, r.dr &&& ~~~k, r.co ||| k⟩
    let os := rivals w m.dst m.tag m.line m.src k
    nestedIn u m = none → nestedIn w m = none →
    (os = [] → Leaves (.wbW n) s m (send w (plainMsg .writeAck m.dst m.src m))) ∧
    (os ≠ [] → Leaves (.wbW n) s m (sendAll (putTxn w (awaiting m.dst m (os.map (·.1))))
      (os.map fun o => { plainMsg .drop m.dst o.1 m with mask := o.2 })))) ∧
  (∀ s n m u w, m.kind = .wbW → Handles s n m false u → (∃ d, m.dst = .die d ∨ m.dst = .stk d) → nestedIn s m = none → m.words = [w] →
    w.idx < 32 → ∃ t, exec (.wbW n) s = .next t ∧
      cwAt t m.dst m.tag (128 * m.line + 4 * w.idx) = some ⟨w.val, w.poison, true, true, false⟩ ∧
      (dirAt t m.dst m.tag m.line m.src).co.getLsbD w.idx = true) ∧
  (∀ s n m u b, m.kind = .wbL → Handles s n m b u → ∃ t, exec (.wbL n) s = .next t ∧
    (m.src ≠ m.dst → m.reason = 2 → dirAt t m.dst m.tag m.line m.src = dirAt s m.dst m.tag m.line m.src) ∧
    (m.src ≠ m.dst → m.reason ≠ 2 → dirAt t m.dst m.tag m.line m.src =
      ⟨if m.reason = 1 ∨ holdsLine s m.src m.tag m.line = true ∨
          ∃ e ∈ s.net, e.kind = .dataC ∧ e.src = m.dst ∧ e.dst = m.src ∧ e.tag = m.tag ∧ e.line = m.line then .s else .i, 0, 0⟩) ∧
    (∀ w, (∃ d, m.dst = .die d ∨ m.dst = .stk d) → nestedIn s m = none → m.words = [w] → w.idx < 32 →
      (registered (dirAt s m.dst m.tag m.line m.src)).getLsbD w.idx = true →
      cwAt t m.dst m.tag (128 * m.line + 4 * w.idx) = some ⟨w.val, w.poison, true, true, false⟩))

/-- R236, R265, R267, R268: an atomic goes on to its site, which recalls the line from its children, claims it whole with its newest
values (log entry 107), is recorded as M, and then performs it. -/
def Parts.AtomicRequests : Prop :=
  (∀ s n m u a, m.kind = .getM ∨ m.kind = .upg → Handles s n m false u → m.atom = some a →
    let hs := holders s m.dst m.tag m.line
    (∀ p, m.dst ≠ a.site → parentNode m.dst (128 * m.line) = some p →
      Leaves (msgEvent m.kind n) s m (send u { m with src := m.dst, dst := p })) ∧
    (m.dst = a.site → hs ≠ [] → Leaves (msgEvent m.kind n) s m (sendAll (putTxn u (awaiting m.dst m (hs.map (·.1))))
      (hs.map fun h => plainMsg (if h.2.dr ≠ 0 then .fwdM else .backInv) m.dst h.1 m))) ∧
    (∀ p, m.dst = a.site → (∀ k, m.dst ≠ .home k) → hs = [] → parentNode m.dst (128 * m.line) = some p →
      siteReady s m.dst m.tag m.line = false →
      let want := unowned s m.dst m.tag m.line (BitVec.allOnes 32) ||| lacking s m.dst m.tag m.line (BitVec.allOnes 32)
      let v := putTxn u (asksUp m.dst m [])
      Leaves (msgEvent m.kind n) s m (if flushOut s m.dst m.tag m.line = true then v else
        send (voidReads (reserveWords v m.dst m.tag m.line want) m.dst m.tag m.line want)
          { plainMsg .getW m.dst p m with mask := BitVec.allOnes 32, atom := some a, flush := true })) ∧
    (m.dst = a.site → hs = [] → ((∃ k, m.dst = .home k) → homeRefuses u m.dst m a = false) →
      ((∀ k, m.dst ≠ .home k) → (∀ p, parentNode m.dst (128 * m.line) = some p → (dirAt s p m.tag m.line m.dst).st = .m) ∧
        ∀ i < 32, usable s m.dst m.tag (128 * m.line + 4 * i) = true) →
      ∀ rs t, performAtomic u m.dst m.tag m.line a = (rs, t) →
        Leaves (msgEvent m.kind n) s m (returnResults t a.wave rs) ∧
        (∀ l w k v, m.dst = .home k → a.lanes = [l] → a.sub ≤ 10 → a.lost = false → a.lostBack = false →
          homeWord u m.tag l.va = (some (w, false), v) →
          rs = [(l.lane, w.toNat, false)] ∧ t = homeStore v m.tag (lineOf l.va)
            [⟨wordIdx l.va, atomWord a.sub w l.x l.y, false⟩]) ∧
        (∀ l c, (∀ k, m.dst ≠ .home k) → a.lanes = [l] → a.sub ≤ 10 → a.lost = false → a.lostBack = false → lineOf l.va = m.line →
          l.va % 4 = 0 → cwAt s m.dst m.tag l.va = some c → c.stale = false → c.poison = false →
          let old := cachedBits s m.tag l.va c.val
          rs = [(l.lane, old.toNat, false)] ∧
            ∃ y, cwAt t m.dst m.tag l.va = some y ∧ y.val = atomWord a.sub old l.x l.y ∧
              y.dirty = true ∧ y.poison = false ∧ y.stale = false ∧ y.owned = true)))

/-- R25, R271, R410: a refused request is put aside and sent again in its old place; a refusal by translation goes on down, to the
lanes of the instruction that asked; words held for a refused claim are given up. -/
def Parts.Refusals : Prop :=
  (∀ s n m u b p, m.kind = .nack → Handles s n m b u → m.reason ≠ 1 → parentNode m.dst (128 * m.line) = some p →
    Leaves (.nack n) s m { u with nacked := u.nacked ++ [{ m with kind := m.req, src := m.dst, dst := p, reason := 0 }] }) ∧
  (∀ s n m u b t, m.kind = .nack → Handles s n m b u → m.reason = 1 → (m.atom = none ∨ m.req = .getW) →
    txnAt s m.dst m.tag m.line false = some t → t.up = true →
    let v := if m.req = .getW then dropReserved u m.dst m.tag m.line m.mask else u
    Leaves (.nack n) s m (send (dropTxn v t)
      { t.msg with kind := .nack, src := m.dst, dst := t.msg.src, req := t.msg.kind, reason := 1 })) ∧
  (∀ s n m u b a cl x, m.kind = .nack → Handles s n m b u → m.reason = 1 → m.atom = some a → m.req ≠ .getW → m.dst = .l1 cl →
    a.wave < 2 ^ 20 → findWave s a.wave = some x → ∃ t, WaveSet u a.wave { x with
      progress := x.progress.map fun p => { p with refused := p.refused ++ a.lanes.map (·.lane) } } t ∧ Leaves (.nack n) s m t) ∧
  (∀ s n m, s.nacked[n]? = some m → exec (.nackReplay n) s = .next { s with nacked := s.nacked.eraseIdx n, net := m :: s.net }) ∧
  (∀ s n m u b, m.kind = .writeAck → Handles s n m b u → Leaves (.writeAck n) s m u)

/-- R223, R264, R268, R459: room. A message that uses a superblock at a stack makes it the most recently used; where its set is full,
the stack sends itself the eviction of the least recently used one's lines, unless `.nt` accesses left another as first candidate. A
directory with more lines in a set than ways does the same; with room, nothing changes. A stack's way of a superblock that is there no
more is free. (The sets of directories and which of their lines leaves are the model's, log entry 24; a node's message to itself, log entry 29.) -/
def Parts.RoomIsMade : Prop :=
  (∀ s m, (∀ k, m.dst ≠ .stk k) → touchNode s m = s) ∧
  (∀ s k tag line, let blk := line / 4
    let rest := s.lru.filter fun e => e ≠ (k, tag, blk)
    let mates := rest.filter fun e => e.1 = k && stkSet e.2.2 = stkSet blk
    let used := { s with lru := rest ++ [(k, tag, blk)] }
    (mates.length < 16 - kvGet s.deadWays (.stk k, stkSet blk) 0 → touchStk s k tag line = used) ∧
    (∀ v vs, mates = v :: vs → 16 - kvGet s.deadWays (.stk k, stkSet blk) 0 ≤ mates.length →
      (∀ e ∈ mates, ntBlock s (.stk k) e.2.1 e.2.2 = false) → ∃ ms, touchStk s k tag line =
        { s with lru := used.lru.filter (fun e => e ≠ v), net := s.net ++ ms } ∧
        ∀ e, e ∈ ms ↔ ∃ l, l / 4 = v.2.2 ∧ holdsLine s (.stk k) v.2.1 l = true ∧ evictsLine s (.stk k) v.2.1 l = false ∧
          e = mkMsg .backInv (.stk k) (.stk k) v.2.1 l)) ∧
  (∀ s k tag blk, let n : Node := .stk k
    let busy : Prop := ∃ i < 4, holdsLine s n tag (4 * blk + i) = true ∨ ∃ t ∈ s.txns, t.node = n ∧ t.msg.tag = tag ∧ t.msg.line = 4 * blk + i
    (busy → releaseWay s k tag blk = s) ∧
    (¬ busy → releaseWay s k tag blk = { s with lru := s.lru.filter fun e => e ≠ (k, tag, blk) })) ∧
  (∀ s n tag line sets, dirSets n = some sets →
    ((dirLines s n sets (line % sets)).length + kvGet s.deadWays (n, line % sets) 0 ≤ 16 → trimDir s n tag line = s) ∧
    (∀ t l, let here := (dirLines s n sets (line % sets)).filter fun e => !evictsLine s n e.1 e.2
      16 < here.length → (here.find? fun e => e ≠ (tag, line)) = some (t, l) →
      trimDir s n tag line = send s (mkMsg .backInv n n t l)))

/-- R265, R268, R269, R271, R460: what a node does with a request of a child, a refusal or an acknowledgement, and the room it makes. The
masks of a `GetS` and its answer, their widening and the words named as not wanted are the model's (log entry 106), and so is the level
by level way of an acknowledgement (log entry 28). -/
def Obligations.RequestMessages : Prop := Parts.ReadRequests ∧ Parts.WriteRequests ∧ Parts.FlushClaims ∧ Parts.AtomicRequests ∧ Parts.Refusals ∧ Parts.RoomIsMade

/-- R266, R268, R269: what a cache does with a message from above: a `FwdS` is answered with its dirty words, which it keeps; a `FwdM`
or `BackInv` takes its line from it, dirty words going up, with `DataD` for an atomic, else with `WbL`; a `Drop` ends its copies of the
words; its own children are asked first; data fills its line, and takes the other half of an 8-byte word with it (R210). A `Drop` for
a claim that wants newest values has the dirty words written back before it is answered (log entry 101). Masks that name words given up
or not wanted, and words that data on its way loses, are the model's (log entry 106); a node's message to itself is too (log entry 29). -/
def Parts.MessagesFromAbove : Prop :=
  (∀ s n m u b, m.kind = .fwdS → Handles s n m b u →
    let ws := dirtyWords s m.dst m.tag m.line
    let hs := ((kids s m.dst m.tag m.line).filter fun h => h.2.dr ≠ 0).map (·.1)
    (hs = [] → Leaves (.fwdS n) s m (send u { plainMsg .dataD m.dst m.src m with mask := maskOfWords ws, words := ws })) ∧
    (hs ≠ [] → Leaves (.fwdS n) s m (sendAll (putTxn u (awaiting m.dst m hs)) (hs.map fun h => plainMsg .fwdS m.dst h m)))) ∧
  (∀ s n m u b, m.kind = .fwdM ∨ m.kind = .backInv → Handles s n m b u →
    let hs := kids s m.dst m.tag m.line
    let ws := dirtyWords s m.dst m.tag m.line
    let v := forgetWords (dropLine u m.dst m.tag m.line) m.dst m.tag m.line (BitVec.allOnes 32)
    let gift (k : MsgKind) (dst : Node) := { plainMsg k m.dst dst m with mask := maskOfWords ws, words := ws }
    (hs ≠ [] → Leaves (msgEvent m.kind n) s m (sendAll (putTxn u (awaiting m.dst m (hs.map (·.1))))
      (hs.map fun h => plainMsg (if m.kind = .fwdM ∧ h.2.dr ≠ 0 then .fwdM else .backInv) m.dst h.1 m))) ∧
    (hs = [] → m.src ≠ m.dst → ws = [] → Leaves (msgEvent m.kind n) s m (send v (plainMsg .invAck m.dst m.src m))) ∧
    (hs = [] → m.src ≠ m.dst → ws ≠ [] → Leaves (msgEvent m.kind n) s m
      (send (send v (gift (if m.kind = .fwdM then .dataD else .wbL) m.src)) (plainMsg .invAck m.dst m.src m))) ∧
    (∀ p, hs = [] → m.src = m.dst → parentNode m.dst (128 * m.line) = some p →
      let kept := maskOfWords ws ||| keptWords s m.dst m.tag m.line ||| bridgeWords s m.dst m.tag m.line
      Leaves (msgEvent m.kind n) s m
        (if kept = 0 then v else send (voidReads v m.dst m.tag m.line kept) (gift .wbL p)))) ∧
  (∀ s n m u b, m.kind = .drop → Handles s n m b u →
    let hs := (kids s m.dst m.tag m.line).filter fun h => registered h.2 &&& m.mask ≠ 0
    let asks := hs.map fun h => { plainMsg .drop m.dst h.1 m with mask := registered h.2 &&& m.mask, flush := m.flush }
    let gone := maskOfWords (dirtyWords s m.dst m.tag m.line) &&& m.mask
    ∃ v, v = forgetWords { u with caches := v.caches } m.dst m.tag m.line m.mask ∧
      (∀ i < 32, m.mask.getLsbD i = true → ∀ c, cwAt v m.dst m.tag (128 * m.line + 4 * i) = some c →
        c.dirty = false ∧ c.stale = false ∧ c.owned = false) ∧
      (∀ k, (k.node ≠ m.dst ∨ k.tag ≠ m.tag ∨ ∀ i < 32, m.mask.getLsbD i = true → k.va ≠ 128 * m.line + 4 * i) →
        kvFind v.caches k = kvFind s.caches k) ∧
      (m.flush = false → (hs = [] → Leaves (.drop n) s m (send v { plainMsg .invAck m.dst m.src m with
          mask := m.mask, words := (maskWords gone).map fun i => ⟨i, 0, false⟩ })) ∧
        (hs ≠ [] → Leaves (.drop n) s m (sendAll (putTxn v ⟨m.dst, m, hs.map (·.1), false, [], [], gone⟩) asks))) ∧
      (m.flush = true →
        let ws := (dirtyWords s m.dst m.tag m.line).filter fun w => m.mask.getLsbD w.idx
        let back := if ws = [] then v else send v { plainMsg .wbL m.dst m.src m with mask := maskOfWords ws, words := ws, reason := 2 }
        (hs = [] → Leaves (.drop n) s m (send back { plainMsg .invAck m.dst m.src m with mask := m.mask })) ∧
        (hs ≠ [] → Leaves (.drop n) s m (sendAll (putTxn u ⟨m.dst, m, hs.map (·.1), false, [], [], gone⟩) asks)))) ∧
  (∀ s n m u b w, m.kind = .dataC → Handles s n m b u → (∃ d, m.dst = .die d ∨ m.dst = .stk d) → m.words = [w] →
    txnAt s m.dst m.tag m.line false = none →
    let va := 128 * m.line + 4 * w.idx
    let half := 128 * m.line + 4 * (w.idx ^^^ 1)
    (∀ c, cwAt s m.dst m.tag va = some c → c.stale = true ∨ (c.dirty = false ∧ c.owned = false)) →
    ∃ t c, exec (.dataC n) s = .next t ∧ cwAt t m.dst m.tag va = some c ∧ c.val = w.val ∧ c.poison = w.poison ∧ c.dirty = false ∧
      c.stale = false ∧ cwAt t m.dst m.tag half = (cwAt s m.dst m.tag half).filter fun c => c.dirty || c.owned) ∧
  (∀ s n m u b t, m.kind = .dataC → Handles s n m b u → (∀ k, m.dst ≠ .bridge k) → txnAt s m.dst m.tag m.line false = some t →
    t.up = true → let v := fillClean u m.dst m.tag m.line m.words
    (t.msg.kind = .getS → Leaves (.dataC n) s m (serveRead (dropTxn v t) m.dst t.msg t.words)) ∧
    (t.msg.kind = .getW → Leaves (.dataC n) s m (serveClaim (dropTxn v t) t.msg [])) ∧
    (t.msg.kind = .getM ∨ t.msg.kind = .upg → Leaves (.dataC n) s m (serveAtomic v m.dst t.msg)))

/-- R265, R268, R269: an answer of a child for which a transaction waits. `InvAck` ends the child's registration for the words of a
`Drop`, or all of it in a recall; `DataD` brings its dirty words, after which it is recorded as O in a read. An answer that is not the
last leaves the transaction waiting for the others; the last one to a claim registers the claimer and acknowledges the claim, as it does a
claim held meanwhile (log entry 108), and the last one to a read serves the reader. -/
def Parts.AnswersOfChildren : Prop :=
  ∀ s n m u b t, m.kind = .invAck ∨ m.kind = .dataD → Handles s n m b u → awaitedBy s m.dst m.tag m.line m.src = some t → t.up = false →
    let rest := t.await.erase m.src
    let r := dirAt s m.dst m.tag m.line m.src
    let ended := dropOlder (unregister u m.dst m.tag m.line m.src m.mask) m (maskOfWords m.words)
    let left (a : Msg) : Msg := if a.kind = .getW ∧ a.src = m.src then { a with mask := a.mask &&& ~~~m.mask } else a
    let given : Txn := { t with await := rest, gone := t.gone ||| maskOfWords m.words }
    let owned := if m.words ≠ [] ∧ (r.st = .w ∨ r.st = .m) then putDir u m.dst m.tag m.line m.src { r with st := .o } else u
    let brought : Txn := { t with await := rest, words := overlay t.words (answerWords s t m) }
    let v := dropTxn ended t
    let claims (w : State) (src : Node) (mask : BitVec 32) : State := let q := dirAt w m.dst m.tag m.line src
      putDir w m.dst m.tag m.line src ⟨.w, q.dr ||| mask, q.co &&& ~~~(q.dr ||| mask)⟩
    let here : Prop := t.node = m.dst ∧ t.msg.tag = m.tag ∧ t.msg.line = m.line ∧ t.msg.dst = m.dst
    (m.kind = .invAck → t.msg.kind = .getW ∨ t.msg.kind = .wbW ∨ t.msg.kind = .drop → rest ≠ [] →
      Leaves (.invAck n) s m (putTxn ended { given with acks := t.acks.map left })) ∧
    (m.kind = .invAck → t.msg.kind = .getM ∨ t.msg.kind = .fwdM ∨ t.msg.kind = .backInv → rest ≠ [] →
      Leaves (.invAck n) s m (putTxn (putDir u m.dst m.tag m.line m.src ⟨.i, 0, 0⟩) given)) ∧
    (∀ h, m.kind = .invAck → m.dst = .home h → here → t.msg.kind = .getW → t.msg.flush = false → t.msg.atom = none → rest = [] →
      t.acks = [] → Leaves (.invAck n) s m (send (claims v t.msg.src t.msg.mask) (plainMsg .writeAck m.dst t.msg.src m))) ∧
    (m.kind = .invAck → here → t.msg.kind = .getW → t.msg.flush = true → rest = [] → t.acks = [] →
      Leaves (.invAck n) s m (serveClaim v t.msg [])) ∧
    (∀ h a, m.kind = .invAck → m.dst = .home h → here → t.msg.kind = .wbW → rest = [] → t.acks = [a] → a.kind = .getW → a.dst = m.dst →
      a.tag = m.tag → a.line = m.line → a.atom = none → Leaves (.invAck n) s m (send (send
        (if (left a).mask = 0 then v else claims v a.src (left a).mask) (plainMsg .writeAck m.dst a.src m))
        (plainMsg .writeAck m.dst t.msg.src m))) ∧
    (m.kind = .dataD → t.msg.kind = .getS → rest ≠ [] → Leaves (.dataD n) s m (putTxn owned brought)) ∧
    (m.kind = .dataD → t.msg.kind = .getS → rest = [] → t.acks = [] →
      Leaves (.dataD n) s m (serveRead (dropTxn owned t) t.node t.msg brought.words)) ∧
    (m.kind = .dataD → t.msg.kind = .getM ∨ t.msg.kind = .fwdM →
      Leaves (.dataD n) s m (putTxn u { t with words := overlay t.words (answerWords s t m) }))

/-- R266, R268, R269: what a cache does with a message from above, and a node with its children's answers. -/
def Obligations.AnswerMessages : Prop := Parts.MessagesFromAbove ∧ Parts.AnswersOfChildren

/-- R277, R278, R284, R288, R290, R216, R285, R287: an operation whose waves have all supplied slices is checked: slices that disagree
give detail 4, else the lowest detail met, and with none met its moves are laid out; a granule whose words the L1 gives goes to its
local destination, and a peer copy whose port serves its space no more is detail 6 and moves nothing more; with nothing left the
operation completes with its status, and a matrix operation attached to one that failed or was dropped is detail 8; a write that
arrives is stored with F set and its poison; its allocation gone, or the bank another's, it is dropped and counted; outside the banks
that may take it, it is detail 3; peers' answers go to the granules that wait for them, a refused one being detail 7. That part of a
granule keeps its poison under a clean write is the model's choice (log entry 112), places are judged on arrival (log entry 37), the
lowest detail stands and granules are counted once (log entry 36), and the order of the engine's moves is log entry 35's. -/
def Obligations.CopyEvents : Prop :=
  let refused (op : CopyOp) (va : Nat) : CopyOp := { op with
    fault := some (min (op.fault.getD 7) 7)
    faulting := if op.faulting.contains (va / 16 * 16) then op.faulting else op.faulting ++ [va / 16 * 16] }
  (∀ s id op tm, kvFind s.copies id = some op → findTeam s op.team = some tm → op.gathered = false →
    (∀ w ∈ tm.waves, ∀ x, findWave s w = some x → x.alive = 0 ∨ ∃ sl ∈ op.slices, sl.wave = x.num) →
    let ls := (List.range 16).flatMap fun w => op.slices.filter fun sl => sl.wave = w
    let all := { op with gathered := true, slices := ls }
    let details := ls.flatMap fun sl => sliceDetails s all tm sl
    let same (a b : Slice) : Prop := a.w1 = b.w1 ∧ (a.kind = .scale ↔ b.kind = .scale)
    ((∃ a ∈ ls, ∃ b ∈ ls, ¬ same a b) →
      exec (.copyGathered id) s = .next { s with copies := kvPut s.copies id { all with fault := some 4 } }) ∧
    ((∀ a ∈ ls, ∀ b ∈ ls, same a b) → details = [] →
      exec (.copyGathered id) s = .next { s with copies := kvPut s.copies id { all with
        moves := (List.range ls.length).flatMap fun n => sliceMoves s all tm n (ls.getD n default) } }) ∧
    (∀ d, (∀ a ∈ ls, ∀ b ∈ ls, same a b) → d ∈ details → (∀ e ∈ details, d ≤ e) → ∃ t o, exec (.copyGathered id) s = .next t ∧
      t = { s with copies := kvPut s.copies id o, freeCtr := t.freeCtr } ∧ o = { all with fault := some d, faulting := o.faulting })) ∧
  (∀ s id op m tg (v : Nat → Word × Bool), kvFind s.copies id = some op → op.gathered = true → op.moves = [m] → m.vals = [] →
    (op.slices.getD m.slice default).kind = .g2l → m.targets = [tg] → m.fifo = false → l1Ways s op.cl ≠ 0 →
    (∀ w ∈ m.words, shooting s op.tag.asid w.1 = false ∧ (∃ p e, translate s op.tag w.1 .load false = (.ok p e, s)) ∧
      cachedWords s (engineAsker op .load) [w.1] = some [v w.1]) →
    ∃ t, exec (.copyCompletion id 0) s = .next t ∧ t = { s with
      inbound := s.inbound ++ [⟨id, m.slice, tg, false, m.words.map fun w => ((tg.base + w.2) % 2 ^ 64, v w.1),
        (tg.base + (m.words.headD (0, 0)).2) % 2 ^ 64 / 16, none⟩]
      copies := t.copies, freeCtr := s.freeCtr + 1 } ∧
      kvFind t.copies id = some { op with moves := [] } ∧ ∀ k, k ≠ id → kvFind t.copies k = kvFind s.copies k) ∧
  (∀ s id op m rest, kvFind s.copies id = some op → op.gathered = true → op.moves = m :: rest →
    let sl := op.slices.getD m.slice default
    let port := portAt s (field sl.w1 0 3).toNat
    sl.kind = .peerPut ∨ sl.kind = .peerGet → port.up = false ∨ port.outAsid ≠ op.tag.asid →
    ∃ t, exec (.copyCompletion id 0) s = .next t ∧
      t = { s with inbound := s.inbound.filter (·.op ≠ id), copies := t.copies, freeCtr := s.freeCtr + 1 } ∧
      kvFind t.copies id = some { op with moves := [], fault := some (min (op.fault.getD 6) 6) } ∧
      ∀ k, k ≠ id → kvFind t.copies k = kvFind s.copies k) ∧
  (∀ s id op tm n, kvFind s.copies id = some op → op.gathered = true → op.moves = [] → copyOutstanding s id = false →
    (attachedTo s op.team op.k = true → earlierScale s op.team op.k = false) → op.slices ≠ [] →
    (∀ sl ∈ op.slices, sl.tok = n) → findTeam s op.team = some tm →
    let stat := match op.fault with
      | some d => 3 + 256 * d
      | none => if op.gone then 1 else if op.pois then 2 else 0
    let k := tokenAt tm n
    ∃ t u a, exec (.copyCompletion id 0) s = .next t ∧ kvFind t.copies id = none ∧ findTeam t op.team = some u ∧
      (t.mats = s.mats.map fun m => if m.2.team = op.team ∧ m.2.attached = some op.k ∧ (op.fault ≠ none ∨ op.gone = true) then
        (m.1, { m.2 with fault := some 8 }) else m) ∧
      (op.faulting ≠ [] → a ∈ op.faulting) ∧ u.toks = tm.toks.set n { k with
        op := if k.op = some id then none else k.op, status := BitVec.ofNat 32 (stat + 65536 * min op.marks.length 0xFFFF)
        addr := if op.fault = some 1 ∨ op.fault = some 7 then BitVec.ofNat 64 a else k.addr }) ∧
  (∀ s n i op, s.inbound[n]? = some i → kvFind s.copies i.op = some op → inboundBlocked (s.inbound.take n) i = false →
    let a := (i.words.headD (0, 0, false)).1
    let cl := i.target.cl
    let k := bankAt s cl (bankOf a)
    let u := { s with inbound := s.inbound.eraseIdx n }
    let lives : Prop := ∀ g, i.target.tag = some g → ∃ e ∈ s.teams, e.2.cl = cl ∧ e.2.task = false ∧ e.2.allocTag = g
    let tag := k.owner.bind fun o => (findTeam s o).map (·.allocTag)
    let counted := kvPut s.lsdrop cl (satAdd (kvGet s.lsdrop cl 0) 1)
    let gone := noteGone op (cl, i.key)
    (¬ lives → exec (.inboundWrite n) s = .next { u with lsdrop := counted, copies := kvPut s.copies i.op gone }) ∧
    (∀ g h, lives → a < 0x180000 → k.copying = false → i.target.tag = some g → tag = some h → g ≠ h →
      exec (.inboundWrite n) s = .next { u with
        lsdrop := counted, copies := kvPut s.copies i.op { gone with fault := some (min (op.fault.getD 3) 3) } }) ∧
    (lives → 0x180000 ≤ a ∨ (k.copying = false ∧ ((i.target.tag ≠ none ∧ tag = none) ∨
        (i.multi = true ∧ k.mode ≠ .scr ∧ (i.target.tag = none ∨ tag = i.target.tag)))) →
      exec (.inboundWrite n) s = .next { u with copies := kvPut s.copies i.op { op with fault := some (min (op.fault.getD 3) 3) } }) ∧
    (lives → a < 0x180000 → k.copying = true → exec (.inboundWrite n) s = .next s) ∧
    (∀ v p, lives → a < 0x180000 → k.copying = false → i.target.tag = none ∨ tag = i.target.tag → k.mode = .scr →
      memWf s.lstore = true → i.words = [(a, v, p)] → a % 4 = 0 → kvGet op.cover (cl, a / 16 * 16) 0 = 0 →
      ∃ t, exec (.inboundWrite n) s = .next t ∧ t = { u with
          lstore := t.lstore, regPoison := t.regPoison, banks := t.banks, copies := t.copies, older := t.older, freeCtr := t.freeCtr } ∧
        localWord t cl a = v ∧ granFull t cl a = true ∧ granPoison t cl a = (p || granPoison s cl a) ∧
        ∀ b, b < lsKey cl a ∨ lsKey cl a + 4 ≤ b → memRead t.lstore b = memRead s.lstore b)) ∧
  (∀ s p n id va op no, (portAt s p).puts[n]? = some (id, va) → kvFind s.copies id = some op →
    let u := putPort s p { portAt s p with puts := (portAt s p).puts.eraseIdx n }
    exec (.peerAck p n no) s = .next (if no then { u with copies := kvPut s.copies id (refused op va) } else u)) ∧
  (∀ s p n id va a op i j v poison, (portAt s p).gets[n]? = some (id, va, a) → kvFind s.copies id = some op →
    awaitedWord op (va, a) = some (i, j) →
    let u := putPort s p { portAt s p with gets := (portAt s p).gets.eraseIdx n }
    let m := op.moves.getD i default
    exec (.peerReadData p n (some v) poison) s = .next { u with copies := kvPut s.copies id { op with moves := op.moves.set i { m with
      vals := (List.range m.words.length).map fun k => if k = j then .got v poison else m.vals.getD k .no } } } ∧
    exec (.peerReadData p n none poison) s = .next { u with copies := kvPut s.copies id { refused op va with moves := op.moves.eraseIdx i } })

/-- R318, R324, R326: the members' comparison passes when their format words are equal, and when they differ the operation does not come
to exist, or, where one is attached, will complete with detail 10; a solo operation that may start takes its result entries, the quarters' partials summed along its chain; a started one
completes with its tile written, its token's status and report, `%mmrep`; one that will not run completes with its detail, and a joint one
of a broken cohort with detail 9 in every member at once (R319). The fields of a status are R290's; that COUNT is 0 beside POISON is the
model's choice (log entry 113). -/
def Obligations.MatrixEvents : Prop :=
  (∀ s id op, (s.mats.map (·.1)).Nodup → kvFind s.mats id = some op → op.kind = .joint → op.formed = true →
    (∀ m ∈ s.mats, m.2.team = op.team → m.2.formed = true) →
    let g := jointGroup s op
    g.length = 4 → (∀ m ∈ g, m.2.compared = false ∧ m.2.empty = false ∧ m.2.attached = none) →
    ((∀ m ∈ g, m.2.fmt = op.fmt) → ∃ t, exec (.jointComparison id) s = .next t ∧ t = { s with mats := t.mats } ∧
      (∀ m ∈ g, kvFind t.mats m.1 = some { m.2 with compared := true }) ∧ ∀ k, (∀ m ∈ g, m.1 ≠ k) → kvFind t.mats k = kvFind s.mats k) ∧
    ((∃ m ∈ g, ∃ m' ∈ g, m.2.fmt ≠ m'.2.fmt) → ∃ t, exec (.jointComparison id) s = .next t ∧
      ∀ m ∈ g, ∃ o, kvFind t.mats m.1 = some o ∧ o.formed = false ∧ o.fault = some divergedMark)) ∧
  (∀ s id op, (s.mats.map (·.1)).Nodup → kvFind s.mats id = some op → op.kind = .joint → op.formed = true →
    (∀ m ∈ s.mats, m.2.team = op.team → m.2.formed = true) →
    let g := jointGroup s op
    g.length = 4 → (∀ m ∈ g, m.2.compared = false ∧ m.2.empty = false) → (∃ m ∈ g, m.2.attached ≠ none) →
    (∃ m ∈ g, ∃ m' ∈ g, m.2.fmt ≠ m'.2.fmt) → ∃ t, exec (.jointComparison id) s = .next t ∧ t = { s with mats := t.mats } ∧
      ∀ m ∈ g, kvFind t.mats m.1 = some { m.2 with compared := true, fault := some (min (m.2.fault.getD 10) 10) }) ∧
  (∀ s id op tm, kvFind s.mats id = some op → op.kind = .solo → findTeam s op.team = some tm →
    (∀ m ∈ s.mats, m.2.team = op.team → m.2.formed = true) → mayStart s [(id, op)] = true →
    (scaleMode op.fmt ≠ 0 → scalesLost s (columnOf op.cl) (dieOf op.cl % 4) = false) →
    let col := columnOf op.cl
    let home := dieOf op.cl % 4
    let quarter (e q : Nat) : FVal := if q < 4 then (readQuarter { s with freeCtr := s.freeCtr + q } col [(id, op)] op.fmt q).part op.fmt (e / 32) (e % 32) else .nan
    let sum (e : Nat) : FVal := chainSum (assignQuarters home (skipSet s col home) (chainOf home) [] []) (quarter e)
    let old (e : Nat) : FVal := decodeE (tileEntry s op.cl (tm.tiles.getD op.tile 0) e)
    ∃ t o, exec (.matrixOpStart id) s = .next t ∧ kvFind t.mats id = some o ∧
      o = { op with started := true, windows := [], report := o.report, pois := o.pois, result := o.result } ∧ o.result.length = 1024 ∧
      ∀ e < 1024, ∃ p, o.result.getD e 0 = withPoison (encodeE (if op.fmt.getLsbD 21 then addF .rne (old e) (sum e) else sum e)) p) ∧
  (∀ s id op tm, kvFind s.mats id = some op → op.kind = .solo → op.formed = true → findTeam s op.team = some tm →
    let k := tokenAt tm op.tok
    let freed := if k.op = some id then none else k.op
    (op.fault = none → op.empty = false → op.started = true → ∃ t u, exec (.matrixOpCompletion id) s = .next t ∧
      kvFind t.mats id = none ∧ findTeam t op.team = some u ∧ u.mmrep = op.report ∧
      u.toks = tm.toks.set op.tok { k with op := freed, status := BitVec.ofNat 32 (32 + if op.pois then 2 else 0), report := op.report } ∧
      ∀ e < op.result.length, tileEntry t op.cl (tm.tiles.getD op.tile 0) e = op.result.getD e 0) ∧
    (∀ d, op.fault = some d → d ≠ divergedMark → ∃ t u, exec (.matrixOpCompletion id) s = .next t ∧ kvFind t.mats id = none ∧
      findTeam t op.team = some u ∧ u.mmrep = tm.mmrep ∧ t.tiles = s.tiles ∧
      u.toks = tm.toks.set op.tok { k with op := freed, status := BitVec.ofNat 32 (3 + 32 + 256 * d), report := 0 })) ∧
  (∀ s id op, kvFind s.mats id = some op → op.kind = .joint → op.formed = true → op.fault ≠ some divergedMark → cohortBroken s op = true →
    ∃ t, exec (.matrixOpCompletion id) s = .next t ∧ t.tiles = s.tiles ∧ ∀ m ∈ jointGroup s op, kvFind t.mats m.1 = none ∧
      ∀ tm, findTeam s m.2.team = some tm → m.2.tok < tm.toks.length → ∃ u, findTeam t m.2.team = some u ∧
        (tokenAt u m.2.tok).status = BitVec.ofNat 32 (3 + 32 + 256 * 9))

/-- R362, R363: a team's barrier completes once each of its waves has arrived or ended: the generation counts, every slot that waits at
it, the program's too while its handler runs, has the mark with which its bar is over when it issues again, and the acquire of the
barrier's scope is made. -/
def Parts.BarrierCompletes : Prop :=
  ∀ s n tid tm, (barList s)[n]? = some (tid, .team) → findTeam s tid = some tm →
    (∀ w ∈ tm.waves, ∀ x, findWave s w = some x → x.alive = 0 ∨ (BarId.team, x.num) ∈ tm.arrived) →
    let woken (sl : Slot) : Slot := if sl.bar = some ⟨.team, none⟩ then { sl with bar := some ⟨.team, some false⟩ } else sl
    ∃ u, exec (.barrierComplete n) s = .next (selfInvalidate u tm.cl 1) ∧ u = { s with waves := u.waves, teams := u.teams } ∧
      findTeam u tid = some { tm with
        arrived := tm.arrived.filter fun a => a.1 ≠ .team, gens := kvPut tm.gens .team (kvGet tm.gens .team 0 + 1) } ∧
      (∀ w ∈ tm.waves, ∀ x, findWave s w = some x → findWave u w = some { x with
        a := woken x.a, b := woken x.b, saved := x.saved.map fun p => { p with a := woken p.a, b := woken p.b } }) ∧
      ∀ w, w ∉ tm.waves → findWave u w = findWave s w

/-- R361 to R363: arriving at a barrier, and its completion. -/
def Obligations.Barriers : Prop := Parts.BarrierArrives ∧ Parts.BarrierCompletes

/-- R214, R216, R217, R420, R448, R481: a mode change whose bank is quiet is made, the bank zeroed, and where it leaves CACHE the superblocks
of its way leave the L1, no other word of which changes; a bank retires to a spare, whose copy then answers for it, or with no spare and
nobody on it is fenced; a quarantined tag is free again; what a flit that fails 16 times carried is poison, and a port counts its
replays. R420 says that every word it carried counts as an error; which words those are is the model's choice (log entry 119): the words
of a message and its operands, an atomic's results on their way back, the words of an engine's write, what a port has sent last. -/
def Obligations.BankEvents : Prop :=
  (∀ s n cl b m q, s.modeReqs[n]? = some (cl, b, m, q) → (∀ r ∈ s.modeReqs.take n, ¬ (r.1 = cl ∧ r.2.1 = b)) →
    let k := bankAt s cl b
    k.dead = false → modeFits k.mode m = true → k.copying = false → bankQuiet s cl b = true →
    ∃ t, exec (.bankModeChange n) s = .next t ∧
      (k.mode ≠ .cache → t = { s with
        modeReqs := s.modeReqs.eraseIdx n, lstore := t.lstore, older := t.older, regPoison := t.regPoison, banks := t.banks }) ∧
      bankAt t cl b = { k with mode := m, full := [], pois := [], head := 0, count := 0 } ∧
      (∀ j < 2 ^ 15, localByte t cl (b * 2 ^ 15 + j) = 0) ∧
      (k.mode = .cache → let leaving (tag : AsidTag) (va : Nat) := ∃ e ∈ s.l1ways, e.cl = cl ∧ e.bank = b ∧ e.tag = tag ∧ e.blk = va / 512
        (∀ tag va, leaving tag va → cwAt t (.l1 cl) tag va = none) ∧
        ∀ k, ¬ leaving k.tag k.va → kvFind t.caches k = kvFind s.caches k)) ∧
  (∀ s cl b, let k := bankAt s cl b
    b < 48 → k.dead = false → k.copying = false →
    (sparesAt s cl ≠ 0 → k.retiring = false → ∃ t, exec (.bankRetire cl b) s = .next t ∧ bankAt t cl b = { k with copying := true } ∧
      sparesAt t cl = sparesAt s cl - 1) ∧
    (sparesAt s cl = 0 → bankHolders s cl b = [] → k.mode ≠ .cache → ∃ t, exec (.bankRetire cl b) s = .next t ∧
      bankAt t cl b = { k with dead := true, retiring := false, mode := .free, owner := none }) ∧
    (sparesAt s cl = 0 → bankHolders s cl b = [] → k.mode = .cache → ∃ t, exec (.bankRetire cl b) s = .next t ∧
      bankAt t cl b = { k with dead := true, retiring := false, mode := .free, owner := none, full := [], pois := [], head := 0, count := 0 })) ∧
  (∀ s cl b, (bankAt s cl b).copying = true → ∃ t, exec (.spareBankCopyDone cl b) s = .next t ∧ (bankAt t cl b).copying = false ∧
    (bankAt t cl b).mode = (bankAt s cl b).mode ∧ (bankAt t cl b).owner = (bankAt s cl b).owner ∧ t.lstore = s.lstore) ∧
  (∀ s cl tag, exec (.tagQuarantineExpiry cl tag) s =
    .next { s with quarantine := s.quarantine.filter fun q => !(q.1 = cl && q.2.toNat = tag) }) ∧
  (∀ s n m fails, s.net[n]? = some m → exec (.flitReplay (.message n) fails) s = .next (if fails < 16 then s else
    { s with net := s.net.set n { m with
      words := m.words.map (fun w => { w with poison := true }), atom := m.atom.map fun r => { r with lost := true } } })) ∧
  (∀ s n m fails, s.net[n]? = some m → exec (.flitReplay (.answer n) fails) s = .next (if fails < 16 then s else
    { s with net := s.net.set n { m with atom := m.atom.map fun r => { r with lostBack := true } } })) ∧
  (∀ s n i fails, s.inbound[n]? = some i → exec (.flitReplay (.engine n) fails) s = .next (if fails < 16 then s else
    { s with inbound := s.inbound.set n { i with words := i.words.map fun w => (w.1, w.2.1, true) } })) ∧
  (∀ s p fails, p < 8 → let k := portAt s p
    let u := putPort s p { k with retry := BitVec.ofNat 16 (min (k.retry.toNat + min (fails + 1) 16) 0xFFFF) }
    let carried (h : HostSees) : Prop := (k.puts ≠ [] ∧ ∃ a va ws z, h = .peerWrite p a va ws z) ∨ ∃ ws z, h = .peerData p ws z
    (fails < 16 ∨ (∀ h ∈ s.hostSees, ¬ carried h) → exec (.flitReplay (.port p) fails) s = .next u) ∧
    (∀ before after a va ws z, 16 ≤ fails → k.puts ≠ [] → s.hostSees = before ++ .peerWrite p a va ws z :: after →
      (∀ h ∈ after, ¬ carried h) →
      exec (.flitReplay (.port p) fails) s = .next { u with hostSees := before ++ .peerWrite p a va ws true :: after }) ∧
    (∀ before after ws z, 16 ≤ fails → s.hostSees = before ++ .peerData p ws z :: after → (∀ h ∈ after, ¬ carried h) →
      exec (.flitReplay (.port p) fails) s = .next { u with hostSees := before ++ .peerData p ws true :: after }))

/-- R406, R408, R411, R440: GO with an operation runs it on the block's address, entry and ASID; it is ignored while a command runs, and
unsupported in D3hot; a finished command leaves its result code, a size that does not exist gives 3. R398: a walk translates its
address. -/
def Obligations.CommandBlock : Prop :=
  (∀ s ev code act, let k := s.tlbCmd
    let tag : AsidTag := ⟨k.asid, asidGen s k.asid⟩
    (ev = Instr.tlbCmdMap ∧ code = 0 ∧ act = fun u => mapPage u tag k.va.toNat k.pte k.size.toNat k.repl) ∨
      (ev = Instr.tlbCmdUnmap ∧ code = 1 ∧ act = fun u => unmapPage u tag k.va.toNat k.size.toNat) ∨
      (ev = Instr.tlbCmdInval ∧ code = 2 ∧ act = fun u => invalPage u tag k.va.toNat k.size.toNat) ∨
      (ev = Instr.tlbCmdRetire ∧ code = 3 ∧ act = fun u => match retireAsid u k.asid with
        | some t => .result 0 t
        | none => .wait 0 0 u) →
    let u := { s with tlbCmd := { k with op := code, busy := true } }
    let ends (r : Nat) (t : State) := exec ev s = .next { t with tlbCmd := { t.tlbCmd with busy := false, result := BitVec.ofNat 2 r } }
    (s.d3hot = true → exec ev s = .next (tellHost s .unsupported)) ∧
    (s.d3hot = false → k.busy = true → exec ev s = .next s) ∧
    (s.d3hot = false → k.busy = false → k.size = 3 → code ≠ 3 → ends 3 u) ∧
    (∀ r t, s.d3hot = false → k.busy = false → k.size ≠ 3 ∨ code = 3 → act u = .result r t → ends r t) ∧
    (∀ va level t, s.d3hot = false → k.busy = false → k.size ≠ 3 ∨ code = 3 → act u = .wait va level t → exec ev s = .next t)) ∧
  (∀ s asid va acc sup r t, canonical va = true →
    translate s ⟨BitVec.ofNat 16 asid, asidGen s (BitVec.ofNat 16 asid)⟩ va acc sup = (r, t) →
    exec (.pageWalk asid va acc sup) s = .next t)

/-- R339, R341, R342, R347: the table of a record's checks: its status is that of the first row met. Row 1, the kernel descriptor: none is read, as where no registered range that is
not removed holds KDESC, where its header or the descriptor cannot be read as text, or where one is malformed. Row 2, the record's shape;
row 3, the cohort's; row 4, the dies. -/
def Parts.RecordChecks : Prop :=
  ∀ s tag ws id, let r := launchRec ws
    let va := r.kdesc.toNat
    let word (i : Nat) : Nat := (ws.getD i 0).toNat
    let teams := r.ntx * r.nty * r.ntz
    ((∀ o ∈ s.codes, ¬ (o.removed = false ∧ o.asid = tag.asid ∧ o.base ≤ va ∧ va < o.base + o.size)) →
      checkRecord s tag ws r id = (3, none, s)) ∧
    (∀ t, readKernel s tag va = (none, t) → checkRecord s tag ws r id = (3, none, t)) ∧
    (∀ o, codeRange s tag.asid va = some o →
      (∀ t, readTexts s tag o.base 16 = (none, t) → checkRecord s tag ws r id = (3, none, t)) ∧
      ∀ h t, readTexts s tag o.base 16 = (some h, t) →
        let first := o.base + (h.getD 4 0).toNat
        (codeHeaderGood o h = false ∨ va < first ∨ (va - first) % 256 ≠ 0 ∨ (h.getD 2 0).toNat ≤ (va - first) / 256 ∨ o.base + o.size < va + 256 →
          checkRecord s tag ws r id = (3, none, t)) ∧
        (codeHeaderGood o h = true → first ≤ va → (va - first) % 256 = 0 → (va - first) / 256 < (h.getD 2 0).toNat → va + 256 ≤ o.base + o.size →
          (∀ u, readTexts t tag va 64 = (none, u) → checkRecord s tag ws r id = (3, none, u)) ∧
          ∀ d u, readTexts t tag va 64 = (some d, u) → descGood o h d = false → checkRecord s tag ws r id = (3, none, u))) ∧
    ∀ k t, readKernel s tag va = (some k, t) →
      let shape : Prop := word 2 / 2 ^ 28 ≠ 0 ∨ word 7 / 2 ^ 24 ≠ 0 ∨ word 16 / 2 ^ 16 ≠ 0 ∨ (∃ i, 25 ≤ i ∧ i < 32 ∧ word i ≠ 0) ∨
        r.ntx = 0 ∨ r.nty = 0 ∨ r.ntz = 0 ∨ 2 ^ 32 < teams ∨
        va % 256 ≠ 0 ∨ r.crec.toNat % 64 ≠ 0 ∨ r.cbmp.toNat % 8 ≠ 0 ∨ (r.dep = true ∧ r.dbmp.toNat % 8 ≠ 0) ∨
        (0 < r.fspl ∧ r.fsp.toNat % 256 ≠ 0) ∨ (0 < r.tringn ∧ r.tring.toNat % 16 ≠ 0) ∨ (r.dep = true ∧ r.dw = 0) ∨
        (r.tringn ≠ 0 ∧ ¬ ∃ i, 3 ≤ i ∧ i ≤ 20 ∧ r.tringn = 2 ^ i) ∨ (0 < k.tslot ∧ r.tringn = 0) ∨ (0 < r.fspl ∧ r.fspt = 0)
      let size := if k.cohlv = 0 then 1 else k.cohn
      let banks (n : Nat) : Nat := (n * (k.regs * k.width * 4 + 512) + 32767) / 32768
      let holds := emptyTeams k id
      let enabled (ds : List Nat) : Nat := ((ds.flatMap dieClusters).filter fun cl => clusterEnabled t cl).length
      let domain (n : Nat) : Prop := ∃ i, n * i < 24 ∧ k.cohn ≤ holds * enabled (List.range' (n * i) n)
      let cohort : Prop := teams % size ≠ 0 ∨
        (12 < k.tslot ∨ 4 * (12 - k.tslot) < k.waves ∨ 48 < banks (4 * k.tslot) + banks k.waves + k.scr + k.fifo ∨ 64 < k.tiles) ∨
        (k.cohlv = 1 ∧ holds < k.cohn) ∨ (k.cohlv = 3 ∧ ¬ domain 1) ∨ (k.cohlv = 4 ∧ ¬ domain 4) ∨ (k.cohlv = 5 ∧ ¬ domain 12) ∨
        (k.cohlv = 6 ∧ ¬ domain 24) ∨ (0 < r.fspl ∧ r.fspt < size) ∨ (∃ ms ∈ k.asms, ∃ j ∈ ms, k.cohn ≤ j) ∨
        ∃ j, 4 < (k.asms.filter fun ms => ms.contains j).length
      let eligible (d : Nat) : Prop := d < 24 ∧ (r.affin = 0 ∨ r.affin.getLsbD d = true) ∧ ∃ cl, cl / 24 = d ∧ clusterEnabled t cl = true
      let nodie : Prop := (¬ ∃ d, eligible d) ∨ (k.cohlv = 2 ∧ ¬ ∃ c, c < 144 ∧ columnWhole t c = true ∧ ∀ i < 4, eligible (4 * (c / 24) + i))
      (shape ∨ cohort → checkRecord s tag ws r id = (2, some k, t)) ∧
      (¬ shape → ¬ cohort → nodie → checkRecord s tag ws r id = (1, some k, t)) ∧
      (¬ shape → ¬ cohort → ¬ nodie → checkRecord s tag ws r id = (0, some k, t))

/-- R346, R347, R348, R366: the one record that is offered, in the device queue, leaves it: where its checks pass its launch begins with
its kernel, its issuer's tag and no team ended; where they fail its completion record says why. R364: the words of a dependency
bitmap that a team left to place needs are read again, and change nothing; a refused one leaves its record, one for each page. -/
def Parts.LaunchAccepts : Prop :=
  (∀ s rec code ko t, accepting s = true → (∀ q < 64, queueOffers s q = false) → s.devq = [rec] →
    let ws := wordsOf rec.bytes 32
    let r := if rec.super then launchRec ws else { launchRec ws with asid := rec.tag.asid }
    let tag := if rec.super then tagNow s r.asid else rec.tag
    checkRecord { s with serial := s.serial + 1 } tag ws r s.serial = (code, ko, t) →
    (∀ k, code = 0 → ko = some k → ∃ l, exec .launchAccept s = .next { t with
        gptr := 0, devq := t.devq.tail, launches := t.launches ++ [(s.serial, l)] } ∧
      l.rcd = r ∧ l.ker = k ∧ l.tag = tag ∧ l.total = r.ntx * r.nty * r.ntz ∧ l.ended = 0 ∧ l.teams = 0 ∧ l.imported = false) ∧
    (code ≠ 0 → crecQuiet s tag r = true → exec .launchAccept s = .next (writeCompletion { t with gptr := 0, devq := t.devq.tail } tag r
      [BitVec.ofNat 32 code, 0, 0, 0, 0, 0, 0, 0, loWord t.clock, hiWord t.clock, 1, 0, 0, 0, 0, 0]))) ∧
  (∀ s n la, findLaunch s n = some la → la.rcd.dep = true → s.gerLost = false →
    let words := (la.ranges.flatMap (·.runs) ++ la.global).flatMap fun r => (List.range r.2).flatMap fun i =>
      (unitMembers la.ker (r.1 + i)).flatMap (depWords la.rcd)
    ((∀ va ∈ words, ∃ w, readHome s la.tag va .load false = (.word w, s)) → exec (.depBitmapReread n) s = .next s) ∧
    (∀ va k u, words = [va] → readHome s la.tag va .load false = (.refused k, u) →
      exec (.depBitmapReread n) s = .next (germinalRecord u la.tag va k)) ∧
    (∀ va vb k j u v, words = [va, vb] → va / 4096 ≠ vb / 4096 → readHome s la.tag va .load false = (.refused k, u) →
      readHome (germinalRecord u la.tag va k) la.tag vb .load false = (.refused j, v) →
      exec (.depBitmapReread n) s = .next (germinalRecord v la.tag vb j))) ∧
  (∀ s n la, findLaunch s n = some la → launchOver s n la = true → s.gerLost = false → crecQuiet s la.tag la.rcd = true →
    let status : Nat := if la.lost ≠ 0 then 5 else if la.aborted ≠ 0 ∨ la.taskerr ≠ 0 then 4 else 0
    let u := writeCompletion s la.tag la.rcd [BitVec.ofNat 32 status, BitVec.ofNat 32 la.teams, BitVec.ofNat 32 la.aborted,
      BitVec.ofNat 32 la.lost, BitVec.ofNat 32 la.lanes, BitVec.ofNat 32 la.taskerr, loWord la.tstart, hiWord la.tstart, loWord s.clock,
      hiWord s.clock, 1, 0, 0, 0, 0, 0]
    exec (.launchEnd n) s = .next { u with launches := kvErase u.launches n })

/-- R339, R341, R342, R346 to R348, R364, R366: accepting a launch record, its checks, its dependency and its end. -/
def Obligations.LaunchEvents : Prop := Parts.RecordChecks ∧ Parts.LaunchAccepts

/-- R350, R351, R354, R356, R357, R366, R372: the next ready unit is placed where it can go, each wave of it starting fresh at its kernel's
entry; a team that leaves is saved as an image, and an image resumes as its team; a team that is over leaves the machine and is counted, its
tiles keeping what they hold, as R478 has it beside step 2 of R351 (log entry 138); a task slot takes the newest record of its core and starts it at its entry point. -/
def Obligations.TeamEvents : Prop :=
  (∀ s n la t, findLaunch s n = some la → firstServed s = some (.unit n) → placeNext s n = some t → exec (.teamPlacement n) s = .next t ∧
    ∀ w x, findWave s w = none → findWave t w = some x → FreshWave x la.ker la.ker.entry la.rcd.arg 0) ∧
  (∀ s tid tm u v t, findTeam s tid = some tm → leavingGroup s tid = some [tid] → s.gerLost = false → withdrawJoints s tm = v → findTeam v tid = some tm →
    atBoundary v tid tm = true → wavesEnded v tm = false → releaseTeam v tid tm = (true, u) →
    (∃ y, findTeam u tid = some y ∧ (findLaunch u y.launch).isSome = true) → saveTeam u tid = some t →
    exec (.teamPreemption tid) s = .next t ∧ findTeam t tid = none ∧ ∃ n im, kvFind t.images n = some im ∧ im.tid = tid ∧ im.team.idx = tm.idx) ∧
  (∀ s n im t, kvFind s.images n = some im → im.team.task = false → im.team.cohort = none → im.crcOk = true → findTeam s im.tid = none →
    resumeNow s n = some t → firstServed s = some (.image n) → exec (.teamResume n) s = .next t ∧ kvFind t.images n = none ∧
      ∃ y, findTeam t im.tid = some y ∧ y.idx = im.team.idx ∧ y.launch = im.team.launch) ∧
  (∀ s tid tm u la, findTeam s tid = some tm → tm.task = false → teamOver s tid tm = true → releaseTeam s tid tm = (true, u) →
    findLaunch u tm.launch = some la → la.rcd.cbmp = 0 → ∃ t l, exec (.teamRetirement tid) s = .next t ∧ findTeam t tid = none ∧
      (∀ w ∈ tm.waves, findWave t w = none) ∧ findLaunch t tm.launch = some l ∧ l.ended = la.ended + 1 ∧
      l.teams = la.teams + (if tm.fate = .normal then 1 else 0) ∧ l.aborted = la.aborted + (if tm.fate = .aborted then 1 else 0) ∧
      l.lost = la.lost + (if tm.fate = .lost then 1 else 0) ∧ t.tiles = u.tiles) ∧
  (∀ s core q la res slot spill r rs e, kvFind s.tasks core = some q → q.chip = rs ++ [r] → findLaunch s q.launch = some la →
    kvFind la.taskCl (core / 4) = some res → freeTaskSlot s core res = some slot → spillIndices la 1 = some spill →
    (∀ m ∈ s.images, m.2.held = false) → (s.ctx.busy && s.ctx.op = 1) = false → s.d3hot = false →
    la.ker.entries[r.entry.toNat]? = some e → ∃ t x, exec (.taskStart core) s = .next t ∧
      kvFind t.tasks core = some { q with chip := rs } ∧ findWave t slot.2 = some x ∧ FreshWave x la.ker e r.arg r.frame)

/-- R30 to R33, R272, R274, R275, R376, R453, R458: a compute die that is fenced is so from then on, its teams lost and the walk of its stack's
directory pending; a base die takes its stack and dies with it, Germinal moving to its standby or ending; a home die takes its
buffer and TLB. A critical temperature does the same, with no more records (log entry 80), and a new standby is chosen later: that
none is for a while is log entry 116 (the model's choice), that it is the lowest that may be, log entry 95. How the entries of a
directory are numbered for a batch is log entry 51. A walk of the hardware's ends with every entry
visited; the host's goes on by a batch of entries. An entry that a walk visits ends the fenced child's registration, the words that it
had dirtied, all of them for M, being poisoned at the home, which counts them. -/
def Obligations.FenceEvents : Prop :=
  let lostTeams (s t : State) (d : Nat) : Prop := ∀ id tm, findTeam s id = some tm → dieOf tm.cl = d → tm.fate = .normal →
    ∃ u, findTeam t id = some u ∧ u.fate = .lost
  (∀ s d ev, d < 24 → dieFenced s d = false → ev = .dieFence d ∨ ev = .criticalTemperature .compute d →
    ∃ t, exec ev s = .next t ∧ t.dfence = s.dfence ||| (1#24 <<< d) ∧ lostTeams s t d ∧ (rebuildAt t (d / 4)).pend = true ∧
      d ∈ (rebuildAt t (d / 4)).dies ∧ (s.txns = [] → ∀ e ∈ t.caches, nodeFenced t e.1.node = false)) ∧
  (∀ s k ev, k < 6 → s.fencedStacks.contains k = false → ev = .baseDieFence k ∨ ev = .criticalTemperature .base k →
    ∃ t, exec ev s = .next t ∧ t.fencedStacks = s.fencedStacks ++ [k] ∧ k ∈ t.stackWalks ∧ (rebuildAt t k).pend = true ∧
      (∀ i < 4, dieFenced t (4 * k + i) = true ∧ lostTeams s t (4 * k + i)) ∧
      (let picked : Prop := s.gerLost = false ∧ (s.boot = 4 ∨ s.boot = 5);
        (∀ b, picked → s.gbase = k → s.gstby = some b → t.gbase = b ∧ t.gstby = none ∧ t.gerLost = false) ∧
        (picked → s.gbase ≠ k → s.gstby = some k → t.gbase = s.gbase ∧ t.gstby = none ∧ t.gerLost = false) ∧
        (picked → s.gbase = k → s.gstby = none → t.gerLost = true ∧ t.boot = 15 ∧ t.berr = 5) ∧
        (¬ picked ∨ (s.gbase ≠ k ∧ s.gstby ≠ some k) →
          t.gbase = s.gbase ∧ t.gstby = s.gstby ∧ t.gerLost = s.gerLost ∧ t.boot = s.boot))) ∧
  (∀ s h ev, h < 12 → homeFenced s h = false → ev = .homeDieFence h ∨ ev = .criticalTemperature .home h →
    ∃ t, exec ev s = .next t ∧ t.hfence = s.hfence ||| (1#12 <<< h) ∧ kvFind t.tlbs h = none ∧ faultBufAt t h = FaultBuf.clear ∧
      ∀ n im, kvFind s.images n = some im → n / slotsPerHome = h → kvFind t.images n = none) ∧
  (∀ s k ev up, (ev = .vernalRebuildDone k ∧ up = false) ∨ (ev = .stackWalkDone k ∧ up = true) → (rebuildAt s k).pend = true →
    (rebuildAt s k).host = false → s.stackWalks.contains k = up → ∃ t, exec ev s = .next t ∧ (rebuildAt t k).pend = false ∧
      (rebuildAt t k).dies = [] ∧ k ∉ t.stackWalks ∧
      (∀ tag line d, up = false → d ∈ (rebuildAt s k).dies → (dirAt t (.stk k) tag line (.die d)).st = .i) ∧
      (∀ tag line n, up = true → (∃ h, n = .home h ∨ n = .bridge h) → (dirAt t n tag line (.stk k)).st = .i) ∧
      ∀ e, s.dirs.filter (fun e => (fencedChildren s e.1.node).any fun c => c.1 = k && c.2 = e.1.child) = [e] →
        t = endWalk (walkEntry s e.1.node k e.1.tag e.1.line e.1.child) k) ∧
  (∀ s n k tag line child i p e u, let r := dirAt s n tag line child
    let t := walkEntry s n k tag line child
    r.st ≠ .i → dirtied r = 1#32 <<< i → i < 32 →
    translate (putDir s n tag line child ⟨.i, 0, 0⟩) tag (128 * line + 4 * i) .load true = (.ok p e, u) →
    (dirAt t n tag line child).st = .i ∧ wordPoisoned t p.pa = true ∧ cwAt t n tag (128 * line + 4 * i) = none ∧
      (rebuildAt t k).lines = satAdd (rebuildAt s k).lines 1 ∧
      (countersAt t (homeOf (128 * line))).s3up = satAdd (countersAt u (homeOf (128 * line))).s3up 1) ∧
  (∀ r : DRec, dirtied r = if r.st = .m then BitVec.allOnes 32 else r.dr) ∧
  (∀ s b, s.boot = 4 ∨ s.boot = 5 → s.gerLost = false → s.gstby = none → newStandby s s.gbase = some b → ∃ c,
    chooseStandby s = { s with freeCtr := c, gstby := some b } ∨ chooseStandby s = { s with freeCtr := c }) ∧
  (∀ s k, let b := rebuildAt s k
    let next := b.next + if b.batch = 0 then 65536 else b.batch.toNat
    b.pend = true → b.host = true → b.busy = false → s.d3hot = false → ∃ t, exec (.vrctlGo k) s = .next t ∧
      (next < 2 ^ 20 → s.stackWalks.contains k = false → ∀ tag line d, d ∈ b.dies →
        let i := entryIndex s (.stk k) tag line
        (b.next ≤ i → i < next → (dirAt t (.stk k) tag line (.die d)).st = .i) ∧
        (i < b.next ∨ next ≤ i → dirAt t (.stk k) tag line (.die d) = dirAt s (.stk k) tag line (.die d))) ∧
      (next < 2 ^ 20 → (rebuildAt t k).next = next ∧ (rebuildAt t k).pend = true) ∧ (2 ^ 20 ≤ next → (rebuildAt t k).pend = false))

/-- R457, R322, R428, R447, R448, R450: a die's clock is lowered, and full again; a bond's half or whole is lost; LFENCE fences a cluster's
layer; an unmasked vector sends what pends; a port is up while its link is trained and it is bound: a link is trained where its
port is enabled, and a port that goes down fails its copies with detail 6. That clearing BOUND is the link going down is read from R449
(log entry 89), that the gets of a port that goes down are dropped from R449 too (log entry 39); that SHED comes only below 2,000 MHz is
the model's choice (log entry 88). -/
def Obligations.PartEvents : Prop :=
  (∀ s d mhz shed, d < 24 → mhz ≤ (powerAt s d).dclk.toNat → (shed = true → mhz < 2000) →
    exec (.powerThrottle d mhz shed) s = .next { s with power := kvPut s.power d ⟨BitVec.ofNat 12 mhz, true, shed⟩ }) ∧
  (∀ s d, d < 24 → exec (.throttleEnd d) s = .next { s with power := kvPut s.power d ⟨2000, false, false⟩ }) ∧
  (∀ s col lower half, col < 144 → lower < 3 → bondAt s col lower = .whole ∨ (bondAt s col lower = .half ∧ half = false) →
    ∃ t, exec (.verticalBondRetired col lower half) s = .next t ∧ bondAt t col lower = (if half then .half else .retired) ∧
      ∀ c l, (c ≠ col ∨ l ≠ lower) → bondAt t c l = bondAt s c l) ∧
  (∀ s v, s.d3hot = false → v.getLsbD 23 = true → (field v 0 10).toNat < 576 → ∃ t, exec (.lfence v) s = .next t ∧ t.service.lfence = v ∧
    (field v 0 10).toNat ∈ t.fencedLayers) ∧
  (∀ s v, v < 64 → let x := vectorAt s v
    (x.pend = false → s.d3hot = false → exec (.vectorUnmask v) s = .next { s with vectors := kvPut s.vectors v { x with masked := false } }) ∧
    (x.pend = true → s.d3hot = false → ∃ t, exec (.vectorUnmask v) s = .next t ∧ vectorAt t v = { x with masked := false, pend := false } ∧
      t.hostSees = s.hostSees ++ [.msix v x.addr x.data])) ∧
  (∀ s p, let k := portAt s p
    let u := putPort s p { k with trained := true }
    p < 8 → (k.up = true ↔ k.trained = true ∧ k.bound = true) ∧
    (k.pen = true → s.d3hot = false → exec (.portLinkUp p) s =
      .next (if k.bound = true ∧ k.trained = false then raiseIf u k.pven k.pvec.toNat else u)) ∧
    (∀ ev (v : DWord), ev = .portLinkDown p ∨ (ev = .registerWrite (0x3000C + 64 * p) 4 v ∧ v.getLsbD 16 = false ∧ s.d3hot = false) →
      k.up = true → ∃ t, exec ev s = .next t ∧ (portAt t p).up = false ∧ (portAt t p).puts = [] ∧ (portAt t p).gets = [] ∧
        (∀ r, Instr.peerRequest p r ∉ t.deferred) ∧
        ∀ id op, kvFind s.copies id = some op → usesPort p op = true →
          kvFind t.copies id = some { op with moves := [], fault := some (min (op.fault.getD 6) 6) }))

/-- R442, R287, R440, R441, R386: an access outside the BAR2 window that is open, or of BAR0 in D3hot, misaligned or of a size other than 4
and 8, is unsupported; so is every command in D3hot; a read within one block gives its bytes, or aborts where it is refused; a write of a word stands at its home; a peer's bound request is
answered, a refused one recorded. A write of 8 bytes to a vector register sets it whole. -/
def Obligations.HostAccesses : Prop :=
  (∀ s off len data, s.w2en = false ∨ s.d3hot = true →
    exec (.bar2Read off len) s = .next (tellHost s .unsupported) ∧ exec (.bar2Write off data) s = .next (tellHost s .unsupported)) ∧
  (∀ s off len t, let tag := tagNow s s.w2asid
    let va := windowVa s off
    s.w2en = true → s.d3hot = false → off + len ≤ 2 ^ 28 → 0 < len → va % 128 + len ≤ 128 → spanQuiet s tag va len = true →
    (∀ bs p, readBytes s tag va len = (⟨bs, p, none⟩, t) → exec (.bar2Read off len) s = .next (tellHost t (.data bs p))) ∧
    (∀ bs p e, readBytes s tag va len = (⟨bs, p, some e⟩, t) → exec (.bar2Read off len) s = .next (tellHost t .abort))) ∧
  (∀ s off (b0 b1 b2 b3 : Byte) p e, let tag := tagNow s s.w2asid
    let va := windowVa s off
    s.w2en = true → s.d3hot = false → off + 4 ≤ 2 ^ 28 → off % 4 = 0 → spanQuiet s tag va 4 = true → canonical va = true →
    translate s tag va .store false = (.ok p e, s) → p.layout ≠ 4 → PlainPlace s p.pa → memWf s.dram = true →
    ∃ t, exec (.bar2Write off [some b0, some b1, some b2, some b3]) s = .next t ∧
      memReadN t.dram p.pa 4 = (b3 ++ b2 ++ b1 ++ b0).toNat) ∧
  (∀ s p r, let k := portAt s p
    let tag := tagNow s k.inAsid
    p < 8 → (k.up = false ∨ k.bound = false → exec (.peerRequest p r) s = .next s) ∧
    (∀ va n bs poisoned t, r = .read va n → k.up = true → k.bound = true → spanQuiet s tag (va / 4 * 4) (4 * n) = true →
      readSpan s tag (va / 4 * 4) n = (⟨bs, poisoned, none⟩, t) → exec (.peerRequest p r) s = .next (tellHost t (.peerData p (wordsOf bs n) poisoned))) ∧
    (∀ va ws poison es t, r = .write va ws poison → k.up = true → k.bound = true → spanQuiet s tag (va / 4 * 4) (4 * ws.length) = true →
      writeBytes s tag (va / 4 * 4) ((ws.flatMap fun w => bytesLe 4 w.toNat).map some) poison = (es, t) →
      (es = [] → exec (.peerRequest p r) s = .next (tellHost t (.peerAck p))) ∧
      (es ≠ [] → exec (.peerRequest p r) s = .next (tellHost (recordRefused t tag 1 es) (.peerRefused p))))) ∧
  (∀ s off size v, s.d3hot = true ∨ (size ≠ 4 ∧ size ≠ 8) ∨ off % size ≠ 0 → exec (.registerWrite off size v) s = .next (tellHost s .unsupported)) ∧
  (∀ s ev, s.d3hot = true → HostCommand ev → exec ev s = .next (tellHost s .unsupported)) ∧
  (∀ s c v, c < 16 → s.d3hot = false → ∃ t, exec (.registerWrite (0x310000 + 8 * c) 8 v) s = .next t ∧ t = { s with tvec := t.tvec } ∧
    tvecAt t c = v ∧ ∀ d, d ≠ c → tvecAt t d = tvecAt s d)

/-- R344, R444, R404: a tail write that lowers an enabled queue's count, or raises it past its ring, stops the queue, the tail keeping what
was written (read from R344, log entry 61); a queue is enabled
only with a sound base and size; RESTART empties a stopped queue; a HEAD write in page-fault mode moves HEAD, one past TAIL is ignored
(the comparison of R404 as it stands, log entry 76). -/
def Obligations.QueueRegisters : Prop :=
  (∀ s q v, q < 64 → s.d3hot = false → let k := queueAt s q
    let was := (k.tail - k.head).toNat
    let now := (v - k.head).toNat
    let u := putQueue s q { k with tail := v }
    (k.en = false ∨ k.stop = true ∨ (was ≤ now ∧ now ≤ 2 ^ k.log.toNat) → exec (.qtail q v) s = .next u) ∧
    (k.en = true → k.stop = false → now < was ∨ 2 ^ k.log.toNat < now → ∃ t, exec (.qtail q v) s = .next t ∧
      queueAt t q = { k with tail := v, stop := true })) ∧
  (∀ s q v, q < 64 → s.d3hot = false → let k := queueAt s q
    let sound := k.log.toNat ∈ List.range' 1 16 ∧ k.base.toNat % 4096 = 0
    ∃ t, exec (.en q v) s = .next t ∧ t = putQueue s q { k with en := (queueAt t q).en } ∧
      ((queueAt t q).en = true ↔ v = true ∧ (k.en = true ∨ sound))) ∧
  (∀ s q, q < 64 → s.d3hot = false → let k := queueAt s q
    (k.stop = true → exec (.restart q) s = .next (putQueue s q { k with head := 0, tail := 0, stop := false })) ∧
    (k.stop = false → exec (.restart q) s = .next s)) ∧
  (∀ s h v, h < 12 → s.d3hot = false → let b := faultBufAt s h
    let n := (v - b.head).toNat
    (s.service.pfm = true → n ≤ (b.tail - b.head).toNat → exec (.head h v) s = .next (putFaultBuf s h { b with head := v })) ∧
    (s.service.pfm = false ∨ (b.tail - b.head).toNat < n → exec (.head h v) s = .next s))

/-- R432, R433: a GO waits while another command or the patch engine runs. Pre-emption of a launch and a checkpoint ask teams to leave; a
checkpoint stops acceptance and seals every image under the next generation, and once Germinal is lost (R33) neither begins; a release holds none; export, import and discard end with
their result codes. That a discarded image's team ends as aborted, and the sizes that an import takes, are read from R432 (log entry
84). -/
def Obligations.ContextCommands : Prop :=
  let start (s : State) (op : BitVec 3) : CtxCmd := { s.ctx with op, busy := true, result := 0, count := 0 }
  let idle (s : State) : Prop := s.d3hot = false ∧ s.ctx.busy = false ∧ s.patch.busy = false ∧ s.ctx.waiting = []
  let done (s t : State) (op : BitVec 3) (r : BitVec 4) : Prop := t = { s with ctx := { start s op with busy := false, result := r } }
  (∀ s ev op, (ev = Instr.preemptLaunch ∧ op = 0) ∨ (ev = Instr.checkpoint ∧ op = 1) ∨ (ev = Instr.releaseHeld ∧ op = 2) ∨
      (ev = Instr.exportImage ∧ op = 3) ∨ (ev = Instr.importImage ∧ op = 4) ∨ (ev = Instr.discard ∧ op = (5 : BitVec 3)) →
    s.d3hot = false → s.ctx.busy = true ∨ s.patch.busy = true → exec ev s = .next { s with ctx := { s.ctx with waiting := s.ctx.waiting ++ [op] } }) ∧
  (∀ s, idle s → s.gerLost = false → ∃ t, exec .preemptLaunch s = .next t ∧ t.ctx.op = 0 ∧ t.ctx.count = 0 ∧
    ∀ id tm la, findTeam s id = some tm → findLaunch s tm.launch = some la → la.rcd.crec = s.ctx.lsel →
      t.ctx.busy = true ∧ ∃ u, findTeam t id = some u ∧ u.leaving = true) ∧
  (∀ s, idle s → s.gerLost = false → ∃ t, exec .checkpoint s = .next t ∧ t.ctx.op = 1 ∧ t.ctx.ckgen = s.ctx.ckgen + 1 ∧ t.accepting = false ∧
    (∀ n im, kvFind s.images n = some im → kvFind t.images n = some { im with gen := s.ctx.ckgen + 1, held := true }) ∧
    ∀ id tm, findTeam s id = some tm → ∃ u, findTeam t id = some u ∧ u.leaving = true) ∧
  (∀ s, idle s → s.gerLost = true → exec .preemptLaunch s = .next { s with ctx := start s 0 } ∧
    exec .checkpoint s = .next { s with ctx := start s 1 }) ∧
  (∀ s, idle s → ∃ t, exec .releaseHeld s = .next t ∧ t.ctx.busy = false ∧ t.ctx.result = 0 ∧ t.accepting = true ∧
    (∀ n im, kvFind t.images n = some im → im.held = false) ∧ t.ctx.count = BitVec.ofNat 32 (s.images.filter fun e => e.2.held).length) ∧
  (∀ s, idle s → kvFind s.images s.ctx.slot.toNat = none →
    (∃ t, exec .exportImage s = .next t ∧ done s t 3 1) ∧ ∃ t, exec .discard s = .next t ∧ done s t 5 1) ∧
  (∀ s im bs u es v, idle s → kvFind s.images s.ctx.slot.toNat = some im → spanQuiet s (tagNow s s.ctx.casid) s.ctx.cva.toNat im.size = true →
    imageText { s with ctx := start s 3 } im = (bs, u) →
    writeBytes { u with exports := u.exports ++ [(bs, im)] } (tagNow s s.ctx.casid) s.ctx.cva.toNat (bs.map some) false = (es, v) →
    exec .exportImage s = .next { v with ctx := { v.ctx with busy := false, result := if es = [] then 0 else 7 } }) ∧
  (∀ s h u, idle s → spanQuiet s (tagNow s s.ctx.casid) s.ctx.cva.toNat 64 = true →
    readBytes { s with ctx := start s 4 } (tagNow s s.ctx.casid) s.ctx.cva.toNat 64 = (⟨h, false, none⟩, u) →
    let ends (r : BitVec 4) := exec .importImage s = .next { u with ctx := { u.ctx with busy := false, result := r } }
    (natAt h 12 4 / 2 ^ 26 ≠ u.stepId.toNat → ends 5) ∧
    (natAt h 12 4 / 2 ^ 26 = u.stepId.toNat → natAt h 0 4 ≠ u.ctx.cigen.toNat → ends 4) ∧
    (∀ bs v im w n, let size := natAt h 8 4
      natAt h 12 4 / 2 ^ 26 = u.stepId.toNat → natAt h 0 4 = u.ctx.cigen.toNat → 64 ≤ size → size ≤ 2 ^ 21 →
      spanQuiet u (tagNow s s.ctx.casid) s.ctx.cva.toNat size = true →
      readBytes u (tagNow s s.ctx.casid) s.ctx.cva.toNat size = (⟨bs, false, none⟩, v) →
      (imageCrc bs ≠ natAt h 4 4 → exec .importImage s = .next { v with ctx := { v.ctx with busy := false, result := 3 } }) ∧
      (imageCrc bs = natAt h 4 4 → importedImage v bs = (im, w) → storeSlot w 0 im.slots = some n →
        exec .importImage s = .next { w with
          images := kvPut w.images n im, ctx := { w.ctx with slot := BitVec.ofNat 16 n, busy := false, result := 0 } }))) ∧
  (∀ s im, idle s → kvFind s.images s.ctx.slot.toNat = some im → findTeam s im.tid = none → ∃ t u, exec .discard s = .next t ∧
    kvFind t.images s.ctx.slot.toNat = none ∧ findTeam t im.tid = some u ∧ u.fate = .aborted ∧ u.waves = [] ∧
    t.ctx = { start s 5 with busy := false, count := 1 })

/-- R435 to R438: a registration of a range that meets no other takes the lowest free number (the model's choice, log entry 139), its base and size as written (read from R435, log entry 86); one
that meets another ends with 2; an unload
of an object without holders removes it, with holders it reports them; a forced unload removes it and asks its holders to leave; a patch
outside a registered object ends with 1, one whose waves are parked writes its words and drops the old ones. -/
def Obligations.CodeCommands : Prop :=
  (∀ s, s.d3hot = false → s.codeCmd.busy = false → let k := s.codeCmd
    let meets (o : CodeObj) : Prop := o.asid = k.asid ∧ k.base.toNat < o.base + o.size ∧ o.base < k.base.toNat + k.size.toNat ∧
      0 < k.size.toNat ∧ 0 < o.size
    (∀ o ∈ s.codes, ¬ meets o) → ∀ i < 4096, s.codes.length < 4096 → (∀ o ∈ s.codes, o.id ≠ i) → (∀ j < i, ∃ o ∈ s.codes, o.id = j) →
    exec .codeRegister s = .next { s with
      codes := s.codes ++ [⟨i, k.base.toNat, k.size.toNat, k.asid, false⟩], codeCmd := { k with id := BitVec.ofNat 12 i, result := 0 } }) ∧
  (∀ s o, s.d3hot = false → s.codeCmd.busy = false → o ∈ s.codes → o.removed = false → o.asid = s.codeCmd.asid →
    rangesMeet s.codeCmd.base.toNat s.codeCmd.size.toNat o.base o.size = true →
    exec .codeRegister s = .next { s with codeCmd := { s.codeCmd with result := 2 } }) ∧
  (∀ s o, s.d3hot = false → s.codeCmd.busy = false → codeById s s.codeCmd.id.toNat = some o → let n := holderCount s o
    ∃ t, exec .codeUnload s = .next t ∧ t.codeCmd.holders = BitVec.ofNat 32 (min n 0xFFFFFFFF) ∧ t.codeCmd.busy = false ∧
      (n = 0 → t.codeCmd.result = 0 ∧ t.codes = s.codes.map (fun p => if p = o then { p with removed := true } else p) ∧
        ∀ e ∈ t.icache, e.1.2.1.asid = o.asid → inCode o e.1.2.2 = false) ∧
      (n ≠ 0 → t.codeCmd.result = 1 ∧ t.codes = s.codes)) ∧
  (∀ s o, s.d3hot = false → s.codeCmd.busy = false → codeById s s.codeCmd.id.toNat = some o → launchesIn s o = [] →
    ∃ t, exec .forcedUnload s = .next t ∧ t.codeCmd.busy = false ∧ t.codeCmd.result = 0 ∧
      t.codes = s.codes.map (fun p => if p = o then { p with removed := true } else p) ∧
      ∀ e ∈ waveHolders s o.asid (inCode o), ∀ tm, s.gerLost = false → findTeam s e.2.team = some tm → ∃ u, findTeam t e.2.team = some u ∧ u.leaving = true) ∧
  (∀ s, s.d3hot = false → s.patch.busy = false → let u := { s with patch := { s.patch with busy := true, result := 0, parked := 0 } }
    let tag := patchTag s
    let n := 4 * (s.patch.nw.toNat + 1)
    (patchInside s = false → exec .patch s = .next { u with patch := { u.patch with busy := false, result := 1 } }) ∧
    (∀ bs v, patchInside s = true → patchMapped u = true →
      (∀ e ∈ waveHolders u tag.asid (inPatch u tag.asid), waveParked u e.1 e.2 = true) →
      spanQuiet s tag (patchSrc s) n = true → spanQuiet s tag (patchDst s) n = true →
      readBytes u tag (patchSrc s) n = (⟨bs, false, none⟩, v) → ∃ t, exec .patch s = .next t ∧ t.patch.busy = false ∧ t.patch.result = 0 ∧
        t.patch.parked = BitVec.ofNat 16 (min (waveHolders u tag.asid (inPatch u tag.asid)).length 0xFFFF) ∧
        (∀ e ∈ t.icache, e.1.2.1.asid = tag.asid → ¬ (patchDst s ≤ e.1.2.2 ∧ e.1.2.2 < patchDst s + n)) ∧
        let ws := wordsOf bs (n / 4)
        let v' := { v with patch := { v.patch with parked := t.patch.parked } }
        t.dram = ((List.range ws.length).foldl (fun x i => patchWord x tag (patchDst s + 4 * i) (ws.getD i 0)) v').dram ∧
        ∀ p e x, n = 4 → locateText v' tag (patchDst s) = (.ok p e, x) → p.layout ≠ 4 → PlainPlace x p.pa → memWf x.dram = true →
          memReadN t.dram p.pa 4 = (ws.getD 0 0).toNat))

/-- R452 to R454, R439, R440: the steps of bring-up from state to state, a failure to state 15; D3hot with nothing resident stops the clocks
with every link down, a return ends it or waits; a function-level reset keeps the contents of device memory, a power-on does not: that it leaves DRAM empty is the model's choice (log
entry 2), and what else a function-level reset keeps is read from R439 (log entry 92). -/
def Obligations.PowerStates : Prop :=
  (∀ s, s.d3hot = false → s.boot = 1 → (Config.firmwareVerifies s.staging = true →
      exec .fwgo s = .next { s with boot := 2, measure := Config.firmwareMeasure s.staging }) ∧
    (Config.firmwareVerifies s.staging = false → ∃ t, exec .fwgo s = .next t ∧ t.boot = 15 ∧ t.berr ∈ [1, 2, 4])) ∧
  (∀ s, s.d3hot = false → s.boot = 2 → exec .trgo s = .next { s with training := true }) ∧
  (∀ s fail, s.boot = 2 → s.training = true → ∃ t, exec (.trainingComplete fail) s = .next t ∧ t.training = false ∧
    (fail ≠ 0 → t.boot = 15 ∧ t.berr = 3 ∧ t.trfail = fail) ∧
    (fail = 0 → t = { s with training := false, boot := 3 })) ∧
  (∀ s, s.boot = 3 → let t := buildHarvest s
    t = { s with boot := 4, clen := s.fused, gbase := t.gbase, gstby := t.gstby, freeCtr := t.freeCtr } ∧ t.gbase < 6 ∧
      ∃ b, t.gstby = some b ∧ b < 6 ∧ b / 3 ≠ t.gbase / 3) ∧
  (∀ s, s.d3hot = false → s.boot = 4 → exec .run s = .next { s with boot := 5, gptr := 0, accepting := true }) ∧
  (∀ s, s.d3hot = false → s.stopped = false → s.teams = [] → s.ctx.busy = false → s.ctx.waiting = [] → s.d0wait = false →
    ∃ t, exec .d3hotEntry s = .next t ∧ t.d3hot = true ∧ t.stopped = true ∧ ∀ p < 8, (portAt t p).up = false) ∧
  (∀ s, s.d3hot = true → (s.stopped = false → exec .d0Return s = .next { s with d0wait := true }) ∧
    (s.stopped = true → ∃ t, exec .d0Return s = .next t ∧ t.d3hot = false ∧ t.stopped = false ∧ t.d0wait = false)) ∧
  (∀ s, ∃ t u, exec .functionLevelReset s = .next t ∧ exec .powerOn s = .next u ∧ t.dram = s.dram ∧ t.dramPoison = s.dramPoison ∧
    u.dram = [] ∧ t = { u with dram := s.dram, dramPoison := s.dramPoison, markers := s.markers, flips := s.flips } ∧
    u.boot = State.reset.boot ∧ u.waves = [] ∧ u.teams = [] ∧ u.launches = [] ∧ u.caches = [] ∧ u.lstore = [] ∧ u.ctx = State.reset.ctx)

/-! The machine as a whole. -/

namespace Sys2Proof.Machine

/-- The guard of an instruction written without one (R63). -/
def un : Guard := ⟨15, false⟩

/-- The value that the Reset columns give the register word at an offset of BAR0: DEVID apart (it shares its word with STEP). -/
def resetWord (off : Nat) : Word :=
  if off = 0x4 then 1
  else if 0x20000 ≤ off ∧ off < 0x20240 then 192
  else if off = 0x40000 then 2800
  else if 0x40100 ≤ off ∧ off < 0x40160 then 2000
  else 0

/-- The slot that an issue turn serves: the only one that may issue, or the first whose issue changes the state (log entry 1). -/
def Served (s : State) (r : SlotRef) : Prop :=
  issuers s = [r] ∨ (2 ≤ (issuers s).length ∧ (issuers s).find? (fun q => moves s (issueAt s q)) = some r)

/-- The state in which a slot issues: the `tkwait` it was held by has passed. -/
def passed (s : State) (r : SlotRef) : State := onSlot s r fun sl => { sl with tokWait := 0 }

end Sys2Proof.Machine

/-- R441 and the Reset columns: after reset every register word below the fault records reads its reset value, DEVID reads
0x4C52, no die and no home is fenced, and PBASE reads as R455 says. STEP (log entry 3), CLEN, GBASE, GSTBY before BOOT 4, and
ASTB, to which the spec gives no reset value, are left out. -/
def Parts.ResetRegisters : Prop :=
  (∀ off, off % 4 = 0 → 0 < off → off < 0x400000 → ¬ (0x50000 ≤ off ∧ off < 0x60000) → ¬ (0x340000 ≤ off ∧ off < 0x340008) →
    readReg State.reset off = resetWord off) ∧
  field (readReg State.reset 0) 0 16 = (0x4C52 : BitVec 16) ∧
  readReg State.reset 0x50050 = 0x2D05E000 ∧ readReg State.reset 0x50054 = 0xA ∧
  readReg State.reset 0x50058 = 0 ∧ readReg State.reset 0x50060 = 0 ∧ State.reset.clock = 0

/-- Every invariant below holds of the machine right after reset. -/
def Parts.ResetMeetsInvariants : Prop :=
  MemoriesWf State.reset ∧ BootLegal State.reset ∧ WavesShaped State.reset ∧ InputsAreEvents State.reset

/-- R441 and the Reset columns; and the invariants below hold of the machine right after reset. -/
def Obligations.ResetState : Prop := Parts.ResetRegisters ∧ Parts.ResetMeetsInvariants

/-- R57, R67, R75 to R77: every well-formed instruction, with every value of its operands, is what the decoder reads from its
words; a single-word instruction decodes to itself whatever follows it. -/
def Obligations.RoundTrip : Prop :=
  ∀ i, WellFormed i = true →
    (∃ w0, encode i = [w0] ∧ twoWord w0 = false ∧ ∀ w1, decode w0 w1 = .ok i) ∨
    (∃ w0 w1, encode i = [w0, w1] ∧ twoWord w0 = true ∧ decode w0 w1 = .ok i)

/-- R57, R67, R78: what the decoder accepts has no other spelling: encoding what it read gives the words back. -/
def Obligations.OneSpelling : Prop :=
  ∀ w0 w1 i, decode w0 w1 = .ok i → encode i = if twoWord w0 then [w0, w1] else [w0]

/-- Words that the spec's examples write out, across the families, decode to the instructions they stand for. -/
def Obligations.SpecWords : Prop :=
  ∀ e ∈ ([
    (0x00F06105, 0, .addI32 ⟨false, un, false, 6, 4, 5⟩),
    (0x30F0E302, 0, .shli ⟨false, un, 7, 6, 2⟩),
    (0x021081FB, 0, .subI32 ⟨false, ⟨1, false⟩, false, 8, 7, 59⟩),
    (0xC0F09000, 0x12345678, .movi ⟨false, un, 9, 0x12345678⟩),
    (0x66F03042, 0, .ffmaF32 ⟨false, un, false, 3, 1, 2⟩),
    (0xAEF06503, 0, .rdx ⟨un, 3, 10, 3⟩),
    (0xB2F00010, 0, .setj ⟨un, 16⟩),
    (0xC6F0A080, 0x34440040, .ld ⟨false, un, false, 10, 2, 3, 4, 2, 1, 0x40⟩),
    (0xD2F00000, 0x01200012, .xfence ⟨un, 1, 1, 2⟩),
    (0xD4F00143, 0x02000000, .lsctlMode ⟨un, 5, 3, 0⟩),
    (0xD6F0020C, 0x00400000, .cpG2l ⟨un, 8, 12, 2, 0, 0, 0⟩),
    (0xDCF0020A, 0x01550C10, .mmaJ ⟨un, 0, 8, 10, 0, 2, true, 1, 1, 3, 1⟩),
    (0xE6100E01, 0, .spawn ⟨⟨1, false⟩, 56, 1, 0⟩),
    (0xF4F00000, 5, .trap ⟨un, 5⟩),
    (0xF6F00000, 0, .eret ⟨un⟩),
    (0xFAF04086, 4, .tlbopMap ⟨un, 4, 2, 6, 0, true⟩),
    (0xFCF00000, 0x02000C0C, .fpmodeUpd ⟨un, 0x0C, 0x0C⟩)] : List (Word × Word × Instr)), decode e.1 e.2.1 = .ok e.2.2

/-- R45, R55, R79, R151: with no event put next, an issue turn runs the served slot's next step: with no clause fetched, the
fetch; with words that decode to an instruction, that instruction, for that slot; with any others, the trap of R79. What time has ended
ends before (R50, R127, R169, R368). The turns, the slot that is served, and the core looked at next, the one after it, are the model's
choice (log entry 1). -/
def Obligations.StepRunsDecoded : Prop :=
  (∀ s i rest, let h := housekeep (tick s)
    h.stopped = false → timesUp h = i :: rest → step s = exec i h) ∧
  ∀ s r x, let h := housekeep (tick s)
    let d := watchSlots { h with turn := .device }
    let p := passed d r
    let sl := slotOf x r.b
    let w0 := sl.clause.getD sl.woff 0
    let w1 := if twoWord w0 then sl.clause.getD (sl.woff + 1) 0 else 0
    timesUp h = [] → h.inputs = [] → h.stopped = false → h.turn = .issue → issueYields h = false → Served d r → findWave p r.wave = some x →
    (sl.clause = [] → step s = afterIssue r (exec (.clauseFetch r) p)) ∧
    (sl.clause ≠ [] → ∀ i, decode w0 w1 = .ok i → step s = afterIssue r (exec i { p with cur := r })) ∧
    (sl.clause ≠ [] → (∀ i, decode w0 w1 ≠ .ok i) → ∃ cause act, (cause = 1 ∨ cause = 2) ∧
      step s = afterIssue r (.next (trapWords p r sl w0 w1 cause act)))

/-- R3, R79, R379: every step goes on while what stands next is events of the environment: the machine neither faults nor refuses. It rests
on what the model does with events that cannot occur (log entry 97) and on no step issuing for a slot without a wave (log entry 98),
both inferred. -/
def Obligations.NeverStops : Prop := ∀ s, InputsAreEvents (housekeep (tick s)) → Proceeds (step s)

/-- R10: the memories keep their one canonical form, in which a byte not listed reads 0 (log entry 2). -/
def Obligations.MemoriesStayCanonical : Prop := ∀ s t, MemoriesWf s → step s = .next t → MemoriesWf t

/-- BOOT stays one of the values of R452. -/
def Obligations.BringUpStaysLegal : Prop := ∀ s t, BootLegal s → step s = .next t → BootLegal t

/-- No lane beyond a wave's width is ever alive, and a wave keeps its registers (R39, R41, R384). -/
def Obligations.WavesStayShaped : Prop := ∀ s t, WavesShaped s → step s = .next t → WavesShaped t
end

