-- ==== Sys2Proof/Laws/Table.lean ====
section
/-! SUPPORT. Laws of finite tables and of byte memories: reading after writing, and the canonical form. -/

namespace Sys2Proof.Machine

section Tables

variable {κ α : Type} [DecidableEq κ]

@[simp] theorem kvFind_nil (k : κ) : kvFind ([] : Kv κ α) k = none := rfl

theorem kvFind_put (t : Kv κ α) (k j : κ) (a : α) : kvFind (kvPut t k a) j = if k = j then some a else kvFind t j := by
  induction t with
  | nil => simp [kvPut, kvFind]
  | cons e t ih =>
    obtain ⟨k', a'⟩ := e
    by_cases h : k' = k
    · subst h; by_cases hj : k' = j <;> simp [kvPut, kvFind, hj]
    · by_cases hj : k' = j
      · subst hj; simp [kvPut, kvFind, h, Ne.symm h]
      · simp [kvPut, kvFind, h, hj, ih]

@[simp] theorem kvFind_put_same (t : Kv κ α) (k : κ) (a : α) : kvFind (kvPut t k a) k = some a := by simp [kvFind_put]

theorem kvFind_put_other (t : Kv κ α) {k j : κ} (a : α) (h : k ≠ j) : kvFind (kvPut t k a) j = kvFind t j := by
  simp [kvFind_put, h]

theorem kvFind_erase_same (t : Kv κ α) (k : κ) : kvFind (kvErase t k) k = none := by
  induction t with
  | nil => rfl
  | cons e t ih =>
    obtain ⟨k', a'⟩ := e
    by_cases h : k' = k <;> simp_all [kvErase, kvFind]

theorem kvFind_modify (t : Kv κ α) (k j : κ) (f : α → α) :
    kvFind (kvModify t k f) j = if j = k then (kvFind t j).map f else kvFind t j := by
  induction t with
  | nil => simp [kvModify, kvFind]
  | cons e t ih =>
    obtain ⟨k', a'⟩ := e
    simp only [kvModify, List.map_cons, kvFind] at ih ⊢
    by_cases hk : k' = k
    · subst hk; by_cases hj : k' = j
      · subst hj; simp
      · simpa [hj] using ih
    · by_cases hj : k' = j
      · subst hj; simp [hk]
      · simpa [hk, hj] using ih

theorem kvFind_mem {t : Kv κ α} {k : κ} {a : α} (h : kvFind t k = some a) : (k, a) ∈ t := by
  induction t with
  | nil => simp at h
  | cons e t ih =>
    obtain ⟨k', a'⟩ := e
    by_cases hk : k' = k
    · subst hk; simp_all [kvFind]
    · simp only [kvFind, hk, if_false] at h; exact List.mem_cons_of_mem _ (ih h)

theorem mem_kvPut {t : Kv κ α} {k : κ} {a : α} {e : κ × α} (h : e ∈ kvPut t k a) : e = (k, a) ∨ e ∈ t := by
  induction t with
  | nil => simpa [kvPut] using h
  | cons d t ih =>
    obtain ⟨k', a'⟩ := d
    by_cases hk : k' = k
    · simp only [kvPut, hk, if_true, List.mem_cons] at h; simp only [List.mem_cons]; tauto
    · simp only [kvPut, hk, if_false, List.mem_cons] at h ⊢
      rcases h with h | h
      · exact .inr (.inl h)
      · exact (ih h).imp_right .inr

theorem mem_kvErase {t : Kv κ α} {k : κ} {e : κ × α} (h : e ∈ kvErase t k) : e ∈ t := List.mem_of_mem_filter h

end Tables

/-! Memories. -/

/-- The addresses of a memory in canonical form rise strictly above its first. -/
theorem memWf_cons {a : Nat} {b : Byte} {m : Mem} :
    memWf ((a, b) :: m) = true ↔ b ≠ memUnlisted ∧ (∀ c ∈ m.head?, a < c.1) ∧ memWf m = true := by
  cases m with
  | nil => simp [memWf]
  | cons c m => obtain ⟨a', b'⟩ := c; simp [memWf, and_assoc, and_left_comm]

theorem memRead_below {m : Mem} (h : memWf m = true) {a : Nat} (ha : ∀ c ∈ m.head?, a < c.1) : memRead m a = memUnlisted := by
  induction m generalizing a with
  | nil => rfl
  | cons c m ih =>
    obtain ⟨x, y⟩ := c
    have hx : a < x := ha (x, y) (by simp)
    obtain ⟨-, h2, h3⟩ := memWf_cons.1 h
    rw [memRead, if_neg (by omega)]
    exact ih h3 fun c hc => lt_trans hx (h2 c hc)

theorem memWrite_wf {m : Mem} (h : memWf m = true) (a : Nat) (b : Byte) : memWf (memWrite m a b) = true := by
  induction m with
  | nil => by_cases hb : b = memUnlisted <;> simp [memWrite, hb, memWf]
  | cons c m ih =>
    obtain ⟨x, y⟩ := c
    obtain ⟨h1, h2, h3⟩ := memWf_cons.1 h
    by_cases hlt : a < x
    · by_cases hb : b = memUnlisted
      · simpa [memWrite, hlt, hb] using h
      · simp only [memWrite, hlt, hb, if_true, if_false]
        exact memWf_cons.2 ⟨hb, by simpa using hlt, h⟩
    · by_cases he : a = x
      · subst he
        by_cases hb : b = memUnlisted
        · simpa [memWrite, hb] using h3
        · simp only [memWrite, lt_irrefl, hb, if_true, if_false]
          exact memWf_cons.2 ⟨hb, h2, h3⟩
      · simp only [memWrite, hlt, he, if_false]
        refine memWf_cons.2 ⟨h1, ?_, ih h3⟩
        cases m with
        | nil => by_cases hb : b = memUnlisted <;> simp [memWrite, hb]; omega
        | cons d m =>
          obtain ⟨u, v⟩ := d
          have hu : x < u := h2 (u, v) (by simp)
          have := memWf_cons.1 h3
          simp only [memWrite]
          split
          · split <;> simp <;> omega
          · split
            · split
              · intro c hc; exact lt_trans hu (this.2.1 c hc)
              · simp; omega
            · simpa using hu

theorem memRead_write_same {m : Mem} (h : memWf m = true) (a : Nat) (b : Byte) : memRead (memWrite m a b) a = b := by
  induction m with
  | nil => by_cases hb : b = memUnlisted <;> simp [memWrite, hb, memRead]
  | cons c m ih =>
    obtain ⟨x, y⟩ := c
    obtain ⟨-, h2, h3⟩ := memWf_cons.1 h
    by_cases hlt : a < x
    · by_cases hb : b = memUnlisted
      · simp only [memWrite, hlt, hb, if_true]
        exact memRead_below h (by simpa using hlt)
      · simp [memWrite, hlt, hb, memRead]
    · by_cases he : a = x
      · subst he
        by_cases hb : b = memUnlisted
        · simp only [memWrite, lt_irrefl, hb, if_true, if_false]; exact memRead_below h3 h2
        · simp [memWrite, hb, memRead]
      · simp only [memWrite, hlt, he, if_false, memRead, Ne.symm he]
        exact ih h3

theorem memRead_write_other (m : Mem) {a c : Nat} (b : Byte) (h : c ≠ a) : memRead (memWrite m a b) c = memRead m c := by
  induction m with
  | nil => by_cases hb : b = memUnlisted <;> simp [memWrite, hb, memRead, Ne.symm h]
  | cons d m ih =>
    obtain ⟨x, y⟩ := d
    simp only [memWrite]
    split
    · split <;> simp [memRead, Ne.symm h]
    · split
      · rename_i hx; subst hx
        split <;> simp [memRead, Ne.symm h]
      · simp [memRead, ih]

theorem memWriteN_wf {m : Mem} (h : memWf m = true) (a n v : Nat) : memWf (memWriteN m a n v) = true := by
  induction n generalizing m a v with
  | zero => exact h
  | succ n ih => exact ih (memWrite_wf h _ _) _ _

theorem memPutWord_wf {m : Mem} (h : memWf m = true) (a : Nat) (v : Word) : memWf (memPutWord m a v) = true :=
  memWriteN_wf h _ _ _

theorem memWriteList_wf {m : Mem} (h : memWf m = true) (a : Nat) (bs : List Byte) : memWf (memWriteList m a bs) = true := by
  induction bs generalizing m a with
  | nil => exact h
  | cons b bs ih => exact ih (memWrite_wf h _ _) _

theorem memRead_writeN_other (m : Mem) {a c n : Nat} (v : Nat) (h : c < a ∨ a + n ≤ c) :
    memRead (memWriteN m a n v) c = memRead m c := by
  induction n generalizing m a v with
  | zero => rfl
  | succ n ih =>
    rw [memWriteN, ih _ _ (by omega), memRead_write_other _ _ (by omega)]

theorem memReadN_writeN_other (m : Mem) {a n c k : Nat} (v : Nat) (h : c + k ≤ a ∨ a + n ≤ c) :
    memReadN (memWriteN m a n v) c k = memReadN m c k := by
  induction k generalizing c with
  | zero => rfl
  | succ k ih => simp only [memReadN]; rw [memRead_writeN_other _ _ (by omega), ih (by omega)]

theorem memReadN_writeN_same {m : Mem} (h : memWf m = true) (a n v : Nat) :
    memReadN (memWriteN m a n v) a n = v % 256 ^ n := by
  induction n generalizing m a v with
  | zero => simp [memReadN, Nat.mod_one]
  | succ n ih =>
    rw [memWriteN, memReadN, ih (memWrite_wf h _ _), memRead_writeN_other _ _ (by omega), memRead_write_same h]
    have split : v % 256 ^ (n + 1) = v % 256 + 256 * (v / 256 % 256 ^ n) := by rw [Nat.pow_succ', Nat.mod_mul]
    rw [BitVec.toNat_ofNat, split]

theorem memWord_put_same {m : Mem} (h : memWf m = true) (a : Nat) (v : Word) : memWord (memPutWord m a v) a = v := by
  rw [memWord, memPutWord, memReadN_writeN_same h]
  exact BitVec.eq_of_toNat_eq (by have := v.isLt; simp; omega)

theorem memWord_put_other (m : Mem) {a c : Nat} (v : Word) (h : c + 4 ≤ a ∨ a + 4 ≤ c) :
    memWord (memPutWord m a v) c = memWord m c := by
  rw [memWord, memPutWord, memReadN_writeN_other _ _ h, memWord]

theorem memWf_filter {m : Mem} (h : memWf m = true) (p : Host.Cell → Bool) : memWf (m.filter p) = true := by
  have low : ∀ {m : Mem} {a : Nat}, memWf m = true → (∀ c ∈ m.head?, a < c.1) → ∀ c ∈ (m.filter p).head?, a < c.1 := by
    intro m
    induction m with
    | nil => simp
    | cons d m ih =>
      intro a hm ha
      obtain ⟨x, y⟩ := d
      have hx : a < x := ha (x, y) (by simp)
      obtain ⟨-, h2, h3⟩ := memWf_cons.1 hm
      by_cases hp : p (x, y) = true
      · simpa [hp] using hx
      · simp only [List.filter_cons, hp]
        exact ih h3 fun c hc => lt_trans hx (h2 c hc)
  induction m with
  | nil => rfl
  | cons d m ih =>
    obtain ⟨x, y⟩ := d
    obtain ⟨h1, h2, h3⟩ := memWf_cons.1 h
    by_cases hp : p (x, y) = true
    · simp only [List.filter_cons, hp, if_true]
      exact memWf_cons.2 ⟨h1, low h3 h2, ih h3⟩
    · simpa [List.filter_cons, hp] using ih h3

theorem memClear_wf {m : Mem} (h : memWf m = true) (a n : Nat) : memWf (memClear m a n) = true := memWf_filter h _

end Sys2Proof.Machine
end

