-- ==== Sys2Proof/Laws/Access.lean ====
section
/-! SUPPORT. Laws of the accessors: finding a wave after a change of one, and register writes read back. -/

namespace Sys2Proof.Machine

/-! Waves. -/

@[simp] theorem findWave_put_same (s : State) (w : Nat) (x : Wave) : findWave (putWave s w x) w = some x := kvFind_put_same _ _ _

theorem findWave_put (s : State) (w v : Nat) (x : Wave) : findWave (putWave s w x) v = if w = v then some x else findWave s v :=
  kvFind_put _ _ _ _

theorem findWave_on (s : State) (w v : Nat) (f : Wave → Wave) :
    findWave (onWave s w f) v = if v = w then (findWave s v).map f else findWave s v := kvFind_modify _ _ _ _

theorem findWave_on_same {s : State} {w : Nat} {f : Wave → Wave} {x : Wave} (h : findWave s w = some x) :
    findWave (onWave s w f) w = some (f x) := by simp [findWave_on, h]

theorem findWave_on_other (s : State) {w v : Nat} (f : Wave → Wave) (h : v ≠ w) : findWave (onWave s w f) v = findWave s v := by
  simp [findWave_on, h]

@[simp] theorem slotOf_withSlot (x : Wave) (b : Bool) (sl : Slot) : slotOf (withSlot x b sl) b = sl := by
  cases b <;> rfl

@[simp] theorem slotOf_withSlot_other (x : Wave) (b : Bool) (sl : Slot) : slotOf (withSlot x b sl) (other b) = slotOf x (other b) := by
  cases b <;> rfl

@[simp] theorem withSlot_withSlot (x : Wave) (b : Bool) (sl sl' : Slot) : withSlot (withSlot x b sl) b sl' = withSlot x b sl' := by
  cases b <;> rfl

@[simp] theorem withSlot_slotOf (x : Wave) (b : Bool) : withSlot x b (slotOf x b) = x := by cases b <;> rfl

@[simp] theorem laneReg_onWave (s : State) (w v : Nat) (f : Wave → Wave) (x : Wave) (n l : Nat) :
    laneReg (onWave s w f) v x n l = laneReg s v x n l := rfl

@[simp] theorem laneReg_putWave (s : State) (w v : Nat) (y x : Wave) (n l : Nat) :
    laneReg (putWave s w y) v x n l = laneReg s v x n l := rfl

/-! Operand blocks that are being read (R315). -/

theorem SeenBlock.refl (w : Nat) (x : Wave) (ws : List RegWrite) (wins : List MatWindow) (second : Bool) (o : MatOperand) :
    SeenBlock w x ws wins second o o := .inl rfl

theorem SeenBlock.trans {w : Nat} {x : Wave} {ws ws' : List RegWrite} {wins : List MatWindow} {second : Bool} {o p q : MatOperand}
    (h : SeenBlock w x ws wins second o p) (k : SeenBlock w x ws' wins second p q) : SeenBlock w x (ws ++ ws') wins second o q := by
  obtain rfl | ⟨bs, bs', rfl, rfl, hl, hb⟩ := h
  · obtain rfl | ⟨cs, cs', rfl, rfl, kl, kb⟩ := k
    · exact .inl rfl
    · refine .inr ⟨cs, cs', rfl, rfl, kl, fun i => (kb i).imp id ?_⟩
      rintro ⟨win, h1, h2, h3, n, l, v, h4, h5⟩
      exact ⟨win, h1, h2, h3, n, l, v, List.mem_append_right _ h4, h5⟩
  · have left : ∀ i, bs'[i]? = bs[i]? ∨ ∃ win ∈ wins, win.second = second ∧ win.slot.wave = w ∧ ∃ n l v, RegWrite.lane n l v ∈ ws ++ ws' ∧
        svLane x n = false ∧ win.reg ≤ n ∧ i / 4 = (n - win.reg) * win.width + l ∧ bs'[i]? = some (field v (8 * (i % 4)) 8) := fun i => by
      refine (hb i).imp id ?_
      rintro ⟨win, h1, h2, h3, n, l, v, h4, h5⟩
      exact ⟨win, h1, h2, h3, n, l, v, List.mem_append_left _ h4, h5⟩
    obtain rfl | ⟨cs, cs', e, rfl, kl, kb⟩ := k
    · exact .inr ⟨bs, bs', rfl, rfl, hl, left⟩
    · obtain rfl : bs' = cs := MatOperand.bytes.inj e
      refine .inr ⟨bs, cs', rfl, rfl, kl.trans hl, fun i => ?_⟩
      rcases kb i with hi | ⟨win, h1, h2, h3, n, l, v, h4, h5⟩
      · rw [hi]; exact left i
      · exact .inr ⟨win, h1, h2, h3, n, l, v, List.mem_append_right _ h4, h5⟩

theorem SeenSupply.trans {w : Nat} {x : Wave} {ws ws' : List RegWrite} {o p q : MatSupply} (h : SeenSupply w x ws o p)
    (k : SeenSupply w x ws' p q) : SeenSupply w x (ws ++ ws') o q := by
  have e : p.windows = o.windows := by rw [h.1]
  refine ⟨by rw [k.1, h.1], h.2.1.trans (e ▸ k.2.1), h.2.2.trans (e ▸ k.2.2)⟩

theorem forall₂_trans {α : Type} {P Q R : α → α → Prop} (h : ∀ a b c, P a b → Q b c → R a c) {l m n : List α} (h₁ : List.Forall₂ P l m)
    (h₂ : List.Forall₂ Q m n) : List.Forall₂ R l n := by
  induction h₁ generalizing n with
  | nil => cases h₂; exact .nil
  | cons a _ ih => cases h₂ with
    | cons b r => exact .cons (h _ _ _ a b) (ih r)

theorem SeenOp.trans {w : Nat} {x : Wave} {ws ws' : List RegWrite} {o p q : MatOp} (h : SeenOp w x ws o p) (k : SeenOp w x ws' p q) :
    SeenOp w x (ws ++ ws') o q := by
  have e : p.windows = o.windows := by rw [h.1]
  exact ⟨by rw [k.1, h.1], h.2.1.trans (e ▸ k.2.1), h.2.2.1.trans (e ▸ k.2.2.1),
    forall₂_trans (fun _ _ _ a b => a.trans b) h.2.2.2 k.2.2.2⟩

theorem SeenMats.trans {w : Nat} {x : Wave} {ws ws' : List RegWrite} {l m n : Kv Nat MatOp} (h : SeenMats w x ws l m)
    (k : SeenMats w x ws' m n) : SeenMats w x (ws ++ ws') l n :=
  forall₂_trans (fun _ _ _ a b => ⟨b.1.trans a.1, a.2.trans b.2⟩) h k

theorem SeenOp.refl (w : Nat) (x : Wave) (ws : List RegWrite) (op : MatOp) : SeenOp w x ws op op :=
  ⟨rfl, .inl rfl, .inl rfl, List.forall₂_same.2 fun _ _ => ⟨rfl, .inl rfl, .inl rfl⟩⟩

theorem SeenMats.refl (w : Nat) (x : Wave) (ws : List RegWrite) (ms : Kv Nat MatOp) : SeenMats w x ws ms ms :=
  List.forall₂_same.2 fun _ _ => ⟨rfl, .refl ..⟩

/-- Which wave's mode the results were written in is all that matters of it. -/
theorem SeenMats.wave {w : Nat} {x y : Wave} {ws : List RegWrite} {ms ms' : Kv Nat MatOp} (e : y.super = x.super)
    (h : SeenMats w x ws ms ms') : SeenMats w y ws ms ms' := by
  have lane : ∀ n, svLane y n = svLane x n := fun n => by simp [svLane, e]
  have block : SeenBlock w y ws = SeenBlock w x ws := by
    funext _ _ _ _
    simp only [SeenBlock, lane]
  have supply : SeenSupply w y ws = SeenSupply w x ws := by
    funext _ _
    simp only [SeenSupply, block]
  simpa only [SeenMats, SeenOp, supply, block] using h

@[simp] theorem putWordAt_length (bs : List Byte) (k : Nat) (v : Word) : (putWordAt bs k v).length = bs.length := by simp [putWordAt]

/-- A word put into a block: its bytes, the others as they were. -/
theorem putWordAt_get (bs : List Byte) (k : Nat) (v : Word) (i : Nat) : (putWordAt bs (4 * k) v)[i]? = bs[i]? ∨
    (i / 4 = k ∧ (putWordAt bs (4 * k) v)[i]? = some (field v (8 * (i % 4)) 8)) := by
  by_cases hi : i / 4 = k
  · by_cases hl : i < bs.length
    · refine .inr ⟨hi, ?_⟩
      obtain h | h | h | h : i = 4 * k ∨ i = 4 * k + 1 ∨ i = 4 * k + 2 ∨ i = 4 * k + 3 := by omega
      all_goals
        subst h
        simp [putWordAt, hl, Nat.add_mod, Nat.mul_mod_right]
    · refine .inl ?_
      rw [List.getElem?_eq_none (by rw [putWordAt_length]; omega), List.getElem?_eq_none (by omega)]
  · refine .inl ?_
    simp only [putWordAt, List.getElem?_set]
    rw [if_neg (by omega), if_neg (by omega), if_neg (by omega), if_neg (by omega)]

theorem seeBlocks_seen (choice w n l : Nat) (v : Word) {x : Wave} (hs : svLane x n = false) (wins : List MatWindow) (p : MatOperand × MatOperand) :
    SeenBlock w x [.lane n l v] wins false p.1 (seeBlocks choice w n l v wins p).1 ∧
      SeenBlock w x [.lane n l v] wins true p.2 (seeBlocks choice w n l v wins p).2 := by
  have put : ∀ (win : MatWindow) (second : Bool) (o : MatOperand), win ∈ wins → win.second = second → win.slot.wave = w → win.reg ≤ n →
      SeenBlock w x [.lane n l v] wins second o (match o with
        | .bytes bs => .bytes (putWordAt bs (4 * ((n - win.reg) * win.width + l)) v)
        | m => m) := by
    intro win second o hm hsec hw hr
    cases o with
    | bytes bs =>
      refine .inr ⟨_, _, rfl, rfl, putWordAt_length .., fun i => (putWordAt_get bs _ v i).imp id ?_⟩
      rintro ⟨h1, h2⟩
      exact ⟨win, hm, hsec, hw, n, l, v, by simp, hs, hr, h1, h2⟩
    | scratch _ _ => exact .inl rfl
  suffices h : ∀ (rest : List MatWindow) (q : MatOperand × MatOperand), rest ⊆ wins → SeenBlock w x [.lane n l v] wins false p.1 q.1 →
      SeenBlock w x [.lane n l v] wins true p.2 q.2 → SeenBlock w x [.lane n l v] wins false p.1 (seeBlocks choice w n l v rest q).1 ∧
        SeenBlock w x [.lane n l v] wins true p.2 (seeBlocks choice w n l v rest q).2 from h wins p (List.Subset.refl _) (.inl rfl) (.inl rfl)
  have same : ∀ {second o q}, SeenBlock w x ([.lane n l v] ++ [.lane n l v]) wins second o q → SeenBlock w x [.lane n l v] wins second o q := by
    intro second o q h
    simpa [SeenBlock] using h
  intro rest
  induction rest with
  | nil => exact fun q _ h1 h2 => ⟨h1, h2⟩
  | cons win rest ih =>
    intro q hsub h1 h2
    have hm : win ∈ wins := hsub (by simp)
    have hsub' : rest ⊆ wins := fun a ha => hsub (List.mem_cons_of_mem _ ha)
    simp only [seeBlocks, List.foldl_cons] at ih ⊢
    by_cases hc : (win.slot.wave ≠ w || n < win.reg || choice % 2 = 0) = true
    · rw [if_pos hc]
      exact ih q hsub' h1 h2
    · rw [if_neg hc]
      simp only [Bool.or_eq_true, decide_eq_true_eq, not_or, not_not, not_lt] at hc
      by_cases hb : win.second = true
      · rw [if_pos hb]
        exact ih _ hsub' h1 (same (h2.trans (put win true q.2 hm hb hc.1.1 hc.1.2)))
      · rw [if_neg hb]
        exact ih _ hsub' (same (h1.trans (put win false q.1 hm (by simpa using hb) hc.1.1 hc.1.2))) h2

theorem seeWrite_seen (choice w n l : Nat) (v : Word) {x : Wave} (hs : svLane x n = false) (op : MatOp) :
    SeenOp w x [.lane n l v] op (seeWrite choice w n l v op) := by
  refine ⟨rfl, (seeBlocks_seen choice w n l v hs op.windows (op.a, op.b)).1, (seeBlocks_seen choice w n l v hs op.windows (op.a, op.b)).2, ?_⟩
  simp only [seeWrite, List.forall₂_map_right_iff]
  exact List.forall₂_same.2 fun p _ => ⟨rfl, (seeBlocks_seen choice w n l v hs p.windows (p.a, p.b)).1,
    (seeBlocks_seen choice w n l v hs p.windows (p.a, p.b)).2⟩

theorem showWrite_seen (s : State) (w n l : Nat) (v : Word) {x : Wave} (hs : svLane x n = false) :
    SeenMats w x [.lane n l v] s.mats (showWrite s w n l v).mats := by
  unfold showWrite
  split
  · exact .refl ..
  · simp only [SeenMats, List.forall₂_map_right_iff]
    exact List.forall₂_same.2 fun m _ => ⟨rfl, seeWrite_seen _ w n l v hs m.2⟩

/-- What writing a register word does to the poison marks of the registers. -/
theorem putLocalWord_poison (s : State) (cl a : Nat) (v : Word) (k : Nat) :
    k ∈ (putLocalWord s cl a v).regPoison ↔ k ∈ s.regPoison ∧ k ≠ lsKey cl a := by
  simp only [putLocalWord, putLocalNat, List.mem_filter, Bool.not_eq_true', Bool.and_eq_false_iff, decide_eq_false_iff_not]
  exact and_congr_right fun _ => ⟨by omega, by omega⟩

/-! Register writes. -/

/-- A register result names a register that the wave has. -/
def WriteFits (x : Wave) : RegWrite → Prop
  | .lane _ l _ => l < x.width
  | .group n _ => n < x.gregs ∨ svGroup x n = true

/-- What writing registers of a wave makes of a state. -/
structure WroteRegs (s : State) (w : Nat) (x : Wave) (ws : List RegWrite) (t : State) : Prop where
  rest : t = { s with waves := t.waves, lstore := t.lstore, regPoison := t.regPoison, mats := t.mats }
  waves : ∀ v, v ≠ w → findWave t v = findWave s v
  mems : memWf t.lstore = true
  mats : (∀ m ∈ s.mats, noWindows m.2 = true) → t.mats = s.mats
  reads : SeenMats w x ws s.mats t.mats
  poison : ∀ k, k ∈ t.regPoison ↔ k ∈ s.regPoison ∧
    ¬ ∃ n l v, RegWrite.lane n l v ∈ ws ∧ svLane x n = false ∧ k = lsKey (clusterOf w) (regAddr x n l)
  bytes : ∀ k, (¬ ∃ n l v, RegWrite.lane n l v ∈ ws ∧ svLane x n = false ∧ lsKey (clusterOf w) (regAddr x n l) ≤ k ∧
    k < lsKey (clusterOf w) (regAddr x n l) + 4) → memRead t.lstore k = memRead s.lstore k
  wave : ∃ y, findWave t w = some y ∧ y = { x with g := y.g, svG := y.svG, svV := y.svV } ∧ y.g.length = x.g.length ∧
    y.svG.length = x.svG.length ∧ y.svV.length = x.svV.length ∧
    (∀ n, groupReg y n = lastGroup ws n (groupReg x n)) ∧
    ∀ n l, l < x.width → laneReg t w y n l = lastLane ws n l (laneReg s w x n l)

theorem WroteRegs.none (s : State) {w : Nat} {x : Wave} (h : findWave s w = some x) (hm : memWf s.lstore = true) :
    WroteRegs s w x [] s :=
  ⟨rfl, fun _ _ => rfl, hm, fun _ => rfl, .refl .., fun _ => by simp, fun _ _ => rfl, x, h, rfl, rfl, rfl, rfl, fun _ => rfl, fun _ _ _ => rfl⟩

/-- Changing the windows of an operation that has none, to a list that is empty where it was, changes nothing. -/
theorem noWindows_iff (op : MatOp) : noWindows op = true ↔ op.windows = [] ∧ ∀ p ∈ op.supplies, p.windows = [] := by
  simp [noWindows, List.all_eq_true]

theorem mapWindows_quiet (f : List MatWindow → List MatWindow) (hf : f [] = []) {op : MatOp} (h : noWindows op = true) :
    mapWindows f op = op := by
  obtain ⟨h1, h2⟩ := (noWindows_iff op).1 h
  have hs : (op.supplies.map fun p => { p with windows := f p.windows }) = op.supplies := by
    conv_rhs => rw [← List.map_id op.supplies]
    refine List.map_congr_left fun p hp => ?_
    have := h2 p hp
    cases p; simp_all
  unfold mapWindows
  rw [hs, h1, hf, ← h1]

theorem seeWrite_quiet (choice w n l : Nat) (v : Word) {op : MatOp} (h : noWindows op = true) : seeWrite choice w n l v op = op := by
  obtain ⟨h1, h2⟩ := (noWindows_iff op).1 h
  have hs : (op.supplies.map fun p => { p with
      a := (seeBlocks choice w n l v p.windows (p.a, p.b)).1, b := (seeBlocks choice w n l v p.windows (p.a, p.b)).2 }) = op.supplies := by
    conv_rhs => rw [← List.map_id op.supplies]
    refine List.map_congr_left fun p hp => ?_
    have := h2 p hp
    cases p; simp_all [seeBlocks]
  have hb : seeBlocks choice w n l v op.windows (op.a, op.b) = (op.a, op.b) := by rw [h1]; rfl
  unfold seeWrite
  rw [hb]
  simp only [hs]

theorem showWrite_eq (s : State) (w n l : Nat) (v : Word) : ∃ ms, showWrite s w n l v = { s with mats := ms } ∧
    ((∀ m ∈ s.mats, noWindows m.2 = true) → ms = s.mats) := by
  unfold showWrite
  split
  · exact ⟨s.mats, rfl, fun _ => rfl⟩
  · refine ⟨_, rfl, fun h => ?_⟩
    conv_rhs => rw [← List.map_id s.mats]
    apply List.map_congr_left
    intro m hm
    simp [seeWrite_quiet _ _ _ _ _ (h m hm)]

/-- The addresses of lane registers do not meet. -/
theorem regAddr_apart (x : Wave) {n l n' l' : Nat} (hl : l < x.width) (hl' : l' < x.width) (h : ¬ (n' = n ∧ l' = l)) :
    regAddr x n l + 4 ≤ regAddr x n' l' ∨ regAddr x n' l' + 4 ≤ regAddr x n l := by
  unfold regAddr
  rcases Nat.lt_trichotomy n n' with hn | rfl | hn
  · have : (n + 1) * x.width ≤ n' * x.width := Nat.mul_le_mul_right _ hn
    rw [Nat.add_mul] at this; omega
  · omega
  · have : (n' + 1) * x.width ≤ n * x.width := Nat.mul_le_mul_right _ hn
    rw [Nat.add_mul] at this; omega

theorem WroteRegs.group {s : State} {w : Nat} {x : Wave} (h : findWave s w = some x) (hm : memWf s.lstore = true)
    (hx : x.g.length = x.gregs ∧ x.svG.length = 8) {n : Nat} {v : Word} (hn : WriteFits x (.group n v)) :
    WroteRegs s w x [.group n v] (applyWrite s w x.super (.group n v)) := by
  refine ⟨rfl, fun u hu => findWave_on_other _ _ hu, hm, fun _ => rfl, .refl .., fun _ => by simp; rfl, fun _ _ => rfl, setGroupIn x x.super n v, findWave_on_same h, ?_, ?_, ?_, ?_,
    ?_, fun m l _ => ?_⟩
  · unfold setGroupIn; split <;> rfl
  · unfold setGroupIn; split <;> simp
  · unfold setGroupIn; split <;> simp
  · unfold setGroupIn; split <;> rfl
  · intro m
    simp only [lastGroup, List.foldl_cons, List.foldl_nil]
    simp only [WriteFits, svGroup, Bool.and_eq_true, decide_eq_true_eq] at hn
    by_cases hs : (x.super && 56 ≤ n && n < 64) = true
    · simp only [setGroupIn, hs, if_true]
      simp only [Bool.and_eq_true, decide_eq_true_eq] at hs
      by_cases hmn : n = m
      · subst hmn
        have : n - 56 < 8 := by omega
        simp [groupReg, svGroup, hs.1.1, hs.1.2, hs.2, List.getD_eq_getElem?_getD, hx.2, this]
      · simp only [hmn, if_false, groupReg, svGroup]
        by_cases hq : (x.super && 56 ≤ m && m < 64) = true
        · simp only [hq, if_true]
          simp only [Bool.and_eq_true, decide_eq_true_eq] at hq
          have : n - 56 ≠ m - 56 := by omega
          simp [List.getD_eq_getElem?_getD, this]
        · simp only [hq, Bool.false_eq_true, if_false]
    · simp only [setGroupIn, hs]
      simp only [Bool.and_eq_true, decide_eq_true_eq] at hs
      by_cases hmn : n = m
      · subst hmn
        have hlt : n < x.g.length := by rw [hx.1]; rcases hn with hn | hn; exacts [hn, absurd hn hs]
        have hns : ¬ (x.super = true ∧ 56 ≤ n ∧ n < 64) := by tauto
        simp [groupReg, svGroup, List.getD_eq_getElem?_getD, hlt, and_assoc, hns]
      · simp [hmn, groupReg, svGroup, List.getD_eq_getElem?_getD]
  · simp only [lastLane, List.foldl_cons, List.foldl_nil]
    unfold setGroupIn; split <;> rfl

theorem WroteRegs.lane {s : State} {w : Nat} {x : Wave} (h : findWave s w = some x) (hm : memWf s.lstore = true)
    (hx : x.width ≤ 64 ∧ x.svV.length = 512) {n l : Nat} {v : Word} (hl : l < x.width) :
    WroteRegs s w x [.lane n l v] (applyWrite s w x.super (.lane n l v)) := by
  simp only [applyWrite, setLaneIn, h]
  by_cases hs : (x.super && 48 ≤ n && n < 56) = true
  · simp only [hs, if_true]
    have hsv : svLane x n = true := hs
    simp only [Bool.and_eq_true, decide_eq_true_eq] at hs
    refine ⟨rfl, fun u hu => by simp [findWave_put, hu.symm], hm, fun _ => rfl, .refl .., fun _ => by simp [hsv]; rfl, fun _ _ => rfl,
      { x with svV := x.svV.set ((n - 48) * 64 + l) v }, by simp, rfl, rfl, rfl, by simp, fun _ => rfl, fun m j hj => ?_⟩
    simp only [lastLane, List.foldl_cons, List.foldl_nil, laneReg_putWave]
    by_cases hmn : n = m ∧ l = j
    · obtain ⟨rfl, rfl⟩ := hmn
      have : (n - 48) * 64 + l < 512 := by omega
      have h2 : svLane { x with svV := x.svV.set ((n - 48) * 64 + l) v } n = true := hsv
      simp [laneReg, h2, List.getD_eq_getElem?_getD, hx.2, this]
    · simp only [hmn, if_false, laneReg]
      have h2 : svLane { x with svV := x.svV.set ((n - 48) * 64 + l) v } m = svLane x m := rfl
      rw [h2]
      split
      · rename_i hq
        simp only [svLane, Bool.and_eq_true, decide_eq_true_eq] at hq
        have : (n - 48) * 64 + l ≠ (m - 48) * 64 + j := by omega
        simp [List.getD_eq_getElem?_getD, this]
      · rfl
  · simp only [hs]
    have hsv : svLane x n = false := by simpa [svLane] using hs
    obtain ⟨ms, he, hq⟩ := showWrite_eq (putLocalWord s (clusterOf w) (regAddr x n l) v) w n l v
    have seen := showWrite_seen (putLocalWord s (clusterOf w) (regAddr x n l) v) w n l v hsv
    simp only [Bool.false_eq_true, if_false]
    rw [he] at seen ⊢
    refine ⟨rfl, fun _ _ => rfl, memWriteN_wf hm _ _ _, hq, seen, fun k => ?_, fun k hk => ?_, x, h, rfl, rfl, rfl, rfl, fun _ => rfl, fun m j hj => ?_⟩
    · refine (putLocalWord_poison s (clusterOf w) (regAddr x n l) v k).trans (and_congr_right fun _ => ⟨?_, ?_⟩)
      · rintro h1 ⟨n', l', v', h2, -, rfl⟩
        simp only [List.mem_singleton, RegWrite.lane.injEq] at h2
        obtain ⟨rfl, rfl, -⟩ := h2
        exact h1 rfl
      · exact fun h1 h2 => h1 ⟨n, l, v, by simp, hsv, h2⟩
    · refine memRead_writeN_other _ _ ?_
      by_contra hc
      exact hk ⟨n, l, v, by simp, hsv, by omega, by omega⟩
    · simp only [lastLane, List.foldl_cons, List.foldl_nil]
      by_cases hmn : n = m ∧ l = j
      · obtain ⟨rfl, rfl⟩ := hmn
        simp only [laneReg, hsv, and_self, if_true, Bool.false_eq_true, if_false]
        exact memWord_put_same hm _ v
      · simp only [hmn, if_false, laneReg]
        split
        · rfl
        · have := regAddr_apart x hj hl (n := m) (l := j) (n' := n) (l' := l) hmn
          simp only [localWord]
          exact memWord_put_other s.lstore v (by simp only [lsKey]; omega)

theorem WroteRegs.trans {s t u : State} {w : Nat} {x : Wave} {ws ws' : List RegWrite} (h : WroteRegs s w x ws t)
    (k : ∀ y, findWave t w = some y → WroteRegs t w y ws' u) : WroteRegs s w x (ws ++ ws') u := by
  obtain ⟨y, hy, ye, y1, y2, y3, yg, yl⟩ := h.wave
  have k := k y hy
  obtain ⟨z, hz, ze, z1, z2, z3, zg, zl⟩ := k.wave
  have sup : ∀ n, svLane y n = svLane x n := fun n => by rw [ye]; rfl
  have addr : ∀ n l, regAddr y n l = regAddr x n l := fun n l => by rw [ye]; rfl
  have wid : y.width = x.width := by rw [ye]
  refine ⟨?_, fun v hv => (k.waves v hv).trans (h.waves v hv), k.mems, fun hm => ?_, ?_, fun a => ?_, fun a ha => ?_, z, hz, ?_, by omega, by omega, by omega, fun n => ?_,
    fun n l hl => ?_⟩
  · rw [k.rest, h.rest]
  · rw [k.mats (by rw [h.mats hm]; exact hm), h.mats hm]
  · exact h.reads.trans (k.reads.wave (by rw [ye]))
  · rw [k.poison a, h.poison a]
    simp only [sup, addr, List.mem_append]
    constructor
    · rintro ⟨⟨h1, h2⟩, h3⟩
      refine ⟨h1, ?_⟩
      rintro ⟨n, l, v, h4 | h4, h5⟩
      exacts [h2 ⟨n, l, v, h4, h5⟩, h3 ⟨n, l, v, h4, h5⟩]
    · rintro ⟨h1, h2⟩
      exact ⟨⟨h1, fun ⟨n, l, v, h4, h5⟩ => h2 ⟨n, l, v, .inl h4, h5⟩⟩, fun ⟨n, l, v, h4, h5⟩ => h2 ⟨n, l, v, .inr h4, h5⟩⟩
  · rw [k.bytes a, h.bytes a]
    · rintro ⟨n, l, v, h1, h2⟩; exact ha ⟨n, l, v, by simp [h1], h2⟩
    · rintro ⟨n, l, v, h1, h2⟩; rw [sup, addr] at h2; exact ha ⟨n, l, v, by simp [h1], h2⟩
  · rw [ze, ye]
  · rw [zg, yg]; simp [lastGroup, List.foldl_append]
  · rw [zl n l (by rw [wid]; exact hl), yl n l hl]; simp [lastLane, List.foldl_append]

theorem applyWrites_spec {s : State} {w : Nat} {x : Wave} (h : findWave s w = some x) (hm : memWf s.lstore = true)
    (hx : x.width ≤ 64 ∧ x.g.length = x.gregs ∧ x.svG.length = 8 ∧ x.svV.length = 512) (ws : List RegWrite)
    (fits : ∀ r ∈ ws, WriteFits x r) : WroteRegs s w x ws (applyWrites s w x.super ws) := by
  induction ws generalizing s x with
  | nil => exact WroteRegs.none s h hm
  | cons r ws ih =>
    have one : WroteRegs s w x [r] (applyWrite s w x.super r) := by
      cases r with
      | lane n l v => exact WroteRegs.lane h hm ⟨hx.1, hx.2.2.2⟩ (fits (.lane n l v) (by simp))
      | group n v => exact WroteRegs.group h hm ⟨hx.2.1, hx.2.2.1⟩ (fits (.group n v) (by simp))
    refine WroteRegs.trans (ws := [r]) one fun y hy => ?_
    obtain ⟨y', hy', ye, y1, y2, y3, -, -⟩ := one.wave
    obtain rfl : y' = y := by rw [hy] at hy'; exact (Option.some.inj hy').symm
    have e : y'.super = x.super := by rw [ye]
    have gr : y'.gregs = x.gregs := by rw [ye]
    have wd : y'.width = x.width := by rw [ye]
    have := ih (s := applyWrite s w x.super r) (x := y') hy one.mems ⟨by omega, by omega, by omega, by omega⟩ fun q hq => by
      have := fits q (List.mem_cons_of_mem _ hq)
      cases q with
      | lane n l v => simpa [WriteFits, wd] using this
      | group n v => simpa [WriteFits, svGroup, e, gr] using this
    rw [e] at this
    exact this

end Sys2Proof.Machine
end

