-- ==== Sys2Proof/Laws/State.lean ====
section
/-! SUPPORT. What each named update of the state leaves alone, one lemma a field, and what it writes: the definitions of
`Machine/Access.lean` and its like say it. -/

namespace Sys2Proof.Machine

variable (s : State)

@[simp] theorem putWave_teams (w : Nat) (x : Wave) : (putWave s w x).teams = s.teams := rfl
@[simp] theorem putWave_launches (w : Nat) (x : Wave) : (putWave s w x).launches = s.launches := rfl
@[simp] theorem putWave_lstore (w : Nat) (x : Wave) : (putWave s w x).lstore = s.lstore := rfl
@[simp] theorem putWave_dram (w : Nat) (x : Wave) : (putWave s w x).dram = s.dram := rfl
@[simp] theorem putWave_regPoison (w : Nat) (x : Wave) : (putWave s w x).regPoison = s.regPoison := rfl
@[simp] theorem putWave_banks (w : Nat) (x : Wave) : (putWave s w x).banks = s.banks := rfl
@[simp] theorem putWave_mats (w : Nat) (x : Wave) : (putWave s w x).mats = s.mats := rfl
@[simp] theorem putWave_copies (w : Nat) (x : Wave) : (putWave s w x).copies = s.copies := rfl
@[simp] theorem putWave_latches (w : Nat) (x : Wave) : (putWave s w x).latches = s.latches := rfl
@[simp] theorem putWave_caches (w : Nat) (x : Wave) : (putWave s w x).caches = s.caches := rfl
@[simp] theorem putWave_dirs (w : Nat) (x : Wave) : (putWave s w x).dirs = s.dirs := rfl
@[simp] theorem putWave_net (w : Nat) (x : Wave) : (putWave s w x).net = s.net := rfl
@[simp] theorem putWave_txns (w : Nat) (x : Wave) : (putWave s w x).txns = s.txns := rfl
@[simp] theorem putWave_tlbs (w : Nat) (x : Wave) : (putWave s w x).tlbs = s.tlbs := rfl
@[simp] theorem putWave_tiles (w : Nat) (x : Wave) : (putWave s w x).tiles = s.tiles := rfl
@[simp] theorem putWave_images (w : Nat) (x : Wave) : (putWave s w x).images = s.images := rfl
@[simp] theorem putWave_icache (w : Nat) (x : Wave) : (putWave s w x).icache = s.icache := rfl
@[simp] theorem putWave_hostSees (w : Nat) (x : Wave) : (putWave s w x).hostSees = s.hostSees := rfl
@[simp] theorem putWave_inputs (w : Nat) (x : Wave) : (putWave s w x).inputs = s.inputs := rfl
@[simp] theorem putWave_deferred (w : Nat) (x : Wave) : (putWave s w x).deferred = s.deferred := rfl
@[simp] theorem putWave_boot (w : Nat) (x : Wave) : (putWave s w x).boot = s.boot := rfl
@[simp] theorem putWave_clock (w : Nat) (x : Wave) : (putWave s w x).clock = s.clock := rfl
@[simp] theorem putWave_serial (w : Nat) (x : Wave) : (putWave s w x).serial = s.serial := rfl

@[simp] theorem onWave_teams (w : Nat) (f : Wave → Wave) : (onWave s w f).teams = s.teams := rfl
@[simp] theorem onWave_launches (w : Nat) (f : Wave → Wave) : (onWave s w f).launches = s.launches := rfl
@[simp] theorem onWave_lstore (w : Nat) (f : Wave → Wave) : (onWave s w f).lstore = s.lstore := rfl
@[simp] theorem onWave_dram (w : Nat) (f : Wave → Wave) : (onWave s w f).dram = s.dram := rfl
@[simp] theorem onWave_regPoison (w : Nat) (f : Wave → Wave) : (onWave s w f).regPoison = s.regPoison := rfl
@[simp] theorem onWave_banks (w : Nat) (f : Wave → Wave) : (onWave s w f).banks = s.banks := rfl
@[simp] theorem onWave_mats (w : Nat) (f : Wave → Wave) : (onWave s w f).mats = s.mats := rfl
@[simp] theorem onWave_copies (w : Nat) (f : Wave → Wave) : (onWave s w f).copies = s.copies := rfl
@[simp] theorem onWave_latches (w : Nat) (f : Wave → Wave) : (onWave s w f).latches = s.latches := rfl
@[simp] theorem onWave_caches (w : Nat) (f : Wave → Wave) : (onWave s w f).caches = s.caches := rfl
@[simp] theorem onWave_dirs (w : Nat) (f : Wave → Wave) : (onWave s w f).dirs = s.dirs := rfl
@[simp] theorem onWave_net (w : Nat) (f : Wave → Wave) : (onWave s w f).net = s.net := rfl
@[simp] theorem onWave_txns (w : Nat) (f : Wave → Wave) : (onWave s w f).txns = s.txns := rfl
@[simp] theorem onWave_tlbs (w : Nat) (f : Wave → Wave) : (onWave s w f).tlbs = s.tlbs := rfl
@[simp] theorem onWave_tiles (w : Nat) (f : Wave → Wave) : (onWave s w f).tiles = s.tiles := rfl
@[simp] theorem onWave_images (w : Nat) (f : Wave → Wave) : (onWave s w f).images = s.images := rfl
@[simp] theorem onWave_icache (w : Nat) (f : Wave → Wave) : (onWave s w f).icache = s.icache := rfl
@[simp] theorem onWave_hostSees (w : Nat) (f : Wave → Wave) : (onWave s w f).hostSees = s.hostSees := rfl
@[simp] theorem onWave_inputs (w : Nat) (f : Wave → Wave) : (onWave s w f).inputs = s.inputs := rfl
@[simp] theorem onWave_deferred (w : Nat) (f : Wave → Wave) : (onWave s w f).deferred = s.deferred := rfl
@[simp] theorem onWave_boot (w : Nat) (f : Wave → Wave) : (onWave s w f).boot = s.boot := rfl
@[simp] theorem onWave_clock (w : Nat) (f : Wave → Wave) : (onWave s w f).clock = s.clock := rfl
@[simp] theorem onWave_serial (w : Nat) (f : Wave → Wave) : (onWave s w f).serial = s.serial := rfl

@[simp] theorem onSlot_teams (r : SlotRef) (f : Slot → Slot) : (onSlot s r f).teams = s.teams := rfl
@[simp] theorem onSlot_launches (r : SlotRef) (f : Slot → Slot) : (onSlot s r f).launches = s.launches := rfl
@[simp] theorem onSlot_lstore (r : SlotRef) (f : Slot → Slot) : (onSlot s r f).lstore = s.lstore := rfl
@[simp] theorem onSlot_dram (r : SlotRef) (f : Slot → Slot) : (onSlot s r f).dram = s.dram := rfl
@[simp] theorem onSlot_regPoison (r : SlotRef) (f : Slot → Slot) : (onSlot s r f).regPoison = s.regPoison := rfl
@[simp] theorem onSlot_banks (r : SlotRef) (f : Slot → Slot) : (onSlot s r f).banks = s.banks := rfl
@[simp] theorem onSlot_mats (r : SlotRef) (f : Slot → Slot) : (onSlot s r f).mats = s.mats := rfl
@[simp] theorem onSlot_copies (r : SlotRef) (f : Slot → Slot) : (onSlot s r f).copies = s.copies := rfl
@[simp] theorem onSlot_latches (r : SlotRef) (f : Slot → Slot) : (onSlot s r f).latches = s.latches := rfl
@[simp] theorem onSlot_caches (r : SlotRef) (f : Slot → Slot) : (onSlot s r f).caches = s.caches := rfl
@[simp] theorem onSlot_dirs (r : SlotRef) (f : Slot → Slot) : (onSlot s r f).dirs = s.dirs := rfl
@[simp] theorem onSlot_net (r : SlotRef) (f : Slot → Slot) : (onSlot s r f).net = s.net := rfl
@[simp] theorem onSlot_txns (r : SlotRef) (f : Slot → Slot) : (onSlot s r f).txns = s.txns := rfl
@[simp] theorem onSlot_tlbs (r : SlotRef) (f : Slot → Slot) : (onSlot s r f).tlbs = s.tlbs := rfl
@[simp] theorem onSlot_tiles (r : SlotRef) (f : Slot → Slot) : (onSlot s r f).tiles = s.tiles := rfl
@[simp] theorem onSlot_images (r : SlotRef) (f : Slot → Slot) : (onSlot s r f).images = s.images := rfl
@[simp] theorem onSlot_icache (r : SlotRef) (f : Slot → Slot) : (onSlot s r f).icache = s.icache := rfl
@[simp] theorem onSlot_hostSees (r : SlotRef) (f : Slot → Slot) : (onSlot s r f).hostSees = s.hostSees := rfl
@[simp] theorem onSlot_inputs (r : SlotRef) (f : Slot → Slot) : (onSlot s r f).inputs = s.inputs := rfl
@[simp] theorem onSlot_deferred (r : SlotRef) (f : Slot → Slot) : (onSlot s r f).deferred = s.deferred := rfl
@[simp] theorem onSlot_boot (r : SlotRef) (f : Slot → Slot) : (onSlot s r f).boot = s.boot := rfl
@[simp] theorem onSlot_clock (r : SlotRef) (f : Slot → Slot) : (onSlot s r f).clock = s.clock := rfl
@[simp] theorem onSlot_serial (r : SlotRef) (f : Slot → Slot) : (onSlot s r f).serial = s.serial := rfl

@[simp] theorem onTeam_waves (t : Nat) (f : Team → Team) : (onTeam s t f).waves = s.waves := rfl
@[simp] theorem onTeam_launches (t : Nat) (f : Team → Team) : (onTeam s t f).launches = s.launches := rfl
@[simp] theorem onTeam_lstore (t : Nat) (f : Team → Team) : (onTeam s t f).lstore = s.lstore := rfl
@[simp] theorem onTeam_dram (t : Nat) (f : Team → Team) : (onTeam s t f).dram = s.dram := rfl
@[simp] theorem onTeam_regPoison (t : Nat) (f : Team → Team) : (onTeam s t f).regPoison = s.regPoison := rfl
@[simp] theorem onTeam_banks (t : Nat) (f : Team → Team) : (onTeam s t f).banks = s.banks := rfl
@[simp] theorem onTeam_mats (t : Nat) (f : Team → Team) : (onTeam s t f).mats = s.mats := rfl
@[simp] theorem onTeam_copies (t : Nat) (f : Team → Team) : (onTeam s t f).copies = s.copies := rfl
@[simp] theorem onTeam_latches (t : Nat) (f : Team → Team) : (onTeam s t f).latches = s.latches := rfl
@[simp] theorem onTeam_caches (t : Nat) (f : Team → Team) : (onTeam s t f).caches = s.caches := rfl
@[simp] theorem onTeam_dirs (t : Nat) (f : Team → Team) : (onTeam s t f).dirs = s.dirs := rfl
@[simp] theorem onTeam_net (t : Nat) (f : Team → Team) : (onTeam s t f).net = s.net := rfl
@[simp] theorem onTeam_txns (t : Nat) (f : Team → Team) : (onTeam s t f).txns = s.txns := rfl
@[simp] theorem onTeam_tlbs (t : Nat) (f : Team → Team) : (onTeam s t f).tlbs = s.tlbs := rfl
@[simp] theorem onTeam_tiles (t : Nat) (f : Team → Team) : (onTeam s t f).tiles = s.tiles := rfl
@[simp] theorem onTeam_images (t : Nat) (f : Team → Team) : (onTeam s t f).images = s.images := rfl
@[simp] theorem onTeam_icache (t : Nat) (f : Team → Team) : (onTeam s t f).icache = s.icache := rfl
@[simp] theorem onTeam_hostSees (t : Nat) (f : Team → Team) : (onTeam s t f).hostSees = s.hostSees := rfl
@[simp] theorem onTeam_inputs (t : Nat) (f : Team → Team) : (onTeam s t f).inputs = s.inputs := rfl
@[simp] theorem onTeam_deferred (t : Nat) (f : Team → Team) : (onTeam s t f).deferred = s.deferred := rfl
@[simp] theorem onTeam_boot (t : Nat) (f : Team → Team) : (onTeam s t f).boot = s.boot := rfl
@[simp] theorem onTeam_clock (t : Nat) (f : Team → Team) : (onTeam s t f).clock = s.clock := rfl
@[simp] theorem onTeam_serial (t : Nat) (f : Team → Team) : (onTeam s t f).serial = s.serial := rfl

@[simp] theorem onLaunch_waves (n : Nat) (f : Launch → Launch) : (onLaunch s n f).waves = s.waves := rfl
@[simp] theorem onLaunch_teams (n : Nat) (f : Launch → Launch) : (onLaunch s n f).teams = s.teams := rfl
@[simp] theorem onLaunch_lstore (n : Nat) (f : Launch → Launch) : (onLaunch s n f).lstore = s.lstore := rfl
@[simp] theorem onLaunch_dram (n : Nat) (f : Launch → Launch) : (onLaunch s n f).dram = s.dram := rfl
@[simp] theorem onLaunch_regPoison (n : Nat) (f : Launch → Launch) : (onLaunch s n f).regPoison = s.regPoison := rfl
@[simp] theorem onLaunch_banks (n : Nat) (f : Launch → Launch) : (onLaunch s n f).banks = s.banks := rfl
@[simp] theorem onLaunch_mats (n : Nat) (f : Launch → Launch) : (onLaunch s n f).mats = s.mats := rfl
@[simp] theorem onLaunch_copies (n : Nat) (f : Launch → Launch) : (onLaunch s n f).copies = s.copies := rfl
@[simp] theorem onLaunch_latches (n : Nat) (f : Launch → Launch) : (onLaunch s n f).latches = s.latches := rfl
@[simp] theorem onLaunch_caches (n : Nat) (f : Launch → Launch) : (onLaunch s n f).caches = s.caches := rfl
@[simp] theorem onLaunch_dirs (n : Nat) (f : Launch → Launch) : (onLaunch s n f).dirs = s.dirs := rfl
@[simp] theorem onLaunch_net (n : Nat) (f : Launch → Launch) : (onLaunch s n f).net = s.net := rfl
@[simp] theorem onLaunch_txns (n : Nat) (f : Launch → Launch) : (onLaunch s n f).txns = s.txns := rfl
@[simp] theorem onLaunch_tlbs (n : Nat) (f : Launch → Launch) : (onLaunch s n f).tlbs = s.tlbs := rfl
@[simp] theorem onLaunch_tiles (n : Nat) (f : Launch → Launch) : (onLaunch s n f).tiles = s.tiles := rfl
@[simp] theorem onLaunch_images (n : Nat) (f : Launch → Launch) : (onLaunch s n f).images = s.images := rfl
@[simp] theorem onLaunch_icache (n : Nat) (f : Launch → Launch) : (onLaunch s n f).icache = s.icache := rfl
@[simp] theorem onLaunch_hostSees (n : Nat) (f : Launch → Launch) : (onLaunch s n f).hostSees = s.hostSees := rfl
@[simp] theorem onLaunch_inputs (n : Nat) (f : Launch → Launch) : (onLaunch s n f).inputs = s.inputs := rfl
@[simp] theorem onLaunch_deferred (n : Nat) (f : Launch → Launch) : (onLaunch s n f).deferred = s.deferred := rfl
@[simp] theorem onLaunch_boot (n : Nat) (f : Launch → Launch) : (onLaunch s n f).boot = s.boot := rfl
@[simp] theorem onLaunch_clock (n : Nat) (f : Launch → Launch) : (onLaunch s n f).clock = s.clock := rfl
@[simp] theorem onLaunch_serial (n : Nat) (f : Launch → Launch) : (onLaunch s n f).serial = s.serial := rfl

@[simp] theorem setToken_waves (t n : Nat) (f : Token → Token) : (setToken s t n f).waves = s.waves := rfl
@[simp] theorem setToken_launches (t n : Nat) (f : Token → Token) : (setToken s t n f).launches = s.launches := rfl
@[simp] theorem setToken_lstore (t n : Nat) (f : Token → Token) : (setToken s t n f).lstore = s.lstore := rfl
@[simp] theorem setToken_dram (t n : Nat) (f : Token → Token) : (setToken s t n f).dram = s.dram := rfl
@[simp] theorem setToken_regPoison (t n : Nat) (f : Token → Token) : (setToken s t n f).regPoison = s.regPoison := rfl
@[simp] theorem setToken_banks (t n : Nat) (f : Token → Token) : (setToken s t n f).banks = s.banks := rfl
@[simp] theorem setToken_mats (t n : Nat) (f : Token → Token) : (setToken s t n f).mats = s.mats := rfl
@[simp] theorem setToken_copies (t n : Nat) (f : Token → Token) : (setToken s t n f).copies = s.copies := rfl
@[simp] theorem setToken_latches (t n : Nat) (f : Token → Token) : (setToken s t n f).latches = s.latches := rfl
@[simp] theorem setToken_caches (t n : Nat) (f : Token → Token) : (setToken s t n f).caches = s.caches := rfl
@[simp] theorem setToken_dirs (t n : Nat) (f : Token → Token) : (setToken s t n f).dirs = s.dirs := rfl
@[simp] theorem setToken_net (t n : Nat) (f : Token → Token) : (setToken s t n f).net = s.net := rfl
@[simp] theorem setToken_txns (t n : Nat) (f : Token → Token) : (setToken s t n f).txns = s.txns := rfl
@[simp] theorem setToken_tlbs (t n : Nat) (f : Token → Token) : (setToken s t n f).tlbs = s.tlbs := rfl
@[simp] theorem setToken_tiles (t n : Nat) (f : Token → Token) : (setToken s t n f).tiles = s.tiles := rfl
@[simp] theorem setToken_images (t n : Nat) (f : Token → Token) : (setToken s t n f).images = s.images := rfl
@[simp] theorem setToken_icache (t n : Nat) (f : Token → Token) : (setToken s t n f).icache = s.icache := rfl
@[simp] theorem setToken_hostSees (t n : Nat) (f : Token → Token) : (setToken s t n f).hostSees = s.hostSees := rfl
@[simp] theorem setToken_inputs (t n : Nat) (f : Token → Token) : (setToken s t n f).inputs = s.inputs := rfl
@[simp] theorem setToken_deferred (t n : Nat) (f : Token → Token) : (setToken s t n f).deferred = s.deferred := rfl
@[simp] theorem setToken_boot (t n : Nat) (f : Token → Token) : (setToken s t n f).boot = s.boot := rfl
@[simp] theorem setToken_clock (t n : Nat) (f : Token → Token) : (setToken s t n f).clock = s.clock := rfl
@[simp] theorem setToken_serial (t n : Nat) (f : Token → Token) : (setToken s t n f).serial = s.serial := rfl

@[simp] theorem putBank_waves (cl b : Nat) (x : Bank) : (putBank s cl b x).waves = s.waves := rfl
@[simp] theorem putBank_teams (cl b : Nat) (x : Bank) : (putBank s cl b x).teams = s.teams := rfl
@[simp] theorem putBank_launches (cl b : Nat) (x : Bank) : (putBank s cl b x).launches = s.launches := rfl
@[simp] theorem putBank_lstore (cl b : Nat) (x : Bank) : (putBank s cl b x).lstore = s.lstore := rfl
@[simp] theorem putBank_dram (cl b : Nat) (x : Bank) : (putBank s cl b x).dram = s.dram := rfl
@[simp] theorem putBank_regPoison (cl b : Nat) (x : Bank) : (putBank s cl b x).regPoison = s.regPoison := rfl
@[simp] theorem putBank_mats (cl b : Nat) (x : Bank) : (putBank s cl b x).mats = s.mats := rfl
@[simp] theorem putBank_copies (cl b : Nat) (x : Bank) : (putBank s cl b x).copies = s.copies := rfl
@[simp] theorem putBank_latches (cl b : Nat) (x : Bank) : (putBank s cl b x).latches = s.latches := rfl
@[simp] theorem putBank_caches (cl b : Nat) (x : Bank) : (putBank s cl b x).caches = s.caches := rfl
@[simp] theorem putBank_dirs (cl b : Nat) (x : Bank) : (putBank s cl b x).dirs = s.dirs := rfl
@[simp] theorem putBank_net (cl b : Nat) (x : Bank) : (putBank s cl b x).net = s.net := rfl
@[simp] theorem putBank_txns (cl b : Nat) (x : Bank) : (putBank s cl b x).txns = s.txns := rfl
@[simp] theorem putBank_tlbs (cl b : Nat) (x : Bank) : (putBank s cl b x).tlbs = s.tlbs := rfl
@[simp] theorem putBank_tiles (cl b : Nat) (x : Bank) : (putBank s cl b x).tiles = s.tiles := rfl
@[simp] theorem putBank_images (cl b : Nat) (x : Bank) : (putBank s cl b x).images = s.images := rfl
@[simp] theorem putBank_icache (cl b : Nat) (x : Bank) : (putBank s cl b x).icache = s.icache := rfl
@[simp] theorem putBank_hostSees (cl b : Nat) (x : Bank) : (putBank s cl b x).hostSees = s.hostSees := rfl
@[simp] theorem putBank_inputs (cl b : Nat) (x : Bank) : (putBank s cl b x).inputs = s.inputs := rfl
@[simp] theorem putBank_deferred (cl b : Nat) (x : Bank) : (putBank s cl b x).deferred = s.deferred := rfl
@[simp] theorem putBank_boot (cl b : Nat) (x : Bank) : (putBank s cl b x).boot = s.boot := rfl
@[simp] theorem putBank_clock (cl b : Nat) (x : Bank) : (putBank s cl b x).clock = s.clock := rfl
@[simp] theorem putBank_serial (cl b : Nat) (x : Bank) : (putBank s cl b x).serial = s.serial := rfl

@[simp] theorem onBank_waves (cl b : Nat) (f : Bank → Bank) : (onBank s cl b f).waves = s.waves := rfl
@[simp] theorem onBank_teams (cl b : Nat) (f : Bank → Bank) : (onBank s cl b f).teams = s.teams := rfl
@[simp] theorem onBank_launches (cl b : Nat) (f : Bank → Bank) : (onBank s cl b f).launches = s.launches := rfl
@[simp] theorem onBank_lstore (cl b : Nat) (f : Bank → Bank) : (onBank s cl b f).lstore = s.lstore := rfl
@[simp] theorem onBank_dram (cl b : Nat) (f : Bank → Bank) : (onBank s cl b f).dram = s.dram := rfl
@[simp] theorem onBank_regPoison (cl b : Nat) (f : Bank → Bank) : (onBank s cl b f).regPoison = s.regPoison := rfl
@[simp] theorem onBank_mats (cl b : Nat) (f : Bank → Bank) : (onBank s cl b f).mats = s.mats := rfl
@[simp] theorem onBank_copies (cl b : Nat) (f : Bank → Bank) : (onBank s cl b f).copies = s.copies := rfl
@[simp] theorem onBank_latches (cl b : Nat) (f : Bank → Bank) : (onBank s cl b f).latches = s.latches := rfl
@[simp] theorem onBank_caches (cl b : Nat) (f : Bank → Bank) : (onBank s cl b f).caches = s.caches := rfl
@[simp] theorem onBank_dirs (cl b : Nat) (f : Bank → Bank) : (onBank s cl b f).dirs = s.dirs := rfl
@[simp] theorem onBank_net (cl b : Nat) (f : Bank → Bank) : (onBank s cl b f).net = s.net := rfl
@[simp] theorem onBank_txns (cl b : Nat) (f : Bank → Bank) : (onBank s cl b f).txns = s.txns := rfl
@[simp] theorem onBank_tlbs (cl b : Nat) (f : Bank → Bank) : (onBank s cl b f).tlbs = s.tlbs := rfl
@[simp] theorem onBank_tiles (cl b : Nat) (f : Bank → Bank) : (onBank s cl b f).tiles = s.tiles := rfl
@[simp] theorem onBank_images (cl b : Nat) (f : Bank → Bank) : (onBank s cl b f).images = s.images := rfl
@[simp] theorem onBank_icache (cl b : Nat) (f : Bank → Bank) : (onBank s cl b f).icache = s.icache := rfl
@[simp] theorem onBank_hostSees (cl b : Nat) (f : Bank → Bank) : (onBank s cl b f).hostSees = s.hostSees := rfl
@[simp] theorem onBank_inputs (cl b : Nat) (f : Bank → Bank) : (onBank s cl b f).inputs = s.inputs := rfl
@[simp] theorem onBank_deferred (cl b : Nat) (f : Bank → Bank) : (onBank s cl b f).deferred = s.deferred := rfl
@[simp] theorem onBank_boot (cl b : Nat) (f : Bank → Bank) : (onBank s cl b f).boot = s.boot := rfl
@[simp] theorem onBank_clock (cl b : Nat) (f : Bank → Bank) : (onBank s cl b f).clock = s.clock := rfl
@[simp] theorem onBank_serial (cl b : Nat) (f : Bank → Bank) : (onBank s cl b f).serial = s.serial := rfl

@[simp] theorem putLocalNat_waves (cl a n v : Nat) : (putLocalNat s cl a n v).waves = s.waves := rfl
@[simp] theorem putLocalNat_teams (cl a n v : Nat) : (putLocalNat s cl a n v).teams = s.teams := rfl
@[simp] theorem putLocalNat_launches (cl a n v : Nat) : (putLocalNat s cl a n v).launches = s.launches := rfl
@[simp] theorem putLocalNat_dram (cl a n v : Nat) : (putLocalNat s cl a n v).dram = s.dram := rfl
@[simp] theorem putLocalNat_banks (cl a n v : Nat) : (putLocalNat s cl a n v).banks = s.banks := rfl
@[simp] theorem putLocalNat_mats (cl a n v : Nat) : (putLocalNat s cl a n v).mats = s.mats := rfl
@[simp] theorem putLocalNat_copies (cl a n v : Nat) : (putLocalNat s cl a n v).copies = s.copies := rfl
@[simp] theorem putLocalNat_latches (cl a n v : Nat) : (putLocalNat s cl a n v).latches = s.latches := rfl
@[simp] theorem putLocalNat_caches (cl a n v : Nat) : (putLocalNat s cl a n v).caches = s.caches := rfl
@[simp] theorem putLocalNat_dirs (cl a n v : Nat) : (putLocalNat s cl a n v).dirs = s.dirs := rfl
@[simp] theorem putLocalNat_net (cl a n v : Nat) : (putLocalNat s cl a n v).net = s.net := rfl
@[simp] theorem putLocalNat_txns (cl a n v : Nat) : (putLocalNat s cl a n v).txns = s.txns := rfl
@[simp] theorem putLocalNat_tlbs (cl a n v : Nat) : (putLocalNat s cl a n v).tlbs = s.tlbs := rfl
@[simp] theorem putLocalNat_tiles (cl a n v : Nat) : (putLocalNat s cl a n v).tiles = s.tiles := rfl
@[simp] theorem putLocalNat_images (cl a n v : Nat) : (putLocalNat s cl a n v).images = s.images := rfl
@[simp] theorem putLocalNat_icache (cl a n v : Nat) : (putLocalNat s cl a n v).icache = s.icache := rfl
@[simp] theorem putLocalNat_hostSees (cl a n v : Nat) : (putLocalNat s cl a n v).hostSees = s.hostSees := rfl
@[simp] theorem putLocalNat_inputs (cl a n v : Nat) : (putLocalNat s cl a n v).inputs = s.inputs := rfl
@[simp] theorem putLocalNat_deferred (cl a n v : Nat) : (putLocalNat s cl a n v).deferred = s.deferred := rfl
@[simp] theorem putLocalNat_boot (cl a n v : Nat) : (putLocalNat s cl a n v).boot = s.boot := rfl
@[simp] theorem putLocalNat_clock (cl a n v : Nat) : (putLocalNat s cl a n v).clock = s.clock := rfl
@[simp] theorem putLocalNat_serial (cl a n v : Nat) : (putLocalNat s cl a n v).serial = s.serial := rfl

@[simp] theorem putCw_waves (n : Node) (tag : AsidTag) (va : Nat) (c : CWord) : (putCw s n tag va c).waves = s.waves := rfl
@[simp] theorem putCw_teams (n : Node) (tag : AsidTag) (va : Nat) (c : CWord) : (putCw s n tag va c).teams = s.teams := rfl
@[simp] theorem putCw_launches (n : Node) (tag : AsidTag) (va : Nat) (c : CWord) : (putCw s n tag va c).launches = s.launches := rfl
@[simp] theorem putCw_lstore (n : Node) (tag : AsidTag) (va : Nat) (c : CWord) : (putCw s n tag va c).lstore = s.lstore := rfl
@[simp] theorem putCw_dram (n : Node) (tag : AsidTag) (va : Nat) (c : CWord) : (putCw s n tag va c).dram = s.dram := rfl
@[simp] theorem putCw_regPoison (n : Node) (tag : AsidTag) (va : Nat) (c : CWord) : (putCw s n tag va c).regPoison = s.regPoison := rfl
@[simp] theorem putCw_banks (n : Node) (tag : AsidTag) (va : Nat) (c : CWord) : (putCw s n tag va c).banks = s.banks := rfl
@[simp] theorem putCw_mats (n : Node) (tag : AsidTag) (va : Nat) (c : CWord) : (putCw s n tag va c).mats = s.mats := rfl
@[simp] theorem putCw_copies (n : Node) (tag : AsidTag) (va : Nat) (c : CWord) : (putCw s n tag va c).copies = s.copies := rfl
@[simp] theorem putCw_latches (n : Node) (tag : AsidTag) (va : Nat) (c : CWord) : (putCw s n tag va c).latches = s.latches := rfl
@[simp] theorem putCw_dirs (n : Node) (tag : AsidTag) (va : Nat) (c : CWord) : (putCw s n tag va c).dirs = s.dirs := rfl
@[simp] theorem putCw_net (n : Node) (tag : AsidTag) (va : Nat) (c : CWord) : (putCw s n tag va c).net = s.net := rfl
@[simp] theorem putCw_txns (n : Node) (tag : AsidTag) (va : Nat) (c : CWord) : (putCw s n tag va c).txns = s.txns := rfl
@[simp] theorem putCw_tlbs (n : Node) (tag : AsidTag) (va : Nat) (c : CWord) : (putCw s n tag va c).tlbs = s.tlbs := rfl
@[simp] theorem putCw_tiles (n : Node) (tag : AsidTag) (va : Nat) (c : CWord) : (putCw s n tag va c).tiles = s.tiles := rfl
@[simp] theorem putCw_images (n : Node) (tag : AsidTag) (va : Nat) (c : CWord) : (putCw s n tag va c).images = s.images := rfl
@[simp] theorem putCw_icache (n : Node) (tag : AsidTag) (va : Nat) (c : CWord) : (putCw s n tag va c).icache = s.icache := rfl
@[simp] theorem putCw_hostSees (n : Node) (tag : AsidTag) (va : Nat) (c : CWord) : (putCw s n tag va c).hostSees = s.hostSees := rfl
@[simp] theorem putCw_inputs (n : Node) (tag : AsidTag) (va : Nat) (c : CWord) : (putCw s n tag va c).inputs = s.inputs := rfl
@[simp] theorem putCw_deferred (n : Node) (tag : AsidTag) (va : Nat) (c : CWord) : (putCw s n tag va c).deferred = s.deferred := rfl
@[simp] theorem putCw_boot (n : Node) (tag : AsidTag) (va : Nat) (c : CWord) : (putCw s n tag va c).boot = s.boot := rfl
@[simp] theorem putCw_clock (n : Node) (tag : AsidTag) (va : Nat) (c : CWord) : (putCw s n tag va c).clock = s.clock := rfl
@[simp] theorem putCw_serial (n : Node) (tag : AsidTag) (va : Nat) (c : CWord) : (putCw s n tag va c).serial = s.serial := rfl

@[simp] theorem dropCw_waves (n : Node) (tag : AsidTag) (va : Nat) : (dropCw s n tag va).waves = s.waves := rfl
@[simp] theorem dropCw_teams (n : Node) (tag : AsidTag) (va : Nat) : (dropCw s n tag va).teams = s.teams := rfl
@[simp] theorem dropCw_launches (n : Node) (tag : AsidTag) (va : Nat) : (dropCw s n tag va).launches = s.launches := rfl
@[simp] theorem dropCw_lstore (n : Node) (tag : AsidTag) (va : Nat) : (dropCw s n tag va).lstore = s.lstore := rfl
@[simp] theorem dropCw_dram (n : Node) (tag : AsidTag) (va : Nat) : (dropCw s n tag va).dram = s.dram := rfl
@[simp] theorem dropCw_regPoison (n : Node) (tag : AsidTag) (va : Nat) : (dropCw s n tag va).regPoison = s.regPoison := rfl
@[simp] theorem dropCw_banks (n : Node) (tag : AsidTag) (va : Nat) : (dropCw s n tag va).banks = s.banks := rfl
@[simp] theorem dropCw_mats (n : Node) (tag : AsidTag) (va : Nat) : (dropCw s n tag va).mats = s.mats := rfl
@[simp] theorem dropCw_copies (n : Node) (tag : AsidTag) (va : Nat) : (dropCw s n tag va).copies = s.copies := rfl
@[simp] theorem dropCw_latches (n : Node) (tag : AsidTag) (va : Nat) : (dropCw s n tag va).latches = s.latches := rfl
@[simp] theorem dropCw_dirs (n : Node) (tag : AsidTag) (va : Nat) : (dropCw s n tag va).dirs = s.dirs := rfl
@[simp] theorem dropCw_net (n : Node) (tag : AsidTag) (va : Nat) : (dropCw s n tag va).net = s.net := rfl
@[simp] theorem dropCw_txns (n : Node) (tag : AsidTag) (va : Nat) : (dropCw s n tag va).txns = s.txns := rfl
@[simp] theorem dropCw_tlbs (n : Node) (tag : AsidTag) (va : Nat) : (dropCw s n tag va).tlbs = s.tlbs := rfl
@[simp] theorem dropCw_tiles (n : Node) (tag : AsidTag) (va : Nat) : (dropCw s n tag va).tiles = s.tiles := rfl
@[simp] theorem dropCw_images (n : Node) (tag : AsidTag) (va : Nat) : (dropCw s n tag va).images = s.images := rfl
@[simp] theorem dropCw_icache (n : Node) (tag : AsidTag) (va : Nat) : (dropCw s n tag va).icache = s.icache := rfl
@[simp] theorem dropCw_hostSees (n : Node) (tag : AsidTag) (va : Nat) : (dropCw s n tag va).hostSees = s.hostSees := rfl
@[simp] theorem dropCw_inputs (n : Node) (tag : AsidTag) (va : Nat) : (dropCw s n tag va).inputs = s.inputs := rfl
@[simp] theorem dropCw_deferred (n : Node) (tag : AsidTag) (va : Nat) : (dropCw s n tag va).deferred = s.deferred := rfl
@[simp] theorem dropCw_boot (n : Node) (tag : AsidTag) (va : Nat) : (dropCw s n tag va).boot = s.boot := rfl
@[simp] theorem dropCw_clock (n : Node) (tag : AsidTag) (va : Nat) : (dropCw s n tag va).clock = s.clock := rfl
@[simp] theorem dropCw_serial (n : Node) (tag : AsidTag) (va : Nat) : (dropCw s n tag va).serial = s.serial := rfl

@[simp] theorem send_waves (m : Msg) : (send s m).waves = s.waves := rfl
@[simp] theorem send_teams (m : Msg) : (send s m).teams = s.teams := rfl
@[simp] theorem send_launches (m : Msg) : (send s m).launches = s.launches := rfl
@[simp] theorem send_lstore (m : Msg) : (send s m).lstore = s.lstore := rfl
@[simp] theorem send_dram (m : Msg) : (send s m).dram = s.dram := rfl
@[simp] theorem send_regPoison (m : Msg) : (send s m).regPoison = s.regPoison := rfl
@[simp] theorem send_banks (m : Msg) : (send s m).banks = s.banks := rfl
@[simp] theorem send_mats (m : Msg) : (send s m).mats = s.mats := rfl
@[simp] theorem send_copies (m : Msg) : (send s m).copies = s.copies := rfl
@[simp] theorem send_latches (m : Msg) : (send s m).latches = s.latches := rfl
@[simp] theorem send_caches (m : Msg) : (send s m).caches = s.caches := rfl
@[simp] theorem send_dirs (m : Msg) : (send s m).dirs = s.dirs := rfl
@[simp] theorem send_txns (m : Msg) : (send s m).txns = s.txns := rfl
@[simp] theorem send_tlbs (m : Msg) : (send s m).tlbs = s.tlbs := rfl
@[simp] theorem send_tiles (m : Msg) : (send s m).tiles = s.tiles := rfl
@[simp] theorem send_images (m : Msg) : (send s m).images = s.images := rfl
@[simp] theorem send_icache (m : Msg) : (send s m).icache = s.icache := rfl
@[simp] theorem send_hostSees (m : Msg) : (send s m).hostSees = s.hostSees := rfl
@[simp] theorem send_inputs (m : Msg) : (send s m).inputs = s.inputs := rfl
@[simp] theorem send_deferred (m : Msg) : (send s m).deferred = s.deferred := rfl
@[simp] theorem send_boot (m : Msg) : (send s m).boot = s.boot := rfl
@[simp] theorem send_clock (m : Msg) : (send s m).clock = s.clock := rfl
@[simp] theorem send_serial (m : Msg) : (send s m).serial = s.serial := rfl

@[simp] theorem putTxn_waves (t : Txn) : (putTxn s t).waves = s.waves := rfl
@[simp] theorem putTxn_teams (t : Txn) : (putTxn s t).teams = s.teams := rfl
@[simp] theorem putTxn_launches (t : Txn) : (putTxn s t).launches = s.launches := rfl
@[simp] theorem putTxn_lstore (t : Txn) : (putTxn s t).lstore = s.lstore := rfl
@[simp] theorem putTxn_dram (t : Txn) : (putTxn s t).dram = s.dram := rfl
@[simp] theorem putTxn_regPoison (t : Txn) : (putTxn s t).regPoison = s.regPoison := rfl
@[simp] theorem putTxn_banks (t : Txn) : (putTxn s t).banks = s.banks := rfl
@[simp] theorem putTxn_mats (t : Txn) : (putTxn s t).mats = s.mats := rfl
@[simp] theorem putTxn_copies (t : Txn) : (putTxn s t).copies = s.copies := rfl
@[simp] theorem putTxn_latches (t : Txn) : (putTxn s t).latches = s.latches := rfl
@[simp] theorem putTxn_caches (t : Txn) : (putTxn s t).caches = s.caches := rfl
@[simp] theorem putTxn_dirs (t : Txn) : (putTxn s t).dirs = s.dirs := rfl
@[simp] theorem putTxn_net (t : Txn) : (putTxn s t).net = s.net := rfl
@[simp] theorem putTxn_tlbs (t : Txn) : (putTxn s t).tlbs = s.tlbs := rfl
@[simp] theorem putTxn_tiles (t : Txn) : (putTxn s t).tiles = s.tiles := rfl
@[simp] theorem putTxn_images (t : Txn) : (putTxn s t).images = s.images := rfl
@[simp] theorem putTxn_icache (t : Txn) : (putTxn s t).icache = s.icache := rfl
@[simp] theorem putTxn_hostSees (t : Txn) : (putTxn s t).hostSees = s.hostSees := rfl
@[simp] theorem putTxn_inputs (t : Txn) : (putTxn s t).inputs = s.inputs := rfl
@[simp] theorem putTxn_deferred (t : Txn) : (putTxn s t).deferred = s.deferred := rfl
@[simp] theorem putTxn_boot (t : Txn) : (putTxn s t).boot = s.boot := rfl
@[simp] theorem putTxn_clock (t : Txn) : (putTxn s t).clock = s.clock := rfl
@[simp] theorem putTxn_serial (t : Txn) : (putTxn s t).serial = s.serial := rfl

@[simp] theorem dropTxn_waves (t : Txn) : (dropTxn s t).waves = s.waves := rfl
@[simp] theorem dropTxn_teams (t : Txn) : (dropTxn s t).teams = s.teams := rfl
@[simp] theorem dropTxn_launches (t : Txn) : (dropTxn s t).launches = s.launches := rfl
@[simp] theorem dropTxn_lstore (t : Txn) : (dropTxn s t).lstore = s.lstore := rfl
@[simp] theorem dropTxn_dram (t : Txn) : (dropTxn s t).dram = s.dram := rfl
@[simp] theorem dropTxn_regPoison (t : Txn) : (dropTxn s t).regPoison = s.regPoison := rfl
@[simp] theorem dropTxn_banks (t : Txn) : (dropTxn s t).banks = s.banks := rfl
@[simp] theorem dropTxn_mats (t : Txn) : (dropTxn s t).mats = s.mats := rfl
@[simp] theorem dropTxn_copies (t : Txn) : (dropTxn s t).copies = s.copies := rfl
@[simp] theorem dropTxn_latches (t : Txn) : (dropTxn s t).latches = s.latches := rfl
@[simp] theorem dropTxn_caches (t : Txn) : (dropTxn s t).caches = s.caches := rfl
@[simp] theorem dropTxn_dirs (t : Txn) : (dropTxn s t).dirs = s.dirs := rfl
@[simp] theorem dropTxn_net (t : Txn) : (dropTxn s t).net = s.net := rfl
@[simp] theorem dropTxn_tlbs (t : Txn) : (dropTxn s t).tlbs = s.tlbs := rfl
@[simp] theorem dropTxn_tiles (t : Txn) : (dropTxn s t).tiles = s.tiles := rfl
@[simp] theorem dropTxn_images (t : Txn) : (dropTxn s t).images = s.images := rfl
@[simp] theorem dropTxn_icache (t : Txn) : (dropTxn s t).icache = s.icache := rfl
@[simp] theorem dropTxn_hostSees (t : Txn) : (dropTxn s t).hostSees = s.hostSees := rfl
@[simp] theorem dropTxn_inputs (t : Txn) : (dropTxn s t).inputs = s.inputs := rfl
@[simp] theorem dropTxn_deferred (t : Txn) : (dropTxn s t).deferred = s.deferred := rfl
@[simp] theorem dropTxn_boot (t : Txn) : (dropTxn s t).boot = s.boot := rfl
@[simp] theorem dropTxn_clock (t : Txn) : (dropTxn s t).clock = s.clock := rfl
@[simp] theorem dropTxn_serial (t : Txn) : (dropTxn s t).serial = s.serial := rfl

@[simp] theorem putCopy_waves (id : Nat) (op : CopyOp) : (putCopy s id op).waves = s.waves := rfl
@[simp] theorem putCopy_teams (id : Nat) (op : CopyOp) : (putCopy s id op).teams = s.teams := rfl
@[simp] theorem putCopy_launches (id : Nat) (op : CopyOp) : (putCopy s id op).launches = s.launches := rfl
@[simp] theorem putCopy_lstore (id : Nat) (op : CopyOp) : (putCopy s id op).lstore = s.lstore := rfl
@[simp] theorem putCopy_dram (id : Nat) (op : CopyOp) : (putCopy s id op).dram = s.dram := rfl
@[simp] theorem putCopy_regPoison (id : Nat) (op : CopyOp) : (putCopy s id op).regPoison = s.regPoison := rfl
@[simp] theorem putCopy_banks (id : Nat) (op : CopyOp) : (putCopy s id op).banks = s.banks := rfl
@[simp] theorem putCopy_mats (id : Nat) (op : CopyOp) : (putCopy s id op).mats = s.mats := rfl
@[simp] theorem putCopy_latches (id : Nat) (op : CopyOp) : (putCopy s id op).latches = s.latches := rfl
@[simp] theorem putCopy_caches (id : Nat) (op : CopyOp) : (putCopy s id op).caches = s.caches := rfl
@[simp] theorem putCopy_dirs (id : Nat) (op : CopyOp) : (putCopy s id op).dirs = s.dirs := rfl
@[simp] theorem putCopy_net (id : Nat) (op : CopyOp) : (putCopy s id op).net = s.net := rfl
@[simp] theorem putCopy_txns (id : Nat) (op : CopyOp) : (putCopy s id op).txns = s.txns := rfl
@[simp] theorem putCopy_tlbs (id : Nat) (op : CopyOp) : (putCopy s id op).tlbs = s.tlbs := rfl
@[simp] theorem putCopy_tiles (id : Nat) (op : CopyOp) : (putCopy s id op).tiles = s.tiles := rfl
@[simp] theorem putCopy_images (id : Nat) (op : CopyOp) : (putCopy s id op).images = s.images := rfl
@[simp] theorem putCopy_icache (id : Nat) (op : CopyOp) : (putCopy s id op).icache = s.icache := rfl
@[simp] theorem putCopy_hostSees (id : Nat) (op : CopyOp) : (putCopy s id op).hostSees = s.hostSees := rfl
@[simp] theorem putCopy_inputs (id : Nat) (op : CopyOp) : (putCopy s id op).inputs = s.inputs := rfl
@[simp] theorem putCopy_deferred (id : Nat) (op : CopyOp) : (putCopy s id op).deferred = s.deferred := rfl
@[simp] theorem putCopy_boot (id : Nat) (op : CopyOp) : (putCopy s id op).boot = s.boot := rfl
@[simp] theorem putCopy_clock (id : Nat) (op : CopyOp) : (putCopy s id op).clock = s.clock := rfl
@[simp] theorem putCopy_serial (id : Nat) (op : CopyOp) : (putCopy s id op).serial = s.serial := rfl

@[simp] theorem putMat_waves (id : Nat) (op : MatOp) : (putMat s id op).waves = s.waves := rfl
@[simp] theorem putMat_teams (id : Nat) (op : MatOp) : (putMat s id op).teams = s.teams := rfl
@[simp] theorem putMat_launches (id : Nat) (op : MatOp) : (putMat s id op).launches = s.launches := rfl
@[simp] theorem putMat_lstore (id : Nat) (op : MatOp) : (putMat s id op).lstore = s.lstore := rfl
@[simp] theorem putMat_dram (id : Nat) (op : MatOp) : (putMat s id op).dram = s.dram := rfl
@[simp] theorem putMat_regPoison (id : Nat) (op : MatOp) : (putMat s id op).regPoison = s.regPoison := rfl
@[simp] theorem putMat_banks (id : Nat) (op : MatOp) : (putMat s id op).banks = s.banks := rfl
@[simp] theorem putMat_copies (id : Nat) (op : MatOp) : (putMat s id op).copies = s.copies := rfl
@[simp] theorem putMat_latches (id : Nat) (op : MatOp) : (putMat s id op).latches = s.latches := rfl
@[simp] theorem putMat_caches (id : Nat) (op : MatOp) : (putMat s id op).caches = s.caches := rfl
@[simp] theorem putMat_dirs (id : Nat) (op : MatOp) : (putMat s id op).dirs = s.dirs := rfl
@[simp] theorem putMat_net (id : Nat) (op : MatOp) : (putMat s id op).net = s.net := rfl
@[simp] theorem putMat_txns (id : Nat) (op : MatOp) : (putMat s id op).txns = s.txns := rfl
@[simp] theorem putMat_tlbs (id : Nat) (op : MatOp) : (putMat s id op).tlbs = s.tlbs := rfl
@[simp] theorem putMat_tiles (id : Nat) (op : MatOp) : (putMat s id op).tiles = s.tiles := rfl
@[simp] theorem putMat_images (id : Nat) (op : MatOp) : (putMat s id op).images = s.images := rfl
@[simp] theorem putMat_icache (id : Nat) (op : MatOp) : (putMat s id op).icache = s.icache := rfl
@[simp] theorem putMat_hostSees (id : Nat) (op : MatOp) : (putMat s id op).hostSees = s.hostSees := rfl
@[simp] theorem putMat_inputs (id : Nat) (op : MatOp) : (putMat s id op).inputs = s.inputs := rfl
@[simp] theorem putMat_deferred (id : Nat) (op : MatOp) : (putMat s id op).deferred = s.deferred := rfl
@[simp] theorem putMat_boot (id : Nat) (op : MatOp) : (putMat s id op).boot = s.boot := rfl
@[simp] theorem putMat_clock (id : Nat) (op : MatOp) : (putMat s id op).clock = s.clock := rfl
@[simp] theorem putMat_serial (id : Nat) (op : MatOp) : (putMat s id op).serial = s.serial := rfl

@[simp] theorem dropLatches_waves (r : SlotRef) : (dropLatches s r).waves = s.waves := rfl
@[simp] theorem dropLatches_teams (r : SlotRef) : (dropLatches s r).teams = s.teams := rfl
@[simp] theorem dropLatches_launches (r : SlotRef) : (dropLatches s r).launches = s.launches := rfl
@[simp] theorem dropLatches_lstore (r : SlotRef) : (dropLatches s r).lstore = s.lstore := rfl
@[simp] theorem dropLatches_dram (r : SlotRef) : (dropLatches s r).dram = s.dram := rfl
@[simp] theorem dropLatches_regPoison (r : SlotRef) : (dropLatches s r).regPoison = s.regPoison := rfl
@[simp] theorem dropLatches_banks (r : SlotRef) : (dropLatches s r).banks = s.banks := rfl
@[simp] theorem dropLatches_mats (r : SlotRef) : (dropLatches s r).mats = s.mats := rfl
@[simp] theorem dropLatches_copies (r : SlotRef) : (dropLatches s r).copies = s.copies := rfl
@[simp] theorem dropLatches_caches (r : SlotRef) : (dropLatches s r).caches = s.caches := rfl
@[simp] theorem dropLatches_dirs (r : SlotRef) : (dropLatches s r).dirs = s.dirs := rfl
@[simp] theorem dropLatches_net (r : SlotRef) : (dropLatches s r).net = s.net := rfl
@[simp] theorem dropLatches_txns (r : SlotRef) : (dropLatches s r).txns = s.txns := rfl
@[simp] theorem dropLatches_tlbs (r : SlotRef) : (dropLatches s r).tlbs = s.tlbs := rfl
@[simp] theorem dropLatches_tiles (r : SlotRef) : (dropLatches s r).tiles = s.tiles := rfl
@[simp] theorem dropLatches_images (r : SlotRef) : (dropLatches s r).images = s.images := rfl
@[simp] theorem dropLatches_icache (r : SlotRef) : (dropLatches s r).icache = s.icache := rfl
@[simp] theorem dropLatches_hostSees (r : SlotRef) : (dropLatches s r).hostSees = s.hostSees := rfl
@[simp] theorem dropLatches_inputs (r : SlotRef) : (dropLatches s r).inputs = s.inputs := rfl
@[simp] theorem dropLatches_deferred (r : SlotRef) : (dropLatches s r).deferred = s.deferred := rfl
@[simp] theorem dropLatches_boot (r : SlotRef) : (dropLatches s r).boot = s.boot := rfl
@[simp] theorem dropLatches_clock (r : SlotRef) : (dropLatches s r).clock = s.clock := rfl
@[simp] theorem dropLatches_serial (r : SlotRef) : (dropLatches s r).serial = s.serial := rfl

@[simp] theorem dropWaveLatches_waves (w : Nat) : (dropWaveLatches s w).waves = s.waves := rfl
@[simp] theorem dropWaveLatches_teams (w : Nat) : (dropWaveLatches s w).teams = s.teams := rfl
@[simp] theorem dropWaveLatches_launches (w : Nat) : (dropWaveLatches s w).launches = s.launches := rfl
@[simp] theorem dropWaveLatches_lstore (w : Nat) : (dropWaveLatches s w).lstore = s.lstore := rfl
@[simp] theorem dropWaveLatches_dram (w : Nat) : (dropWaveLatches s w).dram = s.dram := rfl
@[simp] theorem dropWaveLatches_regPoison (w : Nat) : (dropWaveLatches s w).regPoison = s.regPoison := rfl
@[simp] theorem dropWaveLatches_banks (w : Nat) : (dropWaveLatches s w).banks = s.banks := rfl
@[simp] theorem dropWaveLatches_mats (w : Nat) : (dropWaveLatches s w).mats = s.mats := rfl
@[simp] theorem dropWaveLatches_copies (w : Nat) : (dropWaveLatches s w).copies = s.copies := rfl
@[simp] theorem dropWaveLatches_caches (w : Nat) : (dropWaveLatches s w).caches = s.caches := rfl
@[simp] theorem dropWaveLatches_dirs (w : Nat) : (dropWaveLatches s w).dirs = s.dirs := rfl
@[simp] theorem dropWaveLatches_net (w : Nat) : (dropWaveLatches s w).net = s.net := rfl
@[simp] theorem dropWaveLatches_txns (w : Nat) : (dropWaveLatches s w).txns = s.txns := rfl
@[simp] theorem dropWaveLatches_tlbs (w : Nat) : (dropWaveLatches s w).tlbs = s.tlbs := rfl
@[simp] theorem dropWaveLatches_tiles (w : Nat) : (dropWaveLatches s w).tiles = s.tiles := rfl
@[simp] theorem dropWaveLatches_images (w : Nat) : (dropWaveLatches s w).images = s.images := rfl
@[simp] theorem dropWaveLatches_icache (w : Nat) : (dropWaveLatches s w).icache = s.icache := rfl
@[simp] theorem dropWaveLatches_hostSees (w : Nat) : (dropWaveLatches s w).hostSees = s.hostSees := rfl
@[simp] theorem dropWaveLatches_inputs (w : Nat) : (dropWaveLatches s w).inputs = s.inputs := rfl
@[simp] theorem dropWaveLatches_deferred (w : Nat) : (dropWaveLatches s w).deferred = s.deferred := rfl
@[simp] theorem dropWaveLatches_boot (w : Nat) : (dropWaveLatches s w).boot = s.boot := rfl
@[simp] theorem dropWaveLatches_clock (w : Nat) : (dropWaveLatches s w).clock = s.clock := rfl
@[simp] theorem dropWaveLatches_serial (w : Nat) : (dropWaveLatches s w).serial = s.serial := rfl

@[simp] theorem tellHost_waves (h : HostSees) : (tellHost s h).waves = s.waves := rfl
@[simp] theorem tellHost_teams (h : HostSees) : (tellHost s h).teams = s.teams := rfl
@[simp] theorem tellHost_launches (h : HostSees) : (tellHost s h).launches = s.launches := rfl
@[simp] theorem tellHost_lstore (h : HostSees) : (tellHost s h).lstore = s.lstore := rfl
@[simp] theorem tellHost_dram (h : HostSees) : (tellHost s h).dram = s.dram := rfl
@[simp] theorem tellHost_regPoison (h : HostSees) : (tellHost s h).regPoison = s.regPoison := rfl
@[simp] theorem tellHost_banks (h : HostSees) : (tellHost s h).banks = s.banks := rfl
@[simp] theorem tellHost_mats (h : HostSees) : (tellHost s h).mats = s.mats := rfl
@[simp] theorem tellHost_copies (h : HostSees) : (tellHost s h).copies = s.copies := rfl
@[simp] theorem tellHost_latches (h : HostSees) : (tellHost s h).latches = s.latches := rfl
@[simp] theorem tellHost_caches (h : HostSees) : (tellHost s h).caches = s.caches := rfl
@[simp] theorem tellHost_dirs (h : HostSees) : (tellHost s h).dirs = s.dirs := rfl
@[simp] theorem tellHost_net (h : HostSees) : (tellHost s h).net = s.net := rfl
@[simp] theorem tellHost_txns (h : HostSees) : (tellHost s h).txns = s.txns := rfl
@[simp] theorem tellHost_tlbs (h : HostSees) : (tellHost s h).tlbs = s.tlbs := rfl
@[simp] theorem tellHost_tiles (h : HostSees) : (tellHost s h).tiles = s.tiles := rfl
@[simp] theorem tellHost_images (h : HostSees) : (tellHost s h).images = s.images := rfl
@[simp] theorem tellHost_icache (h : HostSees) : (tellHost s h).icache = s.icache := rfl
@[simp] theorem tellHost_inputs (h : HostSees) : (tellHost s h).inputs = s.inputs := rfl
@[simp] theorem tellHost_deferred (h : HostSees) : (tellHost s h).deferred = s.deferred := rfl
@[simp] theorem tellHost_boot (h : HostSees) : (tellHost s h).boot = s.boot := rfl
@[simp] theorem tellHost_clock (h : HostSees) : (tellHost s h).clock = s.clock := rfl
@[simp] theorem tellHost_serial (h : HostSees) : (tellHost s h).serial = s.serial := rfl

@[simp] theorem deferEvent_waves (i : Instr) : (deferEvent s i).waves = s.waves := rfl
@[simp] theorem deferEvent_teams (i : Instr) : (deferEvent s i).teams = s.teams := rfl
@[simp] theorem deferEvent_launches (i : Instr) : (deferEvent s i).launches = s.launches := rfl
@[simp] theorem deferEvent_lstore (i : Instr) : (deferEvent s i).lstore = s.lstore := rfl
@[simp] theorem deferEvent_dram (i : Instr) : (deferEvent s i).dram = s.dram := rfl
@[simp] theorem deferEvent_regPoison (i : Instr) : (deferEvent s i).regPoison = s.regPoison := rfl
@[simp] theorem deferEvent_banks (i : Instr) : (deferEvent s i).banks = s.banks := rfl
@[simp] theorem deferEvent_mats (i : Instr) : (deferEvent s i).mats = s.mats := rfl
@[simp] theorem deferEvent_copies (i : Instr) : (deferEvent s i).copies = s.copies := rfl
@[simp] theorem deferEvent_latches (i : Instr) : (deferEvent s i).latches = s.latches := rfl
@[simp] theorem deferEvent_caches (i : Instr) : (deferEvent s i).caches = s.caches := rfl
@[simp] theorem deferEvent_dirs (i : Instr) : (deferEvent s i).dirs = s.dirs := rfl
@[simp] theorem deferEvent_net (i : Instr) : (deferEvent s i).net = s.net := rfl
@[simp] theorem deferEvent_txns (i : Instr) : (deferEvent s i).txns = s.txns := rfl
@[simp] theorem deferEvent_tlbs (i : Instr) : (deferEvent s i).tlbs = s.tlbs := rfl
@[simp] theorem deferEvent_tiles (i : Instr) : (deferEvent s i).tiles = s.tiles := rfl
@[simp] theorem deferEvent_images (i : Instr) : (deferEvent s i).images = s.images := rfl
@[simp] theorem deferEvent_icache (i : Instr) : (deferEvent s i).icache = s.icache := rfl
@[simp] theorem deferEvent_hostSees (i : Instr) : (deferEvent s i).hostSees = s.hostSees := rfl
@[simp] theorem deferEvent_inputs (i : Instr) : (deferEvent s i).inputs = s.inputs := rfl
@[simp] theorem deferEvent_boot (i : Instr) : (deferEvent s i).boot = s.boot := rfl
@[simp] theorem deferEvent_clock (i : Instr) : (deferEvent s i).clock = s.clock := rfl
@[simp] theorem deferEvent_serial (i : Instr) : (deferEvent s i).serial = s.serial := rfl

@[simp] theorem tick_waves : (tick s).waves = s.waves := rfl
@[simp] theorem tick_teams : (tick s).teams = s.teams := rfl
@[simp] theorem tick_launches : (tick s).launches = s.launches := rfl
@[simp] theorem tick_lstore : (tick s).lstore = s.lstore := rfl
@[simp] theorem tick_dram : (tick s).dram = s.dram := rfl
@[simp] theorem tick_regPoison : (tick s).regPoison = s.regPoison := rfl
@[simp] theorem tick_banks : (tick s).banks = s.banks := rfl
@[simp] theorem tick_mats : (tick s).mats = s.mats := rfl
@[simp] theorem tick_copies : (tick s).copies = s.copies := rfl
@[simp] theorem tick_latches : (tick s).latches = s.latches := rfl
@[simp] theorem tick_caches : (tick s).caches = s.caches := rfl
@[simp] theorem tick_dirs : (tick s).dirs = s.dirs := rfl
@[simp] theorem tick_net : (tick s).net = s.net := rfl
@[simp] theorem tick_txns : (tick s).txns = s.txns := rfl
@[simp] theorem tick_tlbs : (tick s).tlbs = s.tlbs := rfl
@[simp] theorem tick_tiles : (tick s).tiles = s.tiles := rfl
@[simp] theorem tick_images : (tick s).images = s.images := rfl
@[simp] theorem tick_icache : (tick s).icache = s.icache := rfl
@[simp] theorem tick_hostSees : (tick s).hostSees = s.hostSees := rfl
@[simp] theorem tick_inputs : (tick s).inputs = s.inputs := rfl
@[simp] theorem tick_deferred : (tick s).deferred = s.deferred := rfl
@[simp] theorem tick_boot : (tick s).boot = s.boot := rfl
@[simp] theorem tick_serial : (tick s).serial = s.serial := rfl

/-! The same of the fields of caches, poison and path order, and of the registers of ports, queues and fault buffers. -/

@[simp] theorem putWave_markers (w : Nat) (x : Wave) : (putWave s w x).markers = s.markers := rfl
@[simp] theorem putWave_l1ways (w : Nat) (x : Wave) : (putWave s w x).l1ways = s.l1ways := rfl
@[simp] theorem putWave_ntLines (w : Nat) (x : Wave) : (putWave s w x).ntLines = s.ntLines := rfl
@[simp] theorem putWave_deadWays (w : Nat) (x : Wave) : (putWave s w x).deadWays = s.deadWays := rfl
@[simp] theorem putWave_homeLines (w : Nat) (x : Wave) : (putWave s w x).homeLines = s.homeLines := rfl
@[simp] theorem putWave_older (w : Nat) (x : Wave) : (putWave s w x).older = s.older := rfl

@[simp] theorem onWave_markers (w : Nat) (f : Wave → Wave) : (onWave s w f).markers = s.markers := rfl
@[simp] theorem onWave_l1ways (w : Nat) (f : Wave → Wave) : (onWave s w f).l1ways = s.l1ways := rfl
@[simp] theorem onWave_ntLines (w : Nat) (f : Wave → Wave) : (onWave s w f).ntLines = s.ntLines := rfl
@[simp] theorem onWave_deadWays (w : Nat) (f : Wave → Wave) : (onWave s w f).deadWays = s.deadWays := rfl
@[simp] theorem onWave_homeLines (w : Nat) (f : Wave → Wave) : (onWave s w f).homeLines = s.homeLines := rfl
@[simp] theorem onWave_older (w : Nat) (f : Wave → Wave) : (onWave s w f).older = s.older := rfl

@[simp] theorem onSlot_markers (r : SlotRef) (f : Slot → Slot) : (onSlot s r f).markers = s.markers := rfl
@[simp] theorem onSlot_l1ways (r : SlotRef) (f : Slot → Slot) : (onSlot s r f).l1ways = s.l1ways := rfl
@[simp] theorem onSlot_ntLines (r : SlotRef) (f : Slot → Slot) : (onSlot s r f).ntLines = s.ntLines := rfl
@[simp] theorem onSlot_deadWays (r : SlotRef) (f : Slot → Slot) : (onSlot s r f).deadWays = s.deadWays := rfl
@[simp] theorem onSlot_homeLines (r : SlotRef) (f : Slot → Slot) : (onSlot s r f).homeLines = s.homeLines := rfl
@[simp] theorem onSlot_older (r : SlotRef) (f : Slot → Slot) : (onSlot s r f).older = s.older := rfl

@[simp] theorem onTeam_markers (t : Nat) (f : Team → Team) : (onTeam s t f).markers = s.markers := rfl
@[simp] theorem onTeam_l1ways (t : Nat) (f : Team → Team) : (onTeam s t f).l1ways = s.l1ways := rfl
@[simp] theorem onTeam_ntLines (t : Nat) (f : Team → Team) : (onTeam s t f).ntLines = s.ntLines := rfl
@[simp] theorem onTeam_deadWays (t : Nat) (f : Team → Team) : (onTeam s t f).deadWays = s.deadWays := rfl
@[simp] theorem onTeam_homeLines (t : Nat) (f : Team → Team) : (onTeam s t f).homeLines = s.homeLines := rfl
@[simp] theorem onTeam_older (t : Nat) (f : Team → Team) : (onTeam s t f).older = s.older := rfl

@[simp] theorem onLaunch_markers (n : Nat) (f : Launch → Launch) : (onLaunch s n f).markers = s.markers := rfl
@[simp] theorem onLaunch_l1ways (n : Nat) (f : Launch → Launch) : (onLaunch s n f).l1ways = s.l1ways := rfl
@[simp] theorem onLaunch_ntLines (n : Nat) (f : Launch → Launch) : (onLaunch s n f).ntLines = s.ntLines := rfl
@[simp] theorem onLaunch_deadWays (n : Nat) (f : Launch → Launch) : (onLaunch s n f).deadWays = s.deadWays := rfl
@[simp] theorem onLaunch_homeLines (n : Nat) (f : Launch → Launch) : (onLaunch s n f).homeLines = s.homeLines := rfl
@[simp] theorem onLaunch_older (n : Nat) (f : Launch → Launch) : (onLaunch s n f).older = s.older := rfl

@[simp] theorem setToken_markers (t n : Nat) (f : Token → Token) : (setToken s t n f).markers = s.markers := rfl
@[simp] theorem setToken_l1ways (t n : Nat) (f : Token → Token) : (setToken s t n f).l1ways = s.l1ways := rfl
@[simp] theorem setToken_ntLines (t n : Nat) (f : Token → Token) : (setToken s t n f).ntLines = s.ntLines := rfl
@[simp] theorem setToken_deadWays (t n : Nat) (f : Token → Token) : (setToken s t n f).deadWays = s.deadWays := rfl
@[simp] theorem setToken_homeLines (t n : Nat) (f : Token → Token) : (setToken s t n f).homeLines = s.homeLines := rfl
@[simp] theorem setToken_older (t n : Nat) (f : Token → Token) : (setToken s t n f).older = s.older := rfl

@[simp] theorem putBank_markers (cl b : Nat) (x : Bank) : (putBank s cl b x).markers = s.markers := rfl
@[simp] theorem putBank_l1ways (cl b : Nat) (x : Bank) : (putBank s cl b x).l1ways = s.l1ways := rfl
@[simp] theorem putBank_ntLines (cl b : Nat) (x : Bank) : (putBank s cl b x).ntLines = s.ntLines := rfl
@[simp] theorem putBank_deadWays (cl b : Nat) (x : Bank) : (putBank s cl b x).deadWays = s.deadWays := rfl
@[simp] theorem putBank_homeLines (cl b : Nat) (x : Bank) : (putBank s cl b x).homeLines = s.homeLines := rfl
@[simp] theorem putBank_older (cl b : Nat) (x : Bank) : (putBank s cl b x).older = s.older := rfl

@[simp] theorem onBank_markers (cl b : Nat) (f : Bank → Bank) : (onBank s cl b f).markers = s.markers := rfl
@[simp] theorem onBank_l1ways (cl b : Nat) (f : Bank → Bank) : (onBank s cl b f).l1ways = s.l1ways := rfl
@[simp] theorem onBank_ntLines (cl b : Nat) (f : Bank → Bank) : (onBank s cl b f).ntLines = s.ntLines := rfl
@[simp] theorem onBank_deadWays (cl b : Nat) (f : Bank → Bank) : (onBank s cl b f).deadWays = s.deadWays := rfl
@[simp] theorem onBank_homeLines (cl b : Nat) (f : Bank → Bank) : (onBank s cl b f).homeLines = s.homeLines := rfl
@[simp] theorem onBank_older (cl b : Nat) (f : Bank → Bank) : (onBank s cl b f).older = s.older := rfl

@[simp] theorem putLocalNat_markers (cl a n v : Nat) : (putLocalNat s cl a n v).markers = s.markers := rfl
@[simp] theorem putLocalNat_l1ways (cl a n v : Nat) : (putLocalNat s cl a n v).l1ways = s.l1ways := rfl
@[simp] theorem putLocalNat_ntLines (cl a n v : Nat) : (putLocalNat s cl a n v).ntLines = s.ntLines := rfl
@[simp] theorem putLocalNat_deadWays (cl a n v : Nat) : (putLocalNat s cl a n v).deadWays = s.deadWays := rfl
@[simp] theorem putLocalNat_homeLines (cl a n v : Nat) : (putLocalNat s cl a n v).homeLines = s.homeLines := rfl
@[simp] theorem putLocalNat_older (cl a n v : Nat) : (putLocalNat s cl a n v).older = s.older := rfl

@[simp] theorem putCw_markers (n : Node) (tag : AsidTag) (va : Nat) (c : CWord) : (putCw s n tag va c).markers = s.markers := rfl
@[simp] theorem putCw_l1ways (n : Node) (tag : AsidTag) (va : Nat) (c : CWord) : (putCw s n tag va c).l1ways = s.l1ways := rfl
@[simp] theorem putCw_ntLines (n : Node) (tag : AsidTag) (va : Nat) (c : CWord) : (putCw s n tag va c).ntLines = s.ntLines := rfl
@[simp] theorem putCw_deadWays (n : Node) (tag : AsidTag) (va : Nat) (c : CWord) : (putCw s n tag va c).deadWays = s.deadWays := rfl
@[simp] theorem putCw_homeLines (n : Node) (tag : AsidTag) (va : Nat) (c : CWord) : (putCw s n tag va c).homeLines = s.homeLines := rfl
@[simp] theorem putCw_older (n : Node) (tag : AsidTag) (va : Nat) (c : CWord) : (putCw s n tag va c).older = s.older := rfl

@[simp] theorem dropCw_markers (n : Node) (tag : AsidTag) (va : Nat) : (dropCw s n tag va).markers = s.markers := rfl
@[simp] theorem dropCw_l1ways (n : Node) (tag : AsidTag) (va : Nat) : (dropCw s n tag va).l1ways = s.l1ways := rfl
@[simp] theorem dropCw_ntLines (n : Node) (tag : AsidTag) (va : Nat) : (dropCw s n tag va).ntLines = s.ntLines := rfl
@[simp] theorem dropCw_deadWays (n : Node) (tag : AsidTag) (va : Nat) : (dropCw s n tag va).deadWays = s.deadWays := rfl
@[simp] theorem dropCw_homeLines (n : Node) (tag : AsidTag) (va : Nat) : (dropCw s n tag va).homeLines = s.homeLines := rfl
@[simp] theorem dropCw_older (n : Node) (tag : AsidTag) (va : Nat) : (dropCw s n tag va).older = s.older := rfl

@[simp] theorem send_markers (m : Msg) : (send s m).markers = s.markers := rfl
@[simp] theorem send_l1ways (m : Msg) : (send s m).l1ways = s.l1ways := rfl
@[simp] theorem send_ntLines (m : Msg) : (send s m).ntLines = s.ntLines := rfl
@[simp] theorem send_deadWays (m : Msg) : (send s m).deadWays = s.deadWays := rfl
@[simp] theorem send_homeLines (m : Msg) : (send s m).homeLines = s.homeLines := rfl
@[simp] theorem send_older (m : Msg) : (send s m).older = s.older := rfl

@[simp] theorem putTxn_markers (t : Txn) : (putTxn s t).markers = s.markers := rfl
@[simp] theorem putTxn_l1ways (t : Txn) : (putTxn s t).l1ways = s.l1ways := rfl
@[simp] theorem putTxn_ntLines (t : Txn) : (putTxn s t).ntLines = s.ntLines := rfl
@[simp] theorem putTxn_deadWays (t : Txn) : (putTxn s t).deadWays = s.deadWays := rfl
@[simp] theorem putTxn_homeLines (t : Txn) : (putTxn s t).homeLines = s.homeLines := rfl
@[simp] theorem putTxn_older (t : Txn) : (putTxn s t).older = s.older := rfl

@[simp] theorem dropTxn_markers (t : Txn) : (dropTxn s t).markers = s.markers := rfl
@[simp] theorem dropTxn_l1ways (t : Txn) : (dropTxn s t).l1ways = s.l1ways := rfl
@[simp] theorem dropTxn_ntLines (t : Txn) : (dropTxn s t).ntLines = s.ntLines := rfl
@[simp] theorem dropTxn_deadWays (t : Txn) : (dropTxn s t).deadWays = s.deadWays := rfl
@[simp] theorem dropTxn_homeLines (t : Txn) : (dropTxn s t).homeLines = s.homeLines := rfl
@[simp] theorem dropTxn_older (t : Txn) : (dropTxn s t).older = s.older := rfl

@[simp] theorem putCopy_markers (id : Nat) (op : CopyOp) : (putCopy s id op).markers = s.markers := rfl
@[simp] theorem putCopy_l1ways (id : Nat) (op : CopyOp) : (putCopy s id op).l1ways = s.l1ways := rfl
@[simp] theorem putCopy_ntLines (id : Nat) (op : CopyOp) : (putCopy s id op).ntLines = s.ntLines := rfl
@[simp] theorem putCopy_deadWays (id : Nat) (op : CopyOp) : (putCopy s id op).deadWays = s.deadWays := rfl
@[simp] theorem putCopy_homeLines (id : Nat) (op : CopyOp) : (putCopy s id op).homeLines = s.homeLines := rfl
@[simp] theorem putCopy_older (id : Nat) (op : CopyOp) : (putCopy s id op).older = s.older := rfl

@[simp] theorem putMat_markers (id : Nat) (op : MatOp) : (putMat s id op).markers = s.markers := rfl
@[simp] theorem putMat_l1ways (id : Nat) (op : MatOp) : (putMat s id op).l1ways = s.l1ways := rfl
@[simp] theorem putMat_ntLines (id : Nat) (op : MatOp) : (putMat s id op).ntLines = s.ntLines := rfl
@[simp] theorem putMat_deadWays (id : Nat) (op : MatOp) : (putMat s id op).deadWays = s.deadWays := rfl
@[simp] theorem putMat_homeLines (id : Nat) (op : MatOp) : (putMat s id op).homeLines = s.homeLines := rfl
@[simp] theorem putMat_older (id : Nat) (op : MatOp) : (putMat s id op).older = s.older := rfl

@[simp] theorem dropLatches_markers (r : SlotRef) : (dropLatches s r).markers = s.markers := rfl
@[simp] theorem dropLatches_l1ways (r : SlotRef) : (dropLatches s r).l1ways = s.l1ways := rfl
@[simp] theorem dropLatches_ntLines (r : SlotRef) : (dropLatches s r).ntLines = s.ntLines := rfl
@[simp] theorem dropLatches_deadWays (r : SlotRef) : (dropLatches s r).deadWays = s.deadWays := rfl
@[simp] theorem dropLatches_homeLines (r : SlotRef) : (dropLatches s r).homeLines = s.homeLines := rfl
@[simp] theorem dropLatches_older (r : SlotRef) : (dropLatches s r).older = s.older := rfl

@[simp] theorem dropWaveLatches_markers (w : Nat) : (dropWaveLatches s w).markers = s.markers := rfl
@[simp] theorem dropWaveLatches_l1ways (w : Nat) : (dropWaveLatches s w).l1ways = s.l1ways := rfl
@[simp] theorem dropWaveLatches_ntLines (w : Nat) : (dropWaveLatches s w).ntLines = s.ntLines := rfl
@[simp] theorem dropWaveLatches_deadWays (w : Nat) : (dropWaveLatches s w).deadWays = s.deadWays := rfl
@[simp] theorem dropWaveLatches_homeLines (w : Nat) : (dropWaveLatches s w).homeLines = s.homeLines := rfl
@[simp] theorem dropWaveLatches_older (w : Nat) : (dropWaveLatches s w).older = s.older := rfl

@[simp] theorem tellHost_markers (h : HostSees) : (tellHost s h).markers = s.markers := rfl
@[simp] theorem tellHost_l1ways (h : HostSees) : (tellHost s h).l1ways = s.l1ways := rfl
@[simp] theorem tellHost_ntLines (h : HostSees) : (tellHost s h).ntLines = s.ntLines := rfl
@[simp] theorem tellHost_deadWays (h : HostSees) : (tellHost s h).deadWays = s.deadWays := rfl
@[simp] theorem tellHost_homeLines (h : HostSees) : (tellHost s h).homeLines = s.homeLines := rfl
@[simp] theorem tellHost_older (h : HostSees) : (tellHost s h).older = s.older := rfl

@[simp] theorem deferEvent_markers (i : Instr) : (deferEvent s i).markers = s.markers := rfl
@[simp] theorem deferEvent_l1ways (i : Instr) : (deferEvent s i).l1ways = s.l1ways := rfl
@[simp] theorem deferEvent_ntLines (i : Instr) : (deferEvent s i).ntLines = s.ntLines := rfl
@[simp] theorem deferEvent_deadWays (i : Instr) : (deferEvent s i).deadWays = s.deadWays := rfl
@[simp] theorem deferEvent_homeLines (i : Instr) : (deferEvent s i).homeLines = s.homeLines := rfl
@[simp] theorem deferEvent_older (i : Instr) : (deferEvent s i).older = s.older := rfl

@[simp] theorem tick_markers  : (tick s).markers = s.markers := rfl
@[simp] theorem tick_l1ways  : (tick s).l1ways = s.l1ways := rfl
@[simp] theorem tick_ntLines  : (tick s).ntLines = s.ntLines := rfl
@[simp] theorem tick_deadWays  : (tick s).deadWays = s.deadWays := rfl
@[simp] theorem tick_homeLines  : (tick s).homeLines = s.homeLines := rfl
@[simp] theorem tick_older  : (tick s).older = s.older := rfl

@[simp] theorem putPort_waves (p : Nat) (x : Port) : (putPort s p x).waves = s.waves := rfl
@[simp] theorem putPort_banks (p : Nat) (x : Port) : (putPort s p x).banks = s.banks := rfl
@[simp] theorem putPort_boot (p : Nat) (x : Port) : (putPort s p x).boot = s.boot := rfl
@[simp] theorem putPort_caches (p : Nat) (x : Port) : (putPort s p x).caches = s.caches := rfl
@[simp] theorem putPort_clock (p : Nat) (x : Port) : (putPort s p x).clock = s.clock := rfl
@[simp] theorem putPort_copies (p : Nat) (x : Port) : (putPort s p x).copies = s.copies := rfl
@[simp] theorem putPort_deferred (p : Nat) (x : Port) : (putPort s p x).deferred = s.deferred := rfl
@[simp] theorem putPort_dirs (p : Nat) (x : Port) : (putPort s p x).dirs = s.dirs := rfl
@[simp] theorem putPort_dram (p : Nat) (x : Port) : (putPort s p x).dram = s.dram := rfl
@[simp] theorem putPort_hostSees (p : Nat) (x : Port) : (putPort s p x).hostSees = s.hostSees := rfl
@[simp] theorem putPort_icache (p : Nat) (x : Port) : (putPort s p x).icache = s.icache := rfl
@[simp] theorem putPort_images (p : Nat) (x : Port) : (putPort s p x).images = s.images := rfl
@[simp] theorem putPort_inputs (p : Nat) (x : Port) : (putPort s p x).inputs = s.inputs := rfl
@[simp] theorem putPort_latches (p : Nat) (x : Port) : (putPort s p x).latches = s.latches := rfl
@[simp] theorem putPort_launches (p : Nat) (x : Port) : (putPort s p x).launches = s.launches := rfl
@[simp] theorem putPort_lstore (p : Nat) (x : Port) : (putPort s p x).lstore = s.lstore := rfl
@[simp] theorem putPort_mats (p : Nat) (x : Port) : (putPort s p x).mats = s.mats := rfl
@[simp] theorem putPort_net (p : Nat) (x : Port) : (putPort s p x).net = s.net := rfl
@[simp] theorem putPort_regPoison (p : Nat) (x : Port) : (putPort s p x).regPoison = s.regPoison := rfl
@[simp] theorem putPort_serial (p : Nat) (x : Port) : (putPort s p x).serial = s.serial := rfl
@[simp] theorem putPort_teams (p : Nat) (x : Port) : (putPort s p x).teams = s.teams := rfl
@[simp] theorem putPort_tiles (p : Nat) (x : Port) : (putPort s p x).tiles = s.tiles := rfl
@[simp] theorem putPort_tlbs (p : Nat) (x : Port) : (putPort s p x).tlbs = s.tlbs := rfl
@[simp] theorem putPort_txns (p : Nat) (x : Port) : (putPort s p x).txns = s.txns := rfl
@[simp] theorem putPort_markers (p : Nat) (x : Port) : (putPort s p x).markers = s.markers := rfl
@[simp] theorem putPort_l1ways (p : Nat) (x : Port) : (putPort s p x).l1ways = s.l1ways := rfl
@[simp] theorem putPort_ntLines (p : Nat) (x : Port) : (putPort s p x).ntLines = s.ntLines := rfl
@[simp] theorem putPort_deadWays (p : Nat) (x : Port) : (putPort s p x).deadWays = s.deadWays := rfl
@[simp] theorem putPort_homeLines (p : Nat) (x : Port) : (putPort s p x).homeLines = s.homeLines := rfl
@[simp] theorem putPort_older (p : Nat) (x : Port) : (putPort s p x).older = s.older := rfl

@[simp] theorem putQueue_waves (q : Nat) (x : HostQueue) : (putQueue s q x).waves = s.waves := rfl
@[simp] theorem putQueue_banks (q : Nat) (x : HostQueue) : (putQueue s q x).banks = s.banks := rfl
@[simp] theorem putQueue_boot (q : Nat) (x : HostQueue) : (putQueue s q x).boot = s.boot := rfl
@[simp] theorem putQueue_caches (q : Nat) (x : HostQueue) : (putQueue s q x).caches = s.caches := rfl
@[simp] theorem putQueue_clock (q : Nat) (x : HostQueue) : (putQueue s q x).clock = s.clock := rfl
@[simp] theorem putQueue_copies (q : Nat) (x : HostQueue) : (putQueue s q x).copies = s.copies := rfl
@[simp] theorem putQueue_deferred (q : Nat) (x : HostQueue) : (putQueue s q x).deferred = s.deferred := rfl
@[simp] theorem putQueue_dirs (q : Nat) (x : HostQueue) : (putQueue s q x).dirs = s.dirs := rfl
@[simp] theorem putQueue_dram (q : Nat) (x : HostQueue) : (putQueue s q x).dram = s.dram := rfl
@[simp] theorem putQueue_hostSees (q : Nat) (x : HostQueue) : (putQueue s q x).hostSees = s.hostSees := rfl
@[simp] theorem putQueue_icache (q : Nat) (x : HostQueue) : (putQueue s q x).icache = s.icache := rfl
@[simp] theorem putQueue_images (q : Nat) (x : HostQueue) : (putQueue s q x).images = s.images := rfl
@[simp] theorem putQueue_inputs (q : Nat) (x : HostQueue) : (putQueue s q x).inputs = s.inputs := rfl
@[simp] theorem putQueue_latches (q : Nat) (x : HostQueue) : (putQueue s q x).latches = s.latches := rfl
@[simp] theorem putQueue_launches (q : Nat) (x : HostQueue) : (putQueue s q x).launches = s.launches := rfl
@[simp] theorem putQueue_lstore (q : Nat) (x : HostQueue) : (putQueue s q x).lstore = s.lstore := rfl
@[simp] theorem putQueue_mats (q : Nat) (x : HostQueue) : (putQueue s q x).mats = s.mats := rfl
@[simp] theorem putQueue_net (q : Nat) (x : HostQueue) : (putQueue s q x).net = s.net := rfl
@[simp] theorem putQueue_regPoison (q : Nat) (x : HostQueue) : (putQueue s q x).regPoison = s.regPoison := rfl
@[simp] theorem putQueue_serial (q : Nat) (x : HostQueue) : (putQueue s q x).serial = s.serial := rfl
@[simp] theorem putQueue_teams (q : Nat) (x : HostQueue) : (putQueue s q x).teams = s.teams := rfl
@[simp] theorem putQueue_tiles (q : Nat) (x : HostQueue) : (putQueue s q x).tiles = s.tiles := rfl
@[simp] theorem putQueue_tlbs (q : Nat) (x : HostQueue) : (putQueue s q x).tlbs = s.tlbs := rfl
@[simp] theorem putQueue_txns (q : Nat) (x : HostQueue) : (putQueue s q x).txns = s.txns := rfl
@[simp] theorem putQueue_markers (q : Nat) (x : HostQueue) : (putQueue s q x).markers = s.markers := rfl
@[simp] theorem putQueue_l1ways (q : Nat) (x : HostQueue) : (putQueue s q x).l1ways = s.l1ways := rfl
@[simp] theorem putQueue_ntLines (q : Nat) (x : HostQueue) : (putQueue s q x).ntLines = s.ntLines := rfl
@[simp] theorem putQueue_deadWays (q : Nat) (x : HostQueue) : (putQueue s q x).deadWays = s.deadWays := rfl
@[simp] theorem putQueue_homeLines (q : Nat) (x : HostQueue) : (putQueue s q x).homeLines = s.homeLines := rfl
@[simp] theorem putQueue_older (q : Nat) (x : HostQueue) : (putQueue s q x).older = s.older := rfl

@[simp] theorem putFaultBuf_waves (h : Nat) (x : FaultBuf) : (putFaultBuf s h x).waves = s.waves := rfl
@[simp] theorem putFaultBuf_banks (h : Nat) (x : FaultBuf) : (putFaultBuf s h x).banks = s.banks := rfl
@[simp] theorem putFaultBuf_boot (h : Nat) (x : FaultBuf) : (putFaultBuf s h x).boot = s.boot := rfl
@[simp] theorem putFaultBuf_caches (h : Nat) (x : FaultBuf) : (putFaultBuf s h x).caches = s.caches := rfl
@[simp] theorem putFaultBuf_clock (h : Nat) (x : FaultBuf) : (putFaultBuf s h x).clock = s.clock := rfl
@[simp] theorem putFaultBuf_copies (h : Nat) (x : FaultBuf) : (putFaultBuf s h x).copies = s.copies := rfl
@[simp] theorem putFaultBuf_deferred (h : Nat) (x : FaultBuf) : (putFaultBuf s h x).deferred = s.deferred := rfl
@[simp] theorem putFaultBuf_dirs (h : Nat) (x : FaultBuf) : (putFaultBuf s h x).dirs = s.dirs := rfl
@[simp] theorem putFaultBuf_dram (h : Nat) (x : FaultBuf) : (putFaultBuf s h x).dram = s.dram := rfl
@[simp] theorem putFaultBuf_hostSees (h : Nat) (x : FaultBuf) : (putFaultBuf s h x).hostSees = s.hostSees := rfl
@[simp] theorem putFaultBuf_icache (h : Nat) (x : FaultBuf) : (putFaultBuf s h x).icache = s.icache := rfl
@[simp] theorem putFaultBuf_images (h : Nat) (x : FaultBuf) : (putFaultBuf s h x).images = s.images := rfl
@[simp] theorem putFaultBuf_inputs (h : Nat) (x : FaultBuf) : (putFaultBuf s h x).inputs = s.inputs := rfl
@[simp] theorem putFaultBuf_latches (h : Nat) (x : FaultBuf) : (putFaultBuf s h x).latches = s.latches := rfl
@[simp] theorem putFaultBuf_launches (h : Nat) (x : FaultBuf) : (putFaultBuf s h x).launches = s.launches := rfl
@[simp] theorem putFaultBuf_lstore (h : Nat) (x : FaultBuf) : (putFaultBuf s h x).lstore = s.lstore := rfl
@[simp] theorem putFaultBuf_mats (h : Nat) (x : FaultBuf) : (putFaultBuf s h x).mats = s.mats := rfl
@[simp] theorem putFaultBuf_net (h : Nat) (x : FaultBuf) : (putFaultBuf s h x).net = s.net := rfl
@[simp] theorem putFaultBuf_regPoison (h : Nat) (x : FaultBuf) : (putFaultBuf s h x).regPoison = s.regPoison := rfl
@[simp] theorem putFaultBuf_serial (h : Nat) (x : FaultBuf) : (putFaultBuf s h x).serial = s.serial := rfl
@[simp] theorem putFaultBuf_teams (h : Nat) (x : FaultBuf) : (putFaultBuf s h x).teams = s.teams := rfl
@[simp] theorem putFaultBuf_tiles (h : Nat) (x : FaultBuf) : (putFaultBuf s h x).tiles = s.tiles := rfl
@[simp] theorem putFaultBuf_tlbs (h : Nat) (x : FaultBuf) : (putFaultBuf s h x).tlbs = s.tlbs := rfl
@[simp] theorem putFaultBuf_txns (h : Nat) (x : FaultBuf) : (putFaultBuf s h x).txns = s.txns := rfl
@[simp] theorem putFaultBuf_markers (h : Nat) (x : FaultBuf) : (putFaultBuf s h x).markers = s.markers := rfl
@[simp] theorem putFaultBuf_l1ways (h : Nat) (x : FaultBuf) : (putFaultBuf s h x).l1ways = s.l1ways := rfl
@[simp] theorem putFaultBuf_ntLines (h : Nat) (x : FaultBuf) : (putFaultBuf s h x).ntLines = s.ntLines := rfl
@[simp] theorem putFaultBuf_deadWays (h : Nat) (x : FaultBuf) : (putFaultBuf s h x).deadWays = s.deadWays := rfl
@[simp] theorem putFaultBuf_homeLines (h : Nat) (x : FaultBuf) : (putFaultBuf s h x).homeLines = s.homeLines := rfl
@[simp] theorem putFaultBuf_older (h : Nat) (x : FaultBuf) : (putFaultBuf s h x).older = s.older := rfl

@[simp] theorem markNt_waves (ns : List Node) (tag : AsidTag) (line : Nat) : (markNt s ns tag line).waves = s.waves := rfl
@[simp] theorem markNt_banks (ns : List Node) (tag : AsidTag) (line : Nat) : (markNt s ns tag line).banks = s.banks := rfl
@[simp] theorem markNt_boot (ns : List Node) (tag : AsidTag) (line : Nat) : (markNt s ns tag line).boot = s.boot := rfl
@[simp] theorem markNt_caches (ns : List Node) (tag : AsidTag) (line : Nat) : (markNt s ns tag line).caches = s.caches := rfl
@[simp] theorem markNt_clock (ns : List Node) (tag : AsidTag) (line : Nat) : (markNt s ns tag line).clock = s.clock := rfl
@[simp] theorem markNt_copies (ns : List Node) (tag : AsidTag) (line : Nat) : (markNt s ns tag line).copies = s.copies := rfl
@[simp] theorem markNt_deferred (ns : List Node) (tag : AsidTag) (line : Nat) : (markNt s ns tag line).deferred = s.deferred := rfl
@[simp] theorem markNt_dirs (ns : List Node) (tag : AsidTag) (line : Nat) : (markNt s ns tag line).dirs = s.dirs := rfl
@[simp] theorem markNt_dram (ns : List Node) (tag : AsidTag) (line : Nat) : (markNt s ns tag line).dram = s.dram := rfl
@[simp] theorem markNt_hostSees (ns : List Node) (tag : AsidTag) (line : Nat) : (markNt s ns tag line).hostSees = s.hostSees := rfl
@[simp] theorem markNt_icache (ns : List Node) (tag : AsidTag) (line : Nat) : (markNt s ns tag line).icache = s.icache := rfl
@[simp] theorem markNt_images (ns : List Node) (tag : AsidTag) (line : Nat) : (markNt s ns tag line).images = s.images := rfl
@[simp] theorem markNt_inputs (ns : List Node) (tag : AsidTag) (line : Nat) : (markNt s ns tag line).inputs = s.inputs := rfl
@[simp] theorem markNt_latches (ns : List Node) (tag : AsidTag) (line : Nat) : (markNt s ns tag line).latches = s.latches := rfl
@[simp] theorem markNt_launches (ns : List Node) (tag : AsidTag) (line : Nat) : (markNt s ns tag line).launches = s.launches := rfl
@[simp] theorem markNt_lstore (ns : List Node) (tag : AsidTag) (line : Nat) : (markNt s ns tag line).lstore = s.lstore := rfl
@[simp] theorem markNt_mats (ns : List Node) (tag : AsidTag) (line : Nat) : (markNt s ns tag line).mats = s.mats := rfl
@[simp] theorem markNt_net (ns : List Node) (tag : AsidTag) (line : Nat) : (markNt s ns tag line).net = s.net := rfl
@[simp] theorem markNt_regPoison (ns : List Node) (tag : AsidTag) (line : Nat) : (markNt s ns tag line).regPoison = s.regPoison := rfl
@[simp] theorem markNt_serial (ns : List Node) (tag : AsidTag) (line : Nat) : (markNt s ns tag line).serial = s.serial := rfl
@[simp] theorem markNt_teams (ns : List Node) (tag : AsidTag) (line : Nat) : (markNt s ns tag line).teams = s.teams := rfl
@[simp] theorem markNt_tiles (ns : List Node) (tag : AsidTag) (line : Nat) : (markNt s ns tag line).tiles = s.tiles := rfl
@[simp] theorem markNt_tlbs (ns : List Node) (tag : AsidTag) (line : Nat) : (markNt s ns tag line).tlbs = s.tlbs := rfl
@[simp] theorem markNt_txns (ns : List Node) (tag : AsidTag) (line : Nat) : (markNt s ns tag line).txns = s.txns := rfl
@[simp] theorem markNt_markers (ns : List Node) (tag : AsidTag) (line : Nat) : (markNt s ns tag line).markers = s.markers := rfl
@[simp] theorem markNt_l1ways (ns : List Node) (tag : AsidTag) (line : Nat) : (markNt s ns tag line).l1ways = s.l1ways := rfl
@[simp] theorem markNt_deadWays (ns : List Node) (tag : AsidTag) (line : Nat) : (markNt s ns tag line).deadWays = s.deadWays := rfl
@[simp] theorem markNt_homeLines (ns : List Node) (tag : AsidTag) (line : Nat) : (markNt s ns tag line).homeLines = s.homeLines := rfl
@[simp] theorem markNt_older (ns : List Node) (tag : AsidTag) (line : Nat) : (markNt s ns tag line).older = s.older := rfl

end Sys2Proof.Machine
end

