-- ==== Sys2Proof/Laws/Retire.lean ====
section
/-! SUPPORT. What issuing does (one lemma for each outcome of an effect), and what retirement makes of a state. -/

namespace Sys2Proof.Machine

/-! Issue. -/

theorem runIssue_sound {i : Instr} {s : State} {c : Ctx} (h : Issues i s c) (k : Ctx → State → Effect) (hi : c.i = i) :
    runIssue c s k = finish c (takeHold s c) 0 (k c s) := by
  have full : ((holdOf c.i).isSome && latchFull s c.core) = false := by
    cases hh : (holdOf c.i).isSome
    · rfl
    · simpa [hh] using h.room (by rw [← hi]; exact hh)
  have all : c.act &&& ~~~(0 : LaneMask) = c.act := by exact (congrArg (c.act &&& ·) BitVec.not_zero).trans BitVec.and_allOnes
  have same : { c with act := c.act &&& ~~~(0 : LaneMask) } = c := by rw [all]
  unfold runIssue
  rw [full, h.sound]
  simp only [hi, h.fields.1, h.fields.2, h.wave.1, h.wave.2, Bool.or_self, Bool.false_eq_true, if_false, ne_eq, not_true_eq_false,
    decide_false, Bool.false_and]
  rw [← hi, same]

theorem ctxOf_instr {i : Instr} {s : State} {c : Ctx} (h : ctxOf i s = some c) : c.i = i ∧ c.words = encode i ∧ c.r = s.cur ∧
    findWave s c.w = some c.x ∧ findTeam s c.x.team = some c.t ∧ findLaunch s c.t.launch = some c.la ∧
    c.sl = slotOf c.x c.r.b ∧ c.act = actOf i c.x c.sl := by
  unfold ctxOf at h
  split at h
  · cases h
  · rename_i x hx
    split at h
    · cases h
    · rename_i t ht
      split at h
      · cases h
      · rename_i la hl
        obtain rfl := (Option.some.inj h).symm
        exact ⟨rfl, rfl, rfl, hx, ht, hl, rfl, rfl⟩

/-- What an instruction that issues makes of the state, from its effect. -/
theorem issueInstr_sound {i : Instr} {s : State} {c : Ctx} (h : Issues i s c) (k : Ctx → State → Effect) :
    issueInstr i s k = .next (finish c (takeHold s c) 0 (k c s)) := by
  simp only [issueInstr, h.stands]
  rw [runIssue_sound h k (ctxOf_instr h.stands).1]

/-! Masks. -/

theorem killByPoison_none (s : State) (w : Nat) (tag : AsidTag) (pc : BitVec 56) : killByPoison s w tag 0 pc = s := by
  rw [killByPoison, if_pos rfl]

/-! Retirement. -/

/-- The state of a retirement before idle and waiting slots act. -/
def retired (s : State) (c : Ctx) (hs : List Latch) (la : Nat) (ws : List RegWrite) : State :=
  let s := giveResults (countIssue s c.r) c la ws
  noteIssue (advance (foldWords { s with latches := hs ++ s.latches } c) c) c

theorem retire_sound (s : State) (c : Ctx) (hs : List Latch) (la : Nat) (ws : List RegWrite) :
    retire s c hs 0 la ws = settle' (retired s c hs la ws) c := by
  rw [retire, killByPoison_none, retired]

theorem finish_done (c : Ctx) (hs : List Latch) (s : State) (la : Nat) (ws : List RegWrite) :
    finish c hs 0 (.done s 0 la ws) = settle' (retired s c hs la ws) c := by
  rw [finish]
  simp only [ne_eq, not_true_eq_false, decide_false, Bool.false_and, Bool.false_eq_true, if_false]
  exact retire_sound s c hs la ws

theorem onSlot_eq (s : State) (r : SlotRef) (f : Slot → Slot) {x : Wave} (h : findWave s r.wave = some x) :
    findWave (onSlot s r f) r.wave = some (withSlot x r.b (f (slotOf x r.b))) := findWave_on_same h

/-- Folding, advancing and noting the issue change the slot alone, as `slotAfter` says. -/
theorem onSlot_onSlot (s : State) (r : SlotRef) (f g : Slot → Slot) : onSlot (onSlot s r f) r g = onSlot s r (g ∘ f) := by
  have table : kvModify (kvModify s.waves r.wave fun x => withSlot x r.b (f (slotOf x r.b))) r.wave (fun x => withSlot x r.b (g (slotOf x r.b))) =
      kvModify s.waves r.wave fun x => withSlot x r.b ((g ∘ f) (slotOf x r.b)) := by
    rw [kvModify, kvModify, kvModify, List.map_map]
    apply List.map_congr_left
    intro e _
    by_cases he : e.1 = r.wave <;> simp [he]
  unfold onSlot onWave
  rw [table]

theorem onSlot_same (s : State) (r : SlotRef) : onSlot s r (fun sl => sl) = s := by
  have table : (kvModify s.waves r.wave fun x => withSlot x r.b (slotOf x r.b)) = s.waves := by
    rw [kvModify]
    conv_rhs => rw [← List.map_id s.waves]
    apply List.map_congr_left
    intro e _
    by_cases he : e.1 = r.wave
    · simp only [he, if_true, withSlot_slotOf, id]; rw [← he]
    · simp [he]
  unfold onSlot onWave
  rw [table]

theorem foldWords_eq (s : State) (c : Ctx) : foldWords s c = onSlot s c.r fun sl =>
    if (c.la.ker.sig && !c.x.super && !isSigchk c.i) && sl.st = .run then { sl with sig := c.words.foldl foldSig sl.sig } else sl := by
  unfold foldWords
  by_cases h : (c.la.ker.sig && !c.x.super && !isSigchk c.i) = true
  · rw [if_pos h]; congr 1; funext sl; simp [h]
  · rw [if_neg h]
    conv_lhs => rw [← onSlot_same s c.r]
    congr 1; funext sl; simp [h]

/-- Folding, advancing and noting the issue change the slot alone. -/
theorem slotSteps_eq (s : State) (c : Ctx) :
    noteIssue (advance (foldWords s c) c) c = { onSlot s c.r (slotAfter c s.serial s.clock) with serial := s.serial + 1 } := by
  rw [foldWords_eq]
  let f1 : Slot → Slot := fun sl =>
    if (c.la.ker.sig && !c.x.super && !isSigchk c.i) && sl.st = .run then { sl with sig := c.words.foldl foldSig sl.sig } else sl
  let f2 : Slot → Slot := fun sl =>
    if sl.st ≠ .run then sl
    else
      let woff := c.sl.woff + c.words.length
      if woff < c.sl.clause.length then { sl with pc := c.next, woff }
      else { sl with pc := c.next, woff := 0, clause := [], header := none }
  let f3 : Slot → Slot := fun sl => { sl with
    act := none, aged := false, last := s.serial, issuedAt := s.clock, since := none, joint := none
    owed := owedAfter c sl.owed
    ranked := if c.sl.clause.length ≤ c.sl.woff + c.words.length && field (c.sl.clause.headD 0) 16 4 ≠ 0 then
      some ⟨s.clock, 8 * (field (c.sl.clause.headD 0) 16 4).toNat⟩ else sl.ranked }
  have whole : (f3 ∘ f2) ∘ f1 = slotAfter c s.serial s.clock := by
    funext sl
    simp only [Function.comp, slotAfter, f1, f2, f3]
    by_cases hr : sl.st = .run <;> by_cases hf : (c.la.ker.sig && !c.x.super && !isSigchk c.i) = true <;>
      by_cases hl : c.sl.clause.length ≤ c.sl.woff + c.words.length <;> simp [hr, hf, hl, Nat.not_lt.2, Nat.lt_of_not_le]
  show ({ onSlot (onSlot (onSlot s c.r f1) c.r f2) c.r f3 with serial := s.serial + 1 } : State) = _
  rw [onSlot_onSlot, onSlot_onSlot, whole]

theorem countIssue_eq (s : State) (r : SlotRef) : ∃ ms, countIssue s r =
    { onWave s r.wave (countWave r.b) with
      latches := (s.latches.map fun e => if e.slot = r then { e with left := e.left - 1 } else e).filter fun e => e.left ≠ 0
      mats := ms } ∧ ((∀ m ∈ s.mats, noWindows m.2 = true) → ms = s.mats) ∧
      ((∀ m ∈ s.mats, noWindows m.2 = true) → ∀ m ∈ ms, noWindows m.2 = true) := by
  refine ⟨_, rfl, fun h => ?_, fun h m hm => ?_⟩
  · change s.mats.map _ = s.mats
    conv_rhs => rw [← List.map_id s.mats]
    apply List.map_congr_left
    intro m hm
    exact Prod.ext rfl (mapWindows_quiet (countWindows r) rfl (h m hm))
  · obtain ⟨e, he, rfl⟩ := List.mem_map.1 hm
    exact (congrArg noWindows (mapWindows_quiet (countWindows r) rfl (h e he))).trans (h e he)

theorem countIssue_mats (s : State) (r : SlotRef) : (countIssue s r).mats = countMats r s.mats := rfl

theorem countIssue_regPoison (s : State) (r : SlotRef) : (countIssue s r).regPoison = s.regPoison := rfl

/-- What counting the issue and giving the results make of a state. -/
structure GaveResults (c : Ctx) (s : State) (la : Nat) (ws : List RegWrite) (t : State) : Prop where
  rest : t = { s with waves := t.waves, lstore := t.lstore, regPoison := t.regPoison, latches := t.latches, mats := t.mats }
  waves : ∀ w, w ≠ c.w → findWave t w = findWave s w
  latches : t.latches = (s.latches.map fun e => if e.slot = c.r then { e with left := e.left - 1 } else e).filter fun e => e.left ≠ 0
  mats : (∀ m ∈ s.mats, noWindows m.2 = true) → t.mats = s.mats
  reads : SeenMats c.w c.x (writtenNow c la ws) (countMats c.r s.mats) t.mats
  poison : (findWave s c.w).isSome = true → ∀ k, k ∈ t.regPoison ↔ k ∈ s.regPoison ∧
    ¬ ∃ n l v, RegWrite.lane n l v ∈ writtenNow c la ws ∧ svLane c.x n = false ∧ k = lsKey c.cl (regAddr c.x n l)
  bytes : ∀ k, ¬ (AtOnce c la ∧ WrittenByte c ws k) → memRead t.lstore k = memRead s.lstore k
  wave : ∀ x, findWave s c.w = some x → ∃ y, findWave t c.w = some y ∧
    y = { x with g := y.g, svG := y.svG, svV := y.svV, landings := y.landings, locals := y.locals } ∧
    (AtOnce c la →
      (∀ n, groupReg y n = lastGroup ws n (groupReg x n)) ∧
      (∀ n l, l < x.width → laneReg t c.w y n l = lastLane ws n l (laneReg s c.w x n l)) ∧
      y.landings = (supersede (countWave c.r.b x) x.super ws).landings ∧ y.locals = (supersede (countWave c.r.b x) x.super ws).locals) ∧
    (¬ AtOnce c la →
      y.g = x.g ∧ y.svG = x.svG ∧ y.svV = x.svV ∧ y.locals = (countWave c.r.b x).locals ∧
      y.landings = (countWave c.r.b x).landings ++ (if ws = [] then [] else [⟨c.r.b, la, writesByLoad c.i, x.super, ws⟩]))

theorem supersede_nil (x : Wave) (sup : Bool) : supersede x sup [] = x := by
  simp [supersede]

theorem atOnce_iff (c : Ctx) (la : Nat) : (la = 0 || c.interlocked) = true ↔ AtOnce c la := by
  simp [AtOnce]

theorem gaveResults {s : State} {c : Ctx} (la : Nat) (ws : List RegWrite) (hq : ws ≠ [] → memWf s.lstore = true ∧ ∀ x, findWave s c.w = some x →
      (x.width ≤ 64 ∧ x.g.length = x.gregs ∧ x.svG.length = 8 ∧ x.svV.length = 512) ∧
      (x.width = c.x.width ∧ x.regbase = c.x.regbase ∧ x.super = c.x.super) ∧ ∀ r ∈ ws, WriteFits x r) :
    GaveResults c s la ws (giveResults (countIssue s c.r) c la ws) := by
  obtain ⟨ms, ec, em, ew⟩ := countIssue_eq s c.r
  have cw : c.r.wave = c.w := rfl
  have others : ∀ (f : Wave → Wave) (v : Nat), v ≠ c.w → findWave (onWave (countIssue s c.r) c.w f) v = findWave s v := by
    intro f v hv
    rw [findWave_on_other _ _ hv, ec]
    exact findWave_on_other _ _ hv
  have mine : ∀ x, findWave s c.w = some x → findWave (countIssue s c.r) c.w = some (countWave c.r.b x) := by
    intro x h
    rw [ec]
    exact findWave_on_same h
  have other0 : ∀ v, v ≠ c.w → findWave (countIssue s c.r) v = findWave s v := by
    intro v hv
    rw [ec]
    exact findWave_on_other _ _ hv
  unfold giveResults
  by_cases he : ws.isEmpty = true
  · obtain rfl := List.isEmpty_iff.1 he
    simp only [he, if_true]
    refine ⟨by rw [ec]; rfl, other0, by rw [ec], fun h => by rw [ec]; exact em h, by rw [countIssue_mats]; exact .refl ..,
      fun _ k => by simp [writtenNow, countIssue_regPoison],
      fun _ _ => by rw [ec]; rfl, fun x h => ?_⟩
    refine ⟨_, mine x h, rfl, fun _ => ⟨fun _ => rfl, fun n l _ => by rw [ec]; rfl, ?_, ?_⟩, fun _ => ⟨rfl, rfl, rfl, rfl, by simp⟩⟩
    · rw [supersede_nil]
    · rw [supersede_nil]
  · have ne : ws ≠ [] := by simpa using he
    obtain ⟨hm, hq⟩ := hq ne
    simp only [he, Bool.false_eq_true, if_false]
    by_cases ha : (la = 0 || c.interlocked) = true
    · simp only [ha, if_true]
      have at' := (atOnce_iff c la).1 ha
      cases h : findWave s c.w with
      | none =>
        have h1 : findWave (countIssue s c.r) c.w = none := by
          rw [ec]; show findWave (onWave s c.w (countWave c.r.b)) c.w = none; simp [findWave_on, h]
        simp only [writeRegs, h1]
        exact ⟨by rw [ec]; rfl, other0, by rw [ec], fun h => by rw [ec]; exact em h, by rw [countIssue_mats]; exact .refl ..,
          fun hq => by rw [h] at hq; exact (Bool.false_ne_true hq).elim, fun _ _ => by rw [ec]; rfl, fun x hq => by rw [h] at hq; cases hq⟩
      | some x =>
        obtain ⟨⟨x1, x2, x3, x4⟩, ⟨s1, s2, s3⟩, fits⟩ := hq x h
        simp only [writeRegs, mine x h]
        have lst : (onWave (countIssue s c.r) c.w fun y => supersede y (countWave c.r.b x).super ws).lstore = s.lstore := by
          rw [ec]; rfl
        have spec := applyWrites_spec (s := onWave (countIssue s c.r) c.w fun y => supersede y (countWave c.r.b x).super ws) (w := c.w)
          (x := supersede (countWave c.r.b x) x.super ws) (findWave_on_same (mine x h)) (by rw [lst]; exact hm) ⟨x1, x2, x3, x4⟩ ws fits
        have sup : (supersede (countWave c.r.b x) x.super ws).super = (countWave c.r.b x).super := rfl
        rw [sup] at spec
        obtain ⟨y, hy, ye, -, -, -, yg, yl⟩ := spec.wave
        have now : writtenNow c la ws = ws := if_pos at'
        have lanes : ∀ n, svLane c.x n = svLane (supersede (countWave c.r.b x) x.super ws) n := fun n => by
          simp [svLane, supersede, countWave, s3]
        have addr : ∀ n l, regAddr c.x n l = regAddr (supersede (countWave c.r.b x) x.super ws) n l := fun n l => by
          simp [regAddr, supersede, countWave, s1, s2]
        refine ⟨?_, fun v hv => by rw [spec.waves v hv, others _ v hv], ?_, fun h => ?_, ?_, fun _ k => ?_, fun k hk => ?_, fun x' h' => ?_⟩
        · rw [spec.rest, ec]; rfl
        · rw [spec.rest, ec]; rfl
        · rw [spec.mats, ec]
          · exact em h
          · rw [ec]; exact ew h
        · rw [now]
          have := spec.reads.wave (y := c.x) s3.symm
          rwa [onWave_mats, countIssue_mats] at this
        · rw [spec.poison k, now, onWave_regPoison, countIssue_regPoison]
          simp only [lanes, addr]
          exact Iff.rfl
        · rw [spec.bytes k, lst]
          rintro ⟨n, l, v, h1, h2, h3⟩
          refine hk ⟨at', n, l, v, h1, ?_, ?_⟩
          · rw [lanes, h2]
          · rw [addr]; exact h3
        · obtain rfl : x = x' := by rw [h] at h'; exact Option.some.inj h'
          refine ⟨y, hy, ?_, fun _ => ⟨yg, fun n l hl => ?_, by rw [ye], by rw [ye]⟩, fun hq => absurd at' hq⟩
          · rw [ye]; rfl
          · rw [yl n l hl]
            congr 1
    · simp only [ha, Bool.false_eq_true, if_false]
      have at' : ¬ AtOnce c la := fun h => ha ((atOnce_iff c la).2 h)
      refine ⟨by rw [ec]; rfl, others _, by rw [ec]; rfl, fun h => by rw [ec]; exact em h,
        by rw [onWave_mats, countIssue_mats]; exact .refl ..,
        fun _ k => by rw [writtenNow, if_neg (show ¬ (la = 0 ∨ c.interlocked = true) from at')]; simp [countIssue_regPoison], fun _ _ => by rw [ec]; rfl, fun x h => ?_⟩
      refine ⟨_, findWave_on_same (mine x h), rfl, fun hq => absurd hq at', fun _ => ⟨rfl, rfl, rfl, rfl, ?_⟩⟩
      simp only [ne, if_false]
      rfl

/-- Retirement, for an effect that has left the wave's window, width and mode alone. -/
theorem retired_spec {s : State} {c : Ctx} (hs : List Latch) (la : Nat) (ws : List RegWrite) (hq : ws ≠ [] → memWf s.lstore = true ∧ ∀ x, findWave s c.w = some x →
      (x.width ≤ 64 ∧ x.g.length = x.gregs ∧ x.svG.length = 8 ∧ x.svV.length = 512) ∧
      (x.width = c.x.width ∧ x.regbase = c.x.regbase ∧ x.super = c.x.super) ∧ ∀ r ∈ ws, WriteFits x r) :
    Retired c s hs la ws (retired s c hs la ws) := by
  have g := gaveResults la ws hq
  unfold retired
  rw [slotSteps_eq]
  generalize giveResults (countIssue s c.r) c la ws = t at g
  have ser : t.serial = s.serial := by rw [g.rest]
  have clk : t.clock = s.clock := by rw [g.rest]
  refine ⟨?_, fun v hv => ?_, ?_, g.mats, g.reads, g.poison, g.bytes, fun x h => ?_⟩
  · obtain ⟨W, L, P, Q, M, e⟩ : ∃ W L P Q M, t = { s with waves := W, lstore := L, regPoison := P, latches := Q, mats := M } :=
      ⟨_, _, _, _, _, g.rest⟩
    subst e
    rfl
  · rw [← g.waves v hv]
    show findWave (onSlot { t with latches := hs ++ t.latches } c.r (slotAfter c t.serial t.clock)) v = _
    unfold onSlot
    rw [findWave_on_other _ _ (show v ≠ c.r.wave from hv)]
    rfl
  · show hs ++ t.latches = _
    rw [g.latches]
  · obtain ⟨y, hy, ye, h1, h2⟩ := g.wave x h
    refine ⟨withSlot y c.r.b (slotAfter c s.serial s.clock (slotOf y c.r.b)), ?_, ?_, ?_, ?_, fun ha => ?_, fun ha => ?_⟩
    · show findWave (onSlot _ c.r (slotAfter c t.serial t.clock)) c.r.wave = _
      rw [ser, clk]
      exact onSlot_eq _ _ _ hy
    · cases hb : c.r.b <;> simp only [withSlot] <;> rw [ye] <;> rfl
    · rw [slotOf_withSlot_other, ye]; rfl
    · rw [slotOf_withSlot, ye]; rfl
    · obtain ⟨a1, a2, a3, a4⟩ := h1 ha
      refine ⟨fun n => ?_, fun n l hl => ?_, ?_, ?_⟩
      · rw [← a1 n]; cases c.r.b <;> rfl
      · rw [← a2 n l hl]; cases c.r.b <;> rfl
      · rw [← a3]; cases c.r.b <;> rfl
      · rw [← a4]; cases c.r.b <;> rfl
    · obtain ⟨a1, a2, a3, a4, a5⟩ := h2 ha
      refine ⟨?_, ?_, ?_, ?_, ?_⟩
      · rw [← a1]; cases c.r.b <;> rfl
      · rw [← a2]; cases c.r.b <;> rfl
      · rw [← a3]; cases c.r.b <;> rfl
      · rw [← a4]; cases c.r.b <;> rfl
      · rw [← a5]; cases c.r.b <;> rfl

/-- An instruction whose effect completes with register results, in a state that keeps its wave's window, width and mode. -/
theorem completes_of {i : Instr} {s : State} {c : Ctx} (h : Issues i s c) {k : Ctx → State → Effect} (hi : exec i s = issueInstr i s k)
    {t : State} {la : Nat} {ws : List RegWrite} (hk : k c s = .done t 0 la ws)
    (hq : ws ≠ [] → memWf t.lstore = true ∧ ∀ x, findWave t c.w = some x →
      (x.width ≤ 64 ∧ x.g.length = x.gregs ∧ x.svG.length = 8 ∧ x.svV.length = 512) ∧
      (x.width = c.x.width ∧ x.regbase = c.x.regbase ∧ x.super = c.x.super) ∧ ∀ r ∈ ws, WriteFits x r) :
    Completes i s c (t, la, ws) :=
  ⟨_, by rw [hi, issueInstr_sound h, hk, finish_done], retired_spec _ _ _ hq⟩

/-- An instruction that completes without register results. -/
theorem completes_nil {i : Instr} {s : State} {c : Ctx} (h : Issues i s c) {k : Ctx → State → Effect} (hi : exec i s = issueInstr i s k)
    {t : State} {la : Nat} (hk : k c s = .done t 0 la []) : Completes i s c (t, la, []) :=
  completes_of h hi hk fun hq => absurd rfl hq

end Sys2Proof.Machine
end

