-- ==== Sys2Proof/Laws/Operands.lean ====
section
/-! SUPPORT. The lanes and registers of an instruction that issues: its lanes lie within its wave, and its results name
registers that the wave has. -/

namespace Sys2Proof.Machine

theorem actOf_alive (i : Instr) (x : Wave) (sl : Slot) : actOf i x sl &&& ~~~x.alive = 0 := by
  have meet : ∀ m : LaneMask, (m &&& x.alive) &&& ~~~x.alive = 0 := by
    intro m
    ext l hl
    simp
  have base : baseAct x sl &&& ~~~x.alive = 0 := by unfold baseAct; split <;> exact meet _
  have lane : ∀ g, laneAct x sl g &&& ~~~x.alive = 0 := by
    intro g; unfold laneAct; split
    · exact meet _
    · ext l hl
      simp only [BitVec.getElem_and, BitVec.getElem_not]
      cases x.alive[l] <;> simp
  have group : ∀ g, groupAct x sl g &&& ~~~x.alive = 0 := by
    intro g; unfold groupAct; split
    · exact meet _
    · split
      · exact meet _
      · exact BitVec.zero_and
  unfold actOf
  split
  · exact base
  · exact base
  · exact base
  · split
    · exact group _
    · exact lane _

theorem widthMask_bit {w l : Nat} (hw : w ≤ 64) : (widthMask w).getLsbD l = decide (l < w) := by
  simp only [widthMask, BitVec.getLsbD_ofNat, Nat.testBit_two_pow_sub_one]
  by_cases h : l < w
  · have : l < 64 := by omega
    simp [h, this]
  · simp [h]

theorem lanes_lt {i : Instr} {s : State} {c : Ctx} (h : Issues i s c) {l : Nat} (hl : l ∈ c.lanes) : l < c.x.width := by
  have hb : c.act.getLsbD l = true := by simpa [Ctx.lanes, lanesOf] using (List.mem_filter.1 hl).2
  rw [(ctxOf_instr h.stands).2.2.2.2.2.2.2] at hb
  have ha := congrArg (fun m : LaneMask => m.getLsbD l) (actOf_alive i c.x c.sl)
  have hw := congrArg (fun m : LaneMask => m.getLsbD l) h.shaped.2.1
  have l64 : l < 64 := by have := (List.mem_filter.1 hl).1; simpa using this
  simp only [BitVec.getLsbD_and, BitVec.getLsbD_not, hb, widthMask_bit h.shaped.1, l64] at ha hw
  by_contra hc
  simp [hc] at hw
  simp [hw] at ha

theorem uses_within {i : Instr} {s : State} {c : Ctx} (h : Issues i s c) {u : RegUse} (hu : u ∈ regsOf c.x.width i) :
    useBeyond c.x u = false := by
  have := h.wave.2
  simp only [dynIllegal, Bool.or_eq_false_iff] at this
  have hall := this.1.1.1
  rw [List.any_eq_false] at hall
  simpa using hall u hu

/-- A group register of a field that does not reach beyond the wave. -/
theorem group_fits {x : Wave} {u : RegUse} (h : useBeyond x u = false) (hf : u.file = .group) {j : Nat} (hj : j < u.cnt) (v : Word) :
    WriteFits x (.group (u.num + j) v) := by
  have := List.any_eq_false.1 h j (by simpa using hj)
  simp only [regBeyond, hf, WriteFits, svGroup] at this ⊢
  by_cases hg : x.gregs ≤ u.num + j
  · right
    simp only [hg, decide_true, Bool.true_and] at this
    have this : (x.super = true ∧ 56 ≤ u.num + j) ∧ u.num + j ≤ 63 := by simpa using this
    simp only [Bool.and_eq_true, decide_eq_true_eq]
    exact ⟨this.1, by omega⟩
  · left; omega

theorem eachResult_fits {i : Instr} {s : State} {c : Ctx} (h : Issues i s c) {u : Bool} {d : BitVec 6} (hd : dstUse u d 1 ∈ regsOf c.x.width i)
    (v : Nat → Word) : ∀ r ∈ eachResult c u d v, WriteFits c.x r := by
  intro r hr
  obtain ⟨l, hl, rfl⟩ := List.mem_map.1 hr
  cases u
  · exact lanes_lt h hl
  · exact group_fits (u := dstUse true d 1) (uses_within h hd) rfl (j := 0) (show 0 < 1 by omega) _

theorem laneWrites_fits {x : Wave} {l : Nat} (hl : l < x.width) (d v n : Nat) : ∀ r ∈ laneWrites d l v n, WriteFits x r := by
  induction n generalizing d v with
  | zero => simp [laneWrites]
  | succ n ih =>
    intro r hr
    rcases List.mem_cons.1 hr with rfl | hr
    · exact hl
    · exact ih _ _ r hr

theorem groupWrites_fits {x : Wave} {d n : Nat} (h : ∀ j < n, ∀ v, WriteFits x (.group (d + j) v)) (v : Nat) :
    ∀ r ∈ groupWrites d v n, WriteFits x r := by
  induction n generalizing d v with
  | zero => simp [groupWrites]
  | succ n ih =>
    intro r hr
    rcases List.mem_cons.1 hr with rfl | hr
    · exact h 0 (by omega) _
    · refine ih (d := d + 1) (fun j hj v => ?_) _ r hr
      have := h (j + 1) (by omega) v
      rwa [Nat.add_comm j 1, ← Nat.add_assoc] at this

theorem eachWide_fits {i : Instr} {s : State} {c : Ctx} (h : Issues i s c) {u : Bool} {d : BitVec 6} {n : Nat}
    (hd : dstUse u d n ∈ regsOf c.x.width i) (v : Nat → Nat) : ∀ r ∈ eachWide c u d n v, WriteFits c.x r := by
  intro r hr
  obtain ⟨l, hl, hr⟩ := List.mem_flatMap.1 hr
  cases u
  · exact laneWrites_fits (lanes_lt h hl) _ _ _ r hr
  · refine groupWrites_fits (fun j hj v => ?_) _ r hr
    exact group_fits (u := dstUse true d n) (uses_within h hd) rfl hj v

/-- The results of an instruction whose effect is they alone. -/
theorem completes_results {i : Instr} {s : State} {c : Ctx} (h : Issues i s c) {k : Ctx → State → Effect} (hi : exec i s = issueInstr i s k)
    {la : Nat} {ws : List RegWrite} (hk : k c s = .done s 0 la ws) (fits : ∀ r ∈ ws, WriteFits c.x r) : Completes i s c (s, la, ws) := by
  have own : ∀ x, findWave s c.w = some x → x = c.x := by
    intro x hx
    rw [(ctxOf_instr h.stands).2.2.2.1] at hx
    exact (Option.some.inj hx).symm
  obtain ⟨s1, -, s3, -, -, s6, s7⟩ := h.shaped
  refine completes_of h hi hk fun _ => ⟨h.mems.2.1, fun x hx => ?_⟩
  rw [own x hx]
  exact ⟨⟨s1, s3, s6, s7⟩, ⟨rfl, rfl, rfl⟩, fits⟩

end Sys2Proof.Machine
end

