-- ==== Sys2Proof/Tests/Slice0.lean ====
section
/-! SUPPORT. Tests of this model's own: ill-formed terms that the checks refuse, words written out from the spec's encodings,
results of the spec's examples, and for each statement states that meet its hypotheses. The states are built on one wave that
stands at one instruction. -/

namespace Sys2Proof.Tests

set_option Elab.async false

open Sys2Proof Sys2Proof.Machine

/-! Helpers. -/

/-- The machine with one wave at an instruction. -/
def lone (i : Instr) : State :=
  match encode i with
  | [a] => loadLone State.reset a 0
  | [a, b] => loadLone State.reset a b
  | _ => State.reset

def shapedB (x : Wave) : Bool :=
  x.width ≤ 64 && x.alive &&& ~~~widthMask x.width == 0 && x.g.length == x.gregs && x.k.length == 12 && x.gk.length == 12 &&
    x.svG.length == 8 && x.svV.length == 512

/-- An instruction issues in a state, in a context that `p` holds of. -/
def issuesB (i : Instr) (s : State) (p : Ctx → Bool) : Bool :=
  match ctxOf i s with
  | none => false
  | some c =>
    memWf s.dram && memWf s.lstore && memWf s.staging && shapedB c.x && !unimplBad i && !illegalBad i && !dynUnimpl i c.x &&
      !dynIllegal i c.x c.t c.la && (!(holdOf i).isSome || !latchFull s c.core) && eatenLanes s c == 0 && p c

theorem issues_of {i : Instr} {s : State} {p : Ctx → Bool} (h : issuesB i s p = true) : ∃ c, Issues i s c ∧ p c = true := by
  unfold issuesB at h
  split at h
  · simp at h
  · rename_i c hc
    simp only [shapedB, Bool.and_eq_true, Bool.or_eq_true, Bool.not_eq_true', beq_iff_eq, decide_eq_true_eq] at h
    obtain ⟨⟨⟨⟨⟨⟨⟨⟨⟨⟨h1, h2⟩, h3⟩, ⟨⟨⟨⟨⟨⟨h4, h5⟩, h6⟩, h7⟩, h8⟩, h9⟩, h10⟩⟩, h11⟩, h12⟩, h13⟩, h14⟩, h15⟩, h16⟩, h17⟩ := h
    refine ⟨c, ⟨hc, ⟨h1, h2, h3⟩, ⟨h4, h5, h6, h7, h8, h9, h10⟩, ⟨h11, h12⟩, ⟨h13, h14⟩, ?_, h16⟩, h17⟩
    intro hs
    rcases h15 with h15 | h15
    · simp [hs] at h15
    · exact h15

/-- Each of some instructions issues in the state of its own. -/
def eachIssues (is : List Instr) : Bool := is.all fun i => issuesB i (lone i) fun c => c.act ≠ 0

theorem each_of {is : List Instr} (h : eachIssues is = true) : ∀ i ∈ is, ∃ c, Issues i (lone i) c ∧ c.act ≠ 0 := by
  intro i hi
  have := List.all_eq_true.mp h i hi
  simpa using issues_of this

def l3 : LOps := ⟨false, un, false, 6, 4, 5⟩

theorem issuing {i : Instr} {s : State} {P : Ctx → Prop} [DecidablePred P] (h : issuesB i s (fun c => decide (P c)) = true) :
    ∃ c, Issues i s c ∧ P c :=
  (issues_of h).imp fun _ h => ⟨h.1, of_decide_eq_true h.2⟩

/-- The lone wave changed. -/
def loneW (i : Instr) (f : Wave → Wave) : State := onWave (lone i) 0 f

/-- The guard of predicate 0, which holds in no lane, and of predicate 1. -/
def g0 : Guard := ⟨0, false⟩
def g1 : Guard := ⟨1, false⟩

/-- Predicate 1 in the lanes 0 to 3. -/
def someLanes (x : Wave) : Wave := { x with k := x.k.set 1 0xF }

def l2 : LOps2 := ⟨false, un, false, 6, 4⟩
def i3 : IOps := ⟨false, un, 6, 4, 5⟩
def w3 : LOps := ⟨false, un, false, 6, 4, 2⟩
def a3 : Alu64Ops := ⟨false, un, false, 6, 4, 2, 0, 0⟩
def t3 : FtrOps := ⟨false, un, false, 6, 4, 0, 2⟩

/-- The hypothesis `Issues` of each instruction. -/
theorem witness_IntegerResults : ∀ i ∈ ([.addI32 l3, .subI32 l3, .mulI32 l3, .mulhiI32 l3, .mulhiN32 l3, .madI32 l3, .addsI32 l3, .subsI32 l3, .addsN32 l3, .minI32 l3, .maxI32 l3, .minN32 l3, .maxN32 l3, .andL l3, .orL l3, .xorL l3, .andn l3, .shl l3, .shrN l3, .shrI l3, .rotl l3, .absI32 l2, .addi i3, .shli i3, .shriN i3, .shriI i3] : List Instr), ∃ c, Issues i (lone i) c ∧ c.act ≠ 0 :=
  each_of (by decide +kernel)

/-- The hypothesis `Issues` of each instruction. -/
theorem witness_SelectAndBitResults : ∀ i ∈ ([.sel l3, .popc l2, .clz l2, .brev l2, .bfxN l3, .bfxI l3, .kmovVK ⟨false, un, 6, 4⟩, .movi ⟨false, un, 6, 9⟩] : List Instr), ∃ c, Issues i (lone i) c ∧ c.act ≠ 0 :=
  each_of (by decide +kernel)

/-- The hypothesis `Issues` of each instruction. -/
theorem witness_WideIntegerResults : ∀ i ∈ ([.add64 a3, .sub64 a3, .lea a3, .mulwI a3, .mulwN a3, .shl64 a3, .shr64N a3, .shr64I a3, .min64N a3, .max64N a3] : List Instr), ∃ c, Issues i (lone i) c ∧ c.act ≠ 0 :=
  each_of (by decide +kernel)

/-- The hypothesis `Issues` of each instruction. -/
theorem witness_Comparisons : ∀ i ∈ ([.cmpEqI32 l3, .cmpNeI32 l3, .cmpLtI32 l3, .cmpLeI32 l3, .cmpLtN32 l3, .cmpLeN32 l3, .fcmpEqF32 l3, .fcmpLtF32 l3, .fcmpLeF32 l3, .fcmpUnF32 l3, .cmpiEq i3, .cmpiLtI32 i3, .cmpiLtN32 i3, .kop ⟨false, un, 1, 2, 3, 4⟩, .kmovKV ⟨false, un, 6, 4⟩, .kset ⟨un, 1, 4⟩, .vany ⟨un, 1, 2⟩, .vall ⟨un, 1, 2⟩] : List Instr), ∃ c, Issues i (lone i) c ∧ c.act ≠ 0 :=
  each_of (by decide +kernel)

/-- The hypothesis `Issues` of each instruction. -/
theorem witness_FloatFormats : ∀ i ∈ ([.faddF32 l3, .fsubF32 l3, .fmulF32 l3, .ffmaF32 l3, .fminF32 l3, .fmaxF32 l3, .fscaleF32 l3, .faddF16x2 l3, .fmulF16x2 l3, .ffmaF16x2 l3, .ffmaBf16x2 l3, .faddF64 w3, .fmulF64 w3, .ffmaF64 w3, .froundF32 ⟨false, un, false, 6, 4, 4⟩, .fnegF32 l2, .fabsF32 l2, .fclassF32 l2] : List Instr), ∃ c, Issues i (lone i) c ∧ c.act ≠ 0 :=
  each_of (by decide +kernel)

/-- The hypothesis `Issues` of each instruction. -/
theorem witness_ConversionResults : ∀ i ∈ ([.cvtF32I32 l2, .cvtI32F32 l2, .cvtF32N32 l2, .cvtN32F32 l2, .cvtF64F32 l2, .cvtF32F64 l2, .packF16x2 l3, .packBf16x2 l3, .npq l3, .npdq l3, .unpkF16 ⟨false, un, 6, 4, 1⟩, .unpkBf16 ⟨false, un, 6, 4, 0⟩] : List Instr), ∃ c, Issues i (lone i) c ∧ c.act ≠ 0 :=
  each_of (by decide +kernel)

/-- The hypothesis `Issues` of each instruction. -/
theorem witness_TranscendentalResults : ∀ i ∈ ([.frcp t3, .frsq t3, .fsqrt t3, .fexp2 t3, .flog2 t3, .fsinpi t3, .fcospi t3, .ftanh t3, .fdiv ⟨false, un, false, 4, 2, 5, 2⟩] : List Instr), ∃ c, Issues i (lone i) c ∧ c.act ≠ 0 :=
  each_of (by decide +kernel)

/-- The hypothesis `Issues` of each instruction. -/
theorem witness_CrossLanes_issue : ∀ i ∈ ([.ballot ⟨un, 4, 1⟩, .rdx ⟨un, 3, 4, 3⟩, .unplane ⟨un, 6, 4, 3⟩] : List Instr), ∃ c, Issues i (lone i) c ∧ c.act ≠ 0 :=
  each_of (by decide +kernel)
/-- The reads across lanes, of registers without poison. -/
theorem witness_CrossLanes_reads : ∀ i ∈ ([.shfl ⟨un, false, 6, 4, 5⟩, .shflx ⟨un, 6, 4, 1⟩, .shfld ⟨un, 6, 4, 0x7F⟩, .rdlane ⟨un, 3, 4, 31⟩,
    .plane ⟨un, 6, 4, 7⟩] : List Instr), ∃ c, Issues i (lone i) c ∧ c.act ≠ 0 ∧ ∀ n, markedA (lone i) c 4 n = false := by
  intro i hi
  obtain ⟨c, h, hc⟩ := each_of (is := [.shfl ⟨un, false, 6, 4, 5⟩, .shflx ⟨un, 6, 4, 1⟩, .shfld ⟨un, 6, 4, 0x7F⟩, .rdlane ⟨un, 3, 4, 31⟩,
    .plane ⟨un, 6, 4, 7⟩]) (by decide +kernel) i hi
  refine ⟨c, h, hc, fun n => ?_⟩
  have : (lone i).regPoison = [] := by
    unfold lone loadLone State.reset
    split <;> rfl
  simp [markedA, laneMarked, regWordPoison, this]

/-! Control. -/

/-- `sset` without lanes, and in some. -/
theorem witness_ModeAndSpecialRegisters :
    (∀ i ∈ ([.sreg ⟨false, un, 4, 0x20⟩, .fpmodeSet ⟨un, 1, 0⟩, .fpmodeLd ⟨un, 3⟩, .fpmodeUpd ⟨un, 0x0C, 0x0C⟩] : List Instr),
      ∃ c, Issues i (lone i) c ∧ c.act ≠ 0) ∧
    (∃ c, Issues (.sset ⟨false, g0, 4, 0x31⟩) (lone (.sset ⟨false, g0, 4, 0x31⟩)) c ∧ c.formLanes false = []) ∧
    (∃ c, Issues (.sset ⟨false, un, 4, 0x31⟩) (lone (.sset ⟨false, un, 4, 0x31⟩)) c ∧ (c.formLanes false).head? = some 0) ∧
    ∃ c, Issues (.sset ⟨true, un, 4, 0x33⟩) (lone (.sset ⟨true, un, 4, 0x33⟩)) c ∧ (c.formLanes true).head? = some 0 := by
  exact ⟨each_of (by decide +kernel), issuing (by decide +kernel), issuing (by decide +kernel), issuing (by decide +kernel)⟩
/-- The lanes of a slot that are alive. -/
abbrev liveOf (c : Ctx) : LaneMask := c.sl.m &&& c.x.alive

/-- A transfer that no lane takes, one of each kind that every lane takes, and one that some take. -/
theorem witness_Transfers :
    (∃ c target link, Issues (.bra ⟨g0, 4⟩) (lone (.bra ⟨g0, 4⟩)) c ∧ Jump (.bra ⟨g0, 4⟩) (lone (.bra ⟨g0, 4⟩)) c 0 target link) ∧
    (∀ i ∈ ([.bra ⟨un, 4⟩, .gbra ⟨⟨0, true⟩, 0x7FFF9⟩, .call ⟨un, 4⟩, .ret ⟨un⟩, .jmpi ⟨un, 4⟩] : List Instr), ∃ c t target link,
      Issues i (lone i) c ∧ Jump i (lone i) c t target link ∧ t ≠ 0 ∧ liveOf c &&& ~~~t = 0) ∧
    (∃ c t target link, Issues (.bra ⟨g1, 4⟩) (loneW (.bra ⟨g1, 4⟩) someLanes) c ∧
      Jump (.bra ⟨g1, 4⟩) (loneW (.bra ⟨g1, 4⟩) someLanes) c t target link ∧ t ≠ 0 ∧ liveOf c &&& ~~~t ≠ 0 ∧
      (slotOf c.x (other c.r.b)).st = .idle) := by
  refine ⟨?_, ?_, ?_⟩
  · obtain ⟨c, h, hp⟩ := issuing (i := .bra ⟨g0, 4⟩) (s := lone (.bra ⟨g0, 4⟩)) (P := fun c => 0 = c.act &&& liveOf c) (by decide +kernel)
    exact ⟨c, _, _, h, hp, rfl, rfl⟩
  · intro i hi
    simp only [List.mem_cons, List.not_mem_nil, or_false] at hi
    rcases hi with rfl | rfl | rfl | rfl | rfl
    · obtain ⟨c, h, hp⟩ := issuing (i := .bra ⟨un, 4⟩) (s := lone (.bra ⟨un, 4⟩))
        (P := fun c => c.act &&& liveOf c ≠ 0 ∧ liveOf c &&& ~~~(c.act &&& liveOf c) = 0) (by decide +kernel)
      exact ⟨c, _, _, _, h, ⟨rfl, rfl, rfl⟩, hp⟩
    · obtain ⟨c, h, hp⟩ := issuing (i := .gbra ⟨⟨0, true⟩, 0x7FFF9⟩) (s := lone (.gbra ⟨⟨0, true⟩, 0x7FFF9⟩))
        (P := fun c => (if groupGuard c.x ⟨0, true⟩ then liveOf c else 0) ≠ 0 ∧
          liveOf c &&& ~~~(if groupGuard c.x ⟨0, true⟩ then liveOf c else 0) = 0) (by decide +kernel)
      exact ⟨c, _, _, _, h, ⟨rfl, rfl, rfl⟩, hp⟩
    · obtain ⟨c, h, hp⟩ := issuing (i := .call ⟨un, 4⟩) (s := lone (.call ⟨un, 4⟩))
        (P := fun c => (c.act &&& liveOf c ≠ 0 ∧ liveOf c &&& ~~~(c.act &&& liveOf c) = 0) ∧ pairBad c 62 = false) (by decide +kernel)
      exact ⟨c, _, _, _, h, ⟨rfl, rfl, rfl, fun _ => hp.2⟩, hp.1⟩
    · obtain ⟨c, h, hp, hq⟩ := issuing (i := .ret ⟨un⟩) (s := lone (.ret ⟨un⟩))
        (P := fun c => (c.act &&& liveOf c ≠ 0 ∧ liveOf c &&& ~~~(c.act &&& liveOf c) = 0) ∧
          (pairBad c 62 = false ∧ (readGroupPair (lone (.ret ⟨un⟩)) c.x 62).toNat < 2 ^ 56 ∧ (readGroupPair (lone (.ret ⟨un⟩)) c.x 62).toNat % 4 = 0)) (by decide +kernel)
      exact ⟨c, _, _, _, h, ⟨rfl, rfl, rfl, fun _ => hq⟩, hp⟩
    · obtain ⟨c, h, hp, hq⟩ := issuing (i := .jmpi ⟨un, 4⟩) (s := lone (.jmpi ⟨un, 4⟩))
        (P := fun c => (c.act &&& liveOf c ≠ 0 ∧ liveOf c &&& ~~~(c.act &&& liveOf c) = 0) ∧
          (pairBad c 4 = false ∧ (readGroupPair (lone (.jmpi ⟨un, 4⟩)) c.x 4).toNat < 2 ^ 56 ∧ (readGroupPair (lone (.jmpi ⟨un, 4⟩)) c.x 4).toNat % 4 = 0)) (by decide +kernel)
      exact ⟨c, _, _, _, h, ⟨rfl, rfl, rfl, fun _ => hq⟩, hp⟩
  · obtain ⟨c, h, hp⟩ := issuing (i := .bra ⟨g1, 4⟩) (s := loneW (.bra ⟨g1, 4⟩) someLanes)
      (P := fun c => c.act &&& liveOf c ≠ 0 ∧ liveOf c &&& ~~~(c.act &&& liveOf c) ≠ 0 ∧ (slotOf c.x (other c.r.b)).st = .idle) (by decide +kernel)
    exact ⟨c, _, _, _, h, ⟨rfl, rfl, rfl⟩, hp⟩

/-- How a push ends. -/
def pushEnds : Pushed → Nat
  | .ok _ => 0
  | .full => 1
  | .limit => 2
  | .fault _ _ _ => 3
  | .busy _ => 4

/-- The other slot runs too. -/
def bothRun (x : Wave) : Wave := { someLanes x with b := { x.a with m := 0xF0 } }

/-- A data page of home 0, readable and writable, at 0x20000. -/
def dataPage (s : State) : State := { s with tlbs := kvPut s.tlbs 0 (⟨loneTag, 0, 0x20, 3, 0x200867⟩ :: kvGet s.tlbs 0 []) }

/-- A CACHE bank of the cluster, of which one way holds the superblock of 0x20000. -/
def cacheBank (s : State) : State := { putBank s 0 3 { Bank.clear with mode := .cache } with l1ways := [⟨0, 3, loneTag, 0x100⟩] }

/-- A stack with 16 entries and no spill area; with a spill area of eight entries, at an address whose home refuses. -/
def fullStack (x : Wave) : Wave := { bothRun x with depth := 16 }
def spillStack (x : Wave) : Wave := { fullStack x with spillL := 8, spillBase := 0x20000 }

/-- Every home's fault ring is full. -/
def ringsFull (s : State) : State :=
  { s with faults := (List.range 12).map fun h => (h, { FaultBuf.clear with full := true }) }

def braSome : Instr := .bra ⟨g1, 4⟩

/-- The spill area lies in a page that the wave may store to, under an L1 of one bank; at an address that is not canonical. -/
def spillS : State := cacheBank (dataPage (loneW braSome spillStack))
def spillOff : State := loneW braSome fun x => { spillStack x with spillBase := 2 ^ 56 }

/-- A fork with the other slot in use: the push goes on chip, waits for a home, or finds no room. -/
theorem witness_Transfers_push :
    (∃ c, Issues braSome (loneW braSome bothRun) c ∧ (slotOf c.x (other c.r.b)).st ≠ .idle ∧
      pushEnds (pushEntry (loneW braSome bothRun) c.w c.tag ⟨.fork, 0xF, 0, c.sl.j⟩) = 0) ∧
    (∃ c, Issues braSome (ringsFull (loneW braSome spillStack)) c ∧ (slotOf c.x (other c.r.b)).st ≠ .idle ∧
      pushEnds (pushEntry (ringsFull (loneW braSome spillStack)) c.w c.tag ⟨.fork, 0xF, 0, c.sl.j⟩) = 4) ∧
    (∃ c, Issues braSome (loneW braSome fullStack) c ∧ (slotOf c.x (other c.r.b)).st ≠ .idle ∧
      pushEnds (pushEntry (loneW braSome fullStack) c.w c.tag ⟨.fork, 0xF, 0, c.sl.j⟩) = 2) ∧
    ∃ c, Issues braSome spillOff c ∧ (slotOf c.x (other c.r.b)).st ≠ .idle ∧
      pushEnds (pushEntry spillOff c.w c.tag ⟨.fork, 0xF, 0, c.sl.j⟩) = 3 :=
  ⟨issuing (by decide +kernel), issuing (by decide +kernel), issuing (by decide +kernel), issuing (by decide +kernel)⟩

/-- A push that spills a block. -/
theorem witness_ForkStack_spill :
    ∃ x, findWave spillS 0 = some x ∧ x.super = false ∧ x.depth = 16 ∧ (x.spilled + 1) * 8 ≤ x.spillL ∧ memWf spillS.lstore = true ∧
      canonical (x.spillBase + 256 * x.spilled) = true ∧ (x.spillBase + 256 * x.spilled) % 256 = 0 ∧
      shooting spillS loneTag.asid (x.spillBase + 256 * x.spilled) = false ∧
      reach spillS (forkAsker 0 loneTag) .store [x.spillBase + 256 * x.spilled] = .ok spillS ∧ l1Ways spillS 0 ≠ 0 ∧
      homeLost spillS loneTag (128 * lineOf (x.spillBase + 256 * x.spilled)) .store = false :=
  ⟨_, rfl, by decide +kernel⟩

/-- A wave in a handler. -/
def inHandler (v : Saved) (x : Wave) : Wave := { x with super := true, saved := some v }

def savedNone : Saved := { a := Slot.idle, b := Slot.idle, act0 := 0xFF, f := 0xF, s := false, cause := 5, issued := true, pc := 0x1000, progress := none }

/-- Pushes on chip, of a supervisor with room and without, and at the limit. -/
theorem witness_ForkStack_push :
    (∃ x, findWave (lone braSome) 0 = some x ∧ x.super = false ∧ x.depth < 16 ∧ memWf (lone braSome).lstore = true) ∧
    (∃ x, findWave (loneW braSome (inHandler savedNone)) 0 = some x ∧ x.super = true ∧ x.svStack.length < 4) ∧
    (∃ x, findWave (loneW braSome fun x => { inHandler savedNone x with svStack := List.replicate 4 ⟨.fork, 1, 0, Join.clear⟩ }) 0 = some x ∧
      x.super = true ∧ 4 ≤ x.svStack.length) ∧
    ∃ x, findWave (loneW braSome fullStack) 0 = some x ∧ x.super = false ∧ 16 ≤ x.depth ∧ x.spillL < (x.spilled + 1) * 8 :=
  ⟨⟨_, rfl, by decide +kernel⟩, ⟨_, rfl, by decide +kernel⟩, ⟨_, rfl, by decide +kernel⟩, ⟨_, rfl, by decide +kernel⟩⟩

def setjI : Instr := .setj ⟨un, 16⟩

/-- A join pends in slot A. -/
def pends (j : Join) (x : Wave) : Wave := { x with a := { x.a with j } }

/-- `setj` with empty `act`, without a pending join, and with one, the push going on chip or finding no room. -/
theorem witness_ForkStack_setj :
    (∃ c, Issues (.setj ⟨g0, 16⟩) (lone (.setj ⟨g0, 16⟩)) c ∧ c.act = 0) ∧
    (∃ c, Issues setjI (lone setjI) c ∧ c.act ≠ 0 ∧ c.sl.j.jv = false) ∧
    (∃ c, Issues setjI (loneW setjI (pends ⟨0x10010, 0xFF, false, true⟩)) c ∧ c.act ≠ 0 ∧ c.sl.j.jv = true ∧
      pushEnds (pushEntry (loneW setjI (pends ⟨0x10010, 0xFF, false, true⟩)) c.w c.tag ⟨.saved, c.sl.m, 0, c.sl.j⟩) = 0) ∧
    (∃ c, Issues setjI (loneW setjI fun x => fullStack (pends ⟨0x10010, 0xFF, false, true⟩ x)) c ∧ c.act ≠ 0 ∧ c.sl.j.jv = true ∧
      pushEnds (pushEntry (loneW setjI fun x => fullStack (pends ⟨0x10010, 0xFF, false, true⟩ x)) c.w c.tag ⟨.saved, c.sl.m, 0, c.sl.j⟩) = 2) ∧
    ∃ c, Issues setjI (ringsFull (loneW setjI fun x => spillStack (pends ⟨0x10010, 0xFF, false, true⟩ x))) c ∧ c.act ≠ 0 ∧ c.sl.j.jv = true ∧
      pushEnds (pushEntry (ringsFull (loneW setjI fun x => spillStack (pends ⟨0x10010, 0xFF, false, true⟩ x))) c.w c.tag
        ⟨.saved, c.sl.m, 0, c.sl.j⟩) = 4 :=
  ⟨issuing (by decide +kernel), issuing (by decide +kernel), issuing (by decide +kernel), issuing (by decide +kernel), issuing (by decide +kernel)⟩
def joinI : Instr := .join ⟨un⟩

/-- A join with nothing pending at its header. -/
theorem witness_Joins_pass : ∃ c, Issues joinI (lone joinI) c ∧ (c.act = 0 ∨ c.sl.j.jv = false ∨ c.sl.j.h ≠ c.header) := issuing (by decide +kernel)

/-- The pending join at the lone clause's own header: its expected lanes, and whether `setj` saved an outer one. -/
def hereJoin (e : LaneMask) (sv : Bool) (x : Wave) : Wave := pends ⟨BitVec.ofNat 56 loneText, e, sv, true⟩ x

theorem arrives {s : State} {P : Ctx → Prop} [DecidablePred P]
    (h : issuesB joinI s (fun c => decide (((c.act ≠ 0 ∧ c.sl.m ≠ 0) ∧ c.sl.j.jv = true ∧ c.sl.j.h = c.header) ∧ P c)) = true) :
    ∃ c, Arrives ⟨un⟩ s c ∧ P c := by
  obtain ⟨c, h, ⟨h1, h2, h3⟩, h4⟩ := issuing h
  exact ⟨c, ⟨h, h1, h2, h3⟩, h4⟩

/-- The merging that `Merged` speaks of, followed entry by entry. -/
def mergeRun (s : State) (w : Nat) (b : Bool) : Nat → Wave → Option Wave
  | 0, _ => none
  | n + 1, x => match topEntry s w x with
    | none => some x
    | some (none, _) => none
    | some (some e, m) =>
      if m ≠ e.m then none
      else if e.m &&& x.alive = 0 then mergeRun s w b n (popEntry x)
      else if e.kind = .parked ∧ e.j = (slotOf x b).j then mergeRun s w b n (pieceMerged (popEntry x) b (e.m &&& x.alive))
      else some x

theorem merged_of {s : State} {w : Nat} {b : Bool} {n : Nat} : ∀ {x y : Wave}, mergeRun s w b n x = some y → Merged s w b x y := by
  induction n with
  | zero => intro x y h; simp [mergeRun] at h
  | succ n ih =>
    intro x y h
    unfold mergeRun at h
    split at h
    · rename_i ht; cases h; exact .bare x ht
    · simp at h
    · rename_i e m ht
      split at h
      · simp at h
      · rename_i hm
        simp only [ne_eq, Decidable.not_not] at hm
        subst hm
        split at h
        · rename_i hd; exact .dead x y e ht hd (ih h)
        · rename_i hd
          split at h
          · rename_i hp; exact .piece x y e ht hd hp.1 hp.2 (ih h)
          · rename_i hp; cases h; exact .stop x e ht hd hp

/-- An arrival whose pieces merge to a wave of which `P` holds. -/
theorem joining {s : State} {P : Ctx → Wave → Prop} [∀ c y, Decidable (P c y)]
    (h : issuesB joinI s (fun c => decide ((c.act ≠ 0 ∧ c.sl.m ≠ 0) ∧ c.sl.j.jv = true ∧ c.sl.j.h = c.header) &&
      ((findWave (endCounts s c.r) c.w).any fun x => (mergeRun (endCounts s c.r) c.w c.r.b 8 (otherMerged x c.r.b)).any fun y =>
        decide (P c y))) = true) :
    ∃ c x y, Arrives ⟨un⟩ s c ∧ findWave (endCounts s c.r) c.w = some x ∧ Merged (endCounts s c.r) c.w c.r.b (otherMerged x c.r.b) y ∧ P c y := by
  obtain ⟨c, hc, h2⟩ := issues_of h
  simp only [Bool.and_eq_true, decide_eq_true_eq, Option.any_eq_true] at h2
  obtain ⟨h1, x, hx, y, hy, hp⟩ := h2
  exact ⟨c, x, y, ⟨hc, h1.1, h1.2⟩, hx, merged_of hy, hp⟩

/-- A supervisor with a fork entry on its stack, and one with a saved join. -/
def svFork (e : LaneMask) (k : EntryKind) (x : Wave) : Wave :=
  { inHandler savedNone x with svStack := [⟨k, e, BitVec.ofNat 56 loneText, Join.clear⟩] }

/-- A saved entry, or a fork entry, on chip. -/
def chipEntry (k : EntryKind) (m : LaneMask) (s : State) : State :=
  match findWave s 0 with
  | some x => putWave (putWords s 0 (entryAddr x 0) (entryWords ⟨k, m, BitVec.ofNat 56 loneText, Join.clear⟩)) 0 { x with depth := 1 }
  | none => s

def resumeS : State := loneW joinI (hereJoin 0xFFFFFFFF false)
def resumeSaved : State := chipEntry .saved 0xFFFFFFFF (loneW joinI (hereJoin 0xFFFFFFFF true))

/-- Slot A and slot B have half of the lanes each, B waiting at the join of A; some of B's lanes are A's too. -/
def meeting (mb : LaneMask) (x : Wave) : Wave :=
  let y := hereJoin 0xFFFFFFFF false x
  { y with a := { y.a with m := 0xFFFF }, b := { Slot.idle with st := .wait, m := mb, j := y.a.j } }
def resumeMet (mb : LaneMask) : State := loneW joinI (meeting mb)
/-- Pieces merged before have shared a lane; a fork stands on top of the stack. -/
def resumeBroken : State := loneW joinI fun x => let y := hereJoin 0xFFFFFFFF false x; { y with broken := [(false, y.a.j)] }
def resumeFork : State := chipEntry .fork 0xF0 resumeS

/-- Half of the lanes stand parked on the fork stack, under a dead entry. -/
def resumeParked : State :=
  let j : Join := ⟨BitVec.ofNat 56 loneText, 0xFFFFFFFF, false, true⟩
  let s := loneW joinI fun x => let y := hereJoin 0xFFFFFFFF false x; { y with a := { y.a with m := 0xFFFF } }
  match findWave s 0 with
  | some x => putWave (putWords (putWords s 0 (entryAddr x 0) (entryWords ⟨.parked, 0xFFFF0000, BitVec.ofNat 56 loneText, j⟩)) 0
      (entryAddr x 1) (entryWords ⟨.fork, 0, BitVec.ofNat 56 loneText, Join.clear⟩)) 0 { x with depth := 2 }
  | none => s

/-- A join where every lane has come, without and with an outer join; in one slot, in both, disjoint or not, or parked on the stack; with
broken pieces. -/
theorem witness_Joins_resume :
    (∀ s ∈ [resumeS, resumeMet 0xFFFF0000, resumeMet 0xFFFF8000, resumeBroken, resumeFork, resumeParked], ∃ c x y, Arrives ⟨un⟩ s c ∧
      findWave (endCounts s c.r) c.w = some x ∧ Merged (endCounts s c.r) c.w c.r.b (otherMerged x c.r.b) y ∧
        (c.sl.j.e &&& y.alive) &&& ~~~(slotOf y c.r.b).m = 0 ∧ c.sl.j.sv = false) ∧
    ∃ c x y, Arrives ⟨un⟩ resumeSaved c ∧ findWave (endCounts resumeSaved c.r) c.w = some x ∧
      Merged (endCounts resumeSaved c.r) c.w c.r.b (otherMerged x c.r.b) y ∧ (c.sl.j.e &&& y.alive) &&& ~~~(slotOf y c.r.b).m = 0 ∧
      c.sl.j.sv = true ∧ topEntry (endCounts resumeSaved c.r) c.w y = some (some ⟨.saved, c.sl.j.e, c.sl.j.h, Join.clear⟩, c.sl.j.e) := by
  refine ⟨?_, joining (by decide +kernel)⟩
  intro s h
  simp only [List.mem_cons, List.not_mem_nil, or_false] at h
  rcases h with rfl | rfl | rfl | rfl | rfl | rfl <;> exact joining (by decide +kernel)

/-- The lone slot holds the lanes 0 to 15 of the 32 that its join expects. -/
def half (x : Wave) : Wave :=
  let y := hereJoin 0xFFFFFFFF false x
  { y with a := { y.a with m := 0xFFFF } }

def waitS : State := loneW joinI half
def swapSv : State := loneW joinI fun x => svFork 0xFFFF0000 .fork (half x)
def swapS : State := chipEntry .fork 0xFFFF0000 (loneW joinI half)
/-- A saved join on top, with lanes outstanding; a fork on top of what `setj` saved, with none. -/
def waitSaved : State := chipEntry .saved 0xFFFFFFFF (loneW joinI half)
def swapSaved : State := chipEntry .fork 0xF0 (loneW joinI (hereJoin 0xFFFFFFFF true))

/-- A join with lanes outstanding and nothing on its stack, or a saved join; a fork on a supervisor's stack, and one on chip. -/
theorem witness_Joins_wait :
    (∀ e ∈ [(waitS, none, false), (waitSaved, some EntryKind.saved, false), (swapSv, some .fork, true), (swapS, some .fork, false)], ∃ c x y,
      Arrives ⟨un⟩ e.1 c ∧ findWave (endCounts e.1 c.r) c.w = some x ∧ Merged (endCounts e.1 c.r) c.w c.r.b (otherMerged x c.r.b) y ∧
      (c.sl.j.e &&& y.alive) &&& ~~~(slotOf y c.r.b).m ≠ 0 ∧ y.super = e.2.2 ∧
      (topEntry (endCounts e.1 c.r) c.w y).map (fun p => p.1.map (·.kind)) = e.2.1.map some) ∧
    ∃ c x y, Arrives ⟨un⟩ swapSaved c ∧ findWave (endCounts swapSaved c.r) c.w = some x ∧
      Merged (endCounts swapSaved c.r) c.w c.r.b (otherMerged x c.r.b) y ∧ c.sl.j.sv = true ∧ y.super = false ∧
      (topEntry (endCounts swapSaved c.r) c.w y).map (fun p => p.1.map (·.kind)) = some (some .fork) := by
  refine ⟨?_, joining (by decide +kernel)⟩
  intro e h
  simp only [List.mem_cons, List.not_mem_nil, or_false] at h
  rcases h with rfl | rfl | rfl | rfl <;> exact joining (by decide +kernel)

/-! Traps. -/

/-- An unimplemented opcode, an illegal encoding, opcode 0x7F; a full latch, poison with KABORT = 1. -/
theorem witness_IssueTraps :
    (∃ c, ctxOf (.shli ⟨false, un, 6, 4, 32⟩) (lone (.shli ⟨false, un, 6, 4, 32⟩)) = some c ∧ unimplBad (.shli ⟨false, un, 6, 4, 32⟩) = true) ∧
    (∃ c, ctxOf (.addI32 ⟨false, un, false, 56, 4, 5⟩) (lone (.addI32 ⟨false, un, false, 56, 4, 5⟩)) = some c ∧
      unimplBad (.addI32 ⟨false, un, false, 56, 4, 5⟩) = false ∧ dynUnimpl (.addI32 ⟨false, un, false, 56, 4, 5⟩) c.x = false ∧
      illegalBad (.addI32 ⟨false, un, false, 56, 4, 5⟩) = true) ∧
    (∃ c, ctxOf (.opcode7F 0 0) (lone (.opcode7F 0 0)) = some c ∧ isInstruction (.opcode7F 0 0) = true) :=
  ⟨⟨_, rfl, by decide⟩, ⟨_, rfl, by decide +kernel⟩, ⟨_, rfl, by decide⟩⟩

def holdI : Instr := .addI32 ⟨false, un, true, 6, 4, 5⟩

/-- The operand latch of core 0 has no room. -/
def latched (s : State) : State := { s with latches := List.replicate 3 ⟨0, ⟨0, true⟩, 4, [], [], 2⟩ }

/-- v4 of lane 3 is poisoned, and the launch aborts on poison. -/
def poisoned (s : State) : State :=
  { s with regPoison := [lsKey 0 ((4 * 32 + 3) * 4)], launches := s.launches.map fun e => (e.1, { e.2 with rcd := { e.2.rcd with kabort := true } }) }

theorem witness_IssueTraps_waits :
    (∃ c, ctxOf holdI (latched (lone holdI)) = some c ∧ dynUnimpl holdI c.x = false ∧ illegalBad holdI = false ∧ dynIllegal holdI c.x c.t c.la = false ∧
      (holdOf holdI).isSome = true ∧ latchFull (latched (lone holdI)) c.core = true) ∧
    ∃ c, ctxOf holdI (poisoned (lone holdI)) = some c ∧ dynUnimpl holdI c.x = false ∧ dynIllegal holdI c.x c.t c.la = false ∧
      latchFull (poisoned (lone holdI)) c.core = false ∧ eatenLanes (poisoned (lone holdI)) c = 8 ∧ c.la.rcd.kabort = true :=
  ⟨⟨_, rfl, by decide +kernel⟩, ⟨_, rfl, by decide +kernel⟩⟩

/-- v4 of lane 3 is poisoned, and KABORT is 0. -/
def marked (s : State) : State := { s with regPoison := [lsKey 0 ((4 * 32 + 3) * 4)] }

theorem witness_IssueTraps_ends :
    ∃ c, ctxOf (.addI32 l3) (marked (lone (.addI32 l3))) = some c ∧ MemoriesWf (marked (lone (.addI32 l3))) ∧ WaveShaped c.x ∧
      dynUnimpl (.addI32 l3) c.x = false ∧ dynIllegal (.addI32 l3) c.x c.t c.la = false ∧
      eatenLanes (marked (lone (.addI32 l3))) c &&& c.x.alive = 8 ∧ c.la.rcd.kabort = false :=
  ⟨_, rfl, by unfold MemoriesWf; decide +kernel, by unfold WaveShaped; decide +kernel, by decide +kernel⟩

/-- A vector is set for each cause. -/
def vectored (s : State) : State := { s with tvec := (List.range 16).map fun c => (c, 0x40000) }

def pageTrap : TrapInfo :=
  { b := false, cause := 5, issued := true, pc := 0x10004, woff := 1, w0 := 0, w1 := 0, act0 := 0xFF, f := 0xF, acc := 0, spl := false, code := 0, lanes := [] }

theorem witness_TrapEntries :
    (∃ x n la, findWave (vectored (lone joinI)) 0 = some x ∧ launchOfWave (vectored (lone joinI)) 0 = some (n, la) ∧ x.super = false ∧
      x.landings = [] ∧ WaveShaped x ∧ tvecAt (vectored (lone joinI)) pageTrap.cause ≠ 0 ∧
      canonical (tvecAt (vectored (lone joinI)) pageTrap.cause).toNat = true ∧ (tvecAt (vectored (lone joinI)) pageTrap.cause).toNat % 4 = 0) ∧
    (∃ x t la, findWave (lone joinI) 0 = some x ∧ findTeam (lone joinI) x.team = some t ∧ findLaunch (lone joinI) t.launch = some la ∧
      t.fate = .normal ∧ tvecAt (lone joinI) 5 = 0) ∧
    ∃ x t la, findWave (loneW joinI (inHandler savedNone)) 0 = some x ∧ findTeam (loneW joinI (inHandler savedNone)) x.team = some t ∧
      findLaunch (loneW joinI (inHandler savedNone)) t.launch = some la ∧ t.fate = .normal ∧ x.super = true :=
  ⟨⟨_, _, _, rfl, rfl, rfl, rfl, by unfold WaveShaped; decide +kernel, by decide +kernel⟩, ⟨_, _, _, rfl, rfl, rfl, by decide +kernel⟩,
    ⟨_, _, _, rfl, rfl, rfl, by decide +kernel⟩⟩

/-- Group registers set in the lone wave. -/
def withG (l : List (Nat × Word)) (x : Wave) : Wave := { x with g := setAll x.g l }

/-- A wave with four group registers. -/
def fewG (x : Wave) : Wave := { x with gregs := 4, g := x.g.take 4 }

/-- Transfers through a pair that is none of the wave's; `jmpi` to an address that is not canonical, and to one that is misaligned. -/
theorem witness_TargetsAndSoftwareTraps :
    (∀ e ∈ [(Instr.call ⟨un, 4⟩, 62), (.ret ⟨un⟩, 62), (.jmpi ⟨un, 4⟩, 4)], ∃ c, Issues e.1 (loneW e.1 fewG) c ∧ c.act &&& c.sl.m ≠ 0 ∧
      pairBad c e.2 = true) ∧
    (∃ c, Issues (.jmpi ⟨un, 4⟩) (loneW (.jmpi ⟨un, 4⟩) (withG [(5, 0x01000000)])) c ∧ c.act &&& c.sl.m ≠ 0 ∧ pairBad c 4 = false ∧
      2 ^ 56 ≤ (readGroupPair (loneW (.jmpi ⟨un, 4⟩) (withG [(5, 0x01000000)])) c.x 4).toNat) ∧
    (∃ c, Issues (.ret ⟨un⟩) (loneW (.ret ⟨un⟩) (withG [(62, 2)])) c ∧ c.act &&& c.sl.m ≠ 0 ∧ pairBad c 62 = false ∧
      (readGroupPair (loneW (.ret ⟨un⟩) (withG [(62, 2)])) c.x 62).toNat = 2) ∧
    (∃ c, Issues (.trap ⟨un, 5⟩) (lone (.trap ⟨un, 5⟩)) c ∧ c.act ≠ 0) ∧ (∃ c, Issues (.trap ⟨g0, 5⟩) (lone (.trap ⟨g0, 5⟩)) c ∧ c.act = 0) ∧
    (∃ c, Issues (.trapBkpt ⟨un, 0⟩) (lone (.trapBkpt ⟨un, 0⟩)) c ∧ c.act ≠ 0) ∧
    (∃ c, Issues (.trapBkpt ⟨g0, 0⟩) (lone (.trapBkpt ⟨g0, 0⟩)) c ∧ c.act = 0) ∧
    (∃ c, Issues (.sigchk ⟨un, 7⟩) (lone (.sigchk ⟨un, 7⟩)) c ∧ c.la.ker.sig = false) := by
  refine ⟨?_, issuing (by decide +kernel), issuing (by decide +kernel), issuing (by decide +kernel), issuing (by decide +kernel),
    issuing (by decide +kernel), issuing (by decide +kernel), issuing (by decide +kernel)⟩
  intro e h
  simp only [List.mem_cons, List.not_mem_nil, or_false] at h
  rcases h with rfl | rfl | rfl <;> exact issuing (by decide +kernel)

/-- The launch checks signatures. -/
def signed (s : State) : State := { s with launches := s.launches.map fun e => (e.1, { e.2 with ker := { e.2.ker with sig := true } }) }

theorem witness_TargetsAndSoftwareTraps_sigchk :
    (∃ c, Issues (.sigchk ⟨un, 0⟩) (signed (lone (.sigchk ⟨un, 0⟩))) c ∧ (c.la.ker.sig = true ∧ c.x.super = false ∧ c.act ≠ 0) ∧ c.sl.sig = 0) ∧
    ∃ c, Issues (.sigchk ⟨un, 7⟩) (signed (lone (.sigchk ⟨un, 7⟩))) c ∧ (c.la.ker.sig = true ∧ c.x.super = false ∧ c.act ≠ 0) ∧ c.sl.sig ≠ 7 :=
  ⟨issuing (by decide +kernel), issuing (by decide +kernel)⟩

/-- A handler of an instruction that trapped in lanes 0 to 3 of 0 to 7, its frame in g56 to g59. -/
def handling (v : Saved) (x : Wave) : Wave := { inHandler v x with svG := setAll x.svG [(0, 0x1000), (3, 0x00F06105)] }
/-- The same at a word past its header, with every lane faulting or some, an access of the kernel's still waiting, and the progress of what
trapped. -/
def handlingAt (f : LaneMask) (x : Wave) : Wave :=
  let y := handling { savedNone with f, a := { Slot.idle with st := .run, m := 0xFF }, progress := some ⟨false, resendMark, [(4, 0, false)], [0], 0, [], none, none, 0⟩ } x
  { y with svG := setAll y.svG [(2, 0x20)], locals := [⟨false, .load, true, 4, 2, 6, 0, false, 0xF, none, [⟨0, 0x8000, 0, 0⟩], []⟩] }

theorem witness_Erets_within : ∀ f ∈ [(0xF : LaneMask), 0xFF], ∀ i ∈ ([.eret ⟨un⟩, .eretSkip ⟨un⟩] : List Instr), ∃ c, Issues i (loneW i (handlingAt f)) c ∧
    c.act ≠ 0 ∧ c.x.landings = [] ∧ c.x.saved.any (fun v => v.issued && v.cause ≠ 8 && (v.a.st = .run)) = true ∧
    (field (readGroup (loneW i (handlingAt f)) c.x 58) 5 5).toNat = 1 := by
  intro f hf i hi
  simp only [List.mem_cons, List.not_mem_nil, or_false] at hf hi
  rcases hf with rfl | rfl <;> rcases hi with rfl | rfl <;> exact issuing (by decide +kernel)

theorem witness_Erets :
    (∀ i ∈ ([.eret ⟨un⟩, .eretSkip ⟨un⟩] : List Instr), ∃ c, Issues i (loneW i (handling savedNone)) c ∧ c.act ≠ 0 ∧ c.x.landings = [] ∧
      c.x.saved = some savedNone ∧ savedNone.cause ≠ 8 ∧ savedNone.issued = true ∧
      pairOf (readGroup (loneW i (handling savedNone)) c.x 56) (readGroup (loneW i (handling savedNone)) c.x 57) = 0x1000 ∧
      field (readGroup (loneW i (handling savedNone)) c.x 59) 25 7 ≠ (0x6E : BitVec 7)) ∧
    (∃ c, Issues (.eretKill ⟨un⟩) (loneW (.eretKill ⟨un⟩) (handling savedNone)) c ∧ c.act ≠ 0 ∧ c.x.saved = some savedNone ∧
      c.la.rcd.kabort = false ∧ c.x.landings = [] ∧
      pairOf (readGroup (loneW (.eretKill ⟨un⟩) (handling savedNone)) c.x 56) (readGroup (loneW (.eretKill ⟨un⟩) (handling savedNone)) c.x 57) = 0x1000 ∧
      savedNone.f &&& c.x.alive ≠ 0 ∧ c.x.alive &&& ~~~savedNone.f ≠ 0) ∧
    (∃ c, Issues (.eret ⟨un⟩) (loneW (.eret ⟨un⟩) (handling { savedNone with cause := 8 })) c ∧ c.act ≠ 0 ∧
      c.x.saved = some { savedNone with cause := 8 }) ∧
    ∃ c, Issues (.eret ⟨g0⟩) (loneW (.eret ⟨g0⟩) (handling savedNone)) c ∧ c.act = 0 := by
  refine ⟨?_, issuing (by decide +kernel), issuing (by decide +kernel), issuing (by decide +kernel)⟩
  intro i hi
  simp only [List.mem_cons, List.not_mem_nil, or_false] at hi
  rcases hi with rfl | rfl <;> exact issuing (by decide +kernel)

/-- Returns that end the team: to an address that is not canonical, and the faulting lanes killed where the launch aborts on errors. -/
def farHandler (x : Wave) : Wave := let y := handling savedNone x; { y with svG := setAll y.svG [(1, 0x01000000)] }
def abortsOn (s : State) : State := { s with launches := s.launches.map fun e => (e.1, { e.2 with rcd := { e.2.rcd with kabort := true } }) }

theorem witness_Erets_abort :
    (∀ i ∈ ([.eret ⟨un⟩, .eretSkip ⟨un⟩, .eretKill ⟨un⟩] : List Instr), ∃ c, Issues i (loneW i farHandler) c ∧ c.act ≠ 0 ∧
      c.x.saved = some savedNone ∧ savedNone.cause ≠ 8 ∧ c.t.fate = .normal ∧ c.w ∈ c.t.waves ∧
      canonical (pairOf (readGroup (loneW i farHandler) c.x 56) (readGroup (loneW i farHandler) c.x 57)).toNat = false) ∧
    ∃ c, Issues (.eretKill ⟨un⟩) (abortsOn (loneW (.eretKill ⟨un⟩) (handling savedNone))) c ∧ c.act ≠ 0 ∧ c.x.saved = some savedNone ∧
      c.t.fate = .normal ∧ c.w ∈ c.t.waves ∧ c.la.rcd.kabort = true ∧ savedNone.f &&& c.x.alive ≠ 0 := by
  refine ⟨?_, issuing (by decide +kernel)⟩
  intro i hi
  simp only [List.mem_cons, List.not_mem_nil, or_false] at hi
  rcases hi with rfl | rfl | rfl <;> exact issuing (by decide +kernel)

/-- `exit` of some lanes and of all, of none; the waits. -/
theorem witness_WaitsAndExit :
    (∀ i ∈ ([.tkwait ⟨un, 0x82⟩, .nop ⟨un⟩, .yieldN ⟨un, 8⟩] : List Instr), ∃ c, Issues i (lone i) c ∧ c.act ≠ 0) ∧
    (∃ c, Issues (.exit ⟨g0⟩) (lone (.exit ⟨g0⟩)) c ∧ c.act = 0) ∧
    (∃ c, Issues (.exit ⟨g1⟩) (loneW (.exit ⟨g1⟩) someLanes) c ∧ c.x.alive &&& ~~~c.act ≠ 0 ∧ c.act ≠ 0 ∧ c.sl.m &&& (c.x.alive &&& ~~~c.act) ≠ 0) ∧
    ∃ c, Issues (.exit ⟨un⟩) (lone (.exit ⟨un⟩)) c ∧ c.x.alive &&& ~~~c.act = 0 ∧ c.act ≠ 0 :=
  ⟨each_of (by decide +kernel), issuing (by decide +kernel), issuing (by decide +kernel), issuing (by decide +kernel)⟩

/-! Memory accesses. -/

/-- g4 and g5 hold an address; the page is there; the L1, or another node, holds a word of it. -/
def at' (a : Word) (i : Instr) : State := dataPage (loneW i (withG [(4, a)]))
def holding (n : Node) (va : Nat) (c : CWord) (s : State) : State := { s with caches := kvPut s.caches ⟨n, loneTag, va⟩ c }
def clean (v : Word) : CWord := ⟨v, false, false, false, false⟩

/-- An access of the wave's slot A is under way; `ops` are the sources it noted when it issued. -/
def underWay (asked : Nat) (rs : List (Nat × Nat × Bool)) (ops : Option (List AtomLane)) (s : State) : State :=
  onWave s 0 fun x => { x with progress := some ⟨false, asked, rs, [], 0, [], none, ops, 0⟩ }

/-- `ReadAt`, computed. -/
def readsB (c : Ctx) (now ls : List AtomLane) : Bool :=
  match c.x.progress.bind fun p => if p.b = c.r.b then p.ops else none with
  | some l => l = ls
  | none => now = ls

theorem readAt_of {c : Ctx} {now ls : List AtomLane} (h : readsB c now ls = true) : ReadAt c now ls := by
  unfold readsB at h
  split at h
  · rename_i l hl
    obtain ⟨p, hp, ho⟩ := Option.bind_eq_some_iff.mp hl
    split at ho
    · rename_i hb; exact .inl ⟨p, hp, hb, by rw [ho, of_decide_eq_true h]⟩
    · simp at ho
  · rename_i hn
    refine .inr ⟨fun p hp hb => ?_, (of_decide_eq_true h).symm⟩
    simpa [hp, hb] using hn

/-- `Translates` with no change of the state, computed. -/
def translatesB (s : State) (c : Ctx) (acc : Acc) (n : Nat) (as : List (Nat × Nat)) : Bool :=
  decide (as ≠ [] ∧ acquireWaits c = false ∧ (∀ a ∈ as, shooting s c.tag.asid a.2 = false) ∧
    (∀ a ∈ as, canonical a.2 = true ∧ a.2 % n = 0) ∧ reach s (c.asker acc) acc (as.map (·.2)) = .ok s)

theorem translates {s : State} {c : Ctx} {acc : Acc} {n : Nat} {as : List (Nat × Nat)} (h : translatesB s c acc n as = true) :
    Translates s c acc n as s := by
  obtain ⟨h1, h2, h3, h4, h5⟩ := of_decide_eq_true h
  exact ⟨h1, h2, h3, h4, h5⟩

/-- The addresses of the access that the tests make, of their lanes. -/
def lanesAt (s : State) (off : BitVec 16) (c : Ctx) : List (Nat × Nat) := (c.formLanes true).map fun l => (l, globalAddr s c true 4 off l)

theorem translating {i : Instr} {s : State} {acc : Acc} {n : Nat} {as : Ctx → List (Nat × Nat)} {P : Ctx → Prop} [DecidablePred P]
    (h : issuesB i s (fun c => decide (translatesB s c acc n (as c) = true ∧ P c)) = true) :
    ∃ c, Issues i s c ∧ Translates s c acc n (as c) s ∧ P c :=
  (issuing h).imp fun _ h => ⟨h.1, translates h.2.1, h.2.2⟩

/-- `CachesGive`, of the units that the words asked for lie in. -/
def givesB (s : State) (q : Asker) (cnt : Nat) (as : List (Nat × Nat)) (w : Nat → Word) : Bool :=
  ((wantedWords cnt as).map fun k => k.2 / loadUnit cnt).all fun g =>
    cachedWords s q (((wantedWords cnt as).filter fun k => k.2 / loadUnit cnt = g).map (·.2)) =
      some (((wantedWords cnt as).filter fun k => k.2 / loadUnit cnt = g).map fun k => (w k.2, false))

theorem cachesGive {s : State} {q : Asker} {cnt : Nat} {as : List (Nat × Nat)} {w : Nat → Word} (h : givesB s q cnt as w = true) :
    CachesGive s q cnt as w := by
  intro g here hne
  obtain ⟨k, hk⟩ := List.exists_mem_of_ne_nil _ hne
  simp only [here, List.mem_filter, decide_eq_true_eq] at hk
  exact of_decide_eq_true (List.all_eq_true.mp h g (List.mem_map.mpr ⟨k, hk.1, hk.2⟩))

def ldI (cl : BitVec 3) : LdOps := ⟨true, un, false, 6, 4, 2, 4, 2, cl, 0⟩
def ldS (cl : BitVec 3) : State := holding (.l1 0) 0x20000 (clean 7) (at' 0x20000 (.ld (ldI cl)))
/-- The word in the core's L0 too: an acquire at scope 2 leaves it in the L1 stale only where it is not owned. -/
def ldOwned : State := holding (.l1 0) 0x20000 ⟨7, false, false, true, false⟩ (at' 0x20000 (.ld (ldI 1)))

/-- A pair in the L1 of which the L0 has the low word alone, so that the unit comes from the L1. -/
def ldPairI : LdOps := ⟨true, un, false, 6, 4, 2, 5, 2, 0, 0⟩
def ldPairS : State :=
  holding (.l0 0) 0x20000 (clean 9) (holding (.l1 0) 0x20004 (clean 8) (holding (.l1 0) 0x20000 (clean 7) (at' 0x20000 (.ld ldPairI))))

/-- Nothing noted: a load reads its addresses now. -/
abbrev fresh (s : State) (off : BitVec 16) (c : Ctx) : Prop := AddrAt c true (globalAddr s c true 4 off) (globalAddr s c true 4 off)

theorem fresh_of {s : State} {off : BitVec 16} {c : Ctx} (h : (progressOf c).isNone = true) : fresh s off c := by
  refine .inr ⟨fun p hp hb => ?_, rfl⟩
  simp [progressOf, hp, hb] at h

/-- A load that the caches serve, one that acquires, and one of a pair. -/
theorem witness_GlobalLoads_cached :
    (∃ c, Issues (.ld (ldI 0)) (ldS 0) c ∧ Translates (ldS 0) c .load 4 (lanesAt (ldS 0) 0 c) (ldS 0) ∧ fresh (ldS 0) 0 c ∧ resultsOf c = [] ∧
      CachesGive (ldS 0) (c.asker .load) 1 (lanesAt (ldS 0) 0 c) fun _ => 7) ∧
    (∃ c, Issues (.ld (ldI 1)) ldOwned c ∧ Translates ldOwned c .load 4 (lanesAt ldOwned 0 c) ldOwned ∧ fresh ldOwned 0 c ∧ resultsOf c = [] ∧
      (progressOf c).isNone = true ∧ CachesGive (selfInvalidate ldOwned c.cl 2) (c.asker .load) 1 (lanesAt ldOwned 0 c) fun _ => 7) ∧
    ∃ c, Issues (.ld ldPairI) ldPairS c ∧ Translates ldPairS c .load 8 (lanesAt ldPairS 0 c) ldPairS ∧ fresh ldPairS 0 c ∧ resultsOf c = [] ∧
      CachesGive ldPairS (c.asker .load) 2 (lanesAt ldPairS 0 c) fun va => BitVec.ofNat 32 (7 + va / 4 % 2) := by
  refine ⟨?_, ?_, ?_⟩
  · obtain ⟨c, h, ht, hn, hr, hg⟩ := translating (i := .ld (ldI 0)) (s := ldS 0) (acc := .load) (n := 4) (as := lanesAt (ldS 0) 0)
      (P := fun c => (progressOf c).isNone = true ∧ resultsOf c = [] ∧
        givesB (ldS 0) (c.asker .load) 1 (lanesAt (ldS 0) 0 c) (fun _ => 7) = true) (by decide +kernel)
    exact ⟨c, h, ht, fresh_of hn, hr, cachesGive hg⟩
  · obtain ⟨c, h, ht, hn, hr, hg⟩ := translating (i := .ld (ldI 1)) (s := ldOwned) (acc := .load) (n := 4) (as := lanesAt ldOwned 0)
      (P := fun c => (progressOf c).isNone = true ∧ resultsOf c = [] ∧
        givesB (selfInvalidate ldOwned c.cl 2) (c.asker .load) 1 (lanesAt ldOwned 0 c) (fun _ => 7) = true) (by decide +kernel)
    exact ⟨c, h, ht, fresh_of hn, hr, hn, cachesGive hg⟩
  · obtain ⟨c, h, ht, hn, hr, hg⟩ := translating (i := .ld ldPairI) (s := ldPairS) (acc := .load) (n := 8) (as := lanesAt ldPairS 0)
      (P := fun c => (progressOf c).isNone = true ∧ resultsOf c = [] ∧
        givesB ldPairS (c.asker .load) 2 (lanesAt ldPairS 0 c) (fun va => BitVec.ofNat 32 (7 + va / 4 % 2)) = true) (by decide +kernel)
    exact ⟨c, h, ht, fresh_of hn, hr, cachesGive hg⟩

def stI (cl : BitVec 3) : StOps := ⟨true, un, 4, 8, 2, 0, cl, 0⟩
def atomI (cl : BitVec 3) (sub : BitVec 4) : AtomOps := ⟨true, un, false, 6, 4, 8, 2, sub, 1, cl, 0⟩
def atomFar : AtomOps := ⟨true, un, false, 6, 4, 8, 2, 0, 3, 3, 0⟩

def ldSite : State := underWay sentMark [(0, 5, false)] none (at' 0x20000 (.ld (ldI 4)))
/-- A store that noted another address than its registers hold by now. -/
def stSite : State := underWay sentMark [(0, 0, false)] (some [⟨0, 0x20004, 9, 0⟩]) (at' 0x20000 (.st (stI 4)))
def atomSite (f : AtomOps) : State := underWay sentMark [(0, 5, false)] none (at' 0x20000 (.atom f))

/-- The sources of the atomic that the tests make. -/
def atomLanes (s : State) (f : AtomOps) (c : Ctx) : List AtomLane :=
  atomOperands s c f.u f.d f.b f.sub.toNat ((c.formLanes f.u).map fun l => (l, globalAddr s c f.u f.a f.off l))

/-- The results of volatile accesses, and of an atomic at the stack that acquires, have come back. -/
theorem witness_GlobalLoads_site :
    (∃ c, Issues (.ld (ldI 4)) ldSite c ∧ c.formLanes true ≠ [] ∧ asked c = true ∧ acquireWaits c = false ∧
      readsB c ((c.formLanes true).map fun l => ⟨l, globalAddr ldSite c true 4 0 l, 0, 0⟩)
        ((c.formLanes true).map fun l => ⟨l, globalAddr ldSite c true 4 0 l, 0, 0⟩) = true ∧
      resultsOf c = (c.formLanes true).flatMap fun l => (List.range 1).map fun j => (4 * l + j, 5, false)) ∧
    (∃ c, Issues (.st (stI 4)) stSite c ∧ asked c = true ∧ acquireWaits c = false ∧
      readsB c (storeOperands stSite c (stI 4)) [⟨0, 0x20004, 9, 0⟩] = true ∧
      ∀ i < (storeWords 2 [⟨0, 0x20004, 9, 0⟩]).length, ∃ r ∈ resultsOf c, r.1 = i) ∧
    (∀ f ∈ [atomI 4 0, atomFar], ∃ c, Issues (.atom f) (atomSite f) c ∧ c.formLanes true ≠ [] ∧ asked c = true ∧ acquireWaits c = false ∧
      readsB c (atomLanes (atomSite f) f c) (atomLanes (atomSite f) f c) = true ∧
      (atomLanes (atomSite f) f c).map (·.lane) = c.formLanes true ∧ resultsOf c = (c.formLanes true).map fun l => (l, 5, false)) := by
  refine ⟨issuing (by decide +kernel), issuing (by decide +kernel), ?_⟩
  intro f h
  simp only [List.mem_cons, List.not_mem_nil, or_false] at h
  rcases h with rfl | rfl <;> exact issuing (by decide +kernel)

def stS (cl : BitVec 3) : State := cacheBank (holding (.l1 0) 0x20000 (clean 7) (at' 0x20000 (.st (stI cl))))
/-- A byte store, to a word that the cluster owns, and to one that it does not own. -/
def stByte : StOps := ⟨true, un, 4, 8, 0, 1, 2, 1⟩
def stByteS : State := cacheBank (holding (.l1 0) 0x20000 { clean 7 with owned := true } (at' 0x20000 (.st stByte)))
def stOpen : State := cacheBank (holding (.l1 0) 0x20000 (clean 7) (at' 0x20000 (.st stByte)))
/-- The byte store has its word by now, and noted what it stores. -/
def stWaited : State := underWay partMark [] (some [⟨0, 0x20001, 9, 0⟩]) stByteS

theorem storing {f : StOps} {s : State} {ls : Ctx → List AtomLane} {P : Ctx → Prop} [DecidablePred P]
    (h : issuesB (.st f) s (fun c => decide (((f.cl ≠ 4 ∧ asked c = false) ∧ readsB c (storeOperands s c f) (ls c) = true ∧
      (phaseOf c ≠ partMark → resultsOf c = []) ∧
      translatesB s c .store (storeBytes f.sub.toNat) (if phaseOf c = partMark then (laneAddrs (ls c)).filter fun a =>
        (partsLeft c f.sub.toNat (ls c)).any fun p => a.2 / 4 * 4 ≤ p.1 ∧ p.1 < a.2 + storeBytes f.sub.toNat else laneAddrs (ls c)) = true ∧
      (if phaseOf c ≠ partMark ∧ f.cl = 2 then releaseBefore s c f.sc.toNat else (none, s)) = (none, s)) ∧ P c)) = true) :
    ∃ c, StoreReady f s c (ls c) s ∧ P c := by
  obtain ⟨c, h, ⟨h1, h2, h3, h4, h5⟩, h6⟩ := issuing h
  exact ⟨c, ⟨h, h1, readAt_of h2, h3, s, translates h4, h5⟩, h6⟩

/-- A store of a word that is claimed, in a superblock that stands in a way, and of a byte with a release of a clean path, at once or
after having waited for its word. -/
theorem witness_StoreResults :
    (∃ c, StoreReady (stI 0) (stS 0) c (storeOperands (stS 0) c (stI 0)) (stS 0) ∧
      (∀ p ∈ partsLeft c 2 (storeOperands (stS 0) c (stI 0)),
        mergeable (stS 0) (c.asker .store) p = true ∧ lineOf p.1 = 0x400 ∧ homeLost (stS 0) c.tag 0x20000 .store = false ∧
        p.1 / 512 = 0x100 ∧ (cwAt (stS 0) (.l1 c.cl) c.tag 0x20000).isSome = true) ∧
      l1Ways (stS 0) c.cl ≠ 0 ∧ (stS 0).l1ways = [⟨c.cl, 3, c.tag, 0x100⟩] ∧ (l0Lines (stS 0) c.core 0).length = 0) ∧
    (∃ c, StoreReady stByte stByteS c (storeOperands stByteS c stByte) stByteS ∧
      ∀ p ∈ partsLeft c 0 (storeOperands stByteS c stByte), mergeable stByteS (c.asker .store) p = true) ∧
    ∃ c, StoreReady stByte stWaited c [⟨0, 0x20001, 9, 0⟩] stWaited ∧
      ∀ p ∈ partsLeft c 0 [⟨0, 0x20001, 9, 0⟩], mergeable stWaited (c.asker .store) p = true :=
  ⟨storing (by decide +kernel), storing (by decide +kernel), storing (ls := fun _ => _) (by decide +kernel)⟩

/-- The byte store to a word that is not owned, which nothing has claimed. -/
theorem witness_StoreResults_claim :
    ∃ c, StoreReady stByte stOpen c (storeOperands stOpen c stByte) stOpen ∧ ∃ p ∈ partsLeft c 0 (storeOperands stOpen c stByte),
      mergeable stOpen (c.asker .store) p = false ∧ flushOut stOpen (.l1 c.cl) c.tag (lineOf p.1) = false :=
  storing (by decide +kernel)

/-- The whole line of 0x20000 in the L1, claimed whole. -/
def wholeL1 (s : State) : State :=
  { s with caches := (List.range 32).map (fun i => (⟨.l1 0, loneTag, 0x20000 + 4 * i⟩, { clean 7 with owned := true })) }
def atomS (f : AtomOps) : State :=
  { cacheBank (wholeL1 (at' 0x20000 (.atom f))) with dirs := [(⟨.die 0, loneTag, 0x400, .l1 0⟩, ⟨.m, wholeLine, 0⟩)] }
def atomWide : AtomOps := ⟨true, un, false, 6, 4, 8, 2, 11, 1, 0, 0⟩
def atomOpen : State := holding (.l1 0) 0x20000 ⟨7, false, false, true, false⟩ (at' 0x20000 (.atom (atomI 0 0)))

/-- Atomics at the L1 site: an addition, a compare-and-swap with release and acquire, and an addition to a pair; one whose line is not
whole. -/
theorem witness_Atomics :
    (∃ o, cwAt (atomS (atomI 0 0)) (.l1 0) loneTag 0x20000 = some o ∧ o.poison = false ∧ o.stale = false) ∧
    (∃ p pte s', translate (dataPage (lone (.atom (atomI 0 0)))) loneTag 0x20000 .load true = (.ok p pte, s')) ∧
    (∀ f ∈ [atomI 0 0, atomI 3 10, atomWide], ∃ c, Issues (.atom f) (atomS f) c ∧
      Translates (atomS f) c .atomic (4 * atomRegs f.sub) (laneAddrs (atomLanes (atomS f) f c)) (atomS f) ∧
      readsB c (atomLanes (atomS f) f c) (atomLanes (atomS f) f c) = true ∧ asked c = false ∧ resultsOf c = [] ∧
      releaseBefore (atomS f) c 1 = (none, atomS f) ∧
      (∀ l ∈ atomLanes (atomS f) f c, homeLost (atomS f) c.tag l.va .atomic = false ∧
        siteReady (atomS f) (.l1 c.cl) c.tag (lineOf l.va) = true) ∧
      (∀ r ∈ (atomsAtL1 (atomS f) c.cl c.tag c.w f.sub.toNat (atomLanes (atomS f) f c)).1, r.2.2 = false) ∧
      (atomLanes (atomS f) f c).map (·.va) = [0x20000] ∧ l1Ways (atomS f) c.cl ≠ 0 ∧
      (cwAt (atomS f) (.l1 c.cl) c.tag 0x20000).all (fun o => !o.poison) = true ∧
      (cwAt (atomS f) (.l1 c.cl) c.tag 0x20004).all (fun o => !o.poison) = true) ∧
    ∃ c, Issues (.atom (atomI 0 0)) (atomOpen) c ∧ Translates atomOpen c .atomic 4 (lanesAt atomOpen 0 c) atomOpen ∧
      c.x.progress = none ∧ c.formLanes true = [0] ∧ homeLost atomOpen c.tag 0x20000 .atomic = false ∧
      siteReady atomOpen (.l1 c.cl) c.tag 0x400 = false ∧ flushOut atomOpen (.l1 c.cl) c.tag 0x400 = false := by
  refine ⟨⟨_, rfl, by decide⟩, ⟨_, _, _, rfl⟩, ?_, translating (by decide +kernel)⟩
  intro f h
  simp only [List.mem_cons, List.not_mem_nil, or_false] at h
  rcases h with rfl | rfl | rfl <;> exact translating (by decide +kernel)

/-! The local store. -/

/-- Bank 1 scratch of the team, its first granule full or not, and bank 2 a FIFO with `n` granules. -/
def scratch (full : List Nat) (n : Nat) (s : State) : State :=
  putBank (putBank s 0 1 { Bank.clear with mode := .scr, owner := some 0, full }) 0 2
    { Bank.clear with mode := .fifo, owner := some 0, full := List.range n, count := n }

def locally (a : Word) (full : List Nat) (n : Nat) (i : Instr) : State := scratch full n (loneW i (withG [(4, a)]))

theorem readying {i : Instr} {s : State} {u : Bool} {k : LocalKind} {fe n : Nat} {a : BitVec 6} {off : BitVec 16} {P : Ctx → Prop} [DecidablePred P]
    (h : issuesB i s (fun c => decide ((c.formLanes u ≠ [] ∧ s.modeReqs = [] ∧ c.x.locals = [] ∧ ∀ l ∈ c.formLanes u,
      localAddr s c u a off l < 0x180000 ∧ localAddr s c u a off l % n = 0 ∧ placeCode s c k fe (localAddr s c u a off l) n = none ∧
      (bankAt s c.cl (bankOf (localAddr s c u a off l))).copying = false) ∧ P c)) = true) :
    ∃ c, Issues i s c ∧ LocalReady s c u k fe n (localAddr s c u a off) ∧ P c := by
  obtain ⟨c, h, ⟨h1, h2, h3, h4⟩, h5⟩ := issuing h
  exact ⟨c, h, ⟨h1, h2, h3, h4⟩, h5⟩

def ldlI (cl : BitVec 3) (fe : BitVec 2) : LdlOps := ⟨true, un, false, 6, 4, 2, 4, 1, cl, fe, 0⟩
def stlI (fe : BitVec 2) : StlOps := ⟨true, un, 4, 8, 2, 0, 0, fe, 0⟩

/-- Loads of scratch words and of the wave's own window; stores by every lane to one granule of each. -/
theorem witness_LocalAccesses :
    (∀ a ∈ [0x8000, 0], ∀ cl ∈ [0, 1], ∃ c, Issues (.ldl (ldlI cl 0)) (locally a [] 0 (.ldl (ldlI cl 0))) c ∧
      LocalReady (locally a [] 0 (.ldl (ldlI cl 0))) c true .load 0 4 (localAddr (locally a [] 0 (.ldl (ldlI cl 0))) c true 4 0) ∧
      ∀ l ∈ c.formLanes true, (bankAt (locally a [] 0 (.ldl (ldlI cl 0))) c.cl (bankOf a.toNat)).mode ≠ .fifo ∧
        localPoison (locally a [] 0 (.ldl (ldlI cl 0))) c.cl (localAddr (locally a [] 0 (.ldl (ldlI cl 0))) c true 4 0 l) 4 = false) ∧
    ∃ c, Issues (.stl ⟨false, un, 4, 8, 2, 0, 0, 0, 0⟩) (lone (.stl ⟨false, un, 4, 8, 2, 0, 0, 0, 0⟩)) c ∧
      LocalReady (lone (.stl ⟨false, un, 4, 8, 2, 0, 0, 0, 0⟩)) c false .store 0 4 (localAddr (lone (.stl ⟨false, un, 4, 8, 2, 0, 0, 0, 0⟩)) c false 4 0) ∧
      ∀ l ∈ c.formLanes false, (bankAt (lone (.stl ⟨false, un, 4, 8, 2, 0, 0, 0, 0⟩)) c.cl 0).mode ≠ .fifo := by
  refine ⟨?_, readying (by decide +kernel)⟩
  intro a ha cl hcl
  simp only [List.mem_cons, List.not_mem_nil, or_false] at ha hcl
  rcases ha with rfl | rfl <;> rcases hcl with rfl | rfl <;> exact readying (by decide +kernel)

def atomlI : AtomlOps := ⟨g1, false, 6, 4, 8, 2, 0, 0, 0, 0x4000⟩
/-- Predicate 1 in lane 0; v4 of lane 0 is 0x4000. -/
def atomlS : State :=
  putLocalWord (scratch [] 0 (loneW (.atoml atomlI) fun x => { x with k := x.k.set 1 1 })) 0 (4 * 32 * 4) 0x4000

def feI : LsctlOps := ⟨g1, 4, 0, 0x4000⟩
def feS (i : Instr) : State := putLocalWord (scratch [] 0 (loneW i fun x => { x with k := x.k.set 1 1 })) 0 (4 * 32 * 4) 0x4000

theorem witness_FullBits_atoml :
    (∃ c, Issues (.atoml atomlI) atomlS c ∧ LocalReady atomlS c false .atomic 0 4 (localAddr atomlS c false 4 0x4000) ∧ c.lanes = [0] ∧
      granPoison atomlS c.cl 0x8000 = false) ∧
    (∃ c, Issues (.lsctlFeSet feI) (feS (.lsctlFeSet feI)) c ∧
      LocalReady (feS (.lsctlFeSet feI)) c false .feSet 0 1 (localAddr (feS (.lsctlFeSet feI)) c false 4 0x4000) ∧ c.lanes = [0]) ∧
    ∃ c, Issues (.lsctlFeClr feI) (feS (.lsctlFeClr feI)) c ∧
      LocalReady (feS (.lsctlFeClr feI)) c false .feClr 0 1 (localAddr (feS (.lsctlFeClr feI)) c false 4 0x4000) ∧ c.lanes = [0] :=
  ⟨readying (by decide +kernel), readying (by decide +kernel), readying (by decide +kernel)⟩

/-- The states of a granule and of a FIFO that a load with an FE qualifier, and a store, can meet. -/
theorem witness_FullBits_loads :
    (∀ e ∈ [((0x8000 : Word), ([] : List Nat), 0, (1 : BitVec 2)), (0x8000, [], 0, 2), (0x8000, [0], 0, 1), (0x8000, [0], 0, 2), (0x10000, [], 0, 0),
        (0x10000, [], 1, 0), (0x10000, [], 2048, 0)],
      ∃ c, Issues (.ldl (ldlI 0 e.2.2.2)) (locally e.1 e.2.1 e.2.2.1 (.ldl (ldlI 0 e.2.2.2))) c ∧
        LocalReady (locally e.1 e.2.1 e.2.2.1 (.ldl (ldlI 0 e.2.2.2))) c true .load e.2.2.2.toNat 4
          (localAddr (locally e.1 e.2.1 e.2.2.1 (.ldl (ldlI 0 e.2.2.2))) c true 4 0) ∧ c.act ≠ 0 ∧
        localAddr (locally e.1 e.2.1 e.2.2.1 (.ldl (ldlI 0 e.2.2.2))) c true 4 0 0 = e.1.toNat ∧
        localPoison (locally e.1 e.2.1 e.2.2.1 (.ldl (ldlI 0 e.2.2.2))) c.cl e.1.toNat 4 = false ∧
        ((e.1 = 0x8000 ∧ (bankAt (locally e.1 e.2.1 e.2.2.1 (.ldl (ldlI 0 e.2.2.2))) c.cl 1).mode = .scr ∧
            granFull (locally e.1 e.2.1 e.2.2.1 (.ldl (ldlI 0 e.2.2.2))) c.cl 0x8000 = !e.2.1.isEmpty) ∨
          (e.1 = 0x10000 ∧ (bankAt (locally e.1 e.2.1 e.2.2.1 (.ldl (ldlI 0 e.2.2.2))) c.cl 2).mode = .fifo ∧
            (bankAt (locally e.1 e.2.1 e.2.2.1 (.ldl (ldlI 0 e.2.2.2))) c.cl 2).count = e.2.2.1))) ∧
    ∀ e ∈ [((0x8000 : Word), ([0] : List Nat), 0, (1 : BitVec 2)), (0x8000, [], 0, 2), (0x10000, [], 2047, 0)],
      ∃ c, Issues (.stl (stlI e.2.2.2)) (locally e.1 e.2.1 e.2.2.1 (.stl (stlI e.2.2.2))) c ∧
        LocalReady (locally e.1 e.2.1 e.2.2.1 (.stl (stlI e.2.2.2))) c true .store e.2.2.2.toNat 4
          (localAddr (locally e.1 e.2.1 e.2.2.1 (.stl (stlI e.2.2.2))) c true 4 0) ∧ c.act ≠ 0 := by
  constructor
  · intro e he
    simp only [List.mem_cons, List.not_mem_nil, or_false] at he
    rcases he with rfl | rfl | rfl | rfl | rfl | rfl | rfl <;> exact readying (by decide +kernel)
  · intro e he
    simp only [List.mem_cons, List.not_mem_nil, or_false] at he
    rcases he with rfl | rfl | rfl <;> exact readying (by decide +kernel)

/-- Addresses that trap: the lowest one that is not canonical and a misaligned one; the lowest one beyond the local store, a misaligned
one, and a bank that is not the team's. -/
theorem witness_AddressTraps :
    (∀ hi ∈ [(0x00F00000 : Word), 0x01000000], ∃ c, Issues (.ld (ldI 0)) (loneW (.ld (ldI 0)) (withG [(5, hi)])) c ∧
      (c.x.progress = none ∧ acquireWaits c = false ∧ ∃ l ∈ c.formLanes true, canonical (globalAddr (loneW (.ld (ldI 0)) (withG [(5, hi)])) c true 4 0 l) = false)) ∧
    (∃ c, Issues (.st (stI 0)) (at' 0x20002 (.st (stI 0))) c ∧ c.x.progress = none ∧ acquireWaits c = false ∧
      ∀ l ∈ c.formLanes true, canonical (globalAddr (at' 0x20002 (.st (stI 0))) c true 4 0 l) = true ∧
        globalAddr (at' 0x20002 (.st (stI 0))) c true 4 0 l % 4 ≠ 0) ∧
    (∃ c, Issues (.ldl (ldlI 0 0)) (locally 0x180000 [] 0 (.ldl (ldlI 0 0))) c ∧ c.x.progress = none ∧
      ∀ l ∈ c.formLanes true, localAddr (locally 0x180000 [] 0 (.ldl (ldlI 0 0))) c true 4 0 l = 0x180000) ∧
    (∃ c, Issues (.ldl (ldlI 0 0)) (locally 0x17FFFE [] 0 (.ldl (ldlI 0 0))) c ∧
      ∀ l ∈ c.formLanes true, localAddr (locally 0x17FFFE [] 0 (.ldl (ldlI 0 0))) c true 4 0 l = 0x17FFFE) ∧
    (∀ e ∈ [((0x17FFFC : Word), (0 : BitVec 2), 2), (0, 1, 3), (0x10010, 0, 4)],
      ∃ c, Issues (.ldl (ldlI 0 e.2.1)) (locally e.1 [] 0 (.ldl (ldlI 0 e.2.1))) c ∧ ∀ l ∈ c.formLanes true,
        placeCode (locally e.1 [] 0 (.ldl (ldlI 0 e.2.1))) c .load e.2.1.toNat (localAddr (locally e.1 [] 0 (.ldl (ldlI 0 e.2.1))) c true 4 0 l) 4 =
          some e.2.2) := by
  refine ⟨?_, issuing (by decide +kernel), issuing (by decide +kernel), issuing (by decide +kernel), ?_⟩
  · intro hi h
    simp only [List.mem_cons, List.not_mem_nil, or_false] at h
    rcases h with rfl | rfl <;> exact issuing (by decide +kernel)
  · intro e h
    simp only [List.mem_cons, List.not_mem_nil, or_false] at h
    rcases h with rfl | rfl | rfl <;> exact issuing (by decide +kernel)

/-! Fences and cache control. -/

/-- A dirty word in the L1, which a release would push. -/
def dirtyL1 (s : State) : State := holding (.l1 0) 0x20000 ⟨7, false, true, true, false⟩ s

def fenceI (g : Guard) (sc cl : BitVec 3) : Instr := .fence ⟨g, sc, cl⟩
def xfenceI (g : Guard) : Instr := .xfence ⟨g, 4, 0xF, 3⟩

/-- `PathClean`, computed. -/
def cleanB (s : State) (c : Ctx) (sc : Nat) : Bool :=
  decide (c.x.locals = [] ∧ (sc = 6 → outboundPending s c = false) ∧ (sc < 2 → nodeBusy s (.l1 c.cl) = false) ∧
    ∀ n ∈ pathBelow none c.cl sc, dirtyLines s n = [] ∧ pushBusy s n = false)
theorem cleanPath {s : State} {c : Ctx} {sc : Nat} (h : cleanB s c sc = true) : PathClean s c sc := by
  unfold cleanB at h
  have := of_decide_eq_true h
  exact this

/-- Fences of no lane, of a clean path at the widest scope and at the narrowest, and an acquire where something is dirty; `lsctl.wb`. -/
theorem witness_Fences :
    (∃ c, Issues (fenceI g0 3 3) (lone (fenceI g0 3 3)) c ∧ c.act = 0) ∧
    (∀ sc ∈ [(6 : BitVec 3), 0], ∃ c, Issues (fenceI un sc 3) (lone (fenceI un sc 3)) c ∧ c.act ≠ 0 ∧ c.x.progress = none ∧
      cleanB (lone (fenceI un sc 3)) c sc.toNat = true) ∧
    (∃ c, Issues (fenceI un 2 1) (dirtyL1 (lone (fenceI un 2 1))) c ∧ c.act ≠ 0 ∧ c.x.progress = none ∧ c.x.locals = [] ∧
      dirtyLines (dirtyL1 (lone (fenceI un 2 1))) (.l1 0) ≠ []) ∧
    (∃ c, Issues (xfenceI g0) (lone (xfenceI g0)) c ∧ c.act = 0) ∧
    (∃ c, Issues (xfenceI un) (lone (xfenceI un)) c ∧ c.act ≠ 0 ∧ c.x.progress = none ∧ pathPending (lone (xfenceI un)) c 0xF = false ∧
      cleanB (lone (xfenceI un)) c 4 = true) ∧
    ∃ c, Issues (.lsctlWb ⟨un, 4, 0, 0⟩) (lone (.lsctlWb ⟨un, 4, 0, 0⟩)) c ∧ c.x.progress = none ∧ cleanB (lone (.lsctlWb ⟨un, 4, 0, 0⟩)) c 6 = true ∧
      ∀ l ∈ c.lanes, globalAddr (lone (.lsctlWb ⟨un, 4, 0, 0⟩)) c false 4 0 l = 0 := by
  refine ⟨issuing (by decide +kernel), ?_, issuing (by decide +kernel), issuing (by decide +kernel), issuing (by decide +kernel), issuing (by decide +kernel)⟩
  intro sc h
  simp only [List.mem_cons, List.not_mem_nil, or_false] at h
  rcases h with rfl | rfl <;> exact issuing (by decide +kernel)

/-- An acquire has something to drop and something to keep. -/
theorem witness_Fences_acquire : (2 : Nat) ≠ 0 ∧ (∃ e ∈ (ldS 0).caches, e.1.node ∈ pathBelow none 0 2 ∧ e.2.owned = false ∧ e.2.dirty = false) ∧
    ∃ e ∈ (dirtyL1 State.reset).caches, e.1.node ∈ pathBelow none 0 2 ∧ e.2.dirty = true :=
  ⟨by decide, by decide +kernel, by decide +kernel⟩

def modeI (m : BitVec 6) : Instr := .lsctlMode ⟨g1, 4, m, 0x4000⟩
/-- Lane 0 alone, v4 of it 0x4000, a register pair of it 0x0002_0000 less 0x4000; bank 1 scratch of the team. -/
def laneS (v : Word) (i : Instr) : State :=
  dataPage (putLocalWord (scratch [] 0 (loneW i fun x => { x with k := x.k.set 1 1 })) 0 (4 * 32 * 4) v)

/-- `lsctl.mode` by no lane, into the mode the bank has, into another, into one that user mode may not ask for, and beyond the local
store; `inv` of a superblock with dirty words; `pf` to each level. -/
theorem witness_CacheControl :
    (∃ c, Issues (.lsctlMode ⟨g0, 4, 1, 0⟩) (lone (.lsctlMode ⟨g0, 4, 1, 0⟩)) c ∧ c.lanes = []) ∧
    (∀ e ∈ [((1 : BitVec 6), true), (3, true), (2, false), (4, false)], ∃ c, Issues (modeI e.1) (laneS 0x4000 (modeI e.1)) c ∧ c.lanes = 0 :: [] ∧
      (laneS 0x4000 (modeI e.1)).modeReqs = [] ∧ localAddr (laneS 0x4000 (modeI e.1)) c false 4 0x4000 0 = 0x8000 ∧
      modeAllowed (laneS 0x4000 (modeI e.1)) c 1 (modeOfCode e.1.toNat) = e.2) ∧
    (∃ c, Issues (modeI 1) (laneS 0x17C000 (modeI 1)) c ∧ c.lanes = 0 :: [] ∧ localAddr (laneS 0x17C000 (modeI 1)) c false 4 0x4000 0 = 0x180000) ∧
    (∃ c, Issues (.lsctlInv ⟨g1, 4, 0, 0⟩) (dirtyL1 (laneS 0x20000 (.lsctlInv ⟨g1, 4, 0, 0⟩))) c ∧ c.lanes = [0] ∧
      globalAddr (dirtyL1 (laneS 0x20000 (.lsctlInv ⟨g1, 4, 0, 0⟩))) c false 4 0 0 = 0x20000 ∧
      dirtyWords (dirtyL1 (laneS 0x20000 (.lsctlInv ⟨g1, 4, 0, 0⟩))) (.l1 c.cl) c.tag 0x400 = [⟨0, 7, false⟩]) ∧
    ∀ b ∈ [(0 : BitVec 6), 1, 2], ∃ c, Issues (.lsctlPf ⟨g1, 4, b, 0⟩) (laneS 0x20000 (.lsctlPf ⟨g1, 4, b, 0⟩)) c ∧ c.lanes = [0] ∧
      globalAddr (laneS 0x20000 (.lsctlPf ⟨g1, 4, b, 0⟩)) c false 4 0 0 = 0x20000 ∧
      (match translate (laneS 0x20000 (.lsctlPf ⟨g1, 4, b, 0⟩)) c.tag 0x20000 .load c.x.super with
        | (.ok _ _, t) => decide (t = laneS 0x20000 (.lsctlPf ⟨g1, 4, b, 0⟩))
        | _ => false) = true ∧
      (parentNode (prefetchNode (laneS 0x20000 (.lsctlPf ⟨g1, 4, b, 0⟩)) c.cl 0x20000 b.toNat) 0x20000).isSome = true ∧
      lacking (laneS 0x20000 (.lsctlPf ⟨g1, 4, b, 0⟩)) (prefetchNode (laneS 0x20000 (.lsctlPf ⟨g1, 4, b, 0⟩)) c.cl 0x20000 b.toNat) c.tag 0x400
        wholeLine ≠ 0 := by
  refine ⟨issuing (by decide +kernel), ?_, issuing (by decide +kernel), issuing (by decide +kernel), ?_⟩
  · intro e h
    simp only [List.mem_cons, List.not_mem_nil, or_false] at h
    rcases h with rfl | rfl | rfl | rfl <;> exact issuing (by decide +kernel)
  · intro b h
    simp only [List.mem_cons, List.not_mem_nil, or_false] at h
    rcases h with rfl | rfl | rfl <;> exact issuing (by decide +kernel)

/-! Copies. -/

/-- A slice as another wave has supplied it, of copy operation 1 of the team. -/
def sliceOf (wave : Nat) : Slice := ⟨wave, .g2l, 0x00400000, 2, false, [0x20000, 0, 64, 0], [0x01000010, 1, 0x8000, 16]⟩
def copyOf (slices : List Slice) : CopyOp :=
  { team := 0, cl := 0, k := 1, tag := loneTag, slices, gathered := false, moves := [], fault := none, gone := false, pois := false, marks := []
    faulting := [], pages := [], cover := [] }
def copyIs : List Instr :=
  [.cpG2l ⟨un, 8, 12, 2, 0, 0, 0⟩, .cpL2g ⟨un, 8, 12, 2, 0, 0, 0⟩, .cpL2gRed ⟨un, 8, 12, 2, 1, 0, 0⟩, .cpL2l ⟨un, 8, 12, 2, 0, 1, 0⟩,
    .cpG2g ⟨un, 8, 12, 2, 0, 0, 0⟩, .cpPeerPut ⟨un, 8, 12, 2, 0, 0, 1⟩, .cpPeerGet ⟨un, 8, 12, 2, 0, 0, 1⟩, .cpG2lMc ⟨un, 8, 12, 2, 0, 3, 3⟩,
    .cpscale ⟨un, 8, 12, 2, false, 0, false⟩]
def cpI : Instr := .cpG2l ⟨un, 8, 12, 2, 0, 0, 0⟩
/-- The token of the copy is pending for another operation; the engine holds 16 operations of other teams; another wave has opened the
operation. -/
def tokenBusy (s : State) : State := onTeam s 0 fun t => { t with toks := t.toks.set 2 { tokenAt t 2 with op := some 99 } }
def engineFull (s : State) : State := { s with copies := (List.range 16).map fun n => (100 + n, { copyOf [] with team := 9 }) }
def opened (s : State) : State := { s with copies := [(50, copyOf [sliceOf 1])] }

/-- Each kind of copy instruction; with its token in use, the engine full, the operation open; token queries with `act` and without. -/
theorem witness_CopyIssue :
    (∀ i ∈ copyIs, ∃ c, Issues i (lone i) c ∧ c.act ≠ 0) ∧
    (∃ c, Issues cpI (tokenBusy (lone cpI)) c ∧ (tokenAt c.t 2).op = some 99 ∧ kvGet c.t.copies c.x.num 0 = 0) ∧
    (∃ c, Issues cpI (engineFull (lone cpI)) c ∧ ((engineFull (lone cpI)).copies.find? fun e => e.2.team = c.x.team && e.2.k = 1) = none ∧
      16 ≤ ((engineFull (lone cpI)).copies.filter fun e => e.2.cl = c.cl).length) ∧
    (∃ c, Issues cpI (opened (lone cpI)) c ∧ ((opened (lone cpI)).copies.find? fun e => e.2.team = c.x.team && e.2.k = 1) = some (50, copyOf [sliceOf 1])) ∧
    (∀ i ∈ ([.tkq ⟨un, 5, 2⟩, .tkqClr ⟨un, 5, 2⟩, .tkqAddr ⟨un, 6, 2⟩, .mmstat ⟨un, 5, 2⟩] : List Instr), ∃ c, Issues i (lone i) c ∧ c.act ≠ 0) ∧
    ∃ c, Issues (.tkqClr ⟨g0, 5, 2⟩) (lone (.tkqClr ⟨g0, 5, 2⟩)) c ∧ c.act = 0 :=
  ⟨each_of (by decide +kernel), issuing (by decide +kernel), issuing (by decide +kernel), issuing (by decide +kernel), each_of (by decide +kernel),
    issuing (by decide +kernel)⟩

/-! Matrix instructions. -/

/-- The team has the tiles 0 and 1. -/
def tiled (s : State) : State := onTeam s 0 fun t => { t with tiles := [0, 1] }
def solo : MatOp :=
  { team := 0, cl := 0, kind := .solo, attached := none, supplies := [], formed := true, empty := false, num := 0, compared := false, seq := 1
    fmt := 0x2200, a := .bytes [], b := .bytes [], windows := [], scaleAddr := 0, tok := 2, tile := 1, col := 0, started := false, result := []
    report := 0, pois := false, fault := none }
/-- An operation stands on tile 1. -/
def matted (op : MatOp) (s : State) : State := { tiled s with mats := [(40, op)] }

def rdI (bf16 : Bool) : Instr := .mmrd ⟨un, 8, 2, 2, bf16, 1, 0⟩
def wrI : Instr := .mmwr ⟨un, 8, 2, 1, 3⟩
def zeroI : Instr := .mmwrZero ⟨un, 1⟩

/-- A tile in use, and free; a tile without a poisoned entry; empty `act`. -/
theorem witness_TileRows :
    (∀ i ∈ [rdI false, wrI, zeroI], ∃ c, Issues i (matted solo (lone i)) c ∧ c.act ≠ 0 ∧
      (∀ m ∈ (matted solo (lone i)).mats, m.2.team = c.x.team → m.2.formed = true) ∧ tileBusy (matted solo (lone i)) c.x.team 1 none = true) ∧
    (∀ i ∈ ([.mmrd ⟨g0, 8, 2, 2, false, 1, 0⟩, .mmwr ⟨g0, 8, 2, 1, 3⟩, .mmwrZero ⟨g0, 1⟩] : List Instr), ∃ c, Issues i (tiled (lone i)) c ∧
      c.act = 0 ∧ (tiled (lone i)).mats = []) ∧
    (∀ b ∈ [false, true], ∃ c, Issues (rdI b) (tiled (lone (rdI b))) c ∧ c.act ≠ 0 ∧ (tiled (lone (rdI b))).mats = [] ∧ (tiled (lone (rdI b))).tiles = [] ∧
      tileBusy (tiled (lone (rdI b))) c.x.team 1 none = false) ∧
    (∃ c, Issues wrI (tiled (lone wrI)) c ∧ c.act ≠ 0 ∧ (tiled (lone wrI)).mats = [] ∧ tileBusy (tiled (lone wrI)) c.x.team 1 none = false ∧
      c.x.width = 32) ∧
    ∃ c, Issues zeroI (tiled (lone zeroI)) c ∧ c.act ≠ 0 ∧ (tiled (lone zeroI)).mats = [] ∧ tileBusy (tiled (lone zeroI)) c.x.team 1 none = false := by
  refine ⟨?_, ?_, ?_, issuing (by decide +kernel), issuing (by decide +kernel)⟩
  · intro i h
    simp only [List.mem_cons, List.not_mem_nil, or_false] at h
    rcases h with rfl | rfl | rfl <;> exact issuing (by decide +kernel)
  · intro i h
    simp only [List.mem_cons, List.not_mem_nil, or_false] at h
    rcases h with rfl | rfl | rfl <;> exact issuing (by decide +kernel)
  · intro b h
    simp only [List.mem_cons, List.not_mem_nil, or_false] at h
    rcases h with rfl | rfl <;> exact issuing (by decide +kernel)

/-- v10 of every lane. -/
def v10 (v : Word) (s : State) : State := (List.range 32).foldl (fun t l => putLocalWord t 0 ((10 * 32 + l) * 4) v) s
/-- A cohort of four with the column as its level. -/
def cohorted (s : State) : State :=
  { onTeam s 0 (fun t => { t with cohort := some (0, 0) }) with launches := s.launches.map fun e => (e.1, { e.2 with ker := { e.2.ker with cohlv := 2, cohn := 4 } }) }

def mmaO : MmaOps := ⟨un, 10, 12, 20, 2, 2, false, 0, 0, 1, 0⟩
def matS (w : Word) : State := v10 w (tiled (lone (.mma mmaO)))
def joinS (w : Word) : State := v10 w (cohorted (tiled (lone (.mmaJ mmaO))))

/-- Formats that fail the vote and that pass it, of nested planes at their fewest and their most. -/
theorem witness_MatrixIssue_mma :
    (∃ c, Issues (.mma mmaO) (matS 0) c ∧ c.sl.joint = none ∧ c.x.landings = [] ∧ c.x.locals = [] ∧ (matS 0).regPoison = [] ∧ (matS 0).mats = [] ∧
      c.lanes.head? = some 0 ∧ voteFails (matS 0) c false mmaO (srcLane (matS 0) c 10 0) = true) ∧
    (∃ c, Issues (.mma mmaO) (matS 0x2200) c ∧ c.sl.joint = none ∧ c.x.landings = [] ∧ c.x.locals = [] ∧ (matS 0x2200).regPoison = [] ∧
      (matS 0x2200).mats = [] ∧ c.lanes.head? = some 0 ∧ srcLane (matS 0x2200) c 10 0 = 0x2200 ∧ voteFails (matS 0x2200) c false mmaO 0x2200 = false ∧
      operandFail c false 0x2200 (.bytes []) (.bytes []) = none ∧ (tokenAt c.t 2).op = none) ∧
    ∃ c, Issues (.mmaJ mmaO) (joinS 0x8800) c ∧ c.sl.joint = none ∧ c.x.landings = [] ∧ c.x.locals = [] ∧ (joinS 0x8800).regPoison = [] ∧
      (joinS 0x8800).mats = [] ∧ c.lanes.head? = some 0 ∧ srcLane (joinS 0x8800) c 10 0 = 0x8800 ∧ voteFails (joinS 0x8800) c true mmaO 0x8800 = false ∧
      (tokenAt c.t 2).op = none :=
  ⟨issuing (by decide +kernel), issuing (by decide +kernel), issuing (by decide +kernel)⟩

/-- Attached to copy 0, the team having another wave. -/
def mmaF : MmaOps := { mmaO with fol := true }
def mated (s : State) : State :=
  { onTeam s 0 (fun t => { t with waves := [0, 1] }) with waves := s.waves ++ s.waves.map fun e => (1, { e.2 with num := 1 }) }
def matF (i : Instr) (w : Word) : State := v10 w (mated (cohorted (tiled (lone i))))

/-- An attached `mma` and `mma.j` that are not their team's last, whose votes fail and pass; `mma` without `act`. -/
theorem witness_MatrixIssue_attached :
    (∀ e ∈ [(Instr.mma mmaF, false, (0x2200 : Word)), (.mmaJ mmaF, true, 0x8800)], ∃ c, Issues e.1 (matF e.1 e.2.2) c ∧ c.sl.joint = none ∧ c.x.landings = [] ∧
      c.x.locals = [] ∧ (matF e.1 e.2.2).regPoison = [] ∧ (matF e.1 e.2.2).mats = [] ∧ c.lanes.head? = some 0 ∧ (tokenAt c.t 2).op = none ∧
      (∃ v ∈ c.t.waves, (findWave (matF e.1 e.2.2) v).any (fun x => x.alive ≠ 0 && x.num ≠ c.x.num) = true) ∧
      srcLane (matF e.1 e.2.2) c 10 0 = e.2.2 ∧ voteFails (matF e.1 e.2.2) c e.2.1 mmaF e.2.2 = false) ∧
    (∃ c, Issues (.mma mmaF) (matF (.mma mmaF) 0) c ∧ voteFails (matF (.mma mmaF) 0) c false mmaF 0 = true) ∧
    ∃ c, Issues (.mma { mmaO with g := g0 }) (tiled (lone (.mma { mmaO with g := g0 }))) c ∧ c.sl.joint = none ∧ c.act = 0 := by
  refine ⟨?_, issuing (by decide +kernel), issuing (by decide +kernel)⟩
  intro e h
  simp only [List.mem_cons, List.not_mem_nil, or_false] at h
  rcases h with rfl | rfl <;> exact issuing (by decide +kernel)

/-- A slot that waits for its operation's comparison, which has passed or not, or found the members' words to differ; the cohort broken. -/
def awaiting (done : Bool) (fault : Option Nat) (killed : List (Nat × Nat)) : State :=
  let s := onSlot (cohorted (tiled (lone (.mmaJ mmaO)))) ⟨0, false⟩ fun sl => { sl with joint := some 40 }
  { s with
    mats := [(40, { solo with kind := .joint, compared := done, fault })]
    launches := s.launches.map fun e => (e.1, { e.2 with killed }) }

theorem witness_MatrixIssue_compare :
    ∀ e ∈ [(false, none, []), (true, none, []), (false, none, [(0, 1)]), (false, some divergedMark, [])],
      ∃ c, Issues (.mmaJ mmaO) (awaiting e.1 e.2.1 e.2.2) c ∧ c.sl.joint = some 40 ∧
      kvFind (awaiting e.1 e.2.1 e.2.2).mats 40 = some { solo with kind := .joint, compared := e.1, fault := e.2.1 } ∧
      cohortBroken (awaiting e.1 e.2.1 e.2.2) { solo with kind := .joint, compared := e.1, fault := e.2.1 } = !e.2.2.isEmpty := by
  intro b h
  simp only [List.mem_cons, List.not_mem_nil, or_false] at h
  rcases h with rfl | rfl | rfl | rfl <;> exact issuing (by decide +kernel)

def cvtO : MmcvtOps := ⟨un, 8, 12, 2, 1⟩
def cvtB : MmcvtOps := ⟨un, 8, 0, 2, 1⟩
/-- Scratch in bank 1 for the descriptor in g8 and g9 and for the scales in g12. -/
def cvtS (i : Instr) : State :=
  let s := tiled (scratch [] 0 (loneW i (withG [(8, 0x8000), (9, 64), (12, 0xF000)])))
  { onTeam s 0 (fun t => { t with dataBank := 1, nData := 1 }) with
    launches := s.launches.map fun e => (e.1, { e.2 with ker := { e.2.ker with scr := 1 } }) }

/-- Conversions of no lane, whose checks pass, and whose descriptor lies outside the scratch. -/
theorem witness_MatrixIssue_mmcvt :
    (∃ c, Issues (.mmcvtNp8 { cvtO with g := g0 }) (tiled (lone (.mmcvtNp8 { cvtO with g := g0 }))) c ∧ c.act = 0) ∧
    (∃ c, Issues (.mmcvtBf16 cvtB) (cvtS (.mmcvtBf16 cvtB)) c ∧ c.act ≠ 0 ∧ c.x.landings = [] ∧ c.x.locals = [] ∧
      cvtFail (cvtS (.mmcvtBf16 cvtB)) c false cvtB = none ∧ (tokenAt c.t 2).op = none) ∧
    (∃ c, Issues (.mmcvtNp8 cvtO) (cvtS (.mmcvtNp8 cvtO)) c ∧ c.act ≠ 0 ∧ cvtFail (cvtS (.mmcvtNp8 cvtO)) c true cvtO = none ∧ (tokenAt c.t 2).op = none) ∧
    ∃ c, Issues (.mmcvtNp8 cvtO) (tiled (lone (.mmcvtNp8 cvtO))) c ∧ c.act ≠ 0 ∧ (cvtFail (tiled (lone (.mmcvtNp8 cvtO))) c true cvtO).isSome = true :=
  ⟨issuing (by decide +kernel), issuing (by decide +kernel), issuing (by decide +kernel), issuing (by decide +kernel)⟩

/-! Tasks, launches, barriers. -/

/-- A task queue of core 0 with `n` records; the launch has task slots or none, and one entry point. -/
def queued (n slots : Nat) (s : State) : State :=
  { s with
    tasks := [(0, ⟨0, List.replicate n ⟨0, 0, 0⟩, 0, 0⟩)]
    launches := s.launches.map fun e => (e.1, { e.2 with ker := { e.2.ker with tslot := slots, entries := [0x10000] } }) }

def spawnI (g : Guard) : Instr := .spawn ⟨g, 8, 10, 0⟩
def spawnS (n slots : Nat) : State := queued n slots (loneW (spawnI g1) fun x => { x with k := x.k.set 1 1 })
def spawnF : SpawnOps := ⟨g1, 8, 10, 0⟩
/-- The spawn's sources as they stand, its frames all 0 or all added to. -/
def spawnReads (s : State) (c : Ctx) : Bool :=
  readsB c (spawnOperands s c spawnF) (spawnOperands s c spawnF) && (spawnOperands s c spawnF).map (·.lane) == c.lanes
/-- v8 of lane 0, its frame, is 0x20000. -/
def framed (mark : Nat) : State := underWay mark [(0, 1, false)] none (putLocalWord (spawnS 31 2) 0 (8 * 32 * 4) 0x20000)

theorem witness_Tasks_spawn :
    (∃ c, Issues (spawnI g0) (queued 0 2 (lone (spawnI g0))) c ∧ c.act = 0) ∧
    (∀ slots ∈ [0, 2], ∃ c, Issues (spawnI g1) (spawnS 31 slots) c ∧ spawnReads (spawnS 31 slots) c = true ∧ c.lanes = [0] ∧
      (spawnOperands (spawnS 31 slots) c spawnF).map (·.va) = [0] ∧ c.x.progress = none ∧ acquireWaits c = false ∧
      c.la.ker.tslot = slots ∧ ∃ q ∈ (kvFind (spawnS 31 slots).tasks c.core).toList, q.chip.length + 1 ≤ 32 ∧ q.launch = c.t.launch) ∧
    ∀ mark ∈ [sentMark, pushMark], ∃ c, Issues (spawnI g1) (framed mark) c ∧ spawnReads (framed mark) c = true ∧ c.lanes = [0] ∧
      (spawnOperands (framed mark) c spawnF).map (·.va) = [0x20000] ∧ (asked c = true ∨ phaseOf c = pushMark) ∧ acquireWaits c = false ∧ resultsOf c = [(0, 1, false)] ∧
      (progressOf c).all (fun p => p.pushed = 0) = true := by
  refine ⟨issuing (by decide +kernel), ?_, ?_⟩ <;>
  · intro n h
    simp only [List.mem_cons, List.not_mem_nil, or_false] at h
    rcases h with rfl | rfl <;> exact issuing (by decide +kernel)

def tdoneI (g : Guard) : Instr := .tdone ⟨g, 8⟩
def framedTdone (mark : Nat) (rs : List (Nat × Nat × Bool)) : State :=
  underWay mark rs (some [⟨0, 0x20000, 0, 0⟩]) (cacheBank (queued 31 2 (loneW (tdoneI un) (withG [(8, 0x30000)]))))
def contRead : List (Nat × Nat × Bool) := [(0, 1, false), (1, (5 : Word).toNat, false), (2, (6 : Word).toNat, false), (3, (7 : Word).toNat, false), (4, (8 : Word).toNat, false)]

/-- The frame that the `tdone` under way noted; g8 has changed since. -/
def tdoneReads (s : State) (c : Ctx) : Bool := readsB c [⟨0, (readGroupPair s c.x 8).toNat, 0, 0⟩] [⟨0, 0x20000, 0, 0⟩]

/-- `tdone` of no lane, without a frame, with one whose decrement was not the last, and with its continuation read, to be pushed or
waiting for room. -/
theorem witness_Tasks_tdone :
    (∃ c, Issues (tdoneI g0) (lone (tdoneI g0)) c ∧ c.act = 0) ∧
    (∃ c, Issues (tdoneI un) (lone (tdoneI un)) c ∧ c.act ≠ 0 ∧ (readGroupPair (lone (tdoneI un)) c.x 8).toNat = 0) ∧
    (∃ c, Issues (tdoneI un) (framedTdone sentMark [(0, 2, false)]) c ∧ c.act ≠ 0 ∧ acquireWaits c = false ∧
      tdoneReads (framedTdone sentMark [(0, 2, false)]) c = true ∧ asked c = true ∧ resultsOf c = [(0, 2, false)]) ∧
    ∀ mark ∈ [sentMark, pushMark], ∃ c, Issues (tdoneI un) (framedTdone mark contRead) c ∧ c.act ≠ 0 ∧ acquireWaits c = false ∧
      tdoneReads (framedTdone mark contRead) c = true ∧ (asked c = true ∨ phaseOf c = pushMark) ∧
      resultsOf c = contRead ∧ c.la.ker.tslot ≠ 0 ∧ ∃ q ∈ (kvFind (framedTdone mark contRead).tasks c.core).toList, q.chip.length < 32 ∧ q.launch = c.t.launch := by
  refine ⟨issuing (by decide +kernel), issuing (by decide +kernel), issuing (by decide +kernel), ?_⟩
  intro n h
  simp only [List.mem_cons, List.not_mem_nil, or_false] at h
  rcases h with rfl | rfl <;> exact issuing (by decide +kernel)

def launchI (g : Guard) : Instr := .launch ⟨g, 8⟩
/-- The record is read; the queue has `n` records. -/
def submitting (n : Nat) : State :=
  { underWay contMark ((List.range 32).map fun j => (j, 3, false)) (some [⟨0, 0x20000, 0, 0⟩]) (cacheBank (lone (launchI un))) with
    devq := List.replicate n ⟨[], loneTag, false⟩ }

/-- `launch` of no lane, with room for one more record, and with none. -/
theorem witness_LaunchSubmits :
    (∃ c, Issues (launchI g0) (lone (launchI g0)) c ∧ c.act = 0) ∧
    ∀ n ∈ [1023, 1024], ∃ c, Issues (launchI un) (submitting n) c ∧ tdoneReads (submitting n) c = true ∧ c.act ≠ 0 ∧ acquireWaits c = false ∧
      resultsOf c = (List.range 32).map (fun j => (j, (3 : Word).toNat, false)) ∧ l1Ways (submitting n) c.cl ≠ 0 ∧ (submitting n).devq.length = n := by
  refine ⟨issuing (by decide +kernel), ?_⟩
  intro n h
  simp only [List.mem_cons, List.not_mem_nil, or_false] at h
  rcases h with rfl | rfl <;> exact issuing (by decide +kernel)

/-- The launch has an assembly of member 0 alone. -/
def assembled (s : State) : State :=
  { cohorted s with launches := (cohorted s).launches.map fun e => (e.1, { e.2 with ker := { e.2.ker with asms := [[0]] } }) }

/-- A `tbar` that stands, its generation not completed or completed; one that another `bar` left standing in its slot. -/
def standing (b : BarWait) : State := loneW (.tbar ⟨un, 3⟩) fun x => { x with a := { x.a with bar := some b } }

theorem witness_Barriers_stand :
    ∀ b ∈ [(⟨.team, none⟩ : BarWait), ⟨.team, some true⟩, ⟨.cohort, none⟩], ∃ c, Issues (.tbar ⟨un, 3⟩) (standing b) c ∧ c.act ≠ 0 ∧
      c.sl.bar = some b := by
  intro b h
  simp only [List.mem_cons, List.not_mem_nil, or_false] at h
  rcases h with rfl | rfl | rfl <;> exact issuing (by decide +kernel)

/-- Barriers of no lane and of a clean path. -/
theorem witness_Barriers_arrive :
    (∃ c, Issues (.tbar ⟨g0, 3⟩) (lone (.tbar ⟨g0, 3⟩)) c ∧ c.act = 0) ∧
    ∀ e ∈ ([(.tbar ⟨un, 3⟩, .team), (.abar ⟨un, 3, 0⟩, .asm 0), (.cbar ⟨un, 3⟩, .cohort)] : List (Instr × BarId)),
      ∃ c, Issues e.1 (assembled (lone e.1)) c ∧ c.act ≠ 0 ∧ c.x.progress = none ∧ c.sl.bar = none ∧
        cleanB (assembled (lone e.1)) c (barScope e.2 c.la.ker.cohlv) = true := by
  refine ⟨issuing (by decide +kernel), ?_⟩
  intro e h
  simp only [List.mem_cons, List.not_mem_nil, or_false] at h
  rcases h with rfl | rfl | rfl <;> exact issuing (by decide +kernel)

/-! Translation. -/

/-- A supervisor; `g1` in its lane 0. -/
def ruling (i : Instr) : State := loneW i fun x => { inHandler savedNone x with k := x.k.set 1 1 }
/-- A request for the page at 0 is under way. -/
def requested (s : State) : State := { s with net := [mkMsg .getS (.l1 0) (.die 0) loneTag 0] }
def mapI : Instr := .tlbopMap ⟨g1, 4, 2, 6, 0, true⟩
def invalI : Instr := .tlbopInval ⟨g1, 0, 2, 1⟩
def retireI (g : Guard) : Instr := .tlbopRetire ⟨g, 2⟩

/-- An operation of one lane that ends at once, one that waits; `retire` of no lane, of one, and waiting. -/
theorem witness_Translations :
    (∃ c, Issues mapI (ruling mapI) c ∧ c.lanes = [0] ∧ resultsOf c = [] ∧
      mapPage (ruling mapI) c.tag (srcPair (ruling mapI) c false 2 0).toNat (srcPair (ruling mapI) c false 6 0) 0 true = .result 3 (ruling mapI)) ∧
    (∃ c, Issues invalI (ruling invalI) c ∧ c.lanes = [0] ∧ resultsOf c = [] ∧ ∃ t, t.waves = (ruling invalI).waves ∧ t.lstore = (ruling invalI).lstore ∧
      invalPage (ruling invalI) c.tag (srcPair (ruling invalI) c false 2 0).toNat 1 = .result 0 t) ∧
    (∃ c, Issues invalI (requested (ruling invalI)) c ∧ c.lanes = [] ++ 0 :: [] ∧ resultsOf c = [] ∧
      invalPage (requested (ruling invalI)) c.tag (srcPair (requested (ruling invalI)) c false 2 0).toNat 1 = .wait 0 2 (requested (ruling invalI))) ∧
    (∃ c, Issues (retireI g0) (loneW (retireI g0) (inHandler savedNone)) c ∧ c.lanes = []) ∧
    (∃ c, Issues (retireI g1) (ruling (retireI g1)) c ∧ c.lanes = 0 :: [] ∧ (retireAsid (ruling (retireI g1)) (field (srcLane (ruling (retireI g1)) c 2 0) 0 16)).isSome = true) ∧
    ∃ c, Issues (retireI g1) (putLocalWord (requested (ruling (retireI g1))) 0 (2 * 32 * 4) 1) c ∧ c.lanes = 0 :: [] ∧
      (retireAsid (putLocalWord (requested (ruling (retireI g1))) 0 (2 * 32 * 4) 1)
        (field (srcLane (putLocalWord (requested (ruling (retireI g1))) 0 (2 * 32 * 4) 1) c 2 0) 0 16)).isNone = true := by
  refine ⟨issuing (by decide +kernel), ?_, issuing (by decide +kernel), issuing (by decide +kernel), issuing (by decide +kernel), issuing (by decide +kernel)⟩
  obtain ⟨c, h, h1, h2, h3⟩ := issuing (i := invalI) (s := ruling invalI) (P := fun c => c.lanes = [0] ∧ resultsOf c = [] ∧
      (match invalPage (ruling invalI) c.tag (srcPair (ruling invalI) c false 2 0).toNat 1 with
      | .result r t => decide (t.waves = (ruling invalI).waves ∧ t.lstore = (ruling invalI).lstore ∧ r = 0)
      | .wait .. => false) = true) (by decide +kernel)
  refine ⟨c, h, h1, h2, ?_⟩
  split at h3
  · rename_i r t e
    obtain ⟨ha, hb, rfl⟩ := of_decide_eq_true h3
    exact ⟨t, ha, hb, e⟩
  · cases h3

/-- A page table: the ASID table at 0, its entry for ASID 1, four levels in the frames 2, 4, 6 and 8 of home 0; the page at 0x20000 of it is
mapped, the page at 0x21000 not. -/
def tableDram : Mem :=
  let put (m : Mem) (a v : Nat) : Mem := memWriteN m a 8 v
  put (put (put (put (put (put [] 128 0x20001) (128 + 0x78) 1) 0x2000 0x40001) 0x4000 0x60001) 0x6000 0x80001) (0x8000 + 8 * 0x20) 0x200867

def tableS : State := { State.reset with dram := tableDram }
theorem witness_Translations_pages :
    (canonical (2 ^ 56) = false ∧ (0x20001 : Nat) % pageBytes 3 ≠ 0) ∧
    (pteV (0 : DWord) = false ∧ leafMalformed 3 (1 : DWord) = true) ∧
    (pteV (0x200867 : DWord) = true ∧ leafMalformed 3 (0x200867 : DWord) = false) ∧
    (findLeaf State.reset 1 0x20000 3).1 = none ∧
    (findLeaf tableS 1 0x20000 3).1 = some (0x8100, 0x200867) ∧ (findLeaf tableS 1 0x21000 3).1 = some (0x8108, 0) ∧
    pageQuiet tableS ⟨1, 0⟩ 0x20000 3 = true ∧ memWf tableS.dram = true ∧ (retireAsid tableS 1).isSome = true := by decide +kernel

/-! The fetch of a clause. -/

/-- The lone wave before its fetch, with a header and two words in the instruction cache. -/
def unfetched (h : Word) : State :=
  let s := loneW (.nop ⟨un⟩) fun x => { x with a := { x.a with pc := BitVec.ofNat 56 loneText, woff := 0, clause := [], header := none } }
  { s with icache := [((0, loneTag, loneText), h), ((0, loneTag, loneText + 4), 0xBEF00000)] }

def mayFetch (s : State) (va : Nat) : Bool := match translate s loneTag va .fetch false with
  | (.ok _ _, t) => decide (t = s)
  | _ => false

theorem fetches {s : State} {va : Nat} (h : mayFetch s va = true) : ∃ p e, translate s loneTag va .fetch false = (.ok p e, s) := by
  unfold mayFetch at h
  split at h
  · rename_i p e t heq
    exact ⟨p, e, by rw [heq, of_decide_eq_true h]⟩
  · cases h

/-- A sound header of one instruction, one whose class the instruction does not have, and one with TAG 0. -/
theorem witness_ClauseFetches : ∀ e ∈ [((loneHeader : Word), true, false), (0xA0B00001, true, true), (0x00600071, false, false)],
    (∃ x la, findWave (unfetched e.1) 0 = some x ∧ launchOfWave (unfetched e.1) 0 = some (0, la) ∧ (slotOf x false).st = .run ∧
      (slotOf x false).clause = [] ∧ (slotOf x false).woff = 0 ∧ x.progress = none ∧ x.pending = none ∧ x.super = false ∧
      (slotOf x false).joined = false ∧ fetchHeld (unfetched e.1) la.tag (slotOf x false).pc.toNat = false ∧ la.tag = loneTag ∧ (slotOf x false).pc.toNat = loneText) ∧
    TextStands (unfetched e.1) 0 loneTag false loneText [e.1, 0xBEF00000] ∧ WordsOf (field e.1 0 4).toNat [0xBEF00000] ∧
    (HeaderSound e.1 ↔ e.2.1 = true) ∧ (e.2.1 = true → instrsBad (field e.1 4 3).toNat [0xBEF00000] 0 31 = e.2.2) := by
  intro e h
  simp only [List.mem_cons, List.not_mem_nil, or_false] at h
  have text (w : Word) (h0 : mayFetch (unfetched w) loneText = true) (h1 : mayFetch (unfetched w) (loneText + 4) = true) :
      TextStands (unfetched w) 0 loneTag false loneText [w, 0xBEF00000] := by
    have := fetches h0
    have := fetches h1
    intro i v hv
    rcases i with _ | _ | i
    · cases hv; exact ⟨by decide, by rfl, by assumption, by rfl⟩
    · cases hv; exact ⟨by decide, by rfl, by assumption, by rfl⟩
    · simp at hv
  have words : WordsOf 1 [0xBEF00000] := ⟨_, [], rfl, .inl ⟨by decide, rfl⟩⟩
  rcases h with rfl | rfl | rfl <;>
    refine ⟨⟨_, _, rfl, rfl, ?_⟩, text _ (by decide +kernel) (by decide +kernel), words, ?_, ?_⟩ <;> first | decide +kernel | (unfold HeaderSound; decide +kernel)

/-! Waves between instructions. -/

def landed (e : Landing) (x : Wave) : Wave := { x with landings := [e] }
def waits (a : LocalAcc) (s : State) : State := onWave s 0 fun x => { x with locals := [a] }
def feAcc (k : LocalKind) : LocalAcc := ⟨false, k, false, if k = .load then 4 else 2, 2, 6, 3, false, 0xFFFFFFFF, none, [⟨31, 0x8000, 9, 0⟩], []⟩
def nopI : Instr := .nop ⟨un⟩

/-- A result in a lane and a group register; a store to an empty granule and a load of a full one. -/
theorem witness_WaveEvents_results :
    (∃ x, findWave (loneW nopI (landed ⟨false, 2, true, false, [.lane 6 31 7, .group 63 8]⟩)) 0 = some x ∧ WaveShaped x ∧
      x.landings = ⟨false, 2, true, false, [.lane 6 31 7, .group 63 8]⟩ :: [] ∧ x.super = false ∧ 31 < x.width ∧ 63 < x.gregs ∧
      memWf (loneW nopI (landed ⟨false, 2, true, false, [.lane 6 31 7, .group 63 8]⟩)).lstore = true) ∧
    ∀ e ∈ [((LocalKind.store), ([] : List Nat)), (.load, [0])], ∃ x, findWave (waits (feAcc e.1) (scratch e.2 0 (lone nopI))) 0 = some x ∧ WaveShaped x ∧
      x.locals = [feAcc e.1] ∧ x.super = false ∧ 31 < x.width ∧ (bankAt (waits (feAcc e.1) (scratch e.2 0 (lone nopI))) 0 (bankOf 0x8000)).mode = .scr ∧
      (bankAt (waits (feAcc e.1) (scratch e.2 0 (lone nopI))) 0 (bankOf 0x8000)).copying = false ∧
      granFull (waits (feAcc e.1) (scratch e.2 0 (lone nopI))) 0 0x8000 = !e.2.isEmpty ∧
      granPoison (waits (feAcc e.1) (scratch e.2 0 (lone nopI))) 0 0x8000 = false := by
  constructor
  · exact ⟨_, rfl, by unfold WaveShaped; decide +kernel⟩
  · intro e h
    simp only [List.mem_cons, List.not_mem_nil, or_false] at h
    rcases h with rfl | rfl <;> exact ⟨_, rfl, by unfold WaveShaped; decide +kernel⟩

/-- A spilled block whose 64 words lie in the L1. -/
def spilledS : State :=
  let s := cacheBank (dataPage (loneW nopI fun x => { x with spilled := 1, spillBase := 0x20000, spillL := 8 }))
  { s with caches := (List.range 64).map fun i => (⟨.l1 0, loneTag, 0x20000 + 4 * i⟩, clean 3) }

theorem witness_WaveEvents_spill : ∃ x la, findWave spilledS 0 = some x ∧ launchOfWave spilledS 0 = some (0, la) ∧ memWf spilledS.lstore = true ∧
    x.depth = 0 ∧ x.spilled ≠ 0 ∧ x.alive ≠ 0 ∧ x.spillBase + 256 * (x.spilled - 1) = 0x20000 ∧ canonical 0x20000 = true ∧
    shooting spilledS la.tag.asid 0x20000 = false ∧
    (match translate spilledS la.tag 0x20000 .load false with
      | (.ok _ _, t) => decide (t = spilledS)
      | _ => false) = true ∧
    gatherWords spilledS (forkAsker 0 la.tag) 8 ((List.range 64).map fun i => (i, 0x20000 + 4 * i)) = (List.range 64).map (fun i => (i, (3 : Word).toNat, false)) ∧
    l1Ways spilledS 0 ≠ 0 :=
  ⟨_, _, rfl, rfl, by decide +kernel⟩

/-- An entry of a latch; a wave with a slot that runs; a pending trap. -/
theorem witness_WaveEvents_timers :
    ((latched (lone nopI)).latches.filter fun e => e.core = 0)[2]? = some ⟨0, ⟨0, true⟩, 4, [], [], 2⟩ ∧
    (∃ x, findWave (lone nopI) 0 = some x ∧ (slotOf x false).st = .run ∧ x.progress = none) ∧
    ∃ x, findWave (loneW nopI fun x => { x with pending := some pageTrap }) 0 = some x ∧ x.pending = some pageTrap ∧ x.progress = none :=
  ⟨by decide +kernel, ⟨_, rfl, by decide +kernel⟩, ⟨_, rfl, by decide +kernel⟩⟩

/-! Coherence messages. -/

/-- Messages on their way, with directory records, cached words and transactions. -/
def posted (m : Msg) (ds : Kv DKey DRec) (cs : Kv CKey CWord) (ts : List Txn) : State :=
  { dataPage (lone nopI) with net := [m], dirs := ds, caches := cs, txns := ts }

/-- What is left of a state when its first message has come to its node. -/
def without (s : State) (m : Msg) : State := touchNode { s with net := s.net.eraseIdx 0 } m

def handlesB (s : State) (m : Msg) (refuses : Bool) : Bool :=
  decide (readyMsg s m.kind 0 = some (0, m) ∧ nodeFenced s m.dst = false ∧ unwalked s m.dst m.tag m.line = [] ∧ refusesNow s m = refuses)

theorem handles {s : State} {m : Msg} {r p : Bool} (h : (handlesB s m r && p) = true) : Handles s 0 m r (without s m) ∧ p = true := by
  simp only [handlesB, Bool.and_eq_true, decide_eq_true_eq] at h
  exact ⟨⟨⟨0, h.1.1, rfl⟩, h.1.2⟩, h.2⟩

/-- A message about the line at 0x20000: from the L1 of cluster 0 to its die, from the die to the stack, to a bridge and to the home;
and down to the L1 and to the die. -/
def upMsg (k : MsgKind) : Msg := { mkMsg k (.l1 0) (.die 0) loneTag 0x400 with mask := 1 }
def bridgeMsg (k : MsgKind) : Msg := { upMsg k with src := .stk 0, dst := .bridge 0 }
def homeMsg (k : MsgKind) : Msg := { upMsg k with src := .stk 0, dst := .home 0 }
def downMsg (k : MsgKind) : Msg := mkMsg k (.die 0) (.l1 0) loneTag 0x400
def dieMsg (k : MsgKind) : Msg := { mkMsg k (.stk 0) (.die 0) loneTag 0x400 with mask := 1 }
def key (n c : Node) : DKey := ⟨n, loneTag, 0x400, c⟩
/-- The whole line at a node; one dirty word of it. -/
def whole (n : Node) : Kv CKey CWord := (List.range 32).map fun i => (⟨n, loneTag, 0x20000 + 4 * i⟩, { clean 3 with owned := true })
def dirtyAt (n : Node) : Kv CKey CWord := [(⟨n, loneTag, 0x20000⟩, ⟨7, false, true, true, false⟩)]

/-- Reads: of a line that a child has dirty; whose words the die has; that the die and the bridge ask for; at a home
whose own cache holds it. -/
def readCases : List (State × Msg × Bool) :=
  let s1 := posted (upMsg .getS) [(key (.die 0) (.l1 1), ⟨.w, 1, 0⟩)] [] []
  let s2 := posted (upMsg .getS) [(key (.die 0) (.l1 1), ⟨.s, 0, 0⟩)] (whole (.die 0)) []
  let s3 := posted (upMsg .getS) [] [] []
  let s4 := posted (bridgeMsg .getS) [] [] []
  [(s1, upMsg .getS, ((holders s1 (.die 0) loneTag 0x400).filter fun h => h.1 ≠ .l1 0 && h.2.dr ≠ 0).map (·.1) == [.l1 1]),
    (s2, upMsg .getS, decide (lacking s2 (.die 0) loneTag 0x400 1 = 0) && (holders s2 (.die 0) loneTag 0x400).all fun h => decide (h.2.dr = 0)),
    (s3, upMsg .getS, decide (lacking s3 (.die 0) loneTag 0x400 1 ≠ 0 ∧ holders s3 (.die 0) loneTag 0x400 = [] ∧ (parentNode (.die 0) 0x20000).isSome = true)),
    (s4, bridgeMsg .getS, decide (holders s4 (.bridge 0) loneTag 0x400 = [] ∧ (parentNode (.bridge 0) 0x20000).isSome = true))]

theorem witness_RequestMessages_reads :
    (∀ e ∈ readCases, Handles e.1 0 e.2.1 false (without e.1 e.2.1) ∧ e.2.2 = true) ∧
    (let s := (homeWord (posted (homeMsg .getS) [] [] []) loneTag 0x20000).2
     Handles s 0 (homeMsg .getS) false (without s (homeMsg .getS)) ∧ (decide (holders s (.home 0) loneTag 0x400 = []) &&
      (List.range 32).all fun i => homeWord (without s (homeMsg .getS)) loneTag (0x20000 + 4 * i) = (some (0, false), without s (homeMsg .getS))) = true) := by
  constructor
  · intro e h
    simp only [readCases, List.mem_cons, List.not_mem_nil, or_false] at h
    rcases h with rfl | rfl | rfl | rfl <;> exact handles (by decide +kernel)
  · exact handles (by decide +kernel)

/-- A die's record of a fenced child waits to be walked at the stack, so that the home refuses requests for the line. -/
def rebuildingS (m : Msg) : State :=
  { posted m [(key (.stk 1) (.die 4), ⟨.s, 0, 0⟩)] [] [] with rebuilds := [(1, { Rebuild.clear with pend := true, dies := [4] })] }

theorem witness_RequestMessages_refused : ∀ k ∈ [MsgKind.getS, .getW, .wbW], Handles (rebuildingS (homeMsg k)) 0 (homeMsg k) true (without (rebuildingS (homeMsg k)) (homeMsg k)) := by
  intro k h
  simp only [List.mem_cons, List.not_mem_nil, or_false] at h
  rcases h with rfl | rfl | rfl <;> exact (handles (p := true) (by decide +kernel)).1

/-- Claims: of a word that another child has; of a free one at the home, at a die that owns it and at one that does not, at the bridge. -/
def claimCases : List (State × Msg × Bool) :=
  let s1 := posted (upMsg .getW) [(key (.die 0) (.l1 1), ⟨.w, 3, 0⟩)] [] []
  let s2 := posted (homeMsg .getW) [(key (.home 0) (.stk 1), ⟨.s, 0, 0⟩)] [] []
  let s3 := posted (upMsg .getW) [] (whole (.die 0)) []
  let s4 := posted (upMsg .getW) [] [] []
  let s5 := posted (bridgeMsg .getW) [] [] []
  [(s1, upMsg .getW, rivals s1 (.die 0) loneTag 0x400 (.l1 0) 1 == [(.l1 1, 1)]),
    (s2, homeMsg .getW, rivals s2 (.home 0) loneTag 0x400 (.stk 0) 1 == []),
    (s3, upMsg .getW, decide (rivals s3 (.die 0) loneTag 0x400 (.l1 0) 1 = [] ∧ unowned s3 (.die 0) loneTag 0x400 1 = 0)),
    (s4, upMsg .getW, decide (unowned s4 (.die 0) loneTag 0x400 1 ≠ 0 ∧ (parentNode (.die 0) 0x20000).isSome = true)),
    (s5, bridgeMsg .getW, decide ((parentNode (.bridge 0) 0x20000).isSome = true))]

/-- Pushes at the home, without and with another child registered, and at a die; an eviction of a registered word. -/
def pushMsg (dst : Node) (src : Node) (k : MsgKind) : Msg := { upMsg k with src, dst, words := [⟨0, 7, false⟩] }
def pushCases : List (State × Msg × Bool) :=
  let h := pushMsg (.home 0) (.stk 0) .wbW
  let d := pushMsg (.die 0) (.l1 0) .wbW
  let e := pushMsg (.die 0) (.l1 0) .wbL
  let s1 := posted h [(key (.home 0) (.stk 0), ⟨.w, 1, 0⟩)] [] []
  let s2 := posted h [(key (.home 0) (.stk 0), ⟨.w, 1, 0⟩), (key (.home 0) (.stk 1), ⟨.w, 0, 1⟩)] [] []
  let kept (s : State) := putDir (homeStore (without s h) loneTag 0x400 h.words) (.home 0) loneTag 0x400 (.stk 0) ⟨.w, 0, 1⟩
  let s4 := posted e [(key (.die 0) (.l1 0), ⟨.w, 1, 0⟩)] [] []
  [(s1, h, decide (rivals (kept s1) (.home 0) loneTag 0x400 (.stk 0) 1 = [] ∧ nestedIn (kept s1) h = none ∧ maskOfWords h.words = 1)),
    (s2, h, decide (rivals (kept s2) (.home 0) loneTag 0x400 (.stk 0) 1 = [(.stk 1, 1)] ∧ nestedIn (kept s2) h = none)),
    (posted d [(key (.die 0) (.l1 0), ⟨.w, 1, 0⟩)] [] [], d, nestedIn (posted d [] [] []) d == none),
    (s4, e, (registered (dirAt s4 (.die 0) loneTag 0x400 (.l1 0))).getLsbD 0)]

/-- Claims that want the newest values: of a word that another child has; at the die that owns it, at the home, and at a die that has
nothing of it; of a line for the site of an atomic. -/
def flushCases : List (State × Msg × Bool) :=
  let up : Msg := { upMsg .getW with flush := true }
  let site : Msg := { up with mask := wholeLine, atom := some ⟨0, 0, .l1 0, [⟨0, 0x20000, 1, 0⟩], false, false⟩ }
  let home : Msg := { homeMsg .getW with flush := true }
  let s1 := posted up [(key (.die 0) (.l1 1), ⟨.w, 3, 0⟩)] [] []
  let s2 := posted up [] (whole (.die 0)) []
  let s3 := (homeWord (posted home [] [] []) loneTag 0x20000).2
  let s4 := posted site [] [] []
  let short (s : State) (m : Msg) : BitVec 32 := unowned s m.dst m.tag m.line m.mask ||| lacking s m.dst m.tag m.line m.mask
  [(s1, up, otherClaims s1 up == [(.l1 1, 1)]), (s2, up, decide (otherClaims s2 up = [] ∧ short s2 up = 0)),
    (s3, home, otherClaims s3 home == [] &&
      (List.range 32).all fun i => homeWord (without s3 home) loneTag (0x20000 + 4 * i) = (some (0, false), without s3 home)),
    (s4, site, decide (otherClaims s4 site = [] ∧ short s4 site ≠ 0 ∧ (parentNode (.die 0) 0x20000).isSome = true))]

theorem witness_RequestMessages_flushes : ∀ e ∈ flushCases, Handles e.1 0 e.2.1 false (without e.1 e.2.1) ∧ e.2.2 = true := by
  intro e h
  simp only [flushCases, List.mem_cons, List.not_mem_nil, or_false] at h
  rcases h with rfl | rfl | rfl | rfl <;> exact handles (by decide +kernel)

theorem witness_RequestMessages_writes :
    (∀ e ∈ claimCases, Handles e.1 0 e.2.1 false (without e.1 e.2.1) ∧ (e.2.2 && decide (e.2.1.atom = none ∧ nestedIn e.1 e.2.1 = none)) = true) ∧
    ∀ e ∈ pushCases, Handles e.1 0 e.2.1 false (without e.1 e.2.1) ∧ (e.2.2 && decide (nestedIn e.1 e.2.1 = none)) = true := by
  constructor <;> intro e h
  · simp only [claimCases, List.mem_cons, List.not_mem_nil, or_false] at h
    rcases h with rfl | rfl | rfl | rfl | rfl <;> exact handles (by decide +kernel)
  · simp only [pushCases, List.mem_cons, List.not_mem_nil, or_false] at h
    rcases h with rfl | rfl | rfl | rfl <;> exact handles (by decide +kernel)

def atomReq (n : Node) : AtomReq := ⟨0, 0, n, [⟨0, 0x20000, 1, 0⟩], false, false⟩
def atomMsg (m : MsgKind → Msg) (k : MsgKind) (site : Node) : Msg := { m k with atom := some (atomReq site) }

/-- An atomic below its site; at a site whose children have the line, dirty and clean; that lacks words; that may perform it, a cache
and the home. -/
def atomCases : List (State × Msg × Bool) :=
  let up := atomMsg upMsg .getM (.home 0)
  let here := atomMsg upMsg .upg (.die 0)
  let home := atomMsg homeMsg .getM (.home 0)
  let s2 := posted here [(key (.die 0) (.l1 1), ⟨.w, 1, 0⟩), (key (.die 0) (.l1 2), ⟨.s, 0, 0⟩)] [] []
  let s3 := posted here [] [] []
  let s4 := posted here [(key (.stk 0) (.die 0), ⟨.m, wholeLine, 0⟩)] (whole (.die 0)) []
  let s5 := posted home [] [] []
  [(posted up [] [] [], up, decide (up.dst ≠ .home 0 ∧ (parentNode (.die 0) 0x20000).isSome = true)),
    (s2, here, (holders s2 (.die 0) loneTag 0x400).length == 2),
    (s3, here, decide (holders s3 (.die 0) loneTag 0x400 = [] ∧ siteReady s3 (.die 0) loneTag 0x400 = false ∧ flushOut s3 (.die 0) loneTag 0x400 = false)),
    (s4, here, decide (holders s4 (.die 0) loneTag 0x400 = [] ∧ (dirAt s4 (.stk 0) loneTag 0x400 (.die 0)).st = .m) && ((List.range 32).all fun i => usable s4 (.die 0) loneTag (0x20000 + 4 * i)) &&
      (cwAt s4 (.die 0) loneTag 0x20000).any (fun c => !c.stale && !c.poison)),
    (s5, home, decide (holders s5 (.home 0) loneTag 0x400 = [] ∧ homeRefuses (without s5 home) (.home 0) home (atomReq (.home 0)) = false ∧
      (homeWord (without s5 home) loneTag 0x20000).1 = some (0, false)))]

theorem witness_RequestMessages_atoms : ∀ e ∈ atomCases, Handles e.1 0 e.2.1 false (without e.1 e.2.1) ∧ e.2.2 = true := by
  intro e h
  simp only [atomCases, List.mem_cons, List.not_mem_nil, or_false] at h
  rcases h with rfl | rfl | rfl | rfl | rfl <;> exact handles (by decide +kernel)

/-- A refusal of a busy line; one by translation, of a read that a die has asked for; an acknowledgement; a request put aside. -/
def refusal (reason : Nat) (n p : Node) : Msg := { mkMsg .nack p n loneTag 0x400 with req := .getS, reason }
def refusedRead : State := posted (refusal 1 (.die 0) (.stk 0)) [] [] [asksUp (.die 0) (upMsg .getS) []]

theorem witness_RequestMessages_refusals :
    (Handles (posted (refusal 0 (.l1 0) (.die 0)) [] [] []) 0 (refusal 0 (.l1 0) (.die 0)) false
        (without (posted (refusal 0 (.l1 0) (.die 0)) [] [] []) (refusal 0 (.l1 0) (.die 0))) ∧
      decide ((parentNode (.l1 0) 0x20000).isSome = true) = true) ∧
    (Handles refusedRead 0 (refusal 1 (.die 0) (.stk 0)) false (without refusedRead (refusal 1 (.die 0) (.stk 0))) ∧
      (txnAt refusedRead (.die 0) loneTag 0x400 false).any (fun t => t.up) = true) ∧
    ({ lone nopI with nacked := [upMsg .getS] } : State).nacked[0]? = some (upMsg .getS) ∧
    Handles (posted (downMsg .writeAck) [] [] []) 0 (downMsg .writeAck) false (without (posted (downMsg .writeAck) [] [] []) (downMsg .writeAck)) :=
  ⟨handles (by decide +kernel), handles (by decide +kernel), rfl, (handles (p := true) (by decide +kernel)).1⟩

/-- A superblock whose way a stack may free, and one of which it has a line. -/
theorem witness_RequestMessages_way :
    ((List.range 4).all fun i => !holdsLine (lone nopI) (.stk 0) loneTag (4 * 0x100 + i)) = true ∧ (lone nopI).txns = [] ∧
    holdsLine (posted (upMsg .getS) [] (whole (.stk 0)) []) (.stk 0) loneTag (4 * 0x100) = true := by decide +kernel

/-- A stack whose set of 0x20000 has 15 and 16 superblocks in use, one line of the oldest there; a die whose directory set has 16 and 17
lines. -/
def usedStack (n : Nat) : State :=
  { lone nopI with
    lru := (List.range n).map fun i => (0, loneTag, 2 ^ 14 * (i + 1) + (0x100 ^^^ (i + 1))), caches := [(⟨.stk 0, loneTag, 512 * 0x4101⟩, clean 7)] }
def usedDir (n : Nat) : State :=
  { lone nopI with dirs := (List.range n).map fun i => (⟨.die 0, loneTag, 0x400 + 8192 * i, .l1 0⟩, ⟨.s, 0, 0⟩) }
def stackMates (s : State) : List (Nat × AsidTag × Nat) :=
  (s.lru.filter fun e => e ≠ (0, loneTag, 0x100)).filter fun e => e.1 = 0 && stkSet e.2.2 = stkSet 0x100

theorem witness_RequestMessages_room :
    (∀ k, (upMsg .getS).dst ≠ .stk k) ∧ (stackMates (usedStack 15)).length < 16 - kvGet (usedStack 15).deadWays (.stk 0, stkSet 0x100) 0 ∧
    16 ≤ (stackMates (usedStack 16)).length ∧ (∀ e ∈ stackMates (usedStack 16), ntBlock (usedStack 16) (.stk 0) e.2.1 e.2.2 = false) ∧
    (stackMates (usedStack 16)).head? = some (0, loneTag, 0x4101) ∧ holdsLine (usedStack 16) (.stk 0) loneTag (4 * 0x4101) = true ∧
    (dirLines (usedDir 16) (.die 0) 8192 (0x400 % 8192)).length = 16 ∧ dirSets (.die 0) = some 8192 ∧
    ((dirLines (usedDir 17) (.die 0) 8192 (0x400 % 8192)).filter fun e => !evictsLine (usedDir 17) (.die 0) e.1 e.2).length = 17 := by
  refine ⟨fun k h => ?_, by decide +kernel⟩
  cases h

/-- What a node is asked from above: for its dirty words, for its line, to drop words, with children of its own that have them or without;
an eviction of its own. -/
def askedCases : List (State × Msg × Bool) :=
  let kid : Kv DKey DRec := [(key (.die 0) (.l1 1), ⟨.w, 1, 0⟩)]
  let own : Msg := { dieMsg .backInv with src := .die 0 }
  let near (k : MsgKind) (cs : Kv CKey CWord) : State × Msg × Bool :=
    let s := posted (downMsg k) [] cs []
    (s, downMsg k, decide (kids s (.l1 0) loneTag 0x400 = [] ∧ (downMsg k).src ≠ (downMsg k).dst ∧ (dirtyWords s (.l1 0) loneTag 0x400 = [] ↔ cs = [])))
  let far (k : MsgKind) : State × Msg × Bool :=
    let s := posted (dieMsg k) kid [] []
    (s, dieMsg k, decide (((kids s (.die 0) loneTag 0x400).filter fun h => h.2.dr ≠ 0 && registered h.2 &&& 1 ≠ 0).map (·.1) = [.l1 1]))
  let drop : Msg := { downMsg .drop with mask := 1 }
  [near .fwdS (dirtyAt (.l1 0)), far .fwdS, near .fwdM (dirtyAt (.l1 0)), near .fwdM [], near .backInv (dirtyAt (.l1 0)), near .backInv [], far .fwdM,
    far .backInv, (posted own [] (dirtyAt (.die 0)) [], own, (parentNode (.die 0) 0x20000).isSome),
    (posted drop [] (dirtyAt (.l1 0)) [], drop, true), far .drop]

theorem witness_AnswerMessages_asked : ∀ e ∈ askedCases, Handles e.1 0 e.2.1 false (without e.1 e.2.1) ∧ e.2.2 = true := by
  intro e h
  simp only [askedCases, List.mem_cons, List.not_mem_nil, or_false] at h
  rcases h with rfl | rfl | rfl | rfl | rfl | rfl | rfl | rfl | rfl | rfl | rfl <;> exact handles (by decide +kernel)

def dataMsg : Msg := { dieMsg .dataC with words := [⟨0, 7, false⟩] }
def answerMsg (k : MsgKind) (dst : Node) : Msg := { mkMsg k (.l1 1) dst loneTag 0x400 with mask := 1, words := if k = .dataD then [⟨0, 7, false⟩] else [] }
/-- A transaction of a request of cluster 0, or of the stack's, that waits for the L1 of cluster 1 and others. -/
def waiting (of : MsgKind) (rest : List Node) : Txn := ⟨.die 0, if fromAbove of then dieMsg of else upMsg of, .l1 1 :: rest, false, [], [], 0⟩
def answerS (k of : MsgKind) (rest : List Node) : State := posted (answerMsg k (.die 0)) [(key (.die 0) (.l1 1), ⟨.w, 1, 0⟩)] [] [waiting of rest]
/-- The same at the home, of a claim of the stack's. -/
def homeAnswer : Msg := { answerMsg .invAck (.home 0) with src := .stk 1 }
def homeAnswerS : State := posted homeAnswer [(key (.home 0) (.stk 1), ⟨.w, 1, 0⟩)] [] [⟨.home 0, homeMsg .getW, [.stk 1], false, [], [], 0⟩]

/-- Data for a die that nothing waits for, and that a read waits for; the answers to each kind of transaction. -/
theorem witness_AnswerMessages_answers :
    (Handles (posted dataMsg [] [] []) 0 dataMsg false (without (posted dataMsg [] [] []) dataMsg) ∧
      decide (txnAt (posted dataMsg [] [] []) (.die 0) loneTag 0x400 false = none ∧ cwAt (posted dataMsg [] [] []) (.die 0) loneTag 0x20000 = none) = true) ∧
    (Handles (posted dataMsg [] [] [asksUp (.die 0) (upMsg .getS) []]) 0 dataMsg false (without (posted dataMsg [] [] [asksUp (.die 0) (upMsg .getS) []]) dataMsg) ∧
      decide (txnAt (posted dataMsg [] [] [asksUp (.die 0) (upMsg .getS) []]) (.die 0) loneTag 0x400 false = some (asksUp (.die 0) (upMsg .getS) [])) = true) ∧
    (∀ e ∈ [(MsgKind.invAck, MsgKind.getW, [Node.l1 2]), (.invAck, .wbW, [.l1 2]), (.invAck, .drop, [.l1 2]), (.invAck, .getM, [.l1 2]),
        (.invAck, .fwdM, [.l1 2]), (.invAck, .backInv, [.l1 2]), (.dataD, .getS, [.l1 2]), (.dataD, .getS, []), (.dataD, .getM, []), (.dataD, .fwdM, [])],
      Handles (answerS e.1 e.2.1 e.2.2) 0 (answerMsg e.1 (.die 0)) false (without (answerS e.1 e.2.1 e.2.2) (answerMsg e.1 (.die 0))) ∧
      decide (awaitedBy (answerS e.1 e.2.1 e.2.2) (.die 0) loneTag 0x400 (.l1 1) = some (waiting e.2.1 e.2.2) ∧ (.l1 1 :: e.2.2).erase (Node.l1 1) = e.2.2) = true) ∧
    Handles homeAnswerS 0 homeAnswer false (without homeAnswerS homeAnswer) ∧
      decide (awaitedBy homeAnswerS (.home 0) loneTag 0x400 (.stk 1) = some ⟨.home 0, homeMsg .getW, [.stk 1], false, [], [], 0⟩) = true := by
  refine ⟨handles (by decide +kernel), handles (by decide +kernel), ?_, handles (by decide +kernel)⟩
  intro e h
  simp only [List.mem_cons, List.not_mem_nil, or_false] at h
  rcases h with rfl | rfl | rfl | rfl | rfl | rfl | rfl | rfl | rfl | rfl <;> exact handles (by decide +kernel)

/-! Copies and matrix operations under way. -/

/-- The lone machine with copy operation 50 of its team, its slices gathered or not, its moves. -/
def copying (op : CopyOp) : State := { cacheBank (dataPage (lone nopI)) with copies := [(50, op)] }
def scaleSlice : Slice := { sliceOf 0 with kind := .scale }
def emptySlice : Slice := { sliceOf 0 with empty := true }
def moving : CopyOp :=
  { copyOf [sliceOf 0] with gathered := true, moves := [⟨0, [(0x20000, 0)], [⟨0, some 0, 0x8000⟩], false, []⟩] }
def movingS : State := holding (.l1 0) 0x20000 (clean 7) (copying moving)
def doneOp : CopyOp := { copyOf [sliceOf 0] with gathered := true }

/-- Slices that differ and that agree, whose checks pass and fail; a move whose word the L1 gives; nothing left. -/
theorem witness_CopyEvents_engine :
    (∃ tm x, kvFind (copying (copyOf [sliceOf 0])).copies 50 = some (copyOf [sliceOf 0]) ∧ findTeam (copying (copyOf [sliceOf 0])) 0 = some tm ∧
      tm.waves = [0] ∧ findWave (copying (copyOf [sliceOf 0])) 0 = some x ∧ x.num = (sliceOf 0).wave) ∧
    ¬ ((scaleSlice.w1 = (sliceOf 1).w1) ∧ (scaleSlice.kind = .scale ↔ (sliceOf 1).kind = .scale)) ∧
    (∃ tm, findTeam (copying (copyOf [emptySlice])) 0 = some tm ∧
      sliceDetails (copying (copyOf [emptySlice])) { copyOf [emptySlice] with gathered := true } tm emptySlice = []) ∧
    (∃ tm, findTeam (copying (copyOf [sliceOf 0])) 0 = some tm ∧
      sliceDetails (copying (copyOf [sliceOf 0])) { copyOf [sliceOf 0] with gathered := true } tm (sliceOf 0) ≠ []) ∧
    (moving.gathered = true ∧ ((moving.slices.getD 0 default).kind = .g2l) ∧ l1Ways movingS 0 ≠ 0 ∧ shooting movingS moving.tag.asid 0x20000 = false ∧
      (match translate movingS moving.tag 0x20000 .load false with
        | (.ok _ _, t) => decide (t = movingS)
        | _ => false) = true ∧ cachedWords movingS (engineAsker moving .load) [0x20000] = some [(7, false)]) ∧
    (kvFind (copying doneOp).copies 50 = some doneOp ∧ doneOp.moves = [] ∧ copyOutstanding (copying doneOp) 50 = false ∧
      attachedTo (copying doneOp) 0 1 = false ∧ ∀ sl ∈ doneOp.slices, sl.tok = 2) :=
  ⟨⟨_, _, rfl, rfl, rfl, rfl, rfl⟩, by decide, ⟨_, rfl, by decide +kernel⟩, ⟨_, rfl, by decide +kernel⟩, by decide +kernel, by decide +kernel⟩

/-- An inbound write of one word to the team's scratch, of its tag or of a stale one, or past the local store; a bank of mode `m`. -/
def writing (tag : Option (BitVec 12)) (multi : Bool) (a : Nat) : Inbound := ⟨50, 0, ⟨0, tag, 0⟩, multi, [(a, 7, false)], 0x800, none⟩
def arrivingS (i : Inbound) (m : BankMode) (copying' : Bool) : State :=
  { putBank (copying doneOp) 0 1 { Bank.clear with mode := m, owner := some 0, copying := copying' } with inbound := [i] }
/-- Port 0 with a write not acknowledged and a read not answered, which a move waits for. -/
def gettingOp : CopyOp := { doneOp with moves := [⟨0, [(0x20000, 0x8000)], [], false, [.asked]⟩] }
/-- A write of a team that lives on the cluster, to a bank of another. -/
def strange : State :=
  let s := arrivingS (writing (some 1) false 0x8000) .scr false
  { s with teams := s.teams ++ [(7, { loneTeam with allocTag := 1, waves := [] })] }
/-- A peer copy under way whose port is down. -/
def peerOp : CopyOp := { moving with slices := [{ sliceOf 0 with kind := .peerPut }] }
def ported : State :=
  putPort (copying gettingOp) 0 { Port.clear with trained := true, bound := true, puts := [(50, 0x20000)], gets := [(50, 0x20000, 0x8000)] }

theorem witness_CopyEvents_refused :
    (strange.inbound[0]? = some (writing (some 1) false 0x8000) ∧ kvFind strange.copies 50 = some doneOp ∧
      (strange.teams.any fun e => e.2.cl = 0 && !e.2.task && e.2.allocTag = 1) = true ∧ (bankAt strange 0 1).copying = false ∧
      ((bankAt strange 0 1).owner.bind fun o => (findTeam strange o).map (·.allocTag)) = some 0 ∧
      inboundBlocked (strange.inbound.take 0) (writing (some 1) false 0x8000) = false) ∧
    (kvFind (copying peerOp).copies 50 = some peerOp ∧ peerOp.gathered = true ∧ peerOp.moves ≠ [] ∧
      (peerOp.slices.getD 0 default).kind = .peerPut ∧ (portAt (copying peerOp) (field (peerOp.slices.getD 0 default).w1 0 3).toNat).up = false) := by
  decide +kernel

/-- Writes that land; of a team that is gone; that lie past the local store, in a bank of another owner's mode, in one being copied. -/
theorem witness_CopyEvents_arrivals :
    (∀ e ∈ [(writing (some 0) false 0x8000, BankMode.scr, false), (writing none false 0x8000, .scr, false), (writing (some 1) false 0x8000, .scr, false),
        (writing (some 0) false 0x180000, .scr, false), (writing (some 0) true 0x8000, .reg, false), (writing (some 0) false 0x10000, .scr, false),
        (writing (some 0) false 0x8000, .scr, true)],
      (arrivingS e.1 e.2.1 e.2.2).inbound[0]? = some e.1 ∧ kvFind (arrivingS e.1 e.2.1 e.2.2).copies 50 = some doneOp ∧
      inboundBlocked ((arrivingS e.1 e.2.1 e.2.2).inbound.take 0) e.1 = false ∧ memWf (arrivingS e.1 e.2.1 e.2.2).lstore = true ∧
      kvGet doneOp.cover (0, 0x8000) 0 = 0) ∧
    ((bankAt (arrivingS (writing (some 0) false 0x8000) .scr false) 0 1).owner.bind fun o =>
      (findTeam (arrivingS (writing (some 0) false 0x8000) .scr false) o).map (·.allocTag)) = some 0 ∧
    (portAt ported 0).puts[0]? = some (50, 0x20000) ∧ (portAt ported 0).gets[0]? = some (50, 0x20000, 0x8000) ∧
    kvFind ported.copies 50 = some gettingOp ∧ awaitedWord gettingOp (0x20000, 0x8000) = some (0, 0) := by
  refine ⟨?_, by decide +kernel⟩
  intro e h
  simp only [List.mem_cons, List.not_mem_nil, or_false] at h
  rcases h with rfl | rfl | rfl | rfl | rfl | rfl | rfl <;> exact ⟨rfl, by decide +kernel⟩

/-- Four members of a column cohort, teams 0 to 3 on the four dies of a stack, with a joint operation each. -/
def member (j : Nat) : Team := { loneTeam with cl := 24 * j, cohort := some (0, j), waves := [], tiles := [0, 1] }
def part (fmt : Word) (j : Nat) : MatOp := { solo with team := j, cl := 24 * j, kind := .joint, fmt }
def joined (f : Nat → Word) : State :=
  { cohorted (lone nopI) with
    teams := (List.range 4).map fun j => (j, member j)
    mats := (List.range 4).map fun j => (40 + j, part (f j) j) }

/-- The members' words equal, and one different. -/
theorem witness_MatrixEvents_joint : ∀ f ∈ [(fun _ => (0x8800 : Word)), fun j => if j = 3 then 0x2200 else 0x8800],
    ((joined f).mats.map (·.1)).Nodup ∧ kvFind (joined f).mats 40 = some (part (f 0) 0) ∧ (part (f 0) 0).kind = .joint ∧
      (part (f 0) 0).formed = true ∧ (∀ m ∈ (joined f).mats, m.2.formed = true) ∧
      (jointGroup (joined f) (part (f 0) 0)).map (·.2) = (List.range 4).map (fun j => part (f j) j) ∧
      ∀ m ∈ jointGroup (joined f) (part (f 0) 0), m.2.compared = false ∧ m.2.empty = false ∧ m.2.attached = none := by
  intro f h
  simp only [List.mem_cons, List.not_mem_nil, or_false] at h
  rcases h with rfl | rfl <;> decide +kernel

/-- The members' words differ and one is attached; a member of the cohort has been killed. -/
def attachedJoint : State :=
  { joined fun j => if j = 3 then 0x2200 else 0x8800 with
    mats := (List.range 4).map fun j => (40 + j, { part (if j = 3 then 0x2200 else 0x8800) j with attached := if j = 1 then some 1 else none }) }
def brokenJoint : State :=
  let s := joined fun _ => 0x8800
  { s with launches := s.launches.map fun e => (e.1, { e.2 with killed := [(0, 3)] }) }

theorem witness_MatrixEvents_broken :
    (attachedJoint.mats.map (·.1)).Nodup ∧ kvFind attachedJoint.mats 40 = some (part 0x8800 0) ∧ (jointGroup attachedJoint (part 0x8800 0)).length = 4 ∧
    (∀ m ∈ attachedJoint.mats, m.2.formed = true ∧ m.2.compared = false ∧ m.2.empty = false) ∧
    (∃ m ∈ jointGroup attachedJoint (part 0x8800 0), m.2.attached ≠ none) ∧
    kvFind brokenJoint.mats 40 = some (part 0x8800 0) ∧ (part 0x8800 0).fault ≠ some divergedMark ∧ cohortBroken brokenJoint (part 0x8800 0) = true ∧
    (jointGroup brokenJoint (part 0x8800 0)).length = 4 ∧
    ∀ m ∈ jointGroup brokenJoint (part 0x8800 0), (findTeam brokenJoint m.2.team).any (fun tm => m.2.tok < tm.toks.length) = true := by decide +kernel

def startedOp : MatOp := { solo with started := true, result := [0, 1] }
def faultedOp : MatOp := { solo with fault := some 1 }

/-- A solo operation that may start; one that has started; one that will not run. -/
theorem witness_MatrixEvents_solo :
    (kvFind (matted solo (lone nopI)).mats 40 = some solo ∧ solo.kind = .solo ∧ mayStart (matted solo (lone nopI)) [(40, solo)] = true ∧
      scaleMode solo.fmt = 0 ∧ ∃ tm, findTeam (matted solo (lone nopI)) 0 = some tm) ∧
    (kvFind (matted startedOp (lone nopI)).mats 40 = some startedOp ∧ startedOp.fault = none ∧ startedOp.empty = false ∧ startedOp.started = true ∧
      startedOp.formed = true) ∧
    kvFind (matted faultedOp (lone nopI)).mats 40 = some faultedOp ∧ faultedOp.fault = some 1 ∧ 1 ≠ divergedMark :=
  ⟨⟨by decide +kernel, rfl, by decide +kernel, by decide, _, rfl⟩, by decide +kernel, by decide +kernel⟩

/-! Barriers and banks. -/

/-- The wave has arrived at the team's barrier. -/
def arrivedS : State := onTeam (onSlot (lone nopI) ⟨0, false⟩ fun sl => { sl with bar := some ⟨.team, none⟩ }) 0 fun t => { t with arrived := [(.team, 0)] }

theorem witness_Barriers_complete : (barList arrivedS)[0]? = some (0, .team) ∧ ∃ tm x, findTeam arrivedS 0 = some tm ∧ findWave arrivedS 0 = some x ∧
    tm.waves = [0] ∧ (BarId.team, x.num) ∈ tm.arrived ∧ x.saved = none ∧ (slotOf x false).bar = some ⟨.team, none⟩ :=
  ⟨by decide +kernel, _, _, rfl, rfl, by decide +kernel⟩

def changing (from' m : BankMode) : State :=
  { putBank (cacheBank (lone nopI)) 0 3 { Bank.clear with mode := from', owner := if from' = .cache then none else some 0 } with modeReqs := [(0, 3, m, 0)] }
def noSpares (m : BankMode) : State := { putBank (lone nopI) 0 47 { Bank.clear with mode := m } with spares := [(0, 0)] }
def copyingBank : State := putBank (lone nopI) 0 1 { Bank.clear with copying := true }
/-- A message, an engine's write and a port's last write that a link may fail. -/
def wroteOut : State := { ported with hostSees := [.unsupported, .peerWrite 0 1 0x20000 [7] false, .peerAck 0] }

def gaveOut : State := { ported with hostSees := [.peerData 0 [7] false, .unsupported] }

/-- Mode changes that may be made, one out of CACHE with a line in its way; a bank with a spare, ones without holders and spares; one being
copied; what a link carries. -/
theorem witness_BankEvents :
    (∀ e ∈ [(BankMode.scr, BankMode.fifo), (.cache, .free)], (changing e.1 e.2).modeReqs[0]? = some (0, 3, e.2, 0) ∧ (bankAt (changing e.1 e.2) 0 3).dead = false ∧
      modeFits (bankAt (changing e.1 e.2) 0 3).mode e.2 = true ∧ (bankAt (changing e.1 e.2) 0 3).copying = false ∧ bankQuiet (changing e.1 e.2) 0 3 = true ∧
      (bankAt (changing e.1 e.2) 0 3).mode = e.1 ∧ (changing e.1 e.2).l1ways = [⟨0, 3, loneTag, 0x100⟩]) ∧
    ((bankAt (lone nopI) 0 47).dead = false ∧ (bankAt (lone nopI) 0 47).copying = false ∧ sparesAt (lone nopI) 0 ≠ 0 ∧
      (bankAt (lone nopI) 0 47).retiring = false) ∧
    (∀ m ∈ [BankMode.scr, .cache], sparesAt (noSpares m) 0 = 0 ∧ bankHolders (noSpares m) 0 47 = [] ∧ (bankAt (noSpares m) 0 47).mode = m) ∧
    (bankAt copyingBank 0 1).copying = true ∧ (posted (upMsg .getS) [] [] []).net[0]? = some (upMsg .getS) ∧
    (arrivingS (writing none false 0x8000) .scr false).inbound[0]? = some (writing none false 0x8000) ∧
    ((portAt wroteOut 0).puts ≠ [] ∧ wroteOut.hostSees = [.unsupported] ++ .peerWrite 0 1 0x20000 [7] false :: [.peerAck 0] ∧
      (portAt wroteOut 7).puts = []) ∧
    gaveOut.hostSees = [] ++ .peerData 0 [7] false :: [.unsupported] := by decide +kernel

/-- GO of the command block: an idle block whose operation ends at once, one whose page has a request on its way, a running one. -/
def goS : State := { State.reset with tlbCmd := { State.reset.tlbCmd with asid := 1, va := 0x20000 } }
def goBusy : State := { goS with tlbCmd := { goS.tlbCmd with busy := true } }

def pageResult : PageOp → Option Nat
  | .result r _ => some r
  | .wait .. => none

theorem witness_CommandBlock :
    goS.d3hot = false ∧ goBusy.tlbCmd.busy = true ∧ goS.tlbCmd.busy = false ∧ goS.tlbCmd.size ≠ 3 ∧
    pageResult (mapPage goS ⟨1, 0⟩ 0x20000 goS.tlbCmd.pte 0 false) = some 3 ∧ pageResult (unmapPage goS ⟨1, 0⟩ 0x20000 0) = some 2 ∧
    pageResult (invalPage goS ⟨1, 0⟩ 0x20000 0) = some 0 ∧ (retireAsid goS 1).isSome = true ∧ (retireAsid (requested goS) 1).isSome = false ∧
    pageResult (invalPage (requested goS) ⟨1, 0⟩ 0 0) = none ∧ canonical 0x20000 = true := by decide +kernel

/-! Launches and teams. -/

/-- A code object in the page at 0x10000: its header and one descriptor, of a kernel that starts at 0x10200. -/
def codeText (m : Mem) : Mem :=
  let put (m : Mem) (a : Nat) (w : Word) : Mem := memPutWord m a w
  put (put (put (put (put (put (put (put m 0x10000 0x314F4347) 0x10004 0) 0x10008 1) 0x10010 0x100) 0x10014 0x1000) 0x10100 0x10200) 0x10108 0x20800) 0x1010C 0x04000000

/-- The bytes of a launch record: KDESC, the ASID, one team, and the dies it may go to. -/
def recordBytes (kdesc : Nat) (affin : Nat) : List Byte :=
  [kdesc, 0, 1, 0, 1, 1, 1, affin].flatMap (bytesLe 4) ++ List.replicate 96 0

def offered (kdesc : Nat) : State :=
  { lone nopI with
    dram := codeText [], codes := [⟨0, 0x10000, 0x1000, 1, false⟩], icache := []
    devq := [⟨recordBytes kdesc 1, loneTag, false⟩] }

/-- The check of the one record that is offered. -/
def checked (s : State) : Nat × Option Kernel × State :=
  let ws := wordsOf (recordBytes 0 1) 32
  match s.devq with
  | [r] => let ws := wordsOf r.bytes 32
           checkRecord { s with serial := s.serial + 1 } r.tag ws { launchRec ws with asid := r.tag.asid } s.serial
  | _ => checkRecord s loneTag ws (launchRec ws) 0

/-- A record that passes its checks, and one without a kernel at its KDESC. -/
theorem witness_LaunchEvents_accept : ∀ e ∈ [(0x10100, 0), (0x10200, 3)],
    accepting (offered e.1) = true ∧ (∀ q < 64, queueOffers (offered e.1) q = false) ∧ (offered e.1).devq.length = 1 ∧
      (checked (offered e.1)).1 = e.2 ∧ ((checked (offered e.1)).2.1.isSome = decide (e.2 = 0)) ∧
      crecQuiet (offered e.1) loneTag (launchRec (wordsOf (recordBytes e.1 1) 32)) = true := by
  intro e h
  simp only [List.mem_cons, List.not_mem_nil, or_false] at h
  rcases h with rfl | rfl <;> decide +kernel

/-- A record of no team, one whose only die is fenced, and one that passes, each with its kernel read; and a range without a code header. -/
def shapeless : State := { offered 0x10100 with devq := [⟨[0x10100, 0, 1, 0, 0, 1, 1, 1].flatMap (bytesLe 4) ++ List.replicate 96 0, loneTag, false⟩] }
def fencedDie : State := { offered 0x10100 with dfence := 1 }
def headless : State := { offered 0x10100 with dram := memPutWord (offered 0x10100).dram 0x10000 0 }

theorem witness_LaunchEvents_checks :
    ((checked shapeless).1 = 2 ∧ (checked fencedDie).1 = 1 ∧ (checked (offered 0x10100)).1 = 0 ∧ (checked headless).1 = 3) ∧
    (∀ e ∈ [shapeless, fencedDie, offered 0x10100], (readKernel e loneTag 0x10100).1.isSome = true) ∧
    (codeRange headless 1 0x10100).isSome = true ∧ (readTexts headless loneTag 0x10000 16).1.isSome = true ∧
    (readTexts (offered 0x10100) loneTag 0x10100 64).1.isSome = true ∧
    (readKernel (offered 0x20000) loneTag 0x20000).1.isSome = false ∧ codeRange (offered 0x20000) 1 0x20000 = none := by decide +kernel

/-- A launch that waits for the words of `n` units' bits, of which each lies in its page. -/
def depending (a : DWord) (n : Nat) : Launch :=
  { loneLaunch with
    rcd := { loneLaunch.rcd with dep := true, dbmp := a, da := 0x8000, dw := 1, dn := 0x10000 }
    total := n, ranges := [⟨0, [(0, n)]⟩] }
def bitmapS (a : DWord) (n : Nat) : State := { dataPage (lone nopI) with launches := [(0, depending a n)] }
def bitmapWords (a : DWord) (n : Nat) : List Nat :=
  let la := depending a n
  (la.ranges.flatMap (·.runs) ++ la.global).flatMap fun r => (List.range r.2).flatMap fun i =>
    (unitMembers la.ker (r.1 + i)).flatMap (depWords la.rcd)
def readKind (s : State) (va : Nat) : Option Bool × State := match readHome s loneTag va .load false with
  | (.word _, t) => (some true, t)
  | (.refused k, t) => (some false, germinalRecord t loneTag va k)
  | (_, t) => (none, t)

/-- The same once the home's cache holds the word's line. -/
def bitmapHeld : State := (readKind (bitmapS 0x20000 1) 0x20000).2

/-- Bitmaps whose one word can be read, and is refused, and of two words refused in two pages; a launch that is over. -/
theorem witness_LaunchEvents_bitmap :
    (findLaunch bitmapHeld 0 = some (depending 0x20000 1) ∧ (depending 0x20000 1).rcd.dep = true ∧ bitmapHeld.gerLost = false ∧
      bitmapWords 0x20000 1 = [0x20000] ∧ readKind bitmapHeld 0x20000 = (some true, bitmapHeld)) ∧
    (bitmapWords 0x800000 1 = [0x800000] ∧ (readKind (bitmapS 0x800000 1) 0x800000).1 = some false) ∧
    (bitmapWords 0x800000 2 = [0x800000, 0x801000] ∧ (readKind (readKind (bitmapS 0x800000 2) 0x800000).2 0x801000).1 = some false) ∧
    (launchOver { lone nopI with teams := [], waves := [] } 0 { loneLaunch with ended := 1 } = true ∧
      crecQuiet { lone nopI with teams := [], waves := [] } loneTag loneLaunch.rcd = true) := by decide +kernel

/-- A launch with one team to place, and nothing resident. -/
def placingS : State :=
  { lone nopI with teams := [], waves := [], banks := [], launches := [(0, { loneLaunch with ranges := [⟨0, [(0, 1)]⟩] })] }

/-- A team that has been asked to leave, at its boundary. -/
def leavingS : State := { onTeam (unfetched loneHeader) 0 fun t => { t with leaving := true } with dram := [] }
/-- The image of that team, in slot 0. -/
def savedS : State := (saveTeam leavingS 0).getD leavingS

theorem witness_TeamEvents_place : (findLaunch placingS 0).isSome = true ∧ firstServed placingS = some (.unit 0) ∧ (placeNext placingS 0).isSome = true := by
  decide +kernel

theorem witness_TeamEvents_leave : ∃ tm, findTeam leavingS 0 = some tm ∧ leavingGroup leavingS 0 = some [0] ∧ leavingS.gerLost = false ∧
    findTeam (withdrawJoints leavingS tm) 0 = some tm ∧ atBoundary (withdrawJoints leavingS tm) 0 tm = true ∧
    wavesEnded (withdrawJoints leavingS tm) tm = false ∧ (releaseTeam (withdrawJoints leavingS tm) 0 tm).1 = true ∧
    (saveTeam (releaseTeam (withdrawJoints leavingS tm) 0 tm).2 0).isSome = true :=
  ⟨_, rfl, by decide +kernel⟩

theorem witness_TeamEvents_resume : ∃ n im, kvFind savedS.images n = some im ∧ im.team.task = false ∧ im.team.cohort = none ∧ im.crcOk = true ∧
    findTeam savedS im.tid = none ∧ (resumeNow savedS n).isSome = true ∧ firstServed savedS = some (.image n) :=
  ⟨0, (savedS.images.headD default).2, by decide +kernel⟩

/-- The team's only wave has ended. -/
def overS : State := loneW nopI fun x => { x with alive := 0, a := Slot.idle }

theorem witness_TeamEvents_retire : ∃ tm, findTeam overS 0 = some tm ∧ tm.task = false ∧ teamOver overS 0 tm = true ∧
    (releaseTeam overS 0 tm).1 = true ∧ (findLaunch (releaseTeam overS 0 tm).2 tm.launch).any (fun la => la.rcd.cbmp = 0) = true :=
  ⟨_, rfl, by decide +kernel⟩

/-- A record waits in the queue of core 0, whose launch has a task slot there, and none of its teams is resident. -/
def taskS : State :=
  let l := { loneLaunch with ker := { loneLaunch.ker with tslot := 1, entries := [0x10200] }, taskCl := [(0, ⟨0, [0, 12, 24, 36]⟩)] }
  { lone nopI with teams := [], waves := [], launches := [(0, l)], tasks := [(0, ⟨0, [⟨0x20000, 5, 0⟩], 0, 0⟩)] }

theorem witness_TeamEvents_task : ∃ q la res, kvFind taskS.tasks 0 = some q ∧ q.chip = [] ++ [⟨0x20000, 5, 0⟩] ∧ findLaunch taskS q.launch = some la ∧
    kvFind la.taskCl (0 / 4) = some res ∧ freeTaskSlot taskS 0 res = some (0, 0) ∧ (spillIndices la 1).isSome = true ∧
    (taskS.ctx.busy && taskS.ctx.op = 1) = false ∧ taskS.d3hot = false ∧ la.ker.entries[(0 : Word).toNat]? = some 0x10200 ∧ taskS.images = [] :=
  ⟨_, _, _, rfl, rfl, rfl, rfl, by decide +kernel⟩

/-! Fences, parts, the host. -/

/-- A rebuild of stack 0's directory, or of the homes' for it, with one record to walk, of one dirty word. -/
def rebuilding (host : Bool) (walks : List Nat) (next : Nat) : State :=
  { dataPage (lone nopI) with
    rebuilds := [(0, { Rebuild.clear with pend := true, host, next, dies := [0] })], stackWalks := walks
    dirs := [if walks = [] then (key (.stk 0) (.die 0), ⟨.w, 1, 0⟩) else (key (.home 0) (.stk 0), ⟨.w, 1, 0⟩)]
    lru := [(0, loneTag, 0x100)] }
def toWalk (s : State) : List (DKey × DRec) := s.dirs.filter fun e => (fencedChildren s e.1.node).any fun c => c.1 = 0 && c.2 = e.1.child
def isOk : Xlate → Bool
  | .ok _ _ => true
  | _ => false
def noStandby : State := { State.reset with boot := 5, gstby := none }

/-- A die, a stack and a home to fence, Germinal's own stack with a standby and without, and its standby's; walks of the hardware's and of
the host's, with an entry in the batch and one outside it; a record that a walk visits; a standby to choose. -/
theorem witness_FenceEvents :
    dieFenced State.reset 23 = false ∧ State.reset.fencedStacks.contains 0 = false ∧ homeFenced State.reset 11 = false ∧ State.reset.gerLost = false ∧
    State.reset.txns = [] ∧ State.reset.gbase = 0 ∧ State.reset.gstby = some 3 ∧ ({ State.reset with gstby := none } : State).gstby = none ∧
    (let s := rebuilding false [] 0
     (rebuildAt s 0).pend = true ∧ (rebuildAt s 0).host = false ∧ s.stackWalks.contains 0 = false ∧ toWalk s = [(key (.stk 0) (.die 0), ⟨.w, 1, 0⟩)]) ∧
    (let s := rebuilding false [0] 0
     (rebuildAt s 0).pend = true ∧ s.stackWalks.contains 0 = true ∧ toWalk s = [(key (.home 0) (.stk 0), ⟨.w, 1, 0⟩)]) ∧
    (let s := rebuilding true [] 0
     (rebuildAt s 0).pend = true ∧ (rebuildAt s 0).host = true ∧ (rebuildAt s 0).busy = false ∧ s.d3hot = false ∧ 0 + 65536 < 2 ^ 20 ∧
      entryIndex s (.stk 0) loneTag 0x400 < 65536) ∧
    (65536 ≤ entryIndex (rebuilding true [] 0) (.stk 0) loneTag 0x4400) ∧
    ((rebuildAt (rebuilding true [] (2 ^ 20 - 65536)) 0).next + 65536 = 2 ^ 20) ∧
    dirtied (dirAt (rebuilding false [] 0) (.stk 0) loneTag 0x400 (.die 0)) = 1#32 <<< 0 ∧
    isOk (translate (putDir (rebuilding false [] 0) (.stk 0) loneTag 0x400 (.die 0) ⟨.i, 0, 0⟩) loneTag 0x20000 .load true).1 = true ∧
    (∀ b ∈ [4, 5], ∀ g ∈ [none, some 3], let s : State := { State.reset with boot := b, gstby := g }
      s.gerLost = false ∧ s.gbase = 0 ∧ s.gstby = g ∧ s.fencedStacks.contains 3 = false) ∧
    noStandby.boot = 5 ∧ noStandby.gerLost = false ∧ newStandby noStandby noStandby.gbase = some 3 := by decide +kernel

def portUp : State :=
  putPort (copying { doneOp with slices := [{ sliceOf 0 with kind := .peerPut, w1 := 0 }] }) 0 { Port.clear with trained := true, bound := true }
def portOff (trained bound : Bool) : Port := { Port.clear with pen := true, trained, bound }

/-- Bonds whole and half; vectors pending and not; ports that are enabled, trained, bound; one up with a copy. -/
theorem witness_PartEvents :
    (1500 ≤ (powerAt State.reset 23).dclk.toNat ∧ 2000 ≤ (powerAt State.reset 23).dclk.toNat) ∧ bondAt State.reset 143 2 = .whole ∧
    bondAt { State.reset with bonds := [((0, 0), .half)] } 0 0 = .half ∧
    (State.reset.d3hot = false ∧ (0x80023F : BitVec 24).getLsbD 23 = true ∧ (field (0x80023F : BitVec 24) 0 10).toNat = 575) ∧
    (vectorAt State.reset 63).pend = false ∧ (vectorAt { State.reset with vectors := [(0, ⟨0, 0, true, true⟩)] } 0).pend = true ∧
    (∀ e ∈ [(false, true), (false, false), (true, false)], (portAt (putPort State.reset 7 (portOff e.1 e.2)) 7).pen = true ∧
      (portAt (putPort State.reset 7 (portOff e.1 e.2)) 7).up = false) ∧
    (portAt portUp 0).up = true ∧ portUp.d3hot = false ∧ (0 : DWord).getLsbD 16 = false ∧
    usesPort 0 { doneOp with slices := [{ sliceOf 0 with kind := .peerPut, w1 := 0 }] } = true := by decide +kernel

/-- The BAR2 window open on the page at 0x20000 of ASID 1; port 0 up and bound to that ASID, port 2 not trained. -/
def windowed : State :=
  { putPort (dataPage (lone nopI)) 0 { Port.clear with trained := true, bound := true, inAsid := 1 } with w2en := true, w2asid := 1 }
def inD3 : State := { State.reset with d3hot := true }

theorem plainPlace {s : State} {pa : Nat} (h : s.service.eptb = 0) : PlainPlace s pa := .inl h

/-- An open window with a readable word and a refused one; a bound port; D3hot; sizes and places that BAR0 does not have. -/
theorem witness_HostAccesses :
    (windowed.w2en = true ∧ windowed.d3hot = false ∧ windowVa windowed 0x20000 = 0x20000 ∧ canonical 0x20000 = true ∧
      spanQuiet windowed (tagNow windowed windowed.w2asid) 0x20000 4 = true) ∧
    (readBytes windowed (tagNow windowed windowed.w2asid) 0x20000 128).1.refused = none ∧
    (readBytes windowed (tagNow windowed windowed.w2asid) 0x21000 4).1.refused.isSome = true ∧
    (match translate windowed (tagNow windowed windowed.w2asid) 0x20000 .store false with
      | (.ok p _, t) => decide (t = windowed ∧ p.layout ≠ 4 ∧ t.service.eptb = 0)
      | _ => false) = true ∧ memWf windowed.dram = true ∧
    ((portAt windowed 0).up = true ∧ (portAt windowed 0).bound = true ∧ (portAt windowed 1).up = false) ∧
    (readSpan windowed (tagNow windowed 1) 0x20000 2).1.refused = none ∧
    (writeBytes windowed (tagNow windowed 1) 0x20000 ((bytesLe 4 7).map some) false).1 = [] ∧
    (writeBytes windowed (tagNow windowed 1) 0x21000 ((bytesLe 4 7).map some) false).1 ≠ [] ∧
    State.reset.w2en = false ∧ inD3.d3hot = true ∧ ((2 : Nat) ≠ 4 ∧ (2 : Nat) ≠ 8) ∧ 0x310001 % 4 ≠ 0 ∧ State.reset.d3hot = false := by decide +kernel

def queueOn (head tail : Word) (log : BitVec 5) (en stop : Bool) : State :=
  putQueue State.reset 63 { HostQueue.clear with base := 0x1000, log, head, tail, en, stop }
def pfmS (recs : Nat) : State :=
  { putFaultBuf State.reset 11 { FaultBuf.clear with tail := BitVec.ofNat 12 recs } with service := { State.reset.service with pfm := true } }

/-- Tail writes at the ring's size and one past it, and below the count; queues sound and not; HEAD at the count and one past it. -/
theorem witness_QueueRegisters :
    (let k := queueAt (queueOn 0 1 2 true false) 63; k.en = true ∧ k.stop = false ∧ (k.tail - k.head).toNat ≤ ((4 : Word) - k.head).toNat ∧ ((4 : Word) - k.head).toNat = 2 ^ k.log.toNat ∧
      2 ^ k.log.toNat < ((5 : Word) - k.head).toNat ∧ ((0 : Word) - k.head).toNat < (k.tail - k.head).toNat) ∧
    (queueOn 0 1 2 true false).d3hot = false ∧
    (queueAt (queueOn 0 0 16 false false) 63).log.toNat ∈ List.range' 1 16 ∧ (queueAt (queueOn 0 0 16 false false) 63).base.toNat % 4096 = 0 ∧
    (queueAt (queueOn 0 0 17 false false) 63).log.toNat ∉ List.range' 1 16 ∧
    (queueAt (queueOn 0 0 4 true true) 63).stop = true ∧
    ((pfmS 2).service.pfm = true ∧ ((2 : BitVec 12) - (faultBufAt (pfmS 2) 11).head).toNat = ((faultBufAt (pfmS 2) 11).tail - (faultBufAt (pfmS 2) 11).head).toNat ∧
      ((faultBufAt (pfmS 2) 11).tail - (faultBufAt (pfmS 2) 11).head).toNat < ((3 : BitVec 12) - (faultBufAt (pfmS 2) 11).head).toNat) := by decide +kernel

/-! Commands. -/

def im64 : Image := { (default : Image) with crcOk := true, size := 64, step := 1, slots := 1, tid := 9, foreign := true }
/-- The bytes of an image without a body. -/
def bytes64 : List Byte := (imageText State.reset im64).1

/-- Slot 0 of the context store holds that image; CVA lies in the page at 0x20000, which holds some bytes. -/
def storeS (bs : List Byte) : State :=
  { dataPage (lone nopI) with
    images := [(0, im64)], ctx := { State.reset.ctx with cva := 0x20000, casid := 1 }, dram := memWriteList [] 0x20000 bs }
def ctxBusy : State := { State.reset with ctx := { State.reset.ctx with busy := true } }

/-- A command that runs; none that runs, with a team resident and an image stored; export of an image without a body. -/
theorem witness_ContextCommands :
    (ctxBusy.ctx.busy = true ∧ ctxBusy.d3hot = false) ∧
    ((storeS []).ctx.busy = false ∧ (storeS []).patch.busy = false ∧ (storeS []).ctx.waiting = [] ∧ (storeS []).d3hot = false ∧
      (storeS []).gerLost = false ∧ ({ storeS [] with gerLost := true } : State).gerLost = true) ∧
    (kvFind (storeS []).images 0 = some im64 ∧ kvFind State.reset.images 0 = none ∧ (findTeam (storeS []) 9).isSome = false) ∧
    (∃ tm la, findTeam (storeS []) 0 = some tm ∧ findLaunch (storeS []) tm.launch = some la ∧ la.rcd.crec = (storeS []).ctx.lsel) ∧
    (spanQuiet (storeS []) (tagNow (storeS []) 1) 0x20000 64 = true ∧
      (writeBytes (imageText (storeS []) im64).2 (tagNow (storeS []) 1) 0x20000 ((imageText (storeS []) im64).1.map some) false).1 = []) :=
  ⟨⟨rfl, rfl⟩, by decide +kernel, by decide +kernel, ⟨_, _, rfl, rfl, rfl⟩, by decide +kernel⟩

/-- What an import reads at CVA. -/
def headerAt (bs : List Byte) : BytesRead := (readBytes (storeS bs) (tagNow (storeS bs) 1) 0x20000 64).1
def otherStep : List Byte := bytes64.set 15 0
def otherGen : List Byte := bytes64.set 0 1
def otherCrc : List Byte := bytes64.set 16 1

/-- Imports of another stepping, another generation, with a wrong CRC, and sound; the last has room. -/
theorem witness_ContextCommands_import :
    (∀ e ∈ [(otherStep, false, true, true), (otherGen, true, false, true), (otherCrc, true, true, false), (bytes64, true, true, true)],
      (headerAt e.1).poisoned = false ∧ (headerAt e.1).refused = none ∧ (headerAt e.1).bytes = e.1 ∧
        ((natAt e.1 12 4 / 2 ^ 26 = (storeS e.1).stepId.toNat) ↔ e.2.1 = true) ∧ ((natAt e.1 0 4 = (storeS e.1).ctx.cigen.toNat) ↔ e.2.2.1 = true) ∧
        natAt e.1 8 4 = 64 ∧ (e.2.1 = true → e.2.2.1 = true → (imageCrc e.1 = natAt e.1 4 4 ↔ e.2.2.2 = true))) ∧
    (storeSlot (importedImage (storeS bytes64) bytes64).2 0 (importedImage (storeS bytes64) bytes64).1.slots).isSome = true := by
  constructor
  · intro e h
    simp only [List.mem_cons, List.not_mem_nil, or_false] at h
    rcases h with rfl | rfl | rfl | rfl <;> decide +kernel
  · decide +kernel

/-- An object at 0x10000 of ASID 1, with the lone wave in it or not, and its registers. -/
def obj (base : Nat) : CodeObj := ⟨0, base, 0x1000, 1, false⟩
def coded (base : Nat) (kdesc : DWord) : State :=
  { lone nopI with
    codes := [obj base], codeCmd := { State.reset.codeCmd with base := 0x10800, size := 0x1000, asid := 1 }
    launches := (lone nopI).launches.map fun e => (e.1, { e.2 with rcd := { e.2.rcd with kdesc } }) }

/-- Ranges that meet and that do not; an object with holders, one without; a forced unload without launches of its own. -/
theorem witness_CodeCommands :
    ((coded 0x11800 0).codeCmd.busy = false ∧ (∀ o ∈ (coded 0x11800 0).codes, ¬ (o.asid = (1 : BitVec 16) ∧ 0x10800 < o.base + o.size ∧ o.base < 0x11800)) ∧
      (∀ o ∈ (coded 0x11800 0).codes, o.id ≠ 1) ∧ ∀ j < 1, ∃ o ∈ (coded 0x11800 0).codes, o.id = j) ∧
    (obj 0x10000 ∈ (coded 0x10000 0).codes ∧ rangesMeet 0x10800 0x1000 (obj 0x10000).base (obj 0x10000).size = true) ∧
    (codeById (coded 0x10000 0) 0 = some (obj 0x10000) ∧ holderCount (coded 0x10000 0) (obj 0x10000) = 1 ∧ launchesIn (coded 0x10000 0) (obj 0x10000) = []) ∧
    (codeById (coded 0x30000 0) 0 = some (obj 0x30000) ∧ holderCount (coded 0x30000 0) (obj 0x30000) = 0) := by decide +kernel

/-- A patch of the lone text from the page at 0x20000, which nothing holds in flight; one outside every object. -/
def patchS (base : Nat) : State :=
  { dataPage (lone nopI) with codes := [obj base], patch := { State.reset.patch with dst := 0x10000, src := 0x20000, nw := 1, asid := 1 } }
/-- A patch of one word. -/
def patchOne : State := { patchS 0x10000 with patch := { (patchS 0x10000).patch with nw := 0 } }
def patchRuns : State := { patchS 0x10000 with patch := { (patchS 0x10000).patch with busy := true, result := 0, parked := 0 } }

theorem witness_CodeCommands_patch :
    (patchS 0x10000).patch.busy = false ∧ patchInside (patchS 0x30000) = false ∧ patchInside (patchS 0x10000) = true ∧ patchMapped patchRuns = true ∧
    (waveHolders patchRuns 1 (inPatch patchRuns 1)).length = 1 ∧ (∀ e ∈ waveHolders patchRuns 1 (inPatch patchRuns 1), waveParked patchRuns e.1 e.2 = true) ∧
    spanQuiet (patchS 0x10000) (patchTag (patchS 0x10000)) 0x20000 8 = true ∧ spanQuiet (patchS 0x10000) (patchTag (patchS 0x10000)) 0x10000 8 = true ∧
    (readBytes patchRuns (patchTag patchRuns) 0x20000 8).1.poisoned = false ∧ (readBytes patchRuns (patchTag patchRuns) 0x20000 8).1.refused = none ∧
    (4 * (patchOne.patch.nw.toNat + 1) = 4 ∧ (match locateText patchOne (patchTag patchOne) 0x10000 with
      | (.ok p _, x) => decide (p.layout ≠ 4 ∧ x.service.eptb = 0 ∧ memWf x.dram = true)
      | _ => false) = true) := by
  decide +kernel

/-- The states of bring-up and of power. -/
theorem witness_PowerStates :
    State.reset.boot = 1 ∧ ({ State.reset with boot := 2, training := true } : State).boot = 2 ∧ ({ State.reset with boot := 3 } : State).boot = 3 ∧
    ({ State.reset with boot := 4 } : State).boot = 4 ∧
    (State.reset.d3hot = false ∧ State.reset.stopped = false ∧ State.reset.teams = [] ∧ State.reset.ctx.busy = false ∧ State.reset.ctx.waiting = [] ∧
      State.reset.d0wait = false) ∧
    ({ State.reset with d3hot := true } : State).stopped = false ∧ ({ State.reset with d3hot := true, stopped := true } : State).stopped = true := by decide

/-! The machine as a whole. -/

/-- A well-formed instruction of one word and one of two. -/
theorem witness_RoundTrip : WellFormed (.addI32 l3) = true ∧ WellFormed (.movi ⟨false, un, 9, 0x12345678⟩) = true := by decide

/-- Words that decode, with one word and with two. -/
theorem witness_OneSpelling : decode 0x00F06105 0 = .ok (.addI32 l3) ∧ decode 0xC0F09000 0x12345678 = .ok (.movi ⟨false, un, 9, 0x12345678⟩) := by decide +kernel

/-- The lone wave issues next: without its clause, at an instruction, and at words that are none. -/
theorem witness_StepRunsDecoded : ∀ e ∈ [(unfetched loneHeader, true, false), (lone nopI, false, true), (loadLone State.reset 0xBEF01000 0, false, false)],
    ∃ x, let h := housekeep (tick e.1)
      let d : State := watchSlots { h with turn := .device }
      timesUp h = [] ∧ h.inputs = [] ∧ h.stopped = false ∧ h.turn = .issue ∧ issueYields h = false ∧ Served d ⟨0, false⟩ ∧ findWave (passed d ⟨0, false⟩) 0 = some x ∧
      ((slotOf x false).clause = [] ↔ e.2.1 = true) ∧
      (match decode ((slotOf x false).clause.getD 1 0) 0 with
        | .ok _ => true
        | _ => false) = (e.2.1 || e.2.2) := by
  intro e h
  simp only [List.mem_cons, List.not_mem_nil, or_false] at h
  rcases h with rfl | rfl | rfl <;>
    exact ⟨_, by decide +kernel, rfl, rfl, rfl, by decide +kernel, .inl (by decide +kernel), rfl, by decide +kernel, by decide +kernel⟩

/-- The yield of the lone slot, of no cycles, is over. -/
def yielded : State := loneW nopI fun x => { x with a := { x.a with yielding := some ⟨0, 0⟩ } }

theorem witness_StepRunsDecoded_times : (housekeep (tick yielded)).stopped = false ∧
    timesUp (housekeep (tick yielded)) = .yieldExpiry ⟨0, false⟩ :: [] := by decide +kernel

/-- The invariants hold of the machine after reset and of the one with the lone wave, whose next step goes on. -/
theorem witness_Invariants : MemoriesWf State.reset ∧ MemoriesWf (lone nopI) ∧ BootLegal State.reset ∧ BootLegal (lone nopI) ∧
    WavesShaped State.reset ∧ WavesShaped (lone nopI) ∧ InputsAreEvents (housekeep (tick (lone nopI))) := by
  have shaped (s : State) (h : (s.waves.all fun e => shapedB e.2) = true) (hl : (s.launches.all fun e => decide (e.2.ker.width ≤ 64)) = true)
      (hi : s.images = []) (he : s.exports = []) : WavesShaped s := by
    refine ⟨fun e h' => ?_, fun e h' => ?_, by simp [hi], by simp [he]⟩
    · have := List.all_eq_true.mp h e h'
      simp only [shapedB, Bool.and_eq_true, beq_iff_eq, decide_eq_true_eq] at this
      obtain ⟨⟨⟨⟨⟨⟨h1, h2⟩, h3⟩, h4⟩, h5⟩, h6⟩, h7⟩ := this
      exact ⟨h1, h2, h3, h4, h5, h6, h7⟩
    · simpa using List.all_eq_true.mp hl e h'
  refine ⟨?_, ?_, ?_, ?_, shaped _ rfl rfl rfl rfl, shaped _ (by decide +kernel) (by decide +kernel) rfl rfl, ?_⟩
  · unfold MemoriesWf; decide +kernel
  · unfold MemoriesWf; decide +kernel
  · unfold BootLegal; decide +kernel
  · unfold BootLegal; decide +kernel
  · intro i h
    have : (housekeep (tick (lone nopI))).inputs ++ (housekeep (tick (lone nopI))).deferred = [] := rfl
    rw [this] at h
    cases h

theorem witness_Invariants_step : Proceeds (step (lone nopI)) := ⟨_, rfl⟩

/-! Ill-formed instructions: one for each check of WellFormed. -/

def refused (is : List Instr) : Bool := is.all fun i => !WellFormed i

def fp (g : Guard) (red : BitVec 3) (mc : BitVec 2) (kind : BitVec 16) : CpOps := ⟨g, 8, 12, 2, red, mc, kind⟩

/-- Guards beyond the predicates, but for the one of none; events have no words. -/
theorem test_illformed_guard : refused [.addI32 ⟨false, ⟨12, false⟩, false, 0, 0, 0⟩, .nop ⟨⟨15, true⟩⟩, .launchAccept] = true := by decide

/-- A lane destination, a predicate, a register group out of place (R60, R61, R231). -/
theorem test_illformed_registers : refused [.addI32 ⟨false, un, false, 56, 4, 5⟩, .cmpEqI32 ⟨false, un, false, 12, 4, 5⟩,
    .ld ⟨false, un, false, 11, 2, 0, 6, 0, 0, 0⟩] = true := by decide

/-- `hold` in the group form; immediates and codes beyond their ranges. -/
theorem test_illformed_fields : refused [.addI32 ⟨true, un, true, 6, 4, 5⟩, .absI32 ⟨true, un, true, 6, 4⟩, .froundF32 ⟨false, un, false, 6, 4, 5⟩,
    .shli ⟨false, un, 6, 4, 32⟩, .unpkF16 ⟨false, un, 6, 4, 2⟩, .plane ⟨un, 6, 4, 32⟩, .rdx ⟨un, 6, 4, 8⟩, .rdlane ⟨un, 6, 4, 64⟩, .yieldN ⟨un, 64⟩] = true := by
  decide

/-- Words 1 whose fields must be 0 or lie in a range. -/
theorem test_illformed_wide : refused [.add64 ⟨false, un, false, 6, 4, 2, 1, 0⟩, .lea ⟨true, un, true, 6, 4, 2, 0, 0⟩, .mulwI ⟨false, un, false, 6, 4, 2, 0, 1⟩,
    .frcp ⟨false, un, false, 6, 4, 1, 0⟩, .fdiv ⟨true, un, true, 6, 4, 1, 0⟩, .sreg ⟨false, un, 6, 0x18F⟩, .sset ⟨false, un, 6, 0x32⟩,
    .fpmodeSet ⟨un, 1, 1⟩] = true := by decide

/-- Memory instructions: SUB, scope, class, FE and B fields. -/
theorem test_illformed_memory : refused [.ld ⟨false, un, false, 10, 2, 0, 7, 0, 0, 0⟩, .ld ⟨false, un, false, 10, 2, 0, 4, 0, 2, 0⟩,
    .ld ⟨false, un, false, 10, 2, 0, 4, 7, 0, 0⟩, .st ⟨false, un, 2, 6, 5, 0, 0, 0⟩, .st ⟨false, un, 2, 6, 2, 0, 1, 0⟩, .st ⟨false, un, 2, 6, 2, 0, 6, 0⟩,
    .ldl ⟨false, un, false, 6, 4, 0, 4, 0, 0, 3, 0⟩, .ldl ⟨false, un, false, 6, 4, 0, 4, 2, 0, 0, 0⟩, .stl ⟨false, un, 4, 8, 2, 0, 1, 0, 0⟩,
    .atom ⟨false, un, false, 6, 4, 8, 0, 14, 0, 0, 0⟩, .atoml ⟨un, false, 6, 4, 8, 0, 0, 0, 4, 0⟩, .fence ⟨un, 2, 0⟩, .xfence ⟨un, 2, 0, 1⟩,
    .xfence ⟨un, 7, 1, 1⟩, .lsctlMode ⟨un, 4, 5, 0⟩, .lsctlPf ⟨un, 4, 4, 0⟩, .lsctlInv ⟨un, 4, 1, 0⟩] = true := by decide

/-- Copies, matrix and page operations. -/
theorem test_illformed_engines : refused [.cpG2l (fp un 1 0 0), .cpL2gRed (fp un 0 1 0), .cpL2l (fp un 1 0 0), .cpPeerPut (fp un 0 0 8),
    .cpG2lMc (fp un 0 0 0), .cpG2lMc (fp un 0 3 256), .mma ⟨un, 10, 12, 20, 2, 2, false, 2, 0, 1, 0⟩, .mmrd ⟨un, 8, 33, 2, false, 1, 0⟩,
    .mmrd ⟨un, 8, 1, 2, true, 1, 0⟩, .mmwr ⟨un, 8, 2, 1, 31⟩, .mmcvtBf16 ⟨un, 8, 12, 2, 1⟩, .tlbopMap ⟨un, 4, 2, 6, 3, false⟩,
    .tlbopInval ⟨un, 4, 2, 0⟩] = true := by decide

/-! Words of the spec's examples. -/

def reads (l : List (Word × Word × Instr)) : Bool := l.all fun e => decode e.1 e.2.1 == .ok e.2.2

/-- Chapters 4 and 5: integers, predicates, special registers, control. -/
theorem test_decode_integer : reads [(0x4EF043FB, 0, .cmpiLtI32 ⟨false, un, 2, 7, 0x7B⟩), (0xC2F04088, 0x02180040, .lea ⟨false, un, false, 4, 2, 8, 3, 0x40⟩),
    (0xF0F03000, 0x19, .sreg ⟨false, un, 3, 0x19⟩), (0xF1F05000, 0x19, .sreg ⟨true, un, 5, 0x19⟩)] = true := by decide +kernel

theorem test_decode_control : reads [(0xB0100007, 0, .bra ⟨g1, 7⟩), (0xB8F00000, 0, .ret ⟨un⟩), (0xBCF40002, 0, .tkwait ⟨un, 0x82⟩), (0xBEF00000, 0, .nop ⟨un⟩),
    (0xBEF00005, 0, .yieldN ⟨un, 5⟩), (0xF8F00000, 0x13572468, .sigchk ⟨un, 0x13572468⟩), (0xEEF00000, 0, .exit ⟨un⟩)] = true := by decide +kernel

/-- Chapters 6 and 7: lanes, floats. -/
theorem test_decode_lanes : reads [(0xA0F050C4, 0, .shfl ⟨un, false, 5, 3, 4⟩), (0xA2F0C281, 0, .shflx ⟨un, 6, 5, 1⟩), (0xA4F0C2FF, 0, .shfld ⟨un, 6, 5, 0x7F⟩),
    (0xAAF04040, 0, .ballot ⟨un, 4, 1⟩), (0xA6F01040, 0, .vany ⟨un, 1, 1⟩), (0xA8F00040, 0, .vall ⟨un, 0, 1⟩), (0x98F14087, 0, .plane ⟨un, 10, 1, 7⟩),
    (0x9AF07C07, 0, .unplane ⟨un, 3, 56, 7⟩)] = true := by decide +kernel

theorem test_decode_float : reads [(0x66F03042, 0, .ffmaF32 ⟨false, un, false, 3, 1, 2⟩), (0x61F03042, 0, .faddF32 ⟨true, un, false, 3, 1, 2⟩),
    (0xC4F04042, 0x23000000, .fdiv ⟨false, un, false, 4, 1, 2, 2⟩), (0xFCF00000, 1, .fpmodeSet ⟨un, 1, 0⟩)] = true := by decide +kernel

/-- Chapters 8 and 10: memory, copies. -/
theorem test_decode_memory : reads [(0xC8F00087, 0x02680008, .st ⟨false, un, 2, 7, 2, 3, 2, 8⟩), (0xC7F04000, 0x05000000, .ld ⟨true, un, false, 4, 0, 0, 5, 0, 0, 0⟩),
    (0xCEF08086, 0x1A400000, .atom ⟨false, un, false, 8, 2, 6, 1, 10, 2, 0, 0⟩), (0xD4F00143, 0x02000000, .lsctlMode ⟨un, 5, 3, 0⟩)] = true := by decide +kernel

theorem test_decode_copies : reads [(0xD6F0020C, 0x00400000, .cpG2l ⟨un, 8, 12, 2, 0, 0, 0⟩), (0xDAF14000, 0x00200000, .tkq ⟨un, 20, 1⟩),
    (0xD8F0028E, 0x01800700, .cpscale ⟨un, 10, 14, 4, true, 7, false⟩)] = true := by decide +kernel

/-- Chapters 11, 12 and 13: matrices, barriers and tasks, traps and translation. -/
theorem test_decode_matrix : reads [(0xDEF08020, 0x20000C00, .mmrd ⟨un, 8, 32, 2, false, 3, 0⟩), (0xE2F15000, 0x00400000, .mmstat ⟨un, 21, 2⟩),
    (0xE0F00000, 0x01001400, .mmwrZero ⟨un, 5⟩)] = true := by decide +kernel

theorem test_decode_system : reads [(0xECF03000, 0, .tbar ⟨un, 3⟩), (0xF6F00000, 0x01000000, .eretSkip ⟨un⟩), (0xF6F00000, 0x02000000, .eretKill ⟨un⟩),
    (0xF4F00000, 0x01000000, .trapBkpt ⟨un, 0⟩), (0xFAF00200, 0x03000000, .tlbopRetire ⟨un, 8⟩)] = true := by decide +kernel

/-! Results of the spec's examples, one step each. -/

/-- v4 and v5 of lane 3, and v6 of that lane after the step that runs an instruction. -/
def twoIn (a b : Word) (s : State) : State := putLocalWord (putLocalWord s 0 ((4 * 32 + 3) * 4) a) 0 ((5 * 32 + 3) * 4) b
def gives (s : State) (v : Word) : Bool := match step s with
  | .next t => localWord t 0 ((6 * 32 + 3) * 4) == v
  | _ => false
def wordOf (i : Instr) (a b v : Word) : Bool := gives (twoIn a b (lone i)) v

/-- The table after R134, for a = 0x8000_0001 and b = 0xFFFF_FFFE. -/
def fromTable (i : Instr) (v : Word) : Bool := wordOf i 0x80000001 0xFFFFFFFE v

theorem test_add_wraps : fromTable (.addI32 l3) 0x7FFFFFFF = true := by decide +kernel
theorem test_adds_clamps : fromTable (.addsI32 l3) 0x80000000 = true := by decide +kernel
theorem test_subs_in_range : fromTable (.subsI32 l3) 0x80000003 = true := by decide +kernel
theorem test_adds_n_clamps : fromTable (.addsN32 l3) 0xFFFFFFFF = true := by decide +kernel
theorem test_mulhi_n : fromTable (.mulhiN32 l3) 0x7FFFFFFF = true := by decide +kernel
theorem test_mulhi_i : fromTable (.mulhiI32 l3) 0 = true := by decide +kernel
theorem test_min_n : fromTable (.minN32 l3) 0x80000001 = true := by decide +kernel
theorem test_shr_i : fromTable (.shrI l3) 0xFFFFFFFE = true := by decide +kernel
theorem test_rotl : fromTable (.rotl l3) 0x60000000 = true := by decide +kernel
theorem test_bfx_i : wordOf (.bfxI l3) 0x80000001 (30 + 2 ^ 8 * 31) 0xFFFFFFFE = true := by decide +kernel
theorem test_clz : fromTable (.clz l2) 0 = true := by decide +kernel
theorem test_brev : fromTable (.brev l2) 0x80000001 = true := by decide +kernel

/-- The example after R199, and the ties of chapter 3. -/
theorem test_npq_tie : wordOf (.npq l3) 0x41280000 0 10 = true := by decide +kernel
theorem test_npq_clamps : wordOf (.npq l3) 0xC3480000 0 0xFFFFFF81 = true := by decide +kernel
theorem test_npdq : wordOf (.npdq l3) 0x81 0xFFFFFFFD 0xC17E0000 = true := by decide +kernel
theorem test_pack_bf16_tie : wordOf (.packBf16x2 l3) 0x3F808000 0xBF808000 0xBF803F80 = true := by decide +kernel

/-- The example after R193: `ffma` fused, and split, under RNE; D holds −1. -/
def ffmaOf (mode : BitVec 7) (v : Word) : Bool :=
  gives (putLocalWord (twoIn 0x3F800800 0x3F800800 (loneW (.ffmaF32 l3) fun x => { x with fpmode := mode })) 0 ((6 * 32 + 3) * 4) 0xBF800000) v
theorem test_ffma_fused : ffmaOf 0 0x3A000400 = true := by decide +kernel
theorem test_ffma_split : ffmaOf 0x40 0x3A000000 = true := by decide +kernel

/-- The example after R144: a pair of sources and an index of −1. -/
theorem test_lea : gives (putLocalWord (putLocalWord (twoIn 0x01234000 0x00C00000 (lone (.lea ⟨false, un, false, 6, 4, 8, 3, 0x40⟩))) 0 ((8 * 32 + 3) * 4)
    0xFFFFFFFF) 0 ((6 * 32 + 3) * 4) 0) 0x01234038 = true := by decide +kernel

/-- The example before R10, and the one after R35. -/
theorem test_home : homeOf 0x00C0000001234000 = 4 := by decide
theorem test_places : dieOf 449 = 18 ∧ columnOf 449 = 113 ∧ ipoOf 449 = 1 ∧ stackOf 449 = 4 := by decide

end Sys2Proof.Tests
end

/-! No step stops while what stands next is events (O55). -/

namespace Sys2Proof.Machine

/-! What instructions and events come to. -/

theorem proceeds_next (t : State) : Proceeds (.next t) := ⟨t, rfl⟩

theorem execLatchHoldTimeout_proceeds (core n : Nat) (s : State) : Proceeds (execLatchHoldTimeout core n s) := by
  unfold execLatchHoldTimeout
  split <;> exact proceeds_next _

theorem execTrapEntry_proceeds (w : Nat) (s : State) : Proceeds (execTrapEntry w s) := by
  unfold execTrapEntry
  split
  · exact proceeds_next _
  · split <;> exact proceeds_next _

theorem execNackReplay_proceeds (n : Nat) (s : State) : Proceeds (execNackReplay n s) := by
  unfold execNackReplay
  split <;> exact proceeds_next _

/-- An instruction issues for the slot whose turn it is, with an effect of its own; an event goes on in every state. -/
theorem exec_cases (i : Instr) (s : State) :
    (isInstruction i = true ∧ ∃ k, exec i s = issueInstr i s k) ∨ (isInstruction i = false ∧ Proceeds (exec i s)) := by
  cases i with
  | latchHoldTimeout core n => exact .inr ⟨rfl, execLatchHoldTimeout_proceeds core n s⟩
  | trapEntry w => exact .inr ⟨rfl, execTrapEntry_proceeds w s⟩
  | nackReplay n => exact .inr ⟨rfl, execNackReplay_proceeds n s⟩
  | clauseFetch | loadCompletion | localAccessPerformed | forkStackRefill | yieldExpiry | yieldHintExpiry | issueAgeLimit
  | copyGathered | copyCompletion | inboundWrite | jointComparison | matrixOpStart | matrixOpCompletion | barrierComplete
  | bankModeChange | bankRetire | tagQuarantineExpiry | getS | getW | getM | upg | fwdS | fwdM | drop | backInv | invAck
  | dataC | dataD | wbW | wbL | nack | writeAck | pageWalk | flitReplay | teamPlacement | teamPreemption | teamResume
  | teamRetirement | launchEnd | depBitmapReread | taskStart | dieFence | vernalRebuildDone | baseDieFence | stackWalkDone
  | homeDieFence | criticalTemperature | powerThrottle | portLinkUp | portLinkDown | peerRequest | peerAck | bar2Read
  | bar2Write | registerWrite | qtail | en | restart | head | lfence | vrctlGo | verticalBondRetired | throttleEnd
  | spareBankCopyDone | peerReadData | vectorUnmask | trainingComplete | launchAccept | tlbCmdMap | tlbCmdUnmap | tlbCmdInval
  | tlbCmdRetire | preemptLaunch | checkpoint | releaseHeld | exportImage | importImage | discard | codeRegister | codeUnload
  | forcedUnload | patch | fwgo | trgo | run | d3hotEntry | d0Return | functionLevelReset | powerOn =>
    exact .inr ⟨rfl, proceeds_next _⟩
  | _ => exact .inl ⟨rfl, _, rfl⟩

/-- An event goes on, in every state (log entry 97). -/
theorem event_proceeds {i : Instr} (h : isInstruction i = false) (s : State) : Proceeds (exec i s) := by
  obtain ⟨hi, -⟩ | ⟨-, hp⟩ := exec_cases i s
  · rw [h] at hi; cases hi
  · exact hp

/-! Slots that stand: their wave is resident, with its team and its launch. -/

/-- A slot's wave, its team and its launch are there. -/
def SlotStands (s : State) (r : SlotRef) : Prop :=
  ∃ x t la, findWave s r.wave = some x ∧ findTeam s x.team = some t ∧ findLaunch s t.launch = some la

theorem canIssue_stands {s : State} {r : SlotRef} (h : canIssue s r = true) : SlotStands s r := by
  unfold canIssue at h
  split at h
  · cases h
  · rename_i x hx
    split at h
    · cases h
    · rename_i t ht
      split at h
      · cases h
      · rename_i la hl
        exact ⟨x, t, la, hx, ht, hl⟩

/-- Every instruction and event goes on for a slot that stands (log entry 98). -/
theorem exec_proceeds_of_stands (i : Instr) {s : State} (h : SlotStands s s.cur) : Proceeds (exec i s) := by
  obtain ⟨x, t, la, hx, ht, hl⟩ := h
  obtain ⟨-, k, hk⟩ | ⟨-, hp⟩ := exec_cases i s
  · rw [hk]
    simp only [issueInstr, ctxOf, hx, ht, hl]
    exact proceeds_next _
  · exact hp

theorem onSlot_keeps_stands {s : State} {r : SlotRef} (h : SlotStands s r) (f : Slot → Slot) : SlotStands (onSlot s r f) r := by
  obtain ⟨x, t, la, hx, ht, hl⟩ := h
  refine ⟨_, t, la, onSlot_eq s r f hx, ?_, hl⟩
  have team : ∀ sl, (withSlot x r.b sl).team = x.team := fun sl => by cases r.b <;> rfl
  rw [team]
  exact ht

theorem issueWords_proceeds {s : State} {r : SlotRef} (h : SlotStands s r) (x : Wave) (sl : Slot) : Proceeds (issueWords s r x sl) := by
  unfold issueWords
  dsimp only
  split
  · exact exec_proceeds_of_stands _ h
  · exact proceeds_next _
  · exact proceeds_next _

theorem issueAt_proceeds {s : State} {r : SlotRef} (h : SlotStands s r) : Proceeds (issueAt s r) := by
  have h' := onSlot_keeps_stands h fun sl => { sl with tokWait := 0 }
  unfold issueAt
  dsimp only
  split
  · exact proceeds_next _
  · split
    · exact event_proceeds rfl _
    · exact issueWords_proceeds h' _ _

/-! The slots that may issue. -/

theorem mem_insertSlot {s : State} {p r : SlotRef} {l : List SlotRef} (h : r ∈ insertSlot s p l) : r = p ∨ r ∈ l := by
  induction l with
  | nil => simpa [insertSlot] using h
  | cons q l ih =>
    unfold insertSlot at h
    split at h
    · simpa using h
    · obtain rfl | h := List.mem_cons.1 h
      · exact .inr List.mem_cons_self
      · exact (ih h).imp_right (List.mem_cons_of_mem _)

theorem mem_foldl_insertSlot {s : State} {r : SlotRef} {rs : List SlotRef} :
    ∀ {l : List SlotRef}, r ∈ rs.foldl (fun l q => insertSlot s q l) l → r ∈ rs ∨ r ∈ l := by
  induction rs with
  | nil => exact .inr
  | cons q rs ih =>
    intro l h
    obtain h | h := ih h
    · exact .inl (List.mem_cons_of_mem _ h)
    · obtain rfl | h := mem_insertSlot h
      · exact .inl List.mem_cons_self
      · exact .inr h

theorem slotsOfCore_subset {s : State} {core : Nat} {rs : List SlotRef} {r : SlotRef} (h : r ∈ slotsOfCore s core rs) : r ∈ rs := by
  obtain h | h := mem_foldl_insertSlot h
  · exact List.mem_of_mem_filter h
  · cases h

theorem issuers_canIssue {s : State} {r : SlotRef} (h : r ∈ issuers s) : canIssue s r = true := by
  obtain ⟨c, -, hr⟩ := List.mem_flatMap.1 h
  exact (List.mem_filter.1 (slotsOfCore_subset hr)).2

theorem afterIssue_proceeds {o : Host.Outcome State Fault Refusal} (r : SlotRef) (h : Proceeds o) : Proceeds (afterIssue r o) := by
  obtain ⟨t, rfl⟩ := h
  exact proceeds_next _

theorem issueOne_proceeds (s : State) : Proceeds (issueOne s) := by
  have issue : ∀ r ∈ issuers s, Proceeds (afterIssue r (issueAt s r)) := fun r hr =>
    afterIssue_proceeds r (issueAt_proceeds (canIssue_stands (issuers_canIssue hr)))
  unfold issueOne
  split
  · exact proceeds_next _
  · rename_i r hr
    exact issue r (by rw [hr]; exact List.mem_cons_self)
  · split
    · rename_i r hr
      exact issue r (List.mem_of_find?_eq_some hr)
    · exact proceeds_next _

/-! What time and devices cause are events. -/

theorem timesUp_events (s : State) : ∀ i ∈ timesUp s, isInstruction i = false := by
  intro i h
  simp only [timesUp, holdEvents, ageEvents, List.mem_append, List.mem_map, List.mem_flatMap] at h
  obtain ((⟨_, _, _, _, rfl⟩ | ⟨_, _, rfl⟩) | ⟨_, _, rfl⟩) | ⟨_, _, rfl⟩ := h <;> rfl

theorem messageEvents_events (s : State) : ∀ i ∈ messageEvents s, isInstruction i = false := by
  intro i h
  unfold messageEvents at h
  split at h
  · cases h
  all_goals (obtain rfl := List.mem_singleton.1 h; rfl)

theorem events_of_map {α : Type} {f : α → Instr} (hf : ∀ a, isInstruction (f a) = false) (l : List α) :
    ∀ i ∈ l.map f, isInstruction i = false := by
  intro i h
  obtain ⟨a, -, rfl⟩ := List.mem_map.1 h
  exact hf a

theorem events_of_flatMap {α : Type} {f : α → List Instr} (hf : ∀ a, ∀ i ∈ f a, isInstruction i = false) (l : List α) :
    ∀ i ∈ l.flatMap f, isInstruction i = false := by
  intro i h
  obtain ⟨a, -, hi⟩ := List.mem_flatMap.1 h
  exact hf a i hi


theorem copyEvents_events (s : State) : ∀ i ∈ copyEvents s, isInstruction i = false := by
  refine events_of_flatMap (fun e i h => ?_) _
  split at h
  · obtain rfl := List.mem_singleton.1 h
    rfl
  · exact events_of_map (fun _ => rfl) _ i h

theorem events_of_if {c : Prop} [Decidable c] {i : Instr} (hi : isInstruction i = false) :
    ∀ j ∈ (if c then [] else [i]), isInstruction j = false := by
  intro j h
  split at h
  · cases h
  · obtain rfl := List.mem_singleton.1 h
    exact hi

theorem deviceEvents_events (s : State) : ∀ k, ∀ i ∈ deviceEvents s k, isInstruction i = false
  | 0 => messageEvents_events s
  | 1 => events_of_if rfl
  | 2 => events_of_flatMap (fun _ => events_of_if rfl) _
  | 3 => events_of_flatMap (fun _ => events_of_map (fun _ => rfl) _) _
  | 7 => copyEvents_events s
  | 17 => by
    intro i h
    simp only [deviceEvents] at h
    split at h
    · obtain rfl := List.mem_singleton.1 h
      rfl
    · cases h
  | 24 => events_of_flatMap (fun _ i h => by obtain rfl | rfl := List.mem_pair.1 h <;> rfl) _
  | 4 | 5 | 6 | 8 | 9 | 10 | 11 | 12 | 13 | 14 | 15 | 16 | 18 | 19 | 20 | 21 | 22 | 23 => events_of_map (fun _ => rfl) _
  | _ + 25 => fun _ h => by cases h

theorem rereadOne_proceeds (s : State) : Proceeds (rereadOne s) := by
  unfold rereadOne
  split
  · rename_i i h
    exact event_proceeds (events_of_map (fun _ => rfl) _ i (List.mem_of_find?_eq_some h)) s
  · exact proceeds_next _

theorem eventOfKind_event {s : State} {k : Nat} {i : Instr} (h : eventOfKind s k = some i) : isInstruction i = false :=
  deviceEvents_events s k i (List.mem_of_find?_eq_some h)

/-! A turn, and a step. -/

theorem takeUp_proceeds {s : State} (h : ∀ i ∈ s.deferred, isInstruction i = false) : ∀ o ∈ takeUp s, Proceeds o := by
  intro o ho
  unfold takeUp at ho
  split at ho
  · cases ho
  · rename_i i rest hd
    obtain ⟨t, ht⟩ := event_proceeds (h i (by rw [hd]; exact List.mem_cons_self)) { s with deferred := [] }
    simp only [ht] at ho
    split at ho
    · obtain rfl := Option.mem_some.1 ho
      exact proceeds_next _
    · cases ho

theorem deviceOne_proceeds {s : State} (h : ∀ i ∈ s.deferred, isInstruction i = false) : Proceeds (deviceOne s) := by
  unfold deviceOne
  split
  · rename_i o ho
    exact takeUp_proceeds h o ho
  · split
    · rename_i k i hk
      obtain ⟨j, -, hj⟩ := List.exists_of_findSome?_eq_some hk
      obtain ⟨e, he, heq⟩ := Option.map_eq_some_iff.1 hj
      obtain ⟨-, rfl⟩ := Prod.mk.inj heq
      exact event_proceeds (eventOfKind_event he) _
    · exact rereadOne_proceeds s

theorem takeTurn_proceeds {s : State} (h : ∀ i ∈ s.deferred, isInstruction i = false) : Proceeds (takeTurn s) := by
  unfold takeTurn
  split
  · cases hu : takeUp s with
    | none => exact proceeds_next _
    | some o => exact takeUp_proceeds h o hu
  · split
    · split
      · exact deviceOne_proceeds h
      · exact issueOne_proceeds _
    · exact deviceOne_proceeds h

theorem takeInput_proceeds {i : Instr} (h : isInstruction i = false) (s : State) : Proceeds (takeInput s i) := by
  unfold takeInput
  split
  · exact proceeds_next _
  · exact event_proceeds h s

theorem advanceOne_proceeds {s : State} (h : InputsAreEvents s) : Proceeds (advanceOne s) := by
  unfold advanceOne
  split
  · rename_i i rest ht
    refine event_proceeds (timesUp_events s i ?_) s
    split at ht
    · cases ht
    · rw [ht]; exact List.mem_cons_self
  · rename_i i rest _ hi
    exact takeInput_proceeds (h i (by rw [hi]; exact List.mem_cons_self)) _
  · exact takeTurn_proceeds fun i hi => h i (List.mem_append_right _ hi)

/-- Settles O55: what comes next is an event, which goes on in every state, or the issue of a slot whose wave, team and launch are
there. -/
theorem neverStops : Obligations.NeverStops := by
  unfold Obligations.NeverStops
  intro s h
  exact advanceOne_proceeds h

end Sys2Proof.Machine

/-! Atomics at the L1 site by a wave that has noted sources of a lane beyond its width (O20). -/

namespace Sys2Proof.Machine

/-! What a completed instruction leaves in the lane registers of a wave at rest. -/

/-- A wave outside its handler, with an empty fork stack, one slot running and the other idle. -/
structure AtRest (x : Wave) (b : Bool) : Prop where
  user : x.super = false
  stack : x.depth = 0
  runs : (slotOf x b).st = .run
  idle : (slotOf x (other b)).st = .idle

/-- Such a wave has no action between two issues (R153). -/
theorem settle_of_rest {s : State} {c : Ctx} {x : Wave} {b : Bool} (hx : findWave s c.w = some x) (h : AtRest x b) :
    settle' s c = s := by
  have top : topEntry s c.w x = none := by simp [topEntry, h.user, h.stack]
  have dead : dropDead s c.w = none := by simp only [dropDead, hx, top]
  have quiet : ∀ d sig, idleAction s c.w d sig = none := fun d sig => by
    by_cases hd : d = b
    · subst hd
      simp [idleAction, hx, h.runs]
    · obtain rfl : d = other b := by cases d <;> cases b <;> simp_all [other]
      simp [idleAction, hx, h.idle, top]
  simp only [settle', settleSlots, dead, quiet]

theorem slotAfter_st (c : Ctx) (time : Nat) (now : DWord) (sl : Slot) : (slotAfter c time now sl).st = sl.st := by
  unfold slotAfter
  dsimp only
  split
  · rfl
  · split <;> rfl

/-- A lane register of a wave that runs no handler lies in its window. -/
theorem laneReg_window {x : Wave} (h : x.super = false) (s : State) (w n l : Nat) :
    laneReg s w x n l = localWord s (clusterOf w) (regAddr x n l) := by
  simp [laneReg, svLane, h]

/-- A word of a cluster's local store after an outcome that goes on. -/
def wordAfter (o : Host.Outcome State Fault Refusal) (cl a : Nat) : Option Word := match o with
  | .next t => some (localWord t cl a)
  | _ => none

/-- An instruction that completes at once leaves, in the place of a lane register, what its results give that register, or else what
was there. -/
theorem wordAfter_of_completes {i : Instr} {s t : State} {c : Ctx} {ws : List RegWrite} {x : Wave} (h : Completes i s c (t, 0, ws))
    (hx : findWave t c.w = some x) (rest : AtRest x c.r.b) (n : Nat) {l : Nat} (hl : l < x.width) :
    wordAfter (exec i s) (clusterOf c.w) (regAddr x n l) = some (lastLane ws n l (localWord t (clusterOf c.w) (regAddr x n l))) := by
  obtain ⟨u, hu, hret⟩ := h
  obtain ⟨y, hy, ye, idle, runs, now, -⟩ := hret.wave x hx
  obtain ⟨-, lanes, -, -⟩ := now (.inl rfl)
  have yuser : y.super = false := by rw [ye]; exact rest.user
  have yrest : AtRest y c.r.b :=
    ⟨yuser, by rw [ye]; exact rest.stack, by rw [runs, slotAfter_st]; exact rest.runs, by rw [idle]; exact rest.idle⟩
  have place : regAddr y n l = regAddr x n l := by rw [ye]; rfl
  have kept := lanes n l hl
  rw [laneReg_window yuser, laneReg_window rest.user, place] at kept
  rw [hu, settle_of_rest hy yrest]
  exact congrArg some kept

/-! The state of the counterexample. Its definitions are irreducible so that only the kernel computes with them. -/

/-- An addition to a word at the L1 site, by every lane, into v6. -/
def strayAtom : AtomOps := ⟨false, un, false, 6, 4, 8, 0, 0, 1, 0, 0⟩

/-- What it noted of its sources when it issued: lane 40, of a wave of 32 lanes, adds 1 to the word at 0x20000. -/
def strayLanes : List AtomLane := [⟨40, 0x20000, 1, 0⟩]

/-- It has waited for its line since. -/
def strayProgress : Progress := ⟨false, nearMark, [], [], 0, [], none, some strayLanes, 0⟩

/-- A wave of 32 lanes at the atomic; the line is in the L1, each word 7, claimed whole. -/
@[irreducible] def strayState : State :=
  let ws := encode (.atom strayAtom)
  let s := loadLone State.reset (ws.getD 0 0) (ws.getD 1 0)
  { onWave s 0 (fun x => { x with progress := some strayProgress }) with
    tlbs := [(0, [⟨loneTag, 0, 0x20, 3, 0x200867⟩])]
    caches := (List.range 32).map fun i => (⟨.l1 0, loneTag, 0x20000 + 4 * i⟩, ⟨7, false, false, true, false⟩)
    dirs := [(⟨.die 0, loneTag, 0x400, .l1 0⟩, ⟨.m, wholeLine, 0⟩)] }

theorem strayState_stands : (ctxOf (.atom strayAtom) strayState).isSome = true := by decide +kernel

/-- The context in which it issues. -/
@[irreducible] def strayCtx : Ctx := (ctxOf (.atom strayAtom) strayState).get strayState_stands

/-- Its wave once it has retired. -/
@[irreducible] def strayWave : Wave := { strayCtx.x with progress := none }

/-- Its lanes' results, and the state that they leave. -/
@[irreducible] def strayDone : List (Nat × Nat × Bool) × State :=
  atomsAtL1 strayState strayCtx.cl strayCtx.tag strayCtx.w strayAtom.sub.toNat strayLanes

theorem stray_issues : Issues (.atom strayAtom) strayState strayCtx where
  stands := by rw [strayCtx, Option.some_get]
  mems := ⟨by decide +kernel, by decide +kernel, by decide +kernel⟩
  shaped := by unfold WaveShaped; decide +kernel
  fields := by decide +kernel
  wave := by decide +kernel
  room := by decide +kernel
  sound := by decide +kernel

theorem stray_reads (now : List AtomLane) : ReadAt strayCtx now strayLanes :=
  .inl ⟨strayProgress, by decide +kernel, by decide +kernel, rfl⟩

theorem stray_translates : Translates strayState strayCtx .atomic (4 * atomRegs strayAtom.sub) (laneAddrs strayLanes) strayState where
  some := by decide +kernel
  order := by decide +kernel
  calm := by decide +kernel
  form := by decide +kernel
  reach := by decide +kernel

theorem stray_near : phaseOf strayCtx = nearMark ∧ asked strayCtx = false ∧ resultsOf strayCtx = [] := by decide +kernel

theorem stray_ready : ∀ l ∈ strayLanes, homeLost strayState strayCtx.tag l.va .atomic = false ∧
    siteReady strayState (.l1 strayCtx.cl) strayCtx.tag (lineOf l.va) = true := by decide +kernel

theorem stray_performs : atomsAtL1 strayState strayCtx.cl strayCtx.tag strayCtx.w strayAtom.sub.toNat strayLanes =
    ([(40, 7, false)], strayDone.2) := by
  have found : strayDone.1 = [(40, 7, false)] := by decide +kernel
  rw [← found, strayDone]

theorem stray_wave : findWave (clearProgress strayDone.2 strayCtx) strayCtx.w = some strayWave := by decide +kernel

theorem stray_rest : AtRest strayWave strayCtx.r.b where
  user := by decide +kernel
  stack := by decide +kernel
  runs := by decide +kernel
  idle := by decide +kernel

/-- v7 of lane 8 is 0 before the atomic. -/
theorem stray_before : localWord strayDone.2 (clusterOf strayCtx.w) (regAddr strayWave 7 8) = 0 := by decide +kernel

/-- Its place is that of v6 in lane 40, to which the model writes the old value. -/
theorem stray_after : wordAfter (exec (.atom strayAtom) strayState) (clusterOf strayCtx.w) (regAddr strayWave 7 8) = some 7 := by
  decide +kernel

/-- The sources that an atomic noted may name a lane beyond its wave's width. Its result then lies in a register of another
lane, which `Retired` keeps as it was. -/
theorem not_atomicResults : ¬ Parts.AtomicResults := by
  intro h
  obtain ⟨near, notAsked, noResults⟩ := stray_near
  obtain ⟨t, done, ht, -⟩ := h strayAtom strayState strayCtx strayLanes strayState strayState _ strayDone.2 stray_issues (by decide)
    (by decide) notAsked noResults (stray_reads _) stray_translates (if_neg fun hn => hn.1 near) stray_ready stray_performs (by decide)
  have waves : t.waves = (clearProgress strayDone.2 strayCtx).waves := (congrArg State.waves ht).trans rfl
  have lstore : t.lstore = strayDone.2.lstore := (congrArg State.lstore ht).trans rfl
  have wave : findWave t strayCtx.w = some strayWave := by rw [findWave, waves, ← findWave, stray_wave]
  have before : localWord t (clusterOf strayCtx.w) (regAddr strayWave 7 8) = 0 := by rw [localWord, lstore, ← localWord, stray_before]
  have kept : wordAfter (exec (.atom strayAtom) strayState) (clusterOf strayCtx.w) (regAddr strayWave 7 8) =
      some (localWord t (clusterOf strayCtx.w) (regAddr strayWave 7 8)) :=
    wordAfter_of_completes done wave stray_rest 7 (by decide +kernel : 8 < strayWave.width)
  rw [stray_after, before] at kept
  exact absurd kept (by decide)

/-- Refutes O20: its clause for atomics at the L1 site takes the sources that an instruction noted when it issued as they are, so also
such as no issue notes, of a lane that the wave does not have. `Parts.SiteResults` asks that the lanes be those of the form; here
nothing does. -/
theorem not_atomics : ¬ Obligations.Atomics := fun ⟨_, _, h, _⟩ => not_atomicResults h

end Sys2Proof.Machine

/-! Every step keeps the shape of waves (O58). -/

namespace Sys2Proof.Machine

/-- The image of a task's team that holds no wave: `WavesShaped` asks nothing of the waves that an image lacks. -/
def hollowImage : Image := { (default : Image) with crcOk := true, team := { (default : Team) with task := true } }

/-- That image is to be resumed, on a cluster where its launch has a task slot. -/
def hollow : State :=
  { loadLone State.reset 0 0 with
    teams := [], waves := [], images := [(0, hollowImage)], inputs := [.teamResume 0]
    launches := [(0, { loneLaunch with taskCl := [(0, ⟨0, [0]⟩)] })] }

theorem hollow_shaped : WavesShaped hollow := by
  refine ⟨fun e he => ?_, fun e he => ?_, fun e he => ?_, fun e he => ?_⟩
  · exact absurd he List.not_mem_nil
  · obtain rfl := List.mem_singleton.1 he
    decide
  · obtain rfl := List.mem_singleton.1 he
    exact ⟨Nat.zero_le _, fun v hv => absurd hv List.not_mem_nil⟩
  · exact absurd he List.not_mem_nil

/-- The resumption gives the task's slot the default wave, which has no lane predicates. -/
theorem step_hollow : ∃ t, step hollow = .next t ∧ (t.waves.any fun e => e.2.k.length ≠ 12) = true := by
  have h : (match step hollow with | .next t => t.waves.any fun e => e.2.k.length ≠ 12 | _ => false) = true := by decide +kernel
  generalize step hollow = out at h ⊢
  cases out with
  | next t => exact ⟨t, rfl, h⟩
  | fault _ => cases h
  | refused _ => cases h

/-- Refutes O58: a step resumes a task from an image without waves, and the wave that it starts is not of its shape. -/
theorem not_wavesStayShaped : ¬ Obligations.WavesStayShaped := by
  unfold Obligations.WavesStayShaped
  intro h
  obtain ⟨t, hstep, hbad⟩ := step_hollow
  obtain ⟨e, he, hk⟩ := List.any_eq_true.1 hbad
  obtain ⟨hw, -⟩ := h hollow t hollow_shaped hstep
  obtain ⟨-, -, -, hlen, -⟩ := hw e he
  exact absurd hlen (of_decide_eq_true hk)

end Sys2Proof.Machine

namespace Sys2Proof.Machine

-- One lemma after the other: elaborated all at once, so many small lemmas take more threads than there is memory for.
set_option Elab.async false

/-! What each operation of the model may do to the memories (O56), and what it leaves of the state of fences, teams and walks (O43),
said once. An operation either leaves the memories as they are, or writes them through `memWrite` and its kin, which keep the
canonical form. -/

/-- The memories of a state. -/
abbrev memsOf (s : State) : Mem × Mem × Mem := (s.dram, s.lstore, s.staging)

/-- The rebuilds of the stacks, but for the lines they have counted. -/
def walksOf (r : Kv Nat Rebuild) (k : Nat) : Rebuild := { kvGet r k Rebuild.clear with lines := 0 }

/-- What is fenced, what is walked for it, and Germinal. -/
abbrev fencesOf (s : State) :=
  ((s.dfence, s.hfence, s.fencedStacks, s.stackWalks), walksOf s.rebuilds, (s.gbase, s.gstby, s.gerLost, s.boot, s.berr), s.faults)

/-- A team goes on as it was, or was normal and is lost. -/
def TeamStands (u v : Team) : Prop := v.cl = u.cl ∧ (v.fate = u.fate ∨ u.fate = .normal ∧ v.fate = .lost)

/-- From `o` to `s` nothing is fenced, no walk begins or ends, and teams and images do no more than be lost. -/
structure Stands (o s : State) : Prop where
  fences : fencesOf s = fencesOf o
  teams : ∀ id u, findTeam o id = some u → ∃ v, findTeam s id = some v ∧ TeamStands u v
  images : ∀ n, kvFind o.images n = none → kvFind s.images n = none

/-- The memories of `s`, which comes from `o`, are canonical if those of `o` are; as far as the marks say, what `Stands` states
(`bf`), directories and rebuilds (`bd`) and having no transaction (`bt`) are kept too. -/
structure Keeps (bf bd bt : Bool) (o s : State) : Prop where
  mems : MemoriesWf o → MemoriesWf s
  stands : bf = true → Stands o s
  dirs : bd = true → s.dirs = o.dirs ∧ s.rebuilds = o.rebuilds
  txns : bt = true → o.txns = [] → s.txns = []

abbrev KeepsWf (o s : State) : Prop := Keeps false false false o s

theorem TeamStands.refl (u : Team) : TeamStands u u := ⟨rfl, .inl rfl⟩

theorem TeamStands.trans {u v w : Team} (h : TeamStands u v) (h' : TeamStands v w) : TeamStands u w := by
  obtain ⟨hc, hf⟩ := h
  obtain ⟨hc', hf'⟩ := h'
  refine ⟨hc'.trans hc, ?_⟩
  rcases hf with e | ⟨n, e⟩
  · rw [← e]
    exact hf'
  · rcases hf' with e' | ⟨n', -⟩
    · exact .inr ⟨n, e'.trans e⟩
    · rw [e] at n'
      cases n'

theorem Stands.refl (s : State) : Stands s s := ⟨rfl, fun _ u h => ⟨u, h, .refl u⟩, fun _ h => h⟩

theorem Stands.trans {o s t : State} (h : Stands o s) (h' : Stands s t) : Stands o t := by
  refine ⟨h'.fences.trans h.fences, fun id u hu => ?_, fun n hn => h'.images n (h.images n hn)⟩
  obtain ⟨v, hv, hs⟩ := h.teams id u hu
  obtain ⟨w, hw, hs'⟩ := h'.teams id v hv
  exact ⟨w, hw, hs.trans hs'⟩

theorem Keeps.refl {bf bd bt : Bool} (s : State) : Keeps bf bd bt s s := ⟨id, fun _ => .refl s, fun _ => ⟨rfl, rfl⟩, fun _ => id⟩

theorem memoriesWf_congr {s t : State} (e : memsOf t = memsOf s) (h : MemoriesWf s) : MemoriesWf t := by
  obtain ⟨hd, hl, hg⟩ := h
  simp only [memsOf, Prod.mk.injEq] at e
  obtain ⟨ed, el, eg⟩ := e
  exact ⟨ed ▸ hd, el ▸ hl, eg ▸ hg⟩

/-- What `Stands` speaks of. -/
abbrev standsOf (s : State) := (fencesOf s, s.teams, s.images)

theorem Stands.of_same {s t : State} (e : standsOf t = standsOf s) : Stands s t := by
  simp only [standsOf, Prod.mk.injEq] at e
  obtain ⟨ef, et, ei⟩ := e
  refine ⟨by simpa only [Prod.mk.injEq] using ef, fun id u hu => ⟨u, ?_, .refl u⟩, fun n hn => ei ▸ hn⟩
  rw [findTeam, et]
  exact hu

section

variable {bf bd bt : Bool} {o s t : State}

theorem Keeps.thenStands (h : Keeps bf bd bt o s) (hm : MemoriesWf o → MemoriesWf t) (ef : bf = true → Stands s t)
    (ed : bd = true → t.dirs = s.dirs ∧ t.rebuilds = s.rebuilds) (et : bt = true → s.txns = [] → t.txns = []) :
    Keeps bf bd bt o t := by
  refine ⟨hm, fun b => (h.stands b).trans (ef b), fun b => ?_, fun b ho => et b (h.txns b ho)⟩
  obtain ⟨d, r⟩ := h.dirs b
  obtain ⟨d', r'⟩ := ed b
  exact ⟨d'.trans d, r'.trans r⟩

/-- A change of anything else. -/
theorem Keeps.frame (h : Keeps bf bd bt o s) (em : memsOf t = memsOf s := by rfl)
    (ef : bf = true → standsOf t = standsOf s := by rintro ⟨⟩ <;> rfl)
    (ed : bd = true → t.dirs = s.dirs ∧ t.rebuilds = s.rebuilds := by rintro ⟨⟩ <;> exact ⟨rfl, rfl⟩)
    (et : bt = true → s.txns = [] → t.txns = [] := by rintro ⟨⟩ e <;> exact e) : Keeps bf bd bt o t :=
  h.thenStands (fun ho => memoriesWf_congr em (h.mems ho)) (fun b => .of_same (ef b)) ed et

/-- A change of other fields of a record that is written out: what is left must be seen without unfolding anything. -/
theorem Keeps.record (h : Keeps bf bd bt o s) (em : memsOf t = memsOf s := by with_reducible rfl)
    (ef : bf = true → standsOf t = standsOf s := by rintro ⟨⟩ <;> with_reducible rfl)
    (ed : bd = true → t.dirs = s.dirs ∧ t.rebuilds = s.rebuilds := by rintro ⟨⟩ <;> with_reducible exact ⟨rfl, rfl⟩)
    (et : bt = true → s.txns = [] → t.txns = [] := by rintro ⟨⟩ e <;> with_reducible exact e) : Keeps bf bd bt o t :=
  h.frame em ef ed et

theorem Keeps.of_mems (h : MemoriesWf o → MemoriesWf s) : KeepsWf o s := ⟨h, nofun, nofun, nofun⟩

theorem Keeps.ite {c : Prop} [Decidable c] (ht : Keeps bf bd bt o s) (he : Keeps bf bd bt o t) :
    Keeps bf bd bt o (if c then s else t) := by
  split <;> assumption

/-- A change made on a condition. -/
theorem Keeps.when {c : Prop} [Decidable c] (h : Keeps bf bd bt o s) (ht : Keeps bf bd bt o s → Keeps bf bd bt o t) :
    Keeps bf bd bt o (if c then t else s) :=
  .ite (ht h) h

theorem Keeps.unless {c : Prop} [Decidable c] (h : Keeps bf bd bt o s) (ht : Keeps bf bd bt o s → Keeps bf bd bt o t) :
    Keeps bf bd bt o (if c then s else t) :=
  .ite h (ht h)

theorem Keeps.foldl {α : Type} {f : State → α → State} {l : List α}
    (hf : ∀ t a, Keeps bf bd bt o t → Keeps bf bd bt o (f t a)) (h : Keeps bf bd bt o s) : Keeps bf bd bt o (l.foldl f s) := by
  induction l generalizing s with
  | nil => exact h
  | cons a l ih => exact ih (hf s a h)

theorem Keeps.foldPair {α β : Type} {f : β × State → α → β × State} {l : List α} {b : β × State}
    (hf : ∀ b a, Keeps bf bd bt o b.2 → Keeps bf bd bt o (f b a).2) (h : Keeps bf bd bt o b.2) :
    Keeps bf bd bt o (l.foldl f b).2 := by
  induction l generalizing b with
  | nil => exact h
  | cons a l ih => exact ih (hf b a h)

theorem Keeps.pair {α : Type} {p : α × State} {a : α} (e : p = (a, t)) (h : Keeps bf bd bt o p.2) : Keeps bf bd bt o t := by
  subst e; exact h

theorem Keeps.pair₂ {α β : Type} {p : α × β × State} {a : α} {b : β} (e : p = (a, b, t))
    (h : Keeps bf bd bt o p.2.2) : Keeps bf bd bt o t := by
  subst e; exact h

end

/-! Memories. -/

/-- A memory is in canonical form if those of `o` are. -/
def MemFits (o : State) (m : Mem) : Prop := MemoriesWf o → memWf m = true

section

variable {bf bd bt : Bool} {o s t : State} {m : Mem}

theorem MemFits.memWrite (h : MemFits o m) {a : Nat} {b : Byte} : MemFits o (memWrite m a b) := fun ho => memWrite_wf (h ho) a b

theorem MemFits.memWriteN (h : MemFits o m) {a n v : Nat} : MemFits o (memWriteN m a n v) := fun ho => memWriteN_wf (h ho) a n v

theorem MemFits.memPutWord (h : MemFits o m) {a : Nat} {v : Word} : MemFits o (memPutWord m a v) := fun ho => memPutWord_wf (h ho) a v

theorem MemFits.memWriteList (h : MemFits o m) {a : Nat} {bs : List Byte} : MemFits o (memWriteList m a bs) :=
  fun ho => memWriteList_wf (h ho) a bs

theorem MemFits.memClear (h : MemFits o m) {a n : Nat} : MemFits o (memClear m a n) := fun ho => memClear_wf (h ho) a n

theorem MemFits.foldl {α : Type} {f : Mem → α → Mem} {l : List α} (hf : ∀ m a, MemFits o m → MemFits o (f m a)) (h : MemFits o m) :
    MemFits o (l.foldl f m) := by
  induction l generalizing m with
  | nil => exact h
  | cons a l ih => exact ih (hf m a h)

theorem Keeps.dramFits (h : Keeps bf bd bt o s) : MemFits o s.dram := fun ho => by
  obtain ⟨hd, -, -⟩ := h.mems ho
  exact hd

theorem Keeps.lstoreFits (h : Keeps bf bd bt o s) : MemFits o s.lstore := fun ho => by
  obtain ⟨-, hl, -⟩ := h.mems ho
  exact hl

theorem Keeps.stagingFits (h : Keeps bf bd bt o s) : MemFits o s.staging := fun ho => by
  obtain ⟨-, -, hg⟩ := h.mems ho
  exact hg

theorem Keeps.withDram (h : Keeps bf bd bt o s) (hm : MemFits o t.dram) (el : t.lstore = s.lstore := by with_reducible rfl)
    (eg : t.staging = s.staging := by with_reducible rfl)
    (ef : bf = true → standsOf t = standsOf s := by rintro ⟨⟩ <;> with_reducible rfl)
    (ed : bd = true → t.dirs = s.dirs ∧ t.rebuilds = s.rebuilds := by rintro ⟨⟩ <;> with_reducible exact ⟨rfl, rfl⟩)
    (et : bt = true → s.txns = [] → t.txns = [] := by rintro ⟨⟩ e <;> with_reducible exact e) : Keeps bf bd bt o t :=
  h.thenStands (fun ho => ⟨hm ho, el ▸ h.lstoreFits ho, eg ▸ h.stagingFits ho⟩) (fun b => .of_same (ef b)) ed et

theorem Keeps.withLstore (h : Keeps bf bd bt o s) (hm : MemFits o t.lstore) (er : t.dram = s.dram := by with_reducible rfl)
    (eg : t.staging = s.staging := by with_reducible rfl)
    (ef : bf = true → standsOf t = standsOf s := by rintro ⟨⟩ <;> with_reducible rfl)
    (ed : bd = true → t.dirs = s.dirs ∧ t.rebuilds = s.rebuilds := by rintro ⟨⟩ <;> with_reducible exact ⟨rfl, rfl⟩)
    (et : bt = true → s.txns = [] → t.txns = [] := by rintro ⟨⟩ e <;> with_reducible exact e) : Keeps bf bd bt o t :=
  h.thenStands (fun ho => ⟨er ▸ h.dramFits ho, hm ho, eg ▸ h.stagingFits ho⟩) (fun b => .of_same (ef b)) ed et

theorem Keeps.withStaging (h : Keeps bf bd bt o s) (hm : MemFits o t.staging) (er : t.dram = s.dram := by with_reducible rfl)
    (el : t.lstore = s.lstore := by with_reducible rfl)
    (ef : bf = true → standsOf t = standsOf s := by rintro ⟨⟩ <;> with_reducible rfl)
    (ed : bd = true → t.dirs = s.dirs ∧ t.rebuilds = s.rebuilds := by rintro ⟨⟩ <;> with_reducible exact ⟨rfl, rfl⟩)
    (et : bt = true → s.txns = [] → t.txns = [] := by rintro ⟨⟩ e <;> with_reducible exact e) : Keeps bf bd bt o t :=
  h.thenStands (fun ho => ⟨er ▸ h.dramFits ho, el ▸ h.lstoreFits ho, hm ho⟩) (fun b => .of_same (ef b)) ed et

end

/-! Updates of waves, teams and launches. -/

section

variable {bf bd bt : Bool} {o s : State}

theorem Stands.onTeam {n : Nat} {f : Team → Team} (hf : ∀ u, TeamStands u (f u)) : Stands s (onTeam s n f) := by
  refine ⟨rfl, fun id u hu => ?_, fun _ h => h⟩
  rw [findTeam, Machine.onTeam, kvFind_modify, show kvFind s.teams id = some u from hu]
  split
  · exact ⟨f u, rfl, hf u⟩
  · exact ⟨u, rfl, .refl u⟩

theorem Keeps.putWave (h : Keeps bf false bt o s) {w : Nat} {x : Wave} : Keeps bf false bt o (putWave s w x) := h.frame
theorem Keeps.onWave (h : Keeps bf false bt o s) {w : Nat} {f : Wave → Wave} : Keeps bf false bt o (onWave s w f) := h.frame
theorem Keeps.onSlot (h : Keeps bf false bt o s) {r : SlotRef} {f : Slot → Slot} : Keeps bf false bt o (onSlot s r f) := h.frame

/-- A change of a team, by which it does no more than be lost. -/
theorem Keeps.onTeam (h : Keeps bf false bt o s) {n : Nat} {f : Team → Team}
    (hf : bf = true → ∀ u, TeamStands u (f u) := by rintro ⟨⟩) : Keeps bf false bt o (onTeam s n f) :=
  h.thenStands (fun ho => memoriesWf_congr rfl (h.mems ho)) (fun b => .onTeam (hf b)) nofun (fun _ e => e)

theorem Keeps.onLaunch (h : Keeps bf false bt o s) {n : Nat} {f : Launch → Launch} : Keeps bf false bt o (onLaunch s n f) := h.frame

end

/-! The state in a result; where a result has none, the state `s`. -/

abbrev stateOr (s : State) : Option State → State
  | some t => t
  | none => s

abbrev Effect.state : Effect → State
  | .done s _ _ _ | .moved s _ | .wait s | .left s | .trap _ s => s

abbrev PageOp.state : PageOp → State
  | .result _ s | .wait _ _ s => s

abbrev Remote.state : Remote → State
  | .done _ s | .wait s | .fail _ s => s

abbrev Checked.state : Checked → State
  | .ok s | .busy s | .fail _ s => s

abbrev Reached.state : Reached → State
  | .ok s | .busy s | .faults _ s => s

abbrev Pushed.state (s : State) : Pushed → State
  | .ok t | .fault _ _ t | .busy t => t
  | .full | .limit => s

abbrev Gathered.state (s : State) : Gathered → State
  | .all _ => s
  | .part _ t => t

abbrev MoveGo.state (s : State) : MoveGo → State
  | .ok _ t | .refused t => t
  | .wait => s

/-- What an outcome goes on with keeps the invariants. -/
def OutcomeKeeps (o : State) : Host.Outcome State Fault Refusal → Prop
  | .next s => KeepsWf o s
  | _ => True

theorem OutcomeKeeps.next {o s : State} (h : KeepsWf o s) : OutcomeKeeps o (.next s) := h

theorem Keeps.mapped {bf bd bt : Bool} {o s : State} {α : Type} {x : Option α} {f : α → State}
    (h : Keeps bf bd bt o s) (hf : ∀ a, x = some a → Keeps bf bd bt o (f a)) :
    Keeps bf bd bt o (stateOr s (x.map f)) := by
  cases x with
  | none => exact h
  | some a => exact hf a rfl

theorem Keeps.getD {bf bd bt : Bool} {o s t : State} {x : Option State} (h : Keeps bf bd bt o t) (hx : Keeps bf bd bt o
    (stateOr s x)) :
    Keeps bf bd bt o (x.getD t) := by
  cases x with
  | none => exact h
  | some a => exact hx

theorem Keeps.of {bf bd bt : Bool} {o s t : State} (e : s = t) (h : Keeps bf bd bt o s) : Keeps bf bd bt o t := e ▸ h

section

variable {bf bd bt : Bool} {o s : State}

/-! The operations of Machine/Access.lean. -/

theorem Keeps.putBank (h : Keeps bf false bt o s) {cl b : Nat} {x : Bank} : Keeps bf false bt o (putBank s cl b x) := .frame h

theorem Keeps.putFaultBuf (h : KeepsWf o s) {h' : Nat} {x : FaultBuf} : KeepsWf o (putFaultBuf s h' x) := .frame h

theorem Keeps.putQueue (h : KeepsWf o s) {q : Nat} {x : HostQueue} : KeepsWf o (putQueue s q x) := .frame h

theorem Keeps.tellHost (h : KeepsWf o s) {h' : HostSees} : KeepsWf o (tellHost s h') := .frame h

theorem OutcomeKeeps.hostCommand (h : KeepsWf o s) {f : State → State} (hf : ∀ t, KeepsWf o t → KeepsWf o (f t)) :
    OutcomeKeeps o (hostCommand s f) :=
  .next (.ite (.tellHost h) (hf s h))

theorem Keeps.putPort (h : KeepsWf o s) {p : Nat} {x : Port} : KeepsWf o (putPort s p x) := .frame h

theorem Keeps.putLocalNat (h : KeepsWf o s) {cl a n v : Nat} : KeepsWf o (putLocalNat s cl a n v) := by
  unfold Machine.putLocalNat
  with_reducible exact .withLstore h (.memWriteN h.lstoreFits)

theorem Keeps.putLocalWord (h : KeepsWf o s) {cl a : Nat} {v : Word} : KeepsWf o (putLocalWord s cl a v) := .putLocalNat h

theorem Keeps.showWrite (h : KeepsWf o s) {w n l : Nat} {v : Word} : KeepsWf o (showWrite s w n l v) := by
  unfold Machine.showWrite
  with_reducible exact .ite h (.record h)

theorem Keeps.setLaneIn (h : KeepsWf o s) {w : Nat} {sup : Bool} {n l : Nat} {v : Word} : KeepsWf o (setLaneIn s w sup n l v) := by
  unfold Machine.setLaneIn
  split
  · exact h
  · with_reducible exact .ite (.putWave h) (.showWrite (.putLocalWord h))

theorem Keeps.applyWrite (h : KeepsWf o s) {w : Nat} {sup : Bool} {r : RegWrite} : KeepsWf o (applyWrite s w sup r) := by
  unfold Machine.applyWrite
  split
  · with_reducible exact .setLaneIn h
  · with_reducible exact .onWave h

theorem Keeps.applyWrites (h : KeepsWf o s) {w : Nat} {sup : Bool} {ws : List RegWrite} : KeepsWf o (applyWrites s w sup ws) :=
  .foldl (fun _ _ h => .applyWrite h) h

theorem Keeps.writeRegs (h : KeepsWf o s) {w : Nat} {ws : List RegWrite} : KeepsWf o (writeRegs s w ws) := by
  unfold Machine.writeRegs
  split
  · exact h
  · with_reducible exact .applyWrites (.onWave h)

theorem Keeps.drawNat (h : Keeps bf bd bt o s) {bound : Nat} : Keeps bf bd bt o (drawNat s bound).2 := .frame h

theorem Keeps.pickNat (h : KeepsWf o s) {n : Nat} : KeepsWf o (pickNat s n).2 := by
  unfold Machine.pickNat
  split
  · exact h
  · with_reducible exact .drawNat h

theorem Keeps.fresh (h : KeepsWf o s) : KeepsWf o (fresh s).2 := .frame h

/-! The operations of Machine/Phys.lean. -/

theorem Keeps.raiseVector (h : Keeps bf bd bt o s) {v : Nat} : Keeps bf bd bt o (raiseVector s v) := by
  unfold Machine.raiseVector
  with_reducible exact .ite (.record h) (.record h)

theorem Keeps.raiseIf (h : Keeps bf bd bt o s) {en : Bool} {v : Nat} : Keeps bf bd bt o (raiseIf s en v) := .ite (.raiseVector h) h

theorem Keeps.logError (h : Keeps bf bd bt o s) {r : LogRec} : Keeps bf bd bt o (logError s r) := by
  unfold Machine.logError
  with_reducible exact .ite (.record h) (.raiseIf (.withDram h (.memWriteList h.dramFits)))

theorem Keeps.dropFlip (h : Keeps bf bd bt o s) {sector : Nat} : Keeps bf bd bt o (dropFlip s sector) := .frame h

theorem Keeps.commitBits (h : Keeps bf bd bt o s) {sector : Nat} {bits : List Nat} :
    Keeps bf bd bt o (commitBits s sector bits) := by
  unfold Machine.commitBits
  with_reducible exact .foldl (fun _ _ h => .withDram h (.memWrite h.dramFits)) h

theorem Keeps.poisonWord (h : Keeps bf bd bt o s) {pa : Nat} : Keeps bf bd bt o (poisonWord s pa) := by
  unfold Machine.poisonWord
  with_reducible exact .ite h (.ite (.record h) (.record h))

theorem Keeps.clearPoison (h : Keeps bf bd bt o s) {pa : Nat} : Keeps bf bd bt o (clearPoison s pa) := .frame h

theorem Keeps.onCounters (h : Keeps bf bd bt o s) {h' : Nat} {f : Counters → Counters} : Keeps bf bd bt o (onCounters s h' f) :=
  .frame h

theorem Keeps.countSeverity (h : Keeps bf bd bt o s) {h' sev : Nat} : Keeps bf bd bt o (countSeverity s h' sev) := .onCounters h

theorem Keeps.retireFrame (h : Keeps bf bd bt o s) {pa : Nat} : Keeps bf bd bt o (retireFrame s pa) := by
  unfold Machine.retireFrame
  with_reducible exact .ite h (.logError (.record h))

theorem Keeps.forgetHome (h : Keeps bf bd bt o s) {h' : Nat} {e : HomeLine} : Keeps bf bd bt o (forgetHome s h' e) := .frame h

theorem Keeps.evictHome (h : Keeps bf bd bt o s) {h' : Nat} {e : HomeLine} : Keeps bf bd bt o (evictHome s h' e) := by
  unfold Machine.evictHome
  with_reducible exact .record (.forgetHome h)

theorem Keeps.restoreWord (h : Keeps bf bd bt o s) {u : DramWord} : Keeps bf bd bt o (restoreWord s u) := by
  unfold Machine.restoreWord
  with_reducible exact .ite (.poisonWord (.withDram h (.memWriteN h.dramFits))) (.clearPoison (.withDram h (.memWriteN h.dramFits)))

theorem Keeps.discardHome (h : Keeps bf bd bt o s) {h' : Nat} {e : HomeLine} : Keeps bf bd bt o (discardHome s h' e) :=
  .foldl (fun _ _ h => .restoreWord h) (.forgetHome h)

theorem Keeps.fillHome (h : Keeps bf bd bt o s) {who : Option (AsidTag × Nat)} {p : Phys} :
    Keeps bf bd bt o (fillHome s who p) := by
  unfold Machine.fillHome
  extract_lets _ _ t
  have kt : Keeps bf bd bt o t := by
    unfold t
    split
    · with_reducible exact .ite (.evictHome h) h
    · exact h
  exact .record kt

theorem Keeps.dirtyHome (h : Keeps bf bd bt o s) {p : Phys} : Keeps bf bd bt o (dirtyHome s p) := .frame h

theorem Keeps.meetErrors (h : Keeps bf bd bt o s) {who : Option (AsidTag × Nat)} {sector layout : Nat} {policy : Bool × Bool}
    {bad : List Nat} {rewrite : Bool} {f : Flip} :
    Keeps bf bd bt o (meetErrors s who sector layout policy bad rewrite f) := by
  unfold Machine.meetErrors
  with_reducible
    exact .unless (.foldl (fun _ _ h => .onCounters h) (.commitBits (.dropFlip (.drawNat h)))) (fun h => .when (.when
      (.countSeverity (.ite (.foldl (fun _ _ h => .poisonWord h) h) h)) (fun h => .logError h)) (fun h => .retireFrame h))

theorem Keeps.policyOf (h : Keeps bf bd bt o s) {asid : BitVec 16} : Keeps bf bd bt o (policyOf s asid).2 := by
  unfold Machine.policyOf
  extract_lets _ t
  have kt : Keeps bf bd bt o t := by
    unfold t
    split
    · with_reducible exact .ite h (.meetErrors h)
    · exact h
  exact kt

theorem Keeps.settleSector (h : Keeps bf bd bt o s) {who : Option (AsidTag × Nat)} {sector layout : Nat} :
    Keeps bf bd bt o (settleSector s who sector layout) := by
  unfold Machine.settleSector
  split
  · rename_i e
    extract_lets
    split
    · exact h
    · with_reducible refine .meetErrors (.pair e ?_)
      split
      · exact h
      · with_reducible exact .policyOf h

theorem Keeps.settleScale (h : Keeps bf bd bt o s) {who : Option (AsidTag × Nat)} {sector mirror : Nat} :
    Keeps bf bd bt o (settleScale s who sector mirror) := by
  have copied {t : State} (ht : Keeps bf bd bt o t) (src dst : Nat) :
      Keeps bf bd bt o (Machine.dropFlip { t with dram := memWriteList t.dram (32 * dst) (memReadList t.dram (32 * src) 32) } dst) :=
    .dropFlip (.withDram ht (.memWriteList ht.dramFits))
  unfold Machine.settleScale
  exact .ite (copied (.settleSector h) mirror sector)
    (.ite (copied (.settleSector h) sector mirror) (.settleSector (.settleSector h)))

theorem Keeps.settle (h : Keeps bf bd bt o s) {who : Option (AsidTag × Nat)} {p : Phys} : Keeps bf bd bt o (settle s who p) :=
  .ite h (.fillHome (.foldl (fun _ _ h => .ite (.settleScale h) (.settleSector h)) h))

theorem Keeps.dramWrite (h : Keeps bf bd bt o s) {pa n v : Nat} {poison : Bool} : Keeps bf bd bt o (dramWrite s pa n v poison) := by
  unfold Machine.dramWrite
  with_reducible
    exact .ite (.poisonWord (.withDram h (.memWriteN h.dramFits))) (.when (.withDram h (.memWriteN h.dramFits)) (fun h =>
      .clearPoison h))

theorem Keeps.physWrite (h : Keeps bf bd bt o s) {p : Phys} {n v : Nat} {poison : Bool} :
    Keeps bf bd bt o (physWrite s p n v poison) :=
  .when (.dramWrite (.dirtyHome h)) (fun h => .dramWrite h)

theorem Keeps.metaRead (h : Keeps bf bd bt o s) {pa : Nat} : Keeps bf bd bt o (metaRead s pa).2 := by
  unfold Machine.metaRead
  extract_lets
  split
  · with_reducible exact .settle h
  · with_reducible exact .settle h

theorem Keeps.metaWrite (h : Keeps bf bd bt o s) {pa : Nat} {v : DWord} : Keeps bf bd bt o (metaWrite s pa v) := by
  unfold Machine.metaWrite
  with_reducible exact .dramWrite (.dramWrite (.dirtyHome (.dirtyHome (.settle h))))

theorem Keeps.writeFault (h : KeepsWf o s) {h' : Nat} {r : FaultRec} : KeepsWf o (writeFault s h' r).2 := by
  unfold Machine.writeFault
  extract_lets
  split
  · split
    · with_reducible exact .putFaultBuf h
    · with_reducible exact .putFaultBuf h
  · with_reducible exact .raiseIf (.putFaultBuf h)

theorem Keeps.deliverFaults (h : KeepsWf o s) {w : Nat} : KeepsWf o (deliverFaults s w) := .frame h

/-! The operations of Machine/Translate.lean. -/

theorem Keeps.keepPointer (h : Keeps bf bd bt o s) {h' : Nat} {e : WalkEntry} : Keeps bf bd bt o (keepPointer s h' e) := .frame h

theorem Keeps.walkFrom (h : Keeps bf bd bt o s) {h' : Nat} {tag : AsidTag} {va : Nat} {p : DWord} {level fuel : Nat} :
    Keeps bf bd bt o (walkFrom h' tag va s p level fuel).2 := by
  induction fuel generalizing s h' tag va p level with
  | zero =>
    unfold Machine.walkFrom
    exact h
  | succ n ih =>
    unfold Machine.walkFrom
    split
    · exact h
    · split
      · exact h
      · extract_lets
        split
        · rename_i e2
          with_reducible exact .retireFrame (.pair e2 (.metaRead h))
        · rename_i e2
          split
          · with_reducible exact .pair e2 (.metaRead h)
          · split
            · split
              · with_reducible exact .pair e2 (.metaRead h)
              · with_reducible exact .pair e2 (.metaRead h)
            · with_reducible exact ih (.ite (.pair e2 (.metaRead h)) (.keepPointer (.pair e2 (.metaRead h))))

theorem Keeps.walk (h : Keeps bf bd bt o s) {h' : Nat} {tag : AsidTag} {va : Nat} : Keeps bf bd bt o (walk s h' tag va).2 := by
  unfold Machine.walk
  extract_lets
  split
  · exact h
  · split
    · rename_i e1
      with_reducible exact .pair e1 (.metaRead h)
    · rename_i e1
      split
      · with_reducible exact .pair e1 (.metaRead h)
      · split
        · with_reducible exact .walkFrom (.pair e1 (.metaRead h))
        · split
          · rename_i e4
            with_reducible exact .pair e4 (.metaRead (.pair e1 (.metaRead h)))
          · rename_i e4
            with_reducible exact .walkFrom (.pair e4 (.metaRead (.pair e1 (.metaRead h))))

theorem Keeps.keepTlb (h : Keeps bf bd bt o s) {h' : Nat} {e : TlbEntry} : Keeps bf bd bt o (keepTlb s h' e) := .frame h

theorem Keeps.markLeaf (h : Keeps bf bd bt o s) {addr : Nat} {pte : DWord} {acc : Acc} :
    Keeps bf bd bt o (markLeaf s addr pte acc).2 :=
  .ite h (.metaWrite h)

/-- `Keeps` of the state in a pair, as a predicate that is not unfolded. -/
def PairKeeps {α : Type} (bf bd bt : Bool) (o : State) (p : α × State) : Prop := Keeps bf bd bt o p.2

theorem of_def {α : Sort*} {P : α → Prop} {a b : α} (e : a = b) (h : P b) : P a := e ▸ h

theorem PairKeeps.walkFor (h : Keeps bf bd bt o s) {h' : Nat} {tag : AsidTag} {va : Nat} {acc : Acc} {sup : Bool} :
    PairKeeps bf bd bt o (walkFor s h' tag va acc sup) := by
  refine of_def (a := @Machine.walkFor) (P := fun f => PairKeeps bf bd bt o (f s h' tag va acc sup))
    (by delta Machine.walkFor; rfl) ?_
  beta_reduce
  have kw := Keeps.walk h (h' := h') (tag := tag) (va := va)
  generalize Machine.walk s h' tag va = w at kw ⊢
  split
  · exact kw
  · split
    · exact kw
    · dsimp only
      split
      · exact .keepTlb (.markLeaf kw)
      · exact .keepTlb (.markLeaf kw)

theorem Keeps.walkFor (h : Keeps bf bd bt o s) {h' : Nat} {tag : AsidTag} {va : Nat} {acc : Acc} {sup : Bool} :
    Keeps bf bd bt o (walkFor s h' tag va acc sup).2 :=
  PairKeeps.walkFor h

theorem Keeps.translate (h : Keeps bf bd bt o s) {tag : AsidTag} {va : Nat} {acc : Acc} {sup : Bool} :
    Keeps bf bd bt o (translate s tag va acc sup).2 := by
  unfold Machine.translate
  split
  · extract_lets
    split
    · exact h
    · exact h
  · extract_lets
    split
    · exact h
    · split
      · split
        · split
          · exact h
          · exact h
        · split
          · exact h
          · with_reducible exact .walkFor h
      · with_reducible exact .walkFor h

/-! The operations of Machine/Caches.lean. -/

theorem Keeps.putCw (h : Keeps bf bd bt o s) {n : Node} {tag : AsidTag} {va : Nat} {c : CWord} :
    Keeps bf bd bt o (putCw s n tag va c) :=
  .frame h

theorem Keeps.dropCw (h : Keeps bf bd bt o s) {n : Node} {tag : AsidTag} {va : Nat} : Keeps bf bd bt o (dropCw s n tag va) :=
  .frame h

theorem Keeps.dropWords (h : Keeps bf bd bt o s) {n : Node} {tag : AsidTag} {line : Nat} {m : BitVec 32} :
    Keeps bf bd bt o (dropWords s n tag line m) :=
  .foldl (fun _ _ h => .dropCw h) h

theorem Keeps.putDir (h : Keeps bf false false o s) {n : Node} {tag : AsidTag} {line : Nat} {child : Node} {r : DRec} :
    Keeps bf false false o (putDir s n tag line child r) := by
  unfold Machine.putDir
  with_reducible exact .ite (.record h) (.record h)

theorem Keeps.unregister (h : Keeps bf false false o s) {n : Node} {tag : AsidTag} {line : Nat} {child : Node} {mask : BitVec 32} :
    Keeps bf false false o (unregister s n tag line child mask) :=
  .ite h (.putDir h)

theorem Keeps.dropLine (h : Keeps bf false bt o s) {n : Node} {tag : AsidTag} {line : Nat} :
    Keeps bf false bt o (dropLine s n tag line) :=
  .frame h

theorem Keeps.markNt (h : KeepsWf o s) {ns : List Node} {tag : AsidTag} {line : Nat} : KeepsWf o (markNt s ns tag line) := .frame h

theorem Keeps.dropL0 (h : KeepsWf o s) {core : Nat} {tag : AsidTag} {line : Nat} : KeepsWf o (dropL0 s core tag line) :=
  .putDir (.dropLine h)

theorem Keeps.fillL0 (h : KeepsWf o s) {core : Nat} {tag : AsidTag} {line : Nat} : KeepsWf o (fillL0 s core tag line) := by
  unfold Machine.fillL0
  with_reducible refine .unless (.dropL0 h) (fun h => .unless (.putDir (.foldl (fun _ _ h => .putCw h) h)) (fun h => ?_))
  split
  · with_reducible exact .dropL0 h
  · exact h

/-! The operations of Machine/Coherence.lean. -/

theorem Keeps.send (h : Keeps bf false bt o s) {m : Msg} : Keeps bf false bt o (send s m) := .frame h

theorem Keeps.sendAll (h : Keeps bf false false o s) {ms : List Msg} : Keeps bf false false o (sendAll s ms) := .frame h

theorem Keeps.dropTxn (h : Keeps bf false bt o s) {t : Txn} : Keeps bf false bt o (dropTxn s t) :=
  .frame h (et := fun _ e => by simp [Machine.dropTxn, e])

/-- A transaction that is new, or, where the mark says that none comes of none, one more. -/
theorem Keeps.putTxn (h : Keeps bf false bt o s) {t : Txn} (hn : bt = true → s.txns ≠ [] := by rintro ⟨⟩) :
    Keeps bf false bt o (putTxn s t) :=
  .frame h (et := fun b e => absurd e (hn b))

theorem Keeps.locate (h : Keeps bf bd bt o s) {tag : AsidTag} {va : Nat} {acc : Acc} : Keeps bf bd bt o (locate s tag va acc).2 :=
  .translate h

theorem Keeps.homeWord (h : Keeps bf bd bt o s) {tag : AsidTag} {va : Nat} : Keeps bf bd bt o (homeWord s tag va).2 := by
  unfold Machine.homeWord
  split
  · rename_i e
    with_reducible exact .settle (.pair e (.locate h))
  · rename_i e
    with_reducible exact .pair e (.locate h)
  · rename_i e
    with_reducible exact .pair e (.locate h)

theorem Keeps.homeStore (h : Keeps bf bd bt o s) {tag : AsidTag} {line : Nat} {ws : List MWordData} :
    Keeps bf bd bt o (homeStore s tag line ws) := by
  unfold Machine.homeStore
  with_reducible refine .ite h ?_
  split
  · rename_i e
    with_reducible exact .pair e (.locate h)
  · rename_i e
    with_reducible exact .logError (.pair e (.locate h))
  · rename_i e
    with_reducible exact .foldl (fun _ _ h => .physWrite (.settle h)) (.pair e (.locate h))

theorem Keeps.poisonVa (h : Keeps bf bd bt o s) {tag : AsidTag} {va : Nat} : Keeps bf bd bt o (poisonVa s tag va) := by
  unfold Machine.poisonVa
  split
  · rename_i e
    with_reducible exact .poisonWord (.pair e (.locate h))
  · rename_i e
    with_reducible exact .pair e (.locate h)

theorem Keeps.loseWords (h : Keeps bf bd bt o s) {n : Node} {sev : Nat} {tag : AsidTag} {line : Nat} {mask : BitVec 32} :
    Keeps bf bd bt o (loseWords s n sev tag line mask) :=
  .ite h (.countSeverity (.dropWords (.foldl (fun _ _ h => .poisonVa h) h)))

theorem walksOf_count (r : Kv Nat Rebuild) (k : Nat) (n : Word) :
    walksOf (kvPut r k { kvGet r k Rebuild.clear with lines := n }) = walksOf r := by
  funext j
  by_cases e : k = j
  · subst e
    simp [walksOf, kvGet]
  · simp [walksOf, kvGet, kvFind_put_other _ _ e]

theorem standsOf_count (s : State) (k : Nat) (n : Word) :
    standsOf { s with rebuilds := kvPut s.rebuilds k { rebuildAt s k with lines := n } } = standsOf s := by
  simp only [standsOf, fencesOf, rebuildAt, walksOf_count]

theorem Keeps.walkEntry (h : Keeps bf false false o s) {n : Node} {k : Nat} {tag : AsidTag} {line : Nat} {child : Node} :
    Keeps bf false false o (walkEntry s n k tag line child) := by
  unfold Machine.walkEntry
  with_reducible refine .ite h (.unless ?_ fun h => .record h (ef := fun _ => standsOf_count ..))
  split
  · with_reducible exact .unregister (.loseWords (.putDir h))
  · with_reducible exact .loseWords (.putDir h)

theorem Keeps.walkAhead (h : KeepsWf o s) {n : Node} {tag : AsidTag} {line : Nat} : KeepsWf o (walkAhead s n tag line) :=
  .foldl (fun _ _ h => .walkEntry h) h

theorem Keeps.fill (h : Keeps bf false false o s) {n : Node} {tag : AsidTag} {line : Nat} {ws : List MWordData} :
    Keeps bf false false o (fill s n tag line ws) := by
  unfold Machine.fill
  with_reducible refine .foldl (fun _ _ h => ?_) h
  extract_lets
  split
  · with_reducible exact .ite h (.putCw h)
  · with_reducible exact .putCw h

theorem Keeps.ownWords (h : Keeps bf false false o s) {n : Node} {tag : AsidTag} {line : Nat} {mask : BitVec 32} :
    Keeps bf false false o (ownWords s n tag line mask) := by
  unfold Machine.ownWords
  with_reducible refine .foldl (fun _ _ h => ?_) h
  extract_lets
  split
  · with_reducible exact .putCw h
  · with_reducible exact .putCw h

theorem Keeps.claim (h : Keeps bf false false o s) {n : Node} {tag : AsidTag} {line : Nat} {mask : BitVec 32} :
    Keeps bf false false o (claim s n tag line mask) := by
  unfold Machine.claim
  split
  · exact h
  · with_reducible exact .ite h (.send (.ite h (.ownWords h)))

theorem Keeps.putDirty (h : Keeps bf false false o s) {n : Node} {tag : AsidTag} {line : Nat} {ws : List MWordData} :
    Keeps bf false false o (putDirty s n tag line ws) :=
  .foldl (fun _ _ h => .putCw h) h

theorem Keeps.voidReads (h : Keeps bf false bt o s) {n : Node} {tag : AsidTag} {line : Nat} {gone : BitVec 32} :
    Keeps bf false bt o (voidReads s n tag line gone) := by
  unfold Machine.voidReads
  exact .ite h (.record h (et := fun _ e => by simp [e]))

theorem Keeps.reserveWords (h : Keeps bf false false o s) {n : Node} {tag : AsidTag} {line : Nat} {mask : BitVec 32} :
    Keeps bf false false o (reserveWords s n tag line mask) :=
  .foldl (fun _ _ h => .putCw h) h

theorem Keeps.dropReserved (h : KeepsWf o s) {n : Node} {tag : AsidTag} {line : Nat} {mask : BitVec 32} :
    KeepsWf o (dropReserved s n tag line mask) :=
  .dropWords h

theorem Keeps.flushClaim (h : Keeps bf false false o s) {n : Node} {tag : AsidTag} {line : Nat} {mask : BitVec 32} {atom : Option AtomReq} :
    Keeps bf false false o (flushClaim s n tag line mask atom) := by
  unfold Machine.flushClaim
  split
  · exact h
  · with_reducible exact .ite h (.send (.voidReads (.ite h (.reserveWords h))))

theorem Keeps.absorb (h : Keeps bf false false o s) {n : Node} {tag : AsidTag} {line : Nat} {ws : List MWordData} :
    Keeps bf false false o (absorb s n tag line ws) := by
  unfold Machine.absorb
  with_reducible refine .ite h ?_
  split
  · with_reducible exact .homeStore h
  · split
    · with_reducible exact .send (.voidReads h)
    · exact h
  · with_reducible exact .claim (.putDirty h)

theorem Keeps.ackWrite (h : Keeps bf false false o s) {n : Node} {m : Msg} : Keeps bf false false o (ackWrite n m s) := .send h

theorem Keeps.registerWriter (h : Keeps bf false false o s) {m : Msg} : Keeps bf false false o (registerWriter s m) := .putDir h

theorem Keeps.takeClaim (h : Keeps bf false false o s) {m : Msg} : Keeps bf false false o (takeClaim s m) := by
  unfold Machine.takeClaim
  split
  · with_reducible exact .registerWriter h
  · with_reducible exact .claim (.registerWriter h)

theorem Keeps.dropOlder (h : KeepsWf o s) {m : Msg} {gone : BitVec 32} : KeepsWf o (dropOlder s m gone) := .dropWords h

theorem Keeps.takeWords (h : KeepsWf o s) {m : Msg} : KeepsWf o (takeWords s m).2 := .absorb (.ite h (.dropOlder h))

theorem Keeps.registerPushed (h : KeepsWf o s) {m : Msg} {mask : BitVec 32} : KeepsWf o (registerPushed s m mask) :=
  .ite h (.putDir h)

theorem Keeps.nestClaim (h : KeepsWf o s) {t : Txn} {m : Msg} : KeepsWf o (nestClaim s t m) :=
  .ite (.ackWrite (.takeClaim (.putTxn h))) (.sendAll (.putTxn h))

theorem Keeps.sendNack (h : Keeps bf false false o s) {n : Node} {m : Msg} {reason : Nat} :
    Keeps bf false false o (sendNack s n m reason) :=
  .send h

theorem Keeps.readLine (h : Keeps bf false false o s) {n : Node} {tag : AsidTag} {line : Nat} {fresher : List MWordData} :
    Keeps bf false false o (readLine s n tag line fresher).2 := by
  unfold Machine.readLine
  split
  · with_reducible refine .foldPair (fun _ _ h => ?_) h
    split
    · rename_i e1
      with_reducible exact .pair e1 (.homeWord h)
    · rename_i e1 _
      with_reducible exact .pair e1 (.homeWord h)
  · exact h

theorem Keeps.grantClaim (h : Keeps bf false false o s) {m : Msg} {ws : List MWordData} :
    Keeps bf false false o (grantClaim s m ws) :=
  .send (.ackWrite (.registerWriter h))

theorem Keeps.serveClaim (h : Keeps bf false false o s) {m : Msg} {brought : List MWordData} :
    Keeps bf false false o (serveClaim s m brought) := by
  unfold Machine.serveClaim
  extract_lets
  split
  · with_reducible refine .ite ?_ (.flushClaim (.putTxn h))
    split
    · rename_i e1
      with_reducible exact .sendNack (.pair e1 (.readLine h))
    · rename_i e1
      with_reducible exact .grantClaim (.pair e1 (.readLine h))
  · with_reducible exact .sendAll (.putTxn h)

theorem Keeps.handleGetW (h : KeepsWf o s) {m : Msg} : KeepsWf o (handleGetW s m) := by
  unfold Machine.handleGetW
  with_reducible refine .ite (.sendNack (.walkAhead h)) (.ite (.serveClaim (.walkAhead h)) ?_)
  split
  · with_reducible exact .nestClaim (.walkAhead h)
  · split
    · with_reducible exact .ackWrite (.takeClaim (.walkAhead h))
    · with_reducible exact .sendAll (.putTxn (.walkAhead h))

theorem Keeps.handleWbW (h : KeepsWf o s) {m : Msg} : KeepsWf o (handleWbW s m) := by
  unfold Machine.handleWbW
  with_reducible refine .ite (.sendNack (.walkAhead h)) ?_
  split
  · rename_i e
    extract_lets t1
    have kt1 : KeepsWf o t1 := by with_reducible exact .registerPushed (.pair e (.takeWords (.walkAhead h)))
    split
    · with_reducible exact .ite (.ackWrite kt1) (.putTxn kt1)
    · split
      · with_reducible exact .ackWrite kt1
      · with_reducible exact .sendAll (.putTxn kt1)

theorem Keeps.collectWords (h : KeepsWf o s) {m : Msg} : KeepsWf o (stateOr s (collectWords s m)) := by
  unfold Machine.collectWords
  split
  · with_reducible exact .mapped h (fun _ _ => .putTxn (.voidReads h))
  · exact h

theorem Keeps.handleWbL (h : KeepsWf o s) {m : Msg} : KeepsWf o (handleWbL s m) := by
  unfold Machine.handleWbL
  extract_lets t u again
  have ht : KeepsWf o t := .walkAhead h
  have hu : KeepsWf o u := .getD (.takeWords ht) (.collectWords ht)
  clear_value u again
  exact .ite hu (.putDir hu)

theorem Keeps.serveRead (h : Keeps bf false false o s) {n : Node} {m : Msg} {fresher : List MWordData} :
    Keeps bf false false o (serveRead s n m fresher) := by
  have kr := Keeps.readLine h (n := n) (tag := m.tag) (line := m.line) (fresher := fresher)
  unfold Machine.serveRead
  extract_lets short
  generalize Machine.readLine s n m.tag m.line fresher = p at kr ⊢
  split
  · exact .send (.putTxn h)
  · match p with
    | (none, t) => exact .sendNack kr
    | (some ws, t) =>
      dsimp only
      refine .send ?_
      split
      · with_reducible exact .ite (.putDir kr) kr
      · with_reducible exact .ite (.putDir kr) kr
      · with_reducible exact .ite (.putDir (.fill kr)) (.fill kr)

theorem Keeps.handleGetS (h : KeepsWf o s) {m : Msg} : KeepsWf o (handleGetS s m) :=
  .ite (.sendNack (.walkAhead h)) (.ite (.serveRead (.walkAhead h)) (.sendAll (.putTxn (.walkAhead h))))

theorem Keeps.askNode (h : KeepsWf o s) {n : Node} {tag : AsidTag} {vas : List Nat} : KeepsWf o (askNode s n tag vas) := by
  unfold Machine.askNode
  with_reducible refine .foldl (fun _ _ h => ?_) h
  split
  · exact h
  · with_reducible exact .ite h (.send h)

theorem Keeps.siteWord (h : Keeps bf false false o s) {n : Node} {tag : AsidTag} {va : Nat} :
    Keeps bf false false o (siteWord s n tag va).2 := by
  unfold Machine.siteWord
  split
  · split
    · rename_i e1
      with_reducible exact .pair e1 (.homeWord h)
    · rename_i e1
      with_reducible exact .pair e1 (.homeWord h)
  · split
    · exact h
    · exact h

theorem Keeps.siteStore (h : Keeps bf false false o s) {n : Node} {tag : AsidTag} {line : Nat} {ws : List MWordData} :
    Keeps bf false false o (siteStore s n tag line ws) := by
  unfold Machine.siteStore
  split
  · with_reducible exact .homeStore h
  · with_reducible exact .putDirty h

theorem Keeps.atomStep (h : Keeps bf false false o s) {n : Node} {tag : AsidTag} {sub va x y : Nat} :
    Keeps bf false false o (atomStep s n tag sub va x y).2 := by
  unfold Machine.atomStep
  split
  · rename_i e
    split
    · with_reducible exact .pair e (.siteWord h)
    · split
      · with_reducible exact .siteStore (.pair e (.siteWord h))
      · split
        · with_reducible exact .siteStore (.pair e (.siteWord h))
        · split
          · split
            · with_reducible exact .pair e (.siteWord h)
            · with_reducible exact .siteStore (.pair e (.siteWord h))
          · split
            · rename_i e5
              split
              · with_reducible exact .pair e5 (.siteWord (.pair e (.siteWord h)))
              · with_reducible exact .siteStore (.pair e5 (.siteWord (.pair e (.siteWord h))))

theorem Keeps.atomLanes (h : Keeps bf false false o s) {n : Node} {tag : AsidTag} {sub : Nat} {l : List AtomLane} :
    Keeps bf false false o (atomLanes n tag sub l s).2 := by
  induction l generalizing s n tag sub with
  | nil =>
    unfold Machine.atomLanes
    exact h
  | cons a l ih =>
    unfold Machine.atomLanes
    with_reducible exact ih (.atomStep h)

theorem Keeps.doneStep (h : Keeps bf false false o s) {n : Node} {tag : AsidTag} {fr : Nat} :
    Keeps bf false false o (doneStep s n tag fr).2 := by
  unfold Machine.doneStep
  with_reducible exact .unless (.foldPair (fun _ _ h => .siteWord h) (.siteWord h)) (fun h => .siteStore h)

theorem Keeps.returnResults (h : Keeps bf false false o s) {w : Nat} {rs : List (Nat × Nat × Bool)} :
    Keeps bf false false o (returnResults s w rs) :=
  .onWave h

theorem Keeps.spoilWords (h : Keeps bf false false o s) {n : Node} {tag : AsidTag} {vas : List Nat} :
    Keeps bf false false o (spoilWords s n tag vas) :=
  .foldl (fun _ _ h => .siteStore (.siteWord h)) h

theorem Keeps.performAtomic (h : Keeps bf false false o s) {n : Node} {tag : AsidTag} {line : Nat} {r : AtomReq} :
    Keeps bf false false o (performAtomic s n tag line r).2 := by
  unfold Machine.performAtomic
  have kd := Keeps.doneStep h (n := n) (tag := tag) (fr := (r.lanes.headD default).va)
  have ka := Keeps.atomLanes h (n := n) (tag := tag) (sub := r.sub) (l := r.lanes)
  generalize Machine.doneStep s n tag (r.lanes.headD default).va = d at kd ⊢
  generalize Machine.atomLanes n tag r.sub r.lanes s = a at ka ⊢
  have kp : Keeps bf false false o (if r.sub = doneCode then d else a).2 := by split <;> assumption
  generalize (if r.sub = doneCode then d else a) = p at kp ⊢
  dsimp only
  have ku : Keeps bf false false o (if (r.lost && decide (r.sub ≠ volLoad)) = true then Machine.spoilWords p.2 n tag
    (atomTouches r) else p.2) :=
    .when kp fun h => .spoilWords h
  cases n with
  | home => exact ku
  | l0 | l1 | die | stk | bridge => with_reducible exact .ownWords ku

theorem Keeps.prepareSite (h : Keeps bf false false o s) {n : Node} {tag : AsidTag} {line : Nat} {r : AtomReq} :
    Keeps bf false false o (prepareSite s n tag line r) :=
  .ite h (.flushClaim h)

theorem Keeps.serveAtomic (h : Keeps bf false false o s) {n : Node} {m : Msg} : Keeps bf false false o (serveAtomic s n m) := by
  unfold Machine.serveAtomic
  split
  · exact h
  · with_reducible
      exact .ite (.prepareSite (.ite h (.putTxn h))) (.ite (.sendNack h) (.returnResults (.performAtomic (.dropTxn h))))

theorem Keeps.handleGetM (h : KeepsWf o s) {m : Msg} : KeepsWf o (handleGetM s m) := by
  unfold Machine.handleGetM
  split
  · with_reducible exact .walkAhead h
  · with_reducible refine .ite ?_ (.ite (.sendNack (.walkAhead h)) ?_)
    · split
      · with_reducible exact .send (.walkAhead h)
      · with_reducible exact .walkAhead h
    · split
      · with_reducible exact .serveAtomic (.walkAhead h)
      · with_reducible exact .sendAll (.putTxn (.walkAhead h))

theorem Keeps.forgetWords (h : Keeps bf false bt o s) {n : Node} {tag : AsidTag} {line : Nat} {mask : BitVec 32} :
    Keeps bf false bt o (forgetWords s n tag line mask) := by
  unfold Machine.forgetWords
  split
  · rename_i e
    with_reducible exact .ite (.putTxn h fun _ none => by simp [txnAt, none] at e) h
  · exact h

theorem Keeps.giveUp (h : Keeps bf false bt o s) {n : Node} {m : Msg} {fresher : List MWordData} :
    Keeps bf false bt o (giveUp s n m fresher) := by
  unfold Machine.giveUp
  with_reducible refine .ite ?_ (.send (.unless (.forgetWords (.dropLine h)) (fun h => .send h)))
  split
  · with_reducible exact .send (.voidReads (.forgetWords (.dropLine h)))
  · with_reducible exact .forgetWords (.dropLine h)

theorem Keeps.handleRecall (h : KeepsWf o s) {m : Msg} : KeepsWf o (handleRecall s m) := by
  unfold Machine.handleRecall
  extract_lets
  split
  · with_reducible exact .giveUp h
  · with_reducible exact .sendAll (.putTxn h)

theorem Keeps.answerRead (h : Keeps bf false false o s) {n : Node} {m : Msg} {fresher : List MWordData} :
    Keeps bf false false o (answerRead s n m fresher) :=
  .send h

theorem Keeps.handleFwdS (h : KeepsWf o s) {m : Msg} : KeepsWf o (handleFwdS s m) := by
  unfold Machine.handleFwdS
  extract_lets
  split
  · with_reducible exact .answerRead h
  · with_reducible exact .sendAll (.putTxn h)

theorem Keeps.supersedeWords (h : Keeps bf false false o s) {n : Node} {tag : AsidTag} {line : Nat} {mask : BitVec 32} :
    Keeps bf false false o (supersedeWords s n tag line mask) := by
  unfold Machine.supersedeWords
  with_reducible refine .foldl (fun _ _ h => ?_) h
  extract_lets
  split
  · exact h
  · with_reducible exact .ite (.dropCw h) (.putCw h)

theorem Keeps.answerDrop (h : Keeps bf false false o s) {n : Node} {m : Msg} {gone : BitVec 32} :
    Keeps bf false false o (answerDrop s n m gone) :=
  .send h

theorem Keeps.answerFlush (h : Keeps bf false false o s) {n : Node} {m : Msg} {fresher : List MWordData} :
    Keeps bf false false o (answerFlush s n m fresher) :=
  .answerDrop (.unless (.forgetWords (.supersedeWords h)) (fun h => .send h))

theorem Keeps.handleDrop (h : KeepsWf o s) {m : Msg} : KeepsWf o (handleDrop s m) := by
  unfold Machine.handleDrop
  split
  · extract_lets
    split
    · with_reducible exact .answerFlush h
    · with_reducible exact .sendAll (.putTxn h)
  · extract_lets
    split
    · with_reducible exact .answerDrop (.forgetWords (.supersedeWords h))
    · with_reducible exact .sendAll (.putTxn (.forgetWords (.supersedeWords h)))

theorem Keeps.settleHeld (h : Keeps bf false false o s) {recalled : Bool} {a : Msg} :
    Keeps bf false false o (settleHeld recalled s a) :=
  .ackWrite (.ite h (.ite (.takeClaim h) (.claim h)))

theorem Keeps.finishTxn (h : Keeps bf false false o s) {t : Txn} : Keeps bf false false o (finishTxn s t) := by
  unfold Machine.finishTxn
  with_reducible
    refine .ite (.ite (.serveAtomic (.putTxn (.foldl (fun _ _ h => .settleHeld h) (.dropTxn h)))) (.when (.putTxn (.foldl
      (fun _ _ h => .settleHeld h) (.dropTxn h))) (fun h => .serveClaim (.dropTxn h)))) ?_
  split
  · with_reducible exact .serveRead (.foldl (fun _ _ h => .settleHeld h) (.dropTxn h))
  · with_reducible exact .serveAtomic (.absorb (.foldl (fun _ _ h => .settleHeld h) (.dropTxn h)))
  · with_reducible exact .serveAtomic (.absorb (.foldl (fun _ _ h => .settleHeld h) (.dropTxn h)))
  · with_reducible
      exact .ite (.serveClaim (.foldl (fun _ _ h => .settleHeld h) (.dropTxn h))) (.ackWrite (.takeClaim (.foldl (fun _ _ h =>
        .settleHeld h) (.dropTxn h))))
  · with_reducible exact .ackWrite (.foldl (fun _ _ h => .settleHeld h) (.dropTxn h))
  · with_reducible exact .answerRead (.foldl (fun _ _ h => .settleHeld h) (.dropTxn h))
  · with_reducible exact .giveUp (.foldl (fun _ _ h => .settleHeld h) (.dropTxn h))
  · with_reducible exact .giveUp (.foldl (fun _ _ h => .settleHeld h) (.dropTxn h))
  · with_reducible
      exact .ite (.answerFlush (.foldl (fun _ _ h => .settleHeld h) (.dropTxn h))) (.answerDrop (.foldl (fun _ _ h => .settleHeld h)
        (.dropTxn h)))
  · with_reducible exact .foldl (fun _ _ h => .settleHeld h) (.dropTxn h)

theorem Keeps.noteAnswer (h : KeepsWf o s) {t : Txn} {m : Msg} : KeepsWf o (noteAnswer s t m) := by
  unfold Machine.noteAnswer
  split
  · with_reducible exact .ite (.putDir h) (.dropOlder (.unregister h))
  · with_reducible exact .ite (.putDir h) h
  · with_reducible exact .ite (.putDir h) h
  · exact h

theorem Keeps.handleAnswer (h : KeepsWf o s) {m : Msg} : KeepsWf o (handleAnswer s m) := by
  unfold Machine.handleAnswer
  split
  · exact h
  · with_reducible exact .ite (.finishTxn (.noteAnswer h)) (.putTxn (.noteAnswer h))

theorem Keeps.evictL1Line (h : Keeps bf false bt o s) {cl : Nat} {tag : AsidTag} {line : Nat} :
    Keeps bf false bt o (evictL1Line s cl tag line) :=
  .giveUp h

theorem Keeps.evictL1Block (h : KeepsWf o s) {cl : Nat} {tag : AsidTag} {blk : Nat} : KeepsWf o (evictL1Block s cl tag blk) := by
  unfold Machine.evictL1Block
  with_reducible exact .record (.foldl (fun _ _ h => .evictL1Line h) h)

theorem Keeps.takeWay (h : KeepsWf o s) {cl : Nat} {tag : AsidTag} {blk : Nat} : KeepsWf o (takeWay s cl tag blk) := by
  unfold Machine.takeWay
  with_reducible refine .ite h ?_
  split
  · exact .record h
  · split
    · with_reducible exact .record (.evictL1Block h)
    · exact h

theorem Keeps.trimL1 (h : KeepsWf o s) {cl : Nat} {tag : AsidTag} {line : Nat} : KeepsWf o (trimL1 s cl tag line) := by
  unfold Machine.trimL1
  with_reducible exact .when (.record h) (fun h => .takeWay h)

theorem Keeps.releaseL1 (h : KeepsWf o s) {cl : Nat} {tag : AsidTag} {line : Nat} : KeepsWf o (releaseL1 s cl tag line) :=
  .ite (.evictL1Line h) h

theorem Keeps.releaseStray (h : Keeps bf false bt o s) {cl : Nat} : Keeps bf false bt o (releaseStray s cl) :=
  .ite h (.foldl (fun _ _ h => .evictL1Line h) h)

theorem Keeps.evictLine (h : KeepsWf o s) {n : Node} {tag : AsidTag} {line : Nat} : KeepsWf o (evictLine s n tag line) := .send h

theorem Keeps.evictBlock (h : KeepsWf o s) {n : Node} {tag : AsidTag} {blk : Nat} : KeepsWf o (evictBlock s n tag blk) :=
  .foldl (fun _ _ h => .ite (.evictLine h) h) h

theorem Keeps.trimDie (h : KeepsWf o s) {d : Nat} {tag : AsidTag} {line : Nat} : KeepsWf o (trimDie s d tag line) := by
  unfold Machine.trimDie
  with_reducible refine .ite h ?_
  split
  · with_reducible exact .evictBlock h
  · exact h

theorem Keeps.trimDir (h : KeepsWf o s) {n : Node} {tag : AsidTag} {line : Nat} : KeepsWf o (trimDir s n tag line) := by
  unfold Machine.trimDir
  split
  · exact h
  · with_reducible refine .ite h ?_
    split
    · with_reducible exact .evictLine h
    · exact h

theorem Keeps.fillClean (h : KeepsWf o s) {n : Node} {tag : AsidTag} {line : Nat} {ws : List MWordData} :
    KeepsWf o (fillClean s n tag line ws) := by
  unfold Machine.fillClean
  with_reducible refine .foldl (fun _ _ h => ?_) (.fill h)
  split
  · with_reducible exact .ite h (.dropCw h)
  · exact h

theorem Keeps.handleDataC (h : KeepsWf o s) {m : Msg} : KeepsWf o (handleDataC s m) := by
  unfold Machine.handleDataC
  split
  · extract_lets
    split
    · exact h
    · with_reducible refine .ite h ?_
      split
      · with_reducible exact .serveRead (.dropTxn h)
      · with_reducible exact .serveAtomic h
      · with_reducible exact .serveAtomic h
      · with_reducible exact .serveClaim (.dropTxn h)
      · with_reducible exact .dropTxn h
  · extract_lets
    split
    · with_reducible exact .fillClean h
    · with_reducible refine .ite (.fillClean h) ?_
      split
      · with_reducible exact .serveRead (.dropTxn (.fillClean h))
      · with_reducible exact .serveAtomic (.fillClean h)
      · with_reducible exact .serveAtomic (.fillClean h)
      · with_reducible exact .serveClaim (.dropTxn (.fillClean h))
      · with_reducible exact .dropTxn (.fillClean h)

theorem Keeps.refuseAtom (h : KeepsWf o s) {r : AtomReq} : KeepsWf o (refuseAtom s r) := by
  unfold Machine.refuseAtom
  with_reducible exact .ite (.onWave h) (.record h)

theorem Keeps.handleNack (h : KeepsWf o s) {m : Msg} : KeepsWf o (handleNack s m) := by
  unfold Machine.handleNack
  with_reducible refine .ite ?_ ?_
  · split
    · split
      · with_reducible exact .refuseAtom h
      · with_reducible exact .send h
      · exact h
    · split
      · extract_lets
        split
        · with_reducible exact .ite (.sendNack (.dropTxn (.dropReserved h))) (.dropReserved h)
        · with_reducible exact .dropReserved h
      · extract_lets
        split
        · with_reducible exact .ite (.sendNack (.dropTxn h)) h
        · exact h
  · split
    · exact .record h
    · exact h

theorem Keeps.handleMsg (h : KeepsWf o s) {m : Msg} : KeepsWf o (handleMsg s m) := by
  unfold Machine.handleMsg
  split
  · with_reducible exact .handleGetS h
  · with_reducible exact .handleGetW h
  · with_reducible exact .handleGetM h
  · with_reducible exact .handleGetM h
  · with_reducible exact .handleFwdS h
  · with_reducible exact .handleRecall h
  · with_reducible exact .handleRecall h
  · with_reducible exact .handleDrop h
  · with_reducible exact .handleAnswer h
  · with_reducible exact .handleAnswer h
  · with_reducible exact .handleDataC h
  · with_reducible exact .handleWbW h
  · with_reducible exact .handleWbL h
  · with_reducible exact .handleNack h
  · exact h

theorem Keeps.touchStk (h : KeepsWf o s) {k : Nat} {tag : AsidTag} {line : Nat} : KeepsWf o (touchStk s k tag line) := by
  unfold Machine.touchStk
  with_reducible refine .unless (.record h) (fun h => ?_)
  split
  · exact h
  · with_reducible exact .evictBlock (.record h)

theorem Keeps.touchNode (h : KeepsWf o s) {m : Msg} : KeepsWf o (touchNode s m) := by
  unfold Machine.touchNode
  split
  · with_reducible exact .ite (.touchStk h) h
  · exact h

theorem Keeps.releaseWay (h : KeepsWf o s) {k : Nat} {tag : AsidTag} {blk : Nat} : KeepsWf o (releaseWay s k tag blk) := by
  unfold Machine.releaseWay
  with_reducible exact .ite h (.record h)

theorem Keeps.trimNode (h : KeepsWf o s) {m : Msg} : KeepsWf o (trimNode s m) := by
  unfold Machine.trimNode
  split
  · with_reducible exact .ite (.releaseStray (.trimL1 h)) h
  · with_reducible exact .releaseWay (.trimDir h)
  · with_reducible exact .trimDir (.trimDie h)
  · with_reducible exact .trimDir h

theorem Keeps.answerFenced (h : KeepsWf o s) {m : Msg} : KeepsWf o (answerFenced s m) := by
  unfold Machine.answerFenced
  extract_lets k walked
  have hw : KeepsWf o walked := .ite h (.walkEntry h)
  clear_value walked
  cases m.kind with
  | fwdS | fwdM | drop | backInv => exact .ite h (.send hw)
  | dataC => exact hw
  | _ => exact h

theorem Keeps.deliver (h : KeepsWf o s) {kind : MsgKind} {n : Nat} : KeepsWf o (deliver s kind n) := by
  unfold Machine.deliver
  split
  · exact h
  · with_reducible exact .ite (.answerFenced (.record h)) (.trimNode (.handleMsg (.touchNode (.record h))))

/-! The operations of Machine/Ends.lean. -/

theorem Keeps.dropLatches (h : KeepsWf o s) {r : SlotRef} : KeepsWf o (dropLatches s r) := .frame h

theorem Keeps.dropWaveLatches (h : Keeps bf false bt o s) {w : Nat} : Keeps bf false bt o (dropWaveLatches s w) := .frame h

theorem Keeps.shutWindows (h : KeepsWf o s) {p : MatWindow → Bool} : KeepsWf o (shutWindows s p) := .frame h

theorem Keeps.endWaveLanes (h : KeepsWf o s) {w : Nat} {dead : LaneMask} : KeepsWf o (endWaveLanes s w dead) := by
  unfold Machine.endWaveLanes
  extract_lets t
  have kt : KeepsWf o t := by with_reducible exact .onWave h
  split
  · with_reducible exact .ite (.dropWaveLatches kt) kt
  · exact kt

theorem Keeps.disownAtoms (h : Keeps bf false bt o s) {ws : List Nat} : Keeps bf false bt o (disownAtoms s ws) :=
  .frame h (et := fun _ e => by simp [Machine.disownAtoms, e])

theorem TeamStands.lost (u : Team) (fate : Fate) (e : fate = .lost) :
    TeamStands u { u with fate := if u.fate = .normal then fate else u.fate, leaving := false } := by
  refine ⟨rfl, ?_⟩
  by_cases n : u.fate = .normal
  · exact .inr ⟨n, (if_pos n).trans e⟩
  · exact .inl (if_neg n)

theorem Keeps.endTeam (h : Keeps bf false bt o s) {tid : Nat} {fate : Fate} (hf : bf = true → fate = .lost := by rintro ⟨⟩) :
    Keeps bf false bt o (endTeam s tid fate) := by
  unfold Machine.endTeam
  split
  · exact h
  · have lost := fun b (u : Team) => TeamStands.lost u fate (hf b)
    split
    · with_reducible
        exact .onLaunch (.onTeam (.releaseStray (.disownAtoms (.record (.foldl (fun _ _ h => .dropWaveLatches
          (.onWave h)) h)))) lost)
    · with_reducible
        exact .onTeam (.releaseStray (.disownAtoms (.record (.foldl (fun _ _ h => .dropWaveLatches (.onWave h)) h)))) lost

theorem Keeps.abortTeam (h : KeepsWf o s) {tid : Nat} : KeepsWf o (abortTeam s tid) := .endTeam h

theorem Keeps.killLanes (h : KeepsWf o s) {w : Nat} {dead : LaneMask} : KeepsWf o (killLanes s w dead) := by
  unfold Machine.killLanes
  split
  · with_reducible exact .ite h (.releaseStray (.endWaveLanes (.onLaunch h)))
  · exact h

theorem Keeps.logKill (h : KeepsWf o s) {w : Nat} {tag : AsidTag} {dead : LaneMask} {pc : BitVec 56} :
    KeepsWf o (logKill s w tag dead pc) :=
  .ite (.logError h) h

theorem Keeps.killByPoison (h : KeepsWf o s) {w : Nat} {tag : AsidTag} {dead : LaneMask} {pc : BitVec 56} :
    KeepsWf o (killByPoison s w tag dead pc) :=
  .ite h (.killLanes (.logKill h))

theorem Keeps.consumeAside (h : KeepsWf o s) {w : Nat} {dead : LaneMask} {pc : BitVec 56} :
    KeepsWf o (consumeAside s w dead pc) := by
  unfold Machine.consumeAside
  split
  · with_reducible exact .ite h (.ite (.abortTeam (.killLanes h)) (.killByPoison h))
  · exact h

/-! The operations of Machine/Reach.lean. -/

theorem Keeps.translateAll (h : KeepsWf o s) {q : Asker} {acc : Acc} {l : List Nat} {fuel : Nat} :
    KeepsWf o (translateAll s q acc l fuel).2 := by
  induction l generalizing s q acc fuel with
  | nil =>
    unfold Machine.translateAll
    exact h
  | cons a l ih =>
    unfold Machine.translateAll
    split
    · rename_i e
      with_reducible exact ih (.pair e (.translate h))
    · rename_i e
      with_reducible exact ih (.pair e (.translate h))

theorem Keeps.answerBusy (h : KeepsWf o s) {hs : List Nat} : KeepsWf o (answerBusy s hs) := .foldl (fun _ _ h => .putFaultBuf h) h

theorem Keeps.reach (h : KeepsWf o s) {q : Asker} {acc : Acc} {vas : List Nat} : KeepsWf o (reach s q acc vas).state := by
  unfold Machine.reach
  split
  · rename_i e
    with_reducible exact .pair e (.translateAll h)
  · rename_i e
    extract_lets
    split
    · with_reducible exact .foldl (fun _ _ h => .writeFault h) (.pair e (.translateAll h))
    · with_reducible exact .answerBusy (.pair e (.translateAll h))

theorem Keeps.askWords (h : KeepsWf o s) {cl : Nat} {tag : AsidTag} {vas : List Nat} : KeepsWf o (askWords s cl tag vas) :=
  .askNode h

theorem Keeps.storeL1 (h : KeepsWf o s) {q : Asker} {ws : List (Nat × Word × Bool)} : KeepsWf o (storeL1 s q ws) := by
  unfold Machine.storeL1
  with_reducible refine .foldl (fun _ _ h => .ite h (.trimL1 ?_)) h
  split
  · with_reducible exact .unless (.absorb h) (fun h => .fillL0 h)
  · with_reducible exact .absorb h

theorem Keeps.releaseLines (h : KeepsWf o s) {q : Asker} {vas : List Nat} : KeepsWf o (releaseLines s q vas) :=
  .foldl (fun _ _ h => .releaseL1 h) h

theorem Keeps.performParts (h : KeepsWf o s) {q : Asker} {ps : List (Nat × Word × Word)} : KeepsWf o (performParts s q ps) :=
  .storeL1 h

theorem Keeps.pushLine (h : KeepsWf o s) {n : Node} {tag : AsidTag} {line : Nat} : KeepsWf o (pushLine s n tag line) := by
  unfold Machine.pushLine
  split
  · exact h
  · with_reducible refine .ite h (.send (.foldl (fun _ _ h => ?_) h))
    extract_lets
    split
    · with_reducible exact .putCw h
    · exact h

theorem Keeps.pushNode (h : KeepsWf o s) {n : Node} : KeepsWf o (pushNode s n) := .foldl (fun _ _ h => .pushLine h) h

theorem Keeps.releaseFrom (h : KeepsWf o s) {push : State → Node → State} (hp : ∀ t n, KeepsWf o t → KeepsWf o (push t n))
    {p : Nat} {ns : List Node} :
    KeepsWf o (releaseFrom push s p ns).2 := by
  induction ns generalizing s p with
  | nil => exact h
  | cons n ns ih =>
    unfold Machine.releaseFrom
    split
    · exact h
    · dsimp only
      split
      · exact hp s n h
      · exact ih (hp s n h)

theorem Keeps.releaseStep (h : KeepsWf o s) {push : State → Node → State} (hp : ∀ t n, KeepsWf o t → KeepsWf o (push t n))
    {ns : List Node} {phase : Nat} :
    KeepsWf o (releaseStep push s ns phase).2 := by
  unfold Machine.releaseStep
  generalize (decide (phase ≠ 0) && match ns[phase - 1]? with | some n => pushBusy s n | none => false) = busy
  cases busy
  · exact .releaseFrom h hp
  · exact h

theorem Keeps.askAgain (h : KeepsWf o s) {nodes : List Node} : KeepsWf o (askAgain s nodes) := .frame h

theorem Keeps.selfInvalidate (h : KeepsWf o s) {cl sc : Nat} : KeepsWf o (selfInvalidate s cl sc) := by
  unfold Machine.selfInvalidate
  with_reducible exact .ite h (.askAgain (.record h))

theorem Keeps.sendAtoms (h : KeepsWf o s) {cl : Nat} {tag : AsidTag} {sub sc w : Nat} {lanes : List AtomLane} :
    KeepsWf o (sendAtoms s cl tag sub sc w lanes) :=
  .foldl (fun _ _ h => .send h) h

theorem Keeps.atomsAtL1 (h : KeepsWf o s) {cl : Nat} {tag : AsidTag} {w sub : Nat} {lanes : List AtomLane} :
    KeepsWf o (atomsAtL1 s cl tag w sub lanes).2 := by
  unfold Machine.atomsAtL1
  with_reducible exact .foldPair (fun _ _ h => .performAtomic (.foldl (fun _ _ h => .dropL0 h) h)) h

/-! The operations of Machine/Stack.lean. -/

theorem Keeps.putWords (h : KeepsWf o s) {cl a : Nat} {l : List Word} : KeepsWf o (putWords s cl a l) := by
  induction l generalizing s cl a with
  | nil =>
    unfold Machine.putWords
    exact h
  | cons a l ih =>
    unfold Machine.putWords
    with_reducible exact ih (.putLocalWord h)

theorem Keeps.shiftDown (h : KeepsWf o s) {w : Nat} {x : Wave} : KeepsWf o (shiftDown s w x) := by
  unfold Machine.shiftDown
  with_reducible exact .record (.putWords h)

theorem Keeps.pushEntry (h : KeepsWf o s) {w : Nat} {tag : AsidTag} {e : Entry} :
    KeepsWf o (Pushed.state s (pushEntry s w tag e)) := by
  unfold Machine.pushEntry
  split
  · exact h
  · split
    · split
      · exact h
      · exact .putWave h
    · split
      · exact .putWave (.putWords h)
      · split
        · exact h
        · extract_lets base q
          split
          · exact h
          · generalize hr : (if canonical base = true then Machine.reach s q .store [base] else Reached.faults [(0, 2)] s) = r
            have kr : KeepsWf o r.state := by
              subst hr
              split
              · exact .reach h
              · exact h
            cases r with
            | busy t => exact kr
            | faults fs t => exact kr
            | ok t => exact .putWave (.putWords (.shiftDown (.releaseLines (.storeL1 kr))))

theorem Keeps.replaceTop (h : KeepsWf o s) {w : Nat} {x : Wave} {e : Entry} : KeepsWf o (replaceTop s w x e) :=
  .ite (.putWave h) (.putWords h)

theorem Keeps.swapFork (h : KeepsWf o s) {w : Nat} {b : Bool} {f : Entry} : KeepsWf o (swapFork s w b f) := by
  unfold Machine.swapFork
  split
  · exact h
  · with_reducible exact .onWave (.replaceTop h)

theorem Keeps.dropDead (h : KeepsWf o s) {w : Nat} : KeepsWf o (stateOr s (dropDead s w)) := by
  unfold Machine.dropDead
  split
  · exact h
  · split
    · exact h
    · with_reducible exact .consumeAside (.onWave h)
    · split
      · with_reducible exact .onWave h
      · exact h

theorem Keeps.mergeParked (h : KeepsWf o s) {w : Nat} {b : Bool} {fuel : Nat} : KeepsWf o (mergeParked s w b fuel) := by
  induction fuel generalizing s w b with
  | zero =>
    unfold Machine.mergeParked
    exact h
  | succ n ih =>
    unfold Machine.mergeParked
    split
    · rename_i e
      with_reducible exact ih (.of (congrArg (stateOr s) e) (.dropDead h))
    · split
      · exact h
      · split
        · with_reducible exact .ite (ih (.putWave h)) h
        · exact h

theorem Keeps.settleArrival (h : KeepsWf o s) {w : Nat} {b : Bool} {x : Wave} {sigOn : Bool} :
    KeepsWf o (settleArrival s w b x sigOn).2 := by
  unfold Machine.settleArrival
  extract_lets sl wait top
  have hwait : KeepsWf o wait.2 := .onWave h
  clear_value sl wait top
  split
  · cases top with
    | none => exact hwait
    | some e =>
      dsimp only
      split
      · exact .swapFork h
      · exact hwait
  · split
    · exact .putWave h
    · cases top with
      | none => exact hwait
      | some e =>
        dsimp only
        split
        · exact .putWave h
        · split
          · exact .swapFork h
          · exact hwait

theorem Keeps.arrive (h : KeepsWf o s) {w : Nat} {b sigOn : Bool} : KeepsWf o (arrive s w b sigOn).2 := by
  unfold Machine.arrive
  split
  · exact h
  · extract_lets
    split
    · with_reducible exact .mergeParked (.putWave h)
    · split
      · with_reducible exact .mergeParked (.putWave h)
      · with_reducible exact .settleArrival (.mergeParked (.putWave h))

theorem Keeps.afterJoin (h : KeepsWf o s) {w : Nat} {b sigOn : Bool} : KeepsWf o (afterJoin s w b sigOn) := .onWave h

theorem Keeps.idleAction (h : KeepsWf o s) {w : Nat} {b sigOn : Bool} : KeepsWf o (stateOr s (idleAction s w b sigOn)) := by
  unfold Machine.idleAction
  split
  · exact h
  · extract_lets sl
    cases sl.st with
    | run => exact h
    | idle =>
      dsimp only
      split
      · split
        · exact .putWave h
        · exact .putWave h
        · exact h
      · exact h
    | wait =>
      have ha := Keeps.arrive h (w := w) (b := b) (sigOn := sigOn)
      dsimp only
      generalize Machine.arrive s w b sigOn = p at ha ⊢
      split
      · exact .putWave h
      · match p with
        | (.resumed, t) => exact .afterJoin ha
        | (.swapped, t) => exact ha
        | (.waiting, t) =>
          dsimp only
          split
          · exact h
          · exact ha

theorem Keeps.settleSlots (h : KeepsWf o s) {w : Nat} {sigOn : Bool} {n : Nat} : KeepsWf o (settleSlots s w sigOn n) := by
  induction n generalizing s with
  | zero => exact h
  | succ n ih =>
    unfold Machine.settleSlots
    split
    · rename_i e
      exact ih (.of (congrArg (stateOr s) e) (.dropDead h))
    · split
      · rename_i e
        exact ih (.of (congrArg (stateOr s) e) (.idleAction h))
      · split
        · rename_i e
          exact ih (.of (congrArg (stateOr s) e) (.idleAction h))
        · exact h

theorem Keeps.settleWave (h : KeepsWf o s) {w : Nat} : KeepsWf o (settleWave s w) := by
  unfold Machine.settleWave
  split
  · with_reducible exact .settleSlots h
  · exact h

/-! The operations of Machine/Ops.lean. -/

theorem Keeps.landAll (h : KeepsWf o s) {w : Nat} : KeepsWf o (landAll s w) := by
  unfold Machine.landAll
  split
  · exact h
  · with_reducible exact .onWave (.foldl (fun _ _ h => .applyWrites h) h)

theorem Keeps.landOne (h : KeepsWf o s) {w n : Nat} : KeepsWf o (landOne s w n) := by
  unfold Machine.landOne
  split
  · exact h
  · split
    · exact h
    · with_reducible exact .applyWrites (.onWave h)

theorem Keeps.nestedTrap (h : KeepsWf o s) {w firstCause nestedCause : Nat} {firstPc nestedPc : DWord} :
    KeepsWf o (nestedTrap s w firstCause nestedCause firstPc nestedPc) := by
  unfold Machine.nestedTrap
  split
  · with_reducible exact .abortTeam (.logError h)
  · exact h

theorem Keeps.takeTrap (h : KeepsWf o s) {w : Nat} {i : TrapInfo} : KeepsWf o (takeTrap s w i) := by
  unfold Machine.takeTrap
  split
  · split
    · split
      · with_reducible exact .nestedTrap (.killLanes h)
      · with_reducible exact .nestedTrap (.killLanes h)
    · dsimp only
      split
      · with_reducible exact .nestedTrap (.killLanes h)
      · with_reducible exact .onWave (.shutWindows (.dropWaveLatches (.landAll (.when h fun h => .deliverFaults h))))
  · exact h

theorem Keeps.attachedMat (h : KeepsWf o s) {team cl : Nat} {kind : MatKind} {k tok tile : Nat} :
    KeepsWf o (attachedMat s team cl kind k tok tile).2.2 := by
  unfold Machine.attachedMat
  split
  · exact h
  · with_reducible exact .fresh h

theorem Keeps.passMma (h : KeepsWf o s) {w : Nat} {x : Wave} {k : Nat} {w1 : Word} : KeepsWf o (passMma s w x k w1) := by
  unfold Machine.passMma
  with_reducible exact .unless (.attachedMat h) (fun h => .record h)

theorem Keeps.leaveHandler (h : KeepsWf o s) {w : Nat} {k : EretKind} : KeepsWf o (leaveHandler s w k) := by
  unfold Machine.leaveHandler
  split
  · exact h
  · split
    · exact h
    · with_reducible
        refine .ite (.abortTeam (.killLanes h)) (.ite (.nestedTrap h) (.onWave (.when (.when (.onWave (.dropWaveLatches
          (.landAll h))) (fun h => ?_)) (fun h => .passMma h))))
      split
      · with_reducible exact .when (.killLanes h) (fun h => .abortTeam h)
      · exact h

theorem Keeps.results (h : KeepsWf o s) {ws : List RegWrite} : KeepsWf o (results s ws).state := h

theorem Keeps.countIssue (h : KeepsWf o s) {r : SlotRef} : KeepsWf o (countIssue s r) := by
  unfold Machine.countIssue
  with_reducible exact .record (.onWave h)

theorem Keeps.endCounts (h : KeepsWf o s) {r : SlotRef} : KeepsWf o (endCounts s r) := .dropLatches (.shutWindows (.onWave h))

theorem Keeps.foldWords (h : KeepsWf o s) {c : Ctx} : KeepsWf o (foldWords s c) := .ite (.onSlot h) h

theorem Keeps.noteIssue (h : KeepsWf o s) {c : Ctx} : KeepsWf o (noteIssue s c) := by
  unfold Machine.noteIssue
  with_reducible exact .onSlot (.fresh h)

theorem Keeps.advance (h : KeepsWf o s) {c : Ctx} : KeepsWf o (advance s c) := .onSlot h

theorem Keeps.settle' (h : KeepsWf o s) {c : Ctx} : KeepsWf o (settle' s c) := .settleSlots h

theorem Keeps.giveResults (h : KeepsWf o s) {c : Ctx} {la : Nat} {ws : List RegWrite} : KeepsWf o (giveResults s c la ws) :=
  .ite h (.ite (.writeRegs h) (.onWave h))

theorem Keeps.trapNow (h : KeepsWf o s) {c : Ctx} {f : Fail} : KeepsWf o (trapNow s c f) := .takeTrap h

theorem Keeps.retire (h : KeepsWf o s) {c : Ctx} {holds : List Latch} {dead : LaneMask} {la : Nat} {ws : List RegWrite} :
    KeepsWf o (retire s c holds dead la ws) := by
  unfold Machine.retire
  with_reducible exact .settle' (.killByPoison (.noteIssue (.advance (.foldWords (.record (.giveResults (.countIssue h)))))))

theorem Keeps.finish {c : Ctx} {holds : List Latch} {eaten : LaneMask} {e : Effect} (h : KeepsWf o e.state) :
    KeepsWf o (finish c holds eaten e) := by
  cases e with
  | done s dead la ws =>
    unfold Machine.finish
    exact .ite (.trapNow h) (.retire h)
  | moved s fold =>
    unfold Machine.finish
    exact .settle' (.killByPoison (.noteIssue (.ite (.foldWords (.countIssue h)) (.countIssue h))))
  | wait s => exact .ite h (.onWave h)
  | left s => exact .settle' h
  | trap f s => exact .trapNow (.killByPoison h)

theorem Keeps.runIssue (h : KeepsWf o s) {c : Ctx} {k : Ctx → State → Effect} (hk : ∀ c, KeepsWf o (k c s).state) :
    KeepsWf o (runIssue c s k) := by
  unfold Machine.runIssue
  exact .ite (.trapNow h) (.ite (.trapNow h) (.ite h (.ite (.trapNow h) (.finish (hk { c with act := _ })))))

theorem OutcomeKeeps.issueInstr (h : KeepsWf o s) {i : Instr} {k : Ctx → State → Effect} (hk : ∀ c, KeepsWf o (k c s).state) :
    OutcomeKeeps o (issueInstr i s k) := by
  unfold Machine.issueInstr
  split
  · exact trivial
  · exact Keeps.runIssue h hk

/-! The operations of Machine/Integer.lean. -/

theorem Keeps.binary (h : KeepsWf o s) {f : LOps} {op : Word → Word → Word → Word} {c : Ctx} : KeepsWf o (binary f op c s).state :=
  .results h

theorem Keeps.unary (h : KeepsWf o s) {f : LOps2} {op : Word → Word} {c : Ctx} : KeepsWf o (unary f op c s).state := .results h

theorem Keeps.immediate (h : KeepsWf o s) {f : IOps} {op : Word → BitVec 7 → Word} {c : Ctx} :
    KeepsWf o (immediate f op c s).state :=
  .results h

theorem Keeps.predResult (h : KeepsWf o s) {c : Ctx} {u : Bool} {d : BitVec 6} {p : Nat → Bool} :
    KeepsWf o (predResult s c u d p).state := by
  unfold Machine.predResult
  split
  · split
    · with_reducible exact .results h
    · with_reducible exact .results (.onWave h)
  · with_reducible exact .results (.onWave h)

theorem Keeps.compare (h : KeepsWf o s) {f : LOps} {p : Word → Word → Bool} {c : Ctx} : KeepsWf o (compare f p c s).state :=
  .predResult h

theorem Keeps.compareI (h : KeepsWf o s) {f : IOps} {p : Word → Word → Bool} {c : Ctx} : KeepsWf o (compareI f p c s).state :=
  .predResult h

theorem Keeps.selEffect (h : KeepsWf o s) {f : LOps} {c : Ctx} : KeepsWf o (selEffect f c s).state := .results h

theorem Keeps.wide2 (h : KeepsWf o s) {f : Alu64Ops} {op : DWord → DWord → Alu64Ops → DWord} {c : Ctx} :
    KeepsWf o (wide2 f op c s).state :=
  .results h

theorem Keeps.wide1 (h : KeepsWf o s) {f : Alu64Ops} {op : DWord → Word → Alu64Ops → DWord} {c : Ctx} :
    KeepsWf o (wide1 f op c s).state :=
  .results h

theorem Keeps.wide0 (h : KeepsWf o s) {f : Alu64Ops} {op : Word → Word → DWord} {c : Ctx} : KeepsWf o (wide0 f op c s).state :=
  .results h

/-! The operations of Machine/Floats.lean. -/

theorem Keeps.floatOp (h : KeepsWf o s) {f : LOps} {op : BitVec 7 → Word → Word → Word → Word} {c : Ctx} :
    KeepsWf o (floatOp f op c s).state :=
  .binary h

theorem Keeps.floatUnary (h : KeepsWf o s) {f : LOps2} {op : BitVec 7 → Word → Word} {c : Ctx} :
    KeepsWf o (floatUnary f op c s).state :=
  .unary h

theorem Keeps.floatOp64 (h : KeepsWf o s) {f : LOps} {op : BitVec 7 → Nat → Nat → Nat → Nat} {c : Ctx} :
    KeepsWf o (floatOp64 f op c s).state :=
  .results h

theorem Keeps.floatCompare (h : KeepsWf o s) {f : LOps} {p : Option Ordering → Bool} {c : Ctx} :
    KeepsWf o (floatCompare f p c s).state :=
  .compare h

theorem Keeps.setMode (h : KeepsWf o s) {new : BitVec 7 → State → BitVec 7} {c : Ctx} : KeepsWf o (setMode new c s).state := by
  unfold Machine.setMode
  split
  · with_reducible exact .results h
  · with_reducible exact .results (.onWave h)

/-! The operations of Machine/CrossLane.lean. -/

theorem Keeps.noteDead (h : KeepsWf o s) {c : Ctx} {read : List Nat} : KeepsWf o (noteDead s c read) := .ite (.onWave h) h

theorem Keeps.shuffle (h : KeepsWf o s) {d a : BitVec 6} {from' : Nat → Option Nat} {c : Ctx} :
    KeepsWf o (shuffle d a from' c s).state :=
  .noteDead h

theorem Keeps.vote (h : KeepsWf o s) {f : DAOps} {answer : LaneMask → LaneMask → Bool} {c : Ctx} :
    KeepsWf o (vote f answer c s).state := by
  unfold Machine.vote
  split
  · with_reducible exact .results h
  · with_reducible exact .results (.onWave h)

theorem OutcomeKeeps.execRdlane (h : KeepsWf o s) {f : XIOps} : OutcomeKeeps o (execRdlane f s) := by
  unfold Machine.execRdlane
  with_reducible refine .issueInstr h (fun _ => ?_)
  split
  · with_reducible exact .results h
  · extract_lets
    split
    · exact h
    · with_reducible exact .results (.noteDead h)

theorem OutcomeKeeps.execRdx (h : KeepsWf o s) {f : XIOps} : OutcomeKeeps o (execRdx f s) := by
  unfold Machine.execRdx
  with_reducible refine .issueInstr h (fun _ => ?_)
  split
  · with_reducible exact .results h
  · with_reducible exact .results h

/-! The operations of Machine/Control.lean. -/

theorem Keeps.withPush (h : KeepsWf o s) {c : Ctx} {e : Entry} {k : State → Effect} (hk : ∀ t, KeepsWf o t → KeepsWf o (k t).state) :
    KeepsWf o (withPush s c e k).state := by
  have kp := Keeps.pushEntry h (w := c.w) (tag := c.tag) (e := e)
  unfold Machine.withPush
  generalize Machine.pushEntry s c.w c.tag e = p at kp ⊢
  cases p with
  | ok t => exact hk t kp
  | fault va kind t => exact kp
  | busy t => exact kp
  | full => exact kp
  | limit => exact kp

theorem Keeps.transfer (h : KeepsWf o s) {t : LaneMask} {target : BitVec 56} {link : Bool} {c : Ctx} :
    KeepsWf o (transfer t target link c s).state := by
  unfold Machine.transfer
  extract_lets l t n ret finish y
  have kf (u : State) (hu : KeepsWf o u) : KeepsWf o (finish u).state := by
    unfold finish
    with_reducible exact .onSlot (.endCounts (.writeRegs hu))
  split
  · exact h
  · split
    · with_reducible exact .onSlot (.endCounts (.writeRegs h))
    · split
      · exact kf _ (.onSlot h)
      · exact .withPush h kf

theorem Keeps.jumpTo (h : KeepsWf o s) {n : Nat} {c : Ctx} : KeepsWf o (jumpTo n c s).state := by
  unfold Machine.jumpTo
  split
  · with_reducible exact .transfer h
  · split
    · exact h
    · extract_lets
      split
      · exact h
      · with_reducible exact .transfer h

theorem OutcomeKeeps.execCall (h : KeepsWf o s) {f : JOps} : OutcomeKeeps o (execCall f s) := by
  unfold Machine.execCall
  with_reducible refine .issueInstr h (fun _ => ?_)
  split
  · exact h
  · with_reducible exact .transfer h

theorem OutcomeKeeps.execSetj (h : KeepsWf o s) {f : JOps} : OutcomeKeeps o (execSetj f s) := by
  unfold Machine.execSetj
  with_reducible refine .issueInstr h (fun _ => ?_)
  split
  · with_reducible exact .results h
  · split
    · with_reducible exact .withPush h (fun _ h => .results (.onSlot h))
    · with_reducible exact .results (.onSlot h)

theorem OutcomeKeeps.execJoin (h : KeepsWf o s) {f : GOps} : OutcomeKeeps o (execJoin f s) := by
  unfold Machine.execJoin
  with_reducible refine .issueInstr h (fun _ => ?_)
  split
  · with_reducible exact .results h
  · split
    · with_reducible exact .results (.endCounts h)
    · extract_lets
      split
      · rename_i e2
        with_reducible exact .results (.pair e2 (.arrive (.endCounts h)))
      · rename_i e2
        with_reducible exact .pair e2 (.arrive (.endCounts h))

theorem OutcomeKeeps.execSigchk (h : KeepsWf o s) {f : SigchkOps} : OutcomeKeeps o (execSigchk f s) := by
  unfold Machine.execSigchk
  with_reducible refine .issueInstr h (fun _ => ?_)
  split
  · with_reducible exact .results h
  · split
    · with_reducible exact .results (.onSlot h)
    · exact h

/-! The operations of Machine/System.lean. -/

theorem Keeps.writeSreg (h : KeepsWf o s) {c : Ctx} {idx : Nat} {v : Word} : KeepsWf o (writeSreg s c idx v) :=
  .ite (.onWave h) (.onSlot h)

theorem OutcomeKeeps.execSset (h : KeepsWf o s) {f : SsetOps} : OutcomeKeeps o (execSset f s) := by
  unfold Machine.execSset
  with_reducible refine .issueInstr h (fun _ => ?_)
  split
  · with_reducible exact .results h
  · with_reducible exact .results (.writeSreg h)

theorem Keeps.softTrap (h : KeepsWf o s) {cause : Nat} {n : BitVec 8} {c : Ctx} : KeepsWf o (softTrap cause n c s).state := by
  unfold Machine.softTrap
  split
  · with_reducible exact .results h
  · exact h

theorem Keeps.eretEffect (h : KeepsWf o s) {k : EretKind} {c : Ctx} : KeepsWf o (eretEffect k c s).state := by
  unfold Machine.eretEffect
  split
  · with_reducible exact .results h
  · with_reducible exact .leaveHandler h

/-! The operations of Machine/Memory.lean. -/

theorem Keeps.checkGlobal (h : KeepsWf o s) {c : Ctx} {u : Bool} {q : Asker} {acc : Acc} {n : Nat} {as : List LaneAddr} :
    KeepsWf o (checkGlobal s c u q acc n as).state := by
  unfold Machine.checkGlobal
  extract_lets odd mis
  split
  · exact h
  · split
    · exact h
    · split
      · exact h
      · have kr := Keeps.reach h (q := q) (acc := acc) (vas := as.map (·.2))
        generalize Machine.reach s q acc (as.map (·.2)) = r at kr ⊢
        cases r with
        | ok t => exact kr
        | busy t => exact kr
        | faults fs t => exact kr

theorem Keeps.keepProgress (h : KeepsWf o s) {c : Ctx} {asked : Nat} {rs : List (Nat × Nat × Bool)} :
    KeepsWf o (keepProgress s c asked rs) :=
  .onWave h

theorem Keeps.noteVas (h : KeepsWf o s) {c : Ctx} {vas : List Nat} : KeepsWf o (noteVas s c vas) := .onWave h

theorem Keeps.overOperands {c : Ctx} {now : List AtomLane} {k : List AtomLane → Effect} (hk : ∀ ls, KeepsWf o (k ls).state) :
    KeepsWf o (overOperands c now k).state := by
  have kk := hk (issued c now)
  unfold Machine.overOperands
  generalize k (issued c now) = e at kk ⊢
  cases e with
  | wait t => with_reducible exact .onWave kk
  | done => exact kk
  | moved => exact kk
  | left => exact kk
  | trap => exact kk

theorem Keeps.clearProgress (h : KeepsWf o s) {c : Ctx} : KeepsWf o (clearProgress s c) := .onWave h

theorem Keeps.releaseBefore (h : KeepsWf o s) {c : Ctx} {sc : Nat} : KeepsWf o (releaseBefore s c sc).2 := by
  unfold Machine.releaseBefore
  split
  · exact h
  · exact .releaseStep h fun _ _ ht => .pushNode ht

theorem Keeps.gatherStep (h : KeepsWf o s) {c : Ctx} {q : Asker} {unit : Nat} {want : List (Nat × Nat)} :
    KeepsWf o (Gathered.state s (gatherStep s c q unit want)) := by
  unfold Machine.gatherStep
  extract_lets
  split
  · exact h
  · with_reducible exact .askWords h

theorem Keeps.allocateL0 (h : KeepsWf o s) {q : Asker} {vas : List Nat} : KeepsWf o (allocateL0 s q vas) := by
  unfold Machine.allocateL0
  split
  · with_reducible exact .foldl (fun _ _ h => .fillL0 h) h
  · exact h

theorem Keeps.noteClass (h : KeepsWf o s) {c : Ctx} {cl : Nat} {vas : List Nat} : KeepsWf o (noteClass s c cl vas) :=
  .ite (.foldl (fun _ _ h => .markNt h) h) h

theorem Keeps.finishLoad (h : KeepsWf o s) {c : Ctx} {q : Asker} {sub sc cl la : Nat} {u : Bool} {d : BitVec 6} {as : List LaneAddr}
    {rs : List (Nat × Nat × Bool)} :
    KeepsWf o (finishLoad s c q sub sc cl la u d as rs).state :=
  .when (.releaseLines (.allocateL0 (.noteClass (.clearProgress h)))) (fun h => .selfInvalidate h)

theorem Keeps.askRefused {c : Ctx} {sub sc : Nat} {left : List AtomLane} {r : Checked} (h : KeepsWf o r.state) :
    KeepsWf o (askRefused c sub sc left r).state := by
  cases r with
  | ok t => exact .sendAtoms (.keepProgress h)
  | busy t => exact .keepProgress h
  | fail f t => exact .ite (.clearProgress h) (.keepProgress h)

theorem Keeps.remoteStep (h : KeepsWf o s) {c : Ctx} {sub sc : Nat} {lanes : List AtomLane} {check : State → List AtomLane → Checked}
    (hk : ∀ t ls, KeepsWf o t → KeepsWf o (check t ls).state) : KeepsWf o (remoteStep s c sub sc lanes check).state := by
  unfold Machine.remoteStep
  extract_lets left
  split
  · split
    · with_reducible exact .clearProgress h
    · split
      · exact h
      · with_reducible exact .askRefused (hk _ _ h)
  · with_reducible exact .sendAtoms (.noteVas (.keepProgress h))

theorem Keeps.volatileLoad (h : KeepsWf o s) {c : Ctx} {sub la : Nat} {u : Bool} {d : BitVec 6} {as : List LaneAddr} :
    KeepsWf o (volatileLoad s c sub la u d as).state := by
  unfold Machine.volatileLoad
  extract_lets
  split
  · rename_i e
    with_reducible exact .of (congrArg Remote.state e) (.remoteStep h (fun _ _ h => .checkGlobal h))
  · rename_i e
    with_reducible exact .of (congrArg Remote.state e) (.remoteStep h (fun _ _ h => .checkGlobal h))
  · rename_i e
    with_reducible exact .of (congrArg Remote.state e) (.remoteStep h (fun _ _ h => .checkGlobal h))

theorem Keeps.loadAt (h : KeepsWf o s) {f : LdOps} {as : List LaneAddr} {c : Ctx} : KeepsWf o (loadAt f as c s).state := by
  unfold Machine.loadAt
  extract_lets sub q
  split
  · exact h
  · split
    · exact h
    · split
      · with_reducible exact .volatileLoad h
      · have kc := Keeps.checkGlobal h (c := c) (u := f.u) (q := q) (acc := .load) (n := loadBytes sub) (as := as)
        generalize Machine.checkGlobal s c f.u q .load (loadBytes sub) as = r at kc ⊢
        cases r with
        | fail g t => with_reducible exact .clearProgress kc
        | busy t => exact kc
        | ok t =>
          dsimp only
          split
          · with_reducible exact .volatileLoad kc
          · generalize hu : (if (decide (f.cl = 1) &&
              (progressOf c).isNone) = true then Machine.selfInvalidate t c.cl f.sc.toNat else t) = u
            have ku : KeepsWf o u := .of hu (.ite (.selfInvalidate kc) kc)
            have kg := Keeps.gatherStep ku (c := c) (q := q) (unit := loadUnit (loadRegs f.sub)) (want := wantedWords
              (loadRegs f.sub) as)
            generalize Machine.gatherStep u c q (loadUnit (loadRegs f.sub)) (wantedWords (loadRegs f.sub) as) = g at kg ⊢
            cases g with
            | all got => with_reducible exact .finishLoad ku
            | part got t => with_reducible exact .noteVas (.keepProgress kg)

theorem Keeps.loadEffect (h : KeepsWf o s) {f : LdOps} {c : Ctx} : KeepsWf o (loadEffect f c s).state :=
  .overOperands fun _ => .loadAt h

theorem Keeps.checkStore (h : KeepsWf o s) {f : StOps} {c : Ctx} {as : List LaneAddr} {ls : List AtomLane} :
    KeepsWf o (checkStore f c as s ls).state :=
  .checkGlobal h

theorem Keeps.farStore (h : KeepsWf o s) {f : StOps} {c : Ctx} {as : List LaneAddr} {ps : List (Nat × Word × Word)} :
    KeepsWf o (farStore f c as ps s).state := by
  unfold Machine.farStore
  split
  · rename_i e
    with_reducible exact .results (.of (congrArg Remote.state e) (.remoteStep h (fun _ _ h => .checkStore h)))
  · rename_i e
    with_reducible exact .of (congrArg Remote.state e) (.remoteStep h (fun _ _ h => .checkStore h))
  · rename_i e
    with_reducible exact .of (congrArg Remote.state e) (.remoteStep h (fun _ _ h => .checkStore h))

theorem Keeps.fetchOwn (h : KeepsWf o s) {q : Asker} {vas : List Nat} : KeepsWf o (fetchOwn s q vas) :=
  .foldl (fun _ _ h => .ite h (.flushClaim h)) h

theorem Keeps.partStore (h : KeepsWf o s) {f : StOps} {c : Ctx} {as : List LaneAddr} {ps : List (Nat × Word × Word)} :
    KeepsWf o (partStore f c as ps s).state := by
  unfold Machine.partStore
  extract_lets q left
  generalize hr : (if phaseOf c = partMark then Machine.checkStore f c as s (farLanes left) else Checked.ok s) = r
  have kr : KeepsWf o r.state := by
    subst hr
    split
    · exact .checkStore h
    · exact h
  cases r with
  | fail g t => exact .ite (.clearProgress kr) (.keepProgress kr)
  | busy t => exact kr
  | ok t =>
    have kp := Keeps.performParts kr (q := q) (ps := left.filter fun p => mergeable t q p)
    dsimp only
    split
    · exact .results (.clearProgress (.releaseLines (.noteClass kp)))
    · exact .fetchOwn (.noteVas (.keepProgress kp))

theorem Keeps.storeAt (h : KeepsWf o s) {f : StOps} {ls : List AtomLane} {c : Ctx} : KeepsWf o (storeAt f ls c s).state := by
  unfold Machine.storeAt
  extract_lets as q parts
  split
  · exact .results h
  · split
    · exact h
    · split
      · exact .farStore h
      · split
        · exact .partStore h
        · have kc := Keeps.checkGlobal h (c := c) (u := f.u) (q := q) (acc := .store) (n := storeBytes f.sub.toNat) (as := as)
          generalize Machine.checkGlobal s c f.u q .store (storeBytes f.sub.toNat) as = r at kc ⊢
          cases r with
          | fail g t => exact .clearProgress kc
          | busy t => exact kc
          | ok t =>
            dsimp only
            generalize hp : (if f.cl = 2 then Machine.releaseBefore t c f.sc.toNat else (none, t)) = p
            have kp : KeepsWf o p.2 := by
              subst hp
              split
              · exact .releaseBefore kc
              · exact kc
            match p with
            | (some n, u) => exact .keepProgress kp
            | (none, u) =>
              dsimp only
              split
              · exact .farStore kp
              · exact .partStore kp

theorem Keeps.storeEffect (h : KeepsWf o s) {f : StOps} {c : Ctx} : KeepsWf o (storeEffect f c s).state :=
  .overOperands (fun _ => .storeAt h)

theorem Keeps.nearAtoms (h : KeepsWf o s) {c : Ctx} {sub : Nat} {lanes : List AtomLane} {check : State → List AtomLane → Checked}
    (hk : ∀ t ls, KeepsWf o t → KeepsWf o (check t ls).state) : KeepsWf o (nearAtoms s c sub lanes check).state := by
  unfold Machine.nearAtoms
  extract_lets done left
  generalize hr : (if phaseOf c = nearMark then check s left else Checked.ok s) = r
  have kr : KeepsWf o r.state := by
    subst hr
    split
    · exact hk _ _ h
    · exact h
  cases r with
  | fail f t => with_reducible exact .ite (.clearProgress kr) (.keepProgress kr)
  | busy t => exact kr
  | ok t =>
    dsimp only
    split
    · with_reducible exact .clearProgress (.releaseLines (.foldl (fun _ _ h => .trimL1 h) (.atomsAtL1 kr)))
    · with_reducible
        exact .foldl (fun _ _ h => .prepareSite h) (.noteVas (.keepProgress (.foldl (fun _ _ h => .trimL1 h) (.atomsAtL1 kr))))

theorem Keeps.atomicStep (h : KeepsWf o s) {c : Ctx} {sub sc : Nat} {lanes : List AtomLane} {check : State → List AtomLane → Checked}
    (hk : ∀ t ls, KeepsWf o t → KeepsWf o (check t ls).state) : KeepsWf o (atomicStep s c sub sc lanes check).state := by
  unfold Machine.atomicStep
  split
  · exact .nearAtoms h hk
  · exact .remoteStep h hk

theorem Keeps.checkAtom (h : KeepsWf o s) {f : AtomOps} {c : Ctx} {ls : List AtomLane} : KeepsWf o (checkAtom f c s ls).state :=
  .checkGlobal h

theorem Keeps.atomAt (h : KeepsWf o s) {f : AtomOps} {lanes : List AtomLane} {c : Ctx} : KeepsWf o (atomAt f lanes c s).state := by
  unfold Machine.atomAt
  extract_lets sub sc go
  have kgo (t : State) (ht : KeepsWf o t) : KeepsWf o (go t).state := by
    unfold go
    have ka := Keeps.atomicStep ht (c := c) (sub := sub) (sc := sc) (lanes := lanes) (check := Machine.checkAtom f c) fun _ _ hu =>
      .checkAtom hu
    generalize Machine.atomicStep t c sub sc lanes (Machine.checkAtom f c) = r at ka ⊢
    cases r with
    | wait u => exact ka
    | fail g u => exact ka
    | done rs u => with_reducible exact .ite (.selfInvalidate ka) ka
  split
  · exact h
  · split
    · exact h
    · split
      · exact kgo s h
      · have kc := Keeps.checkAtom h (f := f) (c := c) (ls := lanes)
        generalize Machine.checkAtom f c s lanes = r at kc ⊢
        cases r with
        | fail g t => with_reducible exact .clearProgress kc
        | busy t => exact kc
        | ok t =>
          dsimp only
          split
          · rename_i e
            split at e
            · with_reducible exact .keepProgress (.pair e (.releaseBefore kc))
            · cases e
          · rename_i e
            split at e
            · exact kgo _ (.pair e (.releaseBefore kc))
            · cases e; exact kgo _ kc

theorem Keeps.atomEffect (h : KeepsWf o s) {f : AtomOps} {c : Ctx} : KeepsWf o (atomEffect f c s).state :=
  .overOperands (fun _ => .atomAt h)

/-! The operations of Machine/Local.lean. -/

theorem Keeps.noteOlder (h : KeepsWf o s) {cl a n path team : Nat} {op : Option Nat} {poison : Nat → Bool} :
    KeepsWf o (noteOlder s cl a n path team op poison) :=
  .frame h

theorem Keeps.freshen (h : KeepsWf o s) {rs : BitVec 4} {p : Older → Bool} : KeepsWf o (freshen s rs p) := .frame h

theorem Keeps.onBank (h : Keeps bf false bt o s) {cl b : Nat} {f : Bank → Bank} : Keeps bf false bt o (onBank s cl b f) :=
  .putBank h

theorem Keeps.setFull (h : KeepsWf o s) {cl a : Nat} {on : Bool} : KeepsWf o (setFull s cl a on) := .onBank h

theorem Keeps.setPoison (h : KeepsWf o s) {cl a : Nat} {on : Bool} : KeepsWf o (setPoison s cl a on) := .onBank h

theorem Keeps.zeroBank (h : Keeps bf false bt o s) {cl b : Nat} : Keeps bf false bt o (zeroBank s cl b) := by
  unfold Machine.zeroBank
  with_reducible exact .onBank (.withLstore h (.memClear h.lstoreFits))

theorem Keeps.storeLane (h : KeepsWf o s) {cl n : Nat} {l : LocalLane} : KeepsWf o (storeLane s cl n l) := .putLocalNat h

theorem Keeps.noteLanes (h : KeepsWf o s) {cl n : Nat} {ls : List LocalLane} : KeepsWf o (noteLanes s cl n ls) :=
  .foldl (fun _ _ h => .noteOlder h) h

theorem Keeps.granuleStep (h : KeepsWf o s) {cl : Nat} {a : LocalAcc} {ls : List LocalLane} :
    KeepsWf o (granuleStep s cl a ls).2 := by
  unfold Machine.granuleStep
  split
  · exact h
  · split
    · split
      · extract_lets
        split
        · exact h
        · with_reducible exact .setFull h
      · extract_lets
        split
        · exact h
        · exact h
    · extract_lets _ _ _ _ t2
      have kt2 : KeepsWf o t2 := by
        with_reducible
          exact .ite (.setPoison (.foldl (fun _ _ h => .storeLane h) (.noteLanes h))) (.foldl (fun _ _ h => .storeLane h)
            (.noteLanes h))
      split
      · exact h
      · with_reducible exact .ite (.setFull kt2) kt2
    · with_reducible refine .foldPair (fun _ _ h => ?_) (.ite h (.noteLanes h))
      split
      · exact h
      · with_reducible exact .putLocalNat h
    · with_reducible exact .setFull h
    · with_reducible exact .setFull h

theorem Keeps.fifoPush (h : KeepsWf o s) {cl b n v : Nat} {pois : Bool} : KeepsWf o (fifoPush s cl b n v pois) := by
  unfold Machine.fifoPush
  with_reducible exact .onBank (.setPoison (.setFull (.putLocalNat h)))

theorem Keeps.fifoPop (h : KeepsWf o s) {cl b n : Nat} : KeepsWf o (fifoPop s cl b n).2 := by
  unfold Machine.fifoPop
  with_reducible exact .onBank (.setFull h)

theorem Keeps.fifoStep (h : KeepsWf o s) {cl b : Nat} {a : LocalAcc} {ls : List LocalLane} :
    KeepsWf o (fifoStep s cl b a ls).2 := by
  unfold Machine.fifoStep
  split
  · extract_lets
    split
    · exact h
    · with_reducible exact .foldl (fun _ _ h => .fifoPush h) h
  · extract_lets
    split
    · exact h
    · with_reducible exact .foldPair (fun _ _ h => .fifoPop h) h
  · exact h

theorem Keeps.performGroups (h : KeepsWf o s) {cl : Nat} {a : LocalAcc} {ks : List Nat} :
    KeepsWf o (performGroups cl a ks s).2.2 := by
  induction ks generalizing s with
  | nil => exact h
  | cons k ks ih =>
    unfold Machine.performGroups
    extract_lets here bank step
    have kt : KeepsWf o step.2 := by
      unfold step
      split
      · exact h
      · split
        · with_reducible exact .fifoStep h
        · with_reducible exact .granuleStep h
    generalize step = p at kt ⊢
    match p with
    | (some rs, t) => exact ih kt
    | (none, t) => exact ih kt

theorem Keeps.tryLocal (h : KeepsWf o s) {cl : Nat} {a : LocalAcc} : KeepsWf o (tryLocal s cl a).2.2 := .performGroups h

theorem Keeps.acquireNow (h : KeepsWf o s) {cl : Nat} {a : LocalAcc} : KeepsWf o (acquireNow s cl a) := by
  unfold Machine.acquireNow
  split
  · with_reducible exact .selfInvalidate h
  · exact h

theorem Keeps.goLocal (h : KeepsWf o s) {cl : Nat} {a : LocalAcc} : KeepsWf o (goLocal s cl a).2.2 :=
  .when (.tryLocal h) (fun h => .acquireNow h)

theorem Keeps.localEffect (h : KeepsWf o s) {a : LocalAcc} {la : Nat} {c : Ctx} : KeepsWf o (localEffect a la c s).state := by
  unfold Machine.localEffect
  split
  · rename_i e
    split
    · split
      · extract_lets
        split
        · with_reducible exact .onWave h
        · with_reducible exact .pair₂ e (.goLocal h)
      · extract_lets
        split
        · with_reducible exact .onWave h
        · with_reducible exact .onWave (.pair₂ e (.goLocal h))

theorem Keeps.localInstr (h : KeepsWf o s) {u : Bool} {as : List LaneAddr} {n la : Nat} {acc : LocalAcc} {rel : Bool} {sc : Nat}
    {c : Ctx} :
    KeepsWf o (localInstr u as n la acc rel sc c s).state := by
  unfold Machine.localInstr
  split
  · exact h
  · split
    · exact h
    · split
      · with_reducible exact .clearProgress h
      · split
        · rename_i e3
          with_reducible refine .keepProgress (.pair e3 ?_)
          split
          · with_reducible exact .releaseBefore h
          · exact h
        · rename_i e3
          with_reducible refine .localEffect (.ite (.clearProgress (.pair e3 ?_)) (.pair e3 ?_))
          · split
            · with_reducible exact .releaseBefore h
            · exact h
          · split
            · with_reducible exact .releaseBefore h
            · exact h

theorem Keeps.fullBits (h : KeepsWf o s) {kind : LocalKind} {f : LsctlOps} {c : Ctx} : KeepsWf o (fullBits kind f c s).state := by
  unfold Machine.fullBits
  with_reducible exact .localInstr h

theorem Keeps.performWaiting (h : KeepsWf o s) {w n : Nat} : KeepsWf o (performWaiting s w n) := by
  unfold Machine.performWaiting
  split
  · exact h
  · split
    · exact h
    · with_reducible exact .ite h (.unless (.applyWrites (.onWave (.goLocal h))) (fun h => .settleWave (.consumeAside h)))

theorem OutcomeKeeps.execLsctlMode (h : KeepsWf o s) {f : LsctlOps} : OutcomeKeeps o (execLsctlMode f s) := by
  unfold Machine.execLsctlMode
  with_reducible refine .issueInstr h (fun _ => ?_)
  split
  · with_reducible exact .results h
  · split
    · exact h
    · split
      · exact h
      · extract_lets
        split
        · exact h
        · split
          · with_reducible exact .results h
          · with_reducible exact .results (.record h)

theorem OutcomeKeeps.execLsctlInv (h : KeepsWf o s) {f : LsctlOps} : OutcomeKeeps o (execLsctlInv f s) := by
  unfold Machine.execLsctlInv
  with_reducible refine .issueInstr h (fun _ => ?_)
  extract_lets
  split
  · exact h
  · with_reducible exact .results (.foldl (fun _ _ h => .evictL1Block h) h)

theorem Keeps.pushBlocks (h : KeepsWf o s) {tag : AsidTag} {blocks : List Nat} {n : Node} : KeepsWf o (pushBlocks tag blocks s n) :=
  .foldl (fun _ _ h => .foldl (fun _ _ h => .pushLine h) h) h

theorem OutcomeKeeps.execLsctlWb (h : KeepsWf o s) {f : LsctlOps} : OutcomeKeeps o (execLsctlWb f s) := by
  unfold Machine.execLsctlWb
  with_reducible refine .issueInstr h (fun _ => .overOperands (fun _ => ?_))
  extract_lets
  split
  · with_reducible exact .clearProgress h
  · split
    · with_reducible exact .results h
    · split
      · rename_i e2
        with_reducible exact .keepProgress (.pair e2 (.releaseStep h (fun _ _ h => .pushBlocks h)))
      · rename_i e2
        with_reducible exact .results (.clearProgress (.pair e2 (.releaseStep h (fun _ _ h => .pushBlocks h))))

theorem Keeps.prefetch (h : KeepsWf o s) {c : Ctx} {level va : Nat} {p : Phys} : KeepsWf o (prefetch s c level va p) := by
  unfold Machine.prefetch
  extract_lets line n
  cases parentNode n va with
  | none => with_reducible exact .settle h
  | some above =>
    dsimp only
    split
    · cases n with
      | stk k => with_reducible exact .touchStk h
      | l0 | l1 | die | bridge | home => exact h
    · with_reducible exact .send h

theorem OutcomeKeeps.execLsctlPf (h : KeepsWf o s) {f : LsctlOps} : OutcomeKeeps o (execLsctlPf f s) := by
  unfold Machine.execLsctlPf
  with_reducible refine .issueInstr h (fun _ => .results (.foldl (fun _ _ h => .ite h ?_) h))
  split
  · rename_i e
    with_reducible exact .prefetch (.pair e (.translate h))
  · rename_i e
    with_reducible exact .pair e (.translate h)

theorem OutcomeKeeps.execFence (h : KeepsWf o s) {f : FenceOps} : OutcomeKeeps o (execFence f s) := by
  unfold Machine.execFence
  with_reducible refine .issueInstr h (fun _ => ?_)
  split
  · with_reducible exact .results h
  · split
    · exact h
    · split
      · rename_i e2
        with_reducible refine .keepProgress (.pair e2 ?_)
        split
        · with_reducible exact .releaseBefore h
        · exact h
      · rename_i e2
        with_reducible refine .results (.when (.clearProgress (.pair e2 ?_)) (fun h => .selfInvalidate h))
        split
        · with_reducible exact .releaseBefore h
        · exact h

theorem OutcomeKeeps.execXfence (h : KeepsWf o s) {f : XfenceOps} : OutcomeKeeps o (execXfence f s) := by
  unfold Machine.execXfence
  with_reducible refine .issueInstr h (fun _ => ?_)
  split
  · with_reducible exact .results h
  · split
    · exact h
    · split
      · rename_i e2
        with_reducible exact .keepProgress (.pair e2 (.releaseBefore h))
      · rename_i e2
        with_reducible exact .results (.when (.freshen (.clearProgress (.pair e2 (.releaseBefore h)))) (fun h => .selfInvalidate h))

/-! The operations of Machine/Copy.lean. -/

theorem Keeps.setToken (h : KeepsWf o s) {tid n : Nat} {f : Token → Token} : KeepsWf o (setToken s tid n f) := .onTeam h

theorem Keeps.noteFollower (h : KeepsWf o s) {c : Ctx} {k : Nat} : KeepsWf o (noteFollower s c k) := by
  unfold Machine.noteFollower
  with_reducible exact .ite h (.record (.attachedMat h))

theorem Keeps.issueCopy (h : KeepsWf o s) {kind : CopyKind} {tok : BitVec 3} {empty : Bool} {a b : List Word} {c : Ctx} :
    KeepsWf o (issueCopy kind tok empty a b c s).state := by
  unfold Machine.issueCopy
  extract_lets k joined sl op
  split
  · exact h
  · split
    · exact h
    · cases joined with
      | some e => with_reducible exact .results (.setToken (.noteFollower (.onSlot (.onTeam (.record h)))))
      | none => with_reducible exact .results (.setToken (.noteFollower (.onSlot (.onTeam (.record (.fresh h))))))

theorem Keeps.copyEffect (h : KeepsWf o s) {kind : CopyKind} {f : CpOps} {c : Ctx} : KeepsWf o (copyEffect kind f c s).state :=
  .issueCopy h

theorem OutcomeKeeps.execTkqClr (h : KeepsWf o s) {f : TkOps} : OutcomeKeeps o (execTkqClr f s) := by
  unfold Machine.execTkqClr
  with_reducible refine .issueInstr h (fun _ => ?_)
  split
  · with_reducible exact .results h
  · with_reducible exact .results (.setToken h)

theorem Keeps.putCopy (h : KeepsWf o s) {id : Nat} {op : CopyOp} : KeepsWf o (putCopy s id op) := .frame h

theorem Keeps.gatherCopy (h : KeepsWf o s) {id : Nat} : KeepsWf o (gatherCopy s id) := by
  unfold Machine.gatherCopy
  split
  · exact h
  · split
    · exact h
    · with_reducible refine .ite h (.ite (.putCopy h) ?_)
      split
      · with_reducible exact .putCopy h
      · with_reducible exact .putCopy (.pickNat (.pickNat h))

theorem Keeps.noteRefused (h : KeepsWf o s) {op : CopyOp} {va kind : Nat} {acc : Acc} {all : List Nat} :
    KeepsWf o (noteRefused s op va kind acc all).2 := by
  unfold Machine.noteRefused
  extract_lets
  split
  · exact h
  · with_reducible exact .writeFault h

theorem Keeps.refuseAll (h : KeepsWf o s) {op : CopyOp} {acc : Acc} {all l : List Nat} :
    KeepsWf o (refuseAll s op acc all l).2.2 := by
  induction l generalizing s op acc all with
  | nil =>
    unfold Machine.refuseAll
    exact h
  | cons a l ih =>
    unfold Machine.refuseAll
    split
    · rename_i e
      with_reducible exact ih (.noteRefused (.pair e (.translate h)))
    · rename_i e
      split
      · rename_i e1
        split
        · with_reducible exact .pair₂ e1 (ih (.pair e (.translate h)))
        · with_reducible exact .pair₂ e1 (ih (.pair e (.translate h)))
    · rename_i e
      with_reducible exact ih (.pair e (.translate h))

theorem Keeps.moveOut (h : KeepsWf o s) {id : Nat} {op : CopyOp} {m : Move} {sl : Slice} {vs : List (Word × Bool)} :
    KeepsWf o (moveOut s id op m sl vs).2 := by
  unfold Machine.moveOut
  split
  · with_reducible exact .releaseLines (.storeL1 h)
  · with_reducible exact .releaseLines (.storeL1 h)
  · with_reducible exact .foldl (fun _ _ h => .sendAtoms h) h
  · with_reducible exact .record (.putPort h)
  · extract_lets
    split
    · exact h
    · with_reducible exact .foldl (fun _ _ h => .record h) h
  · split
    · with_reducible exact .fifoPush h
    · exact .record h

theorem Keeps.askPeer (h : KeepsWf o s) {id p : Nat} {w : Nat × Nat} : KeepsWf o (askPeer s id p w) := by
  unfold Machine.askPeer
  with_reducible exact .record (.putPort h)

theorem Keeps.reachMove (h : KeepsWf o s) {id : Nat} {op : CopyOp} {m : Move} {sl : Slice} :
    KeepsWf o (MoveGo.state s (reachMove s id op m sl)) := by
  unfold Machine.reachMove
  split
  · with_reducible exact .putCopy (.record h)
  · extract_lets
    split
    · exact h
    · split
      · rename_i e2
        split
        · rename_i e3
          split
          · with_reducible exact .putCopy (.pair₂ e3 (.refuseAll (.pair₂ e2 (.refuseAll h))))
          · with_reducible exact .pair₂ e3 (.refuseAll (.pair₂ e2 (.refuseAll h)))

theorem Keeps.takeMove (h : KeepsWf o s) {id : Nat} {op : CopyOp} {m : Move} {sl : Slice} {p : Nat → Bool} :
    KeepsWf o (takeMove s id op m sl p).2 := by
  unfold Machine.takeMove
  split
  · with_reducible exact .foldl (fun _ _ h => .askPeer h) h
  · with_reducible exact .ite h (.askWords h)

theorem Keeps.partners (h : KeepsWf o s) {op : CopyOp} {i : Nat} : KeepsWf o (partners s op i).2 := by
  unfold Machine.partners
  extract_lets
  split
  · with_reducible exact .pickNat h
  · exact h

theorem Keeps.withPartner {id : Nat} {op : CopyOp} {acc : List (Nat × Move) × State} {j : Nat} (h : KeepsWf o acc.2) :
    KeepsWf o (withPartner id op acc j).2 := by
  unfold Machine.withPartner
  extract_lets m sl
  have kr := Keeps.reachMove h (id := id) (op := op) (m := m) (sl := sl)
  generalize Machine.reachMove acc.2 id op m sl = r at kr ⊢
  cases r with
  | ok _ t =>
    dsimp only
    split
    · with_reducible exact .takeMove kr
    · exact h
  | refused | wait => exact h

theorem Keeps.anyOrder {α : Type} {l : List α} (h : KeepsWf o s) : KeepsWf o (anyOrder l s).2 := by
  induction l with
  | nil => exact h
  | cons x l ih =>
    unfold Machine.anyOrder
    exact .pickNat ih

theorem Keeps.weaveWord {op : CopyOp} {batch : List (Nat × Move)} {acc : Weave × State} {k : Nat × Nat} (h : KeepsWf o acc.2) :
    KeepsWf o (weaveWord op batch acc k).2 := by
  unfold Machine.weaveWord
  extract_lets m w old
  cases kvFind acc.1.mem w.1 with
  | none => exact h
  | some new => exact .pickNat h

theorem Keeps.sendMoves (h : KeepsWf o s) {id : Nat} {op : CopyOp} {batch : List (Nat × Move)} :
    KeepsWf o (sendMoves s id op batch) := by
  unfold Machine.sendMoves
  extract_lets meet
  generalize hp : (if meet = true then Machine.anyOrder (batchWords batch) s else (batchWords batch, s)) = p
  have kp : KeepsWf o p.2 := by
    subst hp
    split
    · exact .anyOrder h
    · exact h
  dsimp only
  have kw := Keeps.foldPair (f := Machine.weaveWord op batch) (l := p.1) (b := (⟨[], []⟩, p.2)) (fun _ _ h => .weaveWord h) kp
  exact .putCopy (.foldl (fun _ _ h => .releaseLines h) (.foldPair (fun _ _ h => .moveOut h) kw))

theorem Keeps.performMove (h : KeepsWf o s) {id : Nat} {op : CopyOp} {i : Nat} : KeepsWf o (performMove s id op i) := by
  unfold Machine.performMove
  split
  · exact h
  · extract_lets
    split
    · exact h
    · rename_i e1
      with_reducible exact .of (congrArg (MoveGo.state _) e1) (.reachMove h)
    · rename_i e1
      with_reducible
        exact .ite (.putCopy (.takeMove (.of (congrArg (MoveGo.state _) e1) (.reachMove h)))) (.sendMoves (.foldPair (fun _ _ h =>
          .withPartner h) (.partners (.takeMove (.of (congrArg (MoveGo.state _) e1) (.reachMove h))))))

theorem Keeps.readAhead (h : KeepsWf o s) {id : Nat} {op : CopyOp} {i j : Nat} : KeepsWf o (readAhead s id op i j) := by
  unfold Machine.readAhead
  split
  · exact h
  · extract_lets
    split
    · exact h
    · rename_i e1
      with_reducible exact .of (congrArg (MoveGo.state _) e1) (.reachMove h)
    · rename_i e1
      with_reducible exact .putCopy (.takeMove (.of (congrArg (MoveGo.state _) e1) (.reachMove h)))

theorem Keeps.seeCopy (h : KeepsWf o s) {tid k : Nat} : KeepsWf o (seeCopy s tid k) := .freshen h

theorem Keeps.completeCopy (h : KeepsWf o s) {id : Nat} {op : CopyOp} : KeepsWf o (completeCopy s id op) := by
  unfold Machine.completeCopy
  with_reducible exact .onTeam (.when (.record (.foldl (fun _ _ h => .setToken h) (.pickNat h))) (fun h => .seeCopy h))

theorem Keeps.endTurn {t : State} (h : KeepsWf o t) {id : Nat} : KeepsWf o (endTurn s t id) := by
  unfold Machine.endTurn
  split
  · exact h
  · exact .ite h (.record h)

theorem Keeps.engineStep (h : KeepsWf o s) {id pick : Nat} : KeepsWf o (engineStep s id pick) := by
  unfold Machine.engineStep
  split
  · exact h
  · with_reducible refine .ite h (.ite ?_ (.ite h (.completeCopy h)))
    split
    · with_reducible exact .endTurn (.performMove h)
    · with_reducible exact .endTurn (.readAhead h)

theorem Keeps.engineWrite (h : KeepsWf o s) {cl : Nat} {ws : List (Nat × Word × Bool)} {full : Bool} {cover : Nat → Nat}
    {path team : Nat} {op : Option Nat} :
    KeepsWf o (engineWrite s cl ws full cover path team op) := by
  unfold Machine.engineWrite
  with_reducible
    exact .foldl (fun _ _ h => .setPoison (.ite (.setFull h) h)) (.record (.foldl (fun _ _ h => .putLocalWord h) (.foldl
      (fun _ _ h => .noteOlder h) h)))

theorem Keeps.landWrite (h : KeepsWf o s) {n : Nat} {i : Inbound} {op : CopyOp} {d : Nat} : KeepsWf o (landWrite s n i op d) := by
  unfold Machine.landWrite
  with_reducible exact .putCopy (.record (.engineWrite h))

theorem Keeps.landRest (h : KeepsWf o s) {n : Nat} {i : Inbound} : KeepsWf o (landRest s n i) := by
  unfold Machine.landRest
  with_reducible exact .record (.engineWrite h)

theorem Keeps.countDrop (h : KeepsWf o s) {cl : Nat} : KeepsWf o (countDrop s cl) := .frame h

theorem Keeps.arriveWrite (h : KeepsWf o s) {n : Nat} : KeepsWf o (arriveWrite s n) := by
  unfold Machine.arriveWrite
  split
  · exact h
  · split
    · with_reducible refine .unless (.record h) (fun h1 => ?_)
      split
      · exact h
      · with_reducible exact .countDrop h1
      · exact h1
      · with_reducible exact .landRest h
    · with_reducible refine .ite h ?_
      split
      · exact h
      · with_reducible exact .putCopy (.countDrop (.record h))
      · with_reducible exact .putCopy (.record h)
      · with_reducible exact .landWrite (.pickNat h)

theorem Keeps.peerAcked (h : KeepsWf o s) {p n : Nat} {refused : Bool} : KeepsWf o (peerAcked s p n refused) := by
  unfold Machine.peerAcked
  split
  · extract_lets
    split
    · exact h
    · split
      · with_reducible exact .putPort h
      · with_reducible exact .putCopy (.putPort h)
  · extract_lets
    split
    · exact h
    · split
      · with_reducible exact .putPort h
      · with_reducible exact .putPort h

theorem Keeps.peerAnswered (h : KeepsWf o s) {p n : Nat} {data : Option Word} {poison : Bool} :
    KeepsWf o (peerAnswered s p n data poison) := by
  unfold Machine.peerAnswered
  extract_lets
  split
  · exact h
  · split
    · with_reducible exact .putPort h
    · split
      · with_reducible exact .putCopy (.putPort h)
      · with_reducible exact .putCopy (.putPort h)
      · with_reducible exact .putPort h
      · with_reducible exact .putCopy (.putPort h)

/-! The operations of Machine/Matrix.lean. -/

theorem Keeps.putTileEntry (h : KeepsWf o s) {cl phys e v : Nat} : KeepsWf o (putTileEntry s cl phys e v) := by
  unfold Machine.putTileEntry
  with_reducible exact .ite (.record h) (.record h)

theorem Keeps.putMat (h : KeepsWf o s) {id : Nat} {op : MatOp} : KeepsWf o (putMat s id op) := .frame h

theorem Keeps.formMat (h : KeepsWf o s) {id : Nat} {op : MatOp} : KeepsWf o (formMat s id op) :=
  .when (.setToken (.putMat (.fresh h))) (fun h => .onTeam h)

theorem Keeps.formIfReady (h : KeepsWf o s) {id : Nat} {op : MatOp} : KeepsWf o (formIfReady s id op) := .ite h (.formMat h)

theorem Keeps.formDue (h : KeepsWf o s) {tid : Nat} : KeepsWf o (formDue s tid) := .foldl (fun _ _ h => .formIfReady h) h

theorem Keeps.awaitJoint (h : KeepsWf o s) {c : Ctx} {id : Nat} : KeepsWf o (awaitJoint s c id) := .onSlot h

theorem Keeps.jointReturn (h : KeepsWf o s) {c : Ctx} {id : Nat} : KeepsWf o (jointReturn s c id).state := by
  unfold Machine.jointReturn
  split
  · with_reducible exact .results h
  · split
    · with_reducible exact .onSlot (.record h)
    · split
      · with_reducible exact .results h
      · exact h

theorem Keeps.formAlone (h : KeepsWf o s) {c : Ctx} {joint : Bool} {f : MmaOps} {w : Word} {a b : MatOperand} :
    KeepsWf o (formAlone s c joint f w a b).state := by
  unfold Machine.formAlone
  split
  · exact h
  · split
    · rename_i e1
      split
      · with_reducible exact .awaitJoint (.formMat (.pair e1 (.fresh h)))
      · with_reducible exact .results (.formMat (.pair e1 (.fresh h)))

theorem Keeps.supplyAttached (h : KeepsWf o s) {c : Ctx} {joint : Bool} {f : MmaOps} {p : MatSupply} :
    KeepsWf o (supplyAttached s c joint f p).state := by
  have ka := Keeps.attachedMat h (team := c.x.team) (cl := c.cl) (kind := if joint then .joint else .solo) (k := c.sl.copy)
    (tok := f.tok.toNat) (tile := f.tile.toNat)
  unfold Machine.supplyAttached
  generalize Machine.attachedMat s c.x.team c.cl (if joint = true then .joint else
    .solo) c.sl.copy f.tok.toNat f.tile.toNat = a at ka ⊢
  obtain ⟨id, op, t⟩ := a
  dsimp only
  split
  · exact .results h
  · split
    · exact h
    · split
      · with_reducible exact .awaitJoint (.formIfReady (.putMat (.ite (.seeCopy ka) ka)))
      · with_reducible exact .results (.formIfReady (.putMat (.ite (.seeCopy ka) ka)))

theorem Keeps.mmaEffect (h : KeepsWf o s) {joint : Bool} {f : MmaOps} {c : Ctx} : KeepsWf o (mmaEffect joint f c s).state := by
  unfold Machine.mmaEffect
  split
  · with_reducible exact .jointReturn h
  · extract_lets t w kx na nb dead a b
    have ht : KeepsWf o t := .formDue h
    clear_value dead a b t w kx na nb
    generalize (unlanded c.x (decide (56 ≤ f.d.toNat)) _ 1 || _) = late
    split
    · split
      · with_reducible exact .supplyAttached ht
      · with_reducible exact .results ht
    · split
      · exact ht
      · split
        · exact ht
        · split
          · split
            · exact ht
            · with_reducible exact .killByPoison ht
          · split
            · exact ht
            · split
              · with_reducible exact .supplyAttached ht
              · with_reducible exact .formAlone ht

theorem OutcomeKeeps.execMmrd (h : KeepsWf o s) {f : MmrdOps} : OutcomeKeeps o (execMmrd f s) := by
  unfold Machine.execMmrd
  with_reducible refine .issueInstr h (fun _ => ?_)
  split
  · with_reducible exact .formDue h
  · split
    · extract_lets
      split
      · with_reducible exact .formDue h
      · with_reducible exact .formDue h
    · extract_lets
      split
      · with_reducible exact .formDue h
      · with_reducible exact .formDue h

theorem OutcomeKeeps.execMmwr (h : KeepsWf o s) {f : MmwrOps} : OutcomeKeeps o (execMmwr f s) := by
  unfold Machine.execMmwr
  with_reducible refine .issueInstr h (fun _ => ?_)
  split
  · with_reducible exact .results (.formDue h)
  · extract_lets
    split
    · with_reducible exact .formDue h
    · with_reducible exact .results (.foldl (fun _ _ h => .foldl (fun _ _ h => .putTileEntry h) h) (.formDue h))

theorem Keeps.zeroTile (h : KeepsWf o s) {cl phys : Nat} : KeepsWf o (zeroTile s cl phys) := .frame h

theorem OutcomeKeeps.execMmwrZero (h : KeepsWf o s) {f : TileOps} : OutcomeKeeps o (execMmwrZero f s) := by
  unfold Machine.execMmwrZero
  with_reducible refine .issueInstr h (fun _ => ?_)
  split
  · with_reducible exact .results (.formDue h)
  · extract_lets
    split
    · with_reducible exact .formDue h
    · with_reducible exact .results (.zeroTile (.formDue h))

theorem Keeps.cvtEffect (h : KeepsWf o s) {np : Bool} {f : MmcvtOps} {c : Ctx} : KeepsWf o (cvtEffect np f c s).state := by
  unfold Machine.cvtEffect
  split
  · with_reducible exact .results (.formDue h)
  · split
    · with_reducible exact .formDue h
    · split
      · extract_lets
        split
        · with_reducible exact .formDue h
        · split
          · with_reducible exact .formDue h
          · with_reducible exact .results (.formMat (.fresh (.formDue h)))
      · extract_lets
        split
        · with_reducible exact .formDue h
        · split
          · with_reducible exact .formDue h
          · with_reducible exact .results (.formMat (.fresh (.formDue h)))

theorem Keeps.divergeJoint (h : KeepsWf o s) {id : Nat} {op : MatOp} : KeepsWf o (divergeJoint s id op) := by
  unfold Machine.divergeJoint
  with_reducible exact .onTeam (.putMat (.record (.setToken h)))

theorem Keeps.compareJoint (h : KeepsWf o s) {id : Nat} : KeepsWf o (compareJoint s id) := by
  unfold Machine.compareJoint
  split
  · exact h
  · with_reducible
      exact .unless (.formDue h) (fun h => .ite (.foldl (fun _ _ h => .putMat h) h) (.ite (.foldl (fun _ _ h => .putMat h) h)
        (.foldl (fun _ _ h => .divergeJoint h) h)))

theorem Keeps.runMat (h : KeepsWf o s) {parts : List (Nat × MatOp)} {h' : MatOp} : KeepsWf o (runMat s parts h').2.2.2 := by
  unfold Machine.runMat
  with_reducible exact .drawNat (.record h)

theorem Keeps.startMat (h : KeepsWf o s) {id : Nat} : KeepsWf o (startMat s id) := by
  unfold Machine.startMat
  split
  · exact h
  · extract_lets
    split
    · with_reducible exact .formDue h
    · with_reducible refine .ite (.formDue h) ?_
      split
      · with_reducible exact .formDue h
      · with_reducible
          exact .ite (.putMat (.formDue h)) (.ite (.foldl (fun _ _ h => .putMat h) (.formDue h)) (.foldl (fun _ _ h => .putMat h)
            (.runMat (.formDue h))))

theorem Keeps.endPart (h : KeepsWf o s) {id : Nat} {op : MatOp} {status report : Word} {kept : Bool} :
    KeepsWf o (endPart s id op status report kept) := by
  unfold Machine.endPart
  with_reducible exact .when (.setToken (.record h)) (fun h => .onTeam h)

theorem Keeps.completeCvt (h : KeepsWf o s) {id : Nat} {op : MatOp} : KeepsWf o (completeCvt s id op) := by
  unfold Machine.completeCvt
  split
  · with_reducible exact .ite h (.endPart (.engineWrite h))
  · exact h

theorem Keeps.writeTile (h : KeepsWf o s) {op : MatOp} : KeepsWf o (writeTile s op) := by
  unfold Machine.writeTile
  split
  · exact h
  · with_reducible exact .foldl (fun _ _ h => .putTileEntry h) h

theorem Keeps.cancelParts (h : KeepsWf o s) {parts : List (Nat × MatOp)} {detail : Nat} : KeepsWf o (cancelParts s parts detail) :=
  .foldl (fun _ _ h => .endPart h) h

theorem Keeps.completeMat (h : KeepsWf o s) {id : Nat} : KeepsWf o (completeMat s id) := by
  unfold Machine.completeMat
  split
  · exact h
  · with_reducible refine .ite h (.ite (.cancelParts h) ?_)
    split
    · with_reducible exact .ite h (.cancelParts h)
    · with_reducible
        exact .ite (.endPart h) (.ite h (.ite (.completeCvt h) (.foldl (fun _ _ h => .endPart h) (.foldl (fun _ _ h =>
          .writeTile h) h))))

/-! The operations of Machine/Work.lean. -/

theorem Keeps.askRing (h : KeepsWf o s) {d : Nat} {tag : AsidTag} {va : Nat} : KeepsWf o (askRing s d tag va) := .askNode h

theorem Keeps.storeRing (h : KeepsWf o s) {d : Nat} {tag : AsidTag} {va : Nat} {ws : List Word} :
    KeepsWf o (storeRing s d tag va ws) :=
  .absorb h

theorem Keeps.countTaskErr (h : Keeps bf false bt o s) {launch n : Nat} : Keeps bf false bt o (countTaskErr s launch n) :=
  .onLaunch h

theorem Keeps.putQueueOf (h : Keeps bf false bt o s) {core : Nat} {q : TaskQueue} : Keeps bf false bt o (putQueueOf s core q) :=
  .frame h

theorem Keeps.ringRefused (h : KeepsWf o s) {core : Nat} {la : Launch} {va : Nat} {acc : Acc} :
    KeepsWf o (ringRefused s core la va acc).2 := by
  unfold Machine.ringRefused
  split
  · exact h
  · split
    · rename_i e1
      with_reducible exact .writeFault (.pair e1 (.translate h))
    · rename_i e1
      with_reducible exact .pair e1 (.translate h)

theorem Keeps.spillRecs (h : KeepsWf o s) {core : Nat} {la : Launch} {l : List TaskRec} {q : TaskQueue} :
    KeepsWf o (spillRecs s core la l q).2 := by
  induction l generalizing s core la q with
  | nil =>
    unfold Machine.spillRecs
    exact h
  | cons a l ih =>
    unfold Machine.spillRecs
    extract_lets
    split
    · rename_i e
      with_reducible exact ih (.countTaskErr (.pair e (.ringRefused h)))
    · rename_i e
      with_reducible exact ih (.storeRing (.pair e (.ringRefused h)))

theorem Keeps.ringReady (h : KeepsWf o s) {core : Nat} {la : Launch} {q : TaskQueue} : KeepsWf o (ringReady s core la q).2 :=
  .foldl (fun _ _ h => .evictLine h) h

theorem Keeps.pushRec (h : KeepsWf o s) {core launch : Nat} {la : Launch} {r : TaskRec} :
    KeepsWf o (pushRec s core launch la r).2 := by
  unfold Machine.pushRec
  split
  · with_reducible exact .countTaskErr h
  · split
    · with_reducible exact .countTaskErr h
    · split
      · with_reducible exact .putQueueOf h
      · split
        · exact h
        · split
          · rename_i e4
            with_reducible exact .pair e4 (.ringReady h)
          · rename_i e4
            with_reducible exact .putQueueOf (.spillRecs (.pair e4 (.ringReady h)))

theorem Keeps.pushLeft (h : KeepsWf o s) {c : Ctx} {launch : Nat} {rs : List TaskRec} {n : Nat} :
    KeepsWf o (pushLeft s c launch rs n).2.1 := by
  induction rs generalizing s n with
  | nil => exact h
  | cons r rs ih =>
    unfold Machine.pushLeft
    split
    · exact h
    · rename_i la _
      have kp := Keeps.pushRec h (core := c.core) (launch := launch) (la := la) (r := r)
      generalize Machine.pushRec s c.core launch la r = p at kp ⊢
      match p with
      | (false, t) => exact kp
      | (true, t) => exact ih kp

theorem Keeps.spawnPush (h : KeepsWf o s) {c : Ctx} {rs : List (Nat × TaskRec)} {got : List (Nat × Nat × Bool)} :
    KeepsWf o (spawnPush s c rs got).state := by
  unfold Machine.spawnPush
  extract_lets dead done left
  split
  · with_reducible exact .clearProgress h
  · have kp := Keeps.pushLeft h (c := c) (launch := c.t.launch) (rs := left) (n := done)
    generalize Machine.pushLeft s c c.t.launch left done = p at kp ⊢
    match p with
    | (true, t, _) => with_reducible exact .clearProgress kp
    | (false, t, n) => with_reducible exact .onWave (.keepProgress kp)

theorem Keeps.spawnEffect (h : KeepsWf o s) {f : SpawnOps} {c : Ctx} : KeepsWf o (spawnEffect f c s).state := by
  unfold Machine.spawnEffect
  refine .overOperands fun ls => ?_
  extract_lets rs lanes check go
  have kcheck (t : State) (ls : List AtomLane) (ht : KeepsWf o t) : KeepsWf o (check t ls).state := .checkGlobal ht
  have kgo (t : State) (ht : KeepsWf o t) : KeepsWf o (go t).state := by
    unfold go
    have kr := Keeps.remoteStep ht (c := c) (sub := 0) (sc := 2) (lanes := lanes) kcheck
    generalize Machine.remoteStep t c 0 2 lanes check = r at kr ⊢
    cases r with
    | done got u => with_reducible exact .spawnPush kr
    | wait u => exact kr
    | fail g u => exact kr
  split
  · with_reducible exact .results h
  · split
    · exact h
    · split
      · with_reducible exact .spawnPush h
      · split
        · exact kgo s h
        · have kc := kcheck s lanes h
          generalize check s lanes = r at kc ⊢
          cases r with
          | fail g t => with_reducible exact .clearProgress kc
          | busy t => exact kc
          | ok t =>
            dsimp only
            split
            · with_reducible exact .spawnPush kc
            · have kb := Keeps.releaseBefore kc (c := c) (sc := 2)
              generalize Machine.releaseBefore t c 2 = p at kb ⊢
              match p with
              | (some p, u) => with_reducible exact .keepProgress kb
              | (none, u) => exact kgo u kb

theorem Keeps.endWave (h : KeepsWf o s) {c : Ctx} : KeepsWf o (endWave s c).state := .results (.endWaveLanes (.clearProgress h))

theorem Keeps.tdonePush (h : KeepsWf o s) {c : Ctx} {r : TaskRec} : KeepsWf o (tdonePush s c r).state := by
  unfold Machine.tdonePush
  split
  · with_reducible exact .endWave h
  · split
    · rename_i e1
      with_reducible exact .endWave (.pair e1 (.pushRec h))
    · rename_i e1
      with_reducible exact .pair e1 (.pushRec h)

theorem Keeps.tdoneEnd (h : KeepsWf o s) {c : Ctx} {got : List (Nat × Nat × Bool)} : KeepsWf o (tdoneEnd s c got).state := by
  unfold Machine.tdoneEnd
  split
  · split
    · with_reducible exact .clearProgress h
    · split
      · with_reducible exact .tdonePush (.noteVas (.keepProgress h))
      · with_reducible exact .endWave h
  · with_reducible exact .endWave h

theorem Keeps.tdoneEffect (h : KeepsWf o s) {f : AOps} {c : Ctx} : KeepsWf o (tdoneEffect f c s).state := by
  unfold Machine.tdoneEffect
  refine .overOperands fun ls => ?_
  extract_lets fr check go
  have kcheck (t : State) (ls : List AtomLane) (ht : KeepsWf o t) : KeepsWf o (check t ls).state := .checkGlobal ht
  have kgo (t : State) (ht : KeepsWf o t) : KeepsWf o (go t).state := by
    unfold go
    have kr := Keeps.remoteStep ht (c := c) (sub := doneCode) (sc := 2) (lanes := [⟨0, fr, 0xFFFFFFFF, 0⟩]) kcheck
    generalize Machine.remoteStep t c doneCode 2 [⟨0, fr, 0xFFFFFFFF, 0⟩] check = r at kr ⊢
    cases r with
    | done got u => with_reducible exact .tdoneEnd (.selfInvalidate kr)
    | wait u => exact kr
    | fail g u => exact kr
  split
  · with_reducible exact .results h
  · split
    · with_reducible exact .endWave h
    · split
      · exact h
      · split
        · with_reducible exact .tdoneEnd h
        · split
          · exact kgo s h
          · have kc := kcheck s [] h
            generalize check s [] = r at kc ⊢
            cases r with
            | fail g t => with_reducible exact .clearProgress kc
            | busy t => exact kc
            | ok t =>
              have kb := Keeps.releaseBefore kc (c := c) (sc := 2)
              dsimp only [Checked.state] at kb ⊢
              generalize Machine.releaseBefore t c 2 = p at kb ⊢
              match p with
              | (some p, u) => with_reducible exact .keepProgress kb
              | (none, u) => exact kgo u kb

theorem Keeps.launchSubmit (h : KeepsWf o s) {va : Nat} {c : Ctx} {got : List (Nat × Nat × Bool)} :
    KeepsWf o (launchSubmit va c s got).state := by
  unfold Machine.launchSubmit
  split
  · with_reducible exact .clearProgress h
  · split
    · with_reducible exact .noteVas (.keepProgress h)
    · with_reducible exact .results (.releaseLines (.record (.clearProgress h)))

theorem Keeps.launchEffect (h : KeepsWf o s) {f : AOps} {c : Ctx} : KeepsWf o (launchEffect f c s).state := by
  unfold Machine.launchEffect
  refine .overOperands fun ls => ?_
  extract_lets va read
  have kread (t : State) (ht : KeepsWf o t) : KeepsWf o (read t).state := by
    unfold read
    have kg := Keeps.gatherStep ht (c := c) (q := launchAsker c) (unit := 8) (want := recordWords va)
    generalize Machine.gatherStep t c (launchAsker c) 8 (recordWords va) = g at kg ⊢
    cases g with
    | all got => with_reducible exact .launchSubmit ht
    | part got u => with_reducible exact .noteVas (.keepProgress kg)
  split
  · with_reducible exact .results h
  · split
    · exact h
    · split
      · with_reducible exact .launchSubmit h
      · have kc := Keeps.checkGlobal h (c := c) (u := true) (q := launchAsker c) (acc := .load) (n := 128) (as := [(0, va)])
        generalize Machine.checkGlobal s c true (launchAsker c) .load 128 [(0, va)] = r at kc ⊢
        cases r with
        | fail g t => with_reducible exact .clearProgress kc
        | busy t => exact kc
        | ok t =>
          dsimp only
          split
          · exact kread t kc
          · have kb := Keeps.releaseBefore kc (c := c) (sc := 5)
            dsimp only [Checked.state] at kb ⊢
            generalize Machine.releaseBefore t c 5 = p at kb ⊢
            match p with
            | (some p, u) => with_reducible exact .keepProgress kb
            | (none, u) => exact kread u kb

theorem Keeps.setBar (h : KeepsWf o s) {c : Ctx} {b : Option BarWait} : KeepsWf o (setBar s c b) := .onSlot h

theorem Keeps.barEffect (h : KeepsWf o s) {id : BarId} {d : BitVec 6} {c : Ctx} : KeepsWf o (barEffect id d c s).state := by
  unfold Machine.barEffect
  split
  · with_reducible exact .results (.setBar h)
  · split
    · split
      · with_reducible exact .results (.setBar h)
      · exact h
    · split
      · rename_i e2
        with_reducible exact .keepProgress (.pair e2 (.releaseBefore h))
      · rename_i e2
        with_reducible exact .setBar (.onTeam (.clearProgress (.pair e2 (.releaseBefore h))))

theorem Keeps.passBarrier (h : KeepsWf o s) {id : BarId} {absent : Bool} {tid : Nat} : KeepsWf o (passBarrier s id absent tid) := by
  unfold Machine.passBarrier
  split
  · exact h
  · with_reducible exact .selfInvalidate (.onTeam (.foldl (fun _ _ h => .onWave h) h))

theorem Keeps.completeBarrier (h : KeepsWf o s) {n : Nat} : KeepsWf o (completeBarrier s n) := by
  unfold Machine.completeBarrier
  split
  · exact h
  · split
    · exact h
    · with_reducible exact .ite (.foldl (fun _ _ h => .passBarrier h) h) h

/-! The operations of Machine/Tlb.lean. -/

theorem Keeps.flushLines (h : KeepsWf o s) {p : AsidTag → Nat → Bool} : KeepsWf o (flushLines s p) := by
  unfold Machine.flushLines
  with_reducible exact .record (.foldl (fun _ _ h => .homeStore h) (.foldl (fun _ _ h => .walkAhead h) h))

theorem Keeps.dropHome (h : KeepsWf o s) {pa n : Nat} : KeepsWf o (dropHome s pa n) := .foldl (fun _ _ h => .evictHome h) h

theorem Keeps.changeLayout (h : KeepsWf o s) {tag : AsidTag} {va level : Nat} {old new : DWord} :
    KeepsWf o (changeLayout s tag va level old new) := by
  unfold Machine.changeLayout
  extract_lets _ _ _ _ _ t
  have kt : KeepsWf o t := by
    unfold t
    with_reducible refine .foldl (fun _ _ h => .ite (.settleScale h) ?_) (.policyOf h)
    split
    · with_reducible exact .meetErrors h
    · exact h
  with_reducible
    exact .ite (.foldl (fun _ _ h => .poisonWord h) (.withDram (.foldl (fun _ _ h => .clearPoison h) kt) (.foldl (fun _ _ hm =>
      .memWrite hm) (.memClear (Keeps.dramFits (.foldl (fun _ _ h => .clearPoison h) kt)))))) kt

theorem Keeps.shootdown (h : KeepsWf o s) {tag : AsidTag} {va level : Nat} {leaf : Option LeafWrite} :
    KeepsWf o (shootdown s tag va level leaf) := by
  unfold Machine.shootdown
  extract_lets _ t
  have kt : KeepsWf o t := by
    unfold t
    split
    · with_reducible exact .flushLines h
    · with_reducible exact .metaWrite (.when (.ite (.dropHome (.flushLines h)) (.flushLines h)) (fun h => .changeLayout h))
  exact .record kt

theorem Keeps.leafSlot (h : KeepsWf o s) {va level : Nat} {p : DWord} {at' fuel : Nat} :
    KeepsWf o (leafSlot s va level p at' fuel).2 := by
  induction fuel generalizing s va level p at' with
  | zero =>
    unfold Machine.leafSlot
    exact h
  | succ n ih =>
    unfold Machine.leafSlot
    split
    · exact h
    · split
      · extract_lets
        split
        · rename_i e2
          with_reducible exact .retireFrame (.pair e2 (.metaRead h))
        · rename_i e2
          with_reducible exact .pair e2 (.metaRead h)
      · extract_lets
        split
        · rename_i e2
          with_reducible exact .retireFrame (.pair e2 (.metaRead h))
        · rename_i e2
          with_reducible exact ih (.pair e2 (.metaRead h))

theorem Keeps.findLeaf (h : KeepsWf o s) {asid : BitVec 16} {va level : Nat} : KeepsWf o (findLeaf s asid va level).2 := by
  unfold Machine.findLeaf
  extract_lets
  split
  · exact h
  · split
    · rename_i e1
      with_reducible exact .pair e1 (.metaRead h)
    · rename_i e1
      with_reducible exact .leafSlot (.pair e1 (.metaRead h))

theorem Keeps.withQuiet {t : State} (h : KeepsWf o s) (ht : KeepsWf o t) {tag : AsidTag} {va level : Nat} :
    KeepsWf o (withQuiet s tag va level t).state := by
  unfold Machine.withQuiet
  split
  · exact ht
  · exact h

theorem Keeps.mapPage (h : KeepsWf o s) {tag : AsidTag} {va : Nat} {pte : DWord} {size : Nat} {repl : Bool} :
    KeepsWf o (mapPage s tag va pte size repl).state := by
  unfold Machine.mapPage
  extract_lets
  split
  · exact h
  · split
    · rename_i e1
      with_reducible exact .pair e1 (.findLeaf h)
    · rename_i e1
      split
      · with_reducible exact .pair e1 (.findLeaf h)
      · with_reducible exact .withQuiet (.pair e1 (.findLeaf h)) (.shootdown (.pair e1 (.findLeaf h)))

theorem Keeps.unmapPage (h : KeepsWf o s) {tag : AsidTag} {va size : Nat} : KeepsWf o (unmapPage s tag va size).state := by
  unfold Machine.unmapPage
  extract_lets
  split
  · exact h
  · split
    · rename_i e1
      with_reducible exact .pair e1 (.findLeaf h)
    · rename_i e1
      split
      · with_reducible exact .pair e1 (.findLeaf h)
      · with_reducible exact .withQuiet (.pair e1 (.findLeaf h)) (.shootdown (.pair e1 (.findLeaf h)))

theorem Keeps.invalPage (h : KeepsWf o s) {tag : AsidTag} {va size : Nat} : KeepsWf o (invalPage s tag va size).state := by
  unfold Machine.invalPage
  split
  · exact h
  · with_reducible exact .withQuiet h (.shootdown h)

theorem Keeps.writeGen (h : KeepsWf o s) {asid : BitVec 16} {g : BitVec 8} : KeepsWf o (writeGen s asid g) := by
  unfold Machine.writeGen
  with_reducible exact .ite h (.withDram (.dirtyHome (.settle h)) (.memWrite (Keeps.dramFits (.dirtyHome (.settle h)))))

theorem Keeps.renewTags (h : KeepsWf o s) {asid : BitVec 16} {g : BitVec 8} : KeepsWf o (renewTags s asid g) := .frame h

theorem Keeps.retireAsid (h : KeepsWf o s) {asid : BitVec 16} : KeepsWf o (stateOr s (retireAsid s asid)) := by
  unfold Machine.retireAsid
  split
  · exact h
  · with_reducible exact .renewTags (.writeGen (.record (.flushLines h)))

theorem Keeps.pageLanes (h : KeepsWf o s) {op : State → AtomLane → PageOp} (hop : ∀ t l, KeepsWf o t → KeepsWf o (op t l).state)
    {ls : List AtomLane} {rs : List (Nat × Nat × Bool)} : KeepsWf o (pageLanes op ls rs s).2.2 := by
  induction ls generalizing s rs with
  | nil => exact h
  | cons l ls ih =>
    unfold Machine.pageLanes
    split
    · exact ih h
    · have kl := hop s l h
      generalize op s l = r at kl ⊢
      cases r with
      | wait va level t => exact kl
      | result r t => exact ih kl

theorem Keeps.pageEffect (h : KeepsWf o s) {op : State → AtomLane → PageOp} (hop : ∀ t l, KeepsWf o t → KeepsWf o (op t l).state)
    {d : Option (BitVec 6)} {c : Ctx} {ls : List AtomLane} : KeepsWf o (pageEffect op d c s ls).state := by
  unfold Machine.pageEffect
  have kp := Keeps.pageLanes h hop (ls := ls) (rs := resultsOf c)
  generalize Machine.pageLanes op ls (resultsOf c) s = p at kp ⊢
  match p with
  | (some (va, level), rs, t) => with_reducible exact .onWave (.keepProgress kp)
  | (none, rs, t) => with_reducible exact .results (.clearProgress kp)

theorem OutcomeKeeps.execTlbopRetire (h : KeepsWf o s) {f : AOps} : OutcomeKeeps o (execTlbopRetire f s) := by
  unfold Machine.execTlbopRetire
  with_reducible refine .issueInstr h (fun _ => .overOperands (fun _ => ?_))
  split
  · with_reducible exact .results h
  · split
    · with_reducible exact .keepProgress h
    · rename_i e1
      with_reducible exact .results (.clearProgress (.of (congrArg (stateOr s) e1) (.retireAsid h)))

theorem Keeps.tlbCmdOp (h : KeepsWf o s) : KeepsWf o (tlbCmdOp s).state := by
  unfold Machine.tlbCmdOp
  extract_lets
  split
  · split
    · exact h
    · rename_i e1
      with_reducible exact .of (congrArg (stateOr s) e1) (.retireAsid h)
  · split
    · exact h
    · split
      · with_reducible exact .mapPage h
      · split
        · with_reducible exact .unmapPage h
        · with_reducible exact .invalPage h

theorem Keeps.tlbCmdGo (h : KeepsWf o s) : KeepsWf o (tlbCmdGo s) := by
  unfold Machine.tlbCmdGo
  split
  · rename_i e
    with_reducible exact .of (congrArg PageOp.state e) (.tlbCmdOp h)
  · rename_i e
    with_reducible exact .record (.of (congrArg PageOp.state e) (.tlbCmdOp h))

theorem Keeps.tlbCmd (h : KeepsWf o s) {op : BitVec 2} : KeepsWf o (tlbCmd s op) := by
  unfold Machine.tlbCmd
  with_reducible exact .ite h (.tlbCmdGo (.record h))

/-! The operations of Machine/Waves.lean. -/

theorem Keeps.keepText (h : KeepsWf o s) {cl : Nat} {tag : AsidTag} {va : Nat} {w : Word} : KeepsWf o (keepText s cl tag va w) := by
  unfold Machine.keepText
  with_reducible refine .unless (.record h) (fun h => ?_)
  split
  · exact .record h
  · exact h

theorem Keeps.fetchWord (h : KeepsWf o s) {cl : Nat} {tag : AsidTag} {sup : Bool} {va : Nat} :
    KeepsWf o (fetchWord s cl tag sup va).2 := by
  unfold Machine.fetchWord
  split
  · exact h
  · split
    · exact h
    · split
      · rename_i e2
        with_reducible exact .pair e2 (.translate h)
      · rename_i e2
        with_reducible exact .pair e2 (.translate h)
      · rename_i e2
        with_reducible exact .pair e2 (.translate h)
      · rename_i e2
        split
        · with_reducible exact .pair e2 (.translate h)
        · extract_lets
          split
          · with_reducible exact .settle (.pair e2 (.translate h))
          · with_reducible exact .keepText (.settle (.pair e2 (.translate h)))

theorem Keeps.fetchInstrs (h : KeepsWf o s) {cl : Nat} {tag : AsidTag} {sup : Bool} {va fuel : Nat} :
    KeepsWf o (fetchInstrs s cl tag sup va fuel).2 := by
  induction fuel generalizing s cl tag sup va with
  | zero =>
    unfold Machine.fetchInstrs
    exact h
  | succ n ih =>
    unfold Machine.fetchInstrs
    split
    · rename_i e
      split
      · split
        · rename_i e2
          with_reducible exact ih (.pair e2 (.fetchWord (.pair e (.fetchWord h))))
        · rename_i e2
          with_reducible exact .pair e2 (.fetchWord (.pair e (.fetchWord h)))
      · with_reducible exact ih (.pair e (.fetchWord h))
    · rename_i e
      with_reducible exact .pair e (.fetchWord h)

theorem Keeps.fetchClause (h : KeepsWf o s) {cl : Nat} {tag : AsidTag} {sup : Bool} {va : Nat} :
    KeepsWf o (fetchClause s cl tag sup va).2 := by
  unfold Machine.fetchClause
  split
  · rename_i e
    with_reducible exact .fetchInstrs (.pair e (.fetchWord h))
  · rename_i e
    with_reducible exact .pair e (.fetchWord h)

theorem Keeps.fetchStopped (h : KeepsWf o s) {r : SlotRef} {x : Wave} {tag : AsidTag} {kabort : Bool} {va : Nat} {e : Fetched} :
    KeepsWf o (fetchStopped s r x tag kabort va e) := by
  unfold Machine.fetchStopped
  split
  · exact h
  · with_reducible exact .ite (.takeTrap h) (.killByPoison h)
  · with_reducible exact .takeTrap h
  · with_reducible refine .ite (.takeTrap h) ?_
    split
    · rename_i e1
      with_reducible exact .takeTrap (.pair e1 (.writeFault h))
    · rename_i e1
      with_reducible exact .pair e1 (.writeFault h)

theorem Keeps.clauseTrap (h : KeepsWf o s) {r : SlotRef} {cause : Nat} {header : BitVec 56} {word : Word} :
    KeepsWf o (clauseTrap s r cause header word) :=
  .takeTrap (.onSlot h)

theorem Keeps.resumeTrap (h : KeepsWf o s) {r : SlotRef} {x : Wave} {ws : List Word} : KeepsWf o (resumeTrap s r x ws) :=
  .takeTrap h

theorem Keeps.fetchSlot (h : KeepsWf o s) {r : SlotRef} : KeepsWf o (fetchSlot s r) := by
  unfold Machine.fetchSlot
  split
  · with_reducible refine .ite h (.ite h ?_)
    split
    · rename_i e1
      split
      · with_reducible exact .settleSlots (.fetchStopped (.pair e1 (.fetchClause h)))
      · with_reducible
          exact .ite (.clauseTrap (.pair e1 (.fetchClause h))) (.ite (.onSlot (.pair e1 (.fetchClause h))) (.resumeTrap (.pair e1
            (.fetchClause h))))
  · exact h

theorem OutcomeKeeps.execLatchHoldTimeout (h : KeepsWf o s) {core n : Nat} : OutcomeKeeps o (execLatchHoldTimeout core n s) := by
  unfold Machine.execLatchHoldTimeout
  split
  · with_reducible exact .next h
  · with_reducible exact .next (.record h)

theorem OutcomeKeeps.execTrapEntry (h : KeepsWf o s) {w : Nat} : OutcomeKeeps o (execTrapEntry w s) := by
  unfold Machine.execTrapEntry
  split
  · with_reducible exact .next h
  · split
    · with_reducible exact .next (.ite h (.takeTrap h))
    · with_reducible exact .next h

theorem Keeps.discardBlock (h : KeepsWf o s) {w : Nat} {x : Wave} {tag : AsidTag} : KeepsWf o (discardBlock s w x tag) :=
  .consumeAside (.onWave h)

theorem Keeps.refill (h : KeepsWf o s) {w : Nat} : KeepsWf o (refill s w) := by
  unfold Machine.refill
  split
  · with_reducible refine .ite h (.ite (.settleWave (.discardBlock h)) (.ite h ?_))
    split
    · rename_i e1
      with_reducible exact .settleWave (.discardBlock (.writeFault (.pair e1 (.translate h))))
    · rename_i e1
      with_reducible
        exact .ite (.askWords (.pair e1 (.translate h))) (.settleWave (.ite (.discardBlock (.releaseLines (.pair e1
          (.translate h)))) (.onWave (.putWords (.releaseLines (.pair e1 (.translate h)))))))
  · exact h

/-! The operations of Machine/Banks.lean. -/

theorem Keeps.shrinkL1 (h : KeepsWf o s) {cl b : Nat} : KeepsWf o (shrinkL1 s cl b) := .foldl (fun _ _ h => .evictL1Block h) h

theorem Keeps.changeMode (h : KeepsWf o s) {cl b : Nat} {m : BankMode} : KeepsWf o (changeMode s cl b m) :=
  .when (.onBank (.zeroBank h)) (fun h => .shrinkL1 h)

theorem Keeps.makeModeChange (h : KeepsWf o s) {n : Nat} : KeepsWf o (makeModeChange s n) := by
  unfold Machine.makeModeChange
  split
  · exact h
  · with_reducible exact .ite h (.unless (.record h) (fun h1 => .ite h (.changeMode h1)))

theorem Keeps.askLeave (h : KeepsWf o s) {tid : Nat} : KeepsWf o (askLeave s tid) := .ite h (.foldl (fun _ _ h => .onTeam h) h)

theorem Keeps.dropReservation (h : KeepsWf o s) {cl b : Nat} : KeepsWf o (dropReservation s cl b) := .frame h

theorem Keeps.logBank (h : KeepsWf o s) {cl b : Nat} {noSpare : Bool} : KeepsWf o (logBank s cl b noSpare) := .logError h

theorem Keeps.retireBank (h : KeepsWf o s) {cl b : Nat} : KeepsWf o (retireBank s cl b) := by
  unfold Machine.retireBank
  with_reducible refine .ite h (.ite (.logBank (.putBank (.record h))) ?_)
  split
  · with_reducible exact .logBank (.onBank (.dropReservation (.ite (.changeMode h) h)))
  · with_reducible exact .foldl (fun _ _ h => .askLeave h) (.putBank h)

theorem Keeps.markUnread (h : KeepsWf o s) {cl b lost : Nat} : KeepsWf o (markUnread s cl b lost) := by
  unfold Machine.markUnread
  extract_lets
  split
  · with_reducible exact .putBank h
  · with_reducible exact .putBank h
  · exact .record h
  · exact h

theorem Keeps.spareReady (h : KeepsWf o s) {cl b : Nat} : KeepsWf o (spareReady s cl b) := by
  unfold Machine.spareReady
  with_reducible exact .ite (.onBank (.markUnread (.drawNat h))) h

theorem OutcomeKeeps.execTagQuarantineExpiry (h : KeepsWf o s) {cl tag : Nat} :
    OutcomeKeeps o (execTagQuarantineExpiry cl tag s) := by
  unfold Machine.execTagQuarantineExpiry
  with_reducible exact .next (.record h)

theorem OutcomeKeeps.execNackReplay (h : KeepsWf o s) {n : Nat} : OutcomeKeeps o (execNackReplay n s) := by
  unfold Machine.execNackReplay
  split
  · with_reducible exact .next h
  · with_reducible exact .next (.record h)

theorem Keeps.loseFlit (h : KeepsWf o s) {r : LinkRef} : KeepsWf o (loseFlit s r) := by
  unfold Machine.loseFlit
  split
  · exact .record h
  · exact .record h
  · exact .record h
  · exact .record h

theorem Keeps.countReplays (h : KeepsWf o s) {fails : Nat} {r : LinkRef} : KeepsWf o (countReplays s fails r) := by
  unfold Machine.countReplays
  split
  · with_reducible exact .ite h (.putPort h)
  · exact h

/-! The operations of Machine/Home.lean. -/

theorem Keeps.recallLine (h : KeepsWf o s) {tag : AsidTag} {line : Nat} : KeepsWf o (recallLine s tag line) := .flushLines h

theorem Keeps.readHome (h : KeepsWf o s) {tag : AsidTag} {va : Nat} {acc : Acc} {sup : Bool} :
    KeepsWf o (readHome s tag va acc sup).2 := by
  unfold Machine.readHome
  split
  · exact h
  · split
    · rename_i e1
      with_reducible exact .pair e1 (.translate h)
    · rename_i e1
      with_reducible exact .pair e1 (.translate h)
    · rename_i e1
      with_reducible exact .settle (.pair e1 (.translate h))

theorem Keeps.readText (h : KeepsWf o s) {tag : AsidTag} {va : Nat} : KeepsWf o (readText s tag va).2 := by
  unfold Machine.readText
  split
  · rename_i e
    split
    · rename_i e1
      with_reducible exact .readHome (.pair e1 (.readHome (.pair e (.readHome h))))
    · with_reducible exact .readHome (.pair e (.readHome h))
  · with_reducible exact .readHome h

theorem Keeps.readSeq (h : KeepsWf o s) {rd : State → Nat → Got × State} (hr : ∀ t a, KeepsWf o t → KeepsWf o (rd t a).2) {va n : Nat} :
    KeepsWf o (readSeq rd s va n).2.2 := by
  induction n generalizing s va with
  | zero => exact h
  | succ n ih =>
    unfold Machine.readSeq
    have ha := hr s va h
    split
    · rename_i e
      exact ih (.pair e ha)
    · rename_i e
      exact .pair e ha

theorem Keeps.readWords (h : KeepsWf o s) {tag : AsidTag} {va n : Nat} : KeepsWf o (readWords s tag va n).2.2 :=
  .readSeq h (fun _ _ h => .readHome h)

theorem Keeps.readTexts (h : KeepsWf o s) {tag : AsidTag} {va n : Nat} : KeepsWf o (readTexts s tag va n).2 := by
  unfold Machine.readTexts
  split
  · rename_i e
    with_reducible exact .pair₂ e (.readSeq h (fun _ _ h => .readText h))
  · rename_i e
    with_reducible exact .pair₂ e (.readSeq h (fun _ _ h => .readText h))

theorem Keeps.deviceRecord (h : KeepsWf o s) {tag : AsidTag} {src acc va kind : Nat} :
    KeepsWf o (deviceRecord s tag src acc va kind) :=
  .ite h (.writeFault h)

theorem Keeps.germinalRecord (h : KeepsWf o s) {tag : AsidTag} {va kind : Nat} : KeepsWf o (germinalRecord s tag va kind) :=
  .deviceRecord h

theorem Keeps.storeHome (h : KeepsWf o s) {tag : AsidTag} {va : Nat} {ws : List Word} :
    KeepsWf o (stateOr s (storeHome s tag va ws)) := by
  unfold Machine.storeHome
  split
  · exact h
  · split
    · exact h
    · rename_i e1
      with_reducible exact .pair e1 (.translate h)
    · rename_i e1
      with_reducible exact .homeStore (.recallLine (.pair e1 (.translate h)))

theorem Keeps.storePiece (h : KeepsWf o s) {tag : AsidTag} {va : Nat} {bs : List (Option Byte)} {poison : Bool} :
    KeepsWf o (stateOr s (storePiece s tag va bs poison)) := by
  unfold Machine.storePiece
  split
  · exact h
  · rename_i e
    with_reducible exact .pair e (.translate h)
  · rename_i e
    extract_lets
    split
    · with_reducible exact .physWrite (.settle (.recallLine (.pair e (.translate h))))
    · with_reducible refine .foldl (fun _ _ h => ?_) (.settle (.recallLine (.pair e (.translate h))))
      split
      · with_reducible exact .physWrite h
      · exact h

theorem Keeps.orHome (h : KeepsWf o s) {tag : AsidTag} {va bit : Nat} : KeepsWf o (orHome s tag va bit).2 := by
  unfold Machine.orHome
  split
  · exact h
  · split
    · rename_i e1
      with_reducible exact .pair e1 (.translate h)
    · rename_i e1
      with_reducible exact .pair e1 (.translate h)
    · rename_i e1
      extract_lets
      split
      · with_reducible exact .settle (.recallLine (.pair e1 (.translate h)))
      · with_reducible exact .physWrite (.settle (.recallLine (.pair e1 (.translate h))))

/-! The operations of Machine/Accept.lean. -/

theorem Keeps.readKernel (h : KeepsWf o s) {tag : AsidTag} {kdesc : Nat} : KeepsWf o (readKernel s tag kdesc).2 := by
  unfold Machine.readKernel
  cases codeRange s tag.asid kdesc with
  | none => exact h
  | some c =>
    dsimp only
    split
    · rename_i e
      exact .pair e (.readTexts h)
    · rename_i e
      have h₁ := Keeps.pair e (.readTexts h)
      split
      · exact h₁
      · split
        · rename_i e
          exact .pair e (.readTexts h₁)
        · rename_i e
          have h₂ := Keeps.pair e (.readTexts h₁)
          split
          · exact h₂
          · split
            · rename_i e
              exact .pair e (.readTexts h₂)
            · rename_i e
              have h₃ := Keeps.pair e (.readTexts h₂)
              split
              · rename_i e
                exact .pair e (.readTexts h₃)
              · rename_i e
                have h₄ := Keeps.pair e (.readTexts h₃)
                split
                · exact h₄
                · exact h₄

theorem Keeps.checkRecord (h : KeepsWf o s) {tag : AsidTag} {ws : List Word} {r : LaunchRec} {id : Nat} :
    KeepsWf o (checkRecord s tag ws r id).2.2 := by
  unfold Machine.checkRecord
  split
  · rename_i e
    with_reducible exact .pair e (.readKernel h)
  · rename_i e
    with_reducible exact .pair e (.readKernel h)

theorem Keeps.writeCompletion (h : KeepsWf o s) {tag : AsidTag} {r : LaunchRec} {ws : List Word} :
    KeepsWf o (writeCompletion s tag r ws) := by
  unfold Machine.writeCompletion
  split
  · rename_i e
    with_reducible refine .raiseIf (.of (congrArg (stateOr s) e) ?_)
    split
    · with_reducible exact .storeHome h
    · exact h
  · with_reducible exact .logError h

theorem Keeps.headOf (h : KeepsWf o s) {q : Nat} : KeepsWf o (headOf s q).2 := by
  unfold Machine.headOf
  split
  · split
    · exact h
    · exact h
  · split
    · exact h
    · extract_lets
      split
      · rename_i e2
        with_reducible exact .pair₂ e2 (.readWords h)
      · rename_i e2
        with_reducible exact .pair₂ e2 (.readWords h)

theorem Keeps.stopQueue (h : KeepsWf o s) {q why : Nat} : KeepsWf o (stopQueue s q why) := .logError (.putQueue h)

theorem Keeps.stopUnreadable (h : KeepsWf o s) {q va : Nat} {g : Got} : KeepsWf o (stopUnreadable s q va g) := by
  unfold Machine.stopUnreadable
  with_reducible refine .stopQueue ?_
  split
  · with_reducible exact .germinalRecord h
  · exact h

theorem Keeps.gatherHeads (h : KeepsWf o s) {qs : List Nat} : KeepsWf o (gatherHeads s qs).2 := by
  induction qs generalizing s with
  | nil => exact h
  | cons q qs ih =>
    unfold Machine.gatherHeads
    split
    · rename_i e
      exact ih (.pair e (.headOf h))
    · rename_i e
      exact ih (.stopUnreadable (.pair e (.headOf h)))
    · rename_i e
      exact ih (.pair e (.headOf h))

theorem Keeps.takeHead (h : KeepsWf o s) {q : Nat} : KeepsWf o (takeHead s q) := by
  unfold Machine.takeHead
  with_reducible exact .ite (.record h) (.putQueue (.record h))

theorem Keeps.beginLaunch (h : KeepsWf o s) {id seq : Nat} {tag : AsidTag} {r : LaunchRec} {k : Kernel} {imported : Bool} :
    KeepsWf o (beginLaunch s id seq tag r k imported) :=
  .frame h

theorem Keeps.acceptOne (h : KeepsWf o s) : KeepsWf o (acceptOne s) := by
  unfold Machine.acceptOne
  with_reducible refine .ite h ?_
  split
  · rename_i e
    split
    · with_reducible exact .pair e (.gatherHeads h)
    · split
      · split
        · rename_i e3
          extract_lets
          split
          · rename_i e4
            with_reducible exact .beginLaunch (.takeHead (.pair₂ e4 (.checkRecord (.pair e3 (.fresh (.pair e (.gatherHeads h)))))))
          · rename_i e4
            with_reducible
              exact .ite (.pair e (.gatherHeads h)) (.writeCompletion (.takeHead (.pair₂ e4 (.checkRecord (.pair e3 (.fresh (.pair e
                (.gatherHeads h))))))))
      · split
        · rename_i e3
          extract_lets
          split
          · rename_i e4
            with_reducible exact .beginLaunch (.takeHead (.pair₂ e4 (.checkRecord (.pair e3 (.fresh (.pair e (.gatherHeads h)))))))
          · rename_i e4
            with_reducible
              exact .ite (.pair e (.gatherHeads h)) (.writeCompletion (.takeHead (.pair₂ e4 (.checkRecord (.pair e3 (.fresh (.pair e
                (.gatherHeads h))))))))

/-! The operations of Machine/Place.lean. -/

theorem Keeps.rereadBitmap (h : KeepsWf o s) {n : Nat} : KeepsWf o (rereadBitmap s n) := by
  unfold Machine.rereadBitmap
  split
  · exact h
  · with_reducible refine .ite h (.foldl (fun _ _ h => ?_) h)
    split
    · rename_i e1
      with_reducible exact .germinalRecord (.pair e1 (.readHome h))
    · rename_i e1
      with_reducible exact .pair e1 (.readHome h)

theorem Keeps.drawTag (h : KeepsWf o s) {cl : Nat} : KeepsWf o (drawTag s cl).2 := .frame h

theorem Keeps.giveBanks (h : Keeps bf false bt o s) {cl b : Nat} {owner : Option Nat} {m : BankMode} {n : Nat} :
    Keeps bf false bt o (giveBanks s cl b owner m n) :=
  .foldl (fun _ _ h => .onBank (.zeroBank h)) h

theorem Keeps.freeBanks (h : Keeps bf false bt o s) {cl b n : Nat} : Keeps bf false bt o (freeBanks s cl b n) := .giveBanks h

/-- As `Keeps.record`, for the kernel not to look into where `s` comes from. -/
theorem Keeps.withTasks (h : Keeps bf false bt o s) {q : Kv Nat TaskQueue} : Keeps bf false bt o { s with tasks := q } := h.frame

theorem Keeps.reserveTasks (h : KeepsWf o s) {id : Nat} {la : Launch} {cl b : Nat} : KeepsWf o (reserveTasks s id la cl b) := by
  unfold Machine.reserveTasks
  extract_lets slots t u
  have hu : KeepsWf o u := .onLaunch (.giveBanks h)
  exact .withTasks hu

theorem Keeps.allocate (h : KeepsWf o s) {id : Nat} {la : Launch} {tid : Nat} {t : Team} {p : Seat} :
    KeepsWf o (allocate s id la tid t p).2 := by
  unfold Machine.allocate
  split
  · split
    · extract_lets
      split
      · rename_i e2
        extract_lets t3 _ _ _ t3_1 _ t3_2
        have kt3 : KeepsWf o t3 := by with_reducible exact .giveBanks (.pair e2 (.drawTag (.reserveTasks h)))
        have kt3_1 : KeepsWf o t3_1 := by with_reducible exact .foldl (fun _ _ h => .zeroTile h) (.giveBanks (.giveBanks kt3))
        have kt3_2 : KeepsWf o t3_2 := by
          unfold t3_2
          split
          · with_reducible exact .onLaunch kt3_1
          · exact kt3_1
        exact kt3_2
    · extract_lets
      split
      · rename_i e2
        extract_lets _ _ t3 _ _ _ t3_1
        have kt3 : KeepsWf o t3 := by with_reducible exact .giveBanks (.giveBanks (.giveBanks (.pair e2 (.drawTag h))))
        have kt3_1 : KeepsWf o t3_1 := by
          unfold t3_1
          split
          · with_reducible exact .onLaunch (.foldl (fun _ _ h => .zeroTile h) kt3)
          · with_reducible exact .foldl (fun _ _ h => .zeroTile h) kt3
        exact kt3_1

theorem Keeps.startTeam (h : KeepsWf o s) {id age idx : Nat} {spill : Option Nat} {p : Seat} :
    KeepsWf o (startTeam s id age idx spill p) := by
  unfold Machine.startTeam
  split
  · exact h
  · with_reducible exact .selfInvalidate (.onLaunch (.foldl (fun _ _ h => .putWave h) (.record (.allocate (.fresh h)))))

theorem Keeps.startUnit (h : KeepsWf o s) {id : Nat} {la : Launch} {u : Nat} {spills : List (Option Nat)} {ps : List Seat} :
    KeepsWf o (startUnit s id la u spills ps) :=
  .foldl (fun _ _ h => .startTeam h) (.fresh h)

theorem Keeps.placeFrom (h : KeepsWf o s) {id : Nat} {la : Launch} {d : Option Nat} {runs : List (Nat × Nat)} {r : Nat × State}
    (e : placeFrom s id la d runs = some r) : KeepsWf o r.2 := by
  unfold Machine.placeFrom at e
  split at e
  · obtain ⟨ps, _, rfl⟩ := Option.map_eq_some_iff.1 e
    exact .startUnit h
  · cases e

theorem Keeps.placeOnDie (h : KeepsWf o s) {id : Nat} {la : Launch} {d : Nat} {t : State} (ht : KeepsWf o t) :
    KeepsWf o (stateOr t (placeOnDie s id la d)) := by
  unfold Machine.placeOnDie
  extract_lets own
  generalize (if own.isEmpty = true then takeOver la d else some la) = x
  cases x with
  | none => exact ht
  | some lb => exact .mapped ht fun r e => .onLaunch (.placeFrom h e)

theorem Keeps.placeNext (h : KeepsWf o s) {id : Nat} : KeepsWf o (stateOr s (placeNext s id)) := by
  unfold Machine.placeNext
  split
  · exact h
  · split
    · exact h
    · split
      · exact .mapped h fun r e => .onLaunch (.placeFrom h e)
      · rename_i la _ _ _
        extract_lets dies own
        generalize hx : List.findSome? _ _ = x
        cases x with
        | none => exact h
        | some t =>
          obtain ⟨d, _, e⟩ := List.exists_of_findSome?_eq_some hx
          exact .of (congrArg (stateOr s) e) (.placeOnDie h h)

theorem Keeps.releaseTasks (h : Keeps bf false bt o s) {id cl : Nat} : Keeps bf false bt o (releaseTasks s id cl) := by
  unfold Machine.releaseTasks
  split
  · exact h
  · split
    · exact h
    · extract_lets cores busy t u
      have hu : Keeps bf false bt o u := .onLaunch (.freeBanks h)
      exact .ite h (.withTasks hu)

theorem Keeps.withoutTeams (h : KeepsWf o s) {ts : List Nat} : KeepsWf o (withoutTeams s ts) := by
  unfold Machine.withoutTeams
  with_reducible exact .foldl (fun _ _ h => .releaseTasks h) (.record h)

/-! The operations of Machine/Retire.lean. -/

theorem Keeps.releaseTeam (h : KeepsWf o s) {tid : Nat} {t : Team} : KeepsWf o (releaseTeam s tid t).2 := by
  unfold Machine.releaseTeam
  split
  · exact h
  · extract_lets
    split
    · rename_i e1
      with_reducible exact .onTeam (.pair e1 (.releaseStep h (fun _ _ h => .pushNode h)))
    · rename_i e1
      with_reducible exact .onTeam (.pair e1 (.releaseStep h (fun _ _ h => .pushNode h)))

theorem Keeps.setBitmap (h : KeepsWf o s) {la : Launch} {i : Nat} : KeepsWf o (setBitmap s la i) := by
  unfold Machine.setBitmap
  with_reducible refine .ite h ?_
  split
  · rename_i e
    with_reducible exact .pair e (.orHome h)
  · rename_i e
    with_reducible exact .logError (.pair e (.orHome h))

theorem Keeps.releaseHoldings (h : KeepsWf o s) {t : Team} : KeepsWf o (releaseHoldings s t) := by
  unfold Machine.releaseHoldings
  with_reducible
    exact .unless (.record (.disownAtoms (.foldl (fun _ _ h => .dropWaveLatches h) h))) (fun h => .record (.freeBanks h))

theorem Keeps.dismiss (h : KeepsWf o s) {tid : Nat} {t : Team} : KeepsWf o (dismiss s tid t) := by
  unfold Machine.dismiss
  with_reducible exact .releaseTasks (.record (.onLaunch (.releaseHoldings h)))

theorem Keeps.retireTeam (h : KeepsWf o s) {tid : Nat} : KeepsWf o (retireTeam s tid) := by
  unfold Machine.retireTeam
  split
  · exact h
  · with_reducible refine .ite h ?_
    split
    · rename_i e1
      with_reducible exact .pair e1 (.releaseTeam h)
    · rename_i e1
      split
      · with_reducible exact .dismiss (.pair e1 (.releaseTeam h))
      · with_reducible
          exact .ite (.dismiss (.pair e1 (.releaseTeam h))) (.ite (.pair e1 (.releaseTeam h)) (.dismiss (.setBitmap (.pair e1
            (.releaseTeam h)))))

theorem Keeps.endLaunch (h : KeepsWf o s) {id : Nat} : KeepsWf o (endLaunch s id) := by
  unfold Machine.endLaunch
  split
  · exact h
  · with_reducible exact .ite h (.record (.writeCompletion h))

/-! The operations of Machine/Store.lean. -/

theorem Keeps.withdrawJoint (h : KeepsWf o s) {w : Nat} {b : Bool} : KeepsWf o (withdrawJoint s w b) := by
  unfold Machine.withdrawJoint
  split
  · exact h
  · split
    · exact h
    · split
      · exact h
      · with_reducible
          exact .ite h (.ite (.record (.when (.onSlot h) (fun h => .onTeam (.setToken h)))) (.putMat (.when (.onSlot h) (fun h =>
            .onTeam (.setToken h)))))

theorem Keeps.withdrawJoints (h : KeepsWf o s) {t : Team} : KeepsWf o (withdrawJoints s t) := by
  unfold Machine.withdrawJoints
  with_reducible exact .foldl (fun _ _ h => .withdrawJoint (.withdrawJoint h)) h

theorem Keeps.saveTeam (h : KeepsWf o s) {tid : Nat} {u : State} (hu : KeepsWf o u) : KeepsWf o (stateOr u (saveTeam s tid)) := by
  unfold Machine.saveTeam
  split
  · exact h
  · split
    · exact h
    · extract_lets v im
      have hv : KeepsWf o v := .foldl (fun _ _ h => .landAll (.dropWaveLatches h)) h
      clear_value v im
      refine .mapped hu fun n _ => ?_
      extract_lets w c w' w''
      have hw' : KeepsWf o w' := .ite (.frame hv) (.frame hv)
      have hw'' : KeepsWf o w'' := .releaseHoldings (.frame hw')
      exact .releaseTasks (.frame hw'')

theorem Keeps.saveAll (h : KeepsWf o s) {ts : List Nat} {u : State} (hu : KeepsWf o u) : KeepsWf o (stateOr u (saveAll s ts)) := by
  induction ts generalizing s with
  | nil => exact h
  | cons t ts ih =>
    have hs := Keeps.saveTeam h (tid := t) hu
    unfold Machine.saveAll
    generalize Machine.saveTeam s t = x at hs ⊢
    cases x with
    | none => exact hu
    | some v => exact ih hs

theorem Keeps.releaseAll (h : KeepsWf o s) {l : List Nat} : KeepsWf o (releaseAll s l).2 := by
  induction l generalizing s with
  | nil =>
    unfold Machine.releaseAll
    exact h
  | cons a l ih =>
    unfold Machine.releaseAll
    split
    · with_reducible exact ih h
    · split
      · rename_i e1
        with_reducible exact .pair e1 (.releaseTeam h)
      · rename_i e1
        with_reducible exact ih (.pair e1 (.releaseTeam h))

theorem Keeps.keepGroup (h : KeepsWf o s) {ts : List Nat} : KeepsWf o (keepGroup s ts) := by
  unfold Machine.keepGroup
  with_reducible refine .ite (.foldl (fun _ _ h => ?_) h) (.when (.foldl (fun _ _ h => .onTeam h) h) (fun h => .record h))
  split
  · exact h
  · with_reducible exact .logError (.endTeam h)

theorem Keeps.preemptTeam (h : KeepsWf o s) {tid : Nat} : KeepsWf o (preemptTeam s tid) := by
  unfold Machine.preemptTeam
  split
  · exact h
  · rename_i ts _
    extract_lets u ready
    have hu : KeepsWf o u := .foldl (fun t k ht => by
      cases findTeam t k with
      | none => exact ht
      | some _ => exact .withdrawJoints ht) h
    clear_value u ready
    split
    · exact hu
    · have hr := Keeps.releaseAll hu (l := ts)
      generalize Machine.releaseAll u ts = p at hr ⊢
      match p with
      | (false, v) => exact hr
      | (true, v) =>
        have hs := Keeps.saveAll hr (ts := ts) hr
        dsimp only
        generalize Machine.saveAll v ts = x at hs ⊢
        cases x with
        | none => exact .keepGroup hr
        | some w => exact hs

/-! The operations of Machine/Tasks.lean. -/

theorem Keeps.readRing (h : KeepsWf o s) {core : Nat} {la : Launch} {i : Nat} : KeepsWf o (readRing s core la i).2 := by
  unfold Machine.readRing
  extract_lets
  split
  · exact h
  · split
    · rename_i e1
      with_reducible exact .pair e1 (.ringRefused h)
    · rename_i e1
      extract_lets
      split
      · with_reducible exact .askRing (.pair e1 (.ringRefused h))
      · split
        · with_reducible exact .pair e1 (.ringRefused h)
        · with_reducible exact .pair e1 (.ringRefused h)

theorem Keeps.readRings (h : KeepsWf o s) {core : Nat} {la : Launch} {i fuel : Nat} : KeepsWf o (readRings s core la i fuel).2 := by
  induction fuel generalizing s core la i with
  | zero =>
    unfold Machine.readRings
    exact h
  | succ n ih =>
    unfold Machine.readRings
    with_reducible exact ih (.readRing h)

theorem Keeps.refillQueue (h : KeepsWf o s) {core : Nat} {la : Launch} {q : TaskQueue} : KeepsWf o (refillQueue s core la q).2 := by
  unfold Machine.refillQueue
  split
  · exact h
  · extract_lets
    split
    · rename_i e1
      with_reducible exact .pair e1 (.readRings h)
    · rename_i e1
      with_reducible exact .putQueueOf (.countTaskErr (.pair e1 (.readRings h)))

theorem Keeps.stealFrom (h : KeepsWf o s) {id core : Nat} {la : Launch} : KeepsWf o (stealFrom s id core la).2 := by
  unfold Machine.stealFrom
  split
  · exact h
  · split
    · split
      · rename_i e2
        with_reducible exact .pair e2 (.readRing h)
      · rename_i e2
        with_reducible exact .countTaskErr (.putQueueOf (.pair e2 (.readRing h)))
      · rename_i e2
        with_reducible exact .putQueueOf (.pair e2 (.readRing h))
    · split
      · exact h
      · with_reducible exact .putQueueOf h

theorem Keeps.takeRecord (h : KeepsWf o s) {id core : Nat} {la : Launch} {q : TaskQueue} :
    KeepsWf o (takeRecord s id core la q).2 := by
  unfold Machine.takeRecord
  split
  · rename_i e
    with_reducible exact .pair e (.refillQueue h)
  · rename_i e
    split
    · with_reducible exact .pair e (.refillQueue h)
    · split
      · with_reducible exact .putQueueOf (.pair e (.refillQueue h))
      · split
        · with_reducible exact .pair e (.refillQueue h)
        · with_reducible exact .releaseTasks (.stealFrom (.pair e (.refillQueue h)))

theorem Keeps.beginTask (h : KeepsWf o s) {id : Nat} {la : Launch} {bank : Nat} {slot : Nat × Nat} {spill : Option Nat}
    {entry : BitVec 56} {r : TaskRec} :
    KeepsWf o (beginTask s id la bank slot spill entry r) := by
  unfold Machine.beginTask
  extract_lets
  split
  · rename_i e
    split
    · rename_i e1
      extract_lets t2
      have kt2 : KeepsWf o t2 := by
        with_reducible
          exact .withLstore (.pair e1 (.fresh (.pair e (.fresh h)))) (.memClear (Keeps.lstoreFits (.pair e1 (.fresh (.pair e
            (.fresh h))))))
      with_reducible exact .selfInvalidate (.onLaunch (.putWave (.record kt2)))

theorem Keeps.startTask (h : KeepsWf o s) {core : Nat} : KeepsWf o (startTask s core) := by
  unfold Machine.startTask
  split
  · exact h
  · split
    · exact h
    · split
      · exact h
      · split
        · with_reducible refine .ite h ?_
          split
          · rename_i e4
            with_reducible exact .releaseTasks (.pair e4 (.takeRecord h))
          · rename_i e4
            split
            · with_reducible exact .releaseTasks (.countTaskErr (.pair e4 (.takeRecord h)))
            · with_reducible exact .beginTask (.pair e4 (.takeRecord h))
        · exact h

/-! The operations of Machine/Resume.lean. -/

theorem Keeps.putLocal (h : KeepsWf o s) {cl a : Nat} {m : Mem} {marks : List Nat} : KeepsWf o (putLocal s cl a m marks) := by
  unfold Machine.putLocal
  with_reducible exact .withLstore h (.foldl (fun _ _ hm => .memWrite hm) h.lstoreFits)

theorem Keeps.restoreWave (h : KeepsWf o s) {asid : BitVec 16} {cg : Bool} {w base : Nat} {h' : Shift} {v : SavedWave} :
    KeepsWf o (restoreWave s asid cg w base h' v) :=
  .putLocal (.putWave (.fresh h))

theorem Keeps.restoreData (h : KeepsWf o s) {tid : Nat} {im : Image} {t : Team} : KeepsWf o (restoreData s tid im t) := by
  unfold Machine.restoreData
  with_reducible
    exact .record (.foldl (fun _ _ h => .foldl (fun _ _ h => .putTileEntry h) h) (.foldl (fun _ _ h => .putBank (.putLocal h)) h))

theorem Keeps.restoreOps (h : KeepsWf o s) {im : Image} {la : AsidTag} {cl : Nat} {tag : Option (BitVec 12)} {h' : Shift} :
    KeepsWf o (restoreOps s im la cl tag h') :=
  .frame h

theorem Keeps.restoreTeam (h : KeepsWf o s) {im : Image} {placed : Nat} {p : Seat} : KeepsWf o (restoreTeam s im placed p) := by
  unfold Machine.restoreTeam
  split
  · exact h
  · with_reducible exact .selfInvalidate (.foldl (fun _ _ h => .restoreWave h) (.restoreOps (.restoreData (.record (.allocate h)))))

theorem kvFind_erase_other {κ α : Type} [DecidableEq κ] (l : Kv κ α) {k j : κ} (h : k ≠ j) : kvFind (kvErase l j) k = kvFind l k := by
  induction l with
  | nil => rfl
  | cons e l ih =>
    by_cases hj : e.1 = j
    · have hk : e.1 ≠ k := fun e' => h (e'.symm.trans hj)
      simpa [kvErase, kvFind, hj, hj ▸ hk] using ih
    · simp only [kvErase, ne_eq, hj, not_false_eq_true, decide_true, List.filter_cons_of_pos, kvFind] at ih ⊢
      rw [ih]

theorem kvFind_erase_none {κ α : Type} [DecidableEq κ] {l : Kv κ α} {k j : κ} (h : kvFind l k = none) :
    kvFind (kvErase l j) k = none := by
  by_cases hj : k = j
  · rw [hj]
    exact kvFind_erase_same l j
  · rw [kvFind_erase_other l hj, h]

theorem Keeps.freeImage (h : Keeps bf false bt o s) {n : Nat} : Keeps bf false bt o (freeImage s n) :=
  h.thenStands (fun ho => memoriesWf_congr rfl (h.mems ho)) (fun _ => ⟨rfl, fun _ u hu => ⟨u, hu, .refl u⟩, fun _ => kvFind_erase_none⟩)
    nofun fun _ e => e

theorem Keeps.restoreTask (h : KeepsWf o s) {im : Image} {la : Launch} {seat : Nat × Nat × Nat} :
    KeepsWf o (restoreTask s im la seat) := by
  unfold Machine.restoreTask
  extract_lets
  split
  · extract_lets
    split
    · rename_i e1
      extract_lets t2
      have kt2 : KeepsWf o t2 := by
        with_reducible exact .withLstore (.pair e1 (.fresh h)) (.memClear (Keeps.lstoreFits (.pair e1 (.fresh h))))
      with_reducible exact .selfInvalidate (.restoreWave (.restoreOps (.record kt2)))

theorem Keeps.resumeTask (h : KeepsWf o s) {n : Nat} {im : Image} {la : Launch} : KeepsWf o (stateOr s (resumeTask s n im la)) := by
  unfold Machine.resumeTask
  extract_lets id d
  split
  · exact h
  · split
    · exact .freeImage (.restoreTask h)
    · cases newTaskRes s la d with
      | none => exact h
      | some p =>
        obtain ⟨cl, b⟩ := p
        have ht : KeepsWf o (Machine.reserveTasks s id la cl b) := .reserveTasks h
        dsimp only
        split
        · exact h
        · exact .mapped h fun _ _ => .freeImage (.restoreTask ht)

theorem kvFind_append_of_some {κ α : Type} [DecidableEq κ] {l m : Kv κ α} {k : κ} {a : α} (h : kvFind l k = some a) :
    kvFind (l ++ m) k = some a := by
  induction l with
  | nil => cases h
  | cons e l ih =>
    simp only [List.cons_append, kvFind] at h ⊢
    split
    · rwa [if_pos ‹_›] at h
    · rw [if_neg ‹_›] at h
      exact ih h

theorem Keeps.addTeams (h : Keeps bf false bt o s) {ts l : Kv Nat Team} (e : ts = s.teams ++ l) :
    Keeps bf false bt o { s with teams := ts } := by
  subst e
  exact h.thenStands (fun ho => memoriesWf_congr rfl (h.mems ho))
    (fun _ => ⟨rfl, fun _ u hu => ⟨u, kvFind_append_of_some hu, .refl u⟩, fun _ e => e⟩) nofun fun _ e => e

theorem Keeps.endImage (h : Keeps bf false bt o s) {n : Nat} {im : Image} {fate : Fate} :
    Keeps bf false bt o (endImage s n im fate) := by
  unfold Machine.endImage
  exact .onLaunch (.addTeams (.freeImage h) rfl)

theorem Keeps.logImage (h : KeepsWf o s) {n : Nat} {tag : AsidTag} {result : Nat} : KeepsWf o (logImage s n tag result) :=
  .logError h

theorem Keeps.resumeGroup (h : KeepsWf o s) {g : List (Nat × Image)} {ps : List Seat} : KeepsWf o (resumeGroup s g ps) :=
  .foldl (fun _ _ h => .restoreTeam (.freeImage h)) (.fresh h)

theorem Keeps.resumeNow (h : KeepsWf o s) {n : Nat} : KeepsWf o (stateOr s (resumeNow s n)) := by
  unfold Machine.resumeNow
  split
  · exact h
  · split
    · exact h
    · extract_lets g
      split
      · exact h
      · split
        · exact .logImage (.endImage h)
        · split
          · exact .resumeTask h
          · exact .mapped h fun _ _ => .resumeGroup h

theorem Keeps.goNow (h : KeepsWf o s) {w : Waiting} : KeepsWf o (stateOr s (goNow s w)) := by
  unfold Machine.goNow
  split
  · with_reducible exact .resumeNow h
  · with_reducible exact .placeNext h

theorem Keeps.serve (h : KeepsWf o s) {w : Waiting} : KeepsWf o (serve s w) := by
  unfold Machine.serve
  split
  · rename_i e
    with_reducible exact .ite (.of (congrArg (stateOr s) e) (.goNow h)) h
  · with_reducible exact .ite (.foldl (fun _ _ h => .askLeave h) h) h

/-! The operations of Machine/Fences.lean. -/

theorem Keeps.loseQueue (h : Keeps bf false bt o s) {core : Nat} : Keeps bf false bt o (loseQueue s core) := by
  unfold Machine.loseQueue
  split
  · exact h
  · with_reducible exact .putQueueOf (.countTaskErr h)

theorem Keeps.loseTasks (h : Keeps bf false bt o s) {cl : Nat} : Keeps bf false bt o (loseTasks s cl) := by
  unfold Machine.loseTasks
  split
  · exact h
  · with_reducible exact .releaseTasks h

theorem Keeps.loseDie (h : KeepsWf o s) {d : Nat} : KeepsWf o (loseDie s d) := by
  unfold Machine.loseDie
  with_reducible
    exact .record (.foldl (fun _ _ h => .loseTasks h) (.foldl (fun _ _ h => .loseQueue h) (.foldl (fun _ _ h => .endImage h) (.foldl
      (fun _ _ h => .endTeam h) h))))

theorem Keeps.redivide (h : Keeps bf false bt o s) {id : Nat} {ds : List Nat} : Keeps bf false bt o (redivide s id ds) := by
  unfold Machine.redivide
  split
  · exact h
  · with_reducible exact .ite h (.onLaunch h)

theorem Keeps.redivideAll (h : Keeps bf false bt o s) {ds : List Nat} : Keeps bf false bt o (redivideAll s ds) :=
  .foldl (fun _ _ h => .redivide h) h

theorem Keeps.freeTxn (h : Keeps bf false false o s) {t : Txn} : Keeps bf false false o (freeTxn s t) := by
  unfold Machine.freeTxn
  split
  · exact h
  · with_reducible
      exact .ite h (.ite (.finishTxn (.foldl (fun _ _ h => .walkEntry h) h)) (.putTxn (.foldl (fun _ _ h => .walkEntry h) h)))

theorem Keeps.cutNodes (h : Keeps bf false false o s) : Keeps bf false false o (cutNodes s) := by
  unfold Machine.cutNodes
  with_reducible exact .foldl (fun _ _ h => .freeTxn h) (.record h)

theorem Keeps.beginRebuild (h : KeepsWf o s) {k d : Nat} : KeepsWf o (beginRebuild s k d) := .frame h

theorem Keeps.fenceDie (h : KeepsWf o s) {d : Nat} : KeepsWf o (fenceDie s d) :=
  .ite h (.redivideAll (.cutNodes (.beginRebuild (.loseDie h))))

theorem Keeps.walkPart (h : Keeps bf false false o s) {k : Nat} {visits : Nat → Bool} :
    Keeps bf false false o (walkPart s k visits) :=
  .foldl (fun _ _ h => .walkEntry h) h

theorem Keeps.logWalk (h : Keeps bf bd bt o s) {k : Nat} : Keeps bf bd bt o (logWalk s k) := .ite (.logError h) (.logError h)

theorem Keeps.endWalk (h : KeepsWf o s) {k : Nat} : KeepsWf o (endWalk s k) := by
  unfold Machine.endWalk
  with_reducible exact .record (.logWalk h)

theorem Keeps.finishWalk (h : KeepsWf o s) {k : Nat} : KeepsWf o (finishWalk s k) := .endWalk (.walkPart h)

theorem Keeps.walkBatch (h : KeepsWf o s) {k : Nat} : KeepsWf o (walkBatch s k) := by
  unfold Machine.walkBatch
  with_reducible exact .ite h (.when (.record (.walkPart h)) (fun h => .endWalk h))

theorem Keeps.loseGerminal (h : KeepsWf o s) : KeepsWf o (loseGerminal s) := .frame h

theorem Keeps.moveGerminal (h : KeepsWf o s) {k : Nat} : KeepsWf o (moveGerminal s k) := by
  unfold Machine.moveGerminal
  with_reducible refine .ite h (.ite ?_ (.ite (.record h) h))
  split
  · exact .record h
  · with_reducible exact .loseGerminal h

theorem Keeps.chooseStandby (h : KeepsWf o s) : KeepsWf o (chooseStandby s) := by
  unfold Machine.chooseStandby
  with_reducible exact .ite h (.when (.drawNat h) (fun h => .record h))

theorem Keeps.fenceBase (h : KeepsWf o s) {k : Nat} : KeepsWf o (fenceBase s k) := by
  unfold Machine.fenceBase
  with_reducible exact .ite h (.redivideAll (.moveGerminal (.cutNodes (.record (.foldl (fun _ _ h => .loseDie h) h)))))

theorem Keeps.fenceHome (h : KeepsWf o s) {h' : Nat} : KeepsWf o (fenceHome s h') := by
  unfold Machine.fenceHome
  extract_lets t u lost hurt txns v w
  have ht : KeepsWf o t := .frame h
  have hu : KeepsWf o u := .foldl (fun _ _ h => .discardHome h) ht
  clear_value u
  have hv : KeepsWf o v := .record hu
  have hw : KeepsWf o w := .foldl (fun _ _ h => .endImage h) hv
  exact .ite h (.logError hw)

theorem OutcomeKeeps.execCriticalTemperature (h : KeepsWf o s) {k : DieKind} {n : Nat} :
    OutcomeKeeps o (execCriticalTemperature k n s) := by
  unfold Machine.execCriticalTemperature
  with_reducible refine .next ?_
  split
  · with_reducible exact .fenceDie h
  · with_reducible exact .fenceBase h
  · with_reducible exact .fenceHome h

theorem Keeps.putPower (h : KeepsWf o s) {d : Nat} {p : DiePower} : KeepsWf o (putPower s d p) := .frame h

theorem Keeps.loseBond (h : KeepsWf o s) {col lower : Nat} {half : Bool} : KeepsWf o (loseBond s col lower half) := by
  unfold Machine.loseBond
  with_reducible exact .ite h (.logError (.record h))

theorem Keeps.fenceLayer (h : KeepsWf o s) {cl : Nat} : KeepsWf o (fenceLayer s cl) := by
  unfold Machine.fenceLayer
  with_reducible exact .ite h (.logError (.record h))

theorem Keeps.writeLfence (h : KeepsWf o s) {v : BitVec 24} : KeepsWf o (writeLfence s v) := by
  unfold Machine.writeLfence
  with_reducible exact .when (.record h) (fun h => .fenceLayer h)

/-! The operations of Machine/ChipErrs.lean. -/

theorem Keeps.logChip (h : KeepsWf o s) {kind sev lk loc : Nat} {tag : Option AsidTag} {addr : Nat} :
    KeepsWf o (logChip s kind sev lk loc tag addr) :=
  .logError h

theorem Keeps.logNode (h : KeepsWf o s) {kind sev : Nat} {n : Node} {tag : AsidTag} {addr : Nat} :
    KeepsWf o (logNode s kind sev n tag addr) :=
  .logChip h

theorem Keeps.countCorrected (h : KeepsWf o s) {h' : Nat} : KeepsWf o (countCorrected s h') := .onCounters h

theorem Keeps.noteLayerError (h : KeepsWf o s) {cl : Nat} : KeepsWf o (noteLayerError s cl) := by
  unfold Machine.noteLayerError
  with_reducible exact .when (.record h) (fun h => .fenceLayer h)

theorem Keeps.spoilLine (h : KeepsWf o s) {n : Node} {tag : AsidTag} {line : Nat} : KeepsWf o (spoilLine s n tag line) :=
  .ite (.logNode (.countSeverity (.foldl (fun _ _ h => .ite (.putCw h) (.ite h (.dropCw h))) h))) (.logNode (.foldl (fun _ _ h =>
    .ite (.putCw h) (.ite h (.dropCw h))) h))

theorem Keeps.spoilHome (h : KeepsWf o s) {tag : AsidTag} {line : Nat} : KeepsWf o (spoilHome s tag line) := by
  unfold Machine.spoilHome
  split
  · rename_i e
    split
    · with_reducible exact .pair e (.locate h)
    · with_reducible
        exact .ite (.logNode (.foldl (fun _ _ h => .poisonWord h) (.evictHome (.pair e (.locate h))))) (.logNode (.countSeverity
          (.foldl (fun _ _ h => .poisonWord h) (.evictHome (.pair e (.locate h))))))
  · rename_i e
    with_reducible exact .pair e (.locate h)

theorem Keeps.spoilRecord (h : KeepsWf o s) {k : DKey} : KeepsWf o (spoilRecord s k) := by
  unfold Machine.spoilRecord
  extract_lets _ _ t
  have kt : KeepsWf o t := by
    unfold t
    split
    · with_reducible exact .unregister (.loseWords (.putDir h))
    · with_reducible exact .loseWords (.putDir h)
  with_reducible exact .ite h (.logNode (.ite (.countSeverity (.record kt)) (.record kt)))

theorem Keeps.logRegion (h : KeepsWf o s) {h' at' sectors : Nat} : KeepsWf o (logRegion s h' at' sectors) := by
  unfold Machine.logRegion
  with_reducible exact .retireFrame (.logError (.drawNat (.drawNat h)))

theorem Keeps.spoilEntry (h : KeepsWf o s) {sector : Nat} : KeepsWf o (spoilEntry s sector) :=
  .ite (.logRegion (.countSeverity (.foldl (fun _ _ h => .poisonWord h) h))) h

theorem Keeps.spoilImage (h : KeepsWf o s) {n : Nat} : KeepsWf o (spoilImage s n) := by
  unfold Machine.spoilImage
  split
  · exact h
  · with_reducible exact .logRegion (.countSeverity (.record h))

theorem Keeps.spoilFirmware (h : KeepsWf o s) {h' : Nat} : KeepsWf o (spoilFirmware s h') := .logRegion (.countCorrected h)

theorem Keeps.meetChipError (h : KeepsWf o s) {e : ChipErr} : KeepsWf o (meetChipError s e) := by
  unfold Machine.meetChipError
  split
  · with_reducible exact .logNode (.countCorrected (.dropCw h))
  · with_reducible exact .logNode (.countCorrected (.record h))
  · with_reducible exact .logChip (.countCorrected (.record h))
  · with_reducible exact .spoilHome h
  · with_reducible exact .spoilLine h
  · with_reducible exact .spoilRecord h
  · with_reducible exact .logChip (.record h)
  · with_reducible exact .ite (.logChip (.setPoison h)) h
  · with_reducible exact .noteLayerError (.logChip (.putTileEntry h))
  · with_reducible exact .noteLayerError (.logChip (.record h))
  · with_reducible exact .noteLayerError h
  · with_reducible exact .spoilEntry h
  · with_reducible exact .spoilImage h
  · with_reducible exact .ite (.spoilFirmware h) h

theorem Keeps.meetChipErrors (h : KeepsWf o s) : KeepsWf o (meetChipErrors s) := by
  unfold Machine.meetChipErrors
  with_reducible exact .foldl (fun _ _ h => .meetChipError h) (.record h)

/-! The operations of Machine/Context.lean. -/

theorem Keeps.readSpan (h : KeepsWf o s) {tag : AsidTag} {va fuel : Nat} : KeepsWf o (readSpan s tag va fuel).2 := by
  induction fuel generalizing s tag va with
  | zero =>
    unfold Machine.readSpan
    exact h
  | succ n ih =>
    unfold Machine.readSpan
    split
    · extract_lets
      split
      · rename_i e1
        with_reducible exact .pair e1 (.readHome (.recallLine h))
      · rename_i e1
        with_reducible exact ih (.pair e1 (.readHome (.recallLine h)))
      · rename_i e1
        with_reducible exact ih (.pair e1 (.readHome (.recallLine h)))
    · extract_lets
      split
      · rename_i e1
        with_reducible exact .pair e1 (.readHome h)
      · rename_i e1
        with_reducible exact ih (.pair e1 (.readHome h))
      · rename_i e1
        with_reducible exact ih (.pair e1 (.readHome h))

theorem Keeps.readBytes (h : KeepsWf o s) {tag : AsidTag} {va n : Nat} : KeepsWf o (readBytes s tag va n).2 := by
  unfold Machine.readBytes
  split
  · exact h
  · with_reducible exact .readSpan h

theorem Keeps.writePieces (h : KeepsWf o s) {tag : AsidTag} {poison : Bool} {ps : List (Nat × List (Option Byte))} :
    KeepsWf o (writePieces s tag poison ps).2 := by
  induction ps generalizing s with
  | nil => exact h
  | cons p ps ih =>
    obtain ⟨va, bs⟩ := p
    unfold Machine.writePieces
    split
    · exact ih h
    · extract_lets kind
      generalize hx : (if canonical va = true then Machine.storePiece s tag va bs poison else none) = x
      have kx : KeepsWf o (stateOr s x) := by
        subst hx
        split
        · exact .storePiece h
        · exact h
      cases x with
      | none => exact ih h
      | some t => exact ih kx

theorem Keeps.writeBytes (h : KeepsWf o s) {tag : AsidTag} {va : Nat} {bs : List (Option Byte)} {poison : Bool} :
    KeepsWf o (writeBytes s tag va bs poison).2 :=
  .writePieces h

theorem Keeps.imageText (h : KeepsWf o s) {im : Image} : KeepsWf o (imageText s im).2 := .frame h

theorem Keeps.putCtx (h : KeepsWf o s) {k : CtxCmd} : KeepsWf o (putCtx s k) := .frame h

theorem Keeps.endCtx (h : KeepsWf o s) {result : BitVec 4} : KeepsWf o (endCtx s result) := .putCtx h

theorem Keeps.askLaunch (h : KeepsWf o s) {crec : DWord} : KeepsWf o (askLaunch s crec) := .foldl (fun _ _ h => .askLeave h) h

theorem Keeps.askAll (h : KeepsWf o s) : KeepsWf o (askAll s) := by
  unfold Machine.askAll
  with_reducible exact .foldl (fun _ _ h => .askLeave h) (.record (.putCtx h))

theorem Keeps.importedLaunch (h : KeepsWf o s) {im : Image} : KeepsWf o (importedLaunch s im).2 :=
  .onLaunch (.beginLaunch (.fresh h))

theorem Keeps.joinLaunch (h : KeepsWf o s) {n : Nat} {im : Image} {id : Nat} : KeepsWf o (joinLaunch s n im id) := by
  unfold Machine.joinLaunch
  split
  · exact h
  · with_reducible exact .record (.onLaunch h)

theorem Keeps.joinImage (h : KeepsWf o s) {n : Nat} : KeepsWf o (joinImage s n) := by
  unfold Machine.joinImage
  split
  · exact h
  · with_reducible refine .ite h ?_
    split
    · with_reducible exact .joinLaunch h
    · with_reducible exact .joinLaunch (.importedLaunch h)

theorem Keeps.releaseImages (h : KeepsWf o s) : KeepsWf o (releaseImages s) := by
  unfold Machine.releaseImages
  with_reducible exact .foldl (fun _ _ h => .joinImage h) (.record (.putCtx h))

theorem Keeps.exportStep (h : KeepsWf o s) : KeepsWf o (stateOr s (exportStep s)) := by
  unfold Machine.exportStep
  split
  · with_reducible exact .endCtx h
  · split
    · rename_i e1
      extract_lets
      split
      · exact h
      · with_reducible exact .endCtx (.writeBytes (.record (.pair e1 (.imageText h))))

theorem Keeps.importedImage (h : KeepsWf o s) {bs : List Byte} : KeepsWf o (importedImage s bs).2 := by
  unfold Machine.importedImage
  split
  · rename_i e
    split
    · rename_i e1
      split
      · with_reducible exact .record (.pair e1 (.fresh (.pair e (.fresh h))))
      · with_reducible exact .record (.pair e1 (.fresh (.pair e (.fresh h))))

theorem Keeps.placeImage (h : KeepsWf o s) {bs : List Byte} : KeepsWf o (placeImage s bs) := by
  unfold Machine.placeImage
  split
  · rename_i e
    split
    · with_reducible exact .endCtx (.pair e (.importedImage h))
    · with_reducible exact .endCtx (.record (.putCtx (.pair e (.importedImage h))))

theorem Keeps.importStep (h : KeepsWf o s) : KeepsWf o (stateOr s (importStep s)) := by
  unfold Machine.importStep
  extract_lets
  split
  · exact h
  · split
    · rename_i e1
      split
      · with_reducible exact .endCtx (.pair e1 (.readBytes h))
      · split
        · with_reducible exact .endCtx (.pair e1 (.readBytes h))
        · extract_lets
          split
          · with_reducible exact .endCtx (.pair e1 (.readBytes h))
          · split
            · exact h
            · split
              · rename_i e6
                with_reducible
                  exact .ite (.endCtx (.pair e6 (.readBytes (.pair e1 (.readBytes h))))) (.placeImage (.pair e6 (.readBytes
                    (.pair e1 (.readBytes h)))))
              · rename_i e6
                with_reducible exact .endCtx (.pair e6 (.readBytes (.pair e1 (.readBytes h))))
    · rename_i e1
      with_reducible exact .endCtx (.pair e1 (.readBytes h))

theorem Keeps.discardStep (h : KeepsWf o s) : KeepsWf o (discardStep s) := by
  unfold Machine.discardStep
  split
  · with_reducible exact .endCtx h
  · with_reducible exact .endCtx (.putCtx (.endImage h))

theorem Keeps.ctxOn (h : KeepsWf o s) : KeepsWf o (ctxOn s) := by
  unfold Machine.ctxOn
  exact .ite h (.ite (.ite h (.endCtx h)) (.ite (.getD h (.exportStep h)) (.ite (.getD h (.importStep h)) h)))

theorem Keeps.ctxStart (h : KeepsWf o s) {op : BitVec 3} : KeepsWf o (ctxStart s op) :=
  .unless (.putCtx h) (fun h => .ite (.ctxOn (.askLaunch h)) (.ite (.ctxOn (.askAll h)) (.ite (.endCtx (.releaseImages h)) (.ite
    (.discardStep h) (.ite (.ctxOn h) (.endCtx h))))))

theorem Keeps.ctxGo (h : KeepsWf o s) {op : BitVec 3} : KeepsWf o (ctxGo s op) := .ite (.putCtx h) (.ctxStart h)

theorem Keeps.ctxNext (h : KeepsWf o s) : KeepsWf o (ctxNext s) := by
  unfold Machine.ctxNext
  split
  · exact h
  · with_reducible exact .ite h (.ctxStart (.putCtx h))

/-! The operations of Machine/Code.lean. -/

theorem Keeps.endCode (h : KeepsWf o s) {result : BitVec 3} : KeepsWf o (endCode s result) := .frame h

theorem Keeps.registerCode (h : KeepsWf o s) : KeepsWf o (registerCode s) := by
  unfold Machine.registerCode
  with_reducible refine .ite (.endCode h) ?_
  extract_lets
  split
  · with_reducible exact .endCode h
  · with_reducible exact .endCode (.record h)

theorem Keeps.removeCode (h : KeepsWf o s) {c : CodeObj} : KeepsWf o (removeCode s c) := .frame h

theorem Keeps.noteHolders (h : KeepsWf o s) {n : Nat} : KeepsWf o (noteHolders s n) := .frame h

theorem Keeps.unloadCode (h : KeepsWf o s) : KeepsWf o (unloadCode s) := by
  unfold Machine.unloadCode
  split
  · with_reducible exact .endCode h
  · with_reducible exact .ite (.endCode (.removeCode (.noteHolders h))) (.endCode (.noteHolders h))

theorem Keeps.abortUnplaced (h : KeepsWf o s) {id : Nat} : KeepsWf o (abortUnplaced s id) := by
  unfold Machine.abortUnplaced
  split
  · exact h
  · with_reducible exact .foldl (fun _ _ h => .setBitmap h) (.onLaunch h)

theorem Keeps.forceCode (h : KeepsWf o s) {c : CodeObj} : KeepsWf o (forceCode s c) := by
  unfold Machine.forceCode
  with_reducible
    exact .foldl (fun _ _ h => .abortUnplaced h) (.record (.foldl (fun _ _ h => .askLeave h) (.removeCode (.noteHolders h))))

theorem Keeps.codeOn (h : KeepsWf o s) : KeepsWf o (codeOn s) := by
  unfold Machine.codeOn
  with_reducible refine .ite h ?_
  split
  · with_reducible exact .endCode h
  · with_reducible exact .ite (.endCode (.forceCode h)) h

theorem OutcomeKeeps.execForcedUnload (h : KeepsWf o s) : OutcomeKeeps o (execForcedUnload s) := by
  unfold Machine.execForcedUnload
  with_reducible exact .hostCommand h (fun _ h => .ite h (.codeOn (.record h)))

theorem Keeps.endPatch (h : KeepsWf o s) {result : BitVec 3} : KeepsWf o (endPatch s result) := .frame h

theorem Keeps.locateText (h : KeepsWf o s) {tag : AsidTag} {va : Nat} : KeepsWf o (locateText s tag va).2 := by
  unfold Machine.locateText
  split
  · exact h
  · split
    · rename_i e1
      with_reducible exact .translate (.pair e1 (.translate h))
    · with_reducible exact .translate h

theorem Keeps.patchWord (h : KeepsWf o s) {tag : AsidTag} {va : Nat} {w : Word} : KeepsWf o (patchWord s tag va w) := by
  unfold Machine.patchWord
  split
  · rename_i e
    with_reducible exact .physWrite (.settle (.recallLine (.pair e (.locateText h))))
  · rename_i e
    with_reducible exact .pair e (.locateText h)

theorem Keeps.patchWrite (h : KeepsWf o s) {ws : List Word} : KeepsWf o (patchWrite s ws) := by
  unfold Machine.patchWrite
  with_reducible exact .record (.foldl (fun _ _ h => .patchWord h) h)

theorem Keeps.patchOn (h : KeepsWf o s) : KeepsWf o (patchOn s) := by
  unfold Machine.patchOn
  with_reducible refine .ite h ?_
  split
  · with_reducible exact .endPatch h
  · with_reducible refine .ite h ?_
    split
    · rename_i e1
      with_reducible exact .endPatch (.patchWrite (.record (.pair e1 (.readBytes h))))
    · rename_i e1
      with_reducible exact .endPatch (.pair e1 (.readBytes h))
    · rename_i e1
      with_reducible exact .endPatch (.pair e1 (.readBytes h))

theorem Keeps.patchGo (h : KeepsWf o s) : KeepsWf o (patchGo s) := by
  unfold Machine.patchGo
  with_reducible exact .ite h (.patchOn (.record h))

/-! The operations of Machine/BringUp.lean. -/

theorem Keeps.verifyFirmware (h : KeepsWf o s) : KeepsWf o (verifyFirmware s) := by
  unfold Machine.verifyFirmware
  with_reducible exact .ite h (.ite (.record h) (.record (.drawNat h)))

theorem Keeps.startTraining (h : KeepsWf o s) : KeepsWf o (startTraining s) := by
  unfold Machine.startTraining
  with_reducible exact .ite (.record h) h

theorem Keeps.endTraining (h : KeepsWf o s) {fail : BitVec 12} : KeepsWf o (endTraining s fail) := by
  unfold Machine.endTraining
  with_reducible exact .ite h (.ite (.record h) (.record h))

theorem Keeps.buildHarvest (h : KeepsWf o s) : KeepsWf o (buildHarvest s) := by
  unfold Machine.buildHarvest
  split
  · exact h
  · extract_lets t
    have ht : KeepsWf o t := .frame h
    generalize List.filter (fun k => !t.fencedStacks.contains k) (List.range 6) = ks
    split
    · exact .loseGerminal ht
    · have kp : KeepsWf o (Machine.drawNat t ks.length).2 := .drawNat ht
      clear_value t
      generalize Machine.drawNat t ks.length = p at kp ⊢
      dsimp only
      generalize hq : (if (standbyDies p.2 (ks.getD p.1 0)).isEmpty = true then (0, p.2)
        else Machine.drawNat p.2 (standbyDies p.2 (ks.getD p.1 0)).length) = q
      have kq : KeepsWf o q.2 := by
        subst hq
        split
        · exact kp
        · exact .drawNat kp
      exact .record kq

theorem Keeps.startGerminal (h : KeepsWf o s) : KeepsWf o (startGerminal s) := by
  unfold Machine.startGerminal
  with_reducible exact .ite (.record h) h

/-- A reset leaves no word anywhere, and an empty memory is canonical. -/
theorem Keeps.resetKeeping : KeepsWf o (resetKeeping s) := .of_mems fun _ => ⟨rfl, rfl, rfl⟩

/-- The volatile memories are empty again, and an empty memory is canonical. -/
theorem OutcomeKeeps.execFunctionLevelReset (h : KeepsWf o s) : OutcomeKeeps o (execFunctionLevelReset s) :=
  Keeps.of_mems fun ho => ⟨h.dramFits ho, rfl, rfl⟩

theorem OutcomeKeeps.execPowerOn : OutcomeKeeps o (execPowerOn s) := .next .resetKeeping

theorem Keeps.sendPending (h : KeepsWf o s) {v : Nat} : KeepsWf o (sendPending s v) := by
  unfold Machine.sendPending
  with_reducible exact .ite (.raiseVector (.record h)) h

theorem Keeps.unmaskVector (h : KeepsWf o s) {v : Nat} : KeepsWf o (unmaskVector s v) := by
  unfold Machine.unmaskVector
  with_reducible exact .ite h (.sendPending (.record h))

theorem Keeps.failCopies (h : KeepsWf o s) {p : Nat} : KeepsWf o (failCopies s p) := by
  unfold Machine.failCopies
  with_reducible exact .record (.putPort h)

theorem Keeps.changePort (h : KeepsWf o s) {p : Nat} {k : Port} : KeepsWf o (changePort s p k) := by
  unfold Machine.changePort
  with_reducible exact .unless (.when (.putPort h) (fun h => .record (.failCopies h))) (fun h => .raiseIf h)

theorem Keeps.linkUp (h : KeepsWf o s) {p : Nat} : KeepsWf o (linkUp s p) := .ite (.changePort h) h

theorem Keeps.linkDown (h : KeepsWf o s) {p : Nat} : KeepsWf o (linkDown s p) := .ite (.changePort h) h

theorem Keeps.leaveD3 (h : KeepsWf o s) : KeepsWf o (leaveD3 s) := by
  unfold Machine.leaveD3
  with_reducible exact .foldl (fun _ _ h => .sendPending h) (.record h)

theorem Keeps.stopClocks (h : KeepsWf o s) : KeepsWf o (stopClocks s) := by
  unfold Machine.stopClocks
  with_reducible exact .ite h (.when (.record (.foldl (fun _ _ h => .linkDown h) h)) (fun h => .leaveD3 h))

theorem Keeps.enterD3 (h : KeepsWf o s) : KeepsWf o (enterD3 s) := by
  unfold Machine.enterD3
  with_reducible exact .ite h (.stopClocks (.unless (.record h) (fun h => .ctxGo h)))

theorem OutcomeKeeps.execD0Return (h : KeepsWf o s) : OutcomeKeeps o (execD0Return s) := by
  unfold Machine.execD0Return
  with_reducible exact .next (.ite h (.ite (.leaveD3 h) (.record h)))

/-! The operations of Machine/Ftr.lean. -/

theorem Keeps.ftrEffect (h : KeepsWf o s) {sub : Nat} {f : FtrOps} {c : Ctx} : KeepsWf o (ftrEffect sub f c s).state := h

/-! The operations of Machine/Host.lean. -/

theorem Keeps.deferEvent (h : KeepsWf o s) {i : Instr} : KeepsWf o (deferEvent s i) := .frame h

theorem Keeps.answerBlocks (h : KeepsWf o s) {tag : AsidTag} {l : List (Nat × Nat)} : KeepsWf o (answerBlocks s tag l) := by
  induction l generalizing s tag with
  | nil =>
    unfold Machine.answerBlocks
    exact h
  | cons a l ih =>
    unfold Machine.answerBlocks
    split
    · rename_i e
      with_reducible exact ih (.tellHost (.pair e (.readBytes h)))
    · rename_i e
      with_reducible exact .tellHost (.pair e (.readBytes h))

theorem Keeps.bar2Read (h : KeepsWf o s) {off len : Nat} : KeepsWf o (bar2Read s off len) :=
  .ite (.tellHost h) (.ite (.deferEvent h) (.ite (.tellHost h) (.answerBlocks h)))

theorem Keeps.recordRefused (h : KeepsWf o s) {tag : AsidTag} {src : Nat} {es : List (Nat × Nat)} :
    KeepsWf o (recordRefused s tag src es) := by
  unfold Machine.recordRefused
  with_reducible refine .foldl (fun _ _ h => ?_) h
  split
  · with_reducible exact .deviceRecord h
  · exact h

theorem Keeps.bar2Write (h : KeepsWf o s) {off : Nat} {data : List (Option Byte)} : KeepsWf o (bar2Write s off data) := by
  unfold Machine.bar2Write
  with_reducible exact .ite (.tellHost h) (.ite (.deferEvent h) (.recordRefused (.writeBytes h)))

theorem Keeps.peerReads (h : KeepsWf o s) {p : Nat} {tag : AsidTag} {va n : Nat} : KeepsWf o (peerReads s p tag va n) := by
  unfold Machine.peerReads
  split
  · rename_i e
    with_reducible exact .tellHost (.pair e (.readSpan h))
  · rename_i e
    with_reducible exact .tellHost (.deviceRecord (.pair e (.readSpan h)))

theorem Keeps.peerWrites (h : KeepsWf o s) {p : Nat} {tag : AsidTag} {va : Nat} {ws : List Word} {poison : Bool} :
    KeepsWf o (peerWrites s p tag va ws poison) := by
  unfold Machine.peerWrites
  with_reducible exact .ite (.tellHost (.writeBytes h)) (.tellHost (.recordRefused (.writeBytes h)))

theorem Keeps.peerAsks (h : KeepsWf o s) {p : Nat} {r : PeerReq} : KeepsWf o (peerAsks s p r) := by
  unfold Machine.peerAsks
  with_reducible refine .ite h (.ite (.deferEvent h) ?_)
  split
  · with_reducible exact .peerReads h
  · with_reducible exact .peerWrites h

theorem Keeps.writeTail (h : KeepsWf o s) {q : Nat} {v : Word} : KeepsWf o (writeTail s q v) :=
  .when (.putQueue h) (fun h => .stopQueue h)

theorem Keeps.writeEn (h : KeepsWf o s) {q : Nat} {v : Bool} : KeepsWf o (writeEn s q v) := .putQueue h

theorem Keeps.restartQueue (h : KeepsWf o s) {q : Nat} : KeepsWf o (restartQueue s q) := .ite (.putQueue h) h

theorem Keeps.writeHead (h : KeepsWf o s) {h' : Nat} {v : BitVec 12} : KeepsWf o (writeHead s h' v) := .ite h (.putFaultBuf h)

/-! The operations of Machine/Registers.lean. -/

theorem Keeps.regBringUp (h : KeepsWf o s) {off : Nat} {v : Word} : KeepsWf o (regBringUp s off v) :=
  .ite h (.ite (.ite (.verifyFirmware h) h) (.ite (.ite (.startTraining h) h) (.ite (.startGerminal h) h)))

theorem Keeps.regQueue (h : KeepsWf o s) {off : Nat} {v : Word} : KeepsWf o (regQueue s off v) := by
  unfold Machine.regQueue
  with_reducible refine .ite h ?_
  split
  · with_reducible exact .ite h (.putQueue h)
  · with_reducible exact .ite h (.putQueue h)
  · with_reducible exact .ite h (.putQueue h)
  · with_reducible exact .writeTail h
  · with_reducible exact .writeEn (.ite (.restartQueue h) h)
  · exact h

theorem Keeps.regThreshold (h : KeepsWf o s) {off : Nat} {v : Word} : KeepsWf o (regThreshold s off v) := by
  unfold Machine.regThreshold
  with_reducible exact .ite h (.record h)

theorem Keeps.regPort (h : KeepsWf o s) {off : Nat} {v : Word} : KeepsWf o (regPort s off v) := by
  unfold Machine.regPort
  with_reducible refine .ite h ?_
  split
  · with_reducible exact .unless (.putPort h) (fun h => .linkDown h)
  · with_reducible exact .ite (.putPort h) h
  · with_reducible exact .ite h (.putPort h)
  · with_reducible exact .changePort h
  · exact h

theorem Keeps.regPower (h : KeepsWf o s) {off : Nat} {v : Word} : KeepsWf o (regPower s off v) := by
  unfold Machine.regPower
  with_reducible exact .ite (.record h) h

theorem Keeps.regWindow (h : KeepsWf o s) {off : Nat} {v : Word} : KeepsWf o (regWindow s off v) := by
  unfold Machine.regWindow
  split
  · exact .record h
  · exact .record h
  · exact .record h
  · exact h

theorem Keeps.regRebuild (h : KeepsWf o s) {off : Nat} {v : Word} : KeepsWf o (regRebuild s off v) := by
  unfold Machine.regRebuild
  with_reducible exact .ite h (.when (.record h) (fun h => .walkBatch h))

theorem Keeps.regTvec (h : KeepsWf o s) {off : Nat} {v : Word} : KeepsWf o (regTvec s off v) := by
  unfold Machine.regTvec
  with_reducible exact .ite h (.record h)

theorem Keeps.regFaults (h : KeepsWf o s) {off : Nat} {v : Word} : KeepsWf o (regFaults s off v) := by
  unfold Machine.regFaults
  with_reducible refine .ite h ?_
  split
  · with_reducible exact .writeHead h
  · with_reducible exact .ite (.putFaultBuf h) h
  · with_reducible exact .putFaultBuf h
  · exact h

theorem Keeps.regTlb (h : KeepsWf o s) {off : Nat} {v : Word} : KeepsWf o (regTlb s off v) := by
  unfold Machine.regTlb
  with_reducible refine .ite h ?_
  split
  · exact .record h
  · exact .record h
  · exact .record h
  · exact .record h
  · with_reducible exact .when (.record h) (fun h => .tlbCmd h)
  · exact h

theorem Keeps.regAstb (h : KeepsWf o s) {off : Nat} {v : Word} : KeepsWf o (regAstb s off v) := by
  unfold Machine.regAstb
  split
  · exact .record h
  · exact .record h
  · exact h

theorem Keeps.regCounters (h : KeepsWf o s) {off : Nat} {v : Word} : KeepsWf o (regCounters s off v) := .ite h (.onCounters h)

theorem Keeps.regService (h : KeepsWf o s) {off : Nat} {v : Word} : KeepsWf o (regService s off v) := by
  unfold Machine.regService
  with_reducible refine .ite (.regCounters h) ?_
  split
  · exact .record h
  · exact .record h
  · exact .record h
  · exact .record h
  · exact .record h
  · exact .record h
  · exact .record h
  · with_reducible exact .ite (.record h) h
  · exact .record h
  · with_reducible exact .writeLfence h
  · exact h

theorem Keeps.regCtx (h : KeepsWf o s) {off : Nat} {v : Word} : KeepsWf o (regCtx s off v) := by
  unfold Machine.regCtx
  split
  · with_reducible exact .putCtx h
  · with_reducible exact .putCtx h
  · with_reducible exact .putCtx h
  · with_reducible exact .when (.ite h (.putCtx h)) (fun h => .ctxGo h)
  · with_reducible exact .putCtx h
  · with_reducible exact .putCtx h
  · with_reducible exact .putCtx h
  · exact h

theorem Keeps.codeGo (h : KeepsWf o s) {op : BitVec 2} : KeepsWf o (codeGo s op) := by
  unfold Machine.codeGo
  with_reducible exact .ite (.registerCode h) (.ite (.unloadCode h) (.ite (.codeOn (.record h)) h))

theorem Keeps.regCode (h : KeepsWf o s) {off : Nat} {v : Word} : KeepsWf o (regCode s off v) := by
  unfold Machine.regCode
  with_reducible refine .ite h ?_
  split
  · exact .record h
  · exact .record h
  · exact .record h
  · exact .record h
  · with_reducible exact .when (.record h) (fun h => .codeGo h)
  · exact .record h
  · exact h

theorem Keeps.regPatch (h : KeepsWf o s) {off : Nat} {v : Word} : KeepsWf o (regPatch s off v) := by
  unfold Machine.regPatch
  with_reducible refine .ite h ?_
  split
  · exact .record h
  · exact .record h
  · exact .record h
  · exact .record h
  · exact .record h
  · with_reducible exact .ite (.patchGo h) h
  · exact h

theorem Keeps.regMsix (h : KeepsWf o s) {off : Nat} {v : Word} : KeepsWf o (regMsix s off v) := by
  unfold Machine.regMsix
  with_reducible refine .ite h ?_
  split
  · exact .record h
  · exact .record h
  · exact .record h
  · with_reducible exact .ite (.record h) (.unmaskVector h)

theorem Keeps.regStaging (h : KeepsWf o s) {off : Nat} {v : Word} : KeepsWf o (regStaging s off v) := by
  unfold Machine.regStaging
  with_reducible exact .withStaging h (.memPutWord h.stagingFits)

theorem Keeps.writeReg (h : KeepsWf o s) {off : Nat} {v : Word} : KeepsWf o (writeReg s off v) :=
  .ite (.regBringUp h) (.ite (.regQueue h) (.ite (.regThreshold h) (.ite (.regPort h) (.ite (.regPower h) (.ite h (.ite
    (.regWindow h) (.ite (.regRebuild h) (.ite (.regTvec h) (.ite (.regFaults h) (.ite (.regTlb h) (.ite (.regAstb h) (.ite
    (.regService h) (.ite (.regCtx h) (.ite (.regCode h) (.ite (.regPatch h) (.ite h (.ite (.regMsix h) (.ite
    (.regStaging h) h))))))))))))))))))

theorem Keeps.registerWrite (h : KeepsWf o s) {off size : Nat} {v : DWord} : KeepsWf o (registerWrite s off size v) :=
  .ite (.tellHost h) (.ite (.deferEvent h) (.when (.writeReg h) (fun h => .writeReg h)))

/-! The operations of Machine/Dispatch.lean. -/

theorem OutcomeKeeps.exec (h : KeepsWf o s) {i : Instr} : OutcomeKeeps o (exec i s) := by
  cases i with
  | addI32 | subI32 | mulI32 | mulhiI32 | mulhiN32 | madI32 | addsI32 | subsI32 | addsN32 | minI32 | maxI32 | minN32
  | maxN32 | andL | orL | xorL | andn | shl | shrN | shrI | rotl | bfxN | bfxI => exact .issueInstr h fun _ => .binary h
  | addi | shli | shriN | shriI | unpkF16 | unpkBf16 => exact .issueInstr h fun _ => .immediate h
  | absI32 | popc | clz | brev => exact .issueInstr h fun _ => .unary h
  | sel => exact .issueInstr h fun _ => .selEffect h
  | cmpEqI32 | cmpNeI32 | cmpLtI32 | cmpLeI32 | cmpLtN32 | cmpLeN32 => exact .issueInstr h fun _ => .compare h
  | cmpiEq | cmpiLtI32 | cmpiLtN32 => exact .issueInstr h fun _ => .compareI h
  | fcmpEqF32 | fcmpLtF32 | fcmpLeF32 | fcmpUnF32 => exact .issueInstr h fun _ => .floatCompare h
  | kop | kmovKV | kset => exact .issueInstr h fun _ => .predResult h
  | kmovVK | cvtF64F32 | cvtF32F64 | unplane | ballot | nop | movi | tkq | tkqAddr | mmstat | sreg =>
    exact .issueInstr h fun _ => .results h
  | faddF32 | fsubF32 | fmulF32 | ffmaF32 | fminF32 | fmaxF32 | faddF16x2 | fmulF16x2 | ffmaF16x2 | ffmaBf16x2 | fscaleF32
  | packF16x2 | packBf16x2 | npq | npdq => exact .issueInstr h fun _ => .floatOp h
  | fnegF32 | fabsF32 | cvtF32I32 | cvtI32F32 | cvtF32N32 | cvtN32F32 | froundF32 | fclassF32 =>
    exact .issueInstr h fun _ => .floatUnary h
  | faddF64 | fmulF64 | ffmaF64 => exact .issueInstr h fun _ => .floatOp64 h
  | plane | opcode7F => exact .issueInstr h fun _ => h
  | shfl | shflx | shfld => exact .issueInstr h fun _ => .shuffle h
  | vany | vall => exact .issueInstr h fun _ => .vote h
  | rdlane => exact .execRdlane h
  | rdx => exact .execRdx h
  | bra | gbra => exact .issueInstr h fun _ => .transfer h
  | setj => exact .execSetj h
  | join => exact .execJoin h
  | call => exact .execCall h
  | ret | jmpi => exact .issueInstr h fun _ => .jumpTo h
  | tkwait => exact .issueInstr h fun _ => .results (.ite h (.onSlot (.dropLatches h)))
  | yieldN => exact .issueInstr h fun _ => .results (.ite h (.onSlot (.ite (.dropLatches h) h)))
  | add64 | sub64 | min64N | max64N => exact .issueInstr h fun _ => .wide2 h
  | lea | shl64 | shr64N | shr64I => exact .issueInstr h fun _ => .wide1 h
  | mulwI | mulwN => exact .issueInstr h fun _ => .wide0 h
  | frcp | frsq | fsqrt | fdiv | fexp2 | flog2 | fsinpi | fcospi | ftanh => exact .issueInstr h fun _ => .ftrEffect h
  | ld => exact .issueInstr h fun _ => .loadEffect h
  | st => exact .issueInstr h fun _ => .storeEffect h
  | ldl => exact .issueInstr h fun _ => .localInstr h
  | stl | atoml => exact .issueInstr h fun _ => .overOperands (fun _ => .localInstr h)
  | atom => exact .issueInstr h fun _ => .atomEffect h
  | fence => exact .execFence h
  | xfence => exact .execXfence h
  | lsctlFeSet | lsctlFeClr => exact .issueInstr h fun _ => .fullBits h
  | lsctlMode => exact .execLsctlMode h
  | lsctlInv => exact .execLsctlInv h
  | lsctlWb => exact .execLsctlWb h
  | lsctlPf => exact .execLsctlPf h
  | cpG2l | cpL2g | cpL2gRed | cpL2l | cpG2g | cpPeerPut | cpPeerGet | cpG2lMc => exact .issueInstr h fun _ => .copyEffect h
  | cpscale => exact .issueInstr h fun _ => .issueCopy h
  | tkqClr => exact .execTkqClr h
  | mma | mmaJ => exact .issueInstr h fun _ => .mmaEffect h
  | mmrd => exact .execMmrd h
  | mmwr => exact .execMmwr h
  | mmwrZero => exact .execMmwrZero h
  | mmcvtBf16 | mmcvtNp8 => exact .issueInstr h fun _ => .cvtEffect h
  | spawn => exact .issueInstr h fun _ => .spawnEffect h
  | tdone => exact .issueInstr h fun _ => .tdoneEffect h
  | launch => exact .issueInstr h fun _ => .launchEffect h
  | tbar | abar | cbar => exact .issueInstr h fun _ => .barEffect h
  | exit => exact .issueInstr h fun _ => .results (.ite h (.endWaveLanes (.endCounts h)))
  | sset => exact .execSset h
  | trap | trapBkpt => exact .issueInstr h fun _ => .softTrap h
  | eret | eretSkip | eretKill => exact .issueInstr h fun _ => .eretEffect h
  | sigchk => exact .execSigchk h
  | tlbopMap => exact .issueInstr h fun _ => .overOperands (fun _ => .pageEffect h (fun _ _ h => .mapPage h))
  | tlbopUnmap => exact .issueInstr h fun _ => .overOperands (fun _ => .pageEffect h (fun _ _ h => .unmapPage h))
  | tlbopInval => exact .issueInstr h fun _ => .overOperands (fun _ => .pageEffect h (fun _ _ h => .invalPage h))
  | tlbopRetire => exact .execTlbopRetire h
  | fpmodeSet | fpmodeLd | fpmodeUpd => exact .issueInstr h fun _ => .setMode h
  | clauseFetch => exact .next (.fetchSlot h)
  | loadCompletion => exact .next (.landOne h)
  | localAccessPerformed => exact .next (.performWaiting h)
  | forkStackRefill => exact .next (.refill h)
  | latchHoldTimeout => exact .execLatchHoldTimeout h
  | yieldExpiry | yieldHintExpiry | issueAgeLimit => exact .next (.onSlot h)
  | trapEntry => exact .execTrapEntry h
  | copyGathered => exact .next (.gatherCopy h)
  | copyCompletion => exact .next (.engineStep h)
  | inboundWrite => exact .next (.arriveWrite h)
  | jointComparison => exact .next (.compareJoint h)
  | matrixOpStart => exact .next (.startMat h)
  | matrixOpCompletion => exact .next (.completeMat h)
  | barrierComplete => exact .next (.completeBarrier h)
  | bankModeChange => exact .next (.makeModeChange h)
  | bankRetire => exact .next (.retireBank h)
  | tagQuarantineExpiry => exact .execTagQuarantineExpiry h
  | getS | getW | getM | upg | fwdS | fwdM | drop | backInv | invAck | dataC | dataD | wbW | wbL | nack | writeAck =>
    exact .next (.deliver h)
  | nackReplay => exact .execNackReplay h
  | pageWalk => exact .next (.ite (.translate h) h)
  | flitReplay => exact .next (.when (.countReplays h) (fun h => .loseFlit h))
  | teamPlacement | teamResume => exact .next (.serve h)
  | teamPreemption => exact .next (.preemptTeam h)
  | teamRetirement => exact .next (.retireTeam h)
  | launchEnd => exact .next (.endLaunch h)
  | depBitmapReread => exact .next (.rereadBitmap h)
  | taskStart => exact .next (.startTask h)
  | dieFence => exact .next (.fenceDie h)
  | vernalRebuildDone | stackWalkDone => exact .next (.ite (.finishWalk h) h)
  | baseDieFence => exact .next (.fenceBase h)
  | homeDieFence => exact .next (.fenceHome h)
  | criticalTemperature => exact .execCriticalTemperature h
  | powerThrottle | throttleEnd => exact .next (.ite (.putPower h) h)
  | portLinkUp => exact .next (.linkUp h)
  | portLinkDown => exact .next (.linkDown h)
  | peerRequest => exact .next (.peerAsks h)
  | peerAck => exact .next (.peerAcked h)
  | bar2Read => exact .next (.bar2Read h)
  | bar2Write => exact .next (.bar2Write h)
  | registerWrite => exact .next (.registerWrite h)
  | qtail q v => exact (.hostCommand h fun _ h => .ite (.writeTail h) h : OutcomeKeeps o (Machine.execQtail q v s))
  | en q v => exact (.hostCommand h fun _ h => .ite (.writeEn h) h : OutcomeKeeps o (Machine.execEn q v s))
  | restart q => exact (.hostCommand h fun _ h => .ite (.restartQueue h) h : OutcomeKeeps o (Machine.execRestart q s))
  | head n v => exact (.hostCommand h fun _ h => .ite (.writeHead h) h : OutcomeKeeps o (Machine.execHead n v s))
  | lfence => exact .hostCommand h fun _ h => .writeLfence h
  | vrctlGo => exact .hostCommand h fun _ h => .walkBatch h
  | verticalBondRetired => exact .next (.loseBond h)
  | spareBankCopyDone => exact .next (.spareReady h)
  | peerReadData => exact .next (.peerAnswered h)
  | vectorUnmask => exact .hostCommand h fun _ h => .unmaskVector h
  | trainingComplete => exact .next (.endTraining h)
  | launchAccept => exact .next (.acceptOne h)
  | tlbCmdMap | tlbCmdUnmap | tlbCmdInval | tlbCmdRetire => exact .hostCommand h fun _ h => .tlbCmd h
  | preemptLaunch | checkpoint | releaseHeld | exportImage | importImage | discard => exact .hostCommand h fun _ h => .ctxGo h
  | codeRegister => exact .hostCommand h fun _ h => .ite h (.registerCode h)
  | codeUnload => exact .hostCommand h fun _ h => .ite h (.unloadCode h)
  | forcedUnload => exact .execForcedUnload h
  | patch => exact .hostCommand h fun _ h => .patchGo h
  | fwgo => exact .hostCommand h fun _ h => .verifyFirmware h
  | trgo => exact .hostCommand h fun _ h => .startTraining h
  | run => exact .hostCommand h fun _ h => .startGerminal h
  | d3hotEntry => exact .next (.enterD3 h)
  | d0Return => exact .execD0Return h
  | functionLevelReset => exact .execFunctionLevelReset h
  | powerOn => exact .execPowerOn

/-! The operations of Machine/Schedule.lean. -/

theorem Keeps.trapWords (h : KeepsWf o s) {r : SlotRef} {sl : Slot} {w0 w1 : Word} {cause : Nat} {act : LaneMask} :
    KeepsWf o (trapWords s r sl w0 w1 cause act) :=
  .takeTrap h

theorem OutcomeKeeps.issueWords (h : KeepsWf o s) {r : SlotRef} {x : Wave} {sl : Slot} : OutcomeKeeps o (issueWords s r x sl) := by
  unfold Machine.issueWords
  extract_lets
  split
  · with_reducible exact .exec (.record h)
  · with_reducible exact .next (.trapWords h)
  · with_reducible exact .next (.trapWords h)

theorem OutcomeKeeps.issueAt (h : KeepsWf o s) {r : SlotRef} : OutcomeKeeps o (issueAt s r) := by
  unfold Machine.issueAt
  extract_lets
  split
  · with_reducible exact .next (.onSlot h)
  · extract_lets
    split
    · with_reducible exact .exec (.onSlot h)
    · with_reducible exact .issueWords (.onSlot h)

theorem OutcomeKeeps.afterIssue {r : SlotRef} {out : Host.Outcome State Fault Refusal} (h : OutcomeKeeps o out) :
    OutcomeKeeps o (afterIssue r out) := by
  cases out with
  | next t => exact .next (.frame h)
  | fault _ => exact trivial
  | refused _ => exact trivial

theorem Keeps.watchSlots (h : KeepsWf o s) : KeepsWf o (watchSlots s) := .foldl (fun _ _ h => .onSlot h) h

theorem OutcomeKeeps.issueOne (h : KeepsWf o s) : OutcomeKeeps o (issueOne s) := by
  unfold Machine.issueOne
  split
  · with_reducible exact .next h
  · with_reducible exact .afterIssue (.issueAt h)
  · split
    · with_reducible exact .afterIssue (.issueAt h)
    · with_reducible exact .next h

theorem OutcomeKeeps.takeUp (h : KeepsWf o s) {out : Host.Outcome State Fault Refusal} (e : takeUp s = some out) : OutcomeKeeps o out := by
  unfold Machine.takeUp at e
  split at e
  · cases e
  · rename_i i rest _
    have hx := OutcomeKeeps.exec (Keeps.frame h : KeepsWf o { s with deferred := [] }) (i := i)
    generalize Machine.exec i { s with deferred := [] } = r at e hx
    cases r with
    | next t =>
      dsimp only at e
      split at e
      · cases e
        exact .next (.frame hx)
      · cases e
    | fault _ => cases e; exact trivial
    | refused _ => cases e; exact trivial

theorem OutcomeKeeps.rereadOne (h : KeepsWf o s) : OutcomeKeeps o (rereadOne s) := by
  unfold Machine.rereadOne
  split
  · with_reducible exact .exec h
  · with_reducible exact .next h

theorem OutcomeKeeps.deviceOne (h : KeepsWf o s) : OutcomeKeeps o (deviceOne s) := by
  unfold Machine.deviceOne
  split
  · rename_i e
    exact .takeUp h e
  · split
    · exact .exec (.frame h)
    · exact .rereadOne h

theorem Keeps.housekeep (h : KeepsWf o s) : KeepsWf o (housekeep s) :=
  .unless (.buildHarvest (.meetChipErrors h)) (fun h => .chooseStandby (.stopClocks (.patchOn (.codeOn (.ctxNext (.ctxOn (.ite
    (.tlbCmdGo h) h)))))))

theorem Keeps.tick (h : KeepsWf o s) : KeepsWf o (tick s) := .frame h

theorem OutcomeKeeps.takeInput (h : KeepsWf o s) {i : Instr} : OutcomeKeeps o (takeInput s i) := by
  unfold Machine.takeInput
  split
  · with_reducible exact .next (.deferEvent h)
  · with_reducible exact .exec h

theorem OutcomeKeeps.takeTurn (h : KeepsWf o s) : OutcomeKeeps o (takeTurn s) := by
  unfold Machine.takeTurn
  split
  · cases e : Machine.takeUp s with
    | none => exact .next h
    | some out => exact .takeUp h e
  · split
    · split
      · exact .deviceOne h
      · exact .issueOne (.watchSlots (.frame h))
    · exact .deviceOne (.frame h)

theorem OutcomeKeeps.advanceOne (h : KeepsWf o s) : OutcomeKeeps o (advanceOne s) := by
  unfold Machine.advanceOne
  split
  · exact .exec h
  · exact .takeInput (.frame h)
  · exact .takeTurn h

/-! The operations of Machine/Step.lean. -/

theorem OutcomeKeeps.step : OutcomeKeeps s (step s) := .advanceOne (.housekeep (.tick (.refl s)))

end

/-- Settles O56: whatever a step does, it writes the memories only by operations that keep their canonical form. -/
theorem memoriesStayCanonical : Obligations.MemoriesStayCanonical := by
  unfold Obligations.MemoriesStayCanonical
  intro s t hs e
  have hk : OutcomeKeeps s (Machine.step s) := .step
  rw [e] at hk
  exact Keeps.mems hk hs

end Sys2Proof.Machine
section
/-! The special registers and the mode (R145, R147, R205). -/

namespace Sys2Proof.Machine

/-- Folding a list by adding a weight where a test holds adds the weights of those that pass it. -/
theorem foldl_add_eq_sum_filter (p : Nat → Bool) (f : Nat → Nat) (l : List Nat) (m : Nat) :
    l.foldl (fun m i => if p i then m + f i else m) m = m + ((l.filter p).map f).sum := by
  induction l generalizing m with
  | nil => simp
  | cons i l ih =>
    cases hp : p i
    · simp [hp, ih]
    · simp [hp, ih, Nat.add_assoc]

theorem tokenBits_eq (t : Team) :
    tokenBits t = (((List.range 8).filter fun i => (t.toks.getD i default).op.isSome).map fun i => 2 ^ i).sum := by
  rw [← Nat.zero_add (List.sum _), ← foldl_add_eq_sum_filter, tokenBits]
  congr 1
  funext m i
  cases h : t.toks[i]? with
  | none =>
    have free : (default : Token).op.isSome = false := rfl
    simp [List.getD, h, free]
  | some k => simp [List.getD, h]

theorem lsBase_eq (t : Team) : lsBase t = if t.nData = 0 then 0x180000 else 0x8000 * t.dataBank := by
  rw [lsBase, Nat.mul_comm]
  rfl

/-- The place of a wave in a cohort, as the table has it (R339). -/
theorem cohort_place (o : Option (Nat × Nat)) :
    ((o.map (·.1)).getD 0, (o.map (·.2)).getD 0) = match o with
      | some k => k
      | none => (0, 0) := by
  cases o <;> rfl

/-- The reader of the model returns what the row of the table says, and the row has the width that the model writes. -/
theorem specialRegisters_read {r : SpecialRegister} (h : r ∈ specialRegisters) (s : State) (c : Ctx) :
    r.2.1 / 32 = (if sregWide r.1 then 2 else 1) ∧ sregValue s c r.1 = r.2.2 s c := by
  have core : c.w = c.r.wave := rfl
  have die : c.w / 48 / 24 = c.w / 1152 := Nat.div_div_eq_div_mul ..
  have stack : c.w / 48 / 96 = c.w / 4608 := Nat.div_div_eq_div_mul ..
  have ipo : c.w / 48 / 288 = c.w / 4608 / 3 := by omega
  simp only [specialRegisters, List.cons_append, List.nil_append, List.mem_cons, List.not_mem_nil, or_false] at h
  rcases h with rfl | rfl | rfl | rfl | rfl | rfl | rfl | rfl | rfl | rfl | rfl | rfl | rfl | rfl | rfl | rfl | rfl | rfl | rfl |
    rfl | rfl | rfl | rfl | rfl | rfl | rfl | rfl | rfl | rfl
  all_goals refine ⟨rfl, funext fun l => ?_⟩
  all_goals simp only [sregValue, tokenBits_eq, lsBase_eq, boolNat, Ctx.core, Ctx.cl, coreOf, clusterOf, dieOf, stackOf, ipoOf,
    ← core, die, stack, ipo]
  · exact congrArg Prod.fst (cohort_place c.t.cohort)
  · exact congrArg Prod.snd (cohort_place c.t.cohort)

theorem exec_sreg {f : SregOps} {s : State} {c : Ctx} (h : Issues (.sreg f) s c) :
    Completes (.sreg f) s c (s, 0, eachWide c f.u f.d (if sregWide f.idx.toNat then 2 else 1) (sregValue s c f.idx.toNat)) :=
  completes_results h rfl rfl (eachWide_fits h (List.mem_singleton.2 rfl) _)

/-- The numbers that the decoder accepts are those of the table. -/
theorem specialRegisters_listed {n : Nat} (h : sregListed n = true) : ∃ r ∈ specialRegisters, r.1 = n := by
  have numbers : specialRegisters.map (·.1) = [0x00, 0x01, 0x02, 0x08, 0x09, 0x0A, 0x0C, 0x0D, 0x0E, 0x10, 0x11, 0x18, 0x19, 0x1A, 0x1B,
      0x1C, 0x20, 0x28, 0x2A, 0x30, 0x31, 0x32, 0x33, 0x34, 0x35, 0x38, 0x3A, 0x40, 0x41] := rfl
  rw [sregListed, ← numbers, List.contains_iff_mem] at h
  exact List.mem_map.1 h

/-- A change of a wave that changes nothing of it leaves the state as it is. -/
theorem onWave_same (s : State) (w : Nat) : onWave s w (fun x => x) = s := by
  have table : kvModify s.waves w (fun x => x) = s.waves := by
    rw [kvModify]
    conv_rhs => rw [← List.map_id s.waves]
    exact List.map_congr_left fun e _ => by split <;> rfl
  unfold onWave
  rw [table]

theorem setMode_eq (new : BitVec 7 → State → BitVec 7) (c : Ctx) (s : State) :
    setMode new c s = .done (onWave s c.w fun x => if c.act = 0 then x else { x with fpmode := new x.fpmode s }) 0 0 [] := by
  unfold setMode
  by_cases h : c.act = 0
  · simp only [h, if_true, onWave_same]
    rfl
  · simp only [h, if_false]
    rfl

/-- Each `fpmode` instruction sets the mode once for the wave, and does nothing with empty `act`. -/
theorem sets_of_setMode {i : Instr} {new : Ctx → BitVec 7 → State → BitVec 7}
    (h : ∀ s, exec i s = issueInstr i s fun c => setMode (new c) c) :
    Sets i fun c s x => if c.act = 0 then x else { x with fpmode := new c x.fpmode s } :=
  fun s c hi => completes_nil hi (h s) (setMode_eq (new c) c s)

/-- `sset` writes from the first of its lanes. -/
theorem exec_sset {f : SsetOps} {s : State} {c : Ctx} (h : Issues (.sset f) s c) {l : Nat} (hl : (c.formLanes f.u).head? = some l) :
    Completes (.sset f) s c (writeSreg s c f.idx.toNat (src s c f.u f.a l), 0, []) := by
  obtain ⟨ls, hls⟩ := List.head?_eq_some_iff.1 hl
  refine completes_nil h rfl ?_
  simp only [hls, results]

/-- Settles O9: the reader is compared with the table row by row; `sset` and the `fpmode` instructions follow from their effects. -/
theorem modeAndSpecialRegisters : Obligations.ModeAndSpecialRegisters := by
  unfold Obligations.ModeAndSpecialRegisters
  refine ⟨fun f n width value hr hn s c h => ?_, fun f s c h => ?_, fun f s c h hl => ?_, fun f s c l h hl hi => ?_,
    fun f s c l h hl hi => ?_, fun f => ?_, fun f => ?_, fun f => ?_⟩
  · obtain ⟨hw, hv⟩ := specialRegisters_read hr s c
    have := exec_sreg h
    rwa [hn, ← hw, hv] at this
  · have listed := h.fields.1
    simp only [unimplBad, Bool.or_eq_false_iff, Bool.not_eq_false'] at listed
    exact specialRegisters_listed listed.1
  · refine completes_nil h rfl ?_
    simp only [hl, results]
  · have := exec_sset h hl
    rwa [writeSreg, hi, if_pos (by decide)] at this
  · have := exec_sset h hl
    rwa [writeSreg, hi, if_neg (by decide)] at this
  · exact sets_of_setMode (new := fun _ _ _ => f.v) fun _ => rfl
  · exact sets_of_setMode (new := fun c _ s => field (readGroup s c.x f.a.toNat) 0 7) fun _ => rfl
  · exact sets_of_setMode (new := fun _ old _ => (old &&& ~~~f.m) ||| (f.v &&& f.m)) fun _ => rfl

end Sys2Proof.Machine
end
section
/-! Fences (O43). What stands while teams end, transactions go on and entries are walked. -/

namespace Sys2Proof.Machine

/-! Readings of `Stands`. -/

section

variable {o s t : State}

theorem Stands.dfence (h : Stands o s) : s.dfence = o.dfence := congrArg (·.1.1) h.fences
theorem Stands.hfence (h : Stands o s) : s.hfence = o.hfence := congrArg (·.1.2.1) h.fences
theorem Stands.fencedStacks (h : Stands o s) : s.fencedStacks = o.fencedStacks := congrArg (·.1.2.2.1) h.fences
theorem Stands.stackWalks (h : Stands o s) : s.stackWalks = o.stackWalks := congrArg (·.1.2.2.2) h.fences
theorem Stands.germinal (h : Stands o s) : (s.gbase, s.gstby, s.gerLost, s.boot, s.berr) = (o.gbase, o.gstby, o.gerLost, o.boot, o.berr) :=
  congrArg (·.2.2.1) h.fences
theorem Stands.faultBufAt (h : Stands o s) (n : Nat) : faultBufAt s n = faultBufAt o n :=
  congrArg (fun f => kvGet f n FaultBuf.clear) (congrArg (·.2.2.2) h.fences : s.faults = o.faults)

/-- A rebuild goes on as it was, but for the lines that it has counted. -/
theorem Stands.walk (h : Stands o s) (k : Nat) : walksOf s.rebuilds k = walksOf o.rebuilds k := congrFun (congrArg (·.2.1) h.fences) k

theorem Stands.pend (h : Stands o s) (k : Nat) : (rebuildAt s k).pend = (rebuildAt o k).pend :=
  show (walksOf s.rebuilds k).pend = (walksOf o.rebuilds k).pend from congrArg _ (h.walk k)
theorem Stands.dies (h : Stands o s) (k : Nat) : (rebuildAt s k).dies = (rebuildAt o k).dies :=
  show (walksOf s.rebuilds k).dies = (walksOf o.rebuilds k).dies from congrArg _ (h.walk k)

theorem Stands.dieFenced (h : Stands o s) (d : Nat) : dieFenced s d = dieFenced o d := by
  rw [Machine.dieFenced, h.dfence, Machine.dieFenced]

theorem Stands.nodeFenced (h : Stands o s) (n : Node) : nodeFenced s n = nodeFenced o n := by
  cases n <;> simp only [Machine.nodeFenced, h.dieFenced, h.fencedStacks]

end

/-! Teams of a die that is lost (R30). -/

/-- Teams do no more than be lost. -/
def TeamsStand (o s : State) : Prop := ∀ id u, findTeam o id = some u → ∃ v, findTeam s id = some v ∧ TeamStands u v

/-- The normal teams of a die of `s` are lost in `t`. -/
def LosesTeams (s t : State) (d : Nat) : Prop :=
  ∀ id tm, findTeam s id = some tm → dieOf tm.cl = d → tm.fate = .normal → ∃ u, findTeam t id = some u ∧ u.fate = .lost

section

variable {o s t u : State} {d : Nat}

theorem TeamsStand.refl (s : State) : TeamsStand s s := fun _ u h => ⟨u, h, .refl u⟩

theorem TeamsStand.trans (h : TeamsStand o s) (h' : TeamsStand s t) : TeamsStand o t := by
  intro id u hu
  obtain ⟨v, hv, hs⟩ := h id u hu
  obtain ⟨w, hw, hs'⟩ := h' id v hv
  exact ⟨w, hw, hs.trans hs'⟩

theorem TeamStands.stays_lost {u v : Team} (h : TeamStands u v) (e : u.fate = .lost) : v.fate = .lost := by
  obtain ⟨-, hf | ⟨-, hf⟩⟩ := h
  · exact hf.trans e
  · exact hf

theorem TeamStands.normal_or_lost {u v : Team} (h : TeamStands u v) (e : u.fate = .normal ∨ u.fate = .lost) :
    v.fate = .normal ∨ v.fate = .lost := by
  obtain ⟨-, hf | ⟨-, hf⟩⟩ := h
  · rwa [hf]
  · exact .inr hf

theorem LosesTeams.after (h : LosesTeams s t d) (k : TeamsStand t u) : LosesTeams s u d := by
  intro id tm ht hd hn
  obtain ⟨v, hv, lost⟩ := h id tm ht hd hn
  obtain ⟨w, hw, st⟩ := k id v hv
  exact ⟨w, hw, st.stays_lost lost⟩

theorem LosesTeams.before (k : TeamsStand o s) (h : LosesTeams s t d) (k' : TeamsStand s t) : LosesTeams o t d := by
  intro id tm ht hd hn
  obtain ⟨v, hv, hc, hf⟩ := k id tm ht
  obtain hf | ⟨-, hf⟩ := hf
  · exact h id v hv (hc.symm ▸ hd) (hf.trans hn)
  · obtain ⟨w, hw, st⟩ := k' id v hv
    exact ⟨w, hw, st.stays_lost hf⟩

/-- What ending a team as lost does to the teams. -/
theorem endTeam_teams {id : Nat} {tm : Team} (h : findTeam s id = some tm) : ∃ u, Stands s u ∧
    (endTeam s id .lost).teams =
      kvModify u.teams id fun y => { y with fate := if y.fate = .normal then .lost else y.fate, leaving := false } := by
  generalize e : endTeam s id .lost = t
  unfold endTeam at e
  rw [h] at e
  dsimp -zeta only at e
  extract_lets a mine finishes b c d at e
  have kc : Keeps true false false s c :=
    .releaseStray (.disownAtoms (.record (.foldl (fun _ _ h => .dropWaveLatches (.onWave h)) (.refl s))))
  refine ⟨c, kc.stands rfl, ?_⟩
  rw [← e]
  split <;> rfl

theorem endTeam_lost {id : Nat} {tm : Team} (h : findTeam s id = some tm) (hn : tm.fate = .normal ∨ tm.fate = .lost) :
    ∃ v, findTeam (endTeam s id .lost) id = some v ∧ v.fate = .lost := by
  obtain ⟨u, hu, e⟩ := endTeam_teams h
  obtain ⟨v, hv, st⟩ := hu.teams id tm h
  refine ⟨_, by rw [findTeam, e, kvFind_modify, if_pos rfl, show kvFind u.teams id = some v from hv]; rfl, ?_⟩
  obtain hf | hf := st.normal_or_lost hn
  · exact if_pos hf
  · exact (if_neg (by rw [hf]; decide)).trans hf

theorem keeps_endTeams (l : List (Nat × Team)) : Keeps true false true s (l.foldl (fun t e => endTeam t e.1 .lost) s) :=
  .foldl (fun _ _ h => .endTeam h fun _ => rfl) (.refl s)

theorem endTeams_lost (l : List (Nat × Team)) {e : Nat × Team} (hl : e ∈ l) {tm : Team} (h : findTeam s e.1 = some tm)
    (hn : tm.fate = .normal ∨ tm.fate = .lost) :
    ∃ v, findTeam (l.foldl (fun t e => endTeam t e.1 .lost) s) e.1 = some v ∧ v.fate = .lost := by
  obtain ⟨before, later, rfl⟩ := List.append_of_mem hl
  rw [List.foldl_append, List.foldl_cons]
  obtain ⟨v, hv, st⟩ := ((keeps_endTeams before).stands rfl).teams e.1 tm h
  obtain ⟨w, hw, lost⟩ := endTeam_lost hv (st.normal_or_lost hn)
  obtain ⟨x, hx, st'⟩ := ((keeps_endTeams later).stands rfl).teams e.1 w hw
  exact ⟨x, hx, st'.stays_lost lost⟩

end

/-! A compute die that is lost. -/

/-- What losing a compute die does to fences and teams. -/
structure LosesDie (s t : State) (d : Nat) : Prop where
  dfence : t.dfence = s.dfence ||| 1#24 <<< d
  stands : Stands s { t with dfence := s.dfence }
  teams : LosesTeams s t d
  txns : s.txns = [] → t.txns = []

theorem loseDie_losesDie (s : State) (d : Nat) : LosesDie s (loseDie s d) d := by
  unfold loseDie
  extract_lets a b c u
  have ended : Keeps true false true s a := keeps_endTeams _
  have lost : LosesTeams s a d := fun id tm ht hd hn =>
    endTeams_lost _ (e := (id, tm)) (List.mem_filter.2 ⟨kvFind_mem ht, decide_eq_true hd⟩) ht (.inl hn)
  have kb : Keeps true false true a b := .foldl (fun _ _ h => .endImage h) (.refl a)
  have kc : Keeps true false true a c := .foldl (fun _ _ h => .loseQueue h) kb
  have ku : Keeps true false true a u := .foldl (fun _ _ h => .loseTasks h) kc
  clear_value a u
  have whole : Stands s u := (ended.stands rfl).trans (ku.stands rfl)
  refine ⟨congrArg (· ||| 1#24 <<< d) whole.dfence, whole.trans (.of_same ?_), lost.after (ku.stands rfl).teams,
    fun e => ku.txns rfl (ended.txns rfl e)⟩
  rw [← whole.dfence]

theorem LosesDie.teamsStand {s t : State} {d : Nat} (h : LosesDie s t d) : TeamsStand s t := h.stands.teams

theorem LosesDie.dieFenced {s t : State} {d : Nat} (h : LosesDie s t d) (j : Nat) :
    dieFenced t j = (dieFenced s j || decide (j < 24 ∧ j = d)) := by
  have bit : (1#24 <<< d).getLsbD j = decide (j < 24 ∧ j = d) := by
    simp only [BitVec.getLsbD_shiftLeft, BitVec.getLsbD_one]
    by_cases h24 : j < 24 <;> by_cases hj : j = d <;> simp [h24, hj]; omega
  rw [Machine.dieFenced, h.dfence, BitVec.getLsbD_or, bit, Machine.dieFenced]

/-- Stands but for the dies that are fenced. -/
theorem Stands.withDfence {s t : State} (h : Stands s t) (f : BitVec 24) : Stands { s with dfence := f } { t with dfence := f } := by
  refine ⟨?_, h.teams, h.images⟩
  have e := h.fences
  simp only [fencesOf, Prod.mk.injEq] at e ⊢
  tauto

/-- What losing several dies in turn does. -/
structure LosesDies (s t : State) (ds : List Nat) : Prop where
  stands : Stands s { t with dfence := s.dfence }
  fenced : ∀ d, dieFenced s d = true → dieFenced t d = true
  dies : ∀ d ∈ ds, (d < 24 → dieFenced t d = true) ∧ LosesTeams s t d

theorem loseDies_losesDies (ds : List Nat) (s : State) : LosesDies s (ds.foldl loseDie s) ds := by
  induction ds generalizing s with
  | nil => exact ⟨.of_same rfl, fun _ => id, nofun⟩
  | cons a ds ih =>
    have one := loseDie_losesDie s a
    have rest := ih (loseDie s a)
    rw [List.foldl_cons]
    generalize loseDie s a = l at one rest
    generalize ds.foldl loseDie l = t at rest
    refine ⟨one.stands.trans (rest.stands.withDfence s.dfence), fun d hd => rest.fenced d ?_, fun d hd => ?_⟩
    · rw [one.dieFenced, hd, Bool.true_or]
    · rcases List.mem_cons.1 hd with rfl | hd
      · refine ⟨fun h24 => rest.fenced d ?_, one.teams.after rest.stands.teams⟩
        rw [one.dieFenced, decide_eq_true ⟨h24, rfl⟩, Bool.or_true]
      · obtain ⟨hf, ht⟩ := rest.dies d hd
        exact ⟨hf, ht.before one.teamsStand rest.stands.teams⟩

/-! A compute die is fenced. -/

theorem redivideAll_stands (s : State) (ds : List Nat) : Stands s (redivideAll s ds) :=
  (Keeps.redivideAll (bf := true) (bt := false) (.refl s)).stands rfl

theorem cutNodes_stands (s : State) : Stands s (cutNodes s) := (Keeps.cutNodes (bf := true) (.refl s)).stands rfl

theorem redivide_caches (s : State) (id : Nat) (ds : List Nat) : (redivide s id ds).caches = s.caches := by
  unfold redivide
  split
  · rfl
  · extract_lets
    split <;> rfl

theorem redivideAll_caches (s : State) (ds : List Nat) : (redivideAll s ds).caches = s.caches := by
  unfold redivideAll
  exact List.foldlRecOn s.launches _ (motive := fun t => t.caches = s.caches) rfl fun t h e _ => (redivide_caches t e.1 ds).trans h

/-- Where no transaction goes on, cutting off fenced nodes leaves no word of theirs. -/
theorem cutNodes_caches {s : State} (h : s.txns = []) : (cutNodes s).caches = s.caches.filter fun e => !nodeFenced s e.1.node := by
  simp [cutNodes, h]

theorem fenceDie_eq {s : State} {d : Nat} (hd : d < 24) (hf : dieFenced s d = false) :
    fenceDie s d = redivideAll (cutNodes (beginRebuild (loseDie s d) (d / 4) d)) [d] := by
  rw [fenceDie, hf, if_neg (by simpa using hd)]

theorem beginRebuild_rebuildAt (s : State) (k d : Nat) :
    (rebuildAt (beginRebuild s k d) k).pend = true ∧ d ∈ (rebuildAt (beginRebuild s k d) k).dies := by
  rw [beginRebuild, rebuildAt, kvGet, kvFind_put_same, Option.getD_some]
  by_cases hp : (rebuildAt s k).pend = true <;> simp [hp]

/-- R30, R272. -/
theorem fenceDie_spec {s : State} {d : Nat} (hd : d < 24) (hf : dieFenced s d = false) :
    (fenceDie s d).dfence = s.dfence ||| (1#24 <<< d) ∧ LosesTeams s (fenceDie s d) d ∧ (rebuildAt (fenceDie s d) (d / 4)).pend = true ∧
      d ∈ (rebuildAt (fenceDie s d) (d / 4)).dies ∧
      (s.txns = [] → ∀ e ∈ (fenceDie s d).caches, nodeFenced (fenceDie s d) e.1.node = false) := by
  rw [fenceDie_eq hd hf]
  have lost := loseDie_losesDie s d
  generalize loseDie s d = l at lost
  have began := beginRebuild_rebuildAt l (d / 4) d
  have same : (beginRebuild l (d / 4) d).dfence = l.dfence ∧ (beginRebuild l (d / 4) d).teams = l.teams ∧
    (beginRebuild l (d / 4) d).txns = l.txns := ⟨rfl, rfl, rfl⟩
  generalize beginRebuild l (d / 4) d = b at began same
  obtain ⟨hp, hm⟩ := began
  obtain ⟨sd, st, sx⟩ := same
  have cut := cutNodes_stands b
  have stands : Stands b (redivideAll (cutNodes b) [d]) := cut.trans (redivideAll_stands _ _)
  refine ⟨stands.dfence.trans (sd.trans lost.dfence), lost.teams.after ?_, (stands.pend _).trans hp, stands.dies _ ▸ hm, fun hx e he => ?_⟩
  · intro id u hu
    exact stands.teams id u (by rwa [findTeam, st])
  · rw [redivideAll_caches, cutNodes_caches (sx.trans (lost.txns hx))] at he
    simpa [stands.nodeFenced] using (List.mem_filter.1 he).2

end Sys2Proof.Machine
end
section
/-! A base die and a home die are fenced (R31 to R33). -/

namespace Sys2Proof.Machine

/-! Germinal moves, or is lost. -/

/-- Germinal's own state. -/
abbrev germinalOf (s : State) : Nat × Option Nat × Bool × BitVec 4 × BitVec 8 := (s.gbase, s.gstby, s.gerLost, s.boot, s.berr)

/-- Germinal works, and its base dies are picked. -/
abbrev Picked (s : State) : Prop := s.gerLost = false ∧ (s.boot = 4 ∨ s.boot = 5)

/-- Germinal goes on at its standby, or is lost. -/
def toStandby (s : State) : State :=
  match s.gstby with
  | some b => { s with gbase := b, gstby := none }
  | none => loseGerminal s

theorem moveGerminal_eq (s : State) (k : Nat) :
    moveGerminal s k =
      if Picked s then
        (if s.gbase = k then toStandby s else if s.gstby = some k then { s with gstby := none } else s)
      else s := by
  unfold moveGerminal
  by_cases h : Picked s
  · have off : (s.gerLost || !(decide (s.boot = 4) || decide (s.boot = 5))) = false := by
      obtain ⟨hl, hb⟩ := h
      rw [hl, ← Bool.decide_or, decide_eq_true hb]
      rfl
    rw [if_pos h, off, if_neg Bool.false_ne_true]
    rfl
  · have on : (s.gerLost || !(decide (s.boot = 4) || decide (s.boot = 5))) = true := by
      rw [← Bool.decide_or, Bool.or_eq_true, Bool.not_eq_true', decide_eq_false_iff_not]
      cases hl : s.gerLost
      · exact .inr fun hb => h ⟨hl, hb⟩
      · exact .inl rfl
    rw [if_neg h, on, if_pos rfl]

theorem kvFind_map_snd {κ α : Type} [DecidableEq κ] (l : Kv κ α) (k : κ) (f : α → α) :
    kvFind (l.map fun e => (e.1, f e.2)) k = (kvFind l k).map f := by
  induction l with
  | nil => rfl
  | cons e l ih =>
    by_cases he : e.1 = k <;> simp [kvFind, he, ih]

theorem loseGerminal_teamsStand (s : State) : TeamsStand s (loseGerminal s) := by
  intro id u hu
  refine ⟨{ u with leaving := false, release := 0 }, ?_, rfl, .inl rfl⟩
  exact (kvFind_map_snd s.teams id fun e => { e with leaving := false, release := 0 }).trans (congrArg _ hu)

/-- What the loss of a base die leaves of the fences and walks as Germinal moves. -/
structure Moved (s t : State) : Prop where
  teams : TeamsStand s t
  dfence : t.dfence = s.dfence
  fencedStacks : t.fencedStacks = s.fencedStacks
  stackWalks : t.stackWalks = s.stackWalks
  rebuilds : t.rebuilds = s.rebuilds

theorem moveGerminal_moved (s : State) (k : Nat) : Moved s (moveGerminal s k) := by
  rw [moveGerminal_eq]
  split
  · split
    · unfold toStandby
      split
      · exact ⟨.refl s, rfl, rfl, rfl, rfl⟩
      · exact ⟨loseGerminal_teamsStand s, rfl, rfl, rfl, rfl⟩
    · split <;> exact ⟨.refl s, rfl, rfl, rfl, rfl⟩
  · exact ⟨.refl s, rfl, rfl, rfl, rfl⟩

/-! A base die. -/

/-- What fencing a base die makes of the rebuilds, walks and fenced stacks, once its dies are lost. -/
def beginStackWalk (s : State) (k : Nat) : State :=
  { s with
    rebuilds := kvPut s.rebuilds k { rebuildAt s k with
      pend := true, host := s.service.rbm, die := 0, busy := false, next := 0, lines := 0, dies := [] }
    stackWalks := s.stackWalks ++ [k], fencedStacks := s.fencedStacks ++ [k] }

/-- The dies of a stack. -/
abbrev stackDies (k : Nat) : List Nat := (List.range 4).map fun i => 4 * k + i

theorem fenceBase_eq {s : State} {k : Nat} (hk : k < 6) (hf : s.fencedStacks.contains k = false) :
    fenceBase s k = redivideAll (moveGerminal (cutNodes (beginStackWalk ((stackDies k).foldl loseDie s) k)) k) (stackDies k) := by
  rw [fenceBase, hf, if_neg (by simpa using hk)]
  rfl

/-- R31, but for Germinal. -/
theorem fenceBase_stack {s : State} {k : Nat} (hk : k < 6) (hf : s.fencedStacks.contains k = false) :
    (fenceBase s k).fencedStacks = s.fencedStacks ++ [k] ∧ k ∈ (fenceBase s k).stackWalks ∧ (rebuildAt (fenceBase s k) k).pend = true ∧
      (∀ i < 4, dieFenced (fenceBase s k) (4 * k + i) = true ∧ LosesTeams s (fenceBase s k) (4 * k + i)) ∧
      ∃ m, germinalOf m = germinalOf s ∧ germinalOf (fenceBase s k) = germinalOf (moveGerminal m k) := by
  rw [fenceBase_eq hk hf]
  have lost := loseDies_losesDies (stackDies k) s
  generalize (stackDies k).foldl loseDie s = l at lost
  have cut := cutNodes_stands (beginStackWalk l k)
  generalize hc : cutNodes (beginStackWalk l k) = c at cut
  have moved := moveGerminal_moved c k
  have last := redivideAll_stands (moveGerminal c k) (stackDies k)
  have teams : TeamsStand l (redivideAll (moveGerminal c k) (stackDies k)) := .trans (.trans cut.teams moved.teams) last.teams
  refine ⟨?_, ?_, ?_, fun i hi => ?_, c, ?_, last.germinal⟩
  · rw [last.fencedStacks, moved.fencedStacks, cut.fencedStacks]
    exact congrArg (· ++ [k]) lost.stands.fencedStacks
  · rw [last.stackWalks, moved.stackWalks, cut.stackWalks]
    exact List.mem_append_right _ (List.mem_singleton.2 rfl)
  · rw [last.pend, rebuildAt, moved.rebuilds, ← rebuildAt, cut.pend, beginStackWalk, rebuildAt, kvGet, kvFind_put_same]
    rfl
  · obtain ⟨fenced, lose⟩ := lost.dies (4 * k + i) (List.mem_map.2 ⟨i, List.mem_range.2 hi, rfl⟩)
    refine ⟨?_, lose.after teams⟩
    rw [dieFenced, last.dfence, moved.dfence, cut.dfence]
    exact fenced (by omega)
  · exact cut.germinal.trans lost.stands.germinal

/-- Where Germinal is after the loss of base die `k`: as it was, at its standby, without standby, or lost. -/
theorem moveGerminal_germinal (s : State) (k : Nat) :
    (∀ b, Picked s → s.gbase = k → s.gstby = some b → germinalOf (moveGerminal s k) = (b, none, false, s.boot, s.berr)) ∧
      (Picked s → s.gbase ≠ k → s.gstby = some k → germinalOf (moveGerminal s k) = (s.gbase, none, false, s.boot, s.berr)) ∧
      (Picked s → s.gbase = k → s.gstby = none → germinalOf (moveGerminal s k) = (s.gbase, none, true, 15, 5)) ∧
      (¬ Picked s ∨ (s.gbase ≠ k ∧ s.gstby ≠ some k) → germinalOf (moveGerminal s k) = germinalOf s) := by
  rw [moveGerminal_eq]
  refine ⟨fun b hp hk hb => ?_, fun hp hk hb => ?_, fun hp hk hb => ?_, fun h => ?_⟩
  · rw [if_pos hp, if_pos hk, toStandby, hb]
    exact congrArg (fun l => (b, none, l, s.boot, s.berr)) hp.1
  · rw [if_pos hp, if_neg hk, if_pos hb]
    exact congrArg (fun l => (s.gbase, none, l, s.boot, s.berr)) hp.1
  · rw [if_pos hp, if_pos hk, toStandby, hb]
    rfl
  · rcases h with hp | ⟨hk, hb⟩
    · rw [if_neg hp]
    · rw [if_neg hk, if_neg hb, ite_self]

/-- R33. -/
theorem fenceBase_germinal {s : State} {k : Nat} (hk : k < 6) (hf : s.fencedStacks.contains k = false) :
    let t := fenceBase s k
    (∀ b, Picked s → s.gbase = k → s.gstby = some b → t.gbase = b ∧ t.gstby = none ∧ t.gerLost = false) ∧
      (Picked s → s.gbase ≠ k → s.gstby = some k → t.gbase = s.gbase ∧ t.gstby = none ∧ t.gerLost = false) ∧
      (Picked s → s.gbase = k → s.gstby = none → t.gerLost = true ∧ t.boot = 15 ∧ t.berr = 5) ∧
      (¬ Picked s ∨ (s.gbase ≠ k ∧ s.gstby ≠ some k) →
        t.gbase = s.gbase ∧ t.gstby = s.gstby ∧ t.gerLost = s.gerLost ∧ t.boot = s.boot) := by
  obtain ⟨-, -, -, -, m, hm, ht⟩ := fenceBase_stack hk hf
  obtain ⟨g1, g2, g3, g4⟩ := moveGerminal_germinal m k
  rw [← ht] at g1 g2 g3 g4
  simp only [germinalOf, Prod.mk.injEq] at hm g1 g2 g3 g4
  obtain ⟨h1, h2, h3, h4, -⟩ := hm
  rw [Picked, h1, h2, h3, h4] at g1 g2 g3 g4
  intro t
  refine ⟨fun b p q r => ?_, fun p q r => ?_, fun p q r => ?_, fun p => ?_⟩
  · obtain ⟨a, b, c, -⟩ := g1 b p q r
    exact ⟨a, b, c⟩
  · obtain ⟨a, b, c, -⟩ := g2 p q r
    exact ⟨a, b, c⟩
  · obtain ⟨-, -, a, b, c⟩ := g3 p q r
    exact ⟨a, b, c⟩
  · obtain ⟨a, b, c, d, -⟩ := g4 p
    exact ⟨a, b, c, d⟩

/-! A home die. -/

theorem poisonWord_tlbs (s : State) (pa : Nat) : (poisonWord s pa).tlbs = s.tlbs := by
  unfold poisonWord
  extract_lets
  split
  · rfl
  · split <;> rfl

theorem restoreWord_tlbs (s : State) (u : DramWord) : (restoreWord s u).tlbs = s.tlbs := by
  unfold restoreWord
  extract_lets t
  split
  · exact poisonWord_tlbs t u.pa
  · rfl

theorem foldl_tlbs {α : Type} {f : State → α → State} (hf : ∀ t a, (f t a).tlbs = t.tlbs) (l : List α) (s : State) :
    (l.foldl f s).tlbs = s.tlbs := by
  induction l generalizing s with
  | nil => rfl
  | cons a l ih => exact (ih (f s a)).trans (hf s a)

theorem discardHome_tlbs (s : State) (h : Nat) (e : HomeLine) : (discardHome s h e).tlbs = s.tlbs :=
  foldl_tlbs restoreWord_tlbs e.under (forgetHome s h e)

theorem logError_tlbs (s : State) (r : LogRec) : (logError s r).tlbs = s.tlbs := by
  unfold logError
  extract_lets
  split
  · rfl
  · unfold raiseIf
    split
    · unfold raiseVector
      extract_lets
      split <;> rfl
    · rfl

theorem endImage_tlbs (s : State) (e : Nat × Image) : (endImage s e.1 e.2 .lost).tlbs = s.tlbs := rfl

/-- An image that is ended is none. -/
theorem endImages_gone (l : List (Nat × Image)) (s : State) {e : Nat × Image} (h : e ∈ l) :
    kvFind (l.foldl (fun t e => endImage t e.1 e.2 .lost) s).images e.1 = none := by
  obtain ⟨before, later, rfl⟩ := List.append_of_mem h
  rw [List.foldl_append, List.foldl_cons]
  generalize before.foldl (fun t e => endImage t e.1 e.2 .lost) s = t
  have rest : Keeps true false false (endImage t e.1 e.2 .lost) (later.foldl (fun t e => endImage t e.1 e.2 .lost) (endImage t e.1 e.2 .lost)) :=
    .foldl (fun _ _ h => .endImage h) (.refl _)
  exact (rest.stands rfl).images e.1 (kvFind_erase_same t.images e.1)

/-- R32. -/
theorem fenceHome_spec {s : State} {h : Nat} (hh : h < 12) (hf : homeFenced s h = false) :
    (fenceHome s h).hfence = s.hfence ||| (1#12 <<< h) ∧ kvFind (fenceHome s h).tlbs h = none ∧
      faultBufAt (fenceHome s h) h = FaultBuf.clear ∧
      ∀ n im, kvFind s.images n = some im → n / slotsPerHome = h → kvFind (fenceHome s h).images n = none := by
  unfold fenceHome
  rw [hf, if_neg (by simpa using hh)]
  extract_lets a b lost hurt txns c d
  have kb : Keeps true false false a b := .foldl (fun _ _ h => .discardHome h) (.refl a)
  have kc : Keeps true false false a c := .frame kb
  have kd : Keeps true false false c d := .foldl (fun _ _ h => .endImage h) (.refl c)
  have kt (r : LogRec) : Stands d (logError d r) := (Keeps.logError (bf := true) (bd := false) (bt := false) (.refl d)).stands rfl
  have whole (r : LogRec) : Stands a (logError d r) := ((kc.stands rfl).trans (kd.stands rfl)).trans (kt r)
  have tb : b.tlbs = a.tlbs := foldl_tlbs (fun t (e : Nat × HomeLine) => discardHome_tlbs t e.1 e.2) _ a
  refine ⟨(whole _).hfence, ?_, ?_, fun n im hn hs => (kt _).images n ?_⟩
  · rw [logError_tlbs, show d.tlbs = c.tlbs from foldl_tlbs endImage_tlbs _ c, show c.tlbs = b.tlbs from rfl, tb]
    exact kvFind_erase_same s.tlbs h
  · rw [(whole _).faultBufAt]
    exact congrArg (·.getD FaultBuf.clear) (kvFind_erase_same s.faults h)
  · cases hc : kvFind c.images n with
    | none => exact (kd.stands rfl).images n hc
    | some im' => exact endImages_gone _ c (e := (n, im')) (List.mem_filter.2 ⟨kvFind_mem hc, decide_eq_true hs⟩)

end Sys2Proof.Machine
end
section
/-! The walks of a directory for a fenced stack or die (R274, R275), the records they visit, and Germinal's new standby (R33). -/

namespace Sys2Proof.Machine

/-! Directories. -/

/-- A directory's record by its key. -/
abbrev recordAt (s : State) (q : DKey) : DRec := kvGet s.dirs q ⟨.i, 0, 0⟩

theorem recordAt_putDir_same (s : State) (n : Node) (tag : AsidTag) (line : Nat) (child : Node) (r : DRec) :
    (recordAt (putDir s n tag line child r) ⟨n, tag, line, child⟩).st = r.st := by
  unfold putDir
  by_cases h : r.st = .i
  · rw [if_pos h, recordAt, kvGet, kvFind_erase_same, h]
    rfl
  · rw [if_neg h, recordAt, kvGet, kvFind_put_same]
    rfl

theorem recordAt_putDir_other (s : State) {n : Node} {tag : AsidTag} {line : Nat} {child : Node} (r : DRec) {q : DKey}
    (h : q ≠ ⟨n, tag, line, child⟩) : recordAt (putDir s n tag line child r) q = recordAt s q := by
  unfold putDir
  split
  · rw [recordAt, kvGet, kvFind_erase_other _ h, ← kvGet]
  · rw [recordAt, kvGet, kvFind_put_other _ _ h.symm, ← kvGet]

theorem recordAt_unregister_other (s : State) {n : Node} {tag : AsidTag} {line : Nat} {child : Node} (mask : BitVec 32) {q : DKey}
    (h : q ≠ ⟨n, tag, line, child⟩) : recordAt (unregister s n tag line child mask) q = recordAt s q := by
  unfold unregister
  extract_lets
  split
  · rfl
  · exact recordAt_putDir_other s _ h

/-- Where nothing is registered, ending a registration changes nothing. -/
theorem unregister_none (s : State) {n : Node} {tag : AsidTag} {line : Nat} {child : Node} (mask : BitVec 32)
    (h : (recordAt s ⟨n, tag, line, child⟩).st = .i) : unregister s n tag line child mask = s := if_pos h

theorem loseWords_dirs (s : State) (n : Node) (sev : Nat) (tag : AsidTag) (line : Nat) (mask : BitVec 32) :
    (loseWords s n sev tag line mask).dirs = s.dirs ∧ (loseWords s n sev tag line mask).rebuilds = s.rebuilds :=
  (Keeps.loseWords (bf := false) (bd := true) (bt := false) (.refl s)).dirs rfl

/-! A record that a walk visits. -/

/-- The state once the words of a record that is walked are lost. -/
abbrev lostEntry (s : State) (n : Node) (tag : AsidTag) (line : Nat) (child : Node) : State :=
  loseWords (putDir s n tag line child ⟨.i, 0, 0⟩) n 5 tag line (dirtied (dirAt s n tag line child))

/-- And once the registration of those words above it has ended. -/
def endedEntry (s : State) (n : Node) (tag : AsidTag) (line : Nat) (child : Node) : State :=
  match parentNode n (128 * line) with
  | some p => unregister (lostEntry s n tag line child) p tag line n (dirtied (dirAt s n tag line child))
  | none => lostEntry s n tag line child

theorem walkEntry_eq (s : State) (n : Node) (k : Nat) (tag : AsidTag) (line : Nat) (child : Node) :
    walkEntry s n k tag line child =
      if (dirAt s n tag line child).st = .i then s
      else if dirtied (dirAt s n tag line child) = 0 then endedEntry s n tag line child
      else { endedEntry s n tag line child with
        rebuilds := kvPut (endedEntry s n tag line child).rebuilds k { rebuildAt (endedEntry s n tag line child) k with
          lines := satAdd (rebuildAt (endedEntry s n tag line child) k).lines 1 } } := rfl

/-- A walk of a record changes no directory but by that. -/
theorem walkEntry_dirs (s : State) (n : Node) (k : Nat) (tag : AsidTag) (line : Nat) (child : Node) :
    (walkEntry s n k tag line child).dirs =
      if (dirAt s n tag line child).st = .i then s.dirs else (endedEntry s n tag line child).dirs := by
  rw [walkEntry_eq]
  split
  · rfl
  · split <;> rfl

theorem recordAt_lostEntry_same (s : State) (n : Node) (tag : AsidTag) (line : Nat) (child : Node) :
    (recordAt (lostEntry s n tag line child) ⟨n, tag, line, child⟩).st = .i := by
  obtain ⟨e, -⟩ := loseWords_dirs (putDir s n tag line child ⟨.i, 0, 0⟩) n 5 tag line (dirtied (dirAt s n tag line child))
  rw [recordAt, e]
  exact recordAt_putDir_same ..

theorem recordAt_lostEntry_other (s : State) {n : Node} {tag : AsidTag} {line : Nat} {child : Node} {q : DKey}
    (h : q ≠ ⟨n, tag, line, child⟩) : recordAt (lostEntry s n tag line child) q = recordAt s q := by
  obtain ⟨e, -⟩ := loseWords_dirs (putDir s n tag line child ⟨.i, 0, 0⟩) n 5 tag line (dirtied (dirAt s n tag line child))
  rw [recordAt, e]
  exact recordAt_putDir_other s _ h

/-- A child that has no record gets none. -/
theorem recordAt_endedEntry_none {s : State} (n : Node) (tag : AsidTag) (line : Nat) (child : Node) {q : DKey}
    (h : (recordAt (lostEntry s n tag line child) q).st = .i) : (recordAt (endedEntry s n tag line child) q).st = .i := by
  unfold endedEntry
  split
  · rename_i p _
    by_cases hq : q = ⟨p, tag, line, n⟩
    · rw [unregister_none _ _ (hq ▸ h), h]
    · rw [recordAt_unregister_other _ _ hq, h]
  · exact h

theorem recordAt_endedEntry_other (s : State) {n : Node} {tag : AsidTag} {line : Nat} {child : Node} {q : DKey}
    (h : q ≠ ⟨n, tag, line, child⟩) (hc : q.child ≠ n) : recordAt (endedEntry s n tag line child) q = recordAt s q := by
  unfold endedEntry
  split
  · rw [recordAt_unregister_other _ _ fun e => hc (congrArg DKey.child e), recordAt_lostEntry_other s h]
  · exact recordAt_lostEntry_other s h

/-- The record that is walked is none. -/
theorem recordAt_walkEntry_same (s : State) (n : Node) (k : Nat) (tag : AsidTag) (line : Nat) (child : Node) :
    (recordAt (walkEntry s n k tag line child) ⟨n, tag, line, child⟩).st = .i := by
  rw [recordAt, walkEntry_dirs]
  split
  · assumption
  · exact recordAt_endedEntry_none n tag line child (recordAt_lostEntry_same ..)

theorem recordAt_walkEntry_none {s : State} (n : Node) (k : Nat) (tag : AsidTag) (line : Nat) (child : Node) {q : DKey}
    (h : (recordAt s q).st = .i) : (recordAt (walkEntry s n k tag line child) q).st = .i := by
  by_cases hq : q = ⟨n, tag, line, child⟩
  · subst hq
    exact recordAt_walkEntry_same ..
  · rw [recordAt, walkEntry_dirs]
    split
    · exact h
    · exact recordAt_endedEntry_none n tag line child (by rw [recordAt_lostEntry_other s hq, h])

theorem recordAt_walkEntry_other (s : State) {n : Node} (k : Nat) {tag : AsidTag} {line : Nat} {child : Node} {q : DKey}
    (h : q ≠ ⟨n, tag, line, child⟩) (hc : q.child ≠ n) : recordAt (walkEntry s n k tag line child) q = recordAt s q := by
  rw [recordAt, walkEntry_dirs]
  split
  · rfl
  · exact recordAt_endedEntry_other s h hc

/-! A part of a walk. -/

/-- The entries that a part of stack `k`'s walk visits. -/
def visited (s : State) (k : Nat) (visits : Nat → Bool) : Kv DKey DRec :=
  s.dirs.filter fun e =>
    (fencedChildren s e.1.node).any (fun c => c.1 = k && c.2 = e.1.child) && visits (entryIndex s e.1.node e.1.tag e.1.line)

/-- Walks of several records. -/
abbrev walkEntries (s : State) (k : Nat) (l : Kv DKey DRec) : State :=
  l.foldl (fun t e => walkEntry t e.1.node k e.1.tag e.1.line e.1.child) s

theorem walkPart_eq (s : State) (k : Nat) (visits : Nat → Bool) : walkPart s k visits = walkEntries s k (visited s k visits) := rfl

theorem recordAt_walkEntries_none {s : State} (k : Nat) (l : Kv DKey DRec) {q : DKey} (h : (recordAt s q).st = .i) :
    (recordAt (walkEntries s k l) q).st = .i :=
  List.foldlRecOn l _ (motive := fun t => (recordAt t q).st = .i) h fun _ ht e _ => recordAt_walkEntry_none e.1.node k e.1.tag e.1.line e.1.child ht

theorem recordAt_walkEntries_visited {s : State} (k : Nat) (l : Kv DKey DRec) {e : DKey × DRec} (h : e ∈ l) :
    (recordAt (walkEntries s k l) e.1).st = .i := by
  obtain ⟨before, later, rfl⟩ := List.append_of_mem h
  rw [walkEntries, List.foldl_append, List.foldl_cons]
  exact recordAt_walkEntries_none k later (recordAt_walkEntry_same ..)

theorem recordAt_walkEntries_other {s : State} (k : Nat) (l : Kv DKey DRec) {q : DKey} (h : ∀ e ∈ l, q ≠ e.1 ∧ q.child ≠ e.1.node) :
    recordAt (walkEntries s k l) q = recordAt s q :=
  List.foldlRecOn l _ (motive := fun t => recordAt t q = recordAt s q) rfl fun t ht e he => by
    obtain ⟨h1, h2⟩ := h e he
    exact (recordAt_walkEntry_other t k h1 h2).trans ht

/-- A record whose child is fenced and whose entry is visited is none after that part of the walk. -/
theorem recordAt_walkPart_visited {s : State} {k : Nat} {visits : Nat → Bool} {q : DKey} (hc : (k, q.child) ∈ fencedChildren s q.node)
    (hv : visits (entryIndex s q.node q.tag q.line) = true) : (recordAt (walkPart s k visits) q).st = .i := by
  rw [walkPart_eq]
  cases hq : kvFind s.dirs q with
  | none => exact recordAt_walkEntries_none k _ (by rw [recordAt, kvGet, hq]; rfl)
  | some r =>
    refine recordAt_walkEntries_visited k _ (e := (q, r)) (List.mem_filter.2 ⟨kvFind_mem hq, ?_⟩)
    rw [hv, Bool.and_true]
    exact List.any_eq_true.2 ⟨_, hc, by simp⟩

end Sys2Proof.Machine
end
section
/-! The end of a walk, its batches, the words that it loses, and the obligation (O43). -/

namespace Sys2Proof.Machine

/-! The end of a walk. -/

theorem fencedChildren_dies {s : State} {k d : Nat} (hp : (rebuildAt s k).pend = true) (hw : s.stackWalks.contains k = false)
    (hd : d ∈ (rebuildAt s k).dies) : (k, Node.die d) ∈ fencedChildren s (.stk k) := by
  rw [fencedChildren, hp, hw]
  exact List.mem_map.2 ⟨d, hd, rfl⟩

theorem fencedChildren_stack {s : State} {k : Nat} {n : Node} (hw : s.stackWalks.contains k = true)
    (hn : ∃ h, n = .home h ∨ n = .bridge h) : (k, Node.stk k) ∈ fencedChildren s n := by
  have hk : (k, Node.stk k) ∈ s.stackWalks.map fun k => (k, Node.stk k) := List.mem_map.2 ⟨k, List.contains_iff_mem.1 hw, rfl⟩
  obtain ⟨h, rfl | rfl⟩ := hn
  · exact hk
  · exact hk

/-- No die has fenced children. -/
theorem fencedChildren_not_die {s : State} {n : Node} {c : Nat × Node} (h : c ∈ fencedChildren s n) (d : Nat) : n ≠ .die d := by
  rintro rfl
  cases h

theorem logWalk_dirs (s : State) (k : Nat) : (logWalk s k).dirs = s.dirs := by
  obtain ⟨e, -⟩ := (Keeps.logWalk (bf := false) (bd := true) (bt := false) (.refl s) (k := k)).dirs rfl
  exact e

theorem endWalk_dirs (s : State) (k : Nat) : (endWalk s k).dirs = s.dirs := logWalk_dirs s k

theorem endWalk_rebuildAt (s : State) (k : Nat) :
    (rebuildAt (endWalk s k) k).pend = false ∧ (rebuildAt (endWalk s k) k).dies = [] := by
  rw [endWalk, rebuildAt, kvGet, kvFind_put_same]
  exact ⟨rfl, rfl⟩

theorem endWalk_stackWalks (s : State) (k : Nat) : k ∉ (endWalk s k).stackWalks := fun h => by
  simpa using (List.mem_filter.1 h).2

/-- R274, R31: a walk of the hardware's ends with every entry visited. -/
theorem finishWalk_spec {s : State} {k : Nat} {up : Bool} (hp : (rebuildAt s k).pend = true) (hw : s.stackWalks.contains k = up) :
    (rebuildAt (finishWalk s k) k).pend = false ∧ (rebuildAt (finishWalk s k) k).dies = [] ∧ k ∉ (finishWalk s k).stackWalks ∧
      (∀ tag line d, up = false → d ∈ (rebuildAt s k).dies → (dirAt (finishWalk s k) (.stk k) tag line (.die d)).st = .i) ∧
      (∀ tag line n, up = true → (∃ h, n = .home h ∨ n = .bridge h) → (dirAt (finishWalk s k) n tag line (.stk k)).st = .i) ∧
      ∀ e, s.dirs.filter (fun e => (fencedChildren s e.1.node).any fun c => c.1 = k && c.2 = e.1.child) = [e] →
        finishWalk s k = endWalk (walkEntry s e.1.node k e.1.tag e.1.line e.1.child) k := by
  obtain ⟨pend, dies⟩ := endWalk_rebuildAt (walkPart s k fun _ => true) k
  have gone (n : Node) (tag : AsidTag) (line : Nat) (child : Node) (h : (k, child) ∈ fencedChildren s n) :
      (dirAt (finishWalk s k) n tag line child).st = .i := by
    rw [finishWalk, dirAt, endWalk_dirs]
    exact recordAt_walkPart_visited (q := ⟨n, tag, line, child⟩) h rfl
  refine ⟨pend, dies, endWalk_stackWalks _ k, fun tag line d hu hd => ?_, fun tag line n hu hn => ?_, fun e he => ?_⟩
  · exact gone _ _ _ _ (fencedChildren_dies hp (hw.trans hu) hd)
  · exact gone _ _ _ _ (fencedChildren_stack (hw.trans hu) hn)
  · have one : visited s k (fun _ => true) = [e] := by simpa only [visited, Bool.and_true] using he
    rw [finishWalk, walkPart_eq, one]
    rfl

/-! A batch of the host's walk. -/

/-- Where the batch of a host-assisted walk ends (R275). -/
abbrev batchEnd (s : State) (k : Nat) : Nat :=
  (rebuildAt s k).next + if (rebuildAt s k).batch = 0 then 65536 else (rebuildAt s k).batch.toNat

/-- The state after a batch's entries are visited, its place in the directory moved on. -/
def batchDone (s : State) (k next : Nat) : State :=
  let w := walkPart s k fun i => next = directoryEntries || ((rebuildAt s k).next ≤ i && i < next)
  { w with rebuilds := kvPut w.rebuilds k { rebuildAt w k with next } }

theorem walkBatch_eq {s : State} {k : Nat} (hp : (rebuildAt s k).pend = true) (hh : (rebuildAt s k).host = true)
    (hb : (rebuildAt s k).busy = false) :
    walkBatch s k =
      if min directoryEntries (batchEnd s k) = directoryEntries then endWalk (batchDone s k (min directoryEntries (batchEnd s k))) k
      else batchDone s k (min directoryEntries (batchEnd s k)) := by
  rw [walkBatch, hp, hh, hb, if_neg (by decide)]
  rfl

theorem rebuildAt_batchDone (s : State) (k next : Nat) :
    (rebuildAt (batchDone s k next) k).next = next ∧ (rebuildAt (batchDone s k next) k).pend = (rebuildAt s k).pend := by
  have stands (visits : Nat → Bool) : Stands s (walkPart s k visits) := (Keeps.walkPart (bf := true) (.refl s)).stands rfl
  rw [batchDone, rebuildAt, kvGet, kvFind_put_same]
  exact ⟨rfl, (stands _).pend k⟩

theorem dirAt_batchDone {s : State} {k next : Nat} (hp : (rebuildAt s k).pend = true) (hw : s.stackWalks.contains k = false)
    (hn : next < directoryEntries) {d : Nat} (hd : d ∈ (rebuildAt s k).dies) (tag : AsidTag) (line : Nat) :
    let i := entryIndex s (.stk k) tag line
    ((rebuildAt s k).next ≤ i → i < next → (dirAt (batchDone s k next) (.stk k) tag line (.die d)).st = .i) ∧
      (i < (rebuildAt s k).next ∨ next ≤ i →
        dirAt (batchDone s k next) (.stk k) tag line (.die d) = dirAt s (.stk k) tag line (.die d)) := by
  have ne : decide (next = directoryEntries) = false := decide_eq_false hn.ne
  refine ⟨fun h1 h2 => ?_, fun h => recordAt_walkEntries_other (q := ⟨.stk k, tag, line, .die d⟩) k _ fun e he => ?_⟩
  · refine recordAt_walkPart_visited (q := ⟨.stk k, tag, line, .die d⟩) (fencedChildren_dies hp hw hd) ?_
    rw [ne, decide_eq_true h1, decide_eq_true h2]
    rfl
  · obtain ⟨-, hv⟩ := List.mem_filter.1 he
    rw [Bool.and_eq_true, ne] at hv
    obtain ⟨child, inside⟩ := hv
    obtain ⟨c, hc, -⟩ := List.any_eq_true.1 child
    refine ⟨?_, fun e' => fencedChildren_not_die hc d e'.symm⟩
    intro e'
    simp only [← e', Bool.false_or, Bool.and_eq_true, decide_eq_true_eq] at inside
    omega

/-- R275. -/
theorem walkBatch_spec {s : State} {k : Nat} (hp : (rebuildAt s k).pend = true) (hh : (rebuildAt s k).host = true)
    (hb : (rebuildAt s k).busy = false) :
    (batchEnd s k < 2 ^ 20 → s.stackWalks.contains k = false → ∀ tag line d, d ∈ (rebuildAt s k).dies →
      let i := entryIndex s (.stk k) tag line
      ((rebuildAt s k).next ≤ i → i < batchEnd s k → (dirAt (walkBatch s k) (.stk k) tag line (.die d)).st = .i) ∧
        (i < (rebuildAt s k).next ∨ batchEnd s k ≤ i →
          dirAt (walkBatch s k) (.stk k) tag line (.die d) = dirAt s (.stk k) tag line (.die d))) ∧
      (batchEnd s k < 2 ^ 20 → (rebuildAt (walkBatch s k) k).next = batchEnd s k ∧ (rebuildAt (walkBatch s k) k).pend = true) ∧
      (2 ^ 20 ≤ batchEnd s k → (rebuildAt (walkBatch s k) k).pend = false) := by
  have partly (h : batchEnd s k < 2 ^ 20) : walkBatch s k = batchDone s k (batchEnd s k) := by
    rw [walkBatch_eq hp hh hb, min_eq_right (show batchEnd s k ≤ directoryEntries from h.le),
      if_neg (show batchEnd s k ≠ directoryEntries from h.ne)]
  refine ⟨fun h hw tag line d hd => ?_, fun h => ?_, fun h => ?_⟩
  · rw [partly h]
    exact dirAt_batchDone hp hw h hd tag line
  · rw [partly h]
    obtain ⟨next, pend⟩ := rebuildAt_batchDone s k (batchEnd s k)
    exact ⟨next, pend.trans hp⟩
  · rw [walkBatch_eq hp hh hb, min_eq_left (show directoryEntries ≤ batchEnd s k from h), if_pos rfl]
    obtain ⟨pend, -⟩ := endWalk_rebuildAt (batchDone s k directoryEntries) k
    exact pend

/-! The words of a record that is walked. -/

theorem maskWords_one {i : Nat} (h : i < 32) : maskWords (1#32 <<< i) = [i] := by
  have all : ∀ i < 32, maskWords (1#32 <<< i) = [i] := by decide +kernel
  exact all i h

theorem oneBit_ne_zero {i : Nat} (h : i < 32) : 1#32 <<< i ≠ 0 := fun e => by
  have one := maskWords_one h
  rw [e] at one
  cases one

theorem wordPoisoned_poisonWord (s : State) (pa : Nat) : wordPoisoned (poisonWord s pa) pa = true := by
  unfold poisonWord wordPoisoned
  extract_lets w
  split
  · assumption
  · split
    · refine List.contains_iff_mem.2 (List.mem_append_right _ (List.mem_map.2 ⟨w % 8, List.mem_range.2 (by omega), ?_⟩))
      show w / 8 * 8 + w % 8 = w
      omega
    · exact List.contains_iff_mem.2 (List.mem_append_right _ (List.mem_singleton.2 rfl))

/-- What is lost with one dirty word: it is poisoned at home, its copies below go, and the home counts it. -/
theorem loseWords_one {s u : State} {n : Node} {tag : AsidTag} {line i : Nat} {p : Phys} {e : DWord} (hi : i < 32)
    (h : translate s tag (128 * line + 4 * i) .load true = (.ok p e, u)) :
    loseWords s n 5 tag line (1#32 <<< i) =
      countSeverity (dropCw (poisonWord u p.pa) n tag (128 * line + 4 * i)) (homeOf (128 * line)) 5 := by
  simp only [loseWords, if_neg (oneBit_ne_zero hi), dropWords, maskWords_one hi, List.foldl_cons, List.foldl_nil, poisonVa, locate, wordVa, h]

theorem unregister_eq (s : State) (n : Node) (tag : AsidTag) (line : Nat) (child : Node) (mask : BitVec 32) :
    unregister s n tag line child mask = { s with dirs := (unregister s n tag line child mask).dirs } := by
  unfold unregister
  extract_lets
  split
  · rfl
  · unfold putDir
    split <;> rfl

theorem endedEntry_eq (s : State) (n : Node) (tag : AsidTag) (line : Nat) (child : Node) :
    endedEntry s n tag line child = { lostEntry s n tag line child with dirs := (endedEntry s n tag line child).dirs } := by
  unfold endedEntry
  split
  · exact unregister_eq ..
  · rfl

theorem putDir_rebuilds (s : State) (n : Node) (tag : AsidTag) (line : Nat) (child : Node) (r : DRec) :
    (putDir s n tag line child r).rebuilds = s.rebuilds := by
  unfold putDir
  split <;> rfl

/-- A walked record with dirty words: they are lost, and the walk counts the line. -/
theorem walkEntry_dirty {s : State} {n : Node} (k : Nat) {tag : AsidTag} {line : Nat} {child : Node}
    (hr : (dirAt s n tag line child).st ≠ .i) (hd : dirtied (dirAt s n tag line child) ≠ 0) :
    ∃ ds, walkEntry s n k tag line child = { lostEntry s n tag line child with
      dirs := ds, rebuilds := kvPut s.rebuilds k { rebuildAt s k with lines := satAdd (rebuildAt s k).lines 1 } } := by
  obtain ⟨-, lost⟩ := loseWords_dirs (putDir s n tag line child ⟨.i, 0, 0⟩) n 5 tag line (dirtied (dirAt s n tag line child))
  have same : (endedEntry s n tag line child).rebuilds = s.rebuilds := by
    rw [endedEntry_eq]
    exact lost.trans (putDir_rebuilds ..)
  refine ⟨(endedEntry s n tag line child).dirs, ?_⟩
  rw [walkEntry_eq, if_neg hr, if_neg hd, rebuildAt, same, ← rebuildAt]
  generalize hds : (endedEntry s n tag line child).dirs = ds
  rw [endedEntry_eq, hds]

theorem poisonWord_counters (s : State) (pa : Nat) : (poisonWord s pa).counters = s.counters := by
  unfold poisonWord
  extract_lets
  split
  · rfl
  · split <;> rfl

/-- What is left of a word that a node has dropped and home `h` has counted as lost. -/
theorem droppedWord (v : State) (n : Node) (tag : AsidTag) (va h : Nat) :
    (countSeverity (dropCw v n tag va) h 5).dramPoison = v.dramPoison ∧ cwAt (countSeverity (dropCw v n tag va) h 5) n tag va = none ∧
      (countersAt (countSeverity (dropCw v n tag va) h 5) h).s3up = satAdd (countersAt v h).s3up 1 := by
  refine ⟨rfl, kvFind_erase_same v.caches ⟨n, tag, va⟩, ?_⟩
  rw [countersAt, countSeverity, onCounters, kvGet, kvFind_put_same]
  rfl

/-- R272: a walked record of one dirty word. -/
theorem walkEntry_word {s u : State} {n : Node} {k : Nat} {tag : AsidTag} {line : Nat} {child : Node} {i : Nat} {p : Phys} {e : DWord}
    (hr : (dirAt s n tag line child).st ≠ .i) (hd : dirtied (dirAt s n tag line child) = 1#32 <<< i) (hi : i < 32)
    (h : translate (putDir s n tag line child ⟨.i, 0, 0⟩) tag (128 * line + 4 * i) .load true = (.ok p e, u)) :
    (dirAt (walkEntry s n k tag line child) n tag line child).st = .i ∧ wordPoisoned (walkEntry s n k tag line child) p.pa = true ∧
      cwAt (walkEntry s n k tag line child) n tag (128 * line + 4 * i) = none ∧
      (rebuildAt (walkEntry s n k tag line child) k).lines = satAdd (rebuildAt s k).lines 1 ∧
      (countersAt (walkEntry s n k tag line child) (homeOf (128 * line))).s3up =
        satAdd (countersAt u (homeOf (128 * line))).s3up 1 := by
  have lost : lostEntry s n tag line child =
      countSeverity (dropCw (poisonWord u p.pa) n tag (128 * line + 4 * i)) (homeOf (128 * line)) 5 := by
    rw [lostEntry, hd]
    exact loseWords_one hi h
  obtain ⟨ds, et⟩ := walkEntry_dirty k hr (by rw [hd]; exact oneBit_ne_zero hi)
  obtain ⟨poison, cached, counted⟩ := droppedWord (poisonWord u p.pa) n tag (128 * line + 4 * i) (homeOf (128 * line))
  rw [← lost] at poison cached counted
  refine ⟨recordAt_walkEntry_same .., ?_⟩
  rw [et]
  generalize lostEntry s n tag line child = l at poison cached counted
  refine ⟨?_, cached, ?_, ?_⟩
  · rw [wordPoisoned, poison]
    exact wordPoisoned_poisonWord u p.pa
  · rw [rebuildAt, kvGet, kvFind_put_same]
    rfl
  · refine Eq.trans counted ?_
    rw [countersAt, poisonWord_counters, ← countersAt]

/-! Germinal's new standby. -/

/-- R33. -/
theorem chooseStandby_picks {s : State} {b : Nat} (hb : s.boot = 4 ∨ s.boot = 5) (hl : s.gerLost = false) (hs : s.gstby = none)
    (hn : newStandby s s.gbase = some b) :
    ∃ c, chooseStandby s = { s with freeCtr := c, gstby := some b } ∨ chooseStandby s = { s with freeCtr := c } := by
  refine ⟨s.freeCtr + 1, ?_⟩
  have free : (!(decide (s.boot = 4) || decide (s.boot = 5)) || s.gerLost || s.gstby.isSome || (newStandby s s.gbase).isNone) = false := by
    rw [← Bool.decide_or, decide_eq_true hb, hl, hs, hn]
    rfl
  rw [chooseStandby, free, if_neg Bool.false_ne_true]
  dsimp only [drawNat]
  split
  · exact .inl (by rw [← hn]; rfl)
  · exact .inr rfl

/-! The obligation. -/

/-- Settles O43, clause by clause: what a fence does is read from what stands while teams end and nodes are cut off; what a walk does,
from the record that each of its steps ends. -/
theorem fenceEvents : Obligations.FenceEvents := by
  unfold Obligations.FenceEvents
  refine ⟨fun s d ev hd hf he => ?_, fun s k ev hk hf he => ?_, fun s h ev hh hf he => ?_, fun s k ev up he hp hh hw => ?_,
    fun s n k tag line child i p e u => ?_, fun r => rfl, fun s b => chooseStandby_picks, fun s k hp hh hb h3 => ?_⟩
  · obtain ⟨dfence, teams, pend, dies, caches⟩ := fenceDie_spec hd hf
    refine ⟨fenceDie s d, ?_, dfence, teams, pend, dies, caches⟩
    obtain rfl | rfl := he <;> rfl
  · obtain ⟨fenced, walks, pend, dies, -⟩ := fenceBase_stack hk hf
    refine ⟨fenceBase s k, ?_, fenced, walks, pend, dies, fenceBase_germinal hk hf⟩
    obtain rfl | rfl := he <;> rfl
  · obtain ⟨hfence, tlbs, buf, images⟩ := fenceHome_spec hh hf
    refine ⟨fenceHome s h, ?_, hfence, tlbs, buf, images⟩
    obtain rfl | rfl := he <;> rfl
  · obtain ⟨pend, dies, walks, below, above, one⟩ := finishWalk_spec hp hw
    refine ⟨finishWalk s k, ?_, pend, dies, walks, below, above, one⟩
    have runs : walkRuns s k up = true := by
      rw [walkRuns, hp, hh, hw]
      simp
    obtain ⟨rfl, rfl⟩ | ⟨rfl, rfl⟩ := he
    · exact congrArg Host.Outcome.next (if_pos runs)
    · exact congrArg Host.Outcome.next (if_pos runs)
  · exact walkEntry_word
  · obtain ⟨entries, next, done⟩ := walkBatch_spec hp hh hb
    refine ⟨walkBatch s k, ?_, entries, next, done⟩
    exact congrArg Host.Outcome.next (if_neg (by rw [h3]; exact Bool.false_ne_true))

end Sys2Proof.Machine
end
section
/-! Words and their fields (R57, R67): each layout of a word is taken apart and put together again (O51, O52). -/

namespace Sys2Proof

/-! Fields of bit vectors that are joined, and the joining of neighbouring fields. -/

theorem field_append_hi {n m : Nat} (x : BitVec n) (y : BitVec m) (lo w : Nat) (h : m ≤ lo) :
    field (no_index (x ++ y)) lo w = field x (lo - m) w := BitVec.extractLsb'_append_eq_of_le h

theorem field_append_lo {n m : Nat} (x : BitVec n) (y : BitVec m) (lo w : Nat) (h : lo + w ≤ m) :
    field (no_index (x ++ y)) lo w = field y lo w := BitVec.extractLsb'_append_eq_of_add_le h

theorem getLsbD_append_hi {n m : Nat} (x : BitVec n) (y : BitVec m) (i : Nat) (h : m ≤ i) :
    BitVec.getLsbD (no_index (x ++ y)) i = x.getLsbD (i - m) := by
  rw [BitVec.getLsbD_append, if_neg (by omega)]

theorem getLsbD_append_lo {n m : Nat} (x : BitVec n) (y : BitVec m) (i : Nat) (h : i < m) :
    BitVec.getLsbD (no_index (x ++ y)) i = y.getLsbD i := by
  rw [BitVec.getLsbD_append, if_pos h]

@[simp] theorem field_all {n : Nat} (x : BitVec n) : field x 0 n = x := by
  ext i hi
  rw [BitVec.getElem_extractLsb', Nat.zero_add, BitVec.getLsbD_eq_getElem hi]

theorem field_append_field {n m k : Nat} (x : BitVec k) {hi lo : Nat} (h : hi = lo + m) :
    field x hi n ++ field x lo m = field x lo (n + m) := by
  subst h
  ext i hi
  rw [BitVec.getElem_append, BitVec.getElem_extractLsb']
  split
  · rw [BitVec.getElem_extractLsb']
  · rw [BitVec.getElem_extractLsb']
    congr 1
    omega

/-- A field of zeros holds no bit. -/
theorem field_within_zero {k : Nat} {x : BitVec k} {a m lo w : Nat} (h : field x a m = 0#m) (ha : a ≤ lo) (hw : lo + w ≤ a + m) :
    field x lo w = 0#w := by
  ext i hi
  have bit : (field x a m).getLsbD (lo - a + i) = false := by simp [h]
  rw [BitVec.getLsbD_extractLsb', decide_eq_true (show lo - a + i < m by omega), Bool.true_and,
    show a + (lo - a + i) = lo + i by omega] at bit
  rw [BitVec.getElem_extractLsb', bit, BitVec.getElem_zero]

theorem ofBool_getLsbD {k : Nat} (x : BitVec k) (i : Nat) : BitVec.ofBool (x.getLsbD i) = field x i 1 := by
  ext j hj
  obtain rfl : j = 0 := by omega
  simp

/-- A field whose upper bits are 0 is its lower bits. -/
theorem zero_append_field {n m k : Nat} {x : BitVec k} {hi lo : Nat} (h : field x hi n = 0#n) (e : hi = lo + m) :
    0#n ++ field x lo m = field x lo (n + m) := by
  rw [← h, field_append_field x e]

/-- A bit that is clear is a field of zeros. -/
theorem field_one_zero {k : Nat} {x : BitVec k} {i : Nat} (h : x.getLsbD i = false) : field x i 1 = 0#1 := by
  rw [← ofBool_getLsbD, h]
  rfl

/-! The layouts. -/

@[simp] theorem lWordOf_lWord (f : LWord) : lWordOf (lWord f) = f := by
  simp (disch := omega) [lWordOf, lWord, field_append_hi, field_append_lo, getLsbD_append_hi, getLsbD_append_lo, -BitVec.getLsbD_eq_getElem]

@[simp] theorem iWordOf_iWord (f : IWord) : iWordOf (iWord f) = f := by
  simp (disch := omega) [iWordOf, iWord, field_append_hi, field_append_lo, getLsbD_append_hi, getLsbD_append_lo, -BitVec.getLsbD_eq_getElem]

@[simp] theorem jWordOf_jWord (f : JWord) : jWordOf (jWord f) = f := by
  simp (disch := omega) [jWordOf, jWord, field_append_hi, field_append_lo, getLsbD_append_hi, getLsbD_append_lo, -BitVec.getLsbD_eq_getElem]

@[simp] theorem mWordOf_mWord (f : MWord) : mWordOf (mWord f) = f := by
  simp (disch := omega) [mWordOf, mWord, field_append_hi, field_append_lo]

@[simp] theorem xWordOf_xWord (f : XWord) : xWordOf (xWord f) = f := by
  simp (disch := omega) [xWordOf, xWord, field_append_hi, field_append_lo, getLsbD_append_hi, getLsbD_append_lo, -BitVec.getLsbD_eq_getElem]

@[simp] theorem aWordOf_aWord (f : AWord) : aWordOf (aWord f) = f := by
  simp (disch := omega) [aWordOf, aWord, field_append_hi, field_append_lo]

theorem lWord_lWordOf (w : Word) : lWord (lWordOf w) = w := by
  simp only [lWord, lWordOf, ofBool_getLsbD, field_append_field]
  exact field_all w

theorem iWord_iWordOf (w : Word) : iWord (iWordOf w) = w := by
  simp only [iWord, iWordOf, ofBool_getLsbD, field_append_field]
  exact field_all w

theorem jWord_jWordOf (w : Word) : jWord (jWordOf w) = w := by
  simp only [jWord, jWordOf, ofBool_getLsbD, field_append_field]
  exact field_all w

theorem mWord_mWordOf (w : Word) : mWord (mWordOf w) = w := by
  simp only [mWord, mWordOf, field_append_field]
  exact field_all w

theorem xWord_xWordOf (w : Word) : xWord (xWordOf w) = w := by
  simp only [xWord, xWordOf, ofBool_getLsbD, field_append_field]
  exact field_all w

theorem aWord_aWordOf (w : Word) : aWord (aWordOf w) = w := by
  simp only [aWord, aWordOf, field_append_field]
  exact field_all w

/-! A word is what a layout makes of its fields when the fields are. -/

theorem lWord_eq_iff (f : LWord) (w : Word) : lWord f = w ↔ f.op = (lWordOf w).op ∧ f.u = (lWordOf w).u ∧ f.k = (lWordOf w).k ∧
    f.ks = (lWordOf w).ks ∧ f.h = (lWordOf w).h ∧ f.d = (lWordOf w).d ∧ f.a = (lWordOf w).a ∧ f.b = (lWordOf w).b := by
  rw [← LWord.mk.injEq]
  exact ⟨fun e => e ▸ (lWordOf_lWord f).symm, fun e => (congrArg lWord e).trans (lWord_lWordOf w)⟩

theorem iWord_eq_iff (f : IWord) (w : Word) : iWord f = w ↔ f.op = (iWordOf w).op ∧ f.u = (iWordOf w).u ∧ f.k = (iWordOf w).k ∧
    f.ks = (iWordOf w).ks ∧ f.d = (iWordOf w).d ∧ f.a = (iWordOf w).a ∧ f.i = (iWordOf w).i := by
  rw [← IWord.mk.injEq]
  exact ⟨fun e => e ▸ (iWordOf_iWord f).symm, fun e => (congrArg iWord e).trans (iWord_iWordOf w)⟩

theorem jWord_eq_iff (f : JWord) (w : Word) : jWord f = w ↔ f.op = (jWordOf w).op ∧ f.u = (jWordOf w).u ∧ f.k = (jWordOf w).k ∧
    f.ks = (jWordOf w).ks ∧ f.off = (jWordOf w).off := by
  rw [← JWord.mk.injEq]
  exact ⟨fun e => e ▸ (jWordOf_jWord f).symm, fun e => (congrArg jWord e).trans (jWord_jWordOf w)⟩

theorem mWord_eq_iff (f : MWord) (w : Word) : mWord f = w ↔ f.la = (mWordOf w).la ∧ f.sub = (mWordOf w).sub ∧ f.sc = (mWordOf w).sc ∧
    f.cl = (mWordOf w).cl ∧ f.fe = (mWordOf w).fe ∧ f.off = (mWordOf w).off := by
  rw [← MWord.mk.injEq]
  exact ⟨fun e => e ▸ (mWordOf_mWord f).symm, fun e => (congrArg mWord e).trans (mWord_mWordOf w)⟩

theorem xWord_eq_iff (f : XWord) (w : Word) : xWord f = w ↔ f.la = (xWordOf w).la ∧ f.sub = (xWordOf w).sub ∧ f.tok = (xWordOf w).tok ∧
    f.fol = (xWordOf w).fol ∧ f.asrc = (xWordOf w).asrc ∧ f.bsrc = (xWordOf w).bsrc ∧ f.tile = (xWordOf w).tile ∧
    f.col = (xWordOf w).col ∧ f.z = (xWordOf w).z := by
  rw [← XWord.mk.injEq]
  exact ⟨fun e => e ▸ (xWordOf_xWord f).symm, fun e => (congrArg xWord e).trans (xWord_xWordOf w)⟩

theorem aWord_eq_iff (f : AWord) (w : Word) : aWord f = w ↔ f.z = (aWordOf w).z ∧ f.sub = (aWordOf w).sub ∧ f.sh = (aWordOf w).sh ∧
    f.imm = (aWordOf w).imm := by
  rw [← AWord.mk.injEq]
  exact ⟨fun e => e ▸ (aWordOf_aWord f).symm, fun e => (congrArg aWord e).trans (aWord_aWordOf w)⟩

/-! What the layouts share: the opcode; SUB; the low half of word 1. -/

theorem opcodeOf_lWord (f : LWord) : opcodeOf (lWord f) = f.op.toNat := congrArg (·.op.toNat) (lWordOf_lWord f)
theorem opcodeOf_iWord (f : IWord) : opcodeOf (iWord f) = f.op.toNat := congrArg (·.op.toNat) (iWordOf_iWord f)
theorem opcodeOf_jWord (f : JWord) : opcodeOf (jWord f) = f.op.toNat := congrArg (·.op.toNat) (jWordOf_jWord f)

theorem xWordOf_sub (w : Word) : (xWordOf w).sub = (mWordOf w).sub := rfl

@[simp] theorem mWordOf_xWord_sub (f : XWord) : (mWordOf (xWord f)).sub = f.sub := congrArg XWord.sub (xWordOf_xWord f)

theorem field_mWord (f : MWord) (lo w : Nat) (h : lo + w ≤ 16) : field (mWord f) lo w = field f.off lo w :=
  field_append_lo _ _ lo w h

@[simp] theorem field_mWord_la (f : MWord) : field (mWord f) 28 4 = f.la := congrArg MWord.la (mWordOf_mWord f)

theorem field_mWord_low (f : MWord) : field (mWord f) 0 24 = f.sc ++ f.cl ++ f.fe ++ f.off := by
  have parts (w : Word) : field w 0 24 = (mWordOf w).sc ++ (mWordOf w).cl ++ (mWordOf w).fe ++ (mWordOf w).off := by
    simp only [mWordOf, field_append_field]
  rw [parts, mWordOf_mWord]

theorem field_mWord_mid (f : MWord) : field (mWord f) 14 7 = f.cl ++ f.fe ++ field f.off 14 2 := by
  have parts (w : Word) : field w 14 7 = (mWordOf w).cl ++ (mWordOf w).fe ++ field w 14 2 := by
    simp only [mWordOf, field_append_field]
  rw [parts, mWordOf_mWord, field_mWord f 14 2 (by omega)]

theorem getLsbD_mWord (f : MWord) (i : Nat) (h : i < 16) : (mWord f).getLsbD i = f.off.getLsbD i := getLsbD_append_lo _ _ i h

end Sys2Proof
end
section
/-! What the decoder accepts has one spelling (O52): opcode by opcode, the instruction that is read gives its words back. -/

namespace Sys2Proof

/-! Where the parser looks, by the opcode. -/

theorem parse_low {w0 w1 : Word} {n : Nat} (h : opcodeOf w0 = n) (hn : n < 0x50) : parse w0 w1 = parseLow w0 n := by
  subst h
  exact if_pos hn

theorem parse_control {w0 w1 : Word} {k : Nat} (h : opcodeOf w0 = 0x50 + k) (hk : k < 0x10) :
    parse w0 w1 = parseControl w0 (0x50 + k) := by
  rw [← h]
  exact (if_neg (by omega)).trans (if_pos (by omega))

theorem parse_memory {w0 w1 : Word} {k : Nat} (h : opcodeOf w0 = 0x60 + k) (hk : k < 0xB) :
    parse w0 w1 = parseMemory w0 w1 (0x60 + k) := by
  rw [← h]
  exact (if_neg (by omega)).trans ((if_neg (by omega)).trans (if_pos (by omega)))

theorem parse_engine {w0 w1 : Word} {k : Nat} (h : opcodeOf w0 = 0x6B + k) (hk : k < 8) :
    parse w0 w1 = parseEngine w0 w1 (0x6B + k) := by
  rw [← h]
  exact (if_neg (by omega)).trans ((if_neg (by omega)).trans ((if_neg (by omega)).trans (if_pos (by omega))))

theorem parse_system {w0 w1 : Word} {k : Nat} (h : opcodeOf w0 = 0x73 + k) :
    parse w0 w1 = parseSystem w0 w1 (0x73 + k) := by
  rw [← h]
  exact (if_neg (by omega)).trans ((if_neg (by omega)).trans ((if_neg (by omega)).trans (if_neg (by omega))))

theorem twoWord_eq_false {w0 : Word} (h : opcodeOf w0 < 0x60) : twoWord w0 = false := decide_eq_false (by omega)
theorem twoWord_eq_true {w0 : Word} (h : 0x60 ≤ opcodeOf w0) : twoWord w0 = true := decide_eq_true h

theorem opcodeOf_lt (w0 : Word) : opcodeOf w0 < 0x80 := (field w0 25 7).isLt

/-- Words are the only spelling of what was parsed from them without an objection to the fields that it does not use. -/
def Spells (ws : List Word) (o : Option Parsed) : Prop := ∀ p, o = some p → p.unimpl = false → p.illegal = false → encode p.instr = ws

theorem Spells.none (ws : List Word) : Spells ws none := by
  rintro p hp
  cases hp

theorem Spells.some {ws : List Word} {i : Instr} {u l : Bool} (h : u = false → l = false → encode i = ws) : Spells ws (some ⟨i, u, l⟩) := by
  rintro p ⟨⟩
  exact h

/-- A further required-zero condition may be used too. -/
theorem Spells.andZero {ws : List Word} {o : Option Parsed} {bad : Bool} (h : bad = false → Spells ws o) : Spells ws (andZero o bad) := by
  rintro p hp hu hl
  obtain ⟨q, rfl, rfl⟩ := Option.map_eq_some_iff.1 hp
  obtain ⟨hq, hbad⟩ : q.unimpl = false ∧ bad = false := by simpa using hu
  exact h hbad q rfl hq hl

section

variable {w0 w1 : Word} {op : Nat}

theorem lWordOf_op (h : opcodeOf w0 = op) : (lWordOf w0).op = BitVec.ofNat 7 op := by
  rw [← h, opcodeOf, BitVec.ofNat_toNat, BitVec.setWidth_eq]
  rfl

theorem iWordOf_op (h : opcodeOf w0 = op) : (iWordOf w0).op = BitVec.ofNat 7 op := lWordOf_op h
theorem jWordOf_op (h : opcodeOf w0 = op) : (jWordOf w0).op = BitVec.ofNat 7 op := lWordOf_op h

theorem sub_eq_ofNat {x : BitVec 4} {n : Nat} (h : x.toNat = n) : x = BitVec.ofNat 4 n := by
  rw [← h, BitVec.ofNat_toNat, BitVec.setWidth_eq]

/-! The moulds of word 0. -/

theorem spells_parseL {c : LOps → Instr} (h : opcodeOf w0 = op) (enc : ∀ f, encode (c f) = [encL (BitVec.ofNat 7 op) f]) :
    Spells [w0] (parseL c (lWordOf w0)) :=
  Spells.some fun _ _ => by simp [enc, encL, opsL, lGuard, lWord_eq_iff, lWordOf_op h]

theorem spells_parseL2 {c : LOps2 → Instr} (h : opcodeOf w0 = op) (enc : ∀ f, encode (c f) = [encL2 (BitVec.ofNat 7 op) f]) :
    Spells [w0] (parseL2 c (lWordOf w0)) :=
  Spells.some fun hb _ => by
    have hb : (lWordOf w0).b = 0 := by simpa using hb
    simp [enc, encL2, lGuard, lWord_eq_iff, lWordOf_op h, hb]

theorem spells_parseI {c : IOps → Instr} (h : opcodeOf w0 = op) (enc : ∀ f, encode (c f) = [encI (BitVec.ofNat 7 op) f]) :
    Spells [w0] (parseI c (iWordOf w0)) :=
  Spells.some fun _ _ => by simp [enc, encI, opsI, iWord_eq_iff, iWordOf_op h]

theorem spells_parseXI {c : XIOps → Instr} (h : opcodeOf w0 = op) (enc : ∀ f, encode (c f) = [encXI (BitVec.ofNat 7 op) f]) :
    Spells [w0] (parseXI c (iWordOf w0)) :=
  Spells.some fun _ hu => by simp [enc, encXI, iWord_eq_iff, iWordOf_op h, hu]

theorem spells_parseDA {c : DAOps → Instr} (h : opcodeOf w0 = op) (enc : ∀ f, encode (c f) = [encDA (BitVec.ofNat 7 op) f]) :
    Spells [w0] (parseDA c (lWordOf w0)) :=
  Spells.some fun hz hu => by
    obtain ⟨hh, hb⟩ : (lWordOf w0).h = false ∧ (lWordOf w0).b = 0 := by simpa using hz
    simp [enc, encDA, opsDA, lGuard, lWord_eq_iff, lWordOf_op h, hh, hb, hu]

theorem spells_parseJ {c : JOps → Instr} {u : Bool} (h : opcodeOf w0 = op) (enc : ∀ f, encode (c f) = [encJ (BitVec.ofNat 7 op) u f])
    {noU : Bool} (hu : (noU && (jWordOf w0).u) = false → (jWordOf w0).u = u) : Spells [w0] (parseJ c (jWordOf w0) noU) :=
  Spells.some fun _ hl => by simp [enc, encJ, jWord_eq_iff, jWordOf_op h, hu hl]

/-- A guard alone: `ws` is what word 0 and what follows it are once its other fields are 0. -/
theorem spells_parseG {i : Guard → Instr} {ws : List Word} (h : opcodeOf w0 = op)
    (enc : ∀ g, encode (i g) = encLane (BitVec.ofNat 7 op) g false 0 0 0 :: ws) : Spells (w0 :: ws) (parseG i (lWordOf w0)) :=
  Spells.some fun hz hu => by
    obtain ⟨⟨⟨hh, hd⟩, ha⟩, hb⟩ : (((lWordOf w0).h = false ∧ (lWordOf w0).d = 0) ∧ (lWordOf w0).a = 0) ∧ (lWordOf w0).b = 0 := by
      simpa using hz
    simp [enc, encLane, lGuard, lWord_eq_iff, lWordOf_op h, hh, hd, ha, hb, hu]

theorem spells_parseA {c : AOps → Instr} {ws : List Word} (h : opcodeOf w0 = op)
    (enc : ∀ f, encode (c f) = encLane (BitVec.ofNat 7 op) f.g false 0 f.a 0 :: ws) : Spells (w0 :: ws) (parseA c (lWordOf w0)) :=
  Spells.some fun hz hu => by
    obtain ⟨⟨hh, hd⟩, hb⟩ : ((lWordOf w0).h = false ∧ (lWordOf w0).d = 0) ∧ (lWordOf w0).b = 0 := by simpa using hz
    simp [enc, encLane, lGuard, lWord_eq_iff, lWordOf_op h, hh, hd, hb, hu]

theorem spells_parseD {c : DOps → Instr} {ws : List Word} (h : opcodeOf w0 = op)
    (enc : ∀ f, encode (c f) = encLane (BitVec.ofNat 7 op) f.g false f.d 0 0 :: ws) : Spells (w0 :: ws) (parseD c (lWordOf w0)) :=
  Spells.some fun hz hu => by
    obtain ⟨⟨hh, ha⟩, hb⟩ : ((lWordOf w0).h = false ∧ (lWordOf w0).a = 0) ∧ (lWordOf w0).b = 0 := by simpa using hz
    simp [enc, encLane, lGuard, lWord_eq_iff, lWordOf_op h, hh, ha, hb, hu]

/-! Opcodes 0x00 to 0x5F. -/

theorem spells_kop (h : opcodeOf w0 = 0x2D) : Spells [w0] (parseLow w0 0x2D) :=
  Spells.some fun hh _ => by
    have hb : field (lWordOf w0).b 4 2 ++ field (lWordOf w0).b 0 4 = (lWordOf w0).b := field_append_field _ rfl |>.trans (field_all _)
    show [lWord _] = [w0]
    simp [lGuard, lWord_eq_iff, lWordOf_op h, hh, hb]

theorem spells_kmov (h : opcodeOf w0 = 0x2E) : Spells [w0] (parseLow w0 0x2E) := by
  simp only [parseLow]
  split
  · next hi => exact Spells.some fun _ _ => show [iWord _] = [w0] by simp [iWord_eq_iff, iWordOf_op h, hi]
  · split
    · next hi => exact Spells.some fun _ _ => show [iWord _] = [w0] by simp [iWord_eq_iff, iWordOf_op h, hi]
    · exact Spells.none _

theorem spells_parseLow : ∀ {op}, op < 0x50 → opcodeOf w0 = op → Spells [w0] (parseLow w0 op)
  | 0x00, _, h | 0x01, _, h | 0x03, _, h | 0x04, _, h | 0x05, _, h | 0x06, _, h | 0x07, _, h | 0x08, _, h | 0x09, _, h | 0x0A, _, h |
    0x0B, _, h | 0x0C, _, h | 0x0D, _, h | 0x0F, _, h | 0x10, _, h | 0x11, _, h | 0x12, _, h | 0x13, _, h | 0x14, _, h | 0x15, _, h |
    0x16, _, h | 0x17, _, h | 0x1E, _, h | 0x1F, _, h | 0x20, _, h | 0x21, _, h | 0x22, _, h | 0x23, _, h | 0x24, _, h | 0x25, _, h |
    0x29, _, h | 0x2A, _, h | 0x2B, _, h | 0x2C, _, h | 0x30, _, h | 0x31, _, h | 0x32, _, h | 0x33, _, h | 0x34, _, h | 0x35, _, h |
    0x38, _, h | 0x39, _, h | 0x3A, _, h | 0x3B, _, h | 0x3C, _, h | 0x3D, _, h | 0x3E, _, h | 0x3F, _, h | 0x44, _, h | 0x45, _, h |
    0x4A, _, h | 0x4B, _, h | 0x4E, _, h => spells_parseL h fun _ => rfl
  | 0x0E, _, h | 0x1B, _, h | 0x1C, _, h | 0x1D, _, h | 0x36, _, h | 0x37, _, h | 0x40, _, h | 0x41, _, h | 0x42, _, h | 0x43, _, h |
    0x48, _, h | 0x49, _, h | 0x4F, _, h => spells_parseL2 h fun _ => rfl
  | 0x02, _, h | 0x18, _, h | 0x19, _, h | 0x1A, _, h | 0x26, _, h | 0x27, _, h | 0x28, _, h | 0x46, _, h | 0x47, _, h => spells_parseI h fun _ => rfl
  | 0x4C, _, h | 0x4D, _, h => spells_parseXI h fun _ => rfl
  | 0x2F, _, h => spells_parseDA h fun _ => rfl
  | 0x2D, _, h => spells_kop h
  | 0x2E, _, h => spells_kmov h
  | n + 0x50, hn, _ => absurd hn (by omega)

theorem spells_shfl (h : opcodeOf w0 = 0x50) : Spells [w0] (parseControl w0 0x50) :=
  Spells.some fun _ hu => show [lWord _] = [w0] by simp [lGuard, lWord_eq_iff, lWordOf_op h, hu]

theorem spells_bra (h : opcodeOf w0 = 0x58) : Spells [w0] (parseControl w0 0x58) := by
  simp only [parseControl]
  split
  · next hu => exact spells_parseJ h (fun _ => rfl) fun _ => hu
  · next hu => exact spells_parseJ h (fun _ => rfl) fun _ => Bool.not_eq_true _ ▸ hu

theorem spells_tkwait (h : opcodeOf w0 = 0x5E) : Spells [w0] (parseControl w0 0x5E) :=
  Spells.some fun hz hu => by
    obtain ⟨hd, ha⟩ : (lWordOf w0).d = 0 ∧ field (lWordOf w0).a 1 5 = 0 := by simpa using hz
    have e : 0#5 ++ BitVec.ofBool ((lWordOf w0).a.getLsbD 0) = (lWordOf w0).a := by
      rw [ofBool_getLsbD]
      exact (zero_append_field ha rfl).trans (field_all _)
    show [lWord _] = [w0]
    simp (disch := omega) [lGuard, lWord_eq_iff, lWordOf_op h, hd, hu, getLsbD_append_hi, getLsbD_append_lo,
      field_append_lo, e, -BitVec.getLsbD_eq_getElem]

theorem spells_nop (h : opcodeOf w0 = 0x5F) : Spells [w0] (parseControl w0 0x5F) :=
  Spells.some fun hz hu => by
    obtain ⟨hd, ha⟩ : (iWordOf w0).d = 0 ∧ (iWordOf w0).a = 0 := by simpa using hz
    split
    · next hi => exact show [iWord _] = [w0] by simp [iWord_eq_iff, iWordOf_op h, hd, ha, hu, hi]
    · exact show [iWord _] = [w0] by simp [iWord_eq_iff, iWordOf_op h, hd, ha, hu]

theorem spells_parseControl : ∀ {k}, k < 0x10 → opcodeOf w0 = 0x50 + k → Spells [w0] (parseControl w0 (0x50 + k))
  | 0x0, _, h => spells_shfl h
  | 0x1, _, h | 0x2, _, h | 0x6, _, h | 0x7, _, h => spells_parseXI h fun _ => rfl
  | 0x3, _, h | 0x4, _, h | 0x5, _, h => spells_parseDA h fun _ => rfl
  | 0x8, _, h => spells_bra h
  | 0x9, _, h | 0xB, _, h => spells_parseJ h (fun _ => rfl) id
  | 0xA, _, h => spells_parseG (i := fun x => .join ⟨x⟩) h fun _ => rfl
  | 0xC, _, h => spells_parseG (i := fun x => .ret ⟨x⟩) h fun _ => rfl
  | 0xD, _, h => spells_parseA h fun _ => rfl
  | 0xE, _, h => spells_tkwait h
  | 0xF, _, h => spells_nop h
  | n + 0x10, hn, _ => absurd hn (by omega)

/-! The moulds of instructions with two words. -/

variable {n : Nat}

theorem spells_parseAlu64 {c : Alu64Ops → Instr} (h : opcodeOf w0 = 0x61) (hs : (aWordOf w1).sub.toNat = n)
    (enc : ∀ f, encode (c f) = encAlu64 (BitVec.ofNat 4 n) f) : Spells [w0, w1] (parseAlu64 c (lWordOf w0) (aWordOf w1)) :=
  Spells.some fun hz _ => by
    have hz : (aWordOf w1).z = 0 := by simpa using hz
    simp [enc, encAlu64, lGuard, lWord_eq_iff, aWord_eq_iff, lWordOf_op h, sub_eq_ofNat hs, hz]

theorem spells_parseFtr {c : FtrOps → Instr} (h : opcodeOf w0 = 0x62) (hs : (mWordOf w1).sub.toNat = n)
    (enc : ∀ f, encode (c f) = encFtr (BitVec.ofNat 4 n) f) : Spells [w0, w1] (parseFtr c (lWordOf w0) w1) :=
  Spells.some fun hz _ => by
    have hz : field w1 0 24 = 0 := by simpa using hz
    have zero : ∀ lo w, lo + w ≤ 24 → field w1 lo w = 0 := fun lo w hw => field_within_zero hz (Nat.zero_le _) (by omega)
    have sub : field w1 24 4 = BitVec.ofNat 4 n := sub_eq_ofNat hs
    simp [enc, encFtr, lGuard, lWord_eq_iff, mWord_eq_iff, lWordOf_op h, mWordOf, sub, zero]

theorem spells_parseCp {c : CpOps → Instr} (h : opcodeOf w0 = 0x6B) (hs : (mWordOf w1).sub.toNat = n)
    (enc : ∀ f, encode (c f) = encCp (BitVec.ofNat 4 n) f) : Spells [w0, w1] (parseCp c (lWordOf w0) (mWordOf w1)) :=
  Spells.some fun hz hu => by
    simp only [Bool.or_eq_false_iff, decide_eq_false_iff_not, not_not] at hz
    simp [enc, encCp, encLane, lGuard, lWord_eq_iff, mWord_eq_iff, lWordOf_op h, sub_eq_ofNat hs, hz, hu]

theorem spells_parseLsctl {c : LsctlOps → Instr} (h : opcodeOf w0 = 0x6A) (hs : (mWordOf w1).sub.toNat = n)
    (enc : ∀ f, encode (c f) = encLsctl (BitVec.ofNat 4 n) f) : Spells [w0, w1] (parseLsctl c (lWordOf w0) (mWordOf w1)) :=
  Spells.some fun hz hu => by
    simp only [Bool.or_eq_false_iff, decide_eq_false_iff_not, not_not] at hz
    simp [enc, encLsctl, encLane, lGuard, lWord_eq_iff, mWord_eq_iff, lWordOf_op h, sub_eq_ofNat hs, hz, hu]

theorem spells_parseTk {c : TkOps → Instr} (h : opcodeOf w0 = op) (hs : (mWordOf w1).sub.toNat = n)
    (enc : ∀ f, encode (c f) = encTk (BitVec.ofNat 7 op) (BitVec.ofNat 4 n) f) : Spells [w0, w1] (parseTk c (lWordOf w0) (mWordOf w1)) :=
  Spells.some fun hz hu => by
    simp only [Bool.or_eq_false_iff, decide_eq_false_iff_not, not_not] at hz
    simp [enc, encTk, encLane, lGuard, lWord_eq_iff, mWord_eq_iff, lWordOf_op h, sub_eq_ofNat hs, hz, hu]

theorem spells_parseMma {c : MmaOps → Instr} (h : opcodeOf w0 = 0x6E) (hs : (mWordOf w1).sub.toNat = n)
    (enc : ∀ f, encode (c f) = encMma (BitVec.ofNat 4 n) f) : Spells [w0, w1] (parseMma c (lWordOf w0) (xWordOf w1)) :=
  Spells.some fun hz hu => by
    simp only [Bool.or_eq_false_iff, decide_eq_false_iff_not, not_not] at hz
    simp [enc, encMma, encLane, lGuard, lWord_eq_iff, xWord_eq_iff, lWordOf_op h, xWordOf_sub, sub_eq_ofNat hs, hz, hu]

theorem spells_parseMmcvt {c : MmcvtOps → Instr} (h : opcodeOf w0 = 0x72) (hs : (mWordOf w1).sub.toNat = n)
    (enc : ∀ f, encode (c f) = encMmcvt (BitVec.ofNat 4 n) f) : Spells [w0, w1] (parseMmcvt c (lWordOf w0) (xWordOf w1)) :=
  Spells.some fun hz hu => by
    simp only [Bool.or_eq_false_iff, decide_eq_false_iff_not, not_not] at hz
    simp [enc, encMmcvt, encLane, lGuard, lWord_eq_iff, xWord_eq_iff, lWordOf_op h, xWordOf_sub, sub_eq_ofNat hs, hz, hu]

/-! Opcodes 0x60 to 0x72. -/

theorem spells_movi (h : opcodeOf w0 = 0x60) : Spells [w0, w1] (parseMemory w0 w1 0x60) :=
  Spells.some fun hz _ => by
    simp only [Bool.or_eq_false_iff, decide_eq_false_iff_not, not_not] at hz
    show [lWord _, w1] = [w0, w1]
    simp [lGuard, lWord_eq_iff, lWordOf_op h, hz]

theorem spells_alu64 (h : opcodeOf w0 = 0x61) : Spells [w0, w1] (parseMemory w0 w1 0x61) := by
  simp only [parseMemory]
  split
  case h_11 => exact Spells.none _
  all_goals exact spells_parseAlu64 h ‹_› fun _ => rfl

theorem spells_ftr (h : opcodeOf w0 = 0x62) : Spells [w0, w1] (parseMemory w0 w1 0x62) := by
  simp only [parseMemory]
  split
  case h_10 => exact Spells.none _
  all_goals exact spells_parseFtr h ‹_› fun _ => rfl

theorem spells_ld (h : opcodeOf w0 = 0x63) : Spells [w0, w1] (parseMemory w0 w1 0x63) :=
  Spells.some fun hz _ => by
    simp only [Bool.or_eq_false_iff, decide_eq_false_iff_not, not_not] at hz
    show [lWord _, mWord _] = [w0, w1]
    simp [lGuard, lWord_eq_iff, mWord_eq_iff, lWordOf_op h, hz]

theorem spells_st (h : opcodeOf w0 = 0x64) : Spells [w0, w1] (parseMemory w0 w1 0x64) :=
  Spells.some fun hz _ => by
    simp only [Bool.or_eq_false_iff, decide_eq_false_iff_not, not_not] at hz
    show [lWord _, mWord _] = [w0, w1]
    simp [lGuard, lWord_eq_iff, mWord_eq_iff, lWordOf_op h, hz]

theorem spells_ldl (h : opcodeOf w0 = 0x65) : Spells [w0, w1] (parseMemory w0 w1 0x65) :=
  Spells.some fun hz _ => by
    simp only [decide_eq_false_iff_not, not_not] at hz
    show [lWord _, mWord _] = [w0, w1]
    simp [lGuard, lWord_eq_iff, mWord_eq_iff, lWordOf_op h, hz]

theorem spells_stl (h : opcodeOf w0 = 0x66) : Spells [w0, w1] (parseMemory w0 w1 0x66) :=
  Spells.some fun hz _ => by
    simp only [Bool.or_eq_false_iff, decide_eq_false_iff_not, not_not] at hz
    show [lWord _, mWord _] = [w0, w1]
    simp [lGuard, lWord_eq_iff, mWord_eq_iff, lWordOf_op h, hz]

theorem spells_atom (h : opcodeOf w0 = 0x67) : Spells [w0, w1] (parseMemory w0 w1 0x67) :=
  Spells.some fun hz _ => by
    simp only [decide_eq_false_iff_not, not_not] at hz
    show [lWord _, mWord _] = [w0, w1]
    simp [lGuard, lWord_eq_iff, mWord_eq_iff, lWordOf_op h, hz]

theorem spells_atoml (h : opcodeOf w0 = 0x68) : Spells [w0, w1] (parseMemory w0 w1 0x68) :=
  Spells.some fun hz hu => by
    simp only [Bool.or_eq_false_iff, decide_eq_false_iff_not, not_not] at hz
    show [lWord _, mWord _] = [w0, w1]
    simp [lGuard, lWord_eq_iff, mWord_eq_iff, lWordOf_op h, hz, hu]

theorem spells_fence (h : opcodeOf w0 = 0x69) : Spells [w0, w1] (parseMemory w0 w1 0x69) := by
  simp only [parseMemory]
  split
  · next hs =>
    refine Spells.some fun hz hu => ?_
    simp only [Bool.or_eq_false_iff, decide_eq_false_iff_not, not_not] at hz
    show [lWord _, mWord _] = [w0, w1]
    simp [lGuard, lWord_eq_iff, mWord_eq_iff, lWordOf_op h, sub_eq_ofNat hs, hz, hu]
  · next hs =>
    refine Spells.some fun hz hu => ?_
    simp only [Bool.or_eq_false_iff, decide_eq_false_iff_not, not_not] at hz
    have off : 0#8 ++ field (mWordOf w1).off 4 4 ++ field (mWordOf w1).off 0 4 = (mWordOf w1).off := by
      simp only [zero_append_field hz.2, field_append_field]
      exact field_all _
    show [lWord _, mWord _] = [w0, w1]
    simp [off, lGuard, lWord_eq_iff, mWord_eq_iff, lWordOf_op h, sub_eq_ofNat hs, hz, hu]
  · exact Spells.none _

theorem spells_lsctl (h : opcodeOf w0 = 0x6A) : Spells [w0, w1] (parseMemory w0 w1 0x6A) := by
  simp only [parseMemory]
  split
  case h_7 => exact Spells.none _
  all_goals exact spells_parseLsctl h ‹_› fun _ => rfl

theorem spells_parseMemory : ∀ {k}, k < 0xB → opcodeOf w0 = 0x60 + k → Spells [w0, w1] (parseMemory w0 w1 (0x60 + k))
  | 0x0, _, h => spells_movi h
  | 0x1, _, h => spells_alu64 h
  | 0x2, _, h => spells_ftr h
  | 0x3, _, h => spells_ld h
  | 0x4, _, h => spells_st h
  | 0x5, _, h => spells_ldl h
  | 0x6, _, h => spells_stl h
  | 0x7, _, h => spells_atom h
  | 0x8, _, h => spells_atoml h
  | 0x9, _, h => spells_fence h
  | 0xA, _, h => spells_lsctl h
  | n + 0xB, hn, _ => absurd hn (by omega)

theorem spells_cp (h : opcodeOf w0 = 0x6B) : Spells [w0, w1] (parseEngine w0 w1 0x6B) := by
  simp only [parseEngine]
  split
  case h_9 => exact Spells.none _
  all_goals exact spells_parseCp h ‹_› fun _ => rfl

/-- A SUB below 2 is the flag that it is 1. -/
theorem sub_of_flag {x : BitVec 4} (h : ¬ 2 ≤ x.toNat) : (if decide (x = 1) = true then (1 : BitVec 4) else 0) = x := by
  obtain hx | hx : x.toNat = 0 ∨ x.toNat = 1 := by omega
  · rw [sub_eq_ofNat hx]
    rfl
  · rw [sub_eq_ofNat hx]
    rfl

theorem spells_cpscale (h : opcodeOf w0 = 0x6C) : Spells [w0, w1] (parseEngine w0 w1 0x6C) := by
  simp only [parseEngine]
  split
  · exact Spells.none _
  · next hs =>
    refine Spells.some fun hz hu => ?_
    simp only [Bool.or_eq_false_iff, decide_eq_false_iff_not, not_not] at hz
    obtain ⟨⟨⟨⟨hh, hd⟩, la⟩, high⟩, low⟩ := hz
    have cl : (mWordOf w1).cl = 0 := field_within_zero high (by omega) (by omega)
    have fe : (mWordOf w1).fe = 0 := field_within_zero high (by omega) (by omega)
    have off : 0#2 ++ field w1 8 6 ++ 0#7 ++ BitVec.ofBool (w1.getLsbD 0) = (mWordOf w1).off := by
      have top : field w1 14 2 = 0#2 := field_within_zero high (by omega) (by omega)
      simp only [← top, ← show field w1 1 7 = 0#7 from low, ofBool_getLsbD, field_append_field]
      rfl
    have sub : (if (mWordOf w1).sub = 1#4 then 1#4 else 0#4) = (mWordOf w1).sub := by simpa using sub_of_flag hs
    show [lWord _, mWord _] = [w0, w1]
    simp [lGuard, lWord_eq_iff, mWord_eq_iff, lWordOf_op h, hh, hd, la, cl, fe, off, sub, hu, -BitVec.getLsbD_eq_getElem]

theorem spells_tkq (h : opcodeOf w0 = 0x6D) : Spells [w0, w1] (parseEngine w0 w1 0x6D) := by
  simp only [parseEngine]
  split
  case h_4 => exact Spells.none _
  all_goals exact spells_parseTk h ‹_› fun _ => rfl

theorem spells_mma (h : opcodeOf w0 = 0x6E) : Spells [w0, w1] (parseEngine w0 w1 0x6E) := by
  simp only [parseEngine]
  split
  case h_3 => exact Spells.none _
  all_goals exact spells_parseMma h ‹_› fun _ => rfl

theorem spells_mmrd (h : opcodeOf w0 = 0x6F) : Spells [w0, w1] (parseEngine w0 w1 0x6F) := by
  simp only [parseEngine]
  split
  · exact Spells.none _
  · next hs =>
    refine Spells.some fun hz hu => ?_
    simp only [Bool.or_eq_false_iff, decide_eq_false_iff_not, not_not] at hz
    have sub : (if (mWordOf w1).sub = 1#4 then 1#4 else 0#4) = (mWordOf w1).sub := by simpa using sub_of_flag hs
    show [lWord _, xWord _] = [w0, w1]
    simp [lGuard, lWord_eq_iff, xWord_eq_iff, lWordOf_op h, xWordOf_sub, sub, hz, hu]

theorem spells_mmwr (h : opcodeOf w0 = 0x70) : Spells [w0, w1] (parseEngine w0 w1 0x70) := by
  simp only [parseEngine]
  split
  · next hs =>
    refine Spells.some fun hz hu => ?_
    simp only [Bool.or_eq_false_iff, decide_eq_false_iff_not, not_not] at hz
    show [lWord _, xWord _] = [w0, w1]
    simp [lGuard, lWord_eq_iff, xWord_eq_iff, lWordOf_op h, xWordOf_sub, sub_eq_ofNat hs, hz, hu]
  · next hs =>
    refine Spells.some fun hz hu => ?_
    simp only [Bool.or_eq_false_iff, decide_eq_false_iff_not, not_not] at hz
    show [lWord _, xWord _] = [w0, w1]
    simp [lGuard, lWord_eq_iff, xWord_eq_iff, lWordOf_op h, xWordOf_sub, sub_eq_ofNat hs, hz, hu]
  · exact Spells.none _

theorem spells_mmstat (h : opcodeOf w0 = 0x71) : Spells [w0, w1] (parseEngine w0 w1 0x71) := by
  simp only [parseEngine]
  split
  · next hs => exact spells_parseTk (n := 0) h (congrArg BitVec.toNat hs) fun _ => rfl
  · exact Spells.none _

theorem spells_mmcvt (h : opcodeOf w0 = 0x72) : Spells [w0, w1] (parseEngine w0 w1 0x72) := by
  simp only [parseEngine]
  split
  case h_3 => exact Spells.none _
  all_goals exact spells_parseMmcvt h ‹_› fun _ => rfl

theorem spells_parseEngine : ∀ {k}, k < 8 → opcodeOf w0 = 0x6B + k → Spells [w0, w1] (parseEngine w0 w1 (0x6B + k))
  | 0, _, h => spells_cp h
  | 1, _, h => spells_cpscale h
  | 2, _, h => spells_tkq h
  | 3, _, h => spells_mma h
  | 4, _, h => spells_mmrd h
  | 5, _, h => spells_mmwr h
  | 6, _, h => spells_mmstat h
  | 7, _, h => spells_mmcvt h
  | n + 8, hn, _ => absurd hn (by omega)

/-! Opcodes 0x73 to 0x7F: word 1 is SUB and an index. -/

theorem mWord_of_sysZeros {sub : BitVec 4} {idx : BitVec 16} (hs : (mWordOf w1).sub = sub) (hz : sysZeros (mWordOf w1) = false)
    (hi : idx = (mWordOf w1).off) : mWord ⟨0, sub, 0, 0, 0, idx⟩ = w1 := by
  simp only [sysZeros, Bool.or_eq_false_iff, decide_eq_false_iff_not, not_not] at hz
  simp [mWord_eq_iff, hs, hz, hi]

/-- The index is 0, where the required zeros say so. -/
theorem mWord_index_zero (hs : (mWordOf w1).sub.toNat = n)
    (hz : (sysZeros (mWordOf w1) || (mWordOf w1).off ≠ 0) = false) : mWord ⟨0, BitVec.ofNat 4 n, 0, 0, 0, 0⟩ = w1 := by
  obtain ⟨hz, ho⟩ : sysZeros (mWordOf w1) = false ∧ (mWordOf w1).off = 0 := by simpa using hz
  exact mWord_of_sysZeros (sub_eq_ofNat hs) hz ho.symm

/-- The index has 8 bits, where the required zeros say so. -/
theorem mWord_index_byte (hs : (mWordOf w1).sub.toNat = n)
    (hz : (sysZeros (mWordOf w1) || field w1 8 8 ≠ 0) = false) : mWord ⟨0, BitVec.ofNat 4 n, 0, 0, 0, (0 : BitVec 8) ++ field w1 0 8⟩ = w1 := by
  obtain ⟨hz, ho⟩ : sysZeros (mWordOf w1) = false ∧ field w1 8 8 = 0 := by simpa using hz
  exact mWord_of_sysZeros (sub_eq_ofNat hs) hz (zero_append_field ho rfl)

theorem encSys_tail {o : BitVec 7} {g : Guard} {d a b : BitVec 6} {sub : BitVec 4} {idx : BitVec 16} (e : mWord ⟨0, sub, 0, 0, 0, idx⟩ = w1) :
    encSys o g d a b sub idx = [encLane o g false d a b, w1] := congrArg (fun w => [_, w]) e

theorem spells_spawn (h : opcodeOf w0 = 0x73) : Spells [w0, w1] (parseSystem w0 w1 0x73) := by
  simp only [parseSystem]
  split
  · next hs =>
    refine Spells.some fun hz hu => ?_
    simp only [Bool.or_eq_false_iff, decide_eq_false_iff_not, not_not] at hz
    obtain ⟨⟨⟨hh, hd⟩, z⟩, high⟩ := hz
    refine (encSys_tail (mWord_of_sysZeros hs z (zero_append_field high rfl))).trans ?_
    simp [encLane, lGuard, lWord_eq_iff, lWordOf_op h, hh, hd, hu]
  · exact Spells.none _

theorem spells_tdone (h : opcodeOf w0 = 0x74) : Spells [w0, w1] (parseSystem w0 w1 0x74) := by
  simp only [parseSystem]
  split
  · next hs => exact Spells.andZero fun hz => spells_parseA h fun _ => encSys_tail (mWord_index_zero (n := 0) (congrArg BitVec.toNat hs) hz)
  · exact Spells.none _

theorem spells_launch (h : opcodeOf w0 = 0x75) : Spells [w0, w1] (parseSystem w0 w1 0x75) := by
  simp only [parseSystem]
  split
  · next hs => exact Spells.andZero fun hz => spells_parseA h fun _ => encSys_tail (mWord_index_zero (n := 0) (congrArg BitVec.toNat hs) hz)
  · exact Spells.none _

theorem spells_bar (h : opcodeOf w0 = 0x76) : Spells [w0, w1] (parseSystem w0 w1 0x76) := by
  simp only [parseSystem]
  split
  · next hs => exact Spells.andZero fun hz => spells_parseD h fun _ => encSys_tail (mWord_index_zero hs hz)
  · next hs => exact Spells.andZero fun hz => spells_parseD h fun _ => encSys_tail (mWord_index_byte hs hz)
  · next hs => exact Spells.andZero fun hz => spells_parseD h fun _ => encSys_tail (mWord_index_zero hs hz)
  · exact Spells.none _

theorem spells_exit (h : opcodeOf w0 = 0x77) : Spells [w0, w1] (parseSystem w0 w1 0x77) := by
  simp only [parseSystem]
  split
  · next hs => exact Spells.andZero fun hz => spells_parseG h fun _ => encSys_tail (mWord_index_zero (n := 0) (congrArg BitVec.toNat hs) hz)
  · exact Spells.none _

theorem spells_sreg (h : opcodeOf w0 = 0x78) : Spells [w0, w1] (parseSystem w0 w1 0x78) := by
  simp only [parseSystem]
  split
  · next hs =>
    refine Spells.some fun hz _ => ?_
    simp only [Bool.or_eq_false_iff, decide_eq_false_iff_not, not_not] at hz
    obtain ⟨hz, z⟩ := hz
    show [lWord _, mWord _] = [w0, w1]
    rw [mWord_of_sysZeros hs z rfl]
    simp [lGuard, lWord_eq_iff, lWordOf_op h, hz]
  · exact Spells.none _

theorem spells_sset (h : opcodeOf w0 = 0x79) : Spells [w0, w1] (parseSystem w0 w1 0x79) := by
  simp only [parseSystem]
  split
  · next hs =>
    refine Spells.some fun hz _ => ?_
    simp only [Bool.or_eq_false_iff, decide_eq_false_iff_not, not_not] at hz
    obtain ⟨hz, z⟩ := hz
    show [lWord _, mWord _] = [w0, w1]
    rw [mWord_of_sysZeros hs z rfl]
    simp [lGuard, lWord_eq_iff, lWordOf_op h, hz]
  · exact Spells.none _

theorem spells_trap (h : opcodeOf w0 = 0x7A) : Spells [w0, w1] (parseSystem w0 w1 0x7A) := by
  simp only [parseSystem]
  split
  · next hs => exact Spells.andZero fun hz => spells_parseG h fun _ => encSys_tail (mWord_index_byte hs hz)
  · next hs => exact Spells.andZero fun hz => spells_parseG h fun _ => encSys_tail (mWord_index_byte hs hz)
  · exact Spells.none _

theorem spells_eret (h : opcodeOf w0 = 0x7B) : Spells [w0, w1] (parseSystem w0 w1 0x7B) := by
  simp only [parseSystem]
  split
  case h_4 => exact Spells.none _
  all_goals exact Spells.andZero fun hz => spells_parseG h fun _ => encSys_tail (mWord_index_zero ‹_› hz)

theorem spells_sigchk (h : opcodeOf w0 = 0x7C) : Spells [w0, w1] (parseSystem w0 w1 0x7C) :=
  spells_parseG (i := fun x => .sigchk ⟨x, w1⟩) h fun _ => rfl

/-- A `tlbop` on a page of a size. -/
theorem spells_pageSize {c : TlbPageOps → Instr} {uh : Bool} (h : opcodeOf w0 = 0x7D) (hs : (mWordOf w1).sub.toNat = n)
    (enc : ∀ f, encode (c f) = encSys 0x7D f.g f.d f.a 0 (BitVec.ofNat 4 n) ((0 : BitVec 14) ++ f.size)) :
    Spells [w0, w1] (some ⟨c ⟨lGuard (lWordOf w0), (lWordOf w0).d, (lWordOf w0).a, field w1 0 2⟩,
      uh || sysZeros (mWordOf w1) || (lWordOf w0).b ≠ 0 || field w1 2 14 ≠ 0, (lWordOf w0).u || (lWordOf w0).h⟩) :=
  Spells.some fun hz hl => by
    simp only [Bool.or_eq_false_iff, decide_eq_false_iff_not, not_not] at hz hl
    obtain ⟨⟨⟨-, z⟩, hb⟩, high⟩ := hz
    refine (enc _).trans ((encSys_tail (mWord_of_sysZeros (sub_eq_ofNat hs) z (zero_append_field high rfl))).trans ?_)
    simp [encLane, lGuard, lWord_eq_iff, lWordOf_op h, hb, hl]

theorem spells_tlbop (h : opcodeOf w0 = 0x7D) : Spells [w0, w1] (parseSystem w0 w1 0x7D) := by
  simp only [parseSystem]
  split
  · next hs =>
    refine Spells.some fun hz hl => ?_
    simp only [Bool.or_eq_false_iff, decide_eq_false_iff_not, not_not] at hz hl
    obtain ⟨⟨-, z⟩, high⟩ := hz
    have idx : 0#13 ++ BitVec.ofBool (w1.getLsbD 2) ++ field w1 0 2 = (mWordOf w1).off := by
      simp only [← show field w1 3 13 = 0#13 from high, ofBool_getLsbD, field_append_field]
      rfl
    refine (encSys_tail (mWord_of_sysZeros (sub_eq_ofNat hs) z idx)).trans ?_
    simp [encLane, lGuard, lWord_eq_iff, lWordOf_op h, hl]
  · next hs => exact spells_pageSize h hs fun _ => rfl
  · next hs => exact spells_pageSize h hs fun _ => rfl
  · next hs =>
    refine Spells.some fun hz hl => ?_
    simp only [Bool.or_eq_false_iff, decide_eq_false_iff_not, not_not] at hz hl
    obtain ⟨⟨⟨⟨-, z⟩, hd⟩, hb⟩, off⟩ := hz
    refine (encSys_tail (mWord_of_sysZeros (sub_eq_ofNat hs) z off.symm)).trans ?_
    simp [encLane, lGuard, lWord_eq_iff, lWordOf_op h, hd, hb, hl]
  · exact Spells.none _

theorem spells_fpmode (h : opcodeOf w0 = 0x7E) : Spells [w0, w1] (parseSystem w0 w1 0x7E) := by
  simp only [parseSystem]
  split
  · next hs =>
    refine Spells.andZero fun hz => spells_parseG h fun _ => ?_
    simp only [Bool.or_eq_false_iff, decide_eq_false_iff_not, not_not] at hz
    exact encSys_tail (mWord_of_sysZeros (sub_eq_ofNat hs) hz.1 (zero_append_field hz.2 rfl))
  · next hs => exact Spells.andZero fun hz => spells_parseA h fun _ => encSys_tail (mWord_index_zero hs hz)
  · next hs =>
    refine Spells.andZero fun hz => spells_parseG h fun _ => ?_
    simp only [Bool.or_eq_false_iff] at hz
    obtain ⟨⟨z, low⟩, high⟩ := hz
    have idx : 0#1 ++ field w1 8 7 ++ 0#1 ++ field w1 0 7 = (mWordOf w1).off := by
      rw [zero_append_field (hi := 15) (field_one_zero high) rfl, ← field_one_zero low]
      simp only [field_append_field]
      rfl
    exact encSys_tail (mWord_of_sysZeros (sub_eq_ofNat hs) z idx)
  · exact Spells.none _

theorem spells_opcode7F (h : opcodeOf w0 = 0x7F) : Spells [w0, w1] (parseSystem w0 w1 0x7F) :=
  Spells.some fun _ _ => by
    have op : field w0 25 7 = 0x7F := lWordOf_op h
    show [(0x7F : BitVec 7) ++ field w0 0 25, w1] = [w0, w1]
    rw [← op, field_append_field (lo := 0) (m := 25) w0 rfl]
    exact congrArg (fun w => [w, w1]) (field_all w0)

theorem spells_parseSystem : ∀ {k}, k < 0xD → opcodeOf w0 = 0x73 + k → Spells [w0, w1] (parseSystem w0 w1 (0x73 + k))
  | 0x0, _, h => spells_spawn h
  | 0x1, _, h => spells_tdone h
  | 0x2, _, h => spells_launch h
  | 0x3, _, h => spells_bar h
  | 0x4, _, h => spells_exit h
  | 0x5, _, h => spells_sreg h
  | 0x6, _, h => spells_sset h
  | 0x7, _, h => spells_trap h
  | 0x8, _, h => spells_eret h
  | 0x9, _, h => spells_sigchk h
  | 0xA, _, h => spells_tlbop h
  | 0xB, _, h => spells_fpmode h
  | 0xC, _, h => spells_opcode7F h
  | n + 0xD, hn, _ => absurd hn (by omega)

end

/-- What is parsed from words has no other spelling. -/
theorem spells_parse (w0 w1 : Word) : Spells (if twoWord w0 then [w0, w1] else [w0]) (parse w0 w1) := by
  have bound := opcodeOf_lt w0
  obtain h | h := Nat.lt_or_ge (opcodeOf w0) 0x60
  · rw [if_neg (by rw [twoWord_eq_false h]; exact Bool.false_ne_true)]
    obtain low | ⟨k, hk⟩ := (Nat.lt_or_ge (opcodeOf w0) 0x50).imp_right Nat.exists_eq_add_of_le
    · exact parse_low rfl low ▸ spells_parseLow low rfl
    · exact parse_control hk (by omega) ▸ spells_parseControl (by omega) hk
  · rw [if_pos (twoWord_eq_true h)]
    obtain memory | ⟨k, hk⟩ := (Nat.lt_or_ge (opcodeOf w0) 0x6B).imp_right Nat.exists_eq_add_of_le
    · obtain ⟨k, hk⟩ := Nat.exists_eq_add_of_le h
      exact parse_memory hk (by omega) ▸ spells_parseMemory (by omega) hk
    obtain engine | ⟨k, hk⟩ := (Nat.lt_or_ge (opcodeOf w0) 0x73).imp_right Nat.exists_eq_add_of_le
    · exact parse_engine hk (by omega) ▸ spells_parseEngine (by omega) hk
    · exact parse_system hk ▸ spells_parseSystem (by omega) hk

/-- The decoder accepts what is parsed without an objection and raises no encoding trap of its own fields. -/
theorem decode_eq_ok_iff {w0 w1 : Word} {i : Instr} : decode w0 w1 = .ok i ↔
    parse w0 w1 = some ⟨i, false, false⟩ ∧ unimplBad i = false ∧ illegalBad i = false := by
  constructor
  · intro h
    unfold decode at h
    split at h
    · cases h
    · next p hp =>
      obtain ⟨j, u, l⟩ := p
      unfold judge at h
      split at h
      · cases h
      next unimpl =>
      split at h
      · cases h
      next illegal =>
      cases h
      obtain ⟨rfl, hu⟩ : u = false ∧ unimplBad j = false := by simpa using unimpl
      obtain ⟨rfl, hl⟩ : l = false ∧ illegalBad j = false := by simpa using illegal
      exact ⟨hp, hu, hl⟩
  · rintro ⟨hp, hu, hl⟩
    simp [decode, judge, hp, hu, hl]

/-- Settles O52: what was parsed without an objection to its unused fields is spelled by its words alone. -/
theorem oneSpelling : Obligations.OneSpelling := by
  unfold Obligations.OneSpelling
  intro w0 w1 i h
  obtain ⟨hp, -, -⟩ := decode_eq_ok_iff.1 h
  exact spells_parse w0 w1 _ hp rfl rfl

end Sys2Proof
end
section
/-! The decoder reads a well-formed instruction from its words (O51): instruction by instruction, by the mould of its words. -/

namespace Sys2Proof

/-- The parser reads an instruction from words and objects to none of the fields that it does not use. -/
def Reads (ws : List Word) (i : Instr) : Prop :=
  (∃ w0, ws = [w0] ∧ twoWord w0 = false ∧ ∀ w1, parse w0 w1 = some ⟨i, false, false⟩) ∨
    ∃ w0 w1, ws = [w0, w1] ∧ twoWord w0 = true ∧ parse w0 w1 = some ⟨i, false, false⟩

section

variable {op : BitVec 7} {i : Instr}

/-! Instructions with one word. -/

theorem reads_lWord {f : LWord} (h : f.op.toNat < 0x60) (hp : ∀ w1, parse (lWord f) w1 = some ⟨i, false, false⟩) : Reads [lWord f] i :=
  .inl ⟨_, rfl, twoWord_eq_false (by rwa [opcodeOf_lWord]), hp⟩

theorem reads_iWord {f : IWord} (h : f.op.toNat < 0x60) (hp : ∀ w1, parse (iWord f) w1 = some ⟨i, false, false⟩) : Reads [iWord f] i :=
  .inl ⟨_, rfl, twoWord_eq_false (by rwa [opcodeOf_iWord]), hp⟩

theorem reads_jWord {f : JWord} (h : f.op.toNat < 0x60) (hp : ∀ w1, parse (jWord f) w1 = some ⟨i, false, false⟩) : Reads [jWord f] i :=
  .inl ⟨_, rfl, twoWord_eq_false (by rwa [opcodeOf_jWord]), hp⟩

theorem reads_encL {c : LOps → Instr} (f : LOps) (h : op.toNat < 0x60)
    (hp : ∀ w w1, opcodeOf w = op.toNat → parse w w1 = parseL c (lWordOf w)) : Reads [encL op f] (c f) :=
  reads_lWord h fun w1 => (hp _ w1 (opcodeOf_lWord _)).trans (by simp [parseL, opsL, lGuard])

theorem reads_encL2 {c : LOps2 → Instr} (f : LOps2) (h : op.toNat < 0x60)
    (hp : ∀ w w1, opcodeOf w = op.toNat → parse w w1 = parseL2 c (lWordOf w)) : Reads [encL2 op f] (c f) :=
  reads_lWord h fun w1 => (hp _ w1 (opcodeOf_lWord _)).trans (by simp [parseL2, lGuard])

theorem reads_encI {c : IOps → Instr} (f : IOps) (h : op.toNat < 0x60)
    (hp : ∀ w w1, opcodeOf w = op.toNat → parse w w1 = parseI c (iWordOf w)) : Reads [encI op f] (c f) :=
  reads_iWord h fun w1 => (hp _ w1 (opcodeOf_iWord _)).trans (by simp [parseI, opsI])

theorem reads_encXI {c : XIOps → Instr} (f : XIOps) (h : op.toNat < 0x60)
    (hp : ∀ w w1, opcodeOf w = op.toNat → parse w w1 = parseXI c (iWordOf w)) : Reads [encXI op f] (c f) :=
  reads_iWord h fun w1 => (hp _ w1 (opcodeOf_iWord _)).trans (by simp [parseXI])

theorem reads_encDA {c : DAOps → Instr} (f : DAOps) (h : op.toNat < 0x60)
    (hp : ∀ w w1, opcodeOf w = op.toNat → parse w w1 = parseDA c (lWordOf w)) : Reads [encDA op f] (c f) :=
  reads_lWord h fun w1 => (hp _ w1 (opcodeOf_lWord _)).trans (by simp [parseDA, opsDA, lGuard])

theorem reads_encJ {c : JOps → Instr} (f : JOps) (h : op.toNat < 0x60)
    (hp : ∀ w w1, opcodeOf w = op.toNat → parse w w1 = parseJ c (jWordOf w) true) : Reads [encJ op false f] (c f) :=
  reads_jWord h fun w1 => (hp _ w1 (opcodeOf_jWord _)).trans (by simp [parseJ])

/-- `bra` and `gbra` share an opcode (R154). -/
theorem reads_bra (u : Bool) (f : JOps) : Reads [encJ 0x58 u f] (if u then .gbra f else .bra f) :=
  reads_jWord (show 0x58 < 0x60 by decide) fun w1 =>
    (parse_control (k := 8) (opcodeOf_jWord _) (by decide)).trans (by cases u <;> simp [parseControl, parseJ])

/-! Instructions with two words. -/

theorem reads_memory {k : Nat} {f : LWord} {w1 : Word} (h : f.op.toNat = 0x60 + k) (hk : k < 0xB)
    (hp : parseMemory (lWord f) w1 (0x60 + k) = some ⟨i, false, false⟩) : Reads [lWord f, w1] i :=
  .inr ⟨_, _, rfl, twoWord_eq_true (by rw [opcodeOf_lWord]; omega), (parse_memory (by rwa [opcodeOf_lWord]) hk).trans hp⟩

theorem reads_engine {k : Nat} {f : LWord} {w1 : Word} (h : f.op.toNat = 0x6B + k) (hk : k < 8)
    (hp : parseEngine (lWord f) w1 (0x6B + k) = some ⟨i, false, false⟩) : Reads [lWord f, w1] i :=
  .inr ⟨_, _, rfl, twoWord_eq_true (by rw [opcodeOf_lWord]; omega), (parse_engine (by rwa [opcodeOf_lWord]) hk).trans hp⟩

theorem reads_system {k : Nat} {f : LWord} {w1 : Word} (h : f.op.toNat = 0x73 + k)
    (hp : parseSystem (lWord f) w1 (0x73 + k) = some ⟨i, false, false⟩) : Reads [lWord f, w1] i :=
  .inr ⟨_, _, rfl, twoWord_eq_true (by rw [opcodeOf_lWord]; omega), (parse_system (by rwa [opcodeOf_lWord])).trans hp⟩

variable {sub : BitVec 4}

theorem reads_encAlu64 {c : Alu64Ops → Instr} (f : Alu64Ops)
    (hp : ∀ w0 w1, (aWordOf w1).sub = sub → parseMemory w0 w1 0x61 = parseAlu64 c (lWordOf w0) (aWordOf w1)) : Reads (encAlu64 sub f) (c f) :=
  reads_memory (k := 1) rfl (by decide) ((hp _ _ (by simp)).trans (by simp [parseAlu64, lGuard]))

theorem reads_encFtr {c : FtrOps → Instr} (f : FtrOps)
    (hp : ∀ w0 w1, (mWordOf w1).sub = sub → parseMemory w0 w1 0x62 = parseFtr c (lWordOf w0) w1) : Reads (encFtr sub f) (c f) :=
  reads_memory (k := 2) rfl (by decide) ((hp _ _ (by simp)).trans (by
    simp [parseFtr, lGuard, field_mWord_low]))

theorem reads_encLsctl {c : LsctlOps → Instr} (f : LsctlOps)
    (hp : ∀ w0 w1, (mWordOf w1).sub = sub → parseMemory w0 w1 0x6A = parseLsctl c (lWordOf w0) (mWordOf w1)) : Reads (encLsctl sub f) (c f) :=
  reads_memory (k := 10) rfl (by decide) ((hp _ _ (by simp)).trans (by simp [parseLsctl, lGuard]))

theorem reads_encCp {c : CpOps → Instr} (f : CpOps)
    (hp : ∀ w0 w1, (mWordOf w1).sub = sub → parseEngine w0 w1 0x6B = parseCp c (lWordOf w0) (mWordOf w1)) : Reads (encCp sub f) (c f) :=
  reads_engine (k := 0) rfl (by decide) ((hp _ _ (by simp)).trans (by simp [parseCp, lGuard]))

theorem reads_encTk {c : TkOps → Instr} {k : Nat} (f : TkOps) (h : op.toNat = 0x6B + k) (hk : k < 8)
    (hp : ∀ w0 w1, (mWordOf w1).sub = sub → parseEngine w0 w1 (0x6B + k) = parseTk c (lWordOf w0) (mWordOf w1)) : Reads (encTk op sub f) (c f) :=
  reads_engine h hk ((hp _ _ (by simp)).trans (by simp [parseTk, lGuard]))

theorem reads_encMma {c : MmaOps → Instr} (f : MmaOps)
    (hp : ∀ w0 w1, (mWordOf w1).sub = sub → parseEngine w0 w1 0x6E = parseMma c (lWordOf w0) (xWordOf w1)) : Reads (encMma sub f) (c f) :=
  reads_engine (k := 3) rfl (by decide) ((hp _ _ (by simp)).trans (by simp [parseMma, lGuard]))

theorem reads_encMmcvt {c : MmcvtOps → Instr} (f : MmcvtOps)
    (hp : ∀ w0 w1, (mWordOf w1).sub = sub → parseEngine w0 w1 0x72 = parseMmcvt c (lWordOf w0) (xWordOf w1)) : Reads (encMmcvt sub f) (c f) :=
  reads_engine (k := 7) rfl (by decide) ((hp _ _ (by simp)).trans (by simp [parseMmcvt, lGuard]))

end

theorem wellFormed_iff {i : Instr} : WellFormed i = true ↔ isInstruction i = true ∧ unimplBad i = false ∧ illegalBad i = false := by
  simp [WellFormed, and_assoc]

/-! Instructions whose words have a shape of their own. -/

theorem reads_tkwait (f : TkwaitOps) : Reads (encode (.tkwait f)) (.tkwait f) := by
  refine reads_lWord (show 0x5E < 0x60 by decide) fun _ => (parse_control (k := 14) (opcodeOf_lWord _) (by decide)).trans ?_
  have mask : BitVec.ofBool (f.mask.getLsbD 7) ++ BitVec.ofBool (f.mask.getLsbD 6) ++ field f.mask 0 6 = f.mask := by
    simp only [ofBool_getLsbD, field_append_field]
    exact field_all _
  simp (disch := omega) [parseControl, lGuard, field_append_hi, getLsbD_append_lo, mask, -BitVec.getLsbD_eq_getElem]

/-- A flag in SUB. -/
theorem ofFlag_le (b : Bool) : (if b = true then 1#4 else 0#4).toNat ≤ 1 := by
  cases b <;> decide

theorem reads_cpscale (f : CpscaleOps) : Reads (encode (.cpscale f)) (.cpscale f) := by
  refine reads_engine (k := 1) rfl (by decide) ?_
  simp (disch := omega) [parseEngine, lGuard, ofFlag_le, field_mWord_mid, field_mWord, getLsbD_mWord, field_append_hi,
    field_append_lo, getLsbD_append_lo, -BitVec.getLsbD_eq_getElem]

theorem reads_mmrd (f : MmrdOps) : Reads (encode (.mmrd f)) (.mmrd f) := by
  refine reads_engine (k := 4) rfl (by decide) ?_
  simp [parseEngine, lGuard, ofFlag_le]

theorem reads_fpmodeSet (f : FpmodeOps) (hm : f.m = 0) : Reads (encode (.fpmodeSet f)) (.fpmodeSet f) := by
  obtain ⟨g, v, m⟩ := f
  subst hm
  refine reads_system (k := 11) rfl ?_
  simp (disch := omega) [parseSystem, andZero, parseG, sysZeros, lGuard, field_mWord, field_append_hi, field_append_lo]

theorem reads_fpmodeUpd (f : FpmodeOps) : Reads (encode (.fpmodeUpd f)) (.fpmodeUpd f) := by
  refine reads_system (k := 11) rfl ?_
  simp (disch := omega) [parseSystem, andZero, parseG, sysZeros, lGuard, field_mWord, getLsbD_mWord, field_append_hi, field_append_lo,
    getLsbD_append_hi, getLsbD_append_lo, -BitVec.getLsbD_eq_getElem]

theorem reads_opcode7F (lo : BitVec 25) (w1 : Word) : Reads (encode (.opcode7F lo w1)) (.opcode7F lo w1) := by
  have op : opcodeOf ((0x7F : BitVec 7) ++ lo) = 0x73 + 12 := congrArg BitVec.toNat (field_append_hi (0x7F : BitVec 7) lo 25 7 le_rfl)
  refine .inr ⟨_, _, rfl, twoWord_eq_true (by rw [op]; decide), (parse_system op).trans ?_⟩
  simp (disch := omega) [parseSystem, field_append_lo]

/-- The parser reads an instruction from its words. -/
theorem reads_encode {i : Instr} (hi : isInstruction i = true) (hu : unimplBad i = false) : Reads (encode i) i := by
  cases i with
  | addI32 f | subI32 f | mulI32 f | mulhiI32 f | mulhiN32 f | madI32 f | addsI32 f | subsI32 f | addsN32 f | minI32 f
  | maxI32 f | minN32 f | maxN32 f | sel f | andL f | orL f | xorL f | andn f | shl f | shrN f | shrI f | rotl f | bfxN f
  | bfxI f | cmpEqI32 f | cmpNeI32 f | cmpLtI32 f | cmpLeI32 f | cmpLtN32 f | cmpLeN32 f | fcmpEqF32 f | fcmpLtF32 f
  | fcmpLeF32 f | fcmpUnF32 f | faddF32 f | fsubF32 f | fmulF32 f | ffmaF32 f | fminF32 f | fmaxF32 f | faddF16x2 f
  | fmulF16x2 f | ffmaF16x2 f | ffmaBf16x2 f | faddF64 f | fmulF64 f | ffmaF64 f | fscaleF32 f | packF16x2 f
  | packBf16x2 f | npq f | npdq f | froundF32 f =>
    exact reads_encL f (by decide) fun _ _ h => parse_low h (by decide)
  | absI32 f | popc f | clz f | brev f | fnegF32 f | fabsF32 f | cvtF32I32 f | cvtI32F32 f | cvtF32N32 f | cvtN32F32 f
  | cvtF64F32 f | cvtF32F64 f | fclassF32 f =>
    exact reads_encL2 f (by decide) fun _ _ h => parse_low h (by decide)
  | addi f | shli f | shriN f | shriI f | cmpiEq f | cmpiLtI32 f | cmpiLtN32 f | unpkF16 f | unpkBf16 f =>
    exact reads_encI f (by decide) fun _ _ h => parse_low h (by decide)
  | plane f | unplane f => exact reads_encXI f (by decide) fun _ _ h => parse_low h (by decide)
  | shflx f => exact reads_encXI f (by decide) fun _ _ h => parse_control (k := 1) h (by decide)
  | shfld f => exact reads_encXI f (by decide) fun _ _ h => parse_control (k := 2) h (by decide)
  | rdlane f => exact reads_encXI f (by decide) fun _ _ h => parse_control (k := 6) h (by decide)
  | rdx f => exact reads_encXI f (by decide) fun _ _ h => parse_control (k := 7) h (by decide)
  | kset f => exact reads_encDA f (by decide) fun _ _ h => parse_low h (by decide)
  | vany f => exact reads_encDA f (by decide) fun _ _ h => parse_control (k := 3) h (by decide)
  | vall f => exact reads_encDA f (by decide) fun _ _ h => parse_control (k := 4) h (by decide)
  | ballot f => exact reads_encDA f (by decide) fun _ _ h => parse_control (k := 5) h (by decide)
  | kop f => exact reads_lWord (show 0x2D < 0x60 by decide) fun _ => (parse_low (n := 0x2D) (opcodeOf_lWord _) (by decide)).trans (by
      simp (disch := omega) [parseLow, lGuard, field_append_hi, field_append_lo])
  | kmovKV f => exact reads_iWord (show 0x2E < 0x60 by decide) fun _ => (parse_low (n := 0x2E) (opcodeOf_iWord _) (by decide)).trans (by
      simp [parseLow])
  | kmovVK f => exact reads_iWord (show 0x2E < 0x60 by decide) fun _ => (parse_low (n := 0x2E) (opcodeOf_iWord _) (by decide)).trans (by
      simp [parseLow])
  | shfl f => exact reads_lWord (show 0x50 < 0x60 by decide) fun _ => (parse_control (k := 0) (opcodeOf_lWord _) (by decide)).trans (by
      simp [parseControl, lGuard])
  | bra f => exact reads_bra false f
  | gbra f => exact reads_bra true f
  | setj f => exact reads_encJ f (by decide) fun _ _ h => parse_control (k := 9) h (by decide)
  | call f => exact reads_encJ f (by decide) fun _ _ h => parse_control (k := 11) h (by decide)
  | join f => exact reads_lWord (show 0x5A < 0x60 by decide) fun _ => (parse_control (k := 10) (opcodeOf_lWord _) (by decide)).trans (by
      simp [parseControl, parseG, lGuard])
  | ret f => exact reads_lWord (show 0x5C < 0x60 by decide) fun _ => (parse_control (k := 12) (opcodeOf_lWord _) (by decide)).trans (by
      simp [parseControl, parseG, lGuard])
  | jmpi f => exact reads_lWord (show 0x5D < 0x60 by decide) fun _ => (parse_control (k := 13) (opcodeOf_lWord _) (by decide)).trans (by
      simp [parseControl, parseA, lGuard])
  | tkwait f => exact reads_tkwait f
  | nop f => exact reads_iWord (show 0x5F < 0x60 by decide) fun _ => (parse_control (k := 15) (opcodeOf_iWord _) (by decide)).trans (by
      simp [parseControl])
  | yieldN f =>
    have hn : ¬ f.n = 0#7 := of_decide_eq_false (Bool.or_eq_false_iff.1 (hu : (_ || decide (f.n = 0)) = false)).2
    exact reads_iWord (show 0x5F < 0x60 by decide) fun _ => (parse_control (k := 15) (opcodeOf_iWord _) (by decide)).trans (by
      simp [parseControl, hn])
  | movi f => exact reads_memory (k := 0) rfl (by decide) (by simp [parseMemory, lGuard])
  | add64 f | sub64 f | lea f | mulwI f | mulwN f | shl64 f | shr64N f | shr64I f | min64N f | max64N f => exact reads_encAlu64 f fun _ _ h => by simp [parseMemory, h]
  | frcp f | frsq f | fsqrt f | fdiv f | fexp2 f | flog2 f | fsinpi f | fcospi f | ftanh f => exact reads_encFtr f fun _ _ h => by simp [parseMemory, h]
  | ld f => exact reads_memory (k := 3) rfl (by decide) (by simp [parseMemory, lGuard])
  | st f => exact reads_memory (k := 4) rfl (by decide) (by simp [parseMemory, lGuard])
  | ldl f => exact reads_memory (k := 5) rfl (by decide) (by simp [parseMemory, lGuard])
  | stl f => exact reads_memory (k := 6) rfl (by decide) (by simp [parseMemory, lGuard])
  | atom f => exact reads_memory (k := 7) rfl (by decide) (by simp [parseMemory, lGuard])
  | atoml f => exact reads_memory (k := 8) rfl (by decide) (by simp [parseMemory, lGuard])
  | fence f => exact reads_memory (k := 9) rfl (by decide) (by simp [parseMemory, lGuard])
  | xfence f => exact reads_memory (k := 9) rfl (by decide) (by
      simp (disch := omega) [parseMemory, lGuard, field_append_hi, field_append_lo])
  | lsctlFeSet f | lsctlFeClr f | lsctlMode f | lsctlInv f | lsctlWb f | lsctlPf f =>
    exact reads_encLsctl f fun _ _ h => by simp [parseMemory, h]
  | cpG2l f | cpL2g f | cpL2gRed f | cpL2l f | cpG2g f | cpPeerPut f | cpPeerGet f | cpG2lMc f =>
    exact reads_encCp f fun _ _ h => by simp [parseEngine, h]
  | cpscale f => exact reads_cpscale f
  | tkq f | tkqClr f | tkqAddr f => exact reads_encTk (k := 2) f rfl (by decide) fun _ _ h => by simp [parseEngine, h]
  | mmstat f => exact reads_encTk (k := 6) f rfl (by decide) fun _ _ h => by simp [parseEngine, h]
  | mma f | mmaJ f => exact reads_encMma f fun _ _ h => by simp [parseEngine, h]
  | mmcvtBf16 f | mmcvtNp8 f => exact reads_encMmcvt f fun _ _ h => by simp [parseEngine, h]
  | mmrd f => exact reads_mmrd f
  | mmwr f | mmwrZero f => exact reads_engine (k := 5) rfl (by decide) (by simp [parseEngine, lGuard])
  | spawn f => exact reads_system (k := 0) rfl (by
      simp (disch := omega) [parseSystem, sysZeros, lGuard, field_mWord, field_append_hi, field_append_lo])
  | tdone f => exact reads_system (k := 1) rfl (by simp [parseSystem, andZero, parseA, sysZeros, lGuard])
  | launch f => exact reads_system (k := 2) rfl (by simp [parseSystem, andZero, parseA, sysZeros, lGuard])
  | tbar f | cbar f => exact reads_system (k := 3) rfl (by simp [parseSystem, andZero, parseD, sysZeros, lGuard])
  | abar f => exact reads_system (k := 3) rfl (by
      simp (disch := omega) [parseSystem, andZero, parseD, sysZeros, lGuard, field_mWord, field_append_hi, field_append_lo])
  | exit f => exact reads_system (k := 4) rfl (by simp [parseSystem, andZero, parseG, sysZeros, lGuard])
  | sreg f => exact reads_system (k := 5) rfl (by simp [parseSystem, sysZeros, lGuard])
  | sset f => exact reads_system (k := 6) rfl (by simp [parseSystem, sysZeros, lGuard])
  | trap f | trapBkpt f => exact reads_system (k := 7) rfl (by
      simp (disch := omega) [parseSystem, andZero, parseG, sysZeros, lGuard, field_mWord, field_append_hi, field_append_lo])
  | eret f | eretSkip f | eretKill f => exact reads_system (k := 8) rfl (by simp [parseSystem, andZero, parseG, sysZeros, lGuard])
  | sigchk f => exact reads_system (k := 9) rfl (by simp [parseSystem, parseG, lGuard])
  | tlbopMap f => exact reads_system (k := 10) rfl (by
      simp (disch := omega) [parseSystem, sysZeros, lGuard, field_mWord, getLsbD_mWord, field_append_hi, field_append_lo,
        getLsbD_append_hi, getLsbD_append_lo, -BitVec.getLsbD_eq_getElem])
  | tlbopUnmap f | tlbopInval f => exact reads_system (k := 10) rfl (by
      simp (disch := omega) [parseSystem, sysZeros, lGuard, field_mWord, field_append_hi, field_append_lo])
  | tlbopRetire f => exact reads_system (k := 10) rfl (by simp [parseSystem, sysZeros, lGuard])
  | fpmodeSet f => exact reads_fpmodeSet f (by simpa using of_decide_eq_false (hu : decide (f.m ≠ 0) = false))
  | fpmodeLd f => exact reads_system (k := 11) rfl (by simp [parseSystem, andZero, parseA, sysZeros, lGuard])
  | fpmodeUpd f => exact reads_fpmodeUpd f
  | opcode7F lo w1 => exact reads_opcode7F lo w1
  | _ => exact Bool.noConfusion hi

/-- Settles O51: the parser reads a well-formed instruction from its words without an objection, and its own fields raise none. -/
theorem roundTrip : Obligations.RoundTrip := by
  unfold Obligations.RoundTrip
  intro i h
  obtain ⟨hi, hu, hl⟩ := wellFormed_iff.1 h
  obtain ⟨w0, he, ht, hp⟩ | ⟨w0, w1, he, ht, hp⟩ := reads_encode hi hu
  · exact .inl ⟨w0, he, ht, fun w1 => decode_eq_ok_iff.2 ⟨hp w1, hu, hl⟩⟩
  · exact .inr ⟨w0, w1, he, ht, decode_eq_ok_iff.2 ⟨hp, hu, hl⟩⟩

end Sys2Proof
end
section
/-! Words of the spec's examples (O53). -/

namespace Sys2Proof

/-- Settles O53 by decoding each word. -/
theorem specWords : Obligations.SpecWords := by
  unfold Obligations.SpecWords
  decide

end Sys2Proof
end
section
/-! The step of an issue turn (O54): which slot issues, and what issuing runs. -/

namespace Sys2Proof.Machine

theorem step_timesUp {s : State} {i : Instr} {rest : List Instr} (hs : (housekeep (tick s)).stopped = false)
    (ht : timesUp (housekeep (tick s)) = i :: rest) : step s = exec i (housekeep (tick s)) := by
  simp only [step, advanceOne, hs, ht, Bool.false_eq_true, if_false]

/-- An issue turn with no event put next, and nothing that waits for messages. -/
theorem step_issue {s : State} (hs : (housekeep (tick s)).stopped = false) (ht : timesUp (housekeep (tick s)) = [])
    (hi : (housekeep (tick s)).inputs = []) (hturn : (housekeep (tick s)).turn = .issue) (hy : issueYields (housekeep (tick s)) = false) :
    step s = issueOne (watchSlots { housekeep (tick s) with turn := .device }) := by
  simp only [step, advanceOne, takeTurn, hs, ht, hi, hturn, hy, Bool.false_eq_true, if_false]

theorem issueOne_served {s : State} {r : SlotRef} (h : Served s r) : issueOne s = afterIssue r (issueAt s r) := by
  unfold issueOne
  obtain h | ⟨two, first⟩ := h
  · rw [h]
  · split
    · next none => simp [none] at two
    · next one => simp [one] at two
    · rw [first]

/-- A slot without a clause fetches it. -/
theorem issueAt_fetch {s : State} {r : SlotRef} {x : Wave} (hx : findWave (passed s r) r.wave = some x)
    (hc : (slotOf x r.b).clause = []) : issueAt s r = exec (.clauseFetch r) (passed s r) := by
  rw [issueAt]
  change (match findWave (passed s r) r.wave with | none => _ | some x => _) = _
  rw [hx]
  exact if_pos (by rw [hc]; rfl)

/-- A slot with a clause issues the words that stand next. -/
theorem issueAt_words {s : State} {r : SlotRef} {x : Wave} (hx : findWave (passed s r) r.wave = some x)
    (hc : (slotOf x r.b).clause ≠ []) : issueAt s r = issueWords (passed s r) r x (slotOf x r.b) := by
  rw [issueAt]
  change (match findWave (passed s r) r.wave with | none => _ | some x => _) = _
  rw [hx]
  exact if_neg (by simpa using hc)

/-- Words that decode run their instruction, for the slot. -/
theorem issueWords_ok {s : State} {r : SlotRef} {x : Wave} {sl : Slot} {w0 w1 : Word} {i : Instr} (e0 : w0 = sl.clause.getD sl.woff 0)
    (e1 : w1 = if twoWord w0 then sl.clause.getD (sl.woff + 1) 0 else 0) (h : decode w0 w1 = .ok i) :
    issueWords s r x sl = exec i { s with cur := r } := by
  subst e0 e1
  simp only [issueWords, h]

/-- Words that do not decode trap with one of the causes of R79. -/
theorem issueWords_trap {s : State} {r : SlotRef} {x : Wave} {sl : Slot} {w0 w1 : Word} (e0 : w0 = sl.clause.getD sl.woff 0)
    (e1 : w1 = if twoWord w0 then sl.clause.getD (sl.woff + 1) 0 else 0) (h : ∀ i, decode w0 w1 ≠ .ok i) :
    ∃ cause act, (cause = 1 ∨ cause = 2) ∧ issueWords s r x sl = .next (trapWords s r sl w0 w1 cause act) := by
  subst e0 e1
  unfold issueWords
  extract_lets w0 w1
  split
  · next i hd => exact absurd hd (h i)
  · exact ⟨2, _, .inr rfl, rfl⟩
  · next i hd => exact ⟨_, _, by split <;> simp, rfl⟩

/-- Settles O54: without an event the turn issues the served slot, which fetches, runs what its words decode to, or traps. -/
theorem stepRunsDecoded : Obligations.StepRunsDecoded := by
  unfold Obligations.StepRunsDecoded
  refine ⟨fun s i rest hs ht => step_timesUp hs ht, ?_⟩
  intro s r x h d p sl w0 w1 ht hi hs hturn hy served hx
  have go : step s = afterIssue r (issueAt d r) := (step_issue hs ht hi hturn hy).trans (issueOne_served served)
  refine ⟨fun hc => ?_, fun hc i hd => ?_, fun hc hd => ?_⟩
  · rw [go, issueAt_fetch hx hc]
  · rw [go, issueAt_words hx hc]
    exact congrArg (afterIssue r) (issueWords_ok rfl rfl hd)
  · obtain ⟨cause, act, hcause, e⟩ := issueWords_trap (s := p) (r := r) (x := x) (sl := sl) rfl rfl hd
    exact ⟨cause, act, hcause, by rw [go, issueAt_words hx hc, e]⟩

end Sys2Proof.Machine
end
section
/-! What keeps an instruction from its effect when it issues (O13): opcode 0x7F behind a note of lanes that have read poison. -/

namespace Sys2Proof.Machine

/-- What an earlier instruction of slot A, still waiting, noted when it read its sources: its lane 0 has read poison. -/
def poisonNote : Progress := ⟨false, 0, [], [], 0, [], none, some [], 1⟩

/-- A wave that stands at opcode 0x7F with that note. -/
@[irreducible] def notedAtOpcode7F : State :=
  onWave (loadLone State.reset 0xFE000000 0) 0 fun x => { x with progress := some poisonNote }

theorem notedAtOpcode7F_stands : (ctxOf (.opcode7F 0 0) notedAtOpcode7F).isSome = true := by decide +kernel

/-- The context in which it issues. -/
@[irreducible] def notedCtx : Ctx := (ctxOf (.opcode7F 0 0) notedAtOpcode7F).get notedAtOpcode7F_stands

/-- LANES of the launch after an outcome that goes on. -/
def lanesCounted (o : Host.Outcome State Fault Refusal) : Option Nat := match o with
  | .next t => (findLaunch t 0).map (·.lanes)
  | _ => none

/-- The trap of opcode 0x7F counts no lane. -/
theorem lanesCounted_trap :
    lanesCounted (.next (takeTrap notedAtOpcode7F notedCtx.w (trapInfo notedCtx (plainFail 2)))) = some 0 := by decide +kernel

/-- The model ends the noted lane first (R427), and LANES counts it. -/
theorem lanesCounted_exec : lanesCounted (exec (.opcode7F 0 0) notedAtOpcode7F) = some 1 := by decide +kernel

theorem not_encodingTraps : ¬ Parts.EncodingTraps := by
  intro h
  have stands : ctxOf (.opcode7F 0 0) notedAtOpcode7F = some notedCtx := by rw [notedCtx, Option.some_get]
  obtain ⟨-, -, always⟩ := h (.opcode7F 0 0) notedAtOpcode7F notedCtx rfl stands
  have trap : exec (.opcode7F 0 0) notedAtOpcode7F =
      .next (takeTrap notedAtOpcode7F notedCtx.w (trapInfo notedCtx (plainFail 2))) := always 0 0 rfl
  have counted := lanesCounted_exec
  rw [trap, lanesCounted_trap] at counted
  exact absurd counted (by decide)

/-- Refutes O13: opcode 0x7F traps by its effect, which comes after what R427 does with lanes that have read poison, and a wave may hold
such a note in a state that no step makes: there a lane ends that the statement leaves alive. -/
theorem not_issueTraps : ¬ Obligations.IssueTraps := fun ⟨h, _⟩ => not_encodingTraps h

end Sys2Proof.Machine
end
section
/-! The fetch of a clause (O32), where the table of waves lists one wave twice. -/

namespace Sys2Proof.Machine

/-- A wave at the header of a clause of one `nop`, which it has not fetched. -/
def atHeader : Wave :=
  let x := loneWave (loneClause 0xBEF00000 0)
  { x with a := { x.a with pc := BitVec.ofNat 56 loneText, woff := 0, clause := [], header := none } }

/-- The wave is listed twice, the second time with a `join` completed whose word is still to be folded. -/
@[irreducible] def listedTwice : State :=
  { loadLone State.reset 0xBEF00000 0 with waves := [(0, atHeader), (0, { atHeader with a := { atHeader.a with joined := true } })] }

theorem listedTwice_text : TextStands listedTwice 0 loneTag false loneText [loneHeader, 0xBEF00000] := by
  intro i w hw
  have fetchable (i : Nat) (h : translate listedTwice loneTag (loneText + 4 * i) .fetch false =
      (.ok (leafPhys lonePte 3 (loneText + 4 * i)) lonePte, listedTwice)) :
      ∃ p e, translate listedTwice loneTag (loneText + 4 * i) .fetch false = (.ok p e, listedTwice) := ⟨_, _, h⟩
  match i, hw with
  | 0, hw =>
    cases hw
    exact ⟨by decide, by decide +kernel, fetchable 0 (by decide +kernel), by decide +kernel⟩
  | 1, hw =>
    cases hw
    exact ⟨by decide, by decide +kernel, fetchable 1 (by decide +kernel), by decide +kernel⟩
  | _ + 2, hw => cases hw

theorem loneHeader_sound : HeaderSound loneHeader := by
  unfold HeaderSound
  decide

/-- Where the waves of an outcome that goes on have a `join` still to be folded. -/
def joinsNoted (o : Host.Outcome State Fault Refusal) : List Bool := match o with
  | .next t => t.waves.map fun e => e.2.a.joined
  | _ => []

/-- The model clears the note in both entries. -/
theorem joinsNoted_fetch : joinsNoted (exec (.clauseFetch ⟨0, false⟩) listedTwice) = [false, false] := by decide +kernel

/-- The statement's state keeps the second one. -/
theorem joinsNoted_stated : joinsNoted (.next (onSlot listedTwice ⟨0, false⟩ fun y =>
    { y with clause := [loneHeader, 0xBEF00000], header := some loneHeader, pc := atHeader.a.pc + 4, woff := 1 })) = [false, true] := by
  decide +kernel

/-- Refutes O32: its last clause gives the state whole, and a change of a slot reaches every entry of the table of waves under the
wave's number, while its premises speak of the first: of a second one, which no step makes, the model clears a note that the statement
keeps. -/
theorem not_clauseFetches : ¬ Obligations.ClauseFetches := by
  unfold Obligations.ClauseFetches
  intro h
  obtain ⟨-, -, sound⟩ := h listedTwice ⟨0, false⟩ atHeader 0 loneLaunch loneHeader [0xBEF00000] (by decide +kernel) (by decide +kernel)
    rfl rfl rfl rfl rfl rfl (by decide +kernel) listedTwice_text ⟨_, [], rfl, .inl ⟨by decide, rfl⟩⟩
  have fetched := joinsNoted_fetch
  rw [sound loneHeader_sound (by decide +kernel)] at fetched
  exact absurd (joinsNoted_stated.symm.trans fetched) (by decide)

end Sys2Proof.Machine
end
section
/-! What happens to a wave between its instructions (O33): results that land, waiting local accesses, the refill of its fork stack, its
times, and a pending trap. -/

namespace Sys2Proof.Machine

/-! Results under lookahead. -/

/-- The first result to land leaves the ones after it. -/
theorem landOne_first {s : State} {w : Nat} {x : Wave} {e : Landing} {rest : List Landing} (hx : findWave s w = some x)
    (hl : x.landings = e :: rest) :
    landOne s w 0 = applyWrites (onWave s w fun y => { y with landings := rest }) w e.sup e.writes := by
  simp [landOne, hx, hl]

theorem loadCompletion_lands {s : State} {w : Nat} {x : Wave} {e : Landing} {rest : List Landing} (hx : findWave s w = some x)
    (shaped : WaveShaped x) (hm : memWf s.lstore = true) (hl : x.landings = e :: rest) (hs : e.sup = x.super)
    (fits : ∀ r ∈ e.writes, WriteFits x r) :
    ∃ t y, exec (.loadCompletion w 0) s = .next t ∧ findWave t w = some y ∧
      y = { x with g := y.g, svG := y.svG, svV := y.svV, landings := rest } ∧ (∀ n, groupReg y n = lastGroup e.writes n (groupReg x n)) ∧
      (∀ n l, l < x.width → laneReg t w y n l = lastLane e.writes n l (laneReg s w x n l)) ∧ ∀ v, v ≠ w → findWave t v = findWave s v := by
  obtain ⟨width, -, g, -, -, svG, svV⟩ := shaped
  have spec := applyWrites_spec (s := onWave s w fun y => { y with landings := rest }) (w := w) (x := { x with landings := rest })
    (findWave_on_same hx) hm ⟨width, g, svG, svV⟩ e.writes fun r hr => by
      have := fits r hr
      cases r <;> exact this
  obtain ⟨y, hy, ye, -, -, -, groups, lanes⟩ := spec.wave
  refine ⟨_, y, congrArg Host.Outcome.next (landOne_first hx hl), ?_, ye, groups, ?_, fun v hv => ?_⟩
  · rw [hs]
    exact hy
  · rw [hs]
    exact lanes
  · rw [hs]
    exact (spec.waves v hv).trans (findWave_on_other s _ hv)

/-! The local store: its words and its full bits. -/

theorem bankAt_putBank (s : State) (cl b : Nat) (x : Bank) : bankAt (putBank s cl b x) cl b = x := by
  simp [bankAt, putBank, kvGet]

theorem setMember_contains (l : List Nat) (n : Nat) (on : Bool) : (setMember l n on).contains n = on := by
  cases on
  · simp [setMember]
  · by_cases h : n ∈ l <;> simp [setMember, h]

theorem granFull_setFull (s : State) (cl a : Nat) (on : Bool) : granFull (setFull s cl a on) cl a = on := by
  rw [granFull, setFull, onBank, bankAt_putBank]
  exact setMember_contains _ _ on

theorem granFull_congr {s t : State} (h : t.banks = s.banks) (cl a : Nat) : granFull t cl a = granFull s cl a := by
  simp only [granFull, bankAt, h]

/-! A waiting local access of one lane in a SCR bank. -/

/-- A granule lies in the bank of its addresses. -/
theorem bankOf_granule (a : Nat) : bankOf (a / 16 * 16) = bankOf a := by
  unfold bankOf
  omega

/-- An acquire changes neither the local store nor the waves. -/
theorem acquireNow_keeps (s : State) (cl : Nat) (a : LocalAcc) :
    (acquireNow s cl a).waves = s.waves ∧ (acquireNow s cl a).lstore = s.lstore ∧ (acquireNow s cl a).banks = s.banks := by
  unfold acquireNow
  split
  · unfold selfInvalidate
    split
    · exact ⟨rfl, rfl, rfl⟩
    · exact ⟨rfl, rfl, rfl⟩
  · exact ⟨rfl, rfl, rfl⟩

theorem goLocal_scratch {s t : State} {cl : Nat} {a : LocalAcc} {ln : LocalLane} {rs : List (Nat × Nat × Bool)} (hl : a.lanes = [ln])
    (mode : (bankAt s cl (bankOf ln.addr)).mode = .scr) (copying : (bankAt s cl (bankOf ln.addr)).copying = false)
    (step : granuleStep s cl a [ln] = (some rs, t)) : goLocal s cl a = (rs, [], acquireNow t cl a) := by
  have key : groupKey s cl ln.addr = ln.addr / 16 * 16 := by simp [groupKey, mode]
  have group : ([ln].map fun l => groupKey s cl l.addr).eraseDups = [ln.addr / 16 * 16] := by
    rw [List.map_singleton, key, List.eraseDups_cons, List.filter_nil, List.eraseDups_nil]
  simp only [goLocal, tryLocal, hl, group]
  simp [performGroups, hl, key, bankOf_granule, mode, copying, step]

theorem setFull_keeps (s : State) (cl a : Nat) (on : Bool) : (setFull s cl a on).waves = s.waves ∧ (setFull s cl a on).lstore = s.lstore :=
  ⟨rfl, rfl⟩

theorem setPoison_keeps (s : State) (cl a : Nat) (on : Bool) :
    (setPoison s cl a on).waves = s.waves ∧ (setPoison s cl a on).lstore = s.lstore := ⟨rfl, rfl⟩

/-- The state after a lane's bytes are stored, before the granule's bits. -/
def laneStored (s : State) (cl n : Nat) (ln : LocalLane) : State := storeLane (noteLanes s cl n [ln]) cl n ln

theorem laneStored_spec (s : State) (cl n : Nat) (ln : LocalLane) :
    (laneStored s cl n ln).waves = s.waves ∧ (laneStored s cl n ln).lstore = memWriteN s.lstore (lsKey cl ln.addr) n ln.x := ⟨rfl, rfl⟩

theorem granuleStep_store {s : State} (cl : Nat) {a : LocalAcc} {ln : LocalLane} (kind : a.kind = .store) (fe : a.fe = 2)
    (empty : granFull s cl ln.addr = false) : ∃ t, granuleStep s cl a [ln] = (some [], t) ∧ t.waves = s.waves ∧
      t.lstore = memWriteN s.lstore (lsKey cl ln.addr) (storeBytes a.sub) ln.x ∧ granFull t cl ln.addr = true := by
  obtain ⟨waves, lstore⟩ := laneStored_spec s cl (storeBytes a.sub) ln
  have step : ∃ u, granuleStep s cl a [ln] = (some [], setFull u cl ln.addr true) ∧
      (u = laneStored s cl (storeBytes a.sub) ln ∨ u = setPoison (laneStored s cl (storeBytes a.sub) ln) cl ln.addr false) := by
    simp only [granuleStep, kind, fe, empty, accBytes, Bool.and_false, Bool.false_eq_true, if_false, ne_eq, OfNat.ofNat_ne_zero,
      not_false_eq_true, if_true, List.foldl_cons, List.foldl_nil]
    refine ⟨_, rfl, ?_⟩
    split
    · exact .inr rfl
    · exact .inl rfl
  obtain ⟨u, step, hu⟩ := step
  obtain ⟨keepsWaves, keepsStore⟩ := setFull_keeps u cl ln.addr true
  refine ⟨_, step, keepsWaves.trans ?_, keepsStore.trans ?_, granFull_setFull u cl ln.addr true⟩
  · rcases hu with rfl | rfl
    · exact waves
    · exact (setPoison_keeps _ _ _ _).1.trans waves
  · rcases hu with rfl | rfl
    · exact lstore
    · exact (setPoison_keeps _ _ _ _).2.trans lstore

theorem granuleStep_load {s : State} (cl : Nat) {a : LocalAcc} {ln : LocalLane} (kind : a.kind = .load) (fe : a.fe = 2) (sub : a.sub = 4)
    (mode : (bankAt s cl (bankOf ln.addr)).mode = .scr) (full : granFull s cl ln.addr = true) (clean : granPoison s cl ln.addr = false) :
    granuleStep s cl a [ln] = (some [(ln.lane, localNat s cl ln.addr 4, false)], setFull s cl ln.addr false) := by
  simp [granuleStep, kind, fe, full, accBytes, sub, loadBytes, localPoison, mode, clean]

/-- The one access that waits is performed whole, and no lane consumes poison. -/
theorem performWaiting_whole {s u : State} {w : Nat} {x : Wave} {a : LocalAcc} {rs : List (Nat × Nat × Bool)} {ws : List RegWrite}
    (hx : findWave s w = some x) (hl : x.locals = [a]) (hs : a.sup = x.super) (go : goLocal s (clusterOf w) a = (rs, [], u))
    (res : localResults a rs = (0, ws)) :
    performWaiting s w 0 = applyWrites (onWave u w fun y => { y with locals := y.locals.eraseIdx 0 }) w x.super ws := by
  have runs : suspended x a = false := by simp [suspended, hs]
  simp [performWaiting, hx, hl, runs, go, res, hs]

theorem localAccess_stores {s : State} {w : Nat} {x : Wave} {a : LocalAcc} {ln : LocalLane} (hx : findWave s w = some x)
    (hm : memWf s.lstore = true) (hl : x.locals = [a]) (lanes : a.lanes = [ln]) (fe : a.fe = 2) (hs : a.sup = x.super)
    (mode : (bankAt s (clusterOf w) (bankOf ln.addr)).mode = .scr) (copying : (bankAt s (clusterOf w) (bankOf ln.addr)).copying = false)
    (kind : a.kind = .store) (empty : granFull s (clusterOf w) ln.addr = false) :
    ∃ t y, exec (.localAccessPerformed w 0) s = .next t ∧ findWave t w = some y ∧ y.locals = [] ∧
      localNat t (clusterOf w) ln.addr (storeBytes a.sub) = ln.x % 2 ^ (8 * storeBytes a.sub) ∧ granFull t (clusterOf w) ln.addr = true ∧
      ∀ k, k < lsKey (clusterOf w) ln.addr ∨ lsKey (clusterOf w) ln.addr + storeBytes a.sub ≤ k →
        memRead t.lstore k = memRead s.lstore k := by
  obtain ⟨t, step, waves, lstore, full⟩ := granuleStep_store (clusterOf w) kind fe empty
  obtain ⟨keepsWaves, keepsStore, keepsBanks⟩ := acquireNow_keeps t (clusterOf w) a
  have res : localResults a [] = (0, []) := by simp [localResults, maskOf]
  have whole := performWaiting_whole hx hl hs (goLocal_scratch lanes mode copying step) res
  refine ⟨_, { x with locals := [] }, congrArg Host.Outcome.next whole, ?_, rfl, ?_, ?_, fun k hk => ?_⟩
  · have found : findWave (acquireNow t (clusterOf w) a) w = some x := by rw [findWave, keepsWaves, waves, ← findWave, hx]
    rw [applyWrites, List.foldl_nil, findWave_on_same found, hl]
    rfl
  · show memReadN (acquireNow t (clusterOf w) a).lstore _ _ = _
    rw [keepsStore, lstore, memReadN_writeN_same hm, show 256 = 2 ^ 8 by rfl, ← Nat.pow_mul]
  · show granFull (acquireNow t (clusterOf w) a) _ _ = true
    rw [granFull_congr keepsBanks, full]
  · show memRead (acquireNow t (clusterOf w) a).lstore k = _
    rw [keepsStore, lstore, memRead_writeN_other _ _ hk]

theorem localAccess_loads {s : State} {w : Nat} {x : Wave} {a : LocalAcc} {ln : LocalLane} (hx : findWave s w = some x)
    (shaped : WaveShaped x) (hm : memWf s.lstore = true) (hl : x.locals = [a]) (lanes : a.lanes = [ln]) (within : ln.lane < x.width)
    (fe : a.fe = 2) (fresh : a.superseded = []) (hs : a.sup = x.super)
    (mode : (bankAt s (clusterOf w) (bankOf ln.addr)).mode = .scr) (copying : (bankAt s (clusterOf w) (bankOf ln.addr)).copying = false)
    (kind : a.kind = .load) (lane : a.group = false) (sub : a.sub = 4) (full : granFull s (clusterOf w) ln.addr = true)
    (clean : granPoison s (clusterOf w) ln.addr = false) :
    ∃ t y, exec (.localAccessPerformed w 0) s = .next t ∧ findWave t w = some y ∧ y.locals = [] ∧
      granFull t (clusterOf w) ln.addr = false ∧ laneReg t w y a.d ln.lane = localWord s (clusterOf w) ln.addr := by
  have step := granuleStep_load (clusterOf w) kind fe sub mode full clean
  obtain ⟨keepsWaves, keepsStore, keepsBanks⟩ := acquireNow_keeps (setFull s (clusterOf w) ln.addr false) (clusterOf w) a
  have res : localResults a [(ln.lane, localNat s (clusterOf w) ln.addr 4, false)] =
      (0, [.lane a.d ln.lane (localWord s (clusterOf w) ln.addr)]) := by
    simp [localResults, maskOf, kind, lane, sub, fresh, loadRegs, laneWrites, extendLoad]
    rfl
  have whole := performWaiting_whole hx hl hs (goLocal_scratch lanes mode copying step) res
  obtain ⟨width, -, g, -, -, svG, svV⟩ := shaped
  have found : findWave (acquireNow (setFull s (clusterOf w) ln.addr false) (clusterOf w) a) w = some x := by
    rw [findWave, keepsWaves, setFull, onBank_waves, ← findWave, hx]
  have spec := applyWrites_spec (s := onWave (acquireNow (setFull s (clusterOf w) ln.addr false) (clusterOf w) a) w fun y =>
      { y with locals := y.locals.eraseIdx 0 }) (w := w) (x := { x with locals := x.locals.eraseIdx 0 })
    (findWave_on_same found) (by rw [onWave_lstore, keepsStore]; exact hm) ⟨width, g, svG, svV⟩
    [.lane a.d ln.lane (localWord s (clusterOf w) ln.addr)] (by simpa [WriteFits] using within)
  obtain ⟨y, hy, ye, -, -, -, -, regs⟩ := spec.wave
  refine ⟨_, y, congrArg Host.Outcome.next whole, hy, ?_, ?_, ?_⟩
  · rw [ye, hl]
    rfl
  · have banks := congrArg State.banks spec.rest
    rw [granFull_congr (banks.trans keepsBanks), granFull_setFull]
  · rw [regs a.d ln.lane within]
    simp [lastLane]

/-! The refill of the fork stack. -/

theorem localWord_putLocalWord_same {s : State} (hm : memWf s.lstore = true) (cl a : Nat) (v : Word) :
    localWord (putLocalWord s cl a v) cl a = v := memWord_put_same hm _ v

theorem localWord_putLocalWord_other (s : State) (cl : Nat) {a c : Nat} (v : Word) (h : c + 4 ≤ a ∨ a + 4 ≤ c) :
    localWord (putLocalWord s cl a v) cl c = localWord s cl c :=
  memWord_put_other s.lstore v (by unfold lsKey; omega)

theorem putWords_rest (s : State) (cl a : Nat) (ws : List Word) :
    putWords s cl a ws = { s with lstore := (putWords s cl a ws).lstore, regPoison := (putWords s cl a ws).regPoison } := by
  induction ws generalizing s a with
  | nil => rfl
  | cons v ws ih => rw [putWords, ih]; rfl

theorem localWord_putWords_below (s : State) (cl : Nat) {a c : Nat} (ws : List Word) (h : c + 4 ≤ a) :
    localWord (putWords s cl a ws) cl c = localWord s cl c := by
  induction ws generalizing s a with
  | nil => rfl
  | cons v ws ih => rw [putWords, ih _ (by omega), localWord_putLocalWord_other s cl v (.inl h)]

theorem localWord_putWords {s : State} (hm : memWf s.lstore = true) (cl a : Nat) (ws : List Word) {i : Nat} (hi : i < ws.length) :
    localWord (putWords s cl a ws) cl (a + 4 * i) = ws[i] := by
  induction ws generalizing s a i with
  | nil => exact absurd hi (Nat.not_lt_zero i)
  | cons v ws ih =>
    cases i with
    | zero =>
      show localWord (putWords (putLocalWord s cl a v) cl (a + 4) ws) cl a = v
      rw [localWord_putWords_below _ cl ws le_rfl, localWord_putLocalWord_same hm]
    | succ i =>
      have hi : i < ws.length := Nat.lt_of_succ_lt_succ hi
      rw [putWords, show a + 4 * (i + 1) = a + 4 + 4 * i by omega, ih (memPutWord_wf hm _ v) _ hi]
      rfl

/-- With a CACHE bank the L1 keeps the lines of a refill. -/
theorem releaseLines_cached {s : State} {q : Asker} (h : l1Ways s q.cl ≠ 0) (vas : List Nat) : releaseLines s q vas = s := by
  have keep : ∀ ls : List Nat, ls.foldl (fun t l => releaseL1 t q.cl q.tag l) s = s := by
    intro ls
    induction ls with
    | nil => rfl
    | cons l ls ih => rw [List.foldl_cons, releaseL1, if_neg h, ih]
  exact keep _

theorem launchOfWave_congr {s t : State} {w : Nat} {x y : Wave} (hx : findWave s w = some x) (hy : findWave t w = some y)
    (team : y.team = x.team) (teams : t.teams = s.teams) (launches : t.launches = s.launches) : launchOfWave t w = launchOfWave s w := by
  simp only [launchOfWave, findTeam, findLaunch, hx, hy, team, teams, launches]

theorem settleWave_launch {s : State} {w l : Nat} {la : Launch} (h : launchOfWave s w = some (l, la)) :
    settleWave s w = settleSlots s w la.ker.sig 64 := by rw [settleWave, h]

/-- The state of a refill before idle and waiting slots act: the block's words on chip. -/
def refilled (s : State) (w : Nat) (x : Wave) (ws : List Word) : State :=
  onWave (putWords s (clusterOf w) (entryAddr x 0) ws) w fun y => { y with depth := 8, spilled := y.spilled - 1 }

theorem findWave_putWords (s : State) (cl a : Nat) (ws : List Word) (v : Nat) : findWave (putWords s cl a ws) v = findWave s v := by
  rw [putWords_rest]
  rfl

theorem refilled_set {s : State} {w : Nat} {x : Wave} (hx : findWave s w = some x) (ws : List Word) :
    WaveSet { s with lstore := (refilled s w x ws).lstore, regPoison := (refilled s w x ws).regPoison } w
      { x with depth := 8, spilled := x.spilled - 1 } (refilled s w x ws) := by
  have found := findWave_putWords s (clusterOf w) (entryAddr x 0) ws
  refine ⟨?_, findWave_on_same ((found w).trans hx), fun v hv => (findWave_on_other _ _ hv).trans (found v)⟩
  rw [refilled, putWords_rest]
  rfl

theorem refilled_keeps (s : State) (w : Nat) (x : Wave) (ws : List Word) :
    (refilled s w x ws).teams = s.teams ∧ (refilled s w x ws).launches = s.launches := by
  rw [refilled, putWords_rest]
  exact ⟨rfl, rfl⟩

theorem localWord_refilled {s : State} (hm : memWf s.lstore = true) (w : Nat) (x : Wave) (ws : List Word) {i : Nat} (hi : i < ws.length) :
    localWord (refilled s w x ws) (clusterOf w) (entryAddr x 0 + 4 * i) = ws[i] :=
  localWord_putWords hm (clusterOf w) (entryAddr x 0) ws hi

theorem forkAsker_path (w : Nat) (tag : AsidTag) :
    (forkAsker w tag).tag = tag ∧ (forkAsker w tag).sup = false ∧ (forkAsker w tag).cl = clusterOf w := ⟨rfl, rfl, rfl⟩

/-- The words of a block as they arrive, none poisoned. -/
def blockArrived (v : Nat → Word) : List (Nat × Nat × Bool) := (List.range 64).map fun i => (i, (v i).toNat, false)

theorem blockArrived_words (v : Nat → Word) : (blockArrived v).map (fun r => BitVec.ofNat 32 r.2.1) = (List.range 64).map v := by
  simp [blockArrived]

theorem blockArrived_clean (v : Nat → Word) : ((blockArrived v).any fun r => r.2.2) = false := by simp [blockArrived]

theorem blockArrived_whole (v : Nat → Word) (base : Nat) :
    (((List.range 64).map fun i => (i, base + 4 * i)).filter fun k => !((blockArrived v).any fun r => r.1 = k.1)) = [] := by
  simp [blockArrived]

theorem refill_arrived {s : State} {w l base : Nat} {x : Wave} {la : Launch} {p : Phys} {e : DWord} (v : Nat → Word)
    (hx : findWave s w = some x) (hl : launchOfWave s w = some (l, la)) (hb : x.spillBase + 256 * (x.spilled - 1) = base)
    (depth : x.depth = 0) (spilled : x.spilled ≠ 0) (alive : x.alive ≠ 0) (canon : canonical base = true)
    (quiet : shooting s la.tag.asid base = false) (trans : translate s la.tag base .load false = (.ok p e, s))
    (got : gatherWords s (forkAsker w la.tag) 8 ((List.range 64).map fun i => (i, base + 4 * i)) = blockArrived v)
    (ways : l1Ways s (clusterOf w) ≠ 0) : refill s w = settleWave (refilled s w x ((List.range 64).map v)) w := by
  obtain ⟨tag, sup, cl⟩ := forkAsker_path w la.tag
  have kept := releaseLines_cached (q := forkAsker w la.tag) ways
  simp only [refill, hx, hl, hb, depth, spilled, alive, canon, tag, sup, cl, quiet, trans, got, kept, blockArrived_whole, blockArrived_clean,
    blockArrived_words, ne_eq, not_true_eq_false, decide_false, Bool.or_self, Bool.false_eq_true, if_false, Bool.not_true, List.isEmpty_nil,
    refilled]

theorem forkStack_refills {s : State} {w l base : Nat} {x : Wave} {la : Launch} {p : Phys} {e : DWord} (v : Nat → Word)
    (hx : findWave s w = some x) (hl : launchOfWave s w = some (l, la)) (hm : memWf s.lstore = true)
    (hb : x.spillBase + 256 * (x.spilled - 1) = base) (depth : x.depth = 0) (spilled : x.spilled ≠ 0) (alive : x.alive ≠ 0)
    (canon : canonical base = true) (quiet : shooting s la.tag.asid base = false)
    (trans : translate s la.tag base .load false = (.ok p e, s))
    (got : gatherWords s (forkAsker w la.tag) 8 ((List.range 64).map fun i => (i, base + 4 * i)) = blockArrived v)
    (ways : l1Ways s (clusterOf w) ≠ 0) :
    ∃ t, exec (.forkStackRefill w) s = .next (settleSlots t w la.ker.sig 64) ∧
      WaveSet { s with lstore := t.lstore, regPoison := t.regPoison } w { x with depth := 8, spilled := x.spilled - 1 } t ∧
      ∀ i < 64, localWord t (clusterOf w) (entryAddr x 0 + 4 * i) = v i := by
  have set := refilled_set hx ((List.range 64).map v)
  obtain ⟨teams, launches⟩ := refilled_keeps s w x ((List.range 64).map v)
  have launch : launchOfWave (refilled s w x ((List.range 64).map v)) w = some (l, la) := by
    rw [launchOfWave_congr hx set.wave rfl teams launches, hl]
  refine ⟨_, ?_, set, fun i hi => ?_⟩
  · rw [← settleWave_launch launch, ← refill_arrived v hx hl hb depth spilled alive canon quiet trans got ways]
    rfl
  · rw [localWord_refilled hm w x _ (by simpa using hi), List.getElem_map, List.getElem_range]

/-! The times of a slot and of an operand latch, and a pending trap. -/

theorem waveSet_onSlot {s : State} {r : SlotRef} {x : Wave} (hx : findWave s r.wave = some x) (f : Slot → Slot) :
    WaveSet s r.wave (withSlot x r.b (f (slotOf x r.b))) (onSlot s r f) :=
  ⟨rfl, onSlot_eq s r f hx, fun _ hv => findWave_on_other s _ hv⟩

theorem slot_ages (sl : Slot) (old : Bool) : (if old = true then { sl with aged := true } else sl) = { sl with aged := sl.aged || old } := by
  cases old
  · rw [Bool.or_false]
    rfl
  · rw [Bool.or_true]
    rfl

theorem latchHold_ends {s : State} {core n : Nat} {e : Latch} {x : Wave} (he : (s.latches.filter fun e => e.core = core)[n]? = some e)
    (hx : findWave s e.slot.wave = some x) : exec (.latchHoldTimeout core n) s =
      .next (if 64 ≤ cyclesSince s (clusterOf e.slot.wave) (slotOf x e.slot.b).issuedAt then { s with latches := s.latches.erase e } else s) := by
  have ends : holdOver s e = decide (64 ≤ cyclesSince s (clusterOf e.slot.wave) (slotOf x e.slot.b).issuedAt) := by
    simp [holdOver, longAgo, slotAt, hx]
  show execLatchHoldTimeout core n s = _
  rw [execLatchHoldTimeout, he, Option.filter_some, ends]
  by_cases idle : 64 ≤ cyclesSince s (clusterOf e.slot.wave) (slotOf x e.slot.b).issuedAt
  · simp only [idle, decide_true, if_true]
  · simp only [idle, decide_false, Bool.false_eq_true, if_false]

theorem trapEntry_enters {s : State} {w : Nat} {x : Wave} {i : TrapInfo} (hx : findWave s w = some x) (hp : x.pending = some i)
    (h : x.progress = none ∨ i.cause = 11) : exec (.trapEntry w) s = .next (takeTrap s w i) := by
  show execTrapEntry w s = _
  rcases h with h | h <;> simp [execTrapEntry, hx, hp, h]

/-- Settles O33: each event by the lemma about it above; the writes of a result that lands fit the wave's registers. -/
theorem waveEvents : Obligations.WaveEvents := by
  unfold Obligations.WaveEvents
  refine ⟨?_, ?_, ?_, fun s core n e x he hx => latchHold_ends he hx, ?_, fun s w x i hx hp h => trapEntry_enters hx hp h⟩
  · intro s w x e rest hx shaped hm hl hs fits
    refine loadCompletion_lands hx shaped hm hl hs fun r hr => ?_
    have := fits r hr
    cases r <;> exact this
  · intro s w x a ln cl hx shaped hm hl lanes within fe fresh hs mode copying
    exact ⟨fun kind empty => localAccess_stores hx hm hl lanes fe hs mode copying kind empty, fun kind lane sub full clean =>
      localAccess_loads hx shaped hm hl lanes within fe fresh hs mode copying kind lane sub full clean⟩
  · intro s w x l la v base hx hl hm depth spilled alive canon quiet trans got ways
    obtain ⟨p, e, trans⟩ := trans
    exact forkStack_refills v hx hl hm rfl depth spilled alive canon quiet trans got ways
  · intro s r x hx past left set
    have count : ∀ tm : Option Timer, (tm.filter fun t => !timeUp s r t) = left tm := by
      intro tm
      cases tm with
      | none => rfl
      | some t =>
        show Option.filter _ (some t) = if t.cycles ≤ past t.since then none else some t
        by_cases up : t.cycles ≤ past t.since <;> simp [Option.filter, timeUp, past, up]
    refine ⟨⟨_, rfl, ?_⟩, ⟨_, rfl, ?_⟩, fun time run since => ⟨_, rfl, ?_⟩⟩
    · simp only [set, ← count]
      exact waveSet_onSlot hx fun sl => { sl with yielding := sl.yielding.filter fun t => !timeUp s r t }
    · simp only [set, ← count]
      exact waveSet_onSlot hx fun sl => { sl with ranked := sl.ranked.filter fun t => !timeUp s r t }
    · have old : ((slotOf x r.b).st = .run && (slotOf x r.b).since.any (longAgo s r)) = decide (64 ≤ past time) := by
        rw [run, since]
        rfl
      have step := waveSet_onSlot hx fun sl => if sl.st = .run && sl.since.any (longAgo s r) then { sl with aged := true } else sl
      beta_reduce at step
      rw [slot_ages, old] at step
      exact step

end Sys2Proof.Machine
end
section
/-! Rows of tiles (O27). What the entries of a tile are after a write, and the three effects once no operation stands before them. -/

namespace Sys2Proof.Machine

/-! Entries. -/

theorem tileEntry_put_same (s : State) (cl p e v : Nat) : tileEntry (putTileEntry s cl p e v) cl p e = v := by
  unfold putTileEntry
  split
  · next hv => simp only [tileEntry, kvGet, kvFind_erase_same, Option.getD_none, hv]
  · simp only [tileEntry, kvGet, kvFind_put_same, Option.getD_some]

theorem tileEntry_put_other (s : State) {cl p e cl' p' e' : Nat} (v : Nat) (h : (cl', p', e') ≠ (cl, p, e)) :
    tileEntry (putTileEntry s cl p e v) cl' p' e' = tileEntry s cl' p' e' := by
  unfold putTileEntry
  split
  · simp only [tileEntry, kvGet, kvFind_erase_other _ h]
  · simp only [tileEntry, kvGet, kvFind_put_other _ _ h.symm]

theorem putTileEntry_frame (s : State) (cl p e v : Nat) : ∃ ts, putTileEntry s cl p e v = { s with tiles := ts } := by
  unfold putTileEntry
  split <;> exact ⟨_, rfl⟩

/-- Writing entries of one tile from a list of places and values. -/
def putEntries (s : State) (cl p : Nat) (es : List (Nat × Nat)) : State := es.foldl (fun t e => putTileEntry t cl p e.1 e.2) s

theorem putEntries_frame (s : State) (cl p : Nat) (es : List (Nat × Nat)) : ∃ ts, putEntries s cl p es = { s with tiles := ts } := by
  induction es generalizing s with
  | nil => exact ⟨_, rfl⟩
  | cons e es ih =>
    obtain ⟨ts, put⟩ := putTileEntry_frame s cl p e.1 e.2
    obtain ⟨ts', rest⟩ := ih (putTileEntry s cl p e.1 e.2)
    refine ⟨ts', (show putEntries s cl p (e :: es) = _ from rest).trans ?_⟩
    rw [put]

theorem tileEntry_putEntries_other (s : State) {cl p cl' p' e : Nat} (es : List (Nat × Nat))
    (h : ¬ (cl' = cl ∧ p' = p ∧ e ∈ es.map (·.1))) : tileEntry (putEntries s cl p es) cl' p' e = tileEntry s cl' p' e := by
  induction es generalizing s with
  | nil => rfl
  | cons d es ih =>
    show tileEntry (putEntries (putTileEntry s cl p d.1 d.2) cl p es) cl' p' e = _
    rw [ih _ fun hm => h ⟨hm.1, hm.2.1, List.mem_cons_of_mem _ hm.2.2⟩]
    refine tileEntry_put_other s _ fun he => h ?_
    obtain ⟨hc, hp, he⟩ : cl' = cl ∧ p' = p ∧ e = d.1 := by simpa using he
    exact ⟨hc, hp, he ▸ List.mem_cons_self⟩

/-- Where one place gets one value only, the entry there has it. -/
theorem tileEntry_putEntries_same (s : State) {cl p e v : Nat} {es : List (Nat × Nat)} (hm : (e, v) ∈ es)
    (one : ∀ w, (e, w) ∈ es → w = v) : tileEntry (putEntries s cl p es) cl p e = v := by
  induction es generalizing s with
  | nil => cases hm
  | cons d es ih =>
    show tileEntry (putEntries (putTileEntry s cl p d.1 d.2) cl p es) cl p e = v
    by_cases later : e ∈ es.map (·.1)
    · obtain ⟨⟨e', w⟩, hw, rfl⟩ := List.mem_map.1 later
      refine ih _ ?_ fun w hw => one w (List.mem_cons_of_mem _ hw)
      rwa [one w (List.mem_cons_of_mem _ hw)] at hw
    · rw [tileEntry_putEntries_other _ es fun h => later h.2.2]
      rcases List.mem_cons.1 hm with rfl | hm
      · exact tileEntry_put_same ..
      · exact absurd (List.mem_map_of_mem (f := (·.1)) hm) later

theorem kvFind_filter_key {κ α : Type} [DecidableEq κ] (t : Kv κ α) (p : κ → Bool) (k : κ) :
    kvFind (t.filter fun e => p e.1) k = if p k then kvFind t k else none := by
  induction t with
  | nil => simp
  | cons e t ih =>
    obtain ⟨j, a⟩ := e
    by_cases hj : p j = true <;> by_cases hk : j = k
    · simp [kvFind, hk, hk ▸ hj]
    · simp [kvFind, hj, hk, ih]
    · simp [hk ▸ hj, hk, ih]
    · simp [kvFind, hj, hk, ih]

theorem tileEntry_zeroTile (s : State) (cl p cl' p' e : Nat) :
    tileEntry (zeroTile s cl p) cl' p' e = if cl' = cl ∧ p' = p then 0 else tileEntry s cl' p' e := by
  rw [tileEntry, zeroTile, kvGet, kvFind_filter_key s.tiles (fun k => !(k.1 = cl && k.2.1 = p))]
  by_cases h : cl' = cl ∧ p' = p
  · simp [h]
  · rw [if_neg h]
    have other : (!(decide (cl' = cl) && decide (p' = p))) = true := by simpa [imp_iff_not_or] using h
    simp only [other, if_true]
    rfl

/-! The places of a row. -/

/-- Under a wave of 32 or 64 lanes, distinct registers and lanes have distinct entries. -/
theorem rowEntry_inj {width row m l m' l' : Nat} (hw : width = 32 ∨ width = 64) (hl : l < width) (hl' : l' < width)
    (h : rowEntry width row m l = rowEntry width row m' l') : m = m' ∧ l = l' := by
  unfold rowEntry at h
  rcases hw with rfl | rfl <;> omega

/-! Issue. -/

/-- With every operation of its team formed, nothing is due. -/
theorem formDue_quiet {s : State} {c : Ctx} (h : MatQuiet s c) : formDue s c.x.team = s := by
  have none_due : (s.mats.filter fun m => m.2.team = c.x.team && !m.2.formed) = [] := by
    refine List.filter_eq_nil_iff.2 fun m hm => ?_
    by_cases ht : m.2.team = c.x.team
    · simp [h m hm ht]
    · simp [ht]
  rw [formDue, none_due, List.foldl_nil]

/-- An instruction whose effect waits in the state that it met leaves that state. -/
theorem exec_waits {i : Instr} {s : State} {c : Ctx} (h : Issues i s c) {k : Ctx → State → Effect} (hi : exec i s = issueInstr i s k)
    (hk : k c s = .wait s) : exec i s = .next s := by
  rw [hi, issueInstr_sound h, hk, finish, if_pos rfl]

/-- What the three instructions do: nothing with empty `act`, wait for an operation on the tile, or `go` on. -/
def tileEffect (tile : Nat) (la : Nat) (go : Ctx → State → Effect) (c : Ctx) (s : State) : Effect :=
  if c.act = 0 then .done (formDue s c.x.team) 0 la []
  else if tileBusy (formDue s c.x.team) c.x.team tile none then .wait (formDue s c.x.team)
  else go c (formDue s c.x.team)

section

variable {i : Instr} {s : State} {c : Ctx} {tile la : Nat} {go : Ctx → State → Effect}

theorem tileEffect_waits (h : Issues i s c) (quiet : MatQuiet s c) (hi : exec i s = issueInstr i s (tileEffect tile la go)) (some : c.act ≠ 0)
    (busy : tileBusy s c.x.team tile none = true) : exec i s = .next s :=
  exec_waits h hi (by rw [tileEffect, if_neg some, formDue_quiet quiet, if_pos busy])

theorem tileEffect_empty (h : Issues i s c) (quiet : MatQuiet s c) (hi : exec i s = issueInstr i s (tileEffect tile la go)) (none : c.act = 0) :
    Completes i s c (s, la, []) :=
  completes_nil h hi (by rw [tileEffect, if_pos none, formDue_quiet quiet])

theorem tileEffect_goes (quiet : MatQuiet s c) (some : c.act ≠ 0) (idle : tileBusy s c.x.team tile .none = false) :
    tileEffect tile la go c s = go c s := by
  rw [tileEffect, if_neg some, formDue_quiet quiet, idle, if_neg Bool.false_ne_true]

end

/-- The registers that an `mmrd` gives, and whether an entry of each is poisoned. -/
def rowValue (f : MmrdOps) (c : Ctx) (s : State) (m l : Nat) : Nat × Bool :=
  let e (k : Nat) := tileEntry s c.cl (physTile c.t f.tile.toNat) k
  if f.bf16 then
    let p := rowPair c.x.width f.row0.toNat m l
    (entryOut fmtBf16 c.x.fpmode (e p.1) + 2 ^ 16 * entryOut fmtBf16 c.x.fpmode (e p.2), entryPoison (e p.1) || entryPoison (e p.2))
  else
    let k := rowEntry c.x.width f.row0.toNat m l
    (entryOut fmtF32 c.x.fpmode (e k), entryPoison (e k))

/-- How many registers an `mmrd` gives in each lane. -/
def rowRegs (f : MmrdOps) (c : Ctx) : Nat :=
  let h := c.x.width / 32
  if f.bf16 then f.n.toNat / (2 * h) else f.n.toNat / h

def readRows (f : MmrdOps) (c : Ctx) (s : State) : Effect :=
  let bad := c.lanes.filter fun l => (List.range (rowRegs f c)).any fun m => (rowValue f c s m l).2
  let ws := (c.lanes.filter fun l => !bad.contains l).flatMap fun l => (List.range (rowRegs f c)).map fun m =>
    RegWrite.lane (f.d.toNat + m) l (BitVec.ofNat 32 (rowValue f c s m l).1)
  .done s (maskOf bad) f.la.toNat ws

theorem exec_mmrd (f : MmrdOps) (s : State) :
    exec (.mmrd f) s = issueInstr (.mmrd f) s (tileEffect f.tile.toNat f.la.toNat (readRows f)) := rfl

/-- The entries that an `mmwr` writes, in the order of its lanes. -/
def rowsWritten (f : MmwrOps) (c : Ctx) (s : State) : List (Nat × Nat) :=
  c.lanes.flatMap fun l => (List.range (f.n.toNat / (c.x.width / 32))).map fun m =>
    (rowEntry c.x.width f.row0.toNat m l, encodeE (decodeF fmtF32 (readLane s c.w c.x (f.a.toNat + m) l).toNat))

theorem exec_mmwr (f : MmwrOps) (s : State) : exec (.mmwr f) s = issueInstr (.mmwr f) s (tileEffect f.tile.toNat 0 fun c s =>
    results (putEntries s c.cl (physTile c.t f.tile.toNat) (rowsWritten f c s)) []) := by
  simp only [putEntries, rowsWritten, List.foldl_flatMap, List.foldl_map]
  rfl

theorem exec_mmwrZero (f : TileOps) (s : State) : exec (.mmwrZero f) s = issueInstr (.mmwrZero f) s (tileEffect f.tile.toNat 0 fun c s =>
    results (zeroTile s c.cl (physTile c.t f.tile.toNat)) []) := rfl

/-- Without a poisoned entry every lane gets its registers. -/
theorem readRows_clean {f : MmrdOps} {c : Ctx} {s : State}
    (clean : ∀ e, entryPoison (tileEntry s c.cl (physTile c.t f.tile.toNat) e) = false) :
    readRows f c s = .done s 0 f.la.toNat (c.lanes.flatMap fun l => (List.range (rowRegs f c)).map fun m =>
      .lane (f.d.toNat + m) l (BitVec.ofNat 32 (rowValue f c s m l).1)) := by
  have good : ∀ m l, (rowValue f c s m l).2 = false := by
    intro m l
    unfold rowValue
    split <;> simp only [clean, Bool.or_self]
  have bad : (c.lanes.filter fun l => (List.range (rowRegs f c)).any fun m => (rowValue f c s m l).2) = [] := by simp [good]
  have all : (c.lanes.filter fun l => !([] : List Nat).contains l) = c.lanes := by simp
  rw [readRows]
  simp only [bad, all]
  rfl

theorem laneRows_fit {i : Instr} {s : State} {c : Ctx} (h : Issues i s c) (d n : Nat) (v : Nat → Nat → Word) :
    ∀ r ∈ c.lanes.flatMap fun l => (List.range n).map fun m => RegWrite.lane (d + m) l (v m l), WriteFits c.x r := by
  intro r hr
  obtain ⟨l, hl, hr⟩ := List.mem_flatMap.1 hr
  obtain ⟨m, -, rfl⟩ := List.mem_map.1 hr
  exact lanes_lt h hl

theorem mmrd_reads {f : MmrdOps} {s : State} {c : Ctx} (h : Issues (.mmrd f) s c) (quiet : MatQuiet s c) (some : c.act ≠ 0)
    (idle : tileBusy s c.x.team f.tile.toNat none = false)
    (clean : ∀ e, entryPoison (tileEntry s c.cl (physTile c.t f.tile.toNat) e) = false) :
    Completes (.mmrd f) s c (s, f.la.toNat, c.lanes.flatMap fun l => (List.range (rowRegs f c)).map fun m =>
      .lane (f.d.toNat + m) l (BitVec.ofNat 32 (rowValue f c s m l).1)) :=
  completes_results h (exec_mmrd f s) ((tileEffect_goes quiet some idle).trans (readRows_clean clean)) (laneRows_fit h _ _ _)

theorem mem_rowsWritten {f : MmwrOps} {c : Ctx} {s : State} {e v : Nat} : (e, v) ∈ rowsWritten f c s ↔
    ∃ l ∈ c.lanes, ∃ m < f.n.toNat / (c.x.width / 32), e = rowEntry c.x.width f.row0.toNat m l ∧
      v = encodeE (decodeF fmtF32 (readLane s c.w c.x (f.a.toNat + m) l).toNat) := by
  simp only [rowsWritten, List.mem_flatMap, List.mem_map, List.mem_range, Prod.mk.injEq, eq_comm]

theorem mmwr_writes {f : MmwrOps} {s : State} {c : Ctx} (h : Issues (.mmwr f) s c) (quiet : MatQuiet s c) (some : c.act ≠ 0)
    (idle : tileBusy s c.x.team f.tile.toNat none = false) :
    Completes (.mmwr f) s c (putEntries s c.cl (physTile c.t f.tile.toNat) (rowsWritten f c s), 0, []) :=
  completes_nil h (exec_mmwr f s) (tileEffect_goes quiet some idle)

theorem mmwrZero_clears {f : TileOps} {s : State} {c : Ctx} (h : Issues (.mmwrZero f) s c) (quiet : MatQuiet s c) (some : c.act ≠ 0)
    (idle : tileBusy s c.x.team f.tile.toNat none = false) :
    Completes (.mmwrZero f) s c (zeroTile s c.cl (physTile c.t f.tile.toNat), 0, []) :=
  completes_nil h (exec_mmwrZero f s) (tileEffect_goes quiet some idle)

/-- Settles O27: each instruction waits, does nothing or goes on by `tileEffect`; what it then leaves of the entries is read off the
list of places that it writes. -/
theorem tileRows : Obligations.TileRows := by
  unfold Obligations.TileRows
  refine ⟨fun i tile s c hi h quiet => ?_, fun f s c h quiet some => ?_, fun f s c h quiet some idle hw => ?_,
    fun f s c h quiet some idle => ?_⟩
  · rcases hi with ⟨f, rfl, rfl⟩ | ⟨f, rfl, rfl⟩ | ⟨f, rfl, rfl⟩
    · exact ⟨tileEffect_waits h quiet (exec_mmrd f s), fun none => ⟨_, tileEffect_empty h quiet (exec_mmrd f s) none⟩⟩
    · exact ⟨tileEffect_waits h quiet (exec_mmwr f s), fun none => ⟨_, tileEffect_empty h quiet (exec_mmwr f s) none⟩⟩
    · exact ⟨tileEffect_waits h quiet (exec_mmwrZero f s), fun none => ⟨_, tileEffect_empty h quiet (exec_mmwrZero f s) none⟩⟩
  · intro phys height mode entry upper got idle clean
    have reads := mmrd_reads h quiet some idle clean
    refine ⟨fun hb => ?_, fun hb => ?_⟩
    · simp only [rowRegs, rowValue, hb, Bool.false_eq_true, if_false] at reads
      exact reads
    · have below : ∀ m l, 32 * (f.row0.toNat + 2 * (m * height + l / 32) + 1) + l % 32 = upper m l + 32 := fun m l => by
        simp only [upper]; omega
      simp only [rowRegs, rowValue, hb, if_true, rowPair] at reads
      simp only [← below]
      exact reads
  · intro phys entry cnt
    refine ⟨_, mmwr_writes h quiet some idle, ?_, fun l hl m hm => ?_, fun cl p e other => ?_⟩
    · obtain ⟨ts, frame⟩ := putEntries_frame s c.cl (physTile c.t f.tile.toNat) (rowsWritten f c s)
      rw [frame]
    · refine tileEntry_putEntries_same s (mem_rowsWritten.2 ⟨l, hl, m, hm, rfl, rfl⟩) fun w hw' => ?_
      obtain ⟨l', hl', m', hm', he, rfl⟩ := mem_rowsWritten.1 hw'
      obtain ⟨rfl, rfl⟩ := rowEntry_inj hw (lanes_lt h hl) (lanes_lt h hl') he
      rfl
    · refine tileEntry_putEntries_other s _ fun ⟨hc, hp, he⟩ => other ⟨hc, hp, ?_⟩
      obtain ⟨⟨e, v⟩, hm, rfl⟩ := List.mem_map.1 he
      obtain ⟨l, hl, m, hm, he, -⟩ := mem_rowsWritten.1 hm
      exact ⟨l, hl, m, hm, he⟩
  · intro phys
    refine ⟨_, mmwrZero_clears h quiet some idle, rfl, fun e => ?_, fun cl p e other => ?_⟩
    · rw [tileEntry_zeroTile, if_pos ⟨rfl, rfl⟩]
    · exact (tileEntry_zeroTile ..).trans (if_neg other)

end Sys2Proof.Machine
end
section
/-! Rounding (O5, O6). The cut of a magnitude at a power of two, the order of a format's encodings, and one rounding into a format. -/

namespace Sys2Proof.Machine

/-! Cutting a magnitude. -/

/-- `k` is the whole part of `n` parts of which `unit` make one, and the remainder `rem` out of `one` says where in between `n` lies. -/
structure IsCut (n unit k rem one : Nat) : Prop where
  floor : k * unit ≤ n
  next : n < (k + 1) * unit
  exact : rem = 0 ↔ n = k * unit
  above : one < 2 * rem ↔ (2 * k + 1) * unit < 2 * n
  tie : 2 * rem = one ↔ 2 * n = (2 * k + 1) * unit

theorem IsCut.scale {n unit k rem one : Nat} (h : IsCut n unit k rem one) {p : Nat} (hp : 0 < p) :
    IsCut (n * p) (unit * p) k rem one where
  floor := by rw [← mul_assoc]; exact Nat.mul_le_mul_right p h.floor
  next := by rw [← mul_assoc]; exact (Nat.mul_lt_mul_right hp).2 h.next
  exact := by rw [h.exact, ← mul_assoc, Nat.mul_left_inj hp.ne']
  above := by rw [h.above, ← mul_assoc, ← mul_assoc, Nat.mul_lt_mul_right hp]
  tie := by rw [h.tie, ← mul_assoc, ← mul_assoc, Nat.mul_left_inj hp.ne']

theorem isCut_whole (k : Nat) : IsCut k 1 k 0 1 where
  floor := by omega
  next := by omega
  exact := by omega
  above := by omega
  tie := by omega

theorem isCut_divMod (m : Nat) {unit : Nat} (hu : 0 < unit) : IsCut m unit (m / unit) (m % unit) unit := by
  have parts : m = m / unit * unit + m % unit := by rw [mul_comm]; exact (Nat.div_add_mod m unit).symm
  have below := Nat.mod_lt m hu
  generalize m / unit = k, m % unit = rem at *
  have half : (2 * k + 1) * unit = 2 * (k * unit) + unit := by ring
  have next : (k + 1) * unit = k * unit + unit := by ring
  constructor <;> omega

/-- A remainder that lies below half. -/
theorem isCut_small {m unit : Nat} (h : 2 * m < unit) : IsCut m unit 0 (if m = 0 then 0 else 1) 4 := by
  by_cases hm : m = 0 <;> simp only [hm, if_true, if_false] <;> constructor <;> omega

theorem two_pow_mul_le {a b c d : Nat} (h : a + b ≤ c + d) : 2 ^ a * 2 ^ b ≤ 2 ^ c * 2 ^ d := by
  rw [← pow_add, ← pow_add]
  exact Nat.pow_le_pow_right (by omega) h

/-- What `cutAt` gives, as parts of any power of two that divides both the magnitude and its unit. -/
theorem cutAt_isCut (m : Nat) {e q b : Int} (he : b ≤ e) (hq : b ≤ q) : IsCut (m * 2 ^ (e - b).toNat) (2 ^ (q - b).toNat)
    (cutAt m e q).1 (cutAt m e q).2.1 (cutAt m e q).2.2 := by
  unfold cutAt
  split
  · next hqe =>
    have shift : (e - b).toNat = (e - q).toNat + (q - b).toNat := by omega
    have := (isCut_whole (m * 2 ^ (e - q).toNat)).scale (Nat.two_pow_pos (q - b).toNat)
    rwa [one_mul, mul_assoc, ← pow_add, ← shift] at this
  · next hqe =>
    have shift : (q - b).toNat = (q - e).toNat + (e - b).toNat := by omega
    simp only
    rw [shift, pow_add]
    split
    · next far =>
      have low : m < 2 ^ (Nat.log2 m + 1) := Nat.lt_log2_self
      have high : 2 ^ (Nat.log2 m + 2) ≤ 2 ^ (q - e).toNat := Nat.pow_le_pow_right (by omega) (by omega)
      exact (isCut_small (by rw [pow_succ] at high; omega)).scale (Nat.two_pow_pos _)
    · exact (isCut_divMod m (Nat.two_pow_pos _)).scale (Nat.two_pow_pos _)

/-- The directions that cut: towards zero, and towards the infinity of the other sign. -/
def Cuts (r : Rnd) (neg : Bool) : Prop := r = .rtz ∨ (r = .rup ∧ neg = true) ∨ (r = .rdn ∧ neg = false)

theorem roundsUp_nearest {n unit k rem one : Nat} (h : IsCut n unit k rem one) (neg : Bool) :
    roundsUp .rne neg k rem one = true ↔ (2 * k + 1) * unit < 2 * n ∨ (2 * n = (2 * k + 1) * unit ∧ k % 2 = 1) := by
  simp [roundsUp, h.above, h.tie]

theorem roundsUp_cuts {r : Rnd} {neg : Bool} (h : Cuts r neg) (k rem one : Nat) : roundsUp r neg k rem one = false := by
  rcases h with rfl | ⟨rfl, rfl⟩ | ⟨rfl, rfl⟩ <;> simp [roundsUp]

theorem roundsUp_away {n unit k rem one : Nat} (h : IsCut n unit k rem one) {r : Rnd} {neg : Bool} (near : r ≠ .rne)
    (away : ¬ Cuts r neg) : roundsUp r neg k rem one = true ↔ n ≠ k * unit := by
  rw [Ne, ← h.exact]
  cases r <;> cases neg <;> simp [Cuts, roundsUp] at *

/-- The rounded whole part is the integer next to the magnitude in the direction. -/
theorem IsCut.roundsToInteger {n unit k rem one : Nat} (h : IsCut n unit k rem one) (r : Rnd) (neg : Bool) :
    RoundsToInteger r neg n unit (if roundsUp r neg k rem one then k + 1 else k) := by
  have floor := h.floor
  have next := h.next
  have step : (k + 1) * unit = k * unit + unit := by ring
  have half : (2 * k + 1) * unit = 2 * (k * unit) + unit := by ring
  have next_half : (2 * (k + 1) + 1) * unit = 2 * (k * unit) + 3 * unit := by ring
  unfold RoundsToInteger
  simp only [mul_assoc 2]
  by_cases near : r = .rne
  · subst near
    have up := roundsUp_nearest h neg
    rw [if_pos rfl]
    split
    · next hu =>
      have := up.1 hu
      omega
    · next hu =>
      have := mt up.2 hu
      omega
  · rw [if_neg near]
    by_cases cuts : Cuts r neg
    · rw [roundsUp_cuts cuts]
      exact (if_pos cuts).mpr ⟨floor, next⟩
    · have up := roundsUp_away h near cuts
      refine (if_neg cuts).mpr ?_
      split
      · next hu =>
        have := up.1 hu
        omega
      · next hu =>
        have := not_not.1 (mt up.2 hu)
        omega

/-! The encodings of a format in order. -/

/-- An index is that of `k` steps of `2^(j+1)` halves. -/
theorem halvesOf_steps {frac j k : Nat} (h : j = 0 ∨ 2 ^ frac ≤ k) (hk : k ≤ 2 * 2 ^ frac) :
    halvesOf frac (j * 2 ^ frac + k) = 2 * k * 2 ^ j := by
  have pos := Nat.two_pow_pos frac
  unfold halvesOf
  split
  · next low =>
    have : j = 0 := by
      rcases h with h | h
      · exact h
      · omega
    subst this
    simp
  · next high =>
    have hk' : 2 ^ frac ≤ k := by
      rcases h with rfl | h
      · omega
      · exact h
    rcases Nat.lt_or_ge k (2 * 2 ^ frac) with lt | ge
    · have e : j * 2 ^ frac + k = (k - 2 ^ frac) + 2 ^ frac * (j + 1) := by rw [mul_comm, mul_add, mul_one]; omega
      rw [e, Nat.add_mul_mod_self_left, Nat.add_mul_div_left _ _ pos, Nat.mod_eq_of_lt (by omega), Nat.div_eq_of_lt (by omega)]
      congr 2 <;> omega
    · obtain rfl : k = 2 * 2 ^ frac := by omega
      have e : j * 2 ^ frac + 2 * 2 ^ frac = 2 ^ frac * (j + 2) := by ring
      rw [e, Nat.mul_mod_right, Nat.mul_div_cancel_left _ pos, show j + 2 - 1 = j + 1 from rfl, pow_succ]
      ring

theorem index_steps (frac i : Nat) : ∃ j k, i = j * 2 ^ frac + k ∧ (j = 0 ∨ 2 ^ frac ≤ k) ∧ k < 2 * 2 ^ frac := by
  have pos := Nat.two_pow_pos frac
  rcases Nat.lt_or_ge i (2 ^ frac) with lt | ge
  · exact ⟨0, i, by omega, .inl rfl, by omega⟩
  · have one : 1 ≤ i / 2 ^ frac := (Nat.one_le_div_iff pos).2 ge
    have below := Nat.mod_lt i pos
    refine ⟨i / 2 ^ frac - 1, 2 ^ frac + i % 2 ^ frac, ?_, .inr (by omega), by omega⟩
    have parts := Nat.div_add_mod' i (2 ^ frac)
    obtain ⟨d, hd⟩ := Nat.exists_eq_add_of_le one
    rw [hd] at parts ⊢
    rw [Nat.add_sub_cancel_left]
    rw [add_mul, one_mul] at parts
    omega

theorem halvesOf_strictMono (frac : Nat) : StrictMono (halvesOf frac) := by
  refine strictMono_nat_of_lt_succ fun i => ?_
  obtain ⟨j, k, rfl, h, hk⟩ := index_steps frac i
  rw [add_assoc, halvesOf_steps h hk.le, halvesOf_steps (h.imp_right fun h => by omega) (by omega)]
  exact (Nat.mul_lt_mul_right (Nat.two_pow_pos j)).2 (by omega)

theorem halvesOf_even (frac i : Nat) : halvesOf frac i % 2 = 0 := by
  obtain ⟨j, k, rfl, h, hk⟩ := index_steps frac i
  rw [halvesOf_steps h hk.le, mul_assoc]
  omega

/-- Every magnitude of that many significant bits is one of the encodings'. -/
theorem halvesOf_reaches (frac : Nat) {j k : Nat} (hk : k ≤ 2 * 2 ^ frac) : ∃ i, halvesOf frac i = 2 * k * 2 ^ j := by
  induction j generalizing k with
  | zero => exact ⟨0 * 2 ^ frac + k, halvesOf_steps (.inl rfl) hk⟩
  | succ j ih =>
    rcases Nat.lt_or_ge k (2 ^ frac) with lt | ge
    · obtain ⟨i, hi⟩ := ih (k := 2 * k) (by omega)
      exact ⟨i, by rw [hi, pow_succ]; ring⟩
    · exact ⟨_, halvesOf_steps (.inr ge) hk⟩

/-! Rounding, the exponent range not yet bounded. -/

/-- A magnitude between two neighbours rounds to the one that its cut rounds to. -/
theorem IsCut.roundsTo {n unit k rem one frac i d : Nat} (h : IsCut n unit k rem one) (r : Rnd) (neg : Bool) (hd : 0 < d)
    (here : halvesOf frac i * d = k * unit) (there : halvesOf frac (i + 1) * d = (k + 1) * unit) (parity : i % 2 = k % 2) :
    RoundsTo frac r neg (fun x => Ord.compare (x * d) n) (if roundsUp r neg k rem one then i + 1 else i) := by
  have floor := h.floor
  have next := h.next
  have rises : ∀ x, halvesOf frac x * d < halvesOf frac (x + 1) * d := fun x =>
    (Nat.mul_lt_mul_right hd).2 (halvesOf_strictMono frac x.lt_succ_self)
  have middle : ∀ x, 2 * ((halvesOf frac x + halvesOf frac (x + 1)) / 2 * d) = halvesOf frac x * d + halvesOf frac (x + 1) * d := by
    intro x
    have even : (halvesOf frac x + halvesOf frac (x + 1)) % 2 = 0 := by
      have := halvesOf_even frac x
      have := halvesOf_even frac (x + 1)
      omega
    rw [← mul_assoc, Nat.mul_div_cancel' (Nat.dvd_of_mod_eq_zero even), add_mul]
  have half : (2 * k + 1) * unit = k * unit + (k + 1) * unit := by ring
  have here_middle := middle i
  have above := rises (i + 1)
  have above_middle := middle (i + 1)
  unfold RoundsTo
  simp only [Nat.compare_eq_lt, Nat.compare_eq_gt, Nat.compare_eq_eq, ne_eq]
  by_cases near : r = .rne
  · subst near
    have up := roundsUp_nearest h neg
    rw [if_pos rfl]
    split
    · next hu =>
      have := up.1 hu
      simp only [Nat.add_sub_cancel]
      omega
    · next hu =>
      have := mt up.2 hu
      refine ⟨fun hi => ?_, ?_⟩
      · obtain ⟨p, rfl⟩ := Nat.exists_eq_add_one_of_ne_zero hi
        have := rises p
        have := middle p
        simp only [Nat.add_sub_cancel]
        omega
      · omega
  · rw [if_neg near]
    by_cases cuts : Cuts r neg
    · rw [roundsUp_cuts cuts]
      refine (if_pos cuts).mpr ⟨?_, ?_⟩ <;> simp only [Bool.false_eq_true, if_false] <;> omega
    · have up := roundsUp_away h near cuts
      refine (if_neg cuts).mpr ?_
      split
      · next hu =>
        have := up.1 hu
        simp only [Nat.add_sub_cancel]
        omega
      · next hu =>
        have := not_not.1 (mt up.2 hu)
        refine ⟨fun hi => ?_, ?_⟩
        · obtain ⟨p, rfl⟩ := Nat.exists_eq_add_one_of_ne_zero hi
          have := rises p
          simp only [Nat.add_sub_cancel]
          omega
        · omega

/-- A format of R91 and R92 by its width, fraction bits, bias, infinity and canonical NaN. -/
structure IsFormat (f : Fmt) (width frac bias inf nan : Nat) : Prop where
  prec : f.prec = frac + 1
  codes : f.codes + 1 = 2 ^ (width - 1 - frac)
  emin : f.emin = 1 - (bias : Int)
  infinity : inf = f.codes * 2 ^ frac
  canonical : nan = inf + 2 ^ (frac - 1)
  fraction : 1 ≤ frac
  exponent : frac + 3 ≤ width

theorem floatFormats_isFormat {f : Fmt} {width frac bias inf nan : Nat} (h : (f, width, frac, bias, inf, nan) ∈ floatFormats) :
    IsFormat f width frac bias inf nan := by
  simp only [floatFormats, List.mem_cons, List.not_mem_nil, or_false, Prod.mk.injEq] at h
  rcases h with ⟨rfl, rfl, rfl, rfl, rfl, rfl⟩ | ⟨rfl, rfl, rfl, rfl, rfl, rfl⟩ | ⟨rfl, rfl, rfl, rfl, rfl, rfl⟩ |
    ⟨rfl, rfl, rfl, rfl, rfl, rfl⟩ <;> constructor <;> decide

/-- The magnitude bits of a rounded value, the exponent range not yet bounded. -/
def freeMag (f : Fmt) (r : Rnd) (neg : Bool) (m : Nat) (e : Int) : Nat :=
  let low := f.emin - (f.prec - 1 : Nat)
  let q := max ((Nat.log2 m : Int) + e - (f.prec - 1 : Nat)) low
  let c := cutAt m e q
  (q - low).toNat * 2 ^ (f.prec - 1) + if roundsUp r neg c.1 c.2.1 c.2.2 then c.1 + 1 else c.1

theorem roundMag_zero (f : Fmt) (r : Rnd) (neg : Bool) (e : Int) : roundMag f r neg 0 e = 0 := rfl

theorem roundMag_eq {f : Fmt} {r : Rnd} {neg : Bool} {m : Nat} {e : Int} (hm : m ≠ 0) : roundMag f r neg m e =
    if (f.codes : Int) + f.emin ≤ (Nat.log2 m : Int) + e then infMag f else freeMag f r neg m e := by
  rw [roundMag, if_neg hm]
  rfl

/-- Where `roundMag` answers early, the rounding lies beyond the largest finite value. -/
theorem infMag_le_freeMag {f : Fmt} (r : Rnd) (neg : Bool) {m : Nat} {e : Int}
    (far : (f.codes : Int) + f.emin ≤ (Nat.log2 m : Int) + e) : infMag f ≤ freeMag f r neg m e := by
  unfold infMag freeMag
  exact (Nat.mul_le_mul_right _ (by omega)).trans (Nat.le_add_right _ _)

theorem overflowMag_eq (f : Fmt) (r : Rnd) (neg : Bool) : overflowMag f r neg =
    if r = .rne ∨ (r = .rup ∧ neg = false) ∨ (r = .rdn ∧ neg = true) then infMag f else infMag f - 1 := by
  cases r <;> cases neg <;> rfl

theorem finishMag_eq {f : Fmt} {r : Rnd} {flush neg : Bool} {m : Nat} {e : Int} (hm : m ≠ 0) : finishMag f r flush neg m e =
    if infMag f ≤ freeMag f r neg m e then overflowMag f r neg
    else if flush && freeMag f r neg m e < 2 ^ (f.prec - 1) then 0 else freeMag f r neg m e := by
  unfold finishMag
  rw [roundMag_eq hm]
  by_cases far : (f.codes : Int) + f.emin ≤ (Nat.log2 m : Int) + e
  · rw [if_pos far, if_pos le_rfl, if_pos (infMag_le_freeMag r neg far)]
  · rw [if_neg far]

section

variable {f : Fmt} {width frac bias inf nan : Nat}

theorem IsFormat.fmtWidth_eq (hf : IsFormat f width frac bias inf nan) : fmtWidth f = width := by
  have := hf.exponent
  rw [fmtWidth, hf.codes, hf.prec, Nat.log2_two_pow]
  omega

theorem IsFormat.infMag_eq (hf : IsFormat f width frac bias inf nan) : infMag f = inf := by
  rw [infMag, hf.infinity, hf.prec, Nat.add_sub_cancel]

/-- Cut at the last bit that the format keeps, a magnitude has at most as many bits as its significand, and as many where it is normal. -/
theorem IsCut.significand {m k rem one frac : Nat} {e low q b : Int} (hm : m ≠ 0) (hq : q = max ((Nat.log2 m : Int) + e - frac) low)
    (he : b ≤ e) (hl : b ≤ low) (cut : IsCut (m * 2 ^ (e - b).toNat) (2 ^ (q - b).toNat) k rem one) :
    ((q - low).toNat = 0 ∨ 2 ^ frac ≤ k) ∧ k < 2 * 2 ^ frac := by
  have most : m < 2 ^ (Nat.log2 m + 1) := Nat.lt_log2_self
  have least : 2 ^ Nat.log2 m ≤ m := Nat.log2_self_le hm
  constructor
  · rcases Nat.eq_zero_or_pos (q - low).toNat with zero | pos
    · exact .inl zero
    · have total : 2 ^ frac * 2 ^ (q - b).toNat ≤ m * 2 ^ (e - b).toNat := calc
        _ ≤ 2 ^ Nat.log2 m * 2 ^ (e - b).toNat := two_pow_mul_le (by omega)
        _ ≤ _ := Nat.mul_le_mul_right _ least
      exact .inr (Nat.le_of_lt_succ (Nat.lt_of_mul_lt_mul_right (total.trans_lt cut.next)))
  · have total : m * 2 ^ (e - b).toNat < 2 * 2 ^ frac * 2 ^ (q - b).toNat := calc
      _ < 2 ^ (Nat.log2 m + 1) * 2 ^ (e - b).toNat := (Nat.mul_lt_mul_right (Nat.two_pow_pos _)).2 most
      _ ≤ 2 * 2 ^ frac * 2 ^ (q - b).toNat := by
        rw [← pow_succ']
        exact two_pow_mul_le (by omega)
    exact Nat.lt_of_mul_lt_mul_right (cut.floor.trans_lt total)

/-- The magnitude bits are those of the value rounded once (R97). -/
theorem IsFormat.roundsTo (hf : IsFormat f width frac bias inf nan) (r : Rnd) (neg : Bool) {m : Nat} {e : Int} (hm : m ≠ 0) :
    RoundsTo frac r neg (fun n => Ord.compare (n * 2 ^ (-(e + bias + frac)).toNat) (m * 2 ^ (e + bias + frac).toNat))
      (freeMag f r neg m e) := by
  have hp : f.prec - 1 = frac := by rw [hf.prec, Nat.add_sub_cancel]
  unfold freeMag
  simp only [hp, hf.emin]
  generalize hlow : 1 - (bias : Int) - frac = low
  generalize hq : max ((Nat.log2 m : Int) + e - frac) low = q
  obtain ⟨b, hb⟩ : ∃ b, b = min e (low - 1) := ⟨_, rfl⟩
  have cut := cutAt_isCut m (e := e) (q := q) (b := b) (by omega) (by omega)
  generalize cutAt m e q = c at cut
  obtain ⟨k, rem, one⟩ := c
  obtain ⟨normal, many⟩ := cut.significand hm hq.symm (by omega) (by omega)
  have power : (e + bias + frac).toNat = (e - b).toNat := by omega
  have scale : (-(e + bias + frac)).toNat = (low - 1 - b).toNat := by omega
  have unit : (q - b).toNat = (q - low).toNat + 1 + (low - 1 - b).toNat := by omega
  generalize (q - low).toNat = j at *
  rw [unit, pow_add, pow_succ] at cut
  have index : (j * 2 ^ frac + if roundsUp r neg k rem one = true then k + 1 else k) =
      if roundsUp r neg k rem one then j * 2 ^ frac + k + 1 else j * 2 ^ frac + k := by split <;> rfl
  rw [power, scale, index]
  refine cut.roundsTo r neg (Nat.two_pow_pos _) ?_ ?_ ?_
  · rw [halvesOf_steps normal many.le]
    ring
  · rw [add_assoc, halvesOf_steps (k := k + 1) (normal.imp_right fun h => by omega) many]
    ring
  · obtain ⟨p, hp⟩ := Nat.exists_eq_add_of_le hf.fraction
    rw [hp, add_comm 1 p, pow_succ, ← mul_assoc, Nat.mul_comm _ 2, Nat.mul_add_mod]

theorem IsFormat.encodeF_fin (hf : IsFormat f width frac bias inf nan) (r : Rnd) (flush neg : Bool) {m : Nat} (e : Int) (hm : m ≠ 0) :
    encodeF f r flush (.fin neg m e) = (if neg then 2 ^ (width - 1) else 0) +
      if inf ≤ freeMag f r neg m e then (if r = .rne ∨ (r = .rup ∧ neg = false) ∨ (r = .rdn ∧ neg = true) then inf else inf - 1)
      else if flush = true ∧ freeMag f r neg m e < 2 ^ frac then 0 else freeMag f r neg m e := by
  rw [encodeF, joinSign, finishMag_eq hm, overflowMag_eq, hf.infMag_eq, hf.fmtWidth_eq, hf.prec, Nat.add_sub_cancel]
  simp only [Bool.and_eq_true, decide_eq_true_eq]

theorem IsFormat.rounded_fin (hf : IsFormat f width frac bias inf nan) (mode : BitVec 7) (neg : Bool) {m : Nat} (e : Int) (hm : m ≠ 0) :
    RoundedBits width frac inf (mode.getLsbD 3) (rndOf (field mode 0 2)) neg
      (fun n => Ord.compare (n * 2 ^ (-(e + bias + frac)).toNat) (m * 2 ^ (e + bias + frac).toNat)) (rounded f mode (.fin neg m e)) :=
  ⟨freeMag f (modeRnd mode) neg m e, hf.roundsTo _ _ hm, hf.encodeF_fin _ _ neg e hm⟩

theorem IsFormat.rounded_nan (hf : IsFormat f width frac bias inf nan) (mode : BitVec 7) : rounded f mode .nan = nan := by
  rw [rounded, encodeF, nanBits, hf.infMag_eq, hf.canonical, hf.prec]
  rfl

theorem IsFormat.rounded_inf (hf : IsFormat f width frac bias inf nan) (mode : BitVec 7) (neg : Bool) :
    rounded f mode (.inf neg) = (if neg then 2 ^ (width - 1) else 0) + inf := by
  rw [rounded, encodeF, joinSign, hf.infMag_eq, hf.fmtWidth_eq]

theorem IsFormat.inf_pos (hf : IsFormat f width frac bias inf nan) : 0 < inf := by
  have hc := hf.codes
  have := hf.exponent
  have two : 2 ^ 1 ≤ 2 ^ (width - 1 - frac) := Nat.pow_le_pow_right (by omega) (by omega)
  rw [hf.infinity]
  exact Nat.mul_pos (by omega) (Nat.two_pow_pos _)

theorem IsFormat.rounded_zero (hf : IsFormat f width frac bias inf nan) (mode : BitVec 7) (neg : Bool) (e : Int) :
    rounded f mode (.fin neg 0 e) = if neg then 2 ^ (width - 1) else 0 := by
  simp [rounded, encodeF, joinSign, finishMag, roundMag_zero, hf.infMag_eq, hf.fmtWidth_eq, hf.inf_pos.ne']

/-- What reading an encoding gives, by its fields (R91). -/
theorem IsFormat.decodeF_eq (hf : IsFormat f width frac bias inf nan) {x : Nat} (hx : x < 2 ^ width) :
    decodeF f x = if x / 2 ^ frac % 2 ^ (width - 1 - frac) = 2 ^ (width - 1 - frac) - 1 then
        (if x % 2 ^ frac = 0 then .inf (decide (2 ^ (width - 1) ≤ x)) else .nan)
      else if x / 2 ^ frac % 2 ^ (width - 1 - frac) = 0 then .fin (decide (2 ^ (width - 1) ≤ x)) (x % 2 ^ frac) (1 - (bias : Int) - frac)
      else .fin (decide (2 ^ (width - 1) ≤ x)) (2 ^ frac + x % 2 ^ frac) ((x / 2 ^ frac % 2 ^ (width - 1 - frac) : Nat) - (bias : Int) - frac) := by
  have hexp := hf.exponent
  have split : 2 ^ (width - 1) = 2 ^ frac * 2 ^ (width - 1 - frac) := by rw [← pow_add]; congr 1; omega
  have top : x / 2 ^ (width - 1) % 2 = 1 ↔ 2 ^ (width - 1) ≤ x := by
    have double : 2 ^ width = 2 ^ (width - 1) * 2 := by rw [← pow_succ]; congr 1; omega
    have : x / 2 ^ (width - 1) < 2 := Nat.div_lt_of_lt_mul (by omega)
    rw [Nat.mod_eq_of_lt this, ← Nat.one_le_div_iff (Nat.two_pow_pos _)]
    omega
  have code : x % 2 ^ (width - 1) / 2 ^ frac = x / 2 ^ frac % 2 ^ (width - 1 - frac) := by rw [split, Nat.mod_mul_right_div_self]
  have fraction : x % 2 ^ (width - 1) % 2 ^ frac = x % 2 ^ frac := Nat.mod_mod_of_dvd _ (split ▸ Nat.dvd_mul_right ..)
  have hp : f.prec - 1 = frac := by rw [hf.prec, Nat.add_sub_cancel]
  have last : f.codes = 2 ^ (width - 1 - frac) - 1 := by have := hf.codes; omega
  unfold decodeF
  simp only [hf.fmtWidth_eq, hp, code, fraction, last, hf.emin, top]
  split
  · rfl
  · split
    · rfl
    · congr 1
      omega

end

/-- R91 to R98 for the four formats. -/
theorem formatsRound : Parts.FormatsRound := by
  intro f width frac bias inf nan h
  have hf := floatFormats_isFormat h
  exact ⟨fun x hx => hf.decodeF_eq hx, fun mode => ⟨hf.rounded_nan mode, fun neg => ⟨hf.rounded_inf mode neg, hf.rounded_zero mode neg⟩,
    fun neg m e hm => hf.rounded_fin mode neg e hm⟩⟩

end Sys2Proof.Machine
end
section
/-! Values of `f32` words (O5, O6). A finite word in units of the least subnormal, what is encoded exactly, and operands after the
input flush. -/

namespace Sys2Proof.Machine

/-! A magnitude that is an encoding's rounds to it. -/

theorem halvesOf_between (frac i : Nat) : halvesOf frac i < (halvesOf frac i + halvesOf frac (i + 1)) / 2 ∧
    (halvesOf frac i + halvesOf frac (i + 1)) / 2 < halvesOf frac (i + 1) := by
  have rises := halvesOf_strictMono frac (Nat.lt_add_one i)
  have := halvesOf_even frac i
  have := halvesOf_even frac (i + 1)
  omega

theorem RoundsTo.exact {frac i d k : Nat} {r : Rnd} {neg : Bool} (hd : 0 < d)
    (h : RoundsTo frac r neg (fun x => Ord.compare (x * d) (halvesOf frac i * d)) k) : k = i := by
  have mono := halvesOf_strictMono frac
  simp only [RoundsTo, Nat.compare_eq_lt, Nat.compare_eq_gt, Nat.compare_eq_eq, ne_eq, Nat.mul_lt_mul_right hd,
    Nat.mul_left_inj hd.ne'] at h
  by_cases near : r = .rne
  · rw [if_pos near] at h
    obtain ⟨low, high⟩ := h
    rcases Nat.lt_trichotomy k i with lt | eq | gt
    · have := mono.monotone (show k + 1 ≤ i from lt)
      have := halvesOf_between frac k
      omega
    · exact eq
    · have := mono.monotone (show i ≤ k - 1 by omega)
      have between := halvesOf_between frac (k - 1)
      rw [Nat.sub_add_cancel (show 1 ≤ k by omega)] at between low
      have := low (by omega)
      omega
  · rw [if_neg near] at h
    by_cases cuts : Cuts r neg
    · obtain ⟨low, high⟩ := (if_pos cuts).mp h
      have := mono.le_iff_le.1 (Nat.not_lt.1 low)
      have := mono.lt_iff_lt.1 high
      omega
    · obtain ⟨low, high⟩ := (if_neg cuts).mp h
      have := mono.le_iff_le.1 (Nat.not_lt.1 high)
      by_contra other
      have := mono.lt_iff_lt.1 (low (by omega))
      omega

/-! The formats. -/

theorem fmtF16_isFormat : IsFormat fmtF16 16 10 15 0x7C00 0x7E00 := floatFormats_isFormat (by simp [floatFormats])
theorem fmtBf16_isFormat : IsFormat fmtBf16 16 7 127 0x7F80 0x7FC0 := floatFormats_isFormat (by simp [floatFormats])
theorem fmtF32_isFormat : IsFormat fmtF32 32 23 127 0x7F800000 0x7FC00000 := floatFormats_isFormat (by simp [floatFormats])

/-- Reading looks at the bits of the format only. -/
theorem decodeF_mod (f : Fmt) (x : Nat) : decodeF f (x % 2 ^ (fmtWidth f - 1 + 1)) = decodeF f x := by
  have top : x % 2 ^ (fmtWidth f - 1 + 1) / 2 ^ (fmtWidth f - 1) % 2 = x / 2 ^ (fmtWidth f - 1) % 2 := by
    rw [pow_succ, Nat.mod_mul_right_div_self, Nat.mod_mod]
  have rest : x % 2 ^ (fmtWidth f - 1 + 1) % 2 ^ (fmtWidth f - 1) = x % 2 ^ (fmtWidth f - 1) :=
    Nat.mod_mod_of_dvd _ (pow_dvd_pow 2 (Nat.le_succ _))
  unfold decodeF
  simp only [top, rest]

theorem decodeF_ofNat (x : Nat) : decodeF fmtF32 (BitVec.ofNat 32 x).toNat = decodeF fmtF32 x := by
  rw [BitVec.toNat_ofNat, ← decodeF_mod fmtF32 x]
  rfl

/-! Finite words in units of 2^−149. -/

/-- What the magnitude bits of an `f32` encoding say (R91). -/
theorem decodeF_f32 {x : Nat} (hx : x < 2 ^ 32) :
    (0x7F800000 < x % 2 ^ 31 → decodeF fmtF32 x = .nan) ∧
    (x % 2 ^ 31 = 0x7F800000 → decodeF fmtF32 x = .inf (decide (2 ^ 31 ≤ x))) ∧
    (x % 2 ^ 31 < 0x7F800000 → ∃ t g, decodeF fmtF32 x = .fin (decide (2 ^ 31 ≤ x)) t g ∧ -149 ≤ g ∧
      2 * units32 t g = halvesOf 23 (x % 2 ^ 31)) := by
  rw [fmtF32_isFormat.decodeF_eq hx]
  have magnitude : x % 2 ^ 31 = x / 2 ^ 23 % 2 ^ 8 * 2 ^ 23 + x % 2 ^ 23 := by omega
  have code : x % 2 ^ 31 / 2 ^ 23 = x / 2 ^ 23 % 2 ^ 8 := by omega
  have fraction : x % 2 ^ 31 % 2 ^ 23 = x % 2 ^ 23 := by omega
  refine ⟨fun h => ?_, fun h => ?_, fun h => ?_⟩
  · rw [if_pos (by omega), if_neg (by omega)]
  · rw [if_pos (by omega), if_pos (by omega)]
  · rw [if_neg (by omega)]
    unfold units32 halvesOf
    rw [code, fraction]
    split
    · next zero =>
      refine ⟨_, _, rfl, by omega, ?_⟩
      rw [if_pos (by omega)]
      simp only [zero] at magnitude
      norm_num
      omega
    · next normal =>
      refine ⟨_, _, rfl, by omega, ?_⟩
      rw [if_neg (by omega), ← mul_assoc]
      congr 2
      omega

/-- A sign and magnitude bits below the infinity's. -/
theorem decodeF_signed (neg : Bool) {k : Nat} (hk : k < 0x7F800000) : ∃ t g,
    decodeF fmtF32 ((if neg then 2 ^ 31 else 0) + k) = .fin neg t g ∧ 2 * units32 t g = halvesOf 23 k := by
  have below : (if neg = true then 2 ^ 31 else 0) + k < 2 ^ 32 := by split <;> omega
  have rest : ((if neg = true then 2 ^ 31 else 0) + k) % 2 ^ 31 = k := by split <;> omega
  have sign : decide (2 ^ 31 ≤ (if neg = true then 2 ^ 31 else 0) + k) = neg := by cases neg <;> simp; omega
  obtain ⟨t, g, value, -, units⟩ := (decodeF_f32 below).2.2 (by omega)
  rw [rest] at units
  rw [sign] at value
  exact ⟨t, g, value, units⟩

/-- A value that needs no rounding keeps its sign and magnitude, but for the output flush. -/
theorem encodeF_exact (r : Rnd) (flush neg : Bool) {m : Nat} {e : Int} {k j : Nat} (least : -149 ≤ e) (hk : k ≤ 2 ^ 24)
    (value : units32 m e = k * 2 ^ j) (most : units32 m e < 2 ^ 24 * 2 ^ 253) : ∃ t g,
    decodeF fmtF32 (encodeF fmtF32 r flush (.fin neg m e)) = .fin neg t g ∧
      units32 t g = if flush = true ∧ units32 m e < 2 ^ 23 then 0 else units32 m e := by
  have zero : ∃ t g, decodeF fmtF32 (if neg then 2 ^ 31 else 0) = .fin neg t g ∧ units32 t g = 0 := by
    obtain ⟨t, g, value, units⟩ := decodeF_signed neg (k := 0) (by decide)
    exact ⟨t, g, value, by simpa [halvesOf] using units⟩
  by_cases hm : m = 0
  · subst hm
    rw [encodeF, joinSign, finishMag, roundMag_zero]
    obtain ⟨t, g, value, units⟩ := zero
    refine ⟨t, g, ?_, ?_⟩
    · rw [← value, fmtF32_isFormat.infMag_eq, fmtF32_isFormat.fmtWidth_eq]
      simp
    · exact units.trans (by simp [units32])
  · obtain ⟨i, hi⟩ := halvesOf_reaches 23 (j := j) (k := k) hk
    rw [mul_assoc, ← value] at hi
    have mono := halvesOf_strictMono 23
    have index : freeMag fmtF32 r neg m e = i := by
      have free := fmtF32_isFormat.roundsTo r neg (e := e) hm
      have scale : (-(e + (127 : Nat) + (23 : Nat))).toNat = 0 := by omega
      have power : m * 2 ^ (e + (127 : Nat) + (23 : Nat)).toNat = halvesOf 23 i * 2 ^ 0 := by
        rw [hi, units32, show (e + (127 : Nat) + (23 : Nat)).toNat = (e + 149).toNat + 1 by omega, pow_succ]
        ring
      rw [scale, power] at free
      exact free.exact (Nat.two_pow_pos 0)
    have finite : i < 0x7F800000 := by
      have top : halvesOf 23 (254 * 2 ^ 23 + 2 ^ 23) = 2 * 2 ^ 23 * 2 ^ 254 := halvesOf_steps (.inr le_rfl) (by decide)
      exact mono.lt_iff_lt.1 (show halvesOf 23 i < halvesOf 23 (254 * 2 ^ 23 + 2 ^ 23) by omega)
    have subnormal : i < 2 ^ 23 ↔ units32 m e < 2 ^ 23 := by
      have least : halvesOf 23 (2 ^ 23) = 2 * 2 ^ 23 := by decide
      rw [← mono.lt_iff_lt]
      omega
    rw [fmtF32_isFormat.encodeF_fin r flush neg e hm, index]
    simp only [Nat.not_le.2 finite, if_false, subnormal]
    by_cases flushed : flush = true ∧ units32 m e < 2 ^ 23
    · simp only [flushed, and_self, if_true]
      exact zero
    · simp only [flushed, if_false]
      obtain ⟨t, g, value, units⟩ := decodeF_signed neg finite
      exact ⟨t, g, value, by omega⟩

/-! Operands. -/

theorem operand_nan {f : Fmt} {mode : BitVec 7} {x : Nat} : operand f mode x = .nan ↔ decodeF f x = .nan := by
  unfold operand
  cases decodeF f x <;> simp only [flushIn, reduceCtorEq]
  split <;> simp

theorem operand_fin {f : Fmt} {mode : BitVec 7} {x m : Nat} {p : Bool} {e : Int} (h : operand f mode x = .fin p m e) :
    ∃ n, decodeF f x = .fin p n e ∧ m ≤ n := by
  unfold operand at h
  cases value : decodeF f x with
  | nan => simp [value, flushIn] at h
  | inf q => simp [value, flushIn] at h
  | fin q n g =>
    rw [value, flushIn] at h
    split at h <;> obtain ⟨rfl, rfl, rfl⟩ := FVal.fin.inj h
    · exact ⟨n, rfl, Nat.zero_le n⟩
    · exact ⟨_, rfl, le_rfl⟩

/-- The magnitude and exponent of a finite operand. -/
theorem IsFormat.operand_bounds {f : Fmt} {width frac bias inf nan : Nat} (hf : IsFormat f width frac bias inf nan) {mode : BitVec 7}
    {x m : Nat} {p : Bool} {e : Int} (hx : x < 2 ^ width) (h : operand f mode x = .fin p m e) :
    m < 2 * 2 ^ frac ∧ 1 - (bias : Int) - frac ≤ e ∧ e + bias + frac + 2 ≤ (2 ^ (width - 1 - frac) : Nat) := by
  obtain ⟨n, value, le⟩ := operand_fin h
  rw [hf.decodeF_eq hx] at value
  have fraction := Nat.mod_lt x (Nat.two_pow_pos frac)
  have code := Nat.mod_lt (x / 2 ^ frac) (Nat.two_pow_pos (width - 1 - frac))
  have three : 2 ^ 2 ≤ 2 ^ (width - 1 - frac) := by have := hf.exponent; exact Nat.pow_le_pow_right (by omega) (by omega)
  generalize 2 ^ (width - 1 - frac) = codes at *
  split at value
  · split at value <;> cases value
  · split at value <;> obtain ⟨rfl, rfl, rfl⟩ := FVal.fin.inj value <;> omega

end Sys2Proof.Machine
end
section
/-! Functions of `f32` words (O5, O6): scaling, rounding to integral values and to integers, widening, classes, least and greatest. -/

namespace Sys2Proof.Machine

/-! Scaling (R193). -/

theorem scaling : Parts.Scaling := by
  intro mode a b r
  refine ⟨fun h => ?_, fun p h => ?_, fun p e h => ?_, fun p m e h hm => ⟨_, ?_, rfl⟩⟩
  · simp only [r, h, scaleF, f32, fmtF32_isFormat.rounded_nan]
    rfl
  · simp only [r, h, scaleF, f32, fmtF32_isFormat.rounded_inf]
    cases p <;> rfl
  · simp only [r, h, scaleF, f32, fmtF32_isFormat.rounded_zero]
    cases p <;> rfl
  · have := fmtF32_isFormat.rounded_fin mode p (e + b.toInt) hm
    rw [add_assoc] at this
    simp only [h, scaleF]
    exact this

/-! Rounding to integers (R100, R196). -/

/-- A value as an integer, of any size. -/
def wholeMag (r : Rnd) (neg : Bool) (m : Nat) (e : Int) : Nat :=
  let c := cutAt m e 0
  if roundsUp r neg c.1 c.2.1 c.2.2 then c.1 + 1 else c.1

theorem cutAt_units (m : Nat) {e : Int} (he : -149 ≤ e) :
    IsCut (units32 m e) (2 ^ 149) (cutAt m e 0).1 (cutAt m e 0).2.1 (cutAt m e 0).2.2 := by
  have := cutAt_isCut m (q := 0) he (by omega)
  rwa [sub_neg_eq_add, zero_sub, neg_neg] at this

theorem wholeMag_rounds (r : Rnd) (neg : Bool) (m : Nat) {e : Int} (he : -149 ≤ e) :
    RoundsToInteger r neg (units32 m e) (2 ^ 149) (wholeMag r neg m e) := (cutAt_units m he).roundsToInteger r neg

/-- An integer that a magnitude rounds to is less than 1 from it. -/
theorem RoundsToInteger.near {r : Rnd} {neg : Bool} {u one n : Nat} (h : RoundsToInteger r neg u one n) (pos : 0 < one) :
    u < (n + 1) * one ∧ n * one < u + one := by
  have step : (n + 1) * one = n * one + one := by ring
  have half : (2 * n + 1) * one = 2 * (n * one) + one := by ring
  simp only [RoundsToInteger, mul_assoc 2] at h
  by_cases near : r = .rne
  · rw [if_pos near] at h
    omega
  · rw [if_neg near] at h
    by_cases cuts : Cuts r neg
    · have := (if_pos cuts).mp h
      omega
    · have := (if_neg cuts).mp h
      omega

/-- `integerMag` is the rounded magnitude up to its cap. -/
theorem integerMag_eq (r : Rnd) (neg : Bool) (m : Nat) {e : Int} (he : -149 ≤ e) (cap : Nat) :
    integerMag r neg m e cap = min cap (wholeMag r neg m e) := by
  obtain ⟨low, high⟩ := (wholeMag_rounds r neg m he).near (Nat.two_pow_pos 149)
  unfold integerMag
  split
  · next zero =>
    rw [zero, units32, zero_mul, zero_add] at high
    rw [zero]
    omega
  · next some =>
    split
    · next far =>
      have least : 2 ^ Nat.log2 m ≤ m := Nat.log2_self_le some
      have most : cap < 2 ^ (Nat.log2 cap + 1) := Nat.lt_log2_self
      have total : cap * 2 ^ 149 < units32 m e := calc
        _ < 2 ^ (Nat.log2 cap + 1) * 2 ^ 149 := (Nat.mul_lt_mul_right (Nat.two_pow_pos _)).2 most
        _ ≤ 2 ^ Nat.log2 m * 2 ^ (e + 149).toNat := two_pow_mul_le (by omega)
        _ ≤ _ := Nat.mul_le_mul_right _ least
      exact (Nat.min_eq_left (Nat.le_of_lt_succ (Nat.lt_of_mul_lt_mul_right (total.trans low)))).symm
    · rfl

theorem of32_nan {mode : BitVec 7} {a : Word} : of32 mode a = .nan ↔ decodeF fmtF32 a.toNat = .nan := operand_nan

theorem of32_bounds {mode : BitVec 7} {a : Word} {p : Bool} {m : Nat} {e : Int} (h : of32 mode a = .fin p m e) :
    m < 2 ^ 24 ∧ -149 ≤ e ∧ e ≤ 104 := by
  obtain ⟨hm, hl, hh⟩ := fmtF32_isFormat.operand_bounds a.isLt h
  norm_num at hm hh
  omega

theorem integersOfFloats : Parts.IntegersOfFloats := by
  intro lo hi range mode a
  refine ⟨fun h => ?_, fun p h => ?_, fun p m e h => ?_⟩
  · show BitVec.ofInt 32 (toInteger _ lo hi _ (of32 mode a)) = _
    rw [h, toInteger, modeNcv]
    split <;> rfl
  · show BitVec.ofInt 32 (toInteger _ lo hi _ (of32 mode a)) = _
    rw [h, toInteger]
  · obtain ⟨-, least, -⟩ := of32_bounds h
    refine ⟨_, wholeMag_rounds _ p m least, ?_⟩
    show BitVec.ofInt 32 (toInteger (modeRnd mode) lo hi _ (of32 mode a)) = _
    rw [h, toInteger, integerMag_eq _ _ _ least, modeRnd]
    congr 1
    rcases range with ⟨rfl, rfl⟩ | ⟨rfl, rfl⟩ <;> cases p <;> simp only [Bool.false_eq_true, if_true, if_false] <;> omega

/-! Exact results. -/

theorem units32_lt {m k : Nat} {e : Int} (hm : m < 2 ^ k) (he : e + k ≤ 128) (least : -149 ≤ e) : units32 m e < 2 ^ 24 * 2 ^ 253 := calc
  _ < 2 ^ k * 2 ^ (e + 149).toNat := (Nat.mul_lt_mul_right (Nat.two_pow_pos _)).2 hm
  _ ≤ _ := two_pow_mul_le (by omega)

/-- What `fround` encodes is the value rounded to an integer. -/
theorem roundIntegral_fin {dir : Rnd} {mode : BitVec 7} {a : Word} {p : Bool} {m : Nat} {e : Int} (h : of32 mode a = .fin p m e) :
    roundIntegral dir mode a = BitVec.ofNat 32 (encodeF fmtF32 .rne false (if 0 ≤ e then .fin p m e else .fin p (wholeMag dir p m e) 0)) := by
  have value : operand fmtF32 mode a.toNat = .fin p m e := h
  rw [roundIntegral, value]
  rfl

theorem wholeMag_whole (r : Rnd) (neg : Bool) (m : Nat) {e : Int} (he : 0 ≤ e) : wholeMag r neg m e = m * 2 ^ e.toNat := by
  have stays : ∀ k, roundsUp r neg k 0 1 = false := by intro k; cases r <;> simp [roundsUp]
  rw [wholeMag, cutAt, if_pos he]
  simp only [stays, Bool.false_eq_true, if_false, sub_zero]

theorem roundingToIntegral : Parts.RoundingToIntegral := by
  intro dir mode a
  refine ⟨fun h => ?_, fun p h => ?_, fun p m e h => ?_⟩
  · have value : operand fmtF32 mode a.toNat = .nan := h
    rw [roundIntegral, value]
  · have value : operand fmtF32 mode a.toNat = .inf p := h
    rw [roundIntegral, value]
  · obtain ⟨hm, least, most⟩ := of32_bounds h
    have rounds := wholeMag_rounds dir p m least
    rw [roundIntegral_fin h, decodeF_ofNat]
    by_cases whole : 0 ≤ e
    · have units : units32 m e = wholeMag dir p m e * 2 ^ 149 := by
        rw [wholeMag_whole dir p m whole, units32, show (e + 149).toNat = e.toNat + 149 by omega, pow_add, mul_assoc]
      obtain ⟨k, g, value, same⟩ := encodeF_exact .rne false p least hm.le rfl (units32_lt hm (by omega) least)
      rw [if_pos whole]
      exact ⟨_, k, g, rounds, value, by simpa [units] using same⟩
    · have small : wholeMag dir p m e ≤ 2 ^ 23 := by
        have half : units32 m e < 2 ^ 23 * 2 ^ 149 := calc
          _ < 2 ^ 24 * 2 ^ (e + 149).toNat := (Nat.mul_lt_mul_right (Nat.two_pow_pos _)).2 hm
          _ ≤ 2 ^ 24 * 2 ^ 148 := Nat.mul_le_mul_left _ (Nat.pow_le_pow_right (by omega) (by omega))
          _ = _ := by norm_num
        have := (rounds.near (Nat.two_pow_pos 149)).2
        omega
      obtain ⟨k, g, value, same⟩ := encodeF_exact (m := wholeMag dir p m e) (e := 0) .rne false p (by omega) (by omega) rfl
        (units32_lt (k := 24) (by omega) (by omega) (by omega))
      rw [if_neg whole]
      exact ⟨_, k, g, rounds, value, by simpa [units32] using same⟩

/-- `unpk` rounds the value of its half into `f32`. -/
theorem unpackHalf_eq {f : Fmt} {mode : BitVec 7} {a : Word} {h : Nat} (hh : h = 0 ∨ h = 1) :
    unpackHalf f mode a (BitVec.ofNat 7 h) = f32 mode (operand f mode (a.toNat / 2 ^ (16 * h) % 2 ^ 16)) := by
  have below := a.isLt
  rcases hh with rfl | rfl
  · rw [Nat.mul_zero, pow_zero, Nat.div_one]
    rfl
  · rw [Nat.mul_one, Nat.mod_eq_of_lt (by omega)]
    rfl

theorem halvesWiden : Parts.HalvesWiden := by
  intro f hf mode a h hh v r
  have word : r = f32 mode v := unpackHalf_eq hh
  clear_value r
  subst word
  refine ⟨fun hv => ?_, fun p hv => ?_, fun p m e hv => ?_⟩
  · rw [hv, f32, fmtF32_isFormat.rounded_nan]
    rfl
  · rw [hv, f32, fmtF32_isFormat.rounded_inf]
    cases p <;> rfl
  · have half : a.toNat / 2 ^ (16 * h) % 2 ^ 16 < 2 ^ 16 := Nat.mod_lt _ (Nat.two_pow_pos 16)
    have bounds : m < 2 ^ 24 ∧ -149 ≤ e ∧ units32 m e < 2 ^ 24 * 2 ^ 253 := by
      rcases hf with rfl | rfl
      · obtain ⟨hm, least, most⟩ := fmtF16_isFormat.operand_bounds half hv
        norm_num at most
        exact ⟨by omega, by omega, units32_lt (k := 11) hm (by omega) (by omega)⟩
      · obtain ⟨hm, least, most⟩ := fmtBf16_isFormat.operand_bounds half hv
        norm_num at most
        exact ⟨by omega, by omega, units32_lt (k := 8) hm (by omega) (by omega)⟩
    obtain ⟨hm, least, most⟩ := bounds
    rw [hv, f32, decodeF_ofNat]
    exact encodeF_exact _ _ p least hm.le rfl most

/-! The fields of a word (R91). -/

theorem field_toNat {n : Nat} (x : BitVec n) (lo w : Nat) : (field x lo w).toNat = x.toNat / 2 ^ lo % 2 ^ w := by
  rw [BitVec.extractLsb'_toNat, Nat.shiftRight_eq_div_pow]

theorem field_eq_iff {n : Nat} (x : BitVec n) (lo w : Nat) (y : BitVec w) : field x lo w = y ↔ x.toNat / 2 ^ lo % 2 ^ w = y.toNat := by
  rw [← BitVec.toNat_inj, field_toNat]

theorem sign_iff (a : Word) : a.getLsbD 31 = decide (2 ^ 31 ≤ a.toNat) :=
  (BitVec.msb_eq_getLsbD_last a).symm.trans (BitVec.msb_eq_decide a)

theorem classes : Parts.Classes := by
  intro a neg e t
  have below := a.isLt
  have quiet : (field a 0 23).getLsbD 22 = decide (2 ^ 22 ≤ t) := by
    rw [← BitVec.msb_eq_getLsbD_last (field a 0 23), BitVec.msb_eq_decide, field_toNat, pow_zero, Nat.div_one]
  have special : field a 23 8 = 255 ↔ e = 255 := field_eq_iff a 23 8 255
  have low : field a 23 8 = 0 ↔ e = 0 := field_eq_iff a 23 8 0
  have fraction : field a 0 23 = 0 ↔ t = 0 := by
    rw [field_eq_iff, pow_zero, Nat.div_one]
    rfl
  simp only [classBit, sign_iff, quiet, special, low, fraction, decide_eq_true_eq]
  refine ⟨fun ⟨he, ht⟩ => ?_, fun ⟨he, ht⟩ => ?_, fun ⟨he, ht⟩ => ?_, fun ⟨he, ht⟩ => ?_, fun ⟨he, ht⟩ => ?_⟩
  · rw [if_pos he, if_pos ht]
  · simp only [he, ht.ne', if_true, if_false, ← Nat.not_le, ite_not]
  · rw [if_neg (by omega), if_pos he, if_pos ht]
  · rw [if_neg (by omega), if_pos he, if_neg ht.ne']
  · rw [if_neg (by omega), if_neg (by omega)]

/-! Least and greatest (R99, R192). -/

theorem flushWord_eq (on : Bool) (a : Word) : flushWord on a = flushedWord on a := by
  have sign : a &&& 0x80000000 = if 2 ^ 31 ≤ a.toNat then 0x80000000 else 0 := by
    rw [show (0x80000000 : Word) = BitVec.twoPow 32 31 from rfl, BitVec.and_twoPow, sign_iff]
    simp only [decide_eq_true_eq]
    rfl
  unfold flushWord flushedWord
  simp only [Bool.and_eq_true, decide_eq_true_eq, field_eq_iff, sign]
  rfl

/-- The magnitude bits of a word. -/
def magBits (a : Word) : Nat := a.toNat % 2 ^ 31

theorem isNanWord_iff (a : Word) : isNanWord a = true ↔ 0x7F800000 < magBits a := by
  have below := a.isLt
  simp only [isNanWord, magBits, Bool.and_eq_true, decide_eq_true_eq, ne_eq, field_eq_iff, pow_zero, Nat.div_one]
  show a.toNat / 2 ^ 23 % 2 ^ 8 = 255 ∧ ¬ a.toNat % 2 ^ 23 = 0 ↔ _
  omega

theorem of32_nan_iff {mode : BitVec 7} {a : Word} : of32 mode a = .nan ↔ isNanWord a = true := by
  rw [of32_nan, isNanWord_iff, magBits]
  obtain ⟨nan, inf, fin⟩ := decodeF_f32 a.isLt
  refine ⟨fun h => ?_, nan⟩
  rcases Nat.lt_trichotomy (a.toNat % 2 ^ 31) 0x7F800000 with lt | eq | gt
  · obtain ⟨t, g, value, -⟩ := fin lt
    rw [value] at h
    cases h
  · rw [inf eq] at h
    cases h
  · exact gt

/-- The input flush leaves NaNs and takes no word past the infinity. -/
theorem isNanWord_flushed (on : Bool) (a : Word) : isNanWord (flushedWord on a) = isNanWord a := by
  unfold flushedWord
  split
  · next flushed =>
    have quiet : isNanWord a = false := by
      rw [← Bool.not_eq_true, isNanWord_iff, magBits]
      omega
    rw [quiet]
    split <;> decide
  · rfl

/-- The sign of a value, as a factor. -/
def signOf (neg : Bool) : Int := if neg then -1 else 1

/-- A word's value in halves of the least subnormal, with its sign; the infinities as if the exponents went on. -/
def signedHalves (a : Word) : Int := signOf (decide (2 ^ 31 ≤ a.toNat)) * (halvesOf 23 (magBits a) : Nat)

theorem decodeF_number {a : Word} (h : isNanWord a = false) :
    (magBits a = 0x7F800000 ∧ decodeF fmtF32 a.toNat = .inf (decide (2 ^ 31 ≤ a.toNat))) ∨
    (magBits a < 0x7F800000 ∧ ∃ t g, decodeF fmtF32 a.toNat = .fin (decide (2 ^ 31 ≤ a.toNat)) t g ∧ -149 ≤ g ∧
      2 * units32 t g = halvesOf 23 (magBits a)) := by
  have finite : ¬ 0x7F800000 < magBits a := fun lt => by
    rw [← isNanWord_iff, h] at lt
    cases lt
  obtain ⟨-, inf, fin⟩ := decodeF_f32 a.isLt
  rcases Nat.lt_or_eq_of_le (Nat.not_lt.1 finite) with lt | eq
  · exact .inr ⟨lt, fin lt⟩
  · exact .inl ⟨eq, inf eq⟩

/-- Finite values compare as their magnitudes in one unit do. -/
theorem cmpF_fin (p q : Bool) (m n : Nat) {e k : Int} (he : -149 ≤ e) (hk : -149 ≤ k) :
    cmpF (.fin p m e) (.fin q n k) =
      some (Ord.compare (signOf p * (2 * units32 m e : Nat)) (signOf q * (2 * units32 n k : Nat))) := by
  have pos : (0 : Int) < 2 ^ (min e k + 150).toNat := by positivity
  have common : ∀ (x : Nat) (g : Int), min e k ≤ g →
      ((2 * units32 x g : Nat) : Int) = (x * 2 ^ (g - min e k).toNat : Nat) * 2 ^ (min e k + 150).toNat := fun x g hg => by
    have exponent : (g + 149).toNat + 1 = (g - min e k).toNat + (min e k + 150).toNat := by omega
    have := congrArg (fun i => x * 2 ^ i) exponent
    simp only [pow_succ, pow_add] at this
    rw [units32]
    push_cast
    have cast := congrArg (Nat.cast (R := Int)) this
    push_cast at cast
    linarith
  rw [common m e (min_le_left _ _), common n k (min_le_right _ _), ← mul_assoc, ← mul_assoc, ← cmp_eq_compare,
    cmp_mul_pos_right pos, cmp_eq_compare]
  rfl

/-- The order of values is that of `signedHalves`. -/
theorem cmpF_decode {a b : Word} (ha : isNanWord a = false) (hb : isNanWord b = false) :
    cmpF (decodeF fmtF32 a.toNat) (decodeF fmtF32 b.toNat) = some (Ord.compare (signedHalves a) (signedHalves b)) := by
  have mono := halvesOf_strictMono 23
  have top : 0 < halvesOf 23 0x7F800000 := by
    have := mono (show 0 < 0x7F800000 by decide)
    omega
  have lt : ∀ {x y : Int}, x < y → Ord.compare x y = .lt := compare_lt_iff_lt.2
  have gt : ∀ {x y : Int}, y < x → Ord.compare x y = .gt := compare_gt_iff_gt.2
  have eq : ∀ x : Int, Ord.compare x x = .eq := fun x => compare_eq_iff_eq.2 rfl
  unfold signedHalves
  rcases decodeF_number ha with ⟨ma, va⟩ | ⟨ma, t, g, va, hg, ua⟩ <;>
  rcases decodeF_number hb with ⟨mb, vb⟩ | ⟨mb, t', g', vb, hg', ub⟩ <;>
  rw [va, vb]
  · rw [ma, mb]
    cases decide (2 ^ 31 ≤ a.toNat) <;> cases decide (2 ^ 31 ≤ b.toNat) <;>
      simp only [cmpF, signOf, Bool.false_eq_true, if_true, if_false, eq, reduceCtorEq]
    · rw [gt (by omega)]
    · rw [lt (by omega)]
  · have below := mono mb
    rw [ma]
    cases decide (2 ^ 31 ≤ a.toNat) <;> cases decide (2 ^ 31 ≤ b.toNat) <;>
      simp only [cmpF, signOf, Bool.false_eq_true, if_true, if_false]
    · rw [gt (by omega)]
    · rw [gt (by omega)]
    · rw [lt (by omega)]
    · rw [lt (by omega)]
  · have below := mono ma
    rw [mb]
    cases decide (2 ^ 31 ≤ a.toNat) <;> cases decide (2 ^ 31 ≤ b.toNat) <;>
      simp only [cmpF, signOf, Bool.false_eq_true, if_true, if_false]
    · rw [lt (by omega)]
    · rw [gt (by omega)]
    · rw [lt (by omega)]
    · rw [gt (by omega)]
  · rw [← ua, ← ub, cmpF_fin _ _ _ _ hg hg']

theorem floatKey_eq (a : Word) : floatKey a = if 2 ^ 31 ≤ a.toNat then -(magBits a : Int) - 1 else magBits a := by
  simp only [floatKey, sign_iff, field_toNat, pow_zero, Nat.div_one, decide_eq_true_eq]
  rfl

theorem floatKey_inj {a b : Word} (h : floatKey a = floatKey b) : a = b := by
  have := a.isLt
  have := b.isLt
  simp only [floatKey_eq, magBits] at h
  apply BitVec.eq_of_toNat_eq
  split at h <;> split at h <;> omega

/-- The order of R99 is that of the values, with −0 below +0. -/
theorem floatKey_lt {a b : Word} (h : floatKey a < floatKey b) :
    signedHalves a < signedHalves b ∨ (a = 0x80000000 ∧ b = 0) := by
  have mono := halvesOf_strictMono 23
  have zero : halvesOf 23 0 = 0 := rfl
  simp only [floatKey_eq] at h
  unfold signedHalves signOf
  simp only [decide_eq_true_eq]
  split at h <;> split at h <;> rename_i hn hm
  · have := mono (show magBits b < magBits a by omega)
    simp only [hn, hm, if_true]
    omega
  · simp only [hn, hm, if_true, if_false]
    by_cases zeros : magBits a = 0 ∧ magBits b = 0
    · obtain ⟨za, zb⟩ := zeros
      have := a.isLt
      unfold magBits at za zb
      exact .inr ⟨BitVec.eq_of_toNat_eq (show a.toNat = 0x80000000 by omega), BitVec.eq_of_toNat_eq (show b.toNat = 0 by omega)⟩
    · have la := mono.le_iff_le.2 (Nat.zero_le (magBits a))
      have lb := mono.le_iff_le.2 (Nat.zero_le (magBits b))
      have : 0 < halvesOf 23 (magBits a) ∨ 0 < halvesOf 23 (magBits b) := by
        rcases not_and_or.1 zeros with ne | ne
        · exact .inl (zero ▸ mono (Nat.pos_of_ne_zero ne))
        · exact .inr (zero ▸ mono (Nat.pos_of_ne_zero ne))
      omega
  · omega
  · have := mono (show magBits a < magBits b by omega)
    simp only [hn, hm, if_false]
    omega

/-- The operand that `fmin` and `fmax` take where neither is a NaN. -/
def picked (larger : Bool) (x y : Word) : Word :=
  if larger then (if floatKey x < floatKey y then y else x) else if floatKey y < floatKey x then y else x

theorem minMax_eq (larger : Bool) (mode : BitVec 7) (a b : Word) : minMax larger mode a b =
    let x := flushedWord (modeIn mode) a
    let y := flushedWord (modeIn mode) b
    flushedWord (modeOut mode)
      (if isNanWord a && isNanWord b then 0x7FC00000
      else if isNanWord a then (if modeNmm mode then y else 0x7FC00000)
      else if isNanWord b then (if modeNmm mode then x else 0x7FC00000)
      else picked larger x y) := by
  simp only [minMax, flushWord_eq, isNanWord_flushed]
  rfl

/-- The operand taken lies on its side of the other, −0 below +0. -/
theorem picked_beyond (larger : Bool) {x y : Word} (hx : isNanWord x = false) (hy : isNanWord y = false) :
    ∃ r o, ((r = x ∧ o = y) ∨ (r = y ∧ o = x)) ∧ picked larger x y = r ∧
      (r = o ∨ cmpF (decodeF fmtF32 r.toNat) (decodeF fmtF32 o.toNat) = some (if larger then .gt else .lt) ∨
        (r = (if larger then 0 else 0x80000000) ∧ o = if larger then 0x80000000 else 0)) := by
  have below : ∀ {v w : Word}, isNanWord v = false → isNanWord w = false → floatKey v < floatKey w →
      (cmpF (decodeF fmtF32 v.toNat) (decodeF fmtF32 w.toNat) = some .lt ∧
        cmpF (decodeF fmtF32 w.toNat) (decodeF fmtF32 v.toNat) = some .gt) ∨ (v = 0x80000000 ∧ w = 0) := by
    intro v w hv hw h
    refine (floatKey_lt h).imp_left fun lt => ?_
    rw [cmpF_decode hv hw, cmpF_decode hw hv, compare_lt_iff_lt.2 lt, compare_gt_iff_gt.2 lt]
    exact ⟨rfl, rfl⟩
  unfold picked
  rcases lt_trichotomy (floatKey x) (floatKey y) with lt | eq | gt
  · cases larger
    · refine ⟨x, y, .inl ⟨rfl, rfl⟩, by simp [lt.not_gt], .inr ?_⟩
      exact (below hx hy lt).imp_left And.left
    · refine ⟨y, x, .inr ⟨rfl, rfl⟩, by simp [lt], .inr ?_⟩
      exact (below hx hy lt).imp And.right And.symm
  · exact ⟨x, y, .inl ⟨rfl, rfl⟩, by simp [eq], .inl (floatKey_inj eq)⟩
  · cases larger
    · refine ⟨y, x, .inr ⟨rfl, rfl⟩, by simp [gt], .inr ?_⟩
      exact (below hy hx gt).imp_left And.left
    · refine ⟨x, y, .inl ⟨rfl, rfl⟩, by simp [gt.not_gt], .inr ?_⟩
      exact (below hy hx gt).imp And.right And.symm

theorem flushedWord_nan (on : Bool) : flushedWord on 0x7FC00000 = 0x7FC00000 := by
  cases on <;> rfl

theorem leastAndGreatest : Parts.LeastAndGreatest := by
  intro larger mode a b fin out nan value
  have nan_iff : ∀ w, nan w ↔ isNanWord w = true := fun w => of32_nan_iff
  simp only [nan_iff, Bool.not_eq_true, minMax_eq]
  refine ⟨fun ⟨ha, hb⟩ => ?_, fun ⟨ha, hb⟩ => ?_, fun ⟨ha, hb⟩ => ?_, fun ⟨ha, hb⟩ => ?_⟩
  · simp only [ha, hb, Bool.and_true, if_true, flushedWord_nan]
  · simp only [ha, hb, Bool.and_false, Bool.false_eq_true, if_true, if_false, apply_ite (flushedWord _), flushedWord_nan]
    rfl
  · simp only [ha, hb, Bool.false_and, Bool.false_eq_true, if_true, if_false, apply_ite (flushedWord _), flushedWord_nan]
    rfl
  · obtain ⟨r, o, sides, pick, beyond⟩ := picked_beyond larger (x := fin a) (y := fin b) ((isNanWord_flushed _ a).trans ha)
      ((isNanWord_flushed _ b).trans hb)
    refine ⟨r, o, sides, ?_, beyond⟩
    simp only [ha, hb, Bool.false_and, Bool.false_eq_true, if_false]
    exact congrArg out pick

end Sys2Proof.Machine
end
section
/-! Results of the float and conversion instructions (O5, O6): the moulds of Machine/Floats.lean give the results of the statements. -/

namespace Sys2Proof.Machine

/-! Moulds. -/

/-- An instruction whose effect is one register result of either form. -/
theorem gives_eachResult {i : Instr} {u : Bool} {d : BitVec 6} {v : Ctx → State → Nat → Word}
    (h : ∀ s, exec i s = issueInstr i s fun c s => results s (eachResult c u d (v c s))) (hd : ∀ w, dstUse u d 1 ∈ regsOf w i) :
    Gives i 0 fun c s => eachResult c u d (v c s) :=
  fun s _ hi => completes_results hi (h s) rfl (eachResult_fits hi (hd _) _)

theorem gives_eachWide {i : Instr} {u : Bool} {d : BitVec 6} {n : Nat} {v : Ctx → State → Nat → Nat}
    (h : ∀ s, exec i s = issueInstr i s fun c s => results s (eachWide c u d n (v c s))) (hd : ∀ w, dstUse u d n ∈ regsOf w i) :
    Gives i 0 fun c s => eachWide c u d n (v c s) :=
  fun s _ hi => completes_results hi (h s) rfl (eachWide_fits hi (hd _) _)

/-- The L layout under `%fpmode`, for a meaning that is that of the statement. -/
theorem gives_floatOp {i : Instr} {f : LOps} {op op' : BitVec 7 → Word → Word → Word → Word}
    (h : ∀ s, exec i s = issueInstr i s (floatOp f op)) (hd : ∀ w, regsOf w i = lRegs f) (same : ∀ m a b d, op m a b d = op' m a b d) :
    Gives i 0 (floatIn f op') := by
  obtain rfl : op = op' := by funext m a b d; exact same m a b d
  exact gives_eachResult h fun w => by rw [hd]; exact List.mem_cons_self

theorem gives_floatUnary {i : Instr} {f : LOps2} {op : BitVec 7 → Word → Word}
    (h : ∀ s, exec i s = issueInstr i s (floatUnary f op)) (hd : ∀ w, regsOf w i = l2Regs f) :
    Gives i 0 fun c s => oneIn f (op c.x.fpmode) c s :=
  gives_eachResult h fun w => by rw [hd]; exact List.mem_cons_self

theorem gives_floatOp64 {i : Instr} {f : LOps} {op op' : BitVec 7 → Nat → Nat → Nat → Nat}
    (h : ∀ s, exec i s = issueInstr i s (floatOp64 f op)) (hd : ∀ w, regsOf w i = lRegs64 f) (same : ∀ m a b d, op m a b d = op' m a b d) :
    Gives i 0 (doubleOut f op') := by
  obtain rfl : op = op' := by funext m a b d; exact same m a b d
  exact gives_eachWide h fun w => by rw [hd]; exact List.mem_cons_self

/-! Meanings. -/

/-- The direction of `fround` (R196). -/
theorem frndDir_eq (code : BitVec 6) (m : BitVec 7) :
    frndDir code m = if code = 0 then modeRnd m else rndOf (BitVec.ofNat 2 (code.toNat - 1)) := by
  unfold frndDir
  split
  · rfl
  · next some =>
    have pos : 1 ≤ code.toNat := by
      have : code.toNat ≠ 0 := fun h => some (BitVec.eq_of_toNat_eq h)
      omega
    congr 1
    apply BitVec.eq_of_toNat_eq
    rw [field_toNat, pow_zero, Nat.div_one, BitVec.toNat_ofNat, BitVec.toNat_sub_of_le pos]
    rfl

/-- The split multiply-add reads its product back from the rounded word (R101). -/
theorem single_fma (m : BitVec 7) (a b d : Word) : single (fmaBits fmtF32 m) a b d = f32 m (addF (modeRnd m)
    (if modeFms m then decodeF fmtF32 (f32 m (mulF (of32 m a) (of32 m b))).toNat else mulF (of32 m a) (of32 m b)) (of32 m d)) := by
  rw [f32, f32, decodeF_ofNat]
  rfl

/-- A packed operation, half by half (R93). -/
theorem packed_halves (op : Nat → Nat → Nat → Nat) (a b d : Word) : packed op a b d =
    BitVec.ofNat 32 (op (a.toNat / 2 ^ (16 * 0) % 2 ^ 16) (b.toNat / 2 ^ (16 * 0) % 2 ^ 16) (d.toNat / 2 ^ (16 * 0) % 2 ^ 16) % 2 ^ 16 +
      2 ^ 16 * (op (a.toNat / 2 ^ (16 * 1) % 2 ^ 16) (b.toNat / 2 ^ (16 * 1) % 2 ^ 16) (d.toNat / 2 ^ (16 * 1) % 2 ^ 16) % 2 ^ 16)) := by
  have high : ∀ x : Word, x.toNat / 2 ^ (16 * 1) % 2 ^ 16 = x.toNat / 2 ^ 16 := fun x => Nat.mod_eq_of_lt (by omega)
  simp only [high, Nat.mul_zero, pow_zero, Nat.div_one, packed]
  generalize op (a.toNat / 2 ^ 16) (b.toNat / 2 ^ 16) (d.toNat / 2 ^ 16) = y
  generalize op (a.toNat % 2 ^ 16) (b.toNat % 2 ^ 16) (d.toNat % 2 ^ 16) = x
  apply BitVec.eq_of_toNat_eq
  rw [BitVec.toNat_append, BitVec.toNat_ofNat, BitVec.toNat_ofNat, BitVec.toNat_ofNat,
    ← Nat.shiftLeft_add_eq_or_of_lt (Nat.mod_lt _ (by decide)), Nat.shiftLeft_eq]
  omega

/-! The families. -/

theorem floatResults : Parts.FloatResults :=
  ⟨fun _ => gives_floatOp (fun _ => rfl) (fun _ => rfl) fun _ _ _ _ => rfl,
    fun _ => gives_floatOp (fun _ => rfl) (fun _ => rfl) fun _ _ _ _ => rfl,
    fun _ => gives_floatOp (fun _ => rfl) (fun _ => rfl) fun _ _ _ _ => rfl,
    fun _ => gives_floatOp (fun _ => rfl) (fun _ => rfl) single_fma,
    fun _ => gives_floatOp (fun _ => rfl) (fun _ => rfl) fun _ _ _ _ => rfl,
    fun _ => gives_floatOp (fun _ => rfl) (fun _ => rfl) fun _ _ _ _ => rfl,
    fun _ => gives_floatUnary (op := fun _ a => a ^^^ 0x80000000) (fun _ => rfl) fun _ => rfl,
    fun _ => gives_floatUnary (op := fun _ a => a &&& 0x7FFFFFFF) (fun _ => rfl) fun _ => rfl,
    fun _ => gives_floatOp (fun _ => rfl) (fun _ => rfl) fun _ _ _ _ => rfl,
    fun f => by
      simp only [← frndDir_eq]
      exact gives_eachResult (fun _ => rfl) fun _ => List.mem_cons_self,
    fun _ => gives_floatUnary (op := fun _ a => BitVec.ofNat 32 (2 ^ classBit a)) (fun _ => rfl) fun _ => rfl⟩

theorem packedAndDoubleResults : Parts.PackedAndDoubleResults := by
  unfold Parts.PackedAndDoubleResults
  intro half halves add mul fma
  exact ⟨fun f => gives_floatOp (fun _ => rfl) (fun _ => rfl) fun m a b d => packed_halves (add fmtF16 m) a b d,
    fun f => gives_floatOp (fun _ => rfl) (fun _ => rfl) fun m a b d => packed_halves (mul fmtF16 m) a b d,
    fun f => gives_floatOp (fun _ => rfl) (fun _ => rfl) fun m a b d => packed_halves (fma fmtF16 m) a b d,
    fun f => gives_floatOp (fun _ => rfl) (fun _ => rfl) fun m a b d => packed_halves (fma fmtBf16 m) a b d,
    fun f => gives_floatOp64 (fun _ => rfl) (fun _ => rfl) fun _ _ _ _ => rfl,
    fun f => gives_floatOp64 (fun _ => rfl) (fun _ => rfl) fun _ _ _ _ => rfl,
    fun f => gives_floatOp64 (fun _ => rfl) (fun _ => rfl) fun _ _ _ _ => rfl⟩

theorem conversions : Parts.Conversions :=
  ⟨fun _ => gives_floatUnary (op := fun m a => f32 m (.fin (decide (a.toInt < 0)) a.toInt.natAbs 0)) (fun _ => rfl) fun _ => rfl,
    fun _ => gives_floatUnary (op := fun m a => f32 m (.fin false a.toNat 0)) (fun _ => rfl) fun _ => rfl,
    fun _ => gives_floatUnary (op := toIntWord (-(2 ^ 31)) (2 ^ 31 - 1)) (fun _ => rfl) fun _ => rfl,
    fun _ => gives_floatUnary (op := toIntWord 0 (2 ^ 32 - 1)) (fun _ => rfl) fun _ => rfl,
    fun _ => gives_floatOp (fun _ => rfl) (fun _ => rfl) fun _ _ _ _ => rfl,
    fun _ => gives_floatOp (fun _ => rfl) (fun _ => rfl) fun _ _ _ _ => rfl,
    fun _ => gives_eachResult (fun _ => rfl) fun _ => List.mem_cons_self,
    fun _ => gives_eachResult (fun _ => rfl) fun _ => List.mem_cons_self,
    fun _ => gives_eachWide (fun _ => rfl) fun _ => List.mem_cons_self,
    fun _ => gives_eachResult (fun _ => rfl) fun _ => List.mem_cons_self,
    fun _ => gives_floatOp (op' := fun _ a b _ => quantise a b) (fun _ => rfl) (fun _ => rfl) fun _ _ _ _ => rfl,
    fun _ => gives_floatOp (fun _ => rfl) (fun _ => rfl) fun _ _ _ _ => rfl⟩

/-- Settles O6: each instruction by the mould of its meaning; integers by the cut of the value at 1, halves by their exact encoding. -/
theorem conversionResults : Obligations.ConversionResults := ⟨conversions, integersOfFloats, halvesWiden⟩

end Sys2Proof.Machine

namespace Sys2Proof

/-- Settles O5: formats by rounding a cut of the magnitude, functions of words by their values in units of 2^−149, and each instruction
by the mould of its meaning. -/
theorem floatFormats : Obligations.FloatFormats :=
  ⟨Machine.formatsRound, Machine.floatResults, Machine.leastAndGreatest, Machine.scaling, Machine.roundingToIntegral, Machine.classes,
    Machine.packedAndDoubleResults⟩

end Sys2Proof
end

section
/-! Functions of words (O1 to O3): each function of Machine/Integer.lean by the values of its operands. -/

namespace Sys2Proof.Machine

/-! Words of any width. -/

/-- The word of the lesser value is the lesser word, where words are what their values encode. -/
theorem ite_eq_min {α : Type} [LinearOrder α] {w : Nat} {val : BitVec w → α} {enc : α → BitVec w} (h : ∀ x, enc (val x) = x)
    {a b : BitVec w} {less : Bool} (hl : less = true ↔ val a < val b) : (if less then a else b) = enc (min (val a) (val b)) := by
  rcases lt_or_ge (val a) (val b) with lt | ge
  · rw [if_pos (hl.2 lt), min_eq_left lt.le, h]
  · rw [if_neg (mt hl.1 ge.not_gt), min_eq_right ge, h]

theorem ite_eq_max {α : Type} [LinearOrder α] {w : Nat} {val : BitVec w → α} {enc : α → BitVec w} (h : ∀ x, enc (val x) = x)
    {a b : BitVec w} {less : Bool} (hl : less = true ↔ val a < val b) : (if less then b else a) = enc (max (val a) (val b)) := by
  rcases lt_or_ge (val a) (val b) with lt | ge
  · rw [if_pos (hl.2 lt), max_eq_right lt.le, h]
  · rw [if_neg (mt hl.1 ge.not_gt), max_eq_left ge, h]

theorem ofNat_toNat_self {w : Nat} (a : BitVec w) : BitVec.ofNat w a.toNat = a := by simp

theorem signed_min {w : Nat} (a b : BitVec w) : (if a.slt b then a else b) = BitVec.ofInt w (min a.toInt b.toInt) :=
  ite_eq_min (fun _ => BitVec.ofInt_toInt) BitVec.slt_iff_toInt_lt

theorem signed_max {w : Nat} (a b : BitVec w) : (if a.slt b then b else a) = BitVec.ofInt w (max a.toInt b.toInt) :=
  ite_eq_max (fun _ => BitVec.ofInt_toInt) BitVec.slt_iff_toInt_lt

theorem unsigned_min {w : Nat} (a b : BitVec w) : (if a.ult b then a else b) = BitVec.ofNat w (min a.toNat b.toNat) :=
  ite_eq_min ofNat_toNat_self BitVec.ult_iff_toNat_lt

theorem unsigned_max {w : Nat} (a b : BitVec w) : (if a.ult b then b else a) = BitVec.ofNat w (max a.toNat b.toNat) :=
  ite_eq_max ofNat_toNat_self BitVec.ult_iff_toNat_lt

theorem shiftLeft_eq_ofNat {w : Nat} (a : BitVec w) (n : Nat) : a <<< n = BitVec.ofNat w (a.toNat * 2 ^ n) := by
  apply BitVec.eq_of_toNat_eq
  rw [BitVec.toNat_shiftLeft, Nat.shiftLeft_eq, BitVec.toNat_ofNat]

theorem shiftLeft_eq_ofInt {w : Nat} (v : Int) (n : Nat) : BitVec.ofInt w v <<< n = BitVec.ofInt w (v * 2 ^ n) := by
  rw [shiftLeft_eq_ofNat, ← BitVec.ofInt_natCast, Nat.cast_mul, BitVec.ofInt_mul, BitVec.ofInt_mul, BitVec.ofInt_natCast,
    ofNat_toNat_self]
  push_cast
  rfl

theorem ushiftRight_eq_ofNat {w : Nat} (a : BitVec w) (n : Nat) : a >>> n = BitVec.ofNat w (a.toNat / 2 ^ n) := by
  rw [← Nat.shiftRight_eq_div_pow, ← BitVec.toNat_ushiftRight, ofNat_toNat_self]

theorem sshiftRight_eq_ofInt {w : Nat} (a : BitVec w) (n : Nat) : a.sshiftRight n = BitVec.ofInt w (a.toInt / 2 ^ n) := by
  rw [← BitVec.ofInt_toInt (x := a.sshiftRight n), BitVec.toInt_sshiftRight, Int.shiftRight_eq_div_pow]
  norm_cast

/-! The functions of R131. -/

theorem clampI32_eq (v : Int) : clampI32 v = BitVec.ofInt 32 (max (-(2 ^ 31)) (min (2 ^ 31 - 1) v)) := by
  unfold clampI32
  split
  · congr 1; omega
  · split <;> congr 1 <;> omega

theorem clampN32_eq (v : Nat) : clampN32 v = BitVec.ofNat 32 (min (2 ^ 32 - 1) v) := by rw [clampN32, Nat.min_comm]

theorem absWord_eq (a : Word) : absWord a = BitVec.ofInt 32 a.toInt.natAbs := by
  have sign : a.slt 0 = decide (a.toInt < 0) := rfl
  rw [absWord, sign]
  by_cases h : a.toInt < 0
  · rw [if_pos (decide_eq_true h), Int.ofNat_natAbs_of_nonpos h.le, BitVec.ofInt_neg, BitVec.ofInt_toInt]
  · rw [if_neg (by simpa using h), Int.natAbs_of_nonneg (by omega), BitVec.ofInt_toInt]

theorem rotateLeft_eq (a : Word) (n : Nat) : a.rotateLeft (n % 32) = a <<< (n % 32) ||| a >>> (32 - n % 32) := by
  rw [BitVec.rotateLeft_def, Nat.mod_mod]

theorem popWord_eq (a : Word) : popWord a = BitVec.ofNat 32 ((List.range 32).countP fun i => a.getLsbD i) := by
  rw [List.countP_eq_length_filter, popWord]

/-- Zeros above the highest set bit, which is the bit of the logarithm. -/
theorem leadingZeros_eq (a : Word) {n : Nat} (h : a.toNat < 2 ^ n) :
    leadingZeros a n = if a.toNat = 0 then n else n - 1 - Nat.log2 a.toNat := by
  induction n with
  | zero => simp [leadingZeros]
  | succ n ih =>
    rw [leadingZeros]
    by_cases top : 2 ^ n ≤ a.toNat
    · have nonzero : a.toNat ≠ 0 := by have := Nat.two_pow_pos n; omega
      have bit : a.getLsbD n = true := Nat.testBit_of_two_pow_le_and_two_pow_add_one_gt top h
      have log : Nat.log2 a.toNat = n := (Nat.log2_eq_iff nonzero).2 ⟨top, h⟩
      rw [if_pos bit, if_neg nonzero, log]
      omega
    · have low : a.toNat < 2 ^ n := by omega
      have bit : a.getLsbD n = false := Nat.testBit_lt_two_pow low
      rw [if_neg (by rw [bit]; decide), ih low]
      by_cases zero : a.toNat = 0
      · simp only [zero, if_true]
      · have : Nat.log2 a.toNat < n := (Nat.log2_lt zero).2 low
        rw [if_neg zero, if_neg zero]
        omega

theorem clzWord_eq (a : Word) : clzWord a = if a = 0 then 32 else BitVec.ofNat 32 (31 - Nat.log2 a.toNat) := by
  have zero : a.toNat = 0 ↔ a = 0 := ⟨fun h => BitVec.eq_of_toNat_eq h, fun h => by rw [h]; rfl⟩
  simp only [clzWord, leadingZeros_eq a a.isLt, zero]
  split <;> rfl

/-- The bits of the word that collects the mirrored bits of `a` at the places `ls`. -/
theorem mirrored_bit (a : Word) (ls : List Nat) (r : Word) {j : Nat} (hj : j < 32) :
    (ls.foldl (fun r i => if a.getLsbD i then r ||| (1#32 <<< (31 - i)) else r) r).getLsbD j =
      (r.getLsbD j || ls.any fun i => a.getLsbD i && decide (j = 31 - i)) := by
  induction ls generalizing r with
  | nil => simp
  | cons i ls ih =>
    have one : (1#32 <<< (31 - i)).getLsbD j = decide (j = 31 - i) := by
      rw [← BitVec.twoPow_eq, BitVec.getLsbD_twoPow]
      simp only [eq_comm (a := 31 - i), Bool.and_eq_right_iff_imp, decide_eq_true_eq]
      omega
    rw [List.foldl_cons, ih, List.any_cons]
    cases a.getLsbD i
    · simp
    · simp [one, Bool.or_assoc]

theorem revWord_eq (a : Word) : revWord a = a.reverse := by
  apply BitVec.eq_of_getLsbD_eq
  intro j hj
  have mirror : ((List.range 32).any fun i => a.getLsbD i && decide (j = 31 - i)) = a.getLsbD (31 - j) := by
    rw [Bool.eq_iff_iff, List.any_eq_true]
    constructor
    · rintro ⟨i, hi, h⟩
      simp only [List.mem_range, Bool.and_eq_true, decide_eq_true_eq] at hi h
      rw [show 31 - j = i by omega]
      exact h.1
    · intro h
      refine ⟨31 - j, List.mem_range.2 (by omega), ?_⟩
      rw [h, decide_eq_true (by omega)]
      rfl
  rw [revWord, mirrored_bit a _ 0 hj, mirror, BitVec.getLsbD_reverse, BitVec.getMsbD]
  simp [hj]

/-! Bit fields (R133). -/

/-- A field cut from the low bits of a number is that of the number. -/
theorem emod_ediv_emod (v : Int) {pos len w : Nat} (h : pos + len ≤ w) : v % 2 ^ w / 2 ^ pos % 2 ^ len = v / 2 ^ pos % 2 ^ len := by
  obtain ⟨k, rfl⟩ := Nat.exists_eq_add_of_le h
  have parts : v % 2 ^ (pos + len + k) = v + 2 ^ pos * (2 ^ len * -(2 ^ k * (v / 2 ^ (pos + len + k)))) := by
    rw [Int.emod_def, pow_add, pow_add]
    ring
  rw [parts, Int.add_mul_ediv_left _ _ (by positivity), Int.add_mul_emod_self_left]

/-- The balanced remainder by the top bit of the plain one. -/
theorem bmod_of_topBit (v : Int) {len : Nat} (hl : 0 < len) {r : Nat} (hr : (r : Int) = v % 2 ^ len) :
    (if r.testBit (len - 1) then (r : Int) - 2 ^ len else r) = v.bmod (2 ^ len) := by
  obtain ⟨k, rfl⟩ : ∃ k, len = k + 1 := ⟨len - 1, by omega⟩
  have below : r < 2 ^ (k + 1) := by
    have := Int.emod_lt_of_pos v (b := 2 ^ (k + 1)) (by positivity)
    rw [← hr] at this
    exact_mod_cast this
  have half : (((2 ^ (k + 1) : Nat) : Int) + 1) / 2 = 2 ^ k := by
    push_cast
    omega
  have bit : r.testBit k = true ↔ ¬ (r : Int) < 2 ^ k := by
    have top : r.testBit k = true ↔ 2 ^ k ≤ r :=
      ⟨Nat.ge_two_pow_of_testBit, fun h => Nat.testBit_of_two_pow_le_and_two_pow_add_one_gt h below⟩
    rw [top, Int.not_lt]
    exact_mod_cast Iff.rfl
  have modulus : ((2 ^ (k + 1) : Nat) : Int) = 2 ^ (k + 1) := by norm_cast
  simp only [Int.bmod, half, Nat.add_sub_cancel, bit]
  rw [modulus, ← hr, ite_not]

/-- The place and the length of a bit field, as the model reads them. -/
theorem bitField_place (b : Word) : (field b 0 5).toNat = b.toNat % 32 := by
  rw [field_toNat, Nat.pow_zero, Nat.div_one]
  rfl

theorem bitField_length (b : Word) :
    (if field b 5 5 = 0 then 32 else (field b 5 5).toNat) = if b.toNat / 32 % 32 = 0 then 32 else b.toNat / 32 % 32 := by
  simp only [field_eq_iff, field_toNat]
  rfl

theorem bitField_plain (a b : Word) : bitField false a b =
    let len := if field b 5 5 = 0 then 32 else (field b 5 5).toNat
    BitVec.ofNat 32 (a.toNat / 2 ^ (field b 0 5).toNat % 2 ^ len) := by
  have wide : (zext 64 a).toNat = a.toNat := BitVec.toNat_setWidth_of_le (by decide)
  simp only [bitField, bitField_length, bitField_place, Bool.false_and, Bool.false_eq_true, if_false, BitVec.toNat_ushiftRight,
    Nat.shiftRight_eq_div_pow, wide]

theorem bitField_signed (a b : Word) : bitField true a b =
    let len := if field b 5 5 = 0 then 32 else (field b 5 5).toNat
    BitVec.ofInt 32 ((a.toInt / 2 ^ (field b 0 5).toNat).bmod (2 ^ len)) := by
  have wide : ((sext 64 a).toNat : Int) = a.toInt % 2 ^ 64 := by
    rw [show sext 64 a = BitVec.ofInt 64 a.toInt from rfl, BitVec.toNat_ofInt]
    omega
  simp only [bitField, bitField_length, bitField_place, Bool.true_and, if_true, BitVec.toNat_ushiftRight, Nat.shiftRight_eq_div_pow,
    ← BitVec.ofInt_natCast, ← apply_ite (BitVec.ofInt 32)]
  generalize hlen : (if b.toNat / 32 % 32 = 0 then 32 else b.toNat / 32 % 32) = len
  have size : 0 < len ∧ b.toNat % 32 + len ≤ 64 := by split at hlen <;> omega
  rw [bmod_of_topBit _ size.1]
  push_cast
  rw [wide, emod_ediv_emod _ size.2]

/-! The functions of R143. -/

theorem scaled_index (b : Word) (n : Nat) : sext 64 b <<< n = BitVec.ofInt 64 (b.toInt * 2 ^ n) := shiftLeft_eq_ofInt b.toInt n

theorem signed_product (a b : Word) : sext 64 a * sext 64 b = BitVec.ofInt 64 (a.toInt * b.toInt) := (BitVec.ofInt_mul ..).symm

theorem unsigned_product (a b : Word) : zext 64 a * zext 64 b = BitVec.ofNat 64 (a.toNat * b.toNat) := by
  rw [BitVec.ofNat_mul, BitVec.ofNat_toNat, BitVec.ofNat_toNat]

end Sys2Proof.Machine
end

section
/-! Results and predicates of the integer and logic instructions (O1 to O4): the moulds of Machine/Integer.lean give the results and
the predicates of the statements. -/

namespace Sys2Proof.Machine

/-! Moulds of register results: a function that is the same as that of the statement. -/

theorem gives_binary {i : Instr} {f : LOps} {op op' : Word → Word → Word → Word} (h : ∀ s, exec i s = issueInstr i s (binary f op))
    (hd : ∀ w, regsOf w i = lRegs f) (same : ∀ a b d, op a b d = op' a b d) : Gives i 0 (threeIn f op') :=
  gives_floatOp (op := fun _ => op) (op' := fun _ => op') h hd fun _ => same

theorem gives_unary {i : Instr} {f : LOps2} {op op' : Word → Word} (h : ∀ s, exec i s = issueInstr i s (unary f op))
    (hd : ∀ w, regsOf w i = l2Regs f) (same : ∀ a, op a = op' a) : Gives i 0 (oneIn f op') := by
  obtain rfl : op = op' := funext same
  exact gives_floatUnary (op := fun _ => op) h hd

theorem gives_immediate {i : Instr} {f : IOps} {op op' : Word → BitVec 7 → Word} (h : ∀ s, exec i s = issueInstr i s (immediate f op))
    (hd : ∀ w, regsOf w i = iRegs f) (same : ∀ a n, op a n = op' a n) : Gives i 0 (immIn f op') := by
  obtain rfl : op = op' := by funext a n; exact same a n
  exact gives_eachResult h fun w => by rw [hd]; exact List.mem_cons_self

theorem gives_pair {i : Instr} {f : Alu64Ops} {ca cb : Nat} {op op' : Ctx → State → Nat → DWord}
    (h : ∀ s, exec i s = issueInstr i s fun c s => results s (pairOut f op c s)) (hd : ∀ w, regsOf w i = alu64Regs f ca cb)
    (same : ∀ c s l, op c s l = op' c s l) : Gives i 0 (pairOut f op') := by
  obtain rfl : op = op' := by funext c s l; exact same c s l
  exact gives_eachWide h fun w => by rw [hd]; exact List.mem_cons_self

/-! Moulds of predicates. -/

theorem predicate_congr {c : Ctx} {p q : Nat → Bool} (h : ∀ l < 64, p l = q l) (u : Bool) (d : BitVec 6) :
    predicate c u d p = predicate c u d q := by
  have lanes : c.lanes.filter p = c.lanes.filter q :=
    List.filter_congr fun l hl => h l (List.mem_range.1 (List.mem_filter.1 hl).1)
  funext x
  simp only [predicate, lanes, h 0 (by decide)]

theorem mem_lanes_iff (c : Ctx) (l : Nat) : l ∈ c.lanes ↔ c.act.getLsbD l = true := by
  rw [Ctx.lanes, lanesOf, List.mem_filter, List.mem_range, and_iff_right_iff_imp]
  exact BitVec.lt_of_getLsbD

/-- The bits of a mask are its lanes, added to those it starts from. -/
theorem foldl_mask_bit (ls : List Nat) (m : LaneMask) {j : Nat} (hj : j < 64) :
    (ls.foldl (fun m l => m ||| (1#64 <<< l)) m).getLsbD j = (m.getLsbD j || decide (j ∈ ls)) := by
  induction ls generalizing m with
  | nil => simp
  | cons l ls ih =>
    have one : (1#64 <<< l).getLsbD j = decide (j = l) := by
      rw [← BitVec.twoPow_eq, BitVec.getLsbD_twoPow]
      simp only [eq_comm (a := l), Bool.and_eq_right_iff_imp, decide_eq_true_eq]
      omega
    rw [List.foldl_cons, ih, BitVec.getLsbD_or, one]
    simp only [List.mem_cons, Bool.decide_or, Bool.or_assoc]

theorem maskOf_bit (ls : List Nat) {j : Nat} (hj : j < 64) : (maskOf ls).getLsbD j = decide (j ∈ ls) := by
  rw [maskOf, foldl_mask_bit ls 0 hj]
  simp

/-- A mask of lanes of `act` lies within `act`. -/
theorem maskOf_lanes_within (c : Ctx) (p : Nat → Bool) : maskOf (c.lanes.filter p) &&& c.act = maskOf (c.lanes.filter p) := by
  apply BitVec.eq_of_getLsbD_eq
  intro j hj
  rw [BitVec.getLsbD_and, maskOf_bit _ hj, Bool.and_eq_left_iff_imp, decide_eq_true_eq, List.mem_filter, mem_lanes_iff]
  exact And.left

/-- A predicate result is a change of the wave, also when the group form has empty `act`. -/
theorem predResult_eq (s : State) (c : Ctx) (u : Bool) (d : BitVec 6) (p : Nat → Bool) :
    predResult s c u d p = results (onWave s c.w (predicate c u d p)) [] := by
  cases u with
  | false =>
    have lanes : predicate c false d p = fun x => setPred x d.toNat c.act (maskOf (c.lanes.filter p)) := by
      funext x
      rw [setPred, maskOf_lanes_within]
      rfl
    rw [lanes]
    rfl
  | true =>
    have group : predicate c true d p = fun x => if c.act = 0 then x else setGroupPred x d.toNat (p 0) := rfl
    rw [group]
    by_cases h : c.act = 0
    · simp only [predResult, h, if_true, onWave_same]
    · simp only [predResult, h, if_true, if_false]

theorem sets_predicate {i : Instr} {u : Bool} {d : BitVec 6} {p p' : Ctx → State → Nat → Bool}
    (h : ∀ s, exec i s = issueInstr i s fun c s => predResult s c u d (p c s)) (same : ∀ c s, ∀ l < 64, p c s l = p' c s l) :
    Sets i fun c s => predicate c u d (p' c s) := fun s c hi => by
  have := completes_nil hi (h s) (predResult_eq s c u d (p c s))
  rwa [predicate_congr (same c s)] at this

theorem sets_compare {i : Instr} {f : LOps} {p p' : Word → Word → Bool} (h : ∀ s, exec i s = issueInstr i s (compare f p))
    (same : ∀ a b, p a b = p' a b) : Sets i (compared f p') :=
  sets_predicate (p := fun c s l => p (src s c f.u f.a l) (src s c f.u f.b l)) h fun _ _ _ _ => same _ _

theorem sets_compareI {i : Instr} {f : IOps} {p p' : Word → Word → Bool} (h : ∀ s, exec i s = issueInstr i s (compareI f p))
    (same : ∀ a b, p a b = p' a b) : Sets i (comparedImm f p') :=
  sets_predicate (p := fun c s l => p (src s c f.u f.a l) (sext 32 f.i)) h fun _ _ _ _ => same _ _

theorem sets_floatCompare {i : Instr} {f : LOps} {p : Option Ordering → Bool} {q : Option Ordering → Prop} [DecidablePred q]
    (h : ∀ s, exec i s = issueInstr i s (floatCompare f p)) (same : ∀ o, p o = decide (q o)) : Sets i (comparedF f q) :=
  sets_predicate (p := fun c s l => p (compareWords c.x.fpmode (src s c f.u f.a l) (src s c f.u f.b l))) h fun _ _ _ _ => same _

theorem sets_vote {i : Instr} {f : DAOps} {answer : LaneMask → LaneMask → Bool} {p : Ctx → Bool}
    (h : ∀ s, exec i s = issueInstr i s (vote f answer)) (same : ∀ c, answer c.act (predReg c.x f.a.toNat) = p c) :
    Sets i fun c _ x => if c.act = 0 then x else { x with gk := x.gk.set f.d.toNat (p c) } := fun s c hi => by
  refine completes_nil hi (h s) ?_
  by_cases empty : c.act = 0
  · simp only [vote, empty, if_true, onWave_same]
    rfl
  · simp only [vote, empty, if_false, same]
    rfl

/-! Predicates bit by bit. -/

/-- A vote asks for a lane of `act` with the predicate (R181). -/
theorem meets_act_iff (c : Ctx) (k : LaneMask) : c.act &&& k ≠ 0 ↔ ∃ l ∈ c.lanes, k.getLsbD l = true := by
  simp only [mem_lanes_iff]
  constructor
  · intro h
    by_contra none
    refine h (BitVec.eq_of_getLsbD_eq fun l _ => ?_)
    have := fun both => none ⟨l, both⟩
    simpa [BitVec.getLsbD_and] using this
  · rintro ⟨l, act, bit⟩ zero
    have := congrArg (fun m : LaneMask => m.getLsbD l) zero
    simp [act, bit] at this

theorem within_act_iff (c : Ctx) (k : LaneMask) : c.act &&& ~~~k = 0 ↔ ∀ l ∈ c.lanes, k.getLsbD l = true := by
  rw [← not_iff_not, ← ne_eq, meets_act_iff]
  push Not
  refine exists_congr fun l => and_congr_right fun hl => ?_
  have := BitVec.lt_of_getLsbD ((mem_lanes_iff c l).1 hl)
  simp [this]

theorem kopFn_eq : ∀ (fn : BitVec 2) (p q : Bool), kopFn fn p q =
    match fn.toNat with
    | 0 => p && q
    | 1 => p || q
    | 2 => p ^^ q
    | _ => p && !q := by decide

/-- A lane's bit of a pair of group registers (R140). -/
theorem readGroupPair_bit (s : State) (x : Wave) (n : Nat) {l : Nat} (hl : l < 64) :
    (readGroupPair s x n).getLsbD l = (readGroup s x (n + l / 32)).getLsbD (l % 32) := by
  rw [readGroupPair, pairOf, BitVec.getLsbD_append]
  by_cases low : l < 32
  · rw [if_pos low, Nat.div_eq_of_lt low, Nat.mod_eq_of_lt low, Nat.add_zero]
  · rw [if_neg low, show l / 32 = 1 by omega, show l % 32 = l - 32 by omega]

theorem cmpNe_eq (a b : Word) : cmpNe a b = decide (a ≠ b) := by rw [cmpNe, bne, beq_eq_decide, decide_not]

/-! The families. -/

/-- Settles O1: each instruction by the mould of its layout and the value of its function. -/
theorem integerResults : Obligations.IntegerResults := by
  unfold Obligations.IntegerResults
  exact ⟨fun _ => gives_binary (fun _ => rfl) (fun _ => rfl) fun _ _ _ => rfl,
    fun _ => gives_binary (fun _ => rfl) (fun _ => rfl) fun _ _ _ => rfl,
    fun _ => gives_binary (fun _ => rfl) (fun _ => rfl) fun _ _ _ => rfl,
    fun _ => gives_binary (fun _ => rfl) (fun _ => rfl) fun _ _ _ => rfl,
    fun _ => gives_binary (fun _ => rfl) (fun _ => rfl) fun _ _ _ => rfl,
    fun _ => gives_binary (fun _ => rfl) (fun _ => rfl) fun _ _ _ => rfl,
    fun _ => gives_binary (fun _ => rfl) (fun _ => rfl) fun _ _ _ => clampI32_eq _,
    fun _ => gives_binary (fun _ => rfl) (fun _ => rfl) fun _ _ _ => clampI32_eq _,
    fun _ => gives_binary (fun _ => rfl) (fun _ => rfl) fun _ _ _ => clampN32_eq _,
    fun _ => gives_binary (fun _ => rfl) (fun _ => rfl) fun a b _ => signed_min a b,
    fun _ => gives_binary (fun _ => rfl) (fun _ => rfl) fun a b _ => signed_max a b,
    fun _ => gives_binary (fun _ => rfl) (fun _ => rfl) fun a b _ => unsigned_min a b,
    fun _ => gives_binary (fun _ => rfl) (fun _ => rfl) fun a b _ => unsigned_max a b,
    fun _ => gives_unary (fun _ => rfl) (fun _ => rfl) absWord_eq,
    fun _ => gives_binary (fun _ => rfl) (fun _ => rfl) fun _ _ _ => rfl,
    fun _ => gives_binary (fun _ => rfl) (fun _ => rfl) fun _ _ _ => rfl,
    fun _ => gives_binary (fun _ => rfl) (fun _ => rfl) fun _ _ _ => rfl,
    fun _ => gives_binary (fun _ => rfl) (fun _ => rfl) fun _ _ _ => rfl,
    fun _ => gives_binary (fun _ => rfl) (fun _ => rfl) fun a b _ => shiftLeft_eq_ofNat a _,
    fun _ => gives_binary (fun _ => rfl) (fun _ => rfl) fun a b _ => ushiftRight_eq_ofNat a _,
    fun _ => gives_binary (fun _ => rfl) (fun _ => rfl) fun a b _ => sshiftRight_eq_ofInt a _,
    fun _ => gives_binary (fun _ => rfl) (fun _ => rfl) fun a b _ => rotateLeft_eq a _,
    fun _ => gives_immediate (fun _ => rfl) (fun _ => rfl) fun _ _ => rfl,
    fun _ => gives_immediate (fun _ => rfl) (fun _ => rfl) fun a _ => shiftLeft_eq_ofNat a _,
    fun _ => gives_immediate (fun _ => rfl) (fun _ => rfl) fun a _ => ushiftRight_eq_ofNat a _,
    fun _ => gives_immediate (fun _ => rfl) (fun _ => rfl) fun a _ => sshiftRight_eq_ofInt a _⟩

/-- Settles O2: `sel`, `kmov` and `movi` write what the statement says as it stands; the others by the value of their function. -/
theorem selectAndBitResults : Obligations.SelectAndBitResults := by
  unfold Obligations.SelectAndBitResults
  exact ⟨fun _ => gives_eachResult (fun _ => rfl) fun _ => List.mem_cons_self,
    fun _ => gives_unary (fun _ => rfl) (fun _ => rfl) popWord_eq,
    fun _ => gives_unary (fun _ => rfl) (fun _ => rfl) clzWord_eq,
    fun _ => gives_unary (fun _ => rfl) (fun _ => rfl) revWord_eq,
    fun _ => gives_binary (fun _ => rfl) (fun _ => rfl) fun a b _ => bitField_plain a b,
    fun _ => gives_binary (fun _ => rfl) (fun _ => rfl) fun a b _ => bitField_signed a b,
    fun _ => gives_eachResult (fun _ => rfl) fun _ => List.mem_cons_self,
    fun _ => gives_eachResult (fun _ => rfl) fun _ => List.mem_cons_self⟩

/-- Settles O3: each instruction writes the pair of its function, compared on the values of its sources. -/
theorem wideIntegerResults : Obligations.WideIntegerResults := by
  unfold Obligations.WideIntegerResults
  exact ⟨fun _ => gives_pair (fun _ => rfl) (fun _ => rfl) fun _ _ _ => rfl,
    fun _ => gives_pair (fun _ => rfl) (fun _ => rfl) fun _ _ _ => rfl,
    fun f => gives_pair (op := fun c s l => srcPair s c f.u f.a l + (sext 64 (src s c f.u f.b l) <<< f.sh.toNat) + sext 64 f.imm)
      (fun _ => rfl) (fun _ => rfl) fun _ _ _ => by rw [scaled_index],
    fun _ => gives_pair (fun _ => rfl) (fun _ => rfl) fun _ _ _ => signed_product _ _,
    fun _ => gives_pair (fun _ => rfl) (fun _ => rfl) fun _ _ _ => unsigned_product _ _,
    fun _ => gives_pair (fun _ => rfl) (fun _ => rfl) fun _ _ _ => shiftLeft_eq_ofNat _ _,
    fun _ => gives_pair (fun _ => rfl) (fun _ => rfl) fun _ _ _ => ushiftRight_eq_ofNat _ _,
    fun _ => gives_pair (fun _ => rfl) (fun _ => rfl) fun _ _ _ => sshiftRight_eq_ofInt _ _,
    fun _ => gives_pair (fun _ => rfl) (fun _ => rfl) fun _ _ _ => unsigned_min _ _,
    fun _ => gives_pair (fun _ => rfl) (fun _ => rfl) fun _ _ _ => unsigned_max _ _⟩

theorem comparisonResults : Parts.ComparisonResults := by
  unfold Parts.ComparisonResults
  exact ⟨fun _ => sets_compare (fun _ => rfl) beq_eq_decide,
    fun _ => sets_compare (fun _ => rfl) cmpNe_eq,
    fun _ => sets_compare (fun _ => rfl) fun _ _ => rfl,
    fun _ => sets_compare (fun _ => rfl) fun _ _ => rfl,
    fun _ => sets_compare (fun _ => rfl) fun _ _ => rfl,
    fun _ => sets_compare (fun _ => rfl) fun _ _ => rfl,
    fun _ => sets_compareI (fun _ => rfl) beq_eq_decide,
    fun _ => sets_compareI (fun _ => rfl) fun _ _ => rfl,
    fun _ => sets_compareI (fun _ => rfl) fun _ _ => rfl,
    fun _ => sets_floatCompare (fun _ => rfl) (beq_eq_decide · _),
    fun _ => sets_floatCompare (fun _ => rfl) (beq_eq_decide · _),
    fun _ => sets_floatCompare (fun _ => rfl) fun _ => by rw [beq_eq_decide, beq_eq_decide, Bool.decide_or],
    fun _ => sets_floatCompare (fun _ => rfl) (beq_eq_decide · _)⟩

theorem predicateResults : Parts.PredicateResults := by
  unfold Parts.PredicateResults
  exact ⟨fun _ => sets_predicate (fun _ => rfl) fun _ _ _ _ => kopFn_eq _ _ _,
    fun _ => sets_predicate (fun _ => rfl) fun _ _ _ _ => rfl,
    fun _ => sets_predicate (fun _ => rfl) fun s c _ hl => readGroupPair_bit _ _ _ hl,
    fun _ => sets_vote (fun _ => rfl) fun c => decide_eq_decide.2 (meets_act_iff c _),
    fun _ => sets_vote (fun _ => rfl) fun c => decide_eq_decide.2 (within_act_iff c _)⟩

/-- Settles O4: predicates by the moulds of their instructions, votes by the lanes of `act`. -/
theorem comparisons : Obligations.Comparisons := ⟨comparisonResults, predicateResults⟩

end Sys2Proof.Machine
end
